-- ==== Sys2Proof/Word.lean ====
section
/-! DEFINITION. The word types and the shape of a sparse table. Multi-byte fields are little-endian (R5). -/
namespace Sys2Proof

/-- One byte. -/
abbrev Byte := BitVec 8

/-- A 64-bit register of a core, or one 64-bit word of a ring. -/
abbrev Word := BitVec 64

/-- A sparse table by number: entries in strictly rising key order, none equal to the table's default.
`Sys2Proof.Machine.Table` holds its operations. -/
abbrev Tbl (α : Type) := List (Nat × α)

end Sys2Proof
end

