-- ==== Sys2Proof/Syntax.lean ====
section
/-! DEFINITION. The commands the block takes: one constructor per row of spec/opcode_table.json, with the
operands of the row's rule, and the plain data types those operands use. Names of lodes in verbs are global IDs
(R57), numbers of blocks, sets, ports and engines are the chip's own (R74, R158, R301). -/
namespace Sys2Proof

/-- Where a verb comes from (R378, R381, R362): a mailbox slot of a port, the sideband, or a relay on VC 6. `member` is a verb that another
member chip forwarded under a number of its own (R220, R340): it comes in a control packet, never as a command. -/
inductive Via where
  | mailbox (port slot : Nat)
  | sideband
  | relay
  | member (dev num : Nat)
deriving DecidableEq, Repr

/-- Who writes a register (R602, R605, R164). -/
inductive Writer where
  | host (port : Nat)
  | firmware
  | lamp
  | blockAgent (block : Nat)
  | core (block core : Nat)
deriving DecidableEq, Repr

/-- A verb fence: lode memory address on the home chip and the value to signal (R426). -/
structure VFence where
  addr : Nat
  val  : Nat
deriving DecidableEq, Repr

/-- A Drift packet: the header of R321 and its data. -/
structure Packet where
  typ      : Nat
  vc       : Nat
  ddev     : Nat
  sdev     : Nat
  slode    : Nat
  etag     : Nat
  cls      : Nat := 0
  hops     : Nat := 64
  dlrem    : Nat := 0
  rtag     : Nat := 0
  winid    : Nat := 0
  offset   : Nat := 0
  len      : Nat := 0
  ncontrib : Nat := 1
  status   : Nat := 0
  contribs : List (Nat × Nat) := []
  data     : List Byte := []
deriving DecidableEq, Repr

/-- A Utwelas message body (R345). `body` is the payload of R346, field by field. -/
structure UtMsg where
  msg     : Nat
  fromDev : Nat
  txn     : Nat := 0
  subject : Nat := 0
  epoch   : Nat := 0
  status  : Nat := 0
  reqseq  : Nat := 0
  body    : List Nat := []
deriving DecidableEq, Repr

/-- A request at a region memory controller (R193): who issues it, for which lode, under which tag. `cmd`: the position of the command
record it is issued for, none for one of no command; `deadline`: the absolute tick, 0 for none; `retried`: it has been rejected once already (R40). `route`: the set and slot that its master
resolved, which the master fills in (R195). -/
structure MemReq where
  id       : Nat
  master   : Nat
  lode     : Nat
  etag     : Nat
  cls      : Nat := 0
  deadline : Nat := 0
  laddr    : Nat
  len      : Nat
  write    : Bool
  firmware : Bool := false
  cmd      : Option Nat := none
  retried  : Bool := false
  route    : Option (Nat × Nat) := none
  data     : List Byte := []
deriving DecidableEq, Repr

/-- The stores of R203. `req`: the request that met the error, none for the patrol and for firmware. -/
inductive Store where
  | hbm (pc addr : Nat) (req : Option MemReq)
  | cacheData (region way line : Nat) (dirty : Bool) (req : Option MemReq)
  | cacheTag (region way set : Nat)
  | cluster (block off : Nat)
  | scratchpad (block core off : Nat)
  | operand (block engine off : Nat)
  | accumulator (block engine tile row col : Nat)
  | syncPage (page idx : Nat) (isBarrier : Bool)
  | combEntry (router : Nat)
  | switchEntry
  | descriptor (lode : Nat) (pos : Nat)
  | ctxImage (ctx : Nat)
  | dmaUnit (unit : Nat)
deriving DecidableEq, Repr

/-- The units of the retirement map and the fault counts (R523, R530, R557): kind as in the generic body of R557
(1 core, 2 engine, 3 block, 4 region DMA engine, 5 pseudo-channel, 6 cache way, 7 Drift lane, 8 sync page, 9 link),
and the number within the kind. -/
structure HwUnit where
  kind : Nat
  num  : Nat
deriving DecidableEq, Repr

/-- A reduction packet of the mesh (R283): one 64-byte line and the contributors it names. -/
structure RedPkt where
  lode     : Nat
  etag     : Nat
  dblock   : Nat
  dline    : Nat
  rop      : Nat
  efmt     : Nat
  contribs : List (Nat × Nat)
  data     : List Byte
  alone    : Bool := false
deriving DecidableEq, Repr

/-- A reset domain and its number (R551). -/
inductive Domain where
  | cell (block : Nat) (engine : Bool) (num : Nat)
  | block (b : Nat)
  | region (r : Nat)
  | chip
deriving DecidableEq, Repr

/-- A waiting request of an on-chip arbiter (R294). `dl` is the tick read from the carried deadline (R295), 0 for none. `own`: it holds a slot
reserved for its class (R202); `cmd`: lode and position of the command it is issued for. -/
structure ArbReq where
  id      : Nat
  cls     : Nat
  conform : Bool
  dl      : Nat
  bytes   : Nat
  own     : Bool := false
  cmd     : Option (Nat × Nat) := none
deriving DecidableEq, Repr

/-- The commands: one constructor per row of spec/opcode_table.json, in the table's order. -/
inductive Instr where
  | registerWrite (who : Writer) (offset size value : Nat)
  | rcRegisterRead (port offset size : Nat)
  | lodeCreate (via : Via) (blocks : Nat) (sets : List Nat) (credits : List Nat) (pasid port : Nat) (conf : Bool)
  | lodeDestroy (via : Via) (gid : Nat)
  | lodeQuery (via : Via) (gid : Nat)
  | blockMove (via : Via) (blocks donor receiver deadline : Nat)
  | channelMove (via : Via) (set donor receiver rate : Nat)
  | granuleMigrate (via : Via) (lode : Nat) (granules : List Nat) (dest rate : Nat)
  | creditMove (via : Via) (port units donor receiver : Nat)
  | rebindAbort (via : Via) (op : Nat)
  | blockDrained (block : Nat)
  | rebindDrainTimeout (op : Nat)
  | epochDrained (lode : Nat)
  | granuleCopyDone (lode granule : Nat)
  | endOfForward (lode granule : Nat)
  | staleEpochRetry (req : Nat)
  | lmBlockDrainWrite (who : Writer) (block value : Nat)
  | lmBlockDetach (who : Writer)
  | lmBlockAttach (who : Writer)
  | lmSetCutover (who : Writer)
  | lmSetAttach (who : Writer)
  | lmCreditMove (who : Writer)
  | lmStageHoldExpiry
  | imageBegin (via : Via) (slot len : Nat)
  | imageData (via : Via) (session offset : Nat) (bytes : List Byte)
  | imageCommit (via : Via) (session : Nat)
  | imageAbort (via : Via) (session : Nat)
  | imageSelect (via : Via) (slot : Nat) (trial : Bool)
  | imageConfirm (via : Via)
  | imageStatus (via : Via)
  | imagePolicySet (via : Via) (policy alg offset : Nat) (final : Bool) (chunk : List Byte)
  | imageSessionTimeout
  | meIssue (block core rd rs1 rs2 : Nat)
  | meLoad (block engine : Nat)
  | meMma (block engine : Nat)
  | meAccRead (block engine : Nat)
  | meStore (block engine : Nat)
  | meTranspose (block engine : Nat)
  | meReduceSend (block engine : Nat)
  | meAccLoad (block engine : Nat)
  | meCommandDone (block engine : Nat)
  | meBoundExpiry (block engine : Nat)
  | meClockGate (block engine : Nat)
  | reduceAck (id line : Nat) (status : Nat)
  | dmaIssue (block core rd rs1 : Nat)
  | dmaCopy (unit : Nat)
  | dmaConvert (unit : Nat)
  | dmaFill (unit : Nat)
  | windowPut (unit : Nat)
  | windowGet (unit : Nat)
  | dmaChunkDone (unit : Nat) (ok : Bool)
  | semWait (block core rd rs1 rs2 scope : Nat)
  | semPost (block core rs1 rs2 scope : Nat)
  | semTry (block core rd rs1 rs2 scope : Nat)
  | barArrive (block core rs1 : Nat)
  | fenceS (block core funct7 : Nat)
  | spwSel (block core rd rs1 rs2 : Nat)
  | vcvt (block core vd rs1 vs2 : Nat)
  | coreInstruction (block core word : Nat)
  | coreLoadStore (block core word : Nat)
  | coreAmo (block core word : Nat)
  | coreLr (block core word : Nat)
  | coreSc (block core word : Nat)
  | coreFence (block core pred succ : Nat)
  | gcClassWrite (block core value : Nat)
  | gcDeadlineWrite (block core value : Nat)
  | gcSrSeedWrite (block core value : Nat)
  | svExit (block core : Nat)
  | svAbort (block core : Nat)
  | svTrace (block core : Nat)
  | coreException (block core cause tval : Nat)
  | tlbWalkDone (block core : Nat)
  | launchStart (block : Nat)
  | launchComplete (lode pos : Nat)
  | rowSpareRemap (block row : Nat) (badLines : List Nat)
  | memoryRequest (req : MemReq)
  | arbiterServe (arb : Nat)
  | correctedError (unit : HwUnit)
  | uncorrectableError (store : Store)
  | patrolScrubLine (region pc line : Nat) (correctable : Bool)
  | pseudoChannelFailure (pc : Nat)
  | evacuationStart (set : Nat)
  | evacuationResume (set : Nat)
  | xlTableRangeSet (via : Via) (lode dev first count : Nat)
  | xlMirrorWrite (via : Via) (lode dev table level first : Nat) (entries : List Nat)
  | xlInvalidate (via : Via) (lode : Nat) (ctx : Option Nat) (dva len dev : Nat) (fence : VFence)
  | invalidationComplete (num : Nat)
  | xlFqSetup (via : Via) (lode ring : Nat)
  | xlDirtyStart (via : Via) (lode dev ring bitmap : Nat)
  | xlDirtySync (via : Via) (lode dev : Nat) (rearm : Bool)
  | xlDirtyStop (via : Via) (lode dev : Nat)
  | translationFault (block core : Nat)
  | faultRecordWrite (lode : Nat) (hostOk : Bool)
  | faultqStallTimeout (lode : Nat)
  | faultRetry (port lode fseq : Nat)
  | faultFail (port lode fseq : Nat)
  | deadlineTick (cycles : Nat)
  | bucketRefill
  | regCommit (who : Writer) (value : Nat)
  | regCommitHoldExpiry
  | regMinSet (via : Via) (master min depth : Nat)
  | regWeightSet (via : Via) (cls weight : Nat)
  | regLodeBucketSet (via : Via) (master lode rate : Nat)
  | regQuery (via : Via) (isClass : Bool) (num : Nat)
  | syncBind (via : Via) (lode region first count : Nat)
  | syncFree (via : Via) (lode region first count : Nat)
  | barArrivalsSet (via : Via) (lode group arrivals : Nat)
  | semPostApply (sem : Nat)
  | semWaitArrive (sem : Nat)
  | barArrivalApply (group : Nat)
  | reductionPacketArrive (router : Nat) (pkt : RedPkt)
  | combineHoldExpiry (router : Nat)
  | reductionApply (pkt : RedPkt)
  | drPortTrain (port : Nat) (locked : Nat)
  | trainingStepTimeout (port lanesOk : Nat)
  | capabilityRecord (port lo hi dev serial peerPort lanes : Nat)
  | flitReceive (port seq : Nat) (good : Bool) (corrected : List Nat) (acked : Nat)
  | replayRequest (port seq : Nat)
  | replayAckTimeout (port : Nat)
  | peerSilentTimeout (port : Nat)
  | laneRetire (port lane : Nat)
  | lowrateWakeEvent (port : Nat)
  | packetForward (port : Nat) (pkt : Packet)
  | escWaitExpiry (port : Nat)
  | creditReturn (port vc : Nat) (slots : Nat) (lode : Option Nat)
  | windowPacketReceive (port : Nat) (pkt : Packet)
  | switchCombineArrive (pkt : Packet)
  | drCombHoldExpiry
  | windowResponse (pkt : Packet)
  | drTimeoutExpiry (rtag : Nat)
  | drPortSet (via : Via) (port : Nat) (enable lowrate : Bool) (laneMask : Nat)
  | drPortQuery (via : Via) (port : Nat)
  | drRouteSet (via : Via) (first : Nat) (entries : List Nat)
  | drWindowOpen (via : Via) (dev win lode ctx kind : Nat) (rights laddr len256 semBase allowLode allowDev devMask : Nat)
  | drWindowClose (via : Via) (dev win : Nat) (fence : VFence)
  | windowCloseDrained (win : Nat)
  | drWindowQuery (via : Via) (dev win : Nat)
  | drTimingSet (via : Via) (timeout escWait hold : Nat) (enable : Bool)
  | drPortRetrain (who : Writer) (port : Nat)
  | drPortEnableWrite (who : Writer) (port : Nat) (enable : Bool)
  | drPortLowrateWrite (who : Writer) (port : Nat) (lowrate : Bool)
  | heartbeatSend
  | peerLost (dev : Nat)
  | utHeartbeat (m : UtMsg)
  | utPrepare (m : UtMsg)
  | utPrepared (m : UtMsg)
  | utPrepareTimeout (txn : Nat)
  | utCommit (m : UtMsg)
  | utCommitted (m : UtMsg)
  | utAbort (m : UtMsg)
  | utTakeover (m : UtMsg)
  | utOffer (m : UtMsg)
  | utAdopted (m : UtMsg)
  | utRevoke (m : UtMsg)
  | utJoin (m : UtMsg)
  | utPool (m : UtMsg)
  | poolTick
  | utDevidSet (via : Via) (dev : Nat)
  | utPoolMove (via : Via) (dev fromPool toPool : Nat)
  | utLodeExtend (via : Via) (lode dev blocks : Nat) (sets credits : List Nat)
  | utLodeShrink (via : Via) (lode dev : Nat)
  | utHandoff (via : Via) (reqseq donor receiver extent ckpt : Nat) (fence : VFence)
  | utNotice (via : Via) (dev kind : Nat)
  | utRelease (via : Via) (lode : Nat)
  | utQuery (via : Via) (isPool : Bool) (num : Nat)
  | portReset (port : Nat)
  | drvMaxWrite (port value : Nat)
  | apertureAccess (port offset : Nat) (write : Bool) (len : Nat) (data : List Byte)
  | mbGo (port slot value : Nat) (payload : List Byte)
  | sidebandRequest (verb tag len : Nat) (payload : List Byte)
  | inventory (via : Via)
  | pasidBind (via : Via) (lode port pasid : Nat)
  | pasidUnbind (via : Via) (lode : Nat)
  | apertureMap (via : Via) (port offset size ctx dva : Nat)
  | apertureUnmap (via : Via) (port window : Nat)
  | confKeySet (via : Via) (lode : Nat) (wrapped : List Byte)
  | confRingSetup (via : Via) (lode kind addr : Nat)
  | hostReadCompletion (id : Nat) (ok : Bool) (data : List Byte)
  | sqTailWrite (port lode pos : Nat)
  | recordTake (lode : Nat) (bits : Nat) (tagOk : Bool)
  | waitEvaluate (lode pos : Nat)
  | opLaunch (lode pos : Nat)
  | opCopy (lode pos : Nat)
  | opConvert (lode pos : Nat)
  | opFill (lode pos : Nat)
  | opReduce (lode pos : Nat)
  | opMatmul (lode pos : Nat)
  | opSignal (lode pos : Nat)
  | commandEnd (lode pos : Nat) (hostOk : Bool)
  | queueSetup (via : Via) (lode sq cq eq sqLog cqLog eqLog first : Nat)
  | queueDestroy (via : Via) (lode : Nat) (fence : VFence)
  | queueDestroyDrained (lode : Nat)
  | queueRestart (via : Via) (lode pos : Nat)
  | ctxTeardown (via : Via) (ctx : Nat) (fence : VFence)
  | ctxTeardownDrained (ctx : Nat)
  | cqMirrorRead (via : Via) (lode pos : Nat)
  | scrubEnd (id : Nat)
  | ctxCreate (via : Via) (lode root weight defTag mask res : Nat)
  | ctxRootSet (via : Via) (ctx dev root : Nat)
  | ctxSet (via : Via) (ctx weight defTag mask res : Nat)
  | schSaveReserve (via : Via) (lode dev slots : Nat)
  | schLodeSet (via : Via) (lode quantum idle : Nat)
  | tallyRead (via : Via) (closed : Bool) (num : Nat) (clear : Bool)
  | sliceQuiesce (via : Via) (lode deadline : Nat)
  | quiesceTimeout (lode : Nat)
  | sliceMove (via : Via) (lode dev port : Nat)
  | sliceResume (via : Via) (lode : Nat)
  | quantumExpiry (lode : Nat)
  | idleExpiry (lode : Nat)
  | cyclicGuard (lode : Nat)
  | cyclicSlotStart (lode : Nat)
  | contextStopped (lode : Nat) (chargedNs overrunNs : Nat)
  | switchComplete (lode ns : Nat)
  | overrunTeardown (lode : Nat)
  | assayQuote (via : Via) (lode : Nat) (nonce : List Byte)
  | assayRead (via : Via) (handle obj offset : Nat)
  | assayHandleLapse (source handle : Nat)
  | xmssReservationWritten (attestation : Bool)
  | secEnrol (via : Via)
  | secImageAuthSet (via : Via) (key : List Byte) (alg : Nat) (sig : List Byte)
  | vaultQuery (via : Via) (slot : Nat)
  | vaultRevoke (via : Via) (slot : Nat)
  | orphanZeroise (slot : Nat)
  | vaultRemask (slot r : Nat)
  | fwBegin (via : Via) (slot len : Nat)
  | fwData (via : Via) (session offset : Nat) (bytes : List Byte)
  | fwCommit (via : Via) (session : Nat)
  | fwAbort (via : Via) (session : Nat)
  | fwSelect (via : Via) (slot : Nat) (trial : Bool)
  | fwConfirm (via : Via)
  | fwStatus (via : Via)
  | alarmRaise (source : Nat)
  | powerFailure (written : Nat)
  | railsInRange
  | chipStartup (training : List Nat)
  | hbmTrainingAttemptDone (stack : Nat) (failed : List Nat)
  | bootStepTimeout
  | startupAgentTimeout (block : Nat)
  | xtalFail
  | blockRetention (block : Nat)
  | bridgeClockGate (bridge : Nat)
  | domainWake (kind num : Nat)
  | pwrStateSet (via : Via) (state tick : Nat)
  | autoDozeExpiry
  | chipSleepEntry
  | chipWake
  | wakeTick
  | pwrPolicySet (via : Via) (region policy point : Nat)
  | pwrQuery (via : Via)
  | pwrRestart (via : Via)
  | vreqWrite (who : Writer) (region value : Nat)
  | reqWrite (who : Writer) (block value : Nat)
  | voltageSettled (region : Nat)
  | governorCapFollow (block : Nat)
  | powerSample (watts : List Nat) (inputUj : Nat)
  | computeLoopStep (below1ms : Bool)
  | memoryLoopStep
  | linkLoopStep (byteOrder : List Nat)
  | thermalSample (sensor : Nat) (celsius : Int)
  | thermalTcapStep (region : Nat)
  | thermalShutdown
  | thermalPowerOff
  | thermalRestart
  | hbmTempReport (stack : Nat) (celsius : Int)
  | canaryHeartbeat (silent : List Nat) (headframe : Bool)
  | canaryCheck
  | queueWatchdogExpiry (lode : Nat)
  | watchdogDrainTimeout (lode : Nat)
  | fabricWatchdogExpiry (region : Nat) (hub : Bool)
  | unitFault (unit : HwUnit) (predicted : Bool) (detail : Nat)
  | deferredRetirement (unit : HwUnit)
  | wireGroupFailure (link : Nat)
  | cellReset (block : Nat) (engine : Bool) (num : Nat)
  | blockReset (block cause : Nat)
  | captureTimeout (id : Nat)
  | blockAgentFirstHeartbeat (block : Nat)
  | regionReset (region cause : Nat)
  | chipReset (cause : Nat)
  | resetTimeout (dom : Domain)
  | rasQuery (via : Via) (kind num : Nat)
  | rasCaptureSetup (via : Via) (port addr len : Nat)
  | canSet (via : Via) (lode timeout : Nat)
  | rasReset (via : Via) (scope num : Nat)
  | rasUnretire (via : Via) (port lanes : Nat)
  | eventRecordAccept (typ sev code kind num detail gid : Nat)
  | eventRecordProgrammed
  | opsecTick
  | evrRead (via : Via) (first offset : Nat)
  | evrChallenge (via : Via)
  | evrChallengeLapse
  | evrClear (via : Via) (last alg offset : Nat) (final : Bool) (chunk : List Byte)
  | moduleResetAssert (perst : Bool)
  | moduleResetRelease (perst : Bool)
  | perstAssert (port : Nat)
  | perstRelease (port : Nat)
  | cmaCommit (who : Writer) (block : Nat)
  | cmaDirectWrite (who : Writer) (block : Nat) (value : Bool)
  | cmaShareWrite (who : Writer) (block value : Nat)
  | cmaSafePoint (block : Nat)
  | cmaHoldExpiry (block : Nat)
  | consumerPositionWrite (port lode word value : Nat)
  | bar4Resize (port size : Nat)
  | fwSessionTimeout
  | slotProgramDone (firmware : Bool) (readBack : List Byte)
  | clearErasureDone
  | lampRailChange (stby aux : Bool)
  | mainLowChange (low : Bool)
  | coreCellClockGate (block core : Nat)
  | cmaCommitHoldExpiry (block : Nat)
  | linkSignalDetect (port : Nat) (lanes : Nat)
  | joinReply (dev status : Nat)
  | controlPacketReceive (pkt : Packet) (kind : Nat) (args : List Nat)
  | dutyPhaseChange
deriving DecidableEq, Repr

end Sys2Proof
end

