-- ==== Sys2Proof/Decode.lean ====
section
/-! DEFINITION. The command a word spells by the table's bits. Every row of spec/opcode_table.json has an empty list of
fields: no row gives bits, so no word spells a command (log 5). -/
namespace Sys2Proof

/-- The command that a word of `nbits` bits spells by the table: none, since no row of the table gives bits. -/
def decodeTableWord (_nbits _w : Nat) : Option Instr := none

end Sys2Proof
end

