-- ==== Sys2Proof/Config.lean ====
section
/-! DEFINITION. What the spec leaves open, as constants without a body: nothing in Lean can evaluate them. Each is named
in a row of notes/assumptions. -/
namespace Sys2Proof.Config

/-- The n-th free value drawn (log 4): the value of a result the spec calls undefined or does not state. -/
opaque freeNat : Nat → Nat

/-- The order in which an engine adds the groups of one accumulator element (R105): which of the groups left comes next, by
a serial number and the step (log 30). -/
opaque mmaOrder : Nat → Nat → Nat

/-- Which binary32 an activation gives on a binary32: `near4` takes it when it lies within R109's 4 units in the last place (log 31). -/
opaque activation : Nat → Nat → Nat

/-- The region-cache set of an address of a pseudo-channel (R198: not disclosed; log 36). -/
opaque cacheSet : Nat → Nat → Nat

/-- Whether a signature over a message verifies under a public key: algorithm, key, message, signature (R65, R467; log 50). -/
opaque verifies : Nat → List Byte → List Byte → List Byte → Bool

/-- The signature a module key makes over a message, by key (0 identity, 1 attestation) and one-time index (R467; log 50). -/
opaque sign : Nat → Nat → List Byte → List Byte

/-- The structure-image hash of the factory default image in ROM, which the spec does not give (R64, R84; log 73). -/
opaque factoryImageHash : Nat

/-- `SERIAL` of the factory default image, which the spec does not give (R62, R84; log 73). -/
opaque factoryImageSerial : Nat

/-- The n-th output of the vault's random generator (R464; log 50). -/
opaque drbg : Nat → List Byte

/-- AES-256-GCM sealing under a key: kind, counter, additional data and plaintext give ciphertext and tag (R385; log 51). -/
opaque gcmSeal : Nat → Nat → Nat → List Byte → List Byte → List Byte × List Byte

/-- AES-256-GCM opening: none when the tag fails (R386 to R388; log 51). -/
opaque gcmOpen : Nat → Nat → Nat → List Byte → List Byte → List Byte → Option (List Byte)

/-- The key unwrapped from a wrapped key under the seed of a transport slot, none when the unwrap fails (R384, R480; log 51). -/
opaque unwrapKey : Nat → List Byte → Option Nat

/-- KMAC256 under a key: the seeds of the identity and attestation keys, by customisation string (R458; log 50). -/
opaque digest : Nat → List Byte → List Byte

/-- The result and flags of an unordered floating-point sum reduction, whose order V 1.0 leaves open: by instruction word and
operands (log 34). -/
opaque coreResult : Nat → List Nat → Nat

/-- The firmware authority public key held in ROM (R461, R466; log 50). -/
opaque firmwareKey : List Byte

/-- The ML-KEM-1024 encapsulation key of a seed (R478, R480; log 50). -/
opaque kemKey : Nat → List Byte

/-- The identity root that the PUF yields (R457; log 50). -/
opaque identityRoot : Nat

/-- The public key derived for the identity (0) or attestation (1) key under an enrolment counter (R458; log 50). -/
opaque publicKey : Nat → Nat → List Byte

/-- The draw of the stochastic-rounding generator for an element of a matmul operation, by seed, row and column: how firmware divides
the result over engines, and so which draw an element gets, is open (R99, R143). -/
opaque matmulDraw : Nat → Nat → Nat → Nat

/-- The address of the exit stub that a kernel returns to (R179; log 35). -/
opaque exitStub : Nat

end Sys2Proof.Config
end

