-- ==== Sys2Proof/Machine/Formats.lean ====
section
/-! DEFINITION. Number formats and conversion (R126 to R143, R149, R152): exact values, decoding, rounding, encoding, packing,
MX scales, DLG8 and the stochastic-rounding generator. -/
namespace Sys2Proof.Machine

/-- A value: NaN, an infinity, or `± m × 2^e` exactly; zeros keep their sign. -/
inductive Num where
  | nan
  | inf (neg : Bool)
  | fin (neg : Bool) (m : Nat) (e : Int)
deriving DecidableEq, Repr

/-! ### Flags, in the positions of `ME_FLAGS` and R153 -/

def fNanIn : Nat := 1
def fInvalid : Nat := 2
def fOverflow : Nat := 4
def fIsat : Nat := 8
def fOsat : Nat := 16
def fNanLost : Nat := 32
def fDlgUnder : Nat := 64

/-! ### The formats (R126, R127, R131) -/

/-- A floating-point format: exponent bits, mantissa bits, bias, and what its all-ones exponent holds:
0 infinity and NaN, 1 NaN at all ones only, 2 finite values. -/
structure Flt where
  eb   : Nat
  mb   : Nat
  bias : Nat
  top  : Nat
deriving DecidableEq, Repr

/-- The parameters of a floating-point format code. -/
def fltOf (code : Nat) : Option Flt :=
  match code with
  | 0 => some ⟨8, 23, 127, 0⟩ | 1 => some ⟨5, 10, 15, 0⟩ | 2 => some ⟨8, 7, 127, 0⟩
  | 3 => some ⟨4, 3, 7, 1⟩ | 4 => some ⟨5, 2, 15, 0⟩ | 5 => some ⟨3, 2, 3, 2⟩
  | 6 => some ⟨2, 3, 1, 2⟩ | 7 => some ⟨2, 1, 1, 2⟩ | 12 => some ⟨11, 52, 1023, 0⟩
  | _ => none

/-- The width of an integer format code. -/
def intOf (code : Nat) : Option Nat :=
  match code with
  | 8 => some 8 | 9 => some 4 | 10 => some 32
  | _ => none

/-- Bits of an element of a format code (R126). -/
def fmtBits (code : Nat) : Nat :=
  match code with
  | 0 => 32 | 1 => 16 | 2 => 16 | 3 => 8 | 4 => 8 | 5 => 6 | 6 => 6 | 7 => 4 | 8 => 8 | 9 => 4 | 10 => 32 | 11 => 8
  | 12 => 64 | _ => 8

/-- Whether a format takes MX scales (R134). -/
def mxFmt (code : Nat) : Bool := decide (3 ≤ code) && decide (code ≤ 7)

/-- The largest finite encoding of a format, without sign (R127). -/
def Flt.maxBits (f : Flt) : Nat :=
  match f.top with
  | 0 => (2 ^ f.eb - 1) * 2 ^ f.mb - 1
  | 1 => 2 ^ (f.eb + f.mb) - 2
  | _ => 2 ^ (f.eb + f.mb) - 1

/-- The canonical NaN (R127, R128); 0 where the format has none. -/
def Flt.nanBits (f : Flt) : Nat :=
  match f.top with
  | 0 => (2 ^ f.eb - 1) * 2 ^ f.mb + 2 ^ (f.mb - 1)
  | 1 => 2 ^ (f.eb + f.mb) - 1
  | _ => 0

/-- Infinity, without sign, of a format that has it. -/
def Flt.infBits (f : Flt) : Nat := (2 ^ f.eb - 1) * 2 ^ f.mb

/-- Decodes a floating-point element (R127). -/
def Flt.decode (f : Flt) (b : Nat) : Num :=
  let neg := b.testBit (f.eb + f.mb)
  let e := fld b f.mb f.eb
  let m := b % 2 ^ f.mb
  if e = 2 ^ f.eb - 1 ∧ f.top = 0 then (if m = 0 then .inf neg else .nan)
  else if f.top = 1 ∧ b % 2 ^ (f.eb + f.mb) = 2 ^ (f.eb + f.mb) - 1 then .nan
  else if e = 0 then .fin neg m (1 - f.bias - f.mb)
  else .fin neg (2 ^ f.mb + m) (e - f.bias - f.mb)

/-- T[j] of R137: 2^(j/8) to nearest-even in binary32, in units of 2^−23. -/
def dlgT (j : Nat) : Nat := [8388608, 9147842, 9975792, 10878679, 11863283, 12937002, 14107901, 15384775].getD j 0

/-- The value of a DLG8 element under an offset (R136, R137). -/
def dlgDecode (b : Nat) (o : Int) : Num :=
  let c := b % 128
  if b % 256 = 0 then .fin false 0 0
  else if b % 256 = 128 then .nan
  else .fin (b.testBit 7) (dlgT ((c + 1) % 8)) (((c : Int) + 1) / 8 - 16 + o - 23)

/-- The value of an element. A DLG8 element reads the block's offset byte `o` (R137); E8M0 has the value of R130. -/
def decodeElem (code b o : Nat) : Num :=
  match fltOf code with
  | some f => f.decode (b % 2 ^ fmtBits code)
  | none =>
    match intOf code with
    | some w => .fin (decide (sgn w b < 0)) (sgn w b).natAbs 0
    | none => if code = 11 then (if b % 256 = 255 then .nan else .fin false 1 ((b % 256 : Nat) - 127)) else dlgDecode b (sgn 8 o)

/-! ### Exact arithmetic -/

/-- The value times 2^k. -/
def Num.scale (x : Num) (k : Int) : Num :=
  match x with
  | .fin n m e => .fin n m (e + k)
  | y => y

/-- The exact product; infinity × 0 is NaN. -/
def Num.mul : Num → Num → Num
  | .nan, _ => .nan
  | _, .nan => .nan
  | .inf a, .inf b => .inf (a != b)
  | .inf a, .fin b m _ => if m = 0 then .nan else .inf (a != b)
  | .fin b m _, .inf a => if m = 0 then .nan else .inf (a != b)
  | .fin a m e, .fin b m' e' => .fin (a != b) (m * m') (e + e')

/-- A finite value as an integer count of units 2^u, for u at most its exponent. -/
def toUnits (u : Int) : Num → Int
  | .fin n m e => (if n then -1 else 1) * ((m * 2 ^ (e - u).toNat : Nat) : Int)
  | _ => 0

def Num.isNan : Num → Bool
  | .nan => true
  | _ => false
def Num.isInf : Num → Bool
  | .inf _ => true
  | _ => false
def Num.isZero : Num → Bool
  | .fin _ 0 _ => true
  | _ => false
def Num.neg : Num → Bool
  | .nan => false
  | .inf n => n
  | .fin n _ _ => n
/-- The value with the other sign. -/
def Num.negate : Num → Num
  | .nan => .nan
  | .inf n => .inf (!n)
  | .fin n m e => .fin (!n) m e
/-- The exponent of a finite value's unit. -/
def Num.expo : Num → Int
  | .fin _ _ e => e
  | _ => 0

/-- The exact sum: NaN from a NaN or from both infinities. An exact zero is −0 only when every term is −0. -/
def sumExact (xs : List Num) : Num :=
  if xs.any Num.isNan then .nan
  else if xs.any fun x => x = .inf false then (if xs.any fun x => x = .inf true then .nan else .inf false)
  else if xs.any fun x => x = .inf true then .inf true
  else
    let u := (xs.map Num.expo).foldl min ((xs.headD (.fin false 0 0)).expo)
    let t := (xs.map (toUnits u)).sum
    if t = 0 then .fin (!xs.isEmpty && xs.all fun x => x.neg) 0 0 else .fin (decide (t < 0)) t.natAbs u

/-- Whether |x| < |y| for finite values. -/
def magLt (x y : Num) : Bool :=
  match x, y with
  | .fin _ m e, .fin _ m' e' =>
    let u := min e e'
    decide (m * 2 ^ (e - u).toNat < m' * 2 ^ (e' - u).toNat)
  | .fin _ _ _, .inf _ => true
  | _, _ => false

/-- Whether x < y as real numbers; false for NaN. Zeros compare equal. -/
def Num.lt (x y : Num) : Bool :=
  match x, y with
  | .nan, _ => false
  | _, .nan => false
  | .inf a, .inf b => a && !b
  | .inf a, _ => a
  | _, .inf b => !b
  | x, y =>
    let u := min x.expo y.expo
    decide (toUnits u x < toUnits u y)

/-! ### The generator (R143) -/

/-- One draw of a stochastic-rounding generator: the 16-bit value and the next state; 0 is used as 1. -/
def srDraw (s : Nat) : Nat × Nat :=
  let s := if s % 2 ^ 64 = 0 then 1 else s % 2 ^ 64
  let s := s ^^^ s * 2 ^ 13 % 2 ^ 64
  let s := s ^^^ s / 2 ^ 7
  let s := s ^^^ s * 2 ^ 17 % 2 ^ 64
  (s / 2 ^ 48, s)

/-! ### Rounding (R140, R141) -/

/-- The grid point taken between k and k + 1, when the value lies `rem / den` above k (R141): 0 nearest-even, 1 stochastic with
the draw r, 2 toward zero. -/
def pick (rnd r k rem den : Nat) : Nat :=
  match rnd with
  | 0 => if den < 2 * rem ∨ (2 * rem = den ∧ k % 2 = 1) then k + 1 else k
  | 1 => if r < 65536 * rem / den then k + 1 else k
  | _ => k

/-- |m × 2^e| in units of 2^q, rounded. -/
def roundUnits (rnd r m : Nat) (e q : Int) : Nat :=
  if q ≤ e then m * 2 ^ (e - q).toNat
  else pick rnd r (m / 2 ^ (q - e).toNat) (m % 2 ^ (q - e).toNat) (2 ^ (q - e).toNat)

/-- The unit of the grid of a floating-point format at a magnitude (R141). -/
def Flt.unit (f : Flt) (m : Nat) (e : Int) : Int := max (e + Nat.log2 m) (1 - f.bias) - f.mb

/-- The encoding of the rounded magnitude, as if the exponent field were unbounded: encodings rise with the values. -/
def Flt.magBits (f : Flt) (rnd r m : Nat) (e : Int) : Nat :=
  if m = 0 then 0 else
  let q := f.unit m e
  (q + f.mb + f.bias - 1).toNat * 2 ^ f.mb + roundUnits rnd r m e q

/-- Whether a magnitude lies beyond the largest finite value itself, before rounding (R141 toward zero, R135 for MX blocks). -/
def Flt.beyond (f : Flt) (m : Nat) (e : Int) : Bool :=
  match f.decode f.maxBits with
  | .fin _ m' e' => magLt (.fin false m' e') (.fin false m e)
  | _ => false

/-- How a finite value beyond range is delivered (R110, R135, R152): the formats with infinity give it, but for saturation
and rounding toward zero; the others and MX blocks saturate. -/
def Flt.encode (f : Flt) (rnd r : Nat) (sat mx : Bool) (x : Num) : Nat × Nat :=
  let sign (n : Bool) : Nat := if n then 2 ^ (f.eb + f.mb) else 0
  match x with
  | .nan => if f.top = 2 then (0, fNanLost) else (f.nanBits, 0)
  | .inf n => if f.top = 0 then (sign n + f.infBits, 0) else (sign n + f.maxBits, fOsat)
  | .fin n m e =>
    let b := f.magBits rnd r m e
    if f.maxBits < b ∨ ((mx ∨ rnd = 2) ∧ f.beyond m e) then
      if f.top = 0 ∧ !mx ∧ !sat ∧ rnd ≠ 2 then (sign n + f.infBits, fOsat) else (sign n + f.maxBits, fOsat)
    else (sign n + b, 0)

/-- The integer formats: rounded, then saturated (R110, R141). -/
def intEncode (w rnd r : Nat) (x : Num) : Nat × Nat :=
  let hi : Nat := 2 ^ (w - 1) - 1
  let lim (n : Bool) : Nat := if n then hi + 1 else hi
  let out (n : Bool) (k : Nat) : Nat := wrapInt w (if n then -(k : Int) else k)
  match x with
  | .nan => (0, fNanLost)
  | .inf n => (out n (lim n), fOsat)
  | .fin n m e =>
    let k := if m = 0 then 0 else roundUnits rnd r m e 0
    if lim n < k ∨ (rnd = 2 ∧ magLt (.fin false (lim n) 0) (.fin false m e)) then (out n (lim n), fOsat) else (out n k, 0)

/-! ### DLG8 (R138, R139, R142) -/

/-- ⌊k × log2 (m × 2^e)⌋ for m above 0. -/
def floorLog (k m : Nat) (e : Int) : Int := Nat.log2 (m ^ k) + k * e

/-- The integer n of R138 step 2 chosen under R142. -/
def dlgRound (rnd r m : Nat) (e o : Int) : Int :=
  match rnd with
  | 0 => (floorLog 16 m e + 1) / 2 - 8 * o
  | 1 =>
    let fine := floorLog (8 * 65536) m e
    let t := fine / 65536
    (if (r : Int) < fine % 65536 then t + 1 else t) - 8 * o
  | _ => floorLog 8 m e - 8 * o

/-- Quantises a value to DLG8 with an offset (R138). -/
def dlgEncode (rnd r : Nat) (o : Int) (x : Num) : Nat × Nat :=
  let sign (n : Bool) : Nat := if n then 128 else 0
  match x with
  | .nan => (0x80, 0)
  | .inf n => (sign n + 127, fOsat)
  | .fin _ 0 _ => (0, 0)
  | .fin n m e =>
    let c := 127 + dlgRound rnd r m e o
    if 127 < c then (sign n + 127, fOsat) else if c ≤ 0 then (0, fDlgUnder) else (sign n + c.toNat, 0)

/-- The largest magnitude of a block, NaN left out: none of them, an infinity, or a finite value. -/
def amax (xs : List Num) : Num :=
  xs.foldl (fun a x => match x with
    | .nan => a
    | .inf _ => .inf false
    | .fin _ m e => match a with
      | .inf _ => a
      | _ => if magLt a (.fin false m e) then .fin false m e else a) (.fin false 0 0)

/-- The offset byte that R139 computes for a block. -/
def dlgOffset (xs : List Num) : Nat :=
  match amax xs with
  | .fin _ m e =>
    if m = 0 then 0x80 else
    let up : Int := Nat.log2 m + e + if 2 ^ Nat.log2 m = m then 0 else 1
    wrapInt 8 (max (-128) (min 127 up))
  | _ => 127

/-! ### MX scales (R111, R135) -/

/-- The exponent of the largest normal value of an MX format (R111). -/
def emax (code : Nat) : Int :=
  match code with
  | 3 => 8 | 4 => 15 | 5 => 4 | _ => 2

/-- The scale byte computed for a block (R111, R135). -/
def mxScale (code : Nat) (xs : List Num) : Nat :=
  if (code = 5 ∨ code = 6 ∨ code = 7) ∧ xs.any Num.isNan then 0xFF
  else match amax xs with
    | .fin _ m e => if m = 0 then 0 else (max 0 (min 254 (Nat.log2 m + e - emax code + 127))).toNat
    | _ => 0xFE

/-! ### Encoding one element (R149 step 5) -/

/-- How the destination's scale or offset stands: none, or a byte that its block's elements are divided by. -/
def encodeElem (code rnd r : Nat) (sat : Bool) (blk : Option Nat) (x : Num) : Nat × Nat :=
  match fltOf code with
  | some f => match blk with
    | some s => f.encode rnd r sat true (if s = 255 then .nan else x.scale (127 - (s : Int)))
    | none => f.encode rnd r sat false x
  | none => match intOf code with
    | some w => intEncode w rnd r x
    | none => dlgEncode rnd r (sgn 8 (blk.getD 0)) x

/-- Draws for an element: one under stochastic rounding, none otherwise (R143). -/
def drawFor (rnd gen : Nat) : Nat × Nat := if rnd = 1 then srDraw gen else (0, gen)

/-- Encodes elements in order: codes, flags, generator. -/
def encodeList (code rnd : Nat) (sat : Bool) (blk : Option Nat) : List Num → Nat → List Nat × List Nat × Nat
  | [], gen => ([], [], gen)
  | x :: t, gen =>
    let (r, gen) := drawFor rnd gen
    let (b, f) := encodeElem code rnd r sat blk x
    let (bs, fs, gen) := encodeList code rnd sat blk t gen
    (b :: bs, f :: fs, gen)

/-! ### Packing (R132, R133) -/

/-- The elements packed in a byte string from bit 0 up. -/
def unpack (code n : Nat) (bs : List Byte) : List Nat :=
  let w := fmtBits code
  let v := unle bs
  (List.range n).map fun i => fld v (w * i) w

/-- The bytes of packed elements. -/
def pack (code : Nat) (es : List Nat) : List Byte :=
  let w := fmtBits code
  le ((w * es.length + 7) / 8) (es.foldr (fun e v => e % 2 ^ w + v * 2 ^ w) 0)

/-- Whether rows of this kind begin on 64-byte lines (R133). -/
def lineRow (code : Nat) (blocks : Bool) : Bool := decide (fmtBits code < 8) || decide (code = 13) || blocks

/-- Bytes a row of `n` elements occupies. -/
def rowBytes (code n : Nat) (blocks : Bool) : Nat :=
  if lineRow code blocks then alignUp (n * fmtBits code / 8) 64 else n * fmtBits code / 8

end Sys2Proof.Machine
end

