-- ==== Sys2Proof/Machine/Convert.lean ====
section
/-! DEFINITION. Conversion (R145 to R154): the descriptor, the checks of R151 that need no translation, the rows of a transfer and
their elements, and the stop points. VCVT and the region DMA engines share it. -/
namespace Sys2Proof.Machine

/-- What a conversion does (R148, R177): formats, rounding, saturation, prescale, source and destination modes. -/
structure Conv where
  sf  : Nat
  df  : Nat
  rnd : Nat
  sat : Bool
  pre : Option Nat
  ss  : Bool
  ds  : Nat
deriving DecidableEq, Repr

/-- The conversion of a descriptor (R148). -/
def convOf (c : Nat) : Conv :=
  { sf := fld c 0 4, df := fld c 4 4, rnd := fld c 20 2, sat := c.testBit 22, pre := if c.testBit 23 then some (fld c 32 32) else none
    ss := c.testBit 16, ds := fld c 18 2 }

/-- Elements of a row (R148). -/
def cvElems (c : Nat) : Nat := fld c 98 24 + 1
def cvSstride (c : Nat) : Nat := fld c 177 12 * 16
def cvDstride (c : Nat) : Nat := fld c 244 12 * 16
def cvSva (c : Nat) : Nat := fld c 122 55
def cvDva (c : Nat) : Nat := fld c 189 55
/-- The generator's first state (R148). -/
def cvSeed (c : Nat) : Nat := fld c 64 32 * 0x100000001

/-- Identical formats without modes: the bits are copied (R150). -/
def Conv.bitCopy (c : Conv) : Bool := decide (c.sf = c.df) && !c.ss && decide (c.ds = 0) && c.pre.isNone

/-- The checks on pair and modes: R24 first, then R150 (R151 order 1). -/
def Conv.check (c : Conv) : Nat :=
  if 14 ≤ c.sf ∨ 14 ≤ c.df ∨ c.rnd = 3 ∨ c.ds = 3 then 0x0001
  else if c.sf = 11 ∨ c.df = 11 then (if c.bitCopy then 0 else 0x0A01)
  else if c.sf = 13 ∧ !c.ss then 0x0A01
  else if c.sf ≠ 13 ∧ !mxFmt c.sf ∧ c.ss then 0x0A01
  else if c.df = 13 ∧ c.ds = 0 then 0x0A01
  else if c.df ≠ 13 ∧ !mxFmt c.df ∧ c.ds ≠ 0 then 0x0A01
  else 0

/-- Bytes of a row on each side (R133). -/
def cvSrow (c : Nat) : Nat := rowBytes (convOf c).sf (cvElems c) (convOf c).ss
def cvDrow (c : Nat) : Nat := rowBytes (convOf c).df (cvElems c) (decide ((convOf c).ds ≠ 0))

/-- Rows of a transfer of `len` source bytes, and its destination bytes. -/
def cvRows (c len : Nat) : Nat := len / cvSrow c
def cvDlen (c len : Nat) : Nat := cvRows c len * cvDrow c

/-- R151 order 2: whole rows; row lengths and strides under R133 and R150. -/
def cvShapeOk (c len : Nat) : Bool :=
  let v := convOf c
  let n := cvElems c
  let blocks := v.ss || decide (v.ds ≠ 0)
  let narrow := decide (fmtBits v.sf < 8) || decide (fmtBits v.df < 8)
  (!(blocks || narrow) || decide (n % 32 = 0)) && (!v.ss || decide (n / 32 ≤ cvSstride c)) &&
    (decide (v.ds = 0) || decide (n / 32 ≤ cvDstride c)) && decide (0 < cvSrow c) && decide (0 < len) && decide (len % cvSrow c = 0)

/-- Bytes of an array from its address to the end of its last row, 0 when it is not in use. -/
def cvSpan (used : Bool) (stride rows n : Nat) : Nat := if used ∧ 0 < rows then stride * (rows - 1) + n / 32 else 0
def cvSspan (c len : Nat) : Nat := cvSpan (convOf c).ss (cvSstride c) (cvRows c len) (cvElems c)
def cvDspan (c len : Nat) : Nat := cvSpan (decide ((convOf c).ds ≠ 0)) (cvDstride c) (cvRows c len) (cvElems c)

/-! ### Elements (R149) -/

/-- Steps 1 to 3 for one element whose block has the scale or offset byte `o`: value and flags (R152). A prescale that is NaN makes the value
a NaN like one that was read. -/
def Conv.load (c : Conv) (b o : Nat) : Num × Nat :=
  let x := decodeElem c.sf b o
  let x := if c.ss ∧ c.sf ≠ 13 then (if o = 255 then .nan else x.scale ((o : Int) - 127)) else x
  let f := if x.isNan then fNanIn else 0
  match c.pre with
  | none => (x, f)
  | some p =>
    let m := decodeElem 0 p 0
    let y := x.mul m
    (y, f ||| (if m.isNan then fNanIn else 0) ||| if y.isNan && !x.isNan && !m.isNan then fInvalid else 0)

/-- Steps 4 and 5 for a block of 32: codes, its scale or offset byte, flags, generator. `o` is the byte read under mode 2. -/
def Conv.storeBlock (c : Conv) (xs : List Num) (o gen : Nat) : List Nat × Nat × Nat × Nat :=
  let s := if c.ds = 1 then (if c.df = 13 then dlgOffset xs else mxScale c.df xs) else o
  let lost := if c.ds = 1 ∧ c.df ≠ 13 ∧ s = 255 then fNanLost else 0
  let (es, fs, gen) := encodeList c.df c.rnd c.sat (some s) xs gen
  (es, s, fs.foldl (· ||| ·) lost, gen)

/-- The runs of 32. -/
def runs32 {α : Type} : Nat → List α → List (List α)
  | 0, _ => []
  | _ + 1, [] => []
  | n + 1, l => l.take 32 :: runs32 n (l.drop 32)

/-- Converts elements of a row from a block boundary on: codes, destination bytes of the array, flags under R153, generator. `so` and
`do` are the scale or offset bytes of the blocks, from the first one's. -/
def Conv.row (c : Conv) (codes so dd : List Nat) (gen : Nat) : List Nat × List Nat × Nat × Nat :=
  if c.bitCopy then (codes, [], 0, gen)
  else
    let vals := codes.zipIdx.map fun p => c.load p.1 (so.getD (p.2 / 32) 0)
    let f0 := vals.foldl (fun f x => f ||| x.2) 0
    if c.ds = 0 then
      let (es, fs, gen) := encodeList c.df c.rnd c.sat none (vals.map (·.1)) gen
      (es, [], (fs.foldl (· ||| ·) f0) &&& 115, gen)
    else
      let (es, sc, f, gen) := (runs32 (vals.length / 32 + 1) (vals.map (·.1))).zipIdx.foldl
        (fun (st : List Nat × List Nat × Nat × Nat) blk =>
          let (es, s, f, gen) := c.storeBlock blk.1 (dd.getD blk.2 0) st.2.2.2
          (st.1 ++ es, st.2.1 ++ [s], st.2.2.1 ||| f, gen)) ([], [], f0, gen)
      (es, if c.ds = 1 then sc else [], f &&& 115, gen)

/-! ### Stop points (R154) -/

/-- Elements of a packing group. -/
def packGroup (code : Nat) : Nat :=
  match fmtBits code with
  | 4 => 2 | 6 => 4 | _ => 1

/-- The granularity of a transfer's stop points in elements. -/
def cvStep (c : Nat) : Nat :=
  let v := convOf c
  if v.ss ∨ v.ds ≠ 0 then 32 else Nat.lcm (packGroup v.sf) (packGroup v.df)

/-- The first stop point at or after a source byte, as row and element. -/
def cvPoint (c b : Nat) : Nat × Nat :=
  let off := b % cvSrow c
  let e := alignUp ((off * 8 + fmtBits (convOf c).sf - 1) / fmtBits (convOf c).sf) (cvStep c)
  if off = 0 then (b / cvSrow c, 0) else if cvElems c ≤ e then (b / cvSrow c + 1, 0) else (b / cvSrow c, e)

/-- Source and destination bytes at a point. -/
def cvSrcAt (c : Nat) (p : Nat × Nat) : Nat := p.1 * cvSrow c + p.2 * fmtBits (convOf c).sf / 8
def cvDstAt (c : Nat) (p : Nat × Nat) : Nat := p.1 * cvDrow c + p.2 * fmtBits (convOf c).df / 8
/-- Array bytes done at a point. -/
def cvArrAt (c : Nat) (p : Nat × Nat) : Nat :=
  if p.2 ≠ 0 then cvDstride c * p.1 + p.2 / 32 else if p.1 = 0 then 0 else cvDstride c * (p.1 - 1) + cvElems c / 32

/-- The stop that ends the chunk that starts at source byte `pos` of a transfer of `len`. -/
def cvNext (c len pos : Nat) : Nat × Nat :=
  let b := (pos / 4096 + 1) * 4096
  if len ≤ b then (cvRows c len, 0)
  else
    let p := cvPoint c b
    if cvRows c len ≤ p.1 then (cvRows c len, 0) else p

/-- The pieces of rows between two points: row, first element, end. -/
def cvPieces (c : Nat) (p q : Nat × Nat) : List (Nat × Nat × Nat) :=
  (List.range (q.1 + 1 - p.1)).filterMap fun i =>
    let lo := if i = 0 then p.2 else 0
    let hi := if p.1 + i = q.1 then q.2 else cvElems c
    if lo < hi then some (p.1 + i, lo, hi) else none

end Sys2Proof.Machine
end

