-- ==== Sys2Proof/Machine/Codes.lean ====
section
/-! DEFINITION. The error codes of R427. -/
namespace Sys2Proof.Machine.Err
/-- E_RESERVED_ENCODING -/
abbrev reservedEncoding : Nat := 0x0001
/-- E_MB_VERB -/
abbrev mbVerb : Nat := 0x0002
/-- E_MB_LENGTH -/
abbrev mbLength : Nat := 0x0003
/-- E_GEN_UNSETTLED -/
abbrev genUnsettled : Nat := 0x0004
/-- E_PASID_BUSY -/
abbrev pasidBusy : Nat := 0x0005
/-- E_APERTURE -/
abbrev aperture : Nat := 0x0006
/-- E_HOST_ACCESS -/
abbrev hostAccess : Nat := 0x0007
/-- E_IMAGE_CHECK -/
abbrev imageCheck : Nat := 0x0010
/-- E_IMAGE_FORMAT -/
abbrev imageFormat : Nat := 0x0011
/-- E_IMAGE_TARGET -/
abbrev imageTarget : Nat := 0x0012
/-- E_IMAGE_SEMANTIC -/
abbrev imageSemantic : Nat := 0x0013
/-- E_IMAGE_BUSY -/
abbrev imageBusy : Nat := 0x0014
/-- E_IMAGE_SESSION -/
abbrev imageSession : Nat := 0x0015
/-- E_CANCELLED -/
abbrev cancelled : Nat := 0x0101
/-- E_PRODUCER_LOST -/
abbrev producerLost : Nat := 0x0102
/-- E_COMPLETION_UNDELIVERED -/
abbrev completionUndelivered : Nat := 0x0103
/-- E_CMD_FORMAT -/
abbrev cmdFormat : Nat := 0x0104
/-- E_CMD_SLOTS -/
abbrev cmdSlots : Nat := 0x0105
/-- E_QUEUE_STATE -/
abbrev queueState : Nat := 0x0106
/-- E_ME_BOUND -/
abbrev meBound : Nat := 0x0120
/-- E_ME_OPERAND -/
abbrev meOperand : Nat := 0x0121
/-- E_ME_TILE_TYPE -/
abbrev meTileType : Nat := 0x0122
/-- E_ME_DEST -/
abbrev meDest : Nat := 0x0123
/-- E_ME_ABSENT -/
abbrev meAbsent : Nat := 0x0124
/-- E_GC_FAULT -/
abbrev gcFault : Nat := 0x0130
/-- E_GC_SEM -/
abbrev gcSem : Nat := 0x0131
/-- E_GC_DMA -/
abbrev gcDma : Nat := 0x0132
/-- E_GC_WINDOW -/
abbrev gcWindow : Nat := 0x0133
/-- E_KERNEL_ERROR -/
abbrev kernelError : Nat := 0x0134
/-- E_OBJECT_FREED -/
abbrev objectFreed : Nat := 0x0201
/-- E_FAULTQ_OVERFLOW -/
abbrev faultqOverflow : Nat := 0x0202
/-- E_EXTENT_LIMIT -/
abbrev extentLimit : Nat := 0x0203
/-- E_XL_FAULT -/
abbrev xlFault : Nat := 0x0204
/-- E_XL_GRANULE -/
abbrev xlGranule : Nat := 0x0205
/-- E_XL_TABLE -/
abbrev xlTable : Nat := 0x0206
/-- E_XL_CONTEXT -/
abbrev xlContext : Nat := 0x0207
/-- E_STALE_EPOCH -/
abbrev staleEpoch : Nat := 0x0301
/-- E_REBIND_TIMEOUT -/
abbrev rebindTimeout : Nat := 0x0302
/-- E_LODE_LIMIT -/
abbrev lodeLimit : Nat := 0x0303
/-- E_RESOURCE_BUSY -/
abbrev resourceBusy : Nat := 0x0304
/-- E_LODE_MINIMUM -/
abbrev lodeMinimum : Nat := 0x0305
/-- E_NO_CAPACITY -/
abbrev noCapacity : Nat := 0x0306
/-- E_MIGRATION_FAILED -/
abbrev migrationFailed : Nat := 0x0307
/-- E_EXPERT_LOCKED -/
abbrev expertLocked : Nat := 0x0308
/-- E_LODE_UNKNOWN -/
abbrev lodeUnknown : Nat := 0x0309
/-- E_WIN_UNKNOWN -/
abbrev winUnknown : Nat := 0x0401
/-- E_WIN_DENIED -/
abbrev winDenied : Nat := 0x0402
/-- E_WIN_RANGE -/
abbrev winRange : Nat := 0x0403
/-- E_DR_UNREACHABLE -/
abbrev drUnreachable : Nat := 0x0404
/-- E_DR_TIMEOUT -/
abbrev drTimeout : Nat := 0x0405
/-- E_DR_LINK -/
abbrev drLink : Nat := 0x0406
/-- E_DR_NO_DEVID -/
abbrev drNoDevid : Nat := 0x0407
/-- E_PEER_LOST -/
abbrev peerLost : Nat := 0x0501
/-- E_REISSUED -/
abbrev reissued : Nat := 0x0502
/-- E_UT_QUORUM -/
abbrev utQuorum : Nat := 0x0503
/-- E_UT_RECORDS_FULL -/
abbrev utRecordsFull : Nat := 0x0504
/-- E_UT_DEVID -/
abbrev utDevid : Nat := 0x0505
/-- E_UT_ABORTED -/
abbrev utAborted : Nat := 0x0506
/-- E_OVERRUN -/
abbrev overrun : Nat := 0x0601
/-- E_CONTEXT_LIMIT -/
abbrev contextLimit : Nat := 0x0602
/-- E_REG_OVERSUB -/
abbrev regOversub : Nat := 0x0620
/-- E_ALARM_LOCKED -/
abbrev alarmLocked : Nat := 0x0701
/-- E_VAULT_DENIED -/
abbrev vaultDenied : Nat := 0x0702
/-- E_IDENTITY_RETIRED -/
abbrev identityRetired : Nat := 0x0703
/-- E_IMAGE_SIGNATURE -/
abbrev imageSignature : Nat := 0x0710
/-- E_IMAGE_ROLLBACK -/
abbrev imageRollback : Nat := 0x0711
/-- E_CONF_TAG -/
abbrev confTag : Nat := 0x0720
/-- E_CONF_KEY -/
abbrev confKey : Nat := 0x0721
/-- E_CONF_DENIED -/
abbrev confDenied : Nat := 0x0722
/-- E_CONF_REPLAY -/
abbrev confReplay : Nat := 0x0723
/-- E_THERMAL_SHUTDOWN -/
abbrev thermalShutdown : Nat := 0x0801
/-- E_DVFS_ORDER -/
abbrev dvfsOrder : Nat := 0x0802
/-- E_UNIT_RETIRED -/
abbrev unitRetired : Nat := 0x0901
/-- E_HANG -/
abbrev hang : Nat := 0x0902
/-- E_DOMAIN_RESET -/
abbrev domainReset : Nat := 0x0903
/-- E_MEM_UNCORRECTED -/
abbrev memUncorrected : Nat := 0x0910
/-- E_MEM_POISONED -/
abbrev memPoisoned : Nat := 0x0911
/-- E_REDUCE_LOST -/
abbrev reduceLost : Nat := 0x0920
/-- E_EVR_AUTH -/
abbrev evrAuth : Nat := 0x0930
/-- E_CONV_PAIR -/
abbrev convPair : Nat := 0x0A01
/-- E_CONV_OVERLAP -/
abbrev convOverlap : Nat := 0x0A02
/-- E_CONV_SHAPE -/
abbrev convShape : Nat := 0x0A03
/-- E_CONV_SCALE -/
abbrev convScale : Nat := 0x0A04
/-- E_ME_FORMAT -/
abbrev meFormat : Nat := 0x0A20
end Sys2Proof.Machine.Err
end

