-- ==== Sys2Proof/Machine/State.lean ====
section
/-! DEFINITION. The state of the block: every register, table, queue and mode the spec names, as plain data.
Default values of the fields are the reset values (see INVENTORY.md, State). Sparse tables (`Tbl`) list only
entries that differ from the default of their kind. -/
namespace Sys2Proof.Machine
open Sys2Proof

/-! ### Outputs: what the module sends out -/

/-- What the module sends to its surroundings, in order. -/
inductive Out where
  /-- a write to host memory under a port and PASID, Relaxed Ordering clear (R263, R368); PASID 0 for writes without one (R540) -/
  | hostWrite (port pasid addr : Nat) (data : List Byte)
  /-- a write to host memory whose outcome matters, answered by HOST_READ_COMPLETION without data (R239, R369); `relaxed`: Relaxed Ordering,
  set on data (R368) -/
  | hostPost (port pasid addr : Nat) (relaxed : Bool) (data : List Byte) (id : Nat)
  /-- a read of host memory, answered by HOST_READ_COMPLETION -/
  | hostRead (port pasid addr len id : Nat)
  /-- an MSI-X vector raised on a port (R377) -/
  | msix (port vector : Nat)
  /-- an MCTP notice to the fabric manager (R363, R549): kind, unit, cause -/
  | notice (kind num cause : Nat)
  /-- the response to a sideband verb (R381) -/
  | sidebandResp (tag status : Nat) (data : List Byte)
  /-- the response of a relayed verb (R362) -/
  | relayResp (status : Nat) (data : List Byte)
  /-- a register read's value (R602) -/
  | readData (value : Nat)
  /-- data of a BAR4 read (R372) -/
  | apertureData (data : List Byte)
  /-- a packet sent on a Drift port (R321) -/
  | packet (port : Nat) (pkt : Packet)
  /-- a Utwelas message to a device (R345) -/
  | ut (dev : Nat) (m : UtMsg)
  /-- a forwarded verb or scheduling order on VC 6 (R220, R434) -/
  | control (dev kind : Nat) (args : List Nat)
  /-- the answer of a region memory controller to a request (R193) -/
  | memResp (id status : Nat) (data : List Byte)
  /-- a request served by an arbiter (R294) -/
  | served (arb id : Nat)
  /-- a replay of a Drift port's flits from a sequence number (R309) -/
  | replay (port seq : Nat)
  /-- a request for a replay (R308) -/
  | replayAsk (port seq : Nat)
  /-- receive slots of a virtual channel given back to the peer of a Drift port (R320) -/
  | credit (port vc slots : Nat)
  /-- a reduction packet enters the mesh at its block's router, or a router forwards it (R284): to the router named, or to its block -/
  | reduction (router : Nat) (next : Option Nat) (pkt : RedPkt)
  /-- the way of a request, response or packet: master, number, virtual channel, the ring regions it enters and leaves, its routers (R272, R274) -/
  | way (master id vc : Nat) (ring : Option (Nat × Nat)) (routers : List Nat)
  /-- an acknowledgement of a reduction row (R286) -/
  | reduceAck (id line status : Nat)
  /-- a core's converting request has ended with an error code and the flags of R153 -/
  | requestStatus (block core serial err flags : Nat)
deriving DecidableEq, Repr

/-! ### Lodes (chapter 2) -/

/-- What another member chip holds of a lode, as this chip has learned it: blocks, sets, and its lode index there (0xFF: not known). -/
structure Held where
  blocks : Nat := 0
  sets   : Nat := 0
  idx    : Nat := 0xFF
deriving DecidableEq, Repr

/-- A lode as this chip holds it (R28 to R35, R60, R75). `destroyVias`: the destroy requests that wait for its rebinding operations (R55).
`others`: what each other member chip holds of it, by device (R29). -/
structure Lode where
  gid        : Nat := 0
  epoch      : Nat := 0
  state      : Nat := 0
  prevLive   : Bool := false
  pasid      : Nat := 0
  port       : Nat := 0
  coord      : Bool := false
  home       : Bool := false
  homeDev    : Nat := 0
  members    : List Nat := []
  conf       : Bool := false
  keyless    : Bool := false
  sealed     : Bool := false
  classes    : Nat := 0
  cyclic     : Nat := 0xFF
  frozen     : Bool := false
  transport  : Option Nat := none
  session    : Option Nat := none
  shortfall  : List Nat := []
  thermalEv  : Nat := 0
  destroyVias : List Via := []
  undrained  : List Nat := []
  others     : Tbl Held := []
deriving DecidableEq, Repr

/-- A block's lode-map entry (`LM_BLOCK`, R60) and its reset state (R545). `etag`: the epoch tag that its launch was dispatched with (R36).
`area`: the cores that have written the launch area since their launch began, 32 for another agent (R180). -/
structure Block where
  state     : Nat := 0
  slot      : Nat := 0x7F
  lode      : Nat := 0x7F
  drain     : Bool := false
  resetting : Bool := false
  cause     : Nat := 0
  launch    : Option (Nat × Nat) := none
  etag      : Nat := 0
  rank      : Nat := 0
  emask     : Nat := 15
  slots     : List Nat := []
  entry     : Nat := 0
  constLen  : Nat := 0
  area      : List Nat := []
deriving DecidableEq, Repr

/-- An interleave set (R28, R74, R206 to R209). `state`: 0 not defined, 1 free, 2 bound, 3 leaving, 4 scrubbing,
5 evacuating, 6 degraded. -/
structure ISet where
  state : Nat := 0
  base  : Nat := 0
  count : Nat := 0
  lode  : Nat := 0x7F
deriving DecidableEq, Repr

/-- A granule entry of a channel map (R194) with its migration (R48). `mig`: 0 home or settled, 1 copying, 2 cutover. -/
structure Granule where
  valid  : Bool := false
  lossy  : Bool := false
  mig    : Nat := 0
  set    : Nat := 0
  slot   : Nat := 0
  dset   : Nat := 0
  dslot  : Nat := 0
  copied : Bool := false
  op     : Option Nat := none
  held   : List MemReq := []
deriving DecidableEq, Repr

/-- The kinds of operation that claim resources (R42, R54, R55, R208). `release` is what is left of a rebinding operation that a higher action
ended after its first commit: what has left the donor is drained, scrubbed and freed (R44). -/
inductive OpKind where
  | blockMove | channelMove | granuleMigrate | creditMove | create | destroy | evacuate | expert | release
deriving DecidableEq, Repr

/-- An operation in progress on the lode map (R46, R50, R53, R54, R55, R208, R623). `step` is the step of its rule's table. `begun`:
phase 1 of R39 has begun for the commit it is at; `committed`: a commit of it stands; `stop`: the error of a higher action that ends it at its
next step boundary, 0 for none (R44). -/
structure Op where
  num       : Nat
  kind      : OpKind
  step      : Nat := 1
  donor     : Nat := 0x7F
  receiver  : Nat := 0x7F
  blocks    : List Nat := []
  drained   : List Nat := []
  sets      : List Nat := []
  granules  : List Nat := []
  dest      : Nat := 0
  port      : Nat := 0
  units     : Nat := 0
  moved     : Nat := 0
  rate      : Nat := 8
  deadline  : Nat := 100
  slot      : Nat := 0
  begun     : Bool := false
  committed : Bool := false
  stop      : Nat := 0
  epochD    : Nat := 0
  epochR    : Nat := 0
  added     : List Nat := []
  via       : Option Via := none
deriving DecidableEq, Repr

/-- A change of a lode's part of the map (R35), waiting under R38 or committed. -/
inductive Change where
  | detach (op : Nat) (blocks : List Nat)
  | attach (op : Nat) (blocks : List Nat) (slot : Option Nat)
  | cutover (op : Nat)
  | attachSet (op : Nat) (set : Nat)
  | credit (op : Nat)
  | breakSet (set : Nat)
  | retireBlock (block : Nat)
  | members (devs : List Nat) (via : Option Via)
  | extend (dev blocks : Nat) (sets credits devs : List Nat) (via : Option Via)
  | adopt (txn : Nat)
  | remote (dev num : Nat) (words : List Nat)
deriving DecidableEq, Repr

/-- What follows a scrub (R482). -/
inductive ScrubFor where
  | op (num : Nat)
  | destroy (lode : Nat)
  | ctx (ctx : Nat)
  | blockReset (block : Nat)
  | regionReset (region : Nat)
  | freeBlock (block : Nat)
  | freeSet (set : Nat)
  | extend (coord txn : Nat)
  | stranded (pcs : List Nat)
  | syncPages (pages : List Nat) (lode : Option Nat) (via : Via)
  | saveSlot (lode : Nat) (set slot : Nat)
deriving DecidableEq, Repr

/-- A scrub in progress (R482): its number, kind, fixed time in µs, and what it releases. -/
structure Scrub where
  id     : Nat
  micros : Nat
  what   : ScrubFor
deriving DecidableEq, Repr

/-- The group of the staging registers as `LM_STAGE_COMMIT` copied it (R60). -/
structure Stage where
  kind  : Nat := 0
  res   : Nat := 0
  donor : Nat := 0x7F
  recv  : Nat := 0x7F
  slot  : Nat := 0
  units : Nat := 0
  rate  : Nat := 8
deriving DecidableEq, Repr

/-- What a staged step waits for before it is run (R42, R59, R60). -/
inductive StageWait where
  | none | agreement | scrub | ninth
deriving DecidableEq, Repr

/-- The lode map and its staging registers (R28 to R60, R623). `st…` are the staging registers, `live` the group of the step staged last.
`founded`: serials of lodes founded here that left this chip and may exist elsewhere (R32). -/
structure LodeMap where
  lodes      : Tbl Lode := []
  blocks     : Tbl Block := []
  sets       : Tbl ISet := []
  chan       : Tbl Granule := []
  credits    : Tbl Nat := []
  creditUse  : Tbl Nat := []
  save       : Tbl (List (Nat × Nat)) := []
  ops        : List Op := []
  opNext     : Nat := 1
  opHeld     : List Instr := []
  waiting    : List (Nat × Change) := []
  scrubs     : List Scrub := []
  scrubNext  : Nat := 0
  lastSerial : Nat := 0
  stKind     : Nat := 0
  stRes      : Nat := 0
  stDonor    : Nat := 0x7F
  stRecv     : Nat := 0x7F
  stSlot     : Nat := 0
  stUnits    : Nat := 0
  stRate     : Nat := 8
  live       : Stage := {}
  stWait     : StageWait := .none
  founded    : List Nat := []
  opState    : Nat := 0
  opError    : Nat := 0
  mapReady   : Bool := false
  defaulted  : Bool := false
  imageSlot  : Nat := 0
deriving DecidableEq, Repr

/-! ### The structure image (chapter 3) -/

/-- A class of R72. -/
structure ClassDef where
  kind   : Nat := 0
  weight : Nat := 0
  cache  : Nat := 0
  queue  : Nat := 0
deriving DecidableEq, Repr

/-- A lode entry of the image (R75). -/
structure LodeDef where
  blocks  : Nat := 0
  sets    : Nat := 0
  credits : List Nat := []
  pasid   : Nat := 0
  conf    : Bool := false
  sealed  : Bool := false
  port    : Nat := 0
  cyclic  : Nat := 0xFF
  classes : Nat := 0
deriving DecidableEq, Repr

/-- One slot of a cyclic table (R77). -/
structure CycSlot where
  share : Bool := false
  res   : Nat := 0
  len   : Nat := 0
deriving DecidableEq, Repr

/-- A structure image, read (R63 to R78). -/
structure Image where
  format   : Nat := 1
  part     : Nat := 0x2401
  minGen   : Nat := 1
  serial   : Nat := 0
  target   : Nat := 0
  signed   : Bool := false
  hash     : Nat := 0
  migClass : Nat := 0
  hostMode : Nat := 0
  capW     : Nat := 3200
  sealedW  : Nat := 0
  sigCount : Nat := 8
  alarms   : List Nat := [1, 1, 1, 2, 1]
  portEn   : Nat := 0xFFFFFFFF
  attach   : Nat := 0
  classes  : Tbl ClassDef := [(0, { kind := 1, weight := 1, cache := 64, queue := 64 })]
  mins     : List Nat := List.replicate 96 10 ++ List.replicate 64 200 ++ [512]
  sets     : List (Nat × Nat × Nat) := (List.range 24).map fun n => (n, 32 * n, 32)
  lodes    : List LodeDef := []
  cyclic   : List (Nat × List CycSlot) := []
  expert   : Nat := 0
deriving DecidableEq, Repr

/-- A slot of non-volatile memory (R82, R469): 0 empty, 1 valid, 2 being written. -/
structure NvSlot where
  state : Nat := 0
  data  : List Byte := []
deriving DecidableEq, Repr

/-- A session that writes a slot (R86, R87). `map` holds the bytes written so far, by offset. -/
structure Session where
  num    : Nat
  slot   : Nat
  len    : Nat
  map    : Tbl (Option Byte) := []
  commit : Option Via := none
deriving DecidableEq, Repr

/-- A slot pair with its selection record and session, for images (R82) or firmware bundles (R470, R471). -/
structure SlotPair where
  a        : NvSlot := {}
  b        : NvSlot := {}
  pref     : Nat := 0
  trial    : Bool := false
  trialSl  : Nat := 0
  floor    : Nat := 0
  inUse    : Nat := 2
  session  : Option Session := none
  sessNext : Nat := 1
  lastErr  : Nat := 0
deriving DecidableEq, Repr

/-- The image store (R61, R81 to R89, R621). -/
structure ImageStore where
  slots      : SlotPair := {}
  applied    : Image := {}
  policyReq  : Bool := true
  policyCnt  : Nat := 0
  policySig  : Tbl (Option Byte) := []
  sigFails   : Nat := 0
  everApplied : Bool := false
deriving DecidableEq, Repr

/-! ### Matrix engines (chapter 4) -/

/-- An accumulator tile: its type and its elements at row × 128 + column, 0 when not listed (R90). -/
structure Tile where
  int   : Bool := false
  cells : Tbl (BitVec 32) := []
deriving DecidableEq, Repr

/-- An accepted command of an engine (R94): its 256 bits, its issuer (core, 32 for the block agent), whether its
units have performed it, and the epoch tag it was issued with (R36). -/
structure MeCmd where
  bits   : Nat
  issuer : Nat := 32
  ran    : Bool := false
  etag   : Nat := 0
deriving DecidableEq, Repr

/-- A matrix engine (R90 to R124). `flags` holds `ME_FLAGS` [5:0]. -/
structure Engine where
  accSat  : Bool := false
  outSat  : Bool := false
  error   : Nat := 0
  errstop : Bool := false
  gated   : Bool := true
  retired : Bool := false
  busy    : Bool := false
  flags   : Nat := 0
  done    : Nat := 0
  seed    : Nat := 0
  gen     : Nat := 0
  queue   : List MeCmd := []
  tile0   : Tile := {}
  tile1   : Tile := {}
deriving DecidableEq, Repr

/-- A REDUCE_SEND delivery in progress (R115, R286). `pos` of the stream's bytes have been sent; `staged` is what the engine staged;
`lines` are the lines sent and not yet acknowledged, `failed` those that failed, with their errors. -/
structure Delivery where
  id     : Nat
  block  : Nat
  engine : Nat
  lode   : Nat
  dblock : Nat
  etag   : Nat := 0
  bits   : Nat
  pos    : Nat := 0
  staged : List Byte := []
  lines  : List Nat := []
  retried : List Nat := []
  failed : List (Nat × Nat) := []
deriving DecidableEq, Repr

/-! ### General cores (chapter 6) -/

/-- What a stalled core waits for (R166, R233). -/
inductive CoreWait where
  | none
  | walk (va : Nat) (access : Nat)
  | fault (fseq : Nat)
  | sem (sem count rd scope : Nat)
  | barrier (group : Nat)
  | meFull (engine : Nat)
  | dmaFull
  | fence (dma me : Bool)
  | range
deriving DecidableEq, Repr

/-- One TLB entry (R227): a leaf with its level, page, target, rights and context. -/
structure TlbEntry where
  ctx   : Nat
  level : Nat
  page  : Nat
  laddr : Nat
  r     : Bool
  w     : Bool
  a     : Bool
deriving DecidableEq, Repr

/-- A far window's target (R175): kind and block. -/
structure FarWin where
  kind  : Nat
  block : Nat
deriving DecidableEq, Repr

/-- A general core (R158 to R185). `run`: 0 not started, 1 running, 2 exited, 3 stopped by the launch's end. `cause` and `recent`: the cause of its
last exception and the scratchpad lines it touched last, newest first, for a capture (R539). -/
structure Core where
  run      : Nat := 0
  wait     : CoreWait := .none
  gated    : Bool := false
  pc       : Word := 0
  x        : Tbl Word := []
  f        : Tbl Word := []
  v        : Tbl (BitVec 512) := []
  fcsr     : Nat := 0
  vl       : Nat := 0
  vtype    : Nat := 2 ^ 63
  vstart   : Nat := 0
  vcsr     : Nat := 0
  cycle    : Nat := 0
  instret  : Nat := 0
  tag      : Nat := 0
  deadline : Option Nat := none
  gen      : Nat := 0
  xflags   : Nat := 0
  resv     : Option Nat := none
  wins     : Tbl (Option FarWin) := []
  tlb      : List TlbEntry := []
  dmaOut   : Nat := 0
  meOut    : Nat := 0
  status   : Nat := 0
  post     : Bool := false
  cause    : Nat := 0
  recent   : List Nat := []
deriving DecidableEq, Repr

/-- A row's spare (`GC_ROWS`, R187, R189). `absent` masks the logical columns without a physical core. -/
structure Row where
  failed : Nat := 0xF
  spent  : Bool := false
  short  : Bool := false
  absent : Nat := 0
  pendingRemap : Bool := false
deriving DecidableEq, Repr

/-- The cluster-memory floors of a block (R611 to R617): shadow, live, last good values, mode and state. -/
structure Cma where
  shadow  : Nat := 0x202004
  live    : Nat := 0x202004
  good    : Nat := 0x202004
  direct  : Bool := false
  state   : Nat := 0
  error   : Nat := 0
  going   : Bool := false
  hold    : Bool := false
  pendingDirect : Bool := false
deriving DecidableEq, Repr

/-! ### DMA (chapters 5, 6, 14) -/

/-- Where a DMA request came from: a core of a block, a record of a lode, an operation of firmware, or a REDUCE_SEND of a block. -/
inductive DmaOwner where
  | core (block core : Nat)
  | record (lode pos : Nat)
  | firmware (op : Nat)
  | stream (block delivery : Nat)
deriving DecidableEq, Repr

/-- One end of a transfer: extents of lode memory, a chip physical range, host memory under the lode's PASID, or a sealed buffer there
(R387) of so many plaintext bytes with its header. -/
inductive DmaSpace where
  | lode (extents : List (Nat × Nat))
  | phys (addr : Nat)
  | host (addr pos : Nat)
  | sealed (addr len : Nat) (header : List Byte) (pos : Nat)
  | nil
deriving DecidableEq, Repr

/-- A queued DMA request or dispatched operation (R172, R174, R226). `pos` counts source bytes done, `moved` destination bytes,
`arr` bytes of the destination array; `chunk` and the fields after it hold the chunk under way: source bytes, destination
bytes, array bytes, flags and generator after it (R154). `bufD` and `bufN`: plaintext in the bounce buffer that does not fill a chunk
of a sealed destination yet, before and after the chunk under way (R383). `epoch`: the tag of the chunk under way (R36). -/
structure Dma where
  owner    : DmaOwner
  serial   : Nat := 0
  kind     : Nat
  len      : Nat
  src      : DmaSpace := .nil
  dst      : DmaSpace := .nil
  srcVa    : Nat := 0
  dstVa    : Nat := 0
  dlen     : Nat := 0
  ctx      : Nat := 0
  lode     : Nat := 0
  epoch    : Nat := 0
  cls      : Nat := 0
  deadline : Nat := 0
  fill     : Nat := 0
  post     : Bool := false
  sem      : Nat := 0
  conv     : Nat := 0
  convAt   : Nat := 0
  sscale   : DmaSpace := .nil
  dscale   : DmaSpace := .nil
  devid    : Nat := 0
  winid    : Nat := 0
  rop      : Nat := 0
  efmt     : Nat := 0
  pos      : Nat := 0
  moved    : Nat := 0
  chunk    : Nat := 0
  chunkD   : Nat := 0
  chunkA   : Nat := 0
  chunkF   : Nat := 0
  chunkG   : Nat := 0
  arr      : Nat := 0
  arrLen   : Nat := 0
  arrVa    : Nat := 0
  started  : Bool := false
  stale    : Bool := false
  cancel   : Nat := 0
  flags    : Nat := 0
  gen      : Nat := 0
  retries  : Nat := 0
  failed   : List (Nat × Nat × Nat) := []
  waitIds  : List Nat := []
  bufD     : List Byte := []
  bufN     : List Byte := []
deriving DecidableEq, Repr

/-- The compute part: engines by block × 4 + engine, cores by block × 32 + core, DMA queues by unit (blocks 0 to 95,
region DMA engines 96 + region × 4 + e). -/
structure Compute where
  engines  : Tbl Engine := []
  cores    : Tbl Core := []
  rows     : Tbl Row := []
  cma      : Tbl Cma := []
  dma      : Tbl (List Dma) := []
  deliv    : List Delivery := []
  delivNext : Nat := 0
  dmaNext  : Nat := 0
deriving DecidableEq, Repr

/-! ### Memory (chapter 7) -/

/-- A line of a region cache (R198): set, way 0 to 63, line number, dirty, age of use, pinned (R207). -/
structure CLine where
  set    : Nat
  way    : Nat
  line   : Nat
  dirty  : Bool := false
  used   : Nat := 0
  pinned : Bool := false
deriving DecidableEq, Repr

/-- A region's memory and network registers (R212, R299, R201). `patrolNow`: the hours of the patrol pass under way (R205). -/
structure Region where
  waysRet  : Nat := 0
  ceThresh : Nat := 256
  patrol   : Nat := 24
  patrolNow : Nat := 24
  patrolAt : Nat := 0
  errStore : Nat := 0
  errAddr  : Nat := 0
  combHold : Nat := 16
  combEn   : Bool := true
  cache    : List CLine := []
  clock    : Nat := 0
  tier3    : Nat := 8
  resetting : Bool := false
  cause    : Nat := 0
  noComb   : List Nat := []
deriving DecidableEq, Repr

/-- A pseudo-channel (`MEM_PC`, R206, R207, R212). -/
structure PChan where
  retired   : Bool := false
  failed    : Bool := false
  predicted : Bool := false
  stranded  : Bool := false
  ces       : List Nat := []
  ceTotal   : Nat := 0
  lastUe    : Option Nat := none
  uses      : Nat := 0
  refresh2  : Bool := false
deriving DecidableEq, Repr

/-- The memories: bytes by chip physical address (R191), poisoned lines by line number, regions, pseudo-channels. -/
structure Mem where
  bytes   : List Host.Cell := []
  poison  : Tbl Bool := []
  lost    : List Nat := []
  regions : Tbl Region := []
  pcs     : Tbl PChan := []
  retries : Tbl MemReq := []
deriving DecidableEq, Repr

/-! ### Translation (chapter 8) -/

/-- A context's translation entry (`XL_CTX`, R242). -/
structure XlCtx where
  valid : Bool := false
  lode  : Nat := 0
  root  : Nat := 0
deriving DecidableEq, Repr

/-- Who waits at a fault (R232). `member`: an agent of another chip, under that chip's number of the fault. -/
inductive FaultAgent where
  | head (lode pos : Nat)
  | coreAccess (block core : Nat)
  | coreDma (block core : Nat)
  | memctl (lode : Nat)
  | member (dev num kind block core : Nat)
deriving DecidableEq, Repr

/-- A fault (R232) waiting for its ring entry or its reply. -/
structure FaultRec where
  fseq   : Nat
  agent  : FaultAgent
  reason : Nat
  level  : Nat
  access : Nat
  ctx    : Nat
  pos    : Nat
  va     : Nat
  pc     : Nat := 0
  written : Bool := false
deriving DecidableEq, Repr

/-- A lode's translation registers (R235 to R243). -/
structure XlLode where
  tblBase : Nat := 0
  tblCnt  : Nat := 0
  fqReady : Bool := false
  fqAddr  : Nat := 0
  fqProd  : Nat := 0
  fqCons  : Nat := 0
  fqOver  : Bool := false
  fqPeriod : Bool := false
  fseq    : Nat := 0
  faults  : List FaultRec := []
  dlOn    : Bool := false
  dlAddr  : Nat := 0
  dlMap   : Nat := 0
  dlProd  : Nat := 0
  dlCons  : Nat := 0
  coarse  : Bool := false
deriving DecidableEq, Repr

/-- An accepted invalidation (R228). `away`: member chips that have not reported drained; on a member chip, which has no fence, `dev` is the
home chip's number of it. -/
structure Inval where
  num   : Nat
  lode  : Nat
  ctx   : Option Nat
  dva   : Nat
  len   : Nat
  dev   : Nat
  fence : Option VFence
  via   : Option Via := none
  away  : List Nat := []
deriving DecidableEq, Repr

/-- A non-leaf entry in a walker's cache (R227): the table that the entry of a level names, by context and the DVA bits down to that level's
index. -/
structure WalkEntry where
  ctx   : Nat
  level : Nat
  idx   : Nat
  next  : Nat
deriving DecidableEq, Repr

/-- Translation state. `walkers`: the cache of each block's walker, and of the headframe's under 96, newest first (R227). `storeWait`: the lode whose
next record waits for room in the descriptor store (R226). -/
structure Xlate where
  ctxs     : Tbl XlCtx := []
  lodes    : Tbl XlLode := []
  invals   : List Inval := []
  invHeld  : List Inval := []
  invNext  : Nat := 0
  walkers  : Tbl (List WalkEntry) := []
  storeWait : Option Nat := none
deriving DecidableEq, Repr

/-! ### Sync network, reduction, regulation (chapter 10) -/

/-- A page of semaphores or barrier groups (R278, R299, R528). -/
structure SyncPage where
  bound   : Bool := false
  lode    : Nat := 0x7F
  ovf     : Bool := false
  retired : Bool := false
  failing : Bool := false
  scrub   : Bool := false
deriving DecidableEq, Repr

/-- An operation on its way to a sync hub (R168, R277). -/
inductive SyncMsg where
  | post (count : Nat)
  | wait (block core count rd : Nat)
  | try (block core count rd : Nat)
deriving DecidableEq, Repr

/-- A barrier group (R281). An arrival under way: its tag (R36), block and core. -/
structure Barrier where
  target   : Nat := 0
  next     : Nat := 0
  arrivals : Nat := 0
  stalled  : List (Nat × Nat) := []
  inflight : List (Nat × Nat × Nat) := []
  poisoned : Bool := false
deriving DecidableEq, Repr

/-- A semaphore at its hub (R279, R280): value, messages under way with their tags (R36), queued waits, poison (R528). -/
structure Sem where
  value    : Nat := 0
  inflight : List (Nat × SyncMsg) := []
  waits    : List SyncMsg := []
  poisoned : Bool := false
deriving DecidableEq, Repr

/-- A master's bucket (R289): shadow and live `MIN` and `DEPTH`, tokens in bytes, bytes served. -/
structure Master where
  min     : Nat := 0
  depth   : Nat := 16
  minL    : Nat := 0
  depthL  : Nat := 16
  tokens  : Nat := 0
  conform : Nat := 0
  excess  : Nat := 0
deriving DecidableEq, Repr

/-- An arbiter (R294): waiting requests in order of arrival, the class the round robin stands at, deficits. `ingress`: requests that wait at the
controller for a slot of the pseudo-channel's queue, each with whether it conforms (R202). -/
structure Arb where
  queue   : List ArbReq := []
  ingress : List (MemReq × Bool) := []
  turn    : Nat := 0
  deficit : Tbl Nat := []
deriving DecidableEq, Repr

/-- An entry of a master's granule cache (R195): set and slot of a granule. -/
structure GranHit where
  lode : Nat
  gran : Nat
  set  : Nat
  slot : Nat
deriving DecidableEq, Repr

/-- Sync network, combining buffers and regulation. `ingress`: window packets that wait at a Drift port for its bucket (R296); `grans`: each master's granule cache, newest first (R195). -/
structure Noc where
  semPages  : Tbl SyncPage := []
  barPages  : Tbl SyncPage := []
  sems      : Tbl Sem := []
  bars      : Tbl Barrier := []
  masters   : Tbl Master := []
  regState  : Nat := 0
  regError  : Nat := 0
  regGo     : Bool := false
  buckets   : Tbl Nat := []
  bucketTok : Tbl Nat := []
  weights   : Tbl Nat := []
  arbs      : Tbl Arb := []
  comb      : Tbl (List RedPkt) := []
  waiting   : List MemReq := []
  ingress   : List (Nat × Packet) := []
  grans     : Tbl (List GranHit) := []
  served    : Tbl (Nat × Nat) := []
deriving DecidableEq, Repr

/-! ### Drift (chapter 11) -/

/-- A Drift port (R301 to R320, R341). `capLow`: held in low-rate mode by the link loop (R511). -/
structure Port where
  enable   : Bool := false
  lowrate  : Bool := false
  capLow   : Bool := false
  laneOff  : Nat := 0
  state    : Nat := 0
  error    : Nat := 0
  retired  : Nat := 0
  lanes    : Nat := 0
  usable   : Nat := 0
  peerDev  : Nat := 0xFFFF
  peerPort : Nat := 0
  version  : Nat := 0
  discard  : Bool := false
  laneErr  : Tbl Nat := []
  laneFail : Tbl Nat := []
  laneLast : Tbl Nat := []
  rxSeq    : Nat := 0
  txSeq    : Nat := 0
  replayBuf : List (Nat × Packet) := []
  replays  : Nat := 0
  waiting  : List (Option Nat × Packet) := []
  asked    : Bool := false
  poolUse  : Nat := 0
  vcUse    : Tbl Nat := []
  takeDown : Bool := false
  step     : Nat := 0
  peerLo   : Nat := 0
  peerHi   : Nat := 0
  peerSerial : Nat := 0
deriving DecidableEq, Repr

/-- A receive-window entry (R330). -/
structure RWin where
  valid     : Bool := false
  closing   : Bool := false
  kind      : Nat := 0
  r         : Bool := false
  w         : Bool := false
  a         : Bool := false
  len256    : Nat := 0
  laddr     : Nat := 0
  semBase   : Nat := 0
  lode      : Nat := 0x7F
  ctx       : Nat := 0
  devMask   : Nat := 0
  allowDev  : Nat := 0
  allowLode : Nat := 0
  fence     : Option VFence := none
deriving DecidableEq, Repr

/-- An outstanding packet of a window request (R339): the packet under its tag, the DMA unit, where a get's data goes. -/
structure WinReq where
  rtag    : Nat
  unit    : Nat
  pkt     : Packet
  dstOff  : Nat := 0
  retried : Bool := false
deriving DecidableEq, Repr

/-- The Drift switch, windows and routes. -/
structure Drift where
  devid    : Nat := 0
  assigned : Bool := false
  combHold : Nat := 20
  combEn   : Bool := true
  escWait  : Nat := 100
  timeout  : Nat := 200
  ports    : Tbl Port := []
  routes   : Tbl Nat := []
  rwt      : Tbl RWin := []
  out      : List WinReq := []
  rtagNext : Nat := 0
  store    : List Packet := []
  noComb   : Bool := false
deriving DecidableEq, Repr

/-! ### Utwelas (chapter 12) -/

/-- An ownership record (R357). -/
structure URec where
  state    : Nat := 0
  dpool    : Nat := 0
  rpool    : Nat := 0
  acked    : Nat := 0
  base     : Nat := 0
  receiver : Nat := 0
  donor    : Nat := 0
  reqseq   : Nat := 0
  ckpt     : Nat := 0
  fence    : VFence := ⟨0, 0⟩
deriving DecidableEq, Repr

/-- A peer this module exchanges heartbeats with (R348). -/
structure Peer where
  known  : Bool := false
  pool   : Nat := 0
  lost   : Bool := false
  serial : Nat := 0
deriving DecidableEq, Repr

/-- A two-phase change that this module coordinates (R351): its answers so far. `twin`: the change of the other lode of a credit move, which
commits with it (R35, R53). -/
structure Txn where
  num     : Nat
  lode    : Nat
  epoch   : Nat
  devs    : List Nat
  change  : List Nat
  ready   : List Nat := []
  done    : List Nat := []
  failed  : Nat := 0
  phase   : Nat := 2
  via     : Option Via := none
  mine    : Option Change := none
  twin    : Option Nat := none
  info    : Nat := 0xFF
deriving DecidableEq, Repr

/-- A change this module has prepared as a member (R351 step 3). -/
structure Prep where
  coord  : Nat
  txn    : Nat
  lode   : Nat
  epoch  : Nat
  change : List Nat
deriving DecidableEq, Repr

/-- The Utwelas state of this module. `asked`: the changes that this module has asked a lode's coordinator to commit (R39): number, lode,
change. -/
structure Ut where
  pool      : Nat := 0
  poolEpoch : Nat := 0
  poolCoord : Bool := false
  poolMembers : List Nat := []
  tick      : Nat := 100
  records   : Tbl URec := []
  peers     : Tbl Peer := []
  txns      : List Txn := []
  preps     : List Prep := []
  txnNext   : Nat := 1
  adopts    : List (Nat × Nat × Nat) := []
  adopted   : List (Nat × Nat) := []
  asked     : List (Nat × Nat × Change) := []
  askNext   : Nat := 0
deriving DecidableEq, Repr

/-! ### Host port (chapter 13) -/

/-- A mailbox slot (R378). -/
structure MbSlot where
  verb  : Nat := 0
  len   : Nat := 0
  tag   : Nat := 0
  state : Nat := 0
  irq   : Bool := false
  rtag  : Nat := 0
  rlen  : Nat := 0
  rstat : Nat := 0
  resp  : List Byte := []
  req   : List Byte := []
deriving DecidableEq, Repr

/-- A BAR4 aperture window (R372). -/
structure Aper where
  opened : Bool := false
  off    : Nat := 0
  size   : Nat := 0
  ctx    : Nat := 0
  dva    : Nat := 0
deriving DecidableEq, Repr

/-- A host port (R366 to R382, R540, R607). -/
structure HPort where
  settled  : Nat := 0
  drvMax   : Nat := 0
  genDisc  : Bool := false
  rate     : Nat := 0
  width    : Nat := 0
  aperErr  : Nat := 0
  errOff   : Nat := 0
  errCount : Nat := 0
  errReason : Nat := 0
  slots    : Tbl MbSlot := []
  wins     : Tbl Aper := []
  bar4     : Nat := 2 ^ 28
  msix     : Tbl Nat := []
  pba      : Tbl Bool := []
  capAddr  : Nat := 0
  capLen   : Nat := 0
  capUsed  : Nat := 0
  handles  : List (Nat × List Byte × Nat) := []
deriving DecidableEq, Repr

/-- A device read of host memory under way (R369): what its data is for; `dirtyEntry` is the write of an entry of a dirty log (R239). `cipher` is ciphertext of chunks of a sealed buffer from
chunk `first` on, whose tags are read next (`tags`); of the plaintext, bytes `skip` to `skip + len` go to `next` (R387). -/
inductive HostReadFor where
  | sqEntry (lode : Nat)
  | dma (unit serial off len : Nat)
  | reduceSrc (lode pos : Nat)
  | reduceDst (lode pos : Nat)
  | sealedHdr (lode pos : Nat)
  | dirtyEntry (lode : Nat)
  | post (lode pos : Nat) (lost : Nat × Nat × Nat × Nat)
  | cipher (lode addr total : Nat) (header : List Byte) (first skip len : Nat) (next : HostReadFor)
  | tags (lode : Nat) (header : List Byte) (first skip len : Nat) (bytes : List Byte) (next : HostReadFor)
deriving DecidableEq, Repr

/-- The host ports and sideband. -/
structure HostIf where
  ports    : Tbl HPort := []
  reads    : Tbl (Option (Nat × HostReadFor)) := []
  readNext : Nat := 0
  side     : Option (Nat × Nat × List Byte) := none
  sideHandles : List (Nat × List Byte × Nat) := []
  handleNext : Nat := 0
deriving DecidableEq, Repr

/-! ### Queues (chapter 14) -/

/-- A taken command record (R397 to R404). `stage`: 0 held, 1 released, 2 dispatched, 3 ended, 4 waiting at a translation
fault, 5 waiting for the header of a sealed buffer. `cancel`: cancelled by 1 a destroy or a watchdog, 2 a teardown. `parts`: the blocks of a launch in rank order. `hdr`: a sealed header. `fences`: lode memory addresses of the signal fence and the two wait fences, 0 for none. `res`: the resources it
names: DVA, length, extents (R225). `failed`: unit kind, code, start, length (R417). -/
structure Rec where
  pos     : Nat
  bits    : Nat
  stage   : Nat := 0
  error   : Nat := 0
  inherited : Bool := false
  fences  : List Nat := []
  res     : List (Nat × Nat × List (Nat × Nat)) := []
  stale   : Bool := false
  detail  : List Nat := []
  failed  : List (Nat × Nat × Nat × Nat) := []
  wrote   : Bool := false
  ran     : Bool := false
  cancel  : Nat := 0
  silent  : Bool := false
  result  : Nat := 0
  parts   : List Nat := []
  moved   : Nat := 0
  consts  : List Byte := []
  hdr     : List Byte := []
  remote  : Option Nat := none
deriving DecidableEq, Repr

/-- A lode's queue (R392 to R396, R413 to R417) and its confidential counters (R384 to R389). -/
structure Queue where
  state    : Nat := 0
  error    : Nat := 0
  eqLost   : Bool := false
  undeliv  : Bool := false
  badTail  : Bool := false
  sqTail   : Nat := 0
  sqHead   : Nat := 0
  cqTail   : Nat := 0
  cqHead   : Nat := 0
  undelPos : Nat := 0
  eqProd   : Nat := 0
  eqCons   : Nat := 0
  errSeq   : Nat := 0
  sqAddr   : Nat := 0
  cqAddr   : Nat := 0
  eqAddr   : Nat := 0
  sqLog    : Nat := 0
  cqLog    : Nat := 0
  eqLog    : Nat := 0
  recs     : List Rec := []
  mirror   : List (Nat × Nat) := []
  fence    : Option VFence := none
  hdFloor  : Nat := 0
  dhCount  : Nat := 0
  fqCount  : Nat := 0
  dlCount  : Nat := 0
  tagRings : Tbl (Option Nat) := []
  keyGen   : Nat := 0
deriving DecidableEq, Repr

/-! ### Scheduling (chapter 15) -/

/-- The Tally counters of a context (R450). -/
structure Tally where
  meNs    : Nat := 0
  gcNs    : Nat := 0
  hbm     : Nat := 0
  drift   : Nat := 0
  host    : Nat := 0
  energy  : Nat := 0
  overNs  : Nat := 0
  turns   : Nat := 0
  overs   : Nat := 0
deriving DecidableEq, Repr

/-- The saved image of one block of a context (R444): its part of a launch, cores, engines, DMA queue and memory bytes by
block offset. -/
structure BlockImg where
  launch  : Option (Nat × Nat) := none
  rank    : Nat := 0
  emask   : Nat := 15
  slots   : List Nat := []
  entry   : Nat := 0
  constLen : Nat := 0
  cores   : Tbl Core := []
  engines : Tbl Engine := []
  dma     : List Dma := []
  deliv   : List Delivery := []
  area    : List Nat := []
  bytes   : List Host.Cell := []
deriving DecidableEq, Repr

/-- A context (R429 to R433, R440, R456). `rdma`: its requests of region DMA engines while it is switched out, by unit. `state`: 0 free, 1 switched out, 2 running, 3 ending, 4 in migration. -/
structure Ctx where
  state    : Nat := 0
  lode     : Nat := 0
  weight   : Nat := 0
  res      : Nat := 0xFF
  mask     : Nat := 0
  defcls   : Nat := 0
  newW     : Option (Nat × Nat × Nat × Nat) := none
  vtime    : Nat := 0
  members  : Tbl Nat := []
  tally    : Tally := {}
  sems     : Tbl Sem := []
  bars     : Tbl Barrier := []
  profile  : Bool := false
  trace    : List (List Nat) := []
  images   : Tbl (Option BlockImg) := []
  rdma     : List (Nat × Dma) := []
  endFences : List VFence := []
  idle     : Bool := true
  draining : Bool := false
deriving DecidableEq, Repr

/-- A lode's scheduler (R434 to R447, R455, R456). `phase`: 0 idle, 1 running, 2 stopping, 3 switching, 4 quiesced. `guard`: the running context
is stopped for the owner of the next slot (R439). -/
structure Sched where
  running  : Nat := 0xFFF
  phase    : Nat := 0
  slot     : Nat := 0x1FF
  quantum  : Nat := 100
  idle     : Nat := 20
  switches : Nat := 0
  lastNs   : Nat := 0
  incoming : Option Nat := none
  quiesce  : Option (Via × Nat) := none
  moving   : Bool := false
  guard    : Bool := false
deriving DecidableEq, Repr

/-- Contexts, schedulers, closed-context buffers. -/
structure SchedSt where
  ctxs   : Tbl Ctx := []
  lodes  : Tbl Sched := []
  closed : List (Nat × Nat × Nat × Tally) := []
deriving DecidableEq, Repr

/-! ### Security (chapter 16) -/

/-- A vault slot (R461, R465). -/
structure VSlot where
  gen     : Nat := 0
  pgen    : Nat := 0
  parent  : Nat := 0
  ownerId : Nat := 0
  owner   : Nat := 0
  valid   : Bool := false
  typ     : Nat := 0
  uses    : Nat := 0
  s1      : BitVec 512 := 0
  s2      : BitVec 512 := 0
deriving DecidableEq, Repr

/-- An XMSS key's index and reservation (R467, R468), and the signature that waits for a reservation. -/
structure Xmss where
  next  : Nat := 0
  rend  : Nat := 0
  spent : Bool := false
  wait  : List (Via × Nat × List Byte) := []
deriving DecidableEq, Repr

/-- Identity, vault, alarms, firmware slots. `identity`: 0 not enrolled, 1 enrolled, 2 retired, 3 helper data lost. -/
structure Sec where
  slots    : Tbl VSlot := []
  identity : Nat := 0
  enrol    : Nat := 0
  authSet  : Bool := false
  authKey  : List Byte := []
  cert     : List Byte := []
  idKey    : Xmss := {}
  atKey    : Xmss := {}
  locked   : Bool := false
  seen     : Nat := 0
  lock     : Nat := 0
  boot     : Nat := 0
  life     : Nat := 0
  erasePending : Bool := false
  fw       : SlotPair := {}
  fwHead   : Nat := 0
  fwAgent  : Nat := 0
  svn      : Nat := 0
  helperA  : Bool := true
  helperB  : Bool := true
  bounce   : List Byte := []
deriving DecidableEq, Repr

/-! ### Power (chapter 17) -/

/-- A region's power state (`PWR_REGION`, R520). -/
structure PRegion where
  held    : Bool := false
  tcap    : Nat := 7
  ramp    : Bool := false
  fabric  : Nat := 0
  vcur    : Nat := 0
  vreq    : Nat := 0
  policy  : Nat := 0
  point   : Nat := 7
deriving DecidableEq, Repr

/-- A block's power state (`PWR_BLOCK`, R520). `domain`: 0 on, 1 clock-gated, 2 retention, 3 dark. `follow`: the governor lowered `REQ` to `CAP` (R508). -/
structure PBlock where
  domain : Nat := 0
  cap    : Nat := 7
  req    : Nat := 0
  follow : Bool := false
deriving DecidableEq, Repr

/-- One point of the voltage table (R505). -/
structure VPoint where
  mhz    : Nat := 0
  mv     : Nat := 0
  pblock : Nat := 0
  coef   : List Nat := []
deriving DecidableEq, Repr

/-- Power, clocks, thermal. `chip`: 0 Run, 1 Doze, 2 Rest. -/
structure Pwr where
  chip      : Nat := 0
  target    : Nat := 0
  pending   : Bool := false
  entering  : Bool := false
  wakeAt    : Nat := 0
  heldWake  : List Instr := []
  heldCtl   : List (Packet × Nat × List Nat) := []
  wakeHeld  : Bool := false
  duty      : Bool := false
  dutyStop  : Bool := false
  memLimit  : Bool := false
  throttle  : Nat := 0
  vtFall    : Bool := false
  vtable    : Tbl VPoint := []
  vtHead    : List Nat := [0, 0, 0]
  vtCopies  : List (List Byte) := []
  blockIdle : Nat := 10
  autoDoze  : Nat := 0
  autoRestart : Bool := false
  gov       : Bool := true
  steps     : Tbl Nat := []
  samples   : List (List Nat) := []
  energy    : Nat := 0
  energyF   : Tbl Nat := []
  dvfsErr   : Nat := 0
  dvfsReg   : Bool := false
  dvfsIdx   : Nat := 0
  regions   : Tbl PRegion := []
  blocks    : Tbl PBlock := []
  sensors   : Tbl Int := []
  hbmTemps  : Tbl Int := []
  tier3off  : Tbl Bool := []
  bridges   : Tbl Nat := []
  shutdown  : Nat := 0
deriving DecidableEq, Repr

/-! ### Reliability (chapter 18) -/

/-- A unit's fault count (R522, R530): faults in the window, operating seconds and deadline tick of the last, and
the operating seconds of the corrected errors of the window. -/
structure Fc where
  count   : Nat := 0
  last    : Nat := 0
  tick    : Option Nat := none
  ces     : List Nat := []
  retired : Bool := false
  deferred : Bool := false
deriving DecidableEq, Repr

/-- A heartbeat counter as Lamp checks it (R535). -/
structure Hb where
  count  : Nat := 0
  seen   : Nat := 0
  misses : Nat := 0
  on     : Bool := false
deriving DecidableEq, Repr

/-- A capture in progress (R539 to R543): of a block, or of a region's 12 blocks. -/
structure Cap where
  id     : Nat
  blocks : List Nat
  region : Option Nat
  cause  : Nat
deriving DecidableEq, Repr

/-- Reliability state. `units` is keyed by kind × 65,536 + number. -/
structure Ras where
  units    : Tbl Fc := []
  mapLost  : Bool := false
  unserv   : Bool := false
  capDrop  : Nat := 0
  regRst   : Nat := 0
  blkRst   : Nat := 0
  ceCell   : Nat := 64
  window   : Nat := 60
  capLines : Nat := 16
  capEn    : Bool := true
  capHead  : Nat := 4
  hangs    : Nat := 0
  lastBlk  : Nat := 0x7F
  hbs      : Tbl Hb := []
  hf       : Hb := {}
  canTime  : Tbl Nat := []
  canHung  : Tbl Bool := []
  caps     : List Cap := []
  capSeq   : Nat := 0
  capNext  : Nat := 0
  wires    : Tbl Nat := []
deriving DecidableEq, Repr

/-! ### The event recorder (chapter 19) -/

/-- An event record (R556, R557): header fields, generic body and further bytes. -/
structure Ev where
  typ    : Nat
  sev    : Nat
  seq    : Nat
  ops    : Nat
  gid    : Nat := 0
  detail : Nat := 0
  dev    : Nat := 0xFFFF
  num    : Nat := 0
  kind   : Nat := 0
  code   : Nat := 0
  extra  : List Nat := []
deriving DecidableEq, Repr

/-- A page of the ring (R561): band (0 L, 1 M, 2 H, 3 free), open, power cycle, records. -/
structure Page where
  band    : Nat := 3
  opened  : Bool := false
  pcycles : Nat := 0
  order   : Nat := 0
  recs    : List Ev := []
deriving DecidableEq, Repr

/-- The event recorder. -/
structure Evr where
  staging  : List Ev := []
  pages    : Tbl Page := []
  orderNext : Nat := 1
  nextSeq  : Nat := 0
  wraps    : Nat := 0
  dropped  : Nat := 0
  dropRun  : Nat := 0
  clears   : List Ev := []
  clearing : List Nat := []
  ready    : Bool := false
  opsec    : Nat := 0
  resEnd   : Nat := 0
  pcycles  : Nat := 0
  pcycSat  : Bool := false
  chal     : Option (List Byte) := none
  sig      : Tbl (Option Byte) := []
deriving DecidableEq, Repr

/-! ### Chip, Lamp and pins (chapters 20, 22) -/

/-- Start-up, rails, clocks and pins. `phase`: 0 off, 1 Lamp only, 2 start-up, 3 running, 4 recovery, 5 unserviceable,
6 halted, 7 held in reset, 8 after thermal shutdown. -/
structure Chip where
  phase    : Nat := 2
  stage    : Nat := 1
  bootErr  : Nat := 0
  fails    : Nat := 0
  pcRet    : Nat := 0
  main     : Bool := true
  aux      : Bool := true
  stby     : Bool := true
  mainLow  : Bool := false
  startCause : Nat := 0
  tick     : Nat := 0
  acc      : Nat := 0
  xtalFall : Bool := false
  serialNo : Nat := 0
  storedDev : Option Nat := none
  training : List Nat := []
  hbmTodo  : Tbl (List Nat) := []
  mReset   : Bool := false
  perst0   : Bool := false
  perst1   : Bool := false
  shieldOk : Bool := true
  smbAddr  : Nat := 0
  thermTrip : Bool := false
  alarmOut : Bool := false
  stackTry : Tbl Nat := []
deriving DecidableEq, Repr

/-- A change of memory made by the command being performed: a byte stored, or a range zeroed by a scrub. The field
`edits` of the state lists them, newest first, while a command runs; `perform` applies them to `mem.bytes` at its end, so
the list is empty between commands (the model's own field). -/
inductive Edit where
  | put (addr : Nat) (b : Byte)
  | zero (lo n : Nat)
deriving DecidableEq, Repr

/-- The state of the block. `pending` is the queue of waiting commands, first in, first out; `free` counts the free
values drawn (the model's own field); `out` is what the module has sent out, oldest first. -/
structure State where
  pending : List Instr := []
  free    : Nat := 0
  out     : List Out := []
  edits   : List Edit := []
  chip    : Chip := {}
  lm      : LodeMap := {}
  img     : ImageStore := {}
  cu      : Compute := {}
  mem     : Mem := {}
  xl      : Xlate := {}
  noc     : Noc := {}
  dr      : Drift := {}
  ut      : Ut := {}
  hp      : HostIf := {}
  q       : Tbl Queue := []
  sch     : SchedSt := {}
  sec     : Sec := {}
  pwr     : Pwr := {}
  ras     : Ras := {}
  evr     : Evr := {}
deriving DecidableEq, Repr

/-- A named stop. -/
inductive Fault where
  /-- a memory operation named a chip physical address the map of R191 does not hold: raised by none of the meanings
  on its own, kept for the byte operations of Ops (safe: the machine stops where the spec gives no contents) -/
  | unpopulated (addr : Nat)
deriving DecidableEq, Repr

/-- A named refusal. -/
inductive Refusal where
  /-- the command has no meaning in the model yet; raised by an arm of `exec` alone (safe) -/
  | notModelled (mnemonic : String)
deriving DecidableEq, Repr

/-- The module right after reset: rails in range, chip start-up begun at step 1 of R570, every register at its
Reset value and every value the spec leaves open at the value INVENTORY.md names. -/
def State.reset : State := {}

end Sys2Proof.Machine
end

