-- ==== Sys2Proof/Machine/Ops.lean ====
section
/-! DEFINITION. The shared operations: how a command runs, the named accesses to every table of the state, memory by chip
physical and lode memory address, events, interrupts, and the mailbox. -/
namespace Sys2Proof.Machine
open Sys2Proof

/-! ### Running a command -/

/-- Whether a chip physical address is populated (R191, R163). -/
def populated (a : Nat) : Bool :=
  decide (a < 0x18000000000) ||
    (decide (0x1C000000000 ≤ a) && decide (a < 0x1C060000000) &&
      (decide (a % 0x1000000 < 0x600000) || (decide (0x800000 ≤ a % 0x1000000) && decide (a % 0x1000000 < 0xA10000))))

/-- One change of memory, on the canonical list of bytes; a store to an unpopulated address changes nothing (R191). -/
def applyEdit (e : Edit) (m : List Host.Cell) : List Host.Cell :=
  match e with
  | .put a b => if populated a then tset 0 m a b else m
  | .zero lo n => m.filter fun c => decide (c.1 < lo) || decide (lo + n ≤ c.1)

/-- The memory after the listed changes, newest first in the list. -/
def applyEdits : List Edit → List Host.Cell → List Host.Cell
  | [], m => m
  | e :: es, m => applyEdit e (applyEdits es m)

/-- Whether a change of memory touches a 64-byte line. -/
def Edit.hits (line : Nat) (e : Edit) : Bool :=
  match e with
  | .put a _ => decide (a / 64 = line)
  | .zero lo n => decide (lo < line * 64 + 64) && decide (line * 64 < lo + n)

/-- A write of a line breaks every reservation of it (R161). -/
def breakResv (es : List Edit) (cores : Tbl Core) : Tbl Core :=
  if es.isEmpty then cores else
    (cores.filter fun t => match t.2.resv with
      | some line => es.any (Edit.hits line)
      | none => false).foldl (fun c t => tmod {} c t.1 fun k => { k with resv := none }) cores

/-- The state after a command: its effect `f` on everything but the queue. The command sees an empty output list; what
it sends follows what was sent before, and what it stores is applied to memory at its end. -/
def perform (s : State) (f : State → State) : State :=
  let t := f { s with out := [], edits := [] }
  { t with
    pending := s.pending
    out := s.out ++ t.out
    edits := []
    cu := { t.cu with cores := breakResv t.edits t.cu.cores }
    mem := { t.mem with bytes := applyEdits t.edits s.mem.bytes } }

/-- A command that goes on: every command's meaning is one of these. -/
def run (s : State) (f : State → State) : Host.Outcome State Fault Refusal := .next (perform s f)

/-- Sends something out of the module. -/
def emit (o : Out) (s : State) : State := { s with out := s.out ++ [o] }

/-- Draws the next free value (log 4). -/
def draw (s : State) : Nat × State := (Config.freeNat s.free, { s with free := s.free + 1 })

/-- Does `f` when the condition holds. -/
def wh (c : Bool) (f : State → State) (s : State) : State := if c then f s else s

/-! ### Access to the tables -/

def lodeOf (s : State) (l : Nat) : Lode := tget {} s.lm.lodes l
def modLode (l : Nat) (f : Lode → Lode) (s : State) : State :=
  { s with lm := { s.lm with lodes := tmod {} s.lm.lodes l f } }
def blockOf (s : State) (b : Nat) : Block := tget {} s.lm.blocks b
def modBlock (b : Nat) (f : Block → Block) (s : State) : State :=
  { s with lm := { s.lm with blocks := tmod {} s.lm.blocks b f } }
def setOf (s : State) (n : Nat) : ISet := tget {} s.lm.sets n
def modSet (n : Nat) (f : ISet → ISet) (s : State) : State :=
  { s with lm := { s.lm with sets := tmod {} s.lm.sets n f } }
def granOf (s : State) (l g : Nat) : Granule := tget {} s.lm.chan (l * 8192 + g)
def modGran (l g : Nat) (f : Granule → Granule) (s : State) : State :=
  { s with lm := { s.lm with chan := tmod {} s.lm.chan (l * 8192 + g) f } }
def creditOf (s : State) (l p : Nat) : Nat := tget 0 s.lm.credits (l * 32 + p)
def setCredit (l p v : Nat) (s : State) : State :=
  { s with lm := { s.lm with credits := tset 0 s.lm.credits (l * 32 + p) v } }
def modLm (f : LodeMap → LodeMap) (s : State) : State := { s with lm := f s.lm }
def modEngine (b e : Nat) (f : Engine → Engine) (s : State) : State :=
  { s with cu := { s.cu with engines := tmod {} s.cu.engines (b * 4 + e) f } }
def engineOf (s : State) (b e : Nat) : Engine := tget {} s.cu.engines (b * 4 + e)
def coreOf (s : State) (b c : Nat) : Core := tget {} s.cu.cores (b * 32 + c)
def modCore (b c : Nat) (f : Core → Core) (s : State) : State :=
  { s with cu := { s.cu with cores := tmod {} s.cu.cores (b * 32 + c) f } }
def rowOf (s : State) (b r : Nat) : Row := tget {} s.cu.rows (b * 4 + r)
def modRow (b r : Nat) (f : Row → Row) (s : State) : State :=
  { s with cu := { s.cu with rows := tmod {} s.cu.rows (b * 4 + r) f } }
def cmaOf (s : State) (b : Nat) : Cma := tget {} s.cu.cma b
def modCma (b : Nat) (f : Cma → Cma) (s : State) : State :=
  { s with cu := { s.cu with cma := tmod {} s.cu.cma b f } }
def dmaOf (s : State) (u : Nat) : List Dma := tget [] s.cu.dma u
def setDma (u : Nat) (q : List Dma) (s : State) : State :=
  { s with cu := { s.cu with dma := tset [] s.cu.dma u q } }
def regionOf (s : State) (r : Nat) : Region := tget {} s.mem.regions r
def modRegion (r : Nat) (f : Region → Region) (s : State) : State :=
  { s with mem := { s.mem with regions := tmod {} s.mem.regions r f } }
def pcOf (s : State) (p : Nat) : PChan := tget {} s.mem.pcs p
def modPc (p : Nat) (f : PChan → PChan) (s : State) : State :=
  { s with mem := { s.mem with pcs := tmod {} s.mem.pcs p f } }
def xlCtxOf (s : State) (c : Nat) : XlCtx := tget {} s.xl.ctxs c
def modXlCtx (c : Nat) (f : XlCtx → XlCtx) (s : State) : State :=
  { s with xl := { s.xl with ctxs := tmod {} s.xl.ctxs c f } }
def xlLodeOf (s : State) (l : Nat) : XlLode := tget {} s.xl.lodes l
def modXlLode (l : Nat) (f : XlLode → XlLode) (s : State) : State :=
  { s with xl := { s.xl with lodes := tmod {} s.xl.lodes l f } }
def semPageOf (s : State) (r p : Nat) : SyncPage := tget {} s.noc.semPages (r * 64 + p)
def modSemPage (r p : Nat) (f : SyncPage → SyncPage) (s : State) : State :=
  { s with noc := { s.noc with semPages := tmod {} s.noc.semPages (r * 64 + p) f } }
def barPageOf (s : State) (p : Nat) : SyncPage := tget {} s.noc.barPages p
def modBarPage (p : Nat) (f : SyncPage → SyncPage) (s : State) : State :=
  { s with noc := { s.noc with barPages := tmod {} s.noc.barPages p f } }
def semOf (s : State) (n : Nat) : Sem := tget {} s.noc.sems n
def modSem (n : Nat) (f : Sem → Sem) (s : State) : State :=
  { s with noc := { s.noc with sems := tmod {} s.noc.sems n f } }
def barOf (s : State) (n : Nat) : Barrier := tget {} s.noc.bars n
def modBar (n : Nat) (f : Barrier → Barrier) (s : State) : State :=
  { s with noc := { s.noc with bars := tmod {} s.noc.bars n f } }
def masterOf (s : State) (m : Nat) : Master := tget {} s.noc.masters m
def modMaster (m : Nat) (f : Master → Master) (s : State) : State :=
  { s with noc := { s.noc with masters := tmod {} s.noc.masters m f } }
def arbOf (s : State) (a : Nat) : Arb := tget {} s.noc.arbs a
def modArb (a : Nat) (f : Arb → Arb) (s : State) : State :=
  { s with noc := { s.noc with arbs := tmod {} s.noc.arbs a f } }
def portOf (s : State) (p : Nat) : Port := tget {} s.dr.ports p
def modPort (p : Nat) (f : Port → Port) (s : State) : State :=
  { s with dr := { s.dr with ports := tmod {} s.dr.ports p f } }
def rwinOf (s : State) (w : Nat) : RWin := tget {} s.dr.rwt w
def modRwin (w : Nat) (f : RWin → RWin) (s : State) : State :=
  { s with dr := { s.dr with rwt := tmod {} s.dr.rwt w f } }
def modDr (f : Drift → Drift) (s : State) : State := { s with dr := f s.dr }
def urecOf (s : State) (n : Nat) : URec := tget {} s.ut.records n
def modUrec (n : Nat) (f : URec → URec) (s : State) : State :=
  { s with ut := { s.ut with records := tmod {} s.ut.records n f } }
def peerOf (s : State) (d : Nat) : Peer := tget {} s.ut.peers d
def modPeer (d : Nat) (f : Peer → Peer) (s : State) : State :=
  { s with ut := { s.ut with peers := tmod {} s.ut.peers d f } }
def modUt (f : Ut → Ut) (s : State) : State := { s with ut := f s.ut }
def hportOf (s : State) (p : Nat) : HPort := tget {} s.hp.ports p
def modHport (p : Nat) (f : HPort → HPort) (s : State) : State :=
  { s with hp := { s.hp with ports := tmod {} s.hp.ports p f } }
def slotOf (s : State) (p n : Nat) : MbSlot := tget {} (hportOf s p).slots n
def modSlot (p n : Nat) (f : MbSlot → MbSlot) (s : State) : State :=
  modHport p (fun h => { h with slots := tmod {} h.slots n f }) s
def queueOf (s : State) (l : Nat) : Queue := tget {} s.q l
def modQueue (l : Nat) (f : Queue → Queue) (s : State) : State := { s with q := tmod {} s.q l f }
def ctxOf (s : State) (c : Nat) : Ctx := tget {} s.sch.ctxs c
def modCtx (c : Nat) (f : Ctx → Ctx) (s : State) : State :=
  { s with sch := { s.sch with ctxs := tmod {} s.sch.ctxs c f } }
def schedOf (s : State) (l : Nat) : Sched := tget {} s.sch.lodes l
def modSched (l : Nat) (f : Sched → Sched) (s : State) : State :=
  { s with sch := { s.sch with lodes := tmod {} s.sch.lodes l f } }
def vslotOf (s : State) (n : Nat) : VSlot := tget {} s.sec.slots n
def modVslot (n : Nat) (f : VSlot → VSlot) (s : State) : State :=
  { s with sec := { s.sec with slots := tmod {} s.sec.slots n f } }
def modSec (f : Sec → Sec) (s : State) : State := { s with sec := f s.sec }

/-- Puts a key into a vault slot as two shares, masked by a fresh random value (R465). -/
def putKey (n key : Nat) (s : State) : State :=
  let r := BitVec.ofNat 512 (draw s).1
  modVslot n (fun v => { v with s1 := BitVec.ofNat 512 key ^^^ r, s2 := r }) (draw s).2

def pregOf (s : State) (r : Nat) : PRegion := tget {} s.pwr.regions r
def modPreg (r : Nat) (f : PRegion → PRegion) (s : State) : State :=
  { s with pwr := { s.pwr with regions := tmod {} s.pwr.regions r f } }
def pblkOf (s : State) (b : Nat) : PBlock := tget {} s.pwr.blocks b
def modPblk (b : Nat) (f : PBlock → PBlock) (s : State) : State :=
  { s with pwr := { s.pwr with blocks := tmod {} s.pwr.blocks b f } }
def modPwr (f : Pwr → Pwr) (s : State) : State := { s with pwr := f s.pwr }

/-- An access to a block whose domain is not on wakes it (R498); a retired block stays dark (R526). -/
def wakeBlock (b : Nat) (s : State) : State :=
  if (pblkOf s b).domain = 0 ∨ (blockOf s b).state = 6 then s else modPblk b (fun p => { p with domain := 0 }) s

/-- An access to an address wakes the block whose memories or registers lie there (R498). -/
def wakeAddr (a : Nat) (s : State) : State :=
  if 0x1C000000000 ≤ a ∧ a < 0x1C060000000 then wakeBlock ((a - 0x1C000000000) / 0x1000000) s else s

def unitKey (u : HwUnit) : Nat := u.kind * 65536 + u.num
def fcOf (s : State) (u : HwUnit) : Fc := tget {} s.ras.units (unitKey u)
def modFc (u : HwUnit) (f : Fc → Fc) (s : State) : State :=
  { s with ras := { s.ras with units := tmod {} s.ras.units (unitKey u) f } }
def modRas (f : Ras → Ras) (s : State) : State := { s with ras := f s.ras }

/-- A block's domain takes a state (R496); an agent whose domain leaves the on state is no longer checked (R535). -/
def setDomain (b d : Nat) (s : State) : State :=
  let s := modPblk b (fun p => { p with domain := d }) s
  if d = 0 then s else modRas (fun r => { r with hbs := tmod {} r.hbs b fun h => { h with on := false, misses := 0 } }) s

/-- A retired block belongs to no lode and is dark (R526). -/
def shutBlock (b : Nat) (s : State) : State :=
  setDomain b 3 (modBlock b (fun x => { x with state := 6, lode := 0x7F, slot := 0x7F, drain := false }) s)

def modEvr (f : Evr → Evr) (s : State) : State := { s with evr := f s.evr }
def modChip (f : Chip → Chip) (s : State) : State := { s with chip := f s.chip }
def modImg (f : ImageStore → ImageStore) (s : State) : State := { s with img := f s.img }
def modNoc (f : Noc → Noc) (s : State) : State := { s with noc := f s.noc }
def modMem (f : Mem → Mem) (s : State) : State := { s with mem := f s.mem }
def modHp (f : HostIf → HostIf) (s : State) : State := { s with hp := f s.hp }
def modXl (f : Xlate → Xlate) (s : State) : State := { s with xl := f s.xl }
def modCu (f : Compute → Compute) (s : State) : State := { s with cu := f s.cu }

/-- The epoch tag of a lode's requests now (R36). -/
def epochTag (s : State) (l : Nat) : Nat := (lodeOf s l).epoch % 256

/-- The lode indices in use (R33). -/
def lodes (s : State) : List Nat := (List.range 96).filter fun l => (lodeOf s l).state ≠ 0

/-- The lode index that holds a global ID, whatever the lode's state. -/
def findGid (s : State) (gid : Nat) : Option Nat :=
  if gid = 0 then none else (lodes s).find? fun l => (lodeOf s l).gid = gid

/-- The lode index a verb from `via` names: none in another mode-1 port's hands (R371). -/
def findVia (s : State) (via : Via) (gid : Nat) : Option Nat :=
  (findGid s gid).filter fun l =>
    match via with
    | .mailbox p _ => !(decide (s.img.applied.hostMode = 1) && (lodeOf s l).home && decide ((lodeOf s l).pasid ≠ 0)
        && decide ((lodeOf s l).port ≠ p))
    | _ => true

/-- The lode index of a running or rebinding lode (R624): not forming, not destroying. -/
def findRun (s : State) (via : Via) (gid : Nat) : Option Nat :=
  (findVia s via gid).filter fun l => (lodeOf s l).state ≠ 1 ∧ (lodeOf s l).state ≠ 4

/-- The lode index a verb may act on: a frozen lode is turned down with `E_UT_QUORUM` (R365). -/
def findLive (s : State) (via : Via) (gid : Nat) : Except Nat Nat :=
  match findRun s via gid with
  | none => .error Err.lodeUnknown
  | some l => if (lodeOf s l).frozen then .error Err.utQuorum else .ok l

/-- The live indices of the contexts of a lode (R28, R429). -/
def ctxsOf (s : State) (l : Nat) : List Nat :=
  (s.sch.ctxs.filter fun c => c.2.state ≠ 0 ∧ c.2.lode = l).map (·.1)

/-- The blocks a lode holds, rising (bound or draining). -/
def blocksOf (s : State) (l : Nat) : List Nat :=
  (List.range 96).filter fun b => (blockOf s b).lode = l ∧ ((blockOf s b).state = 1 ∨ (blockOf s b).state = 2)

/-- Whether a region in which a lode holds blocks is held: its turns, overruns, drain deadlines and engine bounds then stand still (R516). -/
def lodeHeld (s : State) (l : Nat) : Bool := (blocksOf s l).any fun b => (pregOf s (b / 12)).held

/-- The sets a lode holds, rising. -/
def setsOf (s : State) (l : Nat) : List Nat :=
  (s.lm.sets.filter fun t => t.2.lode = l ∧ 2 ≤ t.2.state).map (·.1)

/-- The granule indices of a lode that hold a valid entry, rising. -/
def gransOf (s : State) (l : Nat) : List Nat :=
  (s.lm.chan.filter fun t => t.1 / 8192 = l ∧ t.2.valid).map (·.1 % 8192)

/-- Whether a range of lode memory meets a granule in Cutover: a request that arrives directly is held until the end-of-forward marker (R48). -/
def inCutover (s : State) (l a n : Nat) : Bool :=
  decide (n ≠ 0) && s.lm.chan.any fun t => decide (t.2.mig = 2) && decide (t.1 / 8192 = l) && decide (a / 2 ^ 28 ≤ t.1 % 8192) &&
    decide (t.1 % 8192 ≤ (a + n - 1) / 2 ^ 28)

/-- Whether a lode spans several chips (R60). -/
def multichip (s : State) (l : Nat) : Bool := !((lodeOf s l).members.isEmpty)

/-! ### Interrupts, notices, events -/

/-- Raises a vector on a port (R377). The table entry's bit 96 masks it: a masked vector is kept pending. -/
def raise (p v : Nat) (s : State) : State :=
  if (tget (2 ^ 96) (hportOf s p).msix v).testBit 96 then
    modHport p (fun h => { h with pba := tset false h.pba v true }) s
  else emit (.msix p v) s

/-- The host ports in use: one in mode 0, two in mode 1 (R366). -/
def hostPorts (s : State) : List Nat := if s.img.applied.hostMode = 1 then [0, 1] else [0]

/-- Raises a chip vector on each port (R377). -/
def raiseAll (v : Nat) (s : State) : State := each (hostPorts s) (fun p => raise p v) s

/-- Raises vector `32 n + k` of a lode on the port that holds its slice (R377). -/
def raiseLode (l k : Nat) (s : State) : State :=
  if (lodeOf s l).home ∧ (lodeOf s l).pasid ≠ 0 then raise (lodeOf s l).port (32 * l + k) s else s

/-- Bytes of a record: header, generic body, further entries (R556, R557); a clear's record has its own body of 48 bytes (R566). -/
def evBytes (e : Ev) : Nat := if e.typ = 0x004 then 64 else 32 + 16 * ((e.extra.length + 15) / 16)

/-- Bytes in the staging buffer (R559). -/
def stagedBytes (r : Evr) : Nat := (r.staging.map evBytes).sum

/-- `DEVID` of a record. -/
def evDev (s : State) : Nat := if s.dr.assigned then s.dr.devid else 0xFFFF

/-- `SEQ` has been given out; when it wraps, `SEQ` 0 goes to a 0x003 record (R560). -/
def bumpSeq (s : State) : State :=
  if s.evr.nextSeq + 1 < 2 ^ 32 then modEvr (fun r => { r with nextSeq := r.nextSeq + 1 }) s
  else modEvr (fun r => { r with
    staging := r.staging ++ [{ typ := 0x003, sev := 4, seq := 0, ops := r.opsec, detail := r.wraps + 1, dev := evDev s }]
    wraps := r.wraps + 1, nextSeq := 1 }) s

/-- Accepts a record into staging with `SEQ` and `OP_SECONDS`, or drops it when staging is full (R559, R560). Lamp without power
accepts none. -/
def acceptEv (e : Ev) (s : State) : State :=
  if s.chip.phase = 0 then s
  else if stagedBytes s.evr + evBytes e > 65536 then
    modEvr (fun r => { r with dropped := min 0xFFFF (r.dropped + 1), dropRun := r.dropRun + 1 }) s
  else
    let s := bumpSeq (modEvr (fun r => { r with staging := r.staging ++ [{ e with seq := r.nextSeq, ops := r.opsec, dev := evDev s }] }) s)
    if 5 ≤ e.sev then raiseAll 3073 s else s

/-- Writes an event record with the generic body (R557): for a confidential lode `DETAIL` and further bytes are 0. -/
def event (typ sev kind num code detail : Nat) (l : Option Nat) (s : State) : State :=
  let conf := (l.map fun l => (lodeOf s l).conf).getD false
  acceptEv {
    typ := typ, sev := sev, seq := 0, ops := 0, kind := kind, num := num, code := code,
    detail := if conf then 0 else detail, gid := (l.map fun l => (lodeOf s l).gid).getD 0 } s

/-! ### The mailbox (R378 to R381) -/

/-- Encodes a list of fields (width in bytes, value), each at its natural alignment (R380). -/
def enc (fs : List (Nat × Nat)) : List Byte :=
  fs.foldl (fun acc f => padTo (alignUp acc.length f.1) acc ++ le f.1 f.2) []

/-- Whether the request of a verb stands where `via` says: a busy slot, the outstanding sideband request, a relay. -/
def carries (via : Via) (code : Nat) (s : State) : Bool :=
  match via with
  | .mailbox p n => decide ((slotOf s p n).state = 1) && decide ((slotOf s p n).verb = code)
  | .sideband => match s.hp.side with
    | some (v, _, _) => decide (v = code)
    | none => false
  | .relay => true
  | .member _ _ => false

/-- Completes a verb: the response is written, then the slot is done (R379) or the response sent (R381, R362). A slot that a port
reset cleared takes no response. -/
def answer (via : Via) (status : Nat) (data : List Byte) (s : State) : State :=
  match via with
  | .mailbox p n => if (slotOf s p n).state ≠ 1 then s else
    let irq := (slotOf s p n).irq
    let s := modSlot p n (fun m => { m with state := 2, rtag := m.tag, rlen := data.length, rstat := status, resp := data }) s
    if irq then raise p 3072 s else s
  | .sideband => match s.hp.side with
    | some (_, t, _) => modHp (fun h => { h with side := none }) (emit (.sidebandResp t status data) s)
    | none => s
  | .relay => emit (.relayResp status data) s
  | .member dev n => emit (.control dev 3 (n :: status :: data.map (·.toNat))) s

/-- Completes a verb that may have no issuer left. -/
def answerOpt (via : Option Via) (status : Nat) (data : List Byte) (s : State) : State :=
  match via with
  | some v => answer v status data s
  | none => s

/-- Rejects a verb with an error and no result. -/
def reject (via : Via) (err : Nat) (s : State) : State := answer via err [] s

/-- Whether the chip is in Doze or Rest, or on its way there. -/
def asleep (s : State) : Bool := decide (s.pwr.chip ≠ 0) || s.pwr.entering

/-- A verb's command: carried out when its request stands, otherwise nothing waits to be done (log 6). A chip in Doze or Rest, or on
its way there, starts no verb but PWR_QUERY (R501, R502). -/
def verb (via : Via) (code : Nat) (s : State) (f : State → State) : Host.Outcome State Fault Refusal :=
  run s fun s => if carries via code s && (decide (code = 0x0802) || !asleep s) then f s else s

/-- Whether the verb came extra the sideband (or Utwelas relay), not from a host port. -/
def fromManager (via : Via) : Bool :=
  match via with
  | .mailbox _ _ => false
  | _ => true

/-- The host port a verb came from, 0 for others. -/
def viaPort (via : Via) : Nat :=
  match via with
  | .mailbox p _ => p
  | _ => 0

/-! ### Memory by chip physical address (R191, R203, R204) -/

/-- The byte at a chip physical address, as the command sees it: its own stores first (log 8: an unlisted byte reads 0). -/
def readByte (s : State) (a : Nat) : Byte :=
  match s.edits.find? fun e => match e with
    | .put a' _ => decide (a' = a) && populated a
    | .zero lo n => decide (lo ≤ a) && decide (a < lo + n) with
  | some (.put _ b) => b
  | some (.zero _ _) => 0
  | none => tget 0 s.mem.bytes a

/-- Stores a byte. -/
def putByte (a : Nat) (b : Byte) (s : State) : State := { s with edits := .put a b :: s.edits }

/-- Zeroes a range, with its poison marks (R482). -/
def zeroRange (lo n : Nat) (s : State) : State :=
  let s := { s with edits := .zero lo n :: s.edits }
  modMem (fun m => { m with poison := m.poison.filter fun c => decide (c.1 * 64 < lo) || decide (lo + n < c.1 * 64 + 64) }) s

/-- Stores bytes from `a` up. -/
def putBytes : Nat → List Byte → State → State
  | _, [], s => s
  | a, b :: t, s => putBytes (a + 1) t (putByte a b s)

/-- `n` bytes from `a` up, no poison considered. -/
def peek (s : State) (a n : Nat) : List Byte := (List.range n).map fun i => readByte s (a + i)

/-- The region whose cache holds an HBM address. -/
def regionOfAddr (a : Nat) : Nat := a / 0x80000000 / 96

/-- Whether the line of address `a` is lost: its pseudo-channel failed and the cache holds no pinned copy (R207). -/
def lostLine (s : State) (a : Nat) : Bool :=
  decide (a < 0x18000000000) && (pcOf s (a / 0x80000000)).failed &&
    !((regionOf s (regionOfAddr a)).cache.any fun c => c.pinned && decide (c.line = a / 128))

/-- Whether the 64-byte line of address `a` reads as poisoned (R204, R207). -/
def poisoned (s : State) (a : Nat) : Bool := tget false s.mem.poison (a / 64) || lostLine s a

/-- The pieces of a range that lie within one 64-byte line each: at most `fuel` of them. -/
def pieces : Nat → Nat → Nat → List (Nat × Nat)
  | 0, _, _ => []
  | _ + 1, _, 0 => []
  | fuel + 1, a, n + 1 =>
    let k := min (n + 1) (64 - a % 64)
    (a, k) :: pieces fuel (a + k) (n + 1 - k)

/-- The lines a range touches, as pieces. -/
def segs (a n : Nat) : List (Nat × Nat) := pieces (n / 64 + 2) a n

/-- Reads a range of chip physical memory: the bytes, or the error of a poisoned line (R204). -/
def rdPhys (s : State) (a n : Nat) : Except Nat (List Byte) :=
  if (segs a n).any fun p => poisoned s p.1 then .error Err.memPoisoned else .ok (peek s a n)

/-- Marks or clears poison on a line. -/
def setPoison (line : Nat) (v : Bool) (s : State) : State :=
  modMem (fun m => { m with poison := tset false m.poison line v }) s

/-- Writes within one line: a part of a poisoned line fails, a whole line clears the mark, a lost line fails (R204, R207). -/
def wrPiece (a : Nat) (bs : List Byte) (s : State) : Except Nat State :=
  if lostLine s a then .error Err.memPoisoned
  else if tget false s.mem.poison (a / 64) then
    if bs.length = 64 then .ok (setPoison (a / 64) false (putBytes a bs s)) else .error Err.memPoisoned
  else .ok (putBytes a bs s)

/-- The block whose launch area (R179) a range of chip physical memory meets. -/
def areaOf (a n : Nat) : Option Nat :=
  let o := a % 0x1000000
  if 0x1C000000000 ≤ a ∧ a < 0x1C060000000 ∧ o < 0x400000 ∧ 0x3FEF00 < o + n then some ((a - 0x1C000000000) / 0x1000000) else none

/-- Notes who writes the launch area of a block while a launch runs there (R180). -/
def noteArea (who a n : Nat) (s : State) : State :=
  match areaOf a n with
  | some b =>
    if ((List.range 32).any fun c => decide ((coreOf s b c).run ≠ 0)) ∧ !(blockOf s b).area.contains who then
      modBlock b (fun k => { k with area := who :: k.area }) s
    else s
  | none => s

/-- Writes pieces in turn: none is written when one would fail. `who`: the core of the block that writes, 32 for another agent. -/
def wrPhysBy (who a : Nat) (bs : List Byte) (s : State) : Except Nat State :=
  ((segs a bs.length).foldl (fun (r : Except Nat State) p => r.bind fun s => wrPiece p.1 ((bs.drop (p.1 - a)).take p.2) s) (.ok s)).map
    (noteArea who a bs.length)

/-- A write of chip physical memory by an agent that is no core of the block. -/
def wrPhys (a : Nat) (bs : List Byte) (s : State) : Except Nat State := wrPhysBy 32 a bs s

/-! ### Memory by lode memory address (R31, R193) -/

/-- The chip physical address of offset `off` of granule slot `slot` of a set (R193). -/
def slotAddr (s : State) (set slot off : Nat) : Nat :=
  let t := setOf s set
  let o := slot * 2 ^ 28 + off
  (t.base + o / 256 % t.count) * 0x80000000 + o / 256 / t.count * 256 + o % 256

/-- Where a lode memory address lies now: none for an invalid entry or one outside 41 bits (R31). -/
def resolve (s : State) (l a : Nat) : Option Nat :=
  let g := granOf s l (a / 2 ^ 28)
  if a < 2 ^ 41 ∧ g.valid ∧ (setOf s g.set).count ≠ 0 then some (slotAddr s g.set g.slot (a % 2 ^ 28)) else none

/-- Reads a range of lode memory, or the error of the first piece that fails. -/
def rdLode (s : State) (l a n : Nat) : Except Nat (List Byte) :=
  (segs a n).foldl (fun r p => r.bind fun acc => match resolve s l p.1 with
    | some ph => (rdPhys s ph p.2).map fun b => acc ++ b
    | none => .error Err.xlGranule) (.ok [])

/-- A write that the source controller forwards to a copy (R48): a whole line is valid there too (R204). -/
def forwardWrite (a : Nat) (bs : List Byte) (s : State) : State :=
  putBytes a bs (wh (decide (bs.length = 64)) (setPoison (a / 64) false) s)

/-- Writes one piece of lode memory; while the granule's copy stands at the destination, the write is forwarded (R48). -/
def wrLodePiece (l a : Nat) (bs : List Byte) (s : State) : Except Nat State :=
  match resolve s l a with
  | some ph =>
    let g := granOf s l (a / 2 ^ 28)
    (wrPiece ph bs s).map fun s =>
      if g.mig = 1 ∧ g.copied then forwardWrite (slotAddr s g.dset g.dslot (a % 2 ^ 28)) bs s else s
  | none => .error Err.xlGranule

/-- Writes a range of lode memory, piece by piece. -/
def wrLode (l a : Nat) (bs : List Byte) (s : State) : Except Nat State :=
  (segs a bs.length).foldl (fun r p => r.bind fun s => wrLodePiece l p.1 ((bs.drop (p.1 - a)).take p.2) s) (.ok s)

/-- The state after a write that is allowed to fail, with its error code (0 for none). -/
def settle (s : State) (r : Except Nat State) : Nat × State :=
  match r with
  | .ok t => (0, t)
  | .error e => (e, s)

/-- Writes host memory for a lode, on its port and under its PASID; nothing is issued without one (R376). -/
def hostWrite (l addr : Nat) (data : List Byte) (s : State) : State :=
  let d := lodeOf s l
  if d.pasid = 0 then s else emit (.hostWrite d.port d.pasid addr data) s

/-- Issues a read of host memory for a lode, answered by HOST_READ_COMPLETION (R369). -/
def hostRead (l addr len : Nat) (what : HostReadFor) (s : State) : State :=
  let d := lodeOf s l
  if d.pasid = 0 then s else
  let id := s.hp.readNext
  emit (.hostRead d.port d.pasid addr len id)
    (modHp (fun h => { h with reads := tset none h.reads id (some (len, what)), readNext := id + 1 }) s)

/-- Writes host memory under an identifier that the outcome names (R369); data is written with Relaxed Ordering (R368). -/
def hostPost (l addr : Nat) (relaxed : Bool) (data : List Byte) (what : HostReadFor) (s : State) : State :=
  let d := lodeOf s l
  if d.pasid = 0 then s else
  let id := s.hp.readNext
  emit (.hostPost d.port d.pasid addr relaxed data id) (modHp (fun h => { h with reads := tset none h.reads id (some (0, what)), readNext := id + 1 }) s)

/-! ### The granule caches of the masters (R195) -/

/-- A master resolves a granule: from its cache, or from the map, which fills the cache; of 64 entries the oldest leaves (log 76). -/
def granHit (m l g : Nat) (s : State) : GranHit × State :=
  match (tget [] s.noc.grans m).find? fun h => decide (h.lode = l) && decide (h.gran = g) with
  | some h => (h, s)
  | none =>
    let e := granOf s l g
    let h : GranHit := { lode := l, gran := g, set := e.set, slot := e.slot }
    (h, if e.valid then modNoc (fun n => { n with grans := tset [] n.grans m ((h :: tget [] n.grans m).take 64) }) s else s)

/-- A master resolves every granule of a range. -/
def resolveGrans (m l a n : Nat) (s : State) : State :=
  if n = 0 then s else each ((List.range ((a + n - 1) / 2 ^ 28 - a / 2 ^ 28 + 1)).map fun i => a / 2 ^ 28 + i) (fun g s => (granHit m l g s).2) s

/-- The masters discard the cached entries of a lode, in phase 2 of R39 (R195). -/
def dropGrans (keep : GranHit → Bool) (s : State) : State :=
  modNoc (fun n => { n with grans := (n.grans.map fun t => (t.1, t.2.filter keep)).filter fun t => t.2 ≠ [] }) s

/-! ### The region cache (R197 to R201): which lines it holds -/

/-- Ways of a class tag: first way and count (R198). Retired ways come from the pool first (R201). -/
def wayShare (s : State) (cls : Nat) : Nat := (tget {} s.img.applied.classes cls).cache

/-- Serviceable ways of region `r` outside every class's own ways: the common pool (R198, R201). -/
def commonWays (s : State) (r : Nat) : Nat :=
  let own := ((List.range 64).map fun k => wayShare s k).sum
  64 - own - ((List.range 64).filter fun w => (regionOf s r).waysRet.testBit w).length

/-- Ways class `k` holds in region `r` after retirements (R201): once the pool is used up, each further retired way is
taken from the class with most ways, the lowest tag among equals. -/
def classWays (s : State) (r : Nat) : List Nat :=
  let own := (List.range 64).map fun k => wayShare s k
  let ret := ((List.range 64).filter fun w => (regionOf s r).waysRet.testBit w).length
  let extra := ret - (64 - own.sum)
  (List.range extra).foldl (fun ws _ =>
    let m := ws.foldl max 0
    let k := (List.range 64).find? fun k => decide (ws.getD k 0 = m)
    ws.set (k.getD 0) (m - 1)) own

/-- The serviceable ways of a region in ascending order, each with the class tag it is handed to, 64 for the common pool (R198, R201). -/
def wayOwners (s : State) (r : Nat) : List (Nat × Nat) :=
  let ways := (List.range 64).filter fun w => !(regionOf s r).waysRet.testBit w
  ways.zip ((classWays s r).zipIdx.flatMap (fun k => List.replicate k.1 k.2) ++ List.replicate (commonWays s r) 64)

/-- The set of a line (R198: 4,096 sets; which one is not disclosed, log 36). -/
def cacheSetOf (a : Nat) : Nat := Config.cacheSet (a / 0x80000000) (a % 0x80000000 / 128) % 4096

/-- The way that a missing line of class `cls` is allocated in (R199): a free one of its class or the common pool, else that of the line used
least recently among them; none when every one of these is pinned, or there are none. -/
def victimWay (s : State) (r set cls : Nat) : Option Nat :=
  let ways := ((wayOwners s r).filter fun w => decide (w.2 = cls) || decide (w.2 = 64)).map (·.1)
  let here := (regionOf s r).cache.filter fun c => decide (c.set = set)
  match ways.find? fun w => here.all fun c => decide (c.way ≠ w) with
  | some w => some w
  | none =>
    let old := here.filter fun c => ways.contains c.way && !c.pinned
    (old.find? fun c => old.all fun d => decide (c.used ≤ d.used)).map (·.way)

/-- A line is brought into or found in the cache by a request of class `cls` (R199). Firmware traffic allocates none (R200). -/
def touchLine (a cls : Nat) (write : Bool) (s : State) : State :=
  if 0x18000000000 ≤ a then s else
  let r := regionOfAddr a
  let reg := regionOf s r
  let line := a / 128
  let set := cacheSetOf a
  if reg.cache.any fun c => decide (c.line = line) then
    modRegion r (fun g => { g with clock := g.clock + 1, cache := g.cache.map fun c =>
      if c.line = line then { c with used := g.clock, dirty := c.dirty || write } else c }) s
  else match victimWay s r set cls with
    | none => s
    | some w => modRegion r (fun g => { g with clock := g.clock + 1, cache :=
        { set := set, way := w, line := line, dirty := write, used := g.clock } :: g.cache.filter fun c => !(decide (c.set = set) && decide (c.way = w)) }) s

/-- Every line of a range of chip physical memory is touched. -/
def touch (a n cls : Nat) (write : Bool) (s : State) : State :=
  each (segs a n) (fun p => touchLine p.1 cls write) s

/-- Every line of a range of lode memory is touched. -/
def touchLode (l a n cls : Nat) (write : Bool) (s : State) : State :=
  each (segs a n) (fun p s => match resolve s l p.1 with
    | some ph => touchLine ph cls write s
    | none => s) s

/-- A pseudo-channel's cached lines are dropped (R200). -/
def dropPcLines (pc : Nat) (s : State) : State :=
  modRegion (pc / 96) (fun g => { g with cache := g.cache.filter fun c => decide (c.line * 128 / 0x80000000 ≠ pc) }) s

/-! ### Scrub (R482) -/

/-- The chip physical base of a block's window (R191). -/
def blockBase (b : Nat) : Nat := 0x1C000000000 + b * 0x1000000

/-- Clears a block's memories, engine state and DMA queue; `f` says what becomes of each core. -/
def clearBlock (b : Nat) (f : Core → Core) (s : State) : State :=
  let s := zeroRange (blockBase b) 0xA00000 s
  let s := each (List.range 32) (fun c => modCore b c f) s
  let s := each (List.range 4) (fun e => modEngine b e fun g => { retired := g.retired }) s
  setDma b [] s

/-- What a scrub of a block clears (R482): its memories, core state and TLBs, engine and DMA queues, far windows. The counters of its
cores go on (R159, log 74). -/
def wipeBlock (b : Nat) (s : State) : State := clearBlock b (fun k => { cycle := k.cycle, instret := k.instret }) s

/-- What a switch leaves of a block's state (R444): TLB entries carry their context's tag and stay (R185, R227). -/
def vacateBlock (b : Nat) (s : State) : State := clearBlock b (fun k => { cycle := k.cycle, instret := k.instret, tlb := k.tlb }) s

/-- What a scrub of pseudo-channels clears: their bytes, poison and cached lines (R482, R200). -/
def wipePcs (pcs : List Nat) (s : State) : State :=
  each pcs (fun p s => dropPcLines p (zeroRange (p * 0x80000000) 0x80000000 s)) s

/-- Starts a scrub: its record, the number that SCRUB_END names, and what it releases. -/
def startScrub (micros kind num : Nat) (what : ScrubFor) (s : State) : State :=
  let s := event 0x909 1 kind num 0 0 none s
  modLm (fun m => { m with scrubs := m.scrubs ++ [{ id := m.scrubNext, micros := micros, what := what }],
                           scrubNext := m.scrubNext + 1 }) s

/-- The pseudo-channels of a set. -/
def pcsOfSet (s : State) (n : Nat) : List Nat := (List.range (setOf s n).count).map fun i => (setOf s n).base + i

/-- Wipes the memory of a set. -/
def wipeSet (n : Nat) (s : State) : State := wipePcs (pcsOfSet s n) s

end Sys2Proof.Machine
end

