-- ==== Sys2Proof/Machine/Commit.lean ====
section
/-! DEFINITION. Epochs and rebinding: how a change of a lode's part of the map waits, commits and drains (R35 to R39), and
what each step of a rebinding operation does (R42 to R56). The commands themselves are in LodeMap. -/
namespace Sys2Proof.Machine
open Sys2Proof

/-- Whether a request's tag is one of the two live epochs of its lode (R37), or the next one, already installed in this chip's
resources by phase 1 of a change over several chips (R39, R351). -/
def tagLive (s : State) (l etag : Nat) : Bool :=
  let d := lodeOf s l
  decide (etag % 256 = d.epoch % 256) || (d.prevLive && decide (etag % 256 = (d.epoch + 2 ^ 32 - 1) % 256)) ||
    (s.ut.preps.any fun p => decide (p.lode = l) && decide (p.epoch % 256 = etag % 256)) ||
    (s.ut.txns.any fun t => decide (t.lode = l) && decide (t.phase ≠ 3) && decide (t.epoch % 256 = etag % 256))

/-! ### Free slots and copies of granules -/

/-- The granule slots of a set in use: valid granules, destinations reserved by a migration, save slots (R432). -/
def usedSlots (s : State) (l n : Nat) : List Nat :=
  (s.lm.chan.filter fun t => t.1 / 8192 = l ∧ t.2.valid).flatMap (fun t =>
      (if t.2.set = n then [t.2.slot] else []) ++ (if (t.2.op.isSome ∨ t.2.mig ≠ 0) ∧ t.2.dset = n then [t.2.dslot] else [])) ++
    ((tget [] s.lm.save l).filter fun p => p.1 = n).map (·.2)

/-- Whether an operation takes a set from its lode. -/
def setLeaving (s : State) (n : Nat) : Bool := s.lm.ops.any fun o => decide (o.kind ≠ .create) && o.sets.contains n

/-- The free granule slots of a bound set; one that an operation empties, or that is leaving, evacuating or degraded, has none to give (R50,
R208). -/
def freeSlots (s : State) (l n : Nat) : List Nat :=
  if (setOf s n).state = 2 ∧ (setOf s n).lode = l ∧ !setLeaving s n then
    let used := usedSlots s l n
    (List.range (8 * (setOf s n).count)).filter fun k => !(used.contains k)
  else []

/-- Free slots (set, slot) of a lode's sets other than `n`, by rising set and slot (log 12). -/
def freeElsewhere (s : State) (l n : Nat) : List (Nat × Nat) :=
  ((setsOf s l).filter (· ≠ n)).flatMap fun m => (freeSlots s l m).map fun k => (m, k)

/-- The cells of memory that lie in a granule slot, with their offsets. -/
def slotCells (s : State) (set slot : Nat) : List (Nat × Byte) :=
  let t := setOf s set
  s.mem.bytes.filterMap fun c =>
    let pc := c.1 / 0x80000000
    let a := c.1 % 0x80000000
    let o := (a / 256 * t.count + (pc - t.base)) * 256 + a % 256
    if c.1 < 0x18000000000 ∧ t.base ≤ pc ∧ pc < t.base + t.count ∧ o / 2 ^ 28 = slot then some (o % 2 ^ 28, c.2) else none

/-- The poisoned lines (offsets of 64 bytes) of a granule slot. -/
def slotPoison (s : State) (set slot : Nat) : List Nat :=
  let t := setOf s set
  s.mem.poison.filterMap fun c =>
    let pc := c.1 * 64 / 0x80000000
    let a := c.1 * 64 % 0x80000000
    let o := (a / 256 * t.count + (pc - t.base)) * 256 + a % 256
    if c.1 * 64 < 0x18000000000 ∧ t.base ≤ pc ∧ pc < t.base + t.count ∧ o / 2 ^ 28 = slot then some (o % 2 ^ 28) else none

/-- The lost lines (offsets of 64 bytes) of a granule slot whose set has a failed pseudo-channel (R207). -/
def slotLost (s : State) (set slot : Nat) : List Nat :=
  if (pcsOfSet s set).any fun p => (pcOf s p).failed then
    ((List.range (2 ^ 22)).filter fun i => lostLine s (slotAddr s set slot (i * 64))).map (· * 64)
  else []

/-- Copies a granule slot to another: destination bytes become the source's, poisoned lines stay poisoned (R48, R208). -/
def copySlot (set slot dset dslot : Nat) (s : State) : State :=
  let src := slotCells s set slot
  let old := slotCells s dset dslot
  let bad := slotPoison s set slot ++ slotLost s set slot
  let oldBad := slotPoison s dset dslot
  let s := each old (fun c => putByte (slotAddr s dset dslot c.1) 0) s
  let s := each src (fun c => putByte (slotAddr s dset dslot c.1) c.2) s
  let s := each oldBad (fun o => setPoison (slotAddr s dset dslot o / 64) false) s
  each bad (fun o => setPoison (slotAddr s dset dslot o / 64) true) s

/-- Whether a granule slot has lines that were lost with a pseudo-channel (R194, R207). -/
def slotLossy (s : State) (set slot : Nat) : Bool := !(slotLost s set slot).isEmpty

/-- A source slot is freed: its lines leave the cache without write-back (R200). -/
def dropSlotLines (set slot : Nat) (s : State) : State :=
  let t := setOf s set
  modRegion (t.base / 96) (fun g => { g with cache := g.cache.filter fun c =>
    let pc := c.line * 128 / 0x80000000
    let a := c.line * 128 % 0x80000000
    let o := (a / 256 * t.count + (pc - t.base)) * 256 + a % 256
    !(decide (t.base ≤ pc) && decide (pc < t.base + t.count) && decide (o / 2 ^ 28 = slot)) }) s

/-! ### Operations -/

def getOp (s : State) (n : Nat) : Option Op := s.lm.ops.find? fun o => o.num = n
def modOp (n : Nat) (f : Op → Op) (s : State) : State :=
  modLm (fun m => { m with ops := m.ops.map fun o => if o.num = n then f o else o }) s

/-- Whether an operation is a rebinding operation of R42: a verb's, or a staged step. -/
def isRebind (k : OpKind) : Bool :=
  match k with
  | .blockMove | .channelMove | .granuleMigrate | .creditMove | .expert => true
  | _ => false

/-- Whether an operation is a staged step of expert control (R59). -/
def isStaged (o : Op) : Bool := decide (o.kind = .expert) || (decide (o.kind = .creditMove) && o.via.isNone)

def rebinds (s : State) : Nat := (s.lm.ops.filter fun o => isRebind o.kind).length

/-- The next operation number: ascending, wrapping after 0xFFFF, skipping numbers in progress (R623). -/
def opNumber (s : State) : Nat :=
  let cand := (List.range (s.lm.ops.length + 1)).map fun i => (s.lm.opNext + i) % 65536
  (cand.find? fun n => (getOp s n).isNone).getD s.lm.opNext

/-- Enters an operation under a fresh number. -/
def addOp (o : Op) (s : State) : State :=
  let n := opNumber s
  modLm (fun m => { m with ops := m.ops ++ [{ o with num := n }], opNext := (n + 1) % 65536 }) s

def blockClaimed (s : State) (b : Nat) : Bool := s.lm.ops.any fun o => o.blocks.contains b
def setClaimed (s : State) (n : Nat) : Bool := s.lm.ops.any fun o => o.sets.contains n || (decide (o.kind = .granuleMigrate) && decide (o.dest = n))
def portClaimed (s : State) (p : Nat) : Bool := s.lm.ops.any fun o => o.kind = .creditMove ∧ o.port = p
def granClaimed (s : State) (l g : Nat) : Bool :=
  s.lm.ops.any fun o => decide (o.donor = l) && o.granules.contains g
/-- Whether an operation names a lode. -/
def lodeNamed (s : State) (l : Nat) : Bool := s.lm.ops.any fun o => isRebind o.kind ∧ (o.donor = l ∨ o.receiver = l)

/-- The verb code of an operation (R57). -/
def opCode (k : OpKind) : Nat :=
  match k with
  | .blockMove => 0x0310 | .channelMove => 0x0311 | .granuleMigrate => 0x0312 | .creditMove => 0x0313
  | .create => 0x0300 | .destroy => 0x0301 | .evacuate | .expert | .release => 0

/-- The result of an operation's verb (R57): its number, the epochs, what it did not move, the granules added. -/
def opResult (o : Op) (failed : Bool) : List Byte :=
  let head := [(2, o.num), (4, o.epochD), (4, o.epochR)]
  let left := if failed then
      (match o.kind with
       | .blockMove => [(8, maskOf o.blocks % 2 ^ 64), (8, maskOf o.blocks / 2 ^ 64)]
       | .channelMove => o.sets.map fun n => (1, n)
       | .granuleMigrate => o.granules.map fun g => (2, g)
       | .creditMove => [(1, o.units - o.moved / 128)]
       | _ => [])
    else []
  enc (head ++ left ++ o.added.map fun g => (2, g))

/-- Takes an operation out, with the changes of it that wait and the copies it asked for. -/
def dropOp (n : Nat) (s : State) : State :=
  let names (c : Change) : Bool := match c with
    | .detach k _ | .attach k _ _ | .cutover k | .attachSet k _ | .credit k => decide (k = n)
    | _ => false
  let s := modLm (fun m => { m with ops := m.ops.filter (fun p => p.num ≠ n), waiting := m.waiting.filter fun w => !names w.2 }) s
  let s := modUt (fun u => { u with asked := u.asked.filter fun a => !names a.2.2 }) s
  modCu (fun c => { c with dma := (c.dma.map fun t => (t.1, t.2.filter fun d => decide (d.owner ≠ .firmware n))).filter fun t => t.2 ≠ [] }) s

/-- What an operation that ends in error after its first commit leaves (R44): the blocks and the set that its donor has given up and no lode
holds, to be drained, scrubbed and freed. A retired resource is not among them: its fate is that of R208 and R526. -/
def leftOver (s : State) (o : Op) : Option Op :=
  let bs := o.blocks.filter fun b => decide ((blockOf s b).state = 3) || decide ((blockOf s b).state = 4) || decide ((blockOf s b).state = 5)
  let ns := o.sets.filter fun n => decide ((setOf s n).state = 3) || decide ((setOf s n).state = 4)
  let gs := o.granules.filter fun g => (granOf s o.donor g).mig = 2
  if o.committed && !(bs.isEmpty && ns.isEmpty && gs.isEmpty) then some { o with kind := .release, blocks := bs, sets := ns, granules := gs, via := none, stop := 0, begun := false }
  else none

/-- What was scrubbed for a release is free (R44). -/
def freeLeft (o : Op) (s : State) : State :=
  let s := each (o.blocks.filter fun b => decide ((blockOf s b).state = 4) || decide ((blockOf s b).state = 5)) (fun b => modBlock b fun x => { x with state := 0, lode := 0x7F, slot := 0x7F }) s
  dropOp o.num (each (o.sets.filter fun n => (setOf s n).state = 4) (fun n => modSet n fun t => { t with state := 1, lode := 0x7F }) s)

/-- Ends an operation: its claims and draining marks go, uncommitted copies are dropped, its verb completes (R44, R623). -/
def endOp (n : Nat) (status : Nat) (s : State) : State :=
  match getOp s n with
  | none => s
  | some o =>
    let s := dropOp n s
    let s := match if status = 0 then none else leftOver s o with
      | none => s
      | some r =>
        let s := modLm (fun m => { m with ops := m.ops ++ [r] }) s
        if (r.kind = .release ∧ !r.blocks.isEmpty ∧ r.step = 7) ∨ (!r.sets.isEmpty ∧ r.step = 6) then freeLeft r s else s
    let s := if o.committed then s else each o.blocks (fun b => modBlock b fun k =>
      if k.state = 2 then { k with state := 1, drain := false } else k) s
    let s := each o.granules (fun g => modGran o.donor g fun e =>
      if e.op = some n ∧ e.mig ≠ 2 then { e with mig := 0, dset := 0, dslot := 0, copied := false, op := none } else e) s
    let s := if isStaged o then modLm (fun m => { m with opState := if status = 0 then 3 else 4, opError := status }) s else s
    let s := if isRebind o.kind then each ([o.donor, o.receiver].filter (· < 96)).dedup (fun l => raiseLode l 3) s else s
    answerOpt o.via status (opResult o (status ≠ 0)) s

/-- A higher action ends an operation at its next step boundary (R44): at once, unless a commit of it is under way, or credits that it has
committed are still passing. -/
def stopOp (n status : Nat) (s : State) : State :=
  match getOp s n with
  | none => s
  | some o =>
    if o.begun || (decide (o.kind = .creditMove) && o.committed) then modOp n (fun o => { o with stop := if o.stop = 0 then status else o.stop }) s
    else endOp n status s

/-- A commit of an operation is done: phase 2 stands, and a higher action's end follows (R39, R44). `f` notes what it changed. -/
def opCommitted (n : Nat) (f : Op → Op) (s : State) : State :=
  match getOp s n with
  | none => s
  | some o =>
    let s := wh (isStaged o) (modLm fun m => { m with opState := 2 }) s
    let s := modOp n (fun o => { f o with committed := true, begun := false }) s
    if o.stop ≠ 0 ∧ o.kind ≠ .creditMove then endOp n o.stop s else s

/-- Phase 1 of R39 begins, or is given up again, for the commit of an operation. -/
def setBegun (v : Bool) (c : Change) (s : State) : State :=
  match c with
  | .detach n _ | .attach n _ _ | .cutover n | .attachSet n _ | .credit n => modOp n (fun o => { o with begun := v }) s
  | _ => s

/-! ### Committing a change (R35, R38, R39) -/

/-- The lodes a change touches. -/
def lodesOfChange (s : State) (l : Nat) (c : Change) : List Nat :=
  match c with
  | .credit n => match getOp s n with
    | some o => [o.donor, o.receiver]
    | none => [l]
  | _ => [l]

/-- Raises a lode's epoch by one; the epoch before it is now the previous one (R35), and the masters discard their cached granule entries (R195). The coordinator awaits every member's drained report
(R38), another member the coordinator's word that they have all come. -/
def raiseEpoch (l : Nat) (s : State) : State :=
  dropGrans (fun h => h.lode ≠ l) (modLode l (fun d => { d with
    epoch := (d.epoch + 1) % 2 ^ 32, prevLive := true
    undrained := if d.coord || d.members.isEmpty then d.members else [d.members.foldl min 0xFFFF] }) s)

/-- Whether the previous epoch of a lode has drained on every member chip, as this chip knows it (R38). -/
def drained (s : State) (l : Nat) : Bool := !(lodeOf s l).prevLive && (lodeOf s l).undrained.isEmpty

/-- The lowest free local slot of a lode (R34). -/
def lowSlot (s : State) (l : Nat) : Nat :=
  let used := (blocksOf s l).map fun b => (blockOf s b).slot
  ((List.range 96).find? fun k => !(used.contains k)).getD 0

/-- A block joins a lode. -/
def joinBlock (l b : Nat) (slot : Option Nat) (s : State) : State :=
  let k := slot.getD (lowSlot s l)
  modBlock b (fun x => { x with state := 1, lode := l, slot := k, drain := false }) s

/-- A set joins a lode: a valid granule entry for each of its first `k` slots, at the lowest invalid granule indices (R50 step 6).
Answers the indices added. -/
def joinSlots (l n k : Nat) (s : State) : List Nat × State :=
  let s := modSet n (fun t => { t with state := 2, lode := l }) s
  let free := ((List.range 8192).filter fun g => !(granOf s l g).valid).take k
  (free, each free.zipIdx (fun gi => modGran l gi.1 fun _ => { valid := true, set := n, slot := gi.2 }) s)

/-- A set joins a lode with an entry for each of its slots (R50 step 6, R76). -/
def joinSet (l n : Nat) (s : State) : List Nat × State := joinSlots l n (8 * (setOf s n).count) s

/-- A set of a lode that LODE_CREATE founds: how many of its slots get an entry R54 does not say (log 9). -/
def foundSet (l n : Nat) (s : State) : State :=
  let (v, s) := draw s
  let k := 8 * (setOf s n).count
  (joinSlots l n (k - v % (k + 1)) s).2

/-- Credits of a lode's limit on a port (R53): those of its units but the ones that a donor's packets still hold. -/
def creditLimit (s : State) (l p : Nat) : Nat :=
  128 * creditOf s l p - ((s.lm.ops.filter fun o => decide (o.kind = .creditMove) && o.committed && decide (o.receiver = l) && decide (o.port = p)).map
    fun o => 128 * o.units - o.moved).sum

/-- Credits of the donor's excess that have passed to the receiver (R53, R320): one at a time, as the donor's packets free them. -/
def passCredits (n : Nat) (s : State) : State :=
  match getOp s n with
  | none => s
  | some o =>
    let excess := tget 0 s.lm.creditUse (o.donor * 32 + o.port) - 128 * creditOf s o.donor o.port
    let s := modOp n (fun o => { o with moved := max o.moved (128 * o.units - excess) }) s
    if excess = 0 then endOp n o.stop s else s

/-- Save slots of a lode on a set. -/
def savesOn (s : State) (l n : Nat) : Nat := ((tget [] s.lm.save l).filter fun p => p.1 = n).length

/-- Moves the save slots of a leaving set to free slots of the lode's other sets, with their contents (R433). -/
def moveSaves (l n : Nat) (s : State) : State :=
  each ((tget [] s.lm.save l).filter fun p => p.1 = n) (fun p s =>
    match freeElsewhere s l n with
    | (m, k) :: _ =>
      let s := copySlot n p.2 m k s
      modLm (fun x => { x with save := tset [] x.save l ((tget [] x.save l).map fun q => if q = p then (m, k) else q) }) s
    | [] => s) s

/-! ### Breaking a set (R208 step 4, R209) -/

/-- The pieces left of an aligned group that loses a pseudo-channel, by repeated halving (R209). -/
def halve : Nat → Nat → Nat → Nat → List (Nat × Nat)
  | 0, _, _, _ => []
  | fuel + 1, base, n, f =>
    if n ≤ 4 then [] else
    if f < base + n / 2 then (base + n / 2, n / 2) :: halve fuel base (n / 2) f
    else (base, n / 2) :: halve fuel (base + n / 2) (n / 2) f

/-- Inserts a piece in order of base. -/
def insertPiece (p : Nat × Nat) : List (Nat × Nat) → List (Nat × Nat)
  | [] => [p]
  | q :: t => if p.1 < q.1 then p :: q :: t else q :: insertPiece p t

/-- The pieces of a set that loses several pseudo-channels, given in rising order: in descending size, the lower base first
among equals (log 37). -/
def piecesOf (base n : Nat) (fails : List Nat) : List (Nat × Nat) :=
  let ps := fails.foldl (fun ps f => ps.flatMap fun p => if p.1 ≤ f ∧ f < p.1 + p.2 then halve 8 p.1 p.2 f else [p]) [(base, n)]
  let ps := ps.foldr insertPiece []
  [128, 64, 32, 16, 8, 4].flatMap fun k => ps.filter fun p => p.2 = k

/-- The lowest set number that is free on the chip. -/
def freeSetNo (s : State) : Nat := ((List.range 192).find? fun n => (setOf s n).state = 0).getD 191

/-- Replaces a set by its pieces: its failed and predicted pseudo-channels are retired, the others outside every piece are stranded
(R208 step 4, R209). The retirement bits are written first (R530). Answers the stranded ones. -/
def splitSet (n : Nat) (s : State) : List Nat × State :=
  let t := setOf s n
  let all := pcsOfSet s n
  let bad := all.filter fun p => (pcOf s p).failed || (pcOf s p).predicted || (pcOf s p).retired
  let ps := piecesOf t.base t.count bad
  let lone := all.filter fun p => !(bad.contains p) && !(ps.any fun q => decide (q.1 ≤ p) && decide (p < q.1 + q.2))
  let s := each bad (fun p s => modPc p (fun c => { c with retired := true, predicted := false }) (modFc ⟨5, p⟩ (fun f => { f with retired := true }) s)) s
  let s := each lone (fun p => modPc p fun c => { c with stranded := true }) s
  let s := modSet n (fun _ => {}) s
  (lone, each ps.zipIdx (fun q s => modSet (if q.2 = 0 then n else freeSetNo s) (fun _ =>
    { state := if t.lode = 0x7F then 1 else 2, base := q.1.1, count := q.1.2, lode := t.lode }) s) s)

/-- Breaks a set; its stranded pseudo-channels are scrubbed (R208 step 5). -/
def breakNow (n : Nat) (s : State) : State :=
  let (lone, s) := splitSet n s
  if lone.isEmpty then s else startScrub 60000 5 (lone.headD 0) (.stranded lone) (wipePcs lone s)

/-- The modules a lode spans, as committed: a lode on this chip alone lists none; the coordinator is the lowest (R344). -/
def setMembers (l : Nat) (devs : List Nat) (s : State) : State :=
  let own := s.dr.devid
  modLode l (fun d => { d with
    members := if devs = [own] then [] else devs, coord := devs.all fun x => decide (own ≤ x)
    undrained := if devs = [own] then [] else d.undrained.filter (devs.contains ·), others := d.others.filter fun t => devs.contains t.1 }) s

/-- What a member's change does to its part of a lode, as the other members keep it (R29): the words of R346. -/
def noteHeld (l dev : Nat) (ws : List Nat) (s : State) : State :=
  let f (h : Held) : Held := match ws with
    | 1 :: bs => { h with blocks := h.blocks - bs.length }
    | 2 :: bs => { h with blocks := h.blocks + bs.length }
    | [3, n] => { h with sets := h.sets - n }
    | 4 :: _ => { h with sets := h.sets + 1 }
    | [6, _, n] => { h with sets := h.sets + n - 1 }
    | 7 :: _ => { h with blocks := h.blocks - 1 }
    | _ => h
  if dev = s.dr.devid then s else modLode l (fun d => { d with others := tmod {} d.others dev f }) s

/-- Installs a change in resources and masters (R39). -/
def applyChange (l : Nat) (c : Change) (s : State) : State :=
  match c with
  | .detach n bs =>
    let s := raiseEpoch l s
    let s := each bs (fun b => modBlock b fun x => { x with state := 3, lode := 0x7F, slot := 0x7F, drain := false }) s
    opCommitted n (fun o => { o with step := 5, epochD := (lodeOf s l).epoch }) s
  | .attach n bs slot =>
    let s := raiseEpoch l s
    let s := each bs (fun b => joinBlock l b slot) s
    endOp n 0 (modOp n (fun o => { o with committed := true, epochR := (lodeOf s l).epoch }) s)
  | .cutover n => match getOp s n with
    | none => s
    | some o =>
      let s := raiseEpoch l s
      let s := each o.granules (fun g s => modGran l g (fun e =>
        { e with
          mig := 2, set := e.dset, slot := e.dslot, dset := e.set, dslot := e.slot
          lossy := e.lossy || slotLossy s e.set e.slot }) s) s
      let s := if o.kind = .channelMove ∨ o.kind = .expert then each o.sets (fun m => modSet m fun t => { t with state := 3 }) (each o.sets (fun m => moveSaves l m) s) else s
      opCommitted n (fun o => { o with step := 4, epochD := (lodeOf s l).epoch }) s
  | .attachSet n m =>
    let s := raiseEpoch l s
    let (added, s) := joinSet l m s
    endOp n 0 (modOp n (fun o => { o with committed := true, epochR := (lodeOf s l).epoch, added := added }) s)
  | .credit n => match getOp s n with
    | none => s
    | some o =>
      let s := raiseEpoch o.receiver (raiseEpoch o.donor s)
      let s := setCredit o.receiver o.port (creditOf s o.receiver o.port + o.units) (setCredit o.donor o.port (creditOf s o.donor o.port - o.units) s)
      passCredits n (opCommitted n (fun x => { x with step := 2, epochD := (lodeOf s o.donor).epoch, epochR := (lodeOf s o.receiver).epoch }) s)
  | .breakSet n =>
    let s := breakNow n (raiseEpoch l s)
    match s.lm.ops.find? fun o => o.kind = .evacuate ∧ o.sets.contains n with
    | some o => endOp o.num 0 (modLode l (fun d => { d with shortfall := [] }) s)
    | none => s
  | .retireBlock b =>
    shutBlock b (raiseEpoch l s)
  | .members devs _ => setMembers l devs (raiseEpoch l s)
  | .extend dev bs sets _ devs _ =>
    modLode l (fun d => { d with others := tset {} d.others dev { blocks := (bitsOf 96 bs).length, sets := sets.length } }) (setMembers l devs (raiseEpoch l s))
  | .adopt t =>
    let s := raiseEpoch l s
    match s.ut.adopts.find? fun a => decide (a.2.1 = l) && decide (a.2.2 = t) with
    | none => s
    | some a =>
      let s := modUt (fun u => { u with adopts := u.adopts.erase a, adopted := u.adopted ++ [(t, (lodeOf s l).epoch)] }) s
      emit (.ut a.1 { msg := 9, fromDev := s.dr.devid, subject := (lodeOf s l).gid, epoch := (lodeOf s l).epoch, reqseq := t }) s
  | .remote dev _ ws => noteHeld l dev ws (raiseEpoch l s)

/-- What this module holds of a lode, and what it knows that the others hold, as words: device, blocks, sets, index of each. -/
def holdings (s : State) (l : Nat) : List Nat :=
  [s.dr.devid, (blocksOf s l).length, (setsOf s l).length, l] ++ (lodeOf s l).others.flatMap fun t => [t.1, t.2.blocks, t.2.sets, t.2.idx]

/-- The change as a Utwelas `PREPARE` carries it (R346): kind and resources. -/
def changeWords (s : State) (l : Nat) (c : Change) : List Nat :=
  let d := lodeOf s l
  match c with
  | .detach _ bs => 1 :: bs | .attach _ bs _ => 2 :: bs
  | .cutover n => [3, ((getOp s n).map fun o => o.sets.length).getD 0]
  | .attachSet _ n => [4, n]
  | .credit _ => [5]
  | .breakSet n => [6, n, (piecesOf (setOf s n).base (setOf s n).count ((pcsOfSet s n).filter fun p => (pcOf s p).failed || (pcOf s p).predicted)).length]
  | .retireBlock b => [7, b]
  | .members devs _ => 8 :: devs | .adopt t => [9, t]
  | .extend dev bs sets credits devs _ => [10, dev, bs, if d.conf then 1 else 0, d.homeDev, sets.length] ++ sets ++ [credits.length] ++ credits ++ [devs.length] ++ devs ++ holdings s l
  | .remote dev n ws => 13 :: dev :: n :: ws

/-- Sends a Utwelas message to each device of a list. -/
def sendUt (devs : List Nat) (m : UtMsg) (s : State) : State := each devs (fun d => emit (.ut d { m with fromDev := s.dr.devid })) s

/-- Starts the two-phase commit of a change over a lode's other member modules (R351 step 2): phase 1 begins. -/
def startTxn (l : Nat) (c : Change) (extra : List Nat) (twin : Option Nat) (s : State) : State :=
  let d := lodeOf s l
  let devs := (d.members.filter fun m => decide (m ≠ s.dr.devid) && !(peerOf s m).lost) ++ extra
  let n := s.ut.txnNext
  let e := (d.epoch + 1) % 2 ^ 32
  let ws := changeWords s l c
  let s := modUt (fun u => { u with
    txnNext := u.txnNext + 1
    txns := u.txns ++ [{ num := n, lode := l, epoch := e, devs := devs, change := ws, mine := some c, twin := twin }] }) s
  setBegun true c (sendUt devs { msg := 2, fromDev := 0, txn := n, subject := d.gid, epoch := e, body := ws } s)

/-- Whether the next change of a lode may commit (R38, R351, R349 step 3). -/
def ready (s : State) (l : Nat) : Bool :=
  drained s l && !(lodeOf s l).frozen && !(s.ut.txns.any fun t => t.lode = l) && !(s.ut.preps.any fun t => t.lode = l) &&
    !(s.ut.asked.any fun a => a.2.1 = l)

/-- Whether a reset of an enclosing domain holds a change: it ranks above rebinding and retirement (R18, R19). -/
def heldByReset (s : State) (c : Change) : Bool :=
  let blk (b : Nat) : Bool := (blockOf s b).resetting || (regionOf s (b / 12)).resetting
  let set (n : Nat) : Bool := (regionOf s ((setOf s n).base / 96)).resetting
  match c with
  | .detach _ bs | .attach _ bs _ => bs.any blk
  | .retireBlock b => blk b
  | .attachSet _ n | .breakSet n => set n
  | .cutover n => ((getOp s n).map fun o => o.sets.any set || o.granules.any fun g => set (granOf s o.donor g).set || set (granOf s o.donor g).dset).getD false
  | _ => false

/-- Commits a change now: at once for a lode on this chip alone, through Utwelas otherwise (R39, R351). The coordinator runs the two phases;
another member asks it to (log 68). A credit move commits both its lodes' changes together (R35). -/
def commitNow (l : Nat) (c : Change) (s : State) : State :=
  let away (x : Nat) : Bool := (lodeOf s x).members.any (· ≠ s.dr.devid)
  match c with
  | .extend dev _ _ _ _ _ => startTxn l c [dev] none s
  | .credit _ => match (lodesOfChange s l c).filter away with
    | [] => applyChange l c s
    | [x] => startTxn x c [] none s
    | x :: y :: _ =>
      let n := s.ut.txnNext
      startTxn y c [] (some n) (startTxn x c [] (some (n + 1)) s)
  | _ =>
    if !away l then applyChange l c s
    else if (lodeOf s l).coord then startTxn l c [] none s
    else
      let k := s.ut.askNext
      emit (.control ((lodeOf s l).members.foldl min 0xFFFF) 15 ((lodeOf s l).gid :: k :: changeWords s l c))
        (modUt (fun u => { u with asked := u.asked ++ [(k, l, c)], askNext := k + 1 }) s)

/-- Commits each waiting change whose lodes are ready and that no earlier change of the same lode precedes (R38). -/
def pumpGo : List (Nat × Change) → List Nat → State → State
  | [], _, s => s
  | (l, c) :: t, blocked, s =>
    let ls := lodesOfChange s l c
    if ls.any (fun x => blocked.contains x || !ready s x) || heldByReset s c then
      pumpGo t (ls ++ blocked) (modLm (fun m => { m with waiting := m.waiting ++ [(l, c)] }) s)
    else pumpGo t (ls ++ blocked) (commitNow l c s)

/-- Waiting changes are tried again; a thermal shutdown ranks above them all (R18). -/
def pump (s : State) : State := if s.pwr.shutdown ≠ 0 then s else pumpGo s.lm.waiting [] (modLm (fun m => { m with waiting := [] }) s)

/-- Asks for a change: it commits, or waits behind the earlier ones (R38). -/
def commit (l : Nat) (c : Change) (s : State) : State :=
  pump (modLm (fun m => { m with waiting := m.waiting ++ [(l, c)] }) s)

/-! ### The steps of the operations -/

/-- Granules being copied now and not yet at the destination. -/
def copying (s : State) (o : Op) : List Nat := o.granules.filter fun g => (granOf s o.donor g).mig = 1 ∧ !(granOf s o.donor g).copied

/-- The serviceable region DMA engine that takes the work of engine `e` of a region (R527): the next higher, wrapping. -/
def rdmaFor (s : State) (r e : Nat) : Option Nat :=
  ((List.range 4).map fun i => (e + i) % 4).find? fun k => !(fcOf s ⟨4, r * 4 + k⟩).retired

/-- The DMA engine of the source region that copies a granule (R51): which of them is firmware's choice (log 69). -/
def copyUnit (s : State) (l g : Nat) : Option Nat :=
  let r := (setOf s (granOf s l g).set).base / 96
  (rdmaFor s r (g % 4)).map fun e => 96 + r * 4 + e

/-- The request of a granule's copy in a DMA engine's queue: kind 6, under the migration class (R51). -/
def copyReq (s : State) (n l g : Nat) : Dma :=
  { owner := .firmware n, kind := 6, len := 2 ^ 28, srcVa := g, lode := l, epoch := (lodeOf s l).epoch % 256, cls := s.img.applied.migClass }

/-- Takes further granules of an operation to Copying, at most 4 at once, each with a request to a DMA engine (R50 step 2, R51). -/
def startCopies (n : Nat) (s : State) : State :=
  match getOp s n with
  | none => s
  | some o =>
    let next := (o.granules.filter fun g => (granOf s o.donor g).op = some n ∧ (granOf s o.donor g).mig = 0).take (4 - (copying s o).length)
    each next (fun g s => match copyUnit s o.donor g with
      | none => s
      | some u => setDma u (dmaOf s u ++ [copyReq s n o.donor g]) (modGran o.donor g (fun e => { e with mig := 1 }) s)) s

/-- A request for a granule's copy leaves the queues (R51). -/
def dropCopy (l g : Nat) (s : State) : State :=
  modCu (fun c => { c with dma := (c.dma.map fun t => (t.1, t.2.filter fun d => !(decide (d.kind = 6) && decide (d.lode = l) && decide (d.srcVa = g)))).filter fun t => t.2 ≠ [] }) s

/-- Bytes served to the headframe master under a class: they take its tokens as far as these go (R51, R273, R290, R298). -/
def chargeHead (cls n : Nat) (s : State) : State :=
  let m := masterOf s 160
  let conf := min m.tokens n
  let t := tget (0, 0) s.noc.served cls
  modMaster 160 (fun m => { m with tokens := m.tokens - conf, conform := m.conform + conf, excess := m.excess + (n - conf) })
    (modNoc (fun k => { k with served := tset (0, 0) k.served cls (t.1 + conf, t.2 + (n - conf)) }) s)

/-- Gives each granule of an operation a destination slot and starts the first copies. -/
def planCopies (n : Nat) (l : Nat) (gs : List Nat) (dests : List (Nat × Nat)) (s : State) : State :=
  startCopies n (each (gs.zip dests) (fun gd => modGran l gd.1 fun e => { e with op := some n, dset := gd.2.1, dslot := gd.2.2, mig := 0, copied := false }) s)

/-- Every granule of an operation stands copied: its cutover commits (R50 step 3). -/
def copiesDone (n : Nat) (s : State) : State :=
  match getOp s n with
  | none => s
  | some o =>
    if o.step = 2 ∧ o.granules.all fun g => (granOf s o.donor g).copied then
      commit o.donor (.cutover n) (modOp n (fun o => { o with step := 3 }) s)
    else s

/-- The evacuation goes on (R208 steps 2 to 4): the next batch of granules, then the save slots, which count as valid granules (R433), the set's
end, or a wait for free slots with the shortfall recorded. -/
def evacNext (num : Nat) (s : State) : State :=
  match getOp s num with
  | none => s
  | some o =>
    let n := o.sets.headD 0
    let l := o.donor
    let gs := (gransOf s l).filter fun g => (granOf s l g).set = n ∧ (granOf s l g).mig = 0
    let short (left : Nat) (s : State) : State :=
      modOp num (fun o => { o with step := 5, granules := [] }) (modLode l (fun d => { d with shortfall := gs })
        (event 0x301 4 10 l Err.noCapacity left (some l) s))
    if gs.isEmpty then
      let s := moveSaves l n s
      if savesOn s l n ≠ 0 then short (savesOn s l n) s
      else commit l (.breakSet n) (modOp num (fun o => { o with step := 6, granules := [] }) s)
    else
      let dests := (freeElsewhere s l n).take 64
      if dests.isEmpty then short (gs.length + savesOn s l n) s
      else
        let batch := gs.take dests.length
        planCopies num l batch dests (modLode l (fun d => { d with shortfall := [] }) (modOp num (fun o => { o with step := 2, granules := batch, committed := false }) s))

/-- Every granule of an operation is settled: a set that was emptied is scrubbed, a migration ends (R50 step 5, R48). A staged cutover ends here;
the scrub goes on by itself (R60). -/
def settledAll (n : Nat) (s : State) : State :=
  match getOp s n with
  | none => s
  | some o =>
    if o.step = 4 ∧ o.granules.all fun g => (granOf s o.donor g).mig = 0 then
      let empty (s : State) : State := each o.sets wipeSet (each o.sets (fun m => modSet m fun t => { t with state := 4, lode := 0x7F }) s)
      match o.kind with
      | .channelMove => startScrub 60000 5 0 (.op n) (empty (modOp n (fun o => { o with step := 5 }) s))
      | .expert => each o.sets (fun m => startScrub 60000 5 0 (.freeSet m)) (endOp n 0 (empty s))
      | .release => if o.sets.isEmpty then dropOp n s else startScrub 60000 5 0 (.op n) (empty (modOp n (fun o => { o with step := 5 }) s))
      | .granuleMigrate => endOp n 0 s
      | .evacuate => evacNext n s
      | _ => s
    else s

/-- A block starts to drain: no new launch is started on it (R46 step 2). -/
def markDrain (b : Nat) (s : State) : State := modBlock b (fun x => { x with state := 2, drain := true }) s

/-- Whether no launch of a block's lode is in progress on it, switched-out contexts included (R46 step 3). -/
def launchFree (s : State) (b : Nat) : Bool :=
  (blockOf s b).launch.isNone && !((queueOf s (blockOf s b).lode).recs.any fun r => decide (r.stage = 2) && r.parts.contains b) &&
    (ctxsOf s (blockOf s b).lode).all fun c => (tget none (ctxOf s c).images b).all fun i => i.launch.isNone

/-- A block reported drained: with the last of them the donor's commit starts (R46 steps 3 and 4). -/
def blockDrainedEff (b : Nat) (s : State) : State :=
  if (blockOf s b).state = 2 ∧ launchFree s b ∧ !(blockOf s b).resetting ∧ s.pwr.shutdown = 0 then
    match s.lm.ops.find? fun o => o.kind = .blockMove ∧ o.step = 3 ∧ o.blocks.contains b with
    | none => s
    | some o =>
      let ds := if o.drained.contains b then o.drained else o.drained ++ [b]
      let s := modOp o.num (fun o => { o with drained := ds }) s
      if o.blocks.all (ds.contains ·) then commit o.donor (.detach o.num o.blocks) (modOp o.num (fun o => { o with step := 4 }) s) else s
  else s

/-- The semaphore or barrier page `n` (0 to 511 semaphore pages by region, 512 on barrier pages) is emptied of values (R482). -/
def wipePage (n : Nat) (s : State) : State :=
  if n < 512 then modNoc (fun k => { k with sems := k.sems.filter fun t => t.1 / 256 ≠ n }) s
  else modNoc (fun k => { k with bars := k.bars.filter fun t => t.1 / 64 ≠ n - 512 }) s

/-- A page's entry. -/
def pageOf (s : State) (n : Nat) : SyncPage := if n < 512 then tget {} s.noc.semPages n else tget {} s.noc.barPages (n - 512)
def modPage (n : Nat) (f : SyncPage → SyncPage) (s : State) : State :=
  if n < 512 then modNoc (fun k => { k with semPages := tmod {} k.semPages n f }) s
  else modNoc (fun k => { k with barPages := tmod {} k.barPages (n - 512) f }) s

/-- A page is free again, or retired when an error classified it (R528). -/
def freePage (n : Nat) : State → State := modPage n fun p => { retired := p.retired || p.failing }

/-- The pages a lode holds. -/
def pagesOf (s : State) (l : Nat) : List Nat :=
  (s.noc.semPages.filter fun t => t.2.bound ∧ t.2.lode = l).map (·.1) ++ (s.noc.barPages.filter fun t => t.2.bound ∧ t.2.lode = l).map (·.1 + 512)

/-- The lode's resources are released when its destruction's scrub ends (R55): the index becomes free. -/
def freeLode (l : Nat) (s : State) : State :=
  let s := each ((List.range 96).filter fun b => (blockOf s b).lode = l) (fun b =>
    modBlock b fun x => { x with state := if x.state = 6 then 6 else 0, lode := 0x7F, slot := 0x7F, drain := false, launch := none }) s
  let s := each ((s.lm.sets.filter fun t => t.2.lode = l).map (·.1)) (fun n => modSet n fun t => { t with state := 1, lode := 0x7F }) s
  let s := modLm (fun m => { m with
    chan := m.chan.filter fun t => t.1 / 8192 ≠ l
    credits := m.credits.filter fun t => t.1 / 32 ≠ l
    creditUse := m.creditUse.filter fun t => t.1 / 32 ≠ l
    save := tset [] m.save l []
    waiting := m.waiting.filter fun w => w.1 ≠ l }) s
  let s := each (pagesOf s l) (fun n s => freePage n (wipePage n s)) s
  let s := modDr (fun d => { d with rwt := d.rwt.filter fun w => w.2.lode ≠ l }) s
  let s := modXl (fun x => { x with lodes := tset {} x.lodes l {}, ctxs := x.ctxs.filter fun t => t.2.lode ≠ l }) s
  let s := modNoc (fun n => { n with
    buckets := n.buckets.filter fun t => t.1 % 128 ≠ l
    bucketTok := n.bucketTok.filter fun t => t.1 % 128 ≠ l }) s
  let s := { s with q := tset {} s.q l {} }
  let s := { s with sch := { s.sch with lodes := tset {} s.sch.lodes l {}, ctxs := s.sch.ctxs.filter fun t => t.2.lode ≠ l } }
  let s := { s with sec := { s.sec with slots := (s.sec.slots.map fun t =>
    if t.2.valid ∧ t.2.owner = 1 ∧ t.2.ownerId = l ∧ 16 ≤ t.1 then (t.1, { gen := t.2.gen }) else t).filter fun t => t.2 ≠ {} } }
  modLode l (fun _ => {}) s

/-- Starts the destruction of a lode's part on this chip: both live epochs are to drain first (R55). -/
def startDestroy (l : Nat) (via : Option Via) (s : State) : State :=
  let prev := (lodeOf s l).prevLive
  addOp { num := 0, kind := .destroy, donor := l, step := if prev then 1 else 2, via := via, committed := true }
    (modLode l (fun d => { d with state := 4, destroyVias := [] }) s)

/-- Starts the destruction of a lode: over several chips, as a change that leaves it no member (R343, log 68). -/
def destroyLode (l : Nat) (via : Via) (s : State) : State :=
  if multichip s l then commit l (.members [] (some via)) (modLode l (fun d => { d with destroyVias := [] }) s) else startDestroy l (some via) s

/-- The destroy requests that waited for a lode's last rebinding operation (R55): the first is tested again and starts; the lode then is none
that the others could name. -/
def wakeDestroys (s : State) : State :=
  each (lodes s) (fun l s => match (lodeOf s l).destroyVias with
    | [] => s
    | v :: vs =>
      if lodeNamed s l then s
      else if !(ctxsOf s l).isEmpty then each (v :: vs) (fun v => reject v Err.resourceBusy) (modLode l (fun d => { d with destroyVias := [] }) s)
      else each vs (fun v => reject v Err.lodeUnknown) (destroyLode l v s)) s

/-- What waited for the previous epoch of a lode to drain on every member goes on (R38, R46 step 5, R50 step 4, R55). -/
def resumeDrained (l : Nat) (s : State) : State :=
  let s := if !drained s l then s else each (s.lm.ops.filter fun o => o.donor = l) (fun o s =>
    match o.kind with
    | .destroy =>
      if o.step = 1 then modOp o.num (fun o => { o with step := 2 }) s
      else if o.step = 2 then
        let bs := blocksOf s l
        let ns := setsOf s l
        let s := each bs (fun b => modBlock b fun x => { x with state := 4 }) s
        let s := each ns (fun n => modSet n fun t => { t with state := 4 }) s
        let s := each ns wipeSet (each bs wipeBlock s)
        startScrub (if ns.isEmpty then 200 else 60000) 10 l (.destroy l) (modOp o.num (fun o => { o with step := 3 }) s)
      else s
    | k =>
      if o.step = 5 ∧ !o.blocks.isEmpty then
        let bs := o.blocks.filter fun b => (blockOf s b).state = 3
        let s := each bs wipeBlock (each bs (fun b => modBlock b fun x => { x with state := 4 }) s)
        if k = .expert then endOp o.num 0 (each bs (fun b => startScrub 200 3 b (.freeBlock b)) s)
        else startScrub 200 3 (o.blocks.headD 0) (.op o.num) (modOp o.num (fun o => { o with step := 6 }) s)
      else if o.step = 4 ∧ o.granules.isEmpty then settledAll o.num s else s) s
  pump s

/-- The coordinator tells the other members that an epoch has drained on every one of them (R38). -/
def tellDrained (l : Nat) (s : State) : State :=
  let d := lodeOf s l
  if d.coord && drained s l then each (d.members.filter (· ≠ s.dr.devid)) (fun m => emit (.control m 16 [d.gid])) s else s

/-- An epoch of a lode has drained on this chip: a member reports it, and what waited for it goes on (R38). -/
def epochDrainedEff (l : Nat) (s : State) : State :=
  let was := (lodeOf s l).prevLive
  let s := modLode l (fun d => { d with prevLive := false, undrained := d.undrained.filter fun m => !(d.coord && decide (m = s.dr.devid)) }) s
  let d := lodeOf s l
  let s := if was ∧ !d.members.isEmpty ∧ !d.coord then
      emit (.ut (d.members.foldl min 0x3FFF) { msg := 5, fromDev := s.dr.devid, subject := d.gid, epoch := d.epoch, body := [1] }) s
    else wh was (tellDrained l) s
  resumeDrained l s

/-- An operation's scrub ended: the receiver's commit, or the founding of a lode (R46 step 7, R50 step 6, R54). -/
def scrubbedOp (n : Nat) (s : State) : State :=
  match getOp s n with
  | none => s
  | some o =>
    match o.kind with
    | .blockMove =>
      let keep := o.blocks.filter fun b => (blockOf s b).state = 4
      let s := each keep (fun b => modBlock b fun x => { x with state := 5 }) s
      commit o.receiver (.attach n keep none) (modOp n (fun o => { o with step := 7 }) s)
    | .channelMove => commit o.receiver (.attachSet n (o.sets.headD 0)) (modOp n (fun o => { o with step := 6 }) s)
    | .create =>
      let l := o.slot
      let s := modLode l (fun d => { d with state := 2, epoch := 1 }) s
      let s := each (o.blocks.filter fun b => (blockOf s b).state = 4) (fun b => joinBlock l b none) s
      let s := each (o.sets.filter fun m => (setOf s m).state = 4) (fun m s => if o.via.isSome then foundSet l m s else (joinSet l m s).2) s
      let s := each o.added.zipIdx (fun cp => setCredit l cp.2 cp.1) s
      let s := modLm (fun m => { m with ops := m.ops.filter fun p => p.num ≠ n }) s
      answerOpt o.via 0 (enc [(4, (lodeOf s l).gid), (1, l)]) s
    | .release => freeLeft o s
    | _ => s

end Sys2Proof.Machine
end

