-- ==== Sys2Proof/Machine/Mesh.lean ====
section
/-! DEFINITION. The networks of the chip: the grid of block routers and its links, where agents attach, dimension-order routing (R269 to R273), and
how Drift traffic crosses rings and mesh (R274 to R276). A router is named by its block's number. -/
namespace Sys2Proof.Machine
open Sys2Proof

/-! ### The grid (R269, R270) -/

/-- Column and row of a block's router. -/
def routerCol (b : Nat) : Nat := 4 * (b / 12 % 4) + b % 12 % 4
def routerRow (b : Nat) : Nat := 3 * (b / 48) + b % 12 / 4

/-- The router at a column and row. -/
def routerAt (x y : Nat) : Nat := 12 * (4 * (y / 3) + x / 4) + 4 * (y % 3) + x % 4

/-- Hops between two routers along rows and columns. -/
def hopsBetween (a b : Nat) : Nat :=
  (routerCol a - routerCol b) + (routerCol b - routerCol a) + (routerRow a - routerRow b) + (routerRow b - routerRow a)

/-- The kinds of links of the grid. -/
inductive Link where
  | mesh
  | bridge
  | blockPort
  | memPort
  | headBridge
deriving DecidableEq, Repr

/-- The width of a link in bits. -/
def Link.width : Link → Nat
  | .mesh | .blockPort => 1024
  | .bridge | .memPort | .headBridge => 2048

/-- The rate of a link in each direction, in units of 0.1 GB/s; a block port's is that of its payload. -/
def Link.rate : Link → Nat
  | .mesh => 2048
  | .blockPort => 1800
  | .bridge | .memPort | .headBridge => 4096

/-- The link that joins two routers: a mesh link inside a region, a bridge link across a die boundary. -/
def linkBetween (a b : Nat) : Option Link :=
  if hopsBetween a b ≠ 1 then none else if a / 12 = b / 12 then some .mesh else some .bridge

/-! ### Where agents attach (R271, R275) -/

/-- The router whose memory port takes the requests for a pseudo-channel: local router `l mod 12` of its region. -/
def pcRouter (p : Nat) : Nat := 12 * (p / 96) + p % 96 % 12

/-- The router of a region DMA engine, numbered over the chip: local router `4 + e`. -/
def engineRouter (n : Nat) : Nat := 12 * (n / 4) + 4 + n % 4

/-- The router at which a region's sync hub joins the sync network: local router 5. -/
def hubRouter (r : Nat) : Nat := 12 * r + 5

/-- The router of the headframe's bridge: local router 3 of region 1. -/
def headRouter : Nat := 15

/-- The local routers of a ring's mesh stops, which are those of the Drift ports of a region that spreads them. -/
def meshStops : List Nat := [0, 3, 8, 11]

/-- The router of a Drift port in a region that spreads its ports. -/
def driftRouter (q : Nat) : Nat := 12 * (q / 4) + meshStops.getD (q % 4) 0

/-! ### Dimension-order routing (R272) -/

/-- The next router on the way: along the row first, then along the column. -/
def nextHop (a b : Nat) : Nat :=
  let (x, y) := (routerCol a, routerRow a)
  if x < routerCol b then routerAt (x + 1) y
  else if routerCol b < x then routerAt (x - 1) y
  else if y < routerRow b then routerAt x (y + 1)
  else if routerRow b < y then routerAt x (y - 1)
  else a

/-- The routers of a packet's way, ends included, for at most `n` hops. -/
def meshSteps : Nat → Nat → Nat → List Nat
  | 0, a, _ => [a]
  | n + 1, a, b => if a = b then [a] else a :: meshSteps n (nextHop a b) b

/-- The routers of a packet's way: no way in a grid of 16 by 6 has more than 20 hops. -/
def meshPath (a b : Nat) : List Nat := meshSteps 20 a b

/-- The virtual channels of the data mesh. -/
inductive MeshVc where
  | request
  | response
  | reduction
deriving DecidableEq, Repr

def MeshVc.num : MeshVc → Nat
  | .request => 0
  | .response => 1
  | .reduction => 2

/-! ### Rings (R274, R276). The attachment in use is that of the image applied at start-up -/

/-- Whether a region uses its I/O ring. -/
def ringMode (s : State) (r : Nat) : Bool := decide (r < 8) && !s.img.applied.attach.testBit r

/-- Whether two regions are adjacent. -/
def regionsMeet (r q : Nat) : Bool :=
  (decide (r / 4 = q / 4) && (decide (r + 1 = q) || decide (q + 1 = r))) || decide (r + 4 = q) || decide (q + 4 = r)

/-- The regions whose rings a list of ring regions reaches within `n` ring bridges. -/
def ringGrow (s : State) : Nat → List Nat → List Nat
  | 0, rs => rs
  | n + 1, rs => ringGrow s n ((List.range 8).filter fun q => rs.contains q || (ringMode s q && rs.any (regionsMeet q)))

/-- The regions whose rings a region's ring reaches, its own included; none for a region without a ring. -/
def ringSet (s : State) (r : Nat) : List Nat := if ringMode s r then ringGrow s 7 [r] else []

/-- The mesh stops of some regions' rings. -/
def stopsOf (rs : List Nat) : List Nat := rs.flatMap fun r => meshStops.map fun i => 12 * r + i

/-- The routers at which traffic of a Drift port meets the mesh. -/
def portRouters (s : State) (q : Nat) : List Nat := if ringMode s (q / 4) then stopsOf (ringSet s (q / 4)) else [driftRouter q]

/-- Whether the way from `a` to `b` is to be taken before another: fewer hops, then the lower local router (R274), then the lower region. -/
def wayBefore (a b : Nat × Nat) : Bool :=
  let key (p : Nat × Nat) : Nat := ((hopsBetween p.1 p.2 * 12 + p.1 % 12) * 8 + p.1 / 12) * 96 + p.2
  decide (key a < key b)

/-- The nearest pair of two lists of routers. -/
def nearestWay (as bs : List Nat) : Nat × Nat :=
  match as.flatMap fun a => bs.map fun b => (a, b) with
  | [] => (0, 0)
  | p :: t => t.foldl (fun m x => if wayBefore x m then x else m) p

/-- Where traffic goes. -/
inductive Dest where
  | block (b : Nat)
  | pc (p : Nat)
  | port (q : Nat)
  | head
deriving DecidableEq, Repr

/-- The routers at which a destination is reached. -/
def destRouters (s : State) (d : Dest) : List Nat :=
  match d with
  | .block b => [b]
  | .pc p => [pcRouter p]
  | .port q => portRouters s q
  | .head => [headRouter]

/-- The region of a destination that a ring serves: HBM and Drift ports. -/
def ringDest (d : Dest) : Option Nat :=
  match d with
  | .pc p => some (p / 96)
  | .port q => some (q / 4)
  | _ => none

/-- The way of traffic that came in on a Drift port: the ring regions it enters and leaves, if it uses rings, and its routers in the mesh. -/
def driftWay (s : State) (q : Nat) (d : Dest) : Option (Nat × Nat) × List Nat :=
  let r := q / 4
  match (ringDest d).filter (ringSet s r).contains with
  | some t => (some (r, t), [])
  | none =>
    let w := nearestWay (portRouters s q) (destRouters s d)
    (if ringMode s r then some (r, w.1 / 12) else none, meshPath w.1 w.2)

/-- The way of a master's request to a pseudo-channel; a region DMA engine reaches its own region's HBM without the mesh. -/
def requestWay (s : State) (m p : Nat) : Option (Nat × Nat) × List Nat :=
  if m < 96 then (none, meshPath m (pcRouter p))
  else if m < 128 then (none, if (m - 96) / 4 = p / 96 then [] else meshPath (engineRouter (m - 96)) (pcRouter p))
  else if m < 160 then driftWay s (m - 128) (.pc p)
  else (none, meshPath headRouter (pcRouter p))

/-- The way of the response: the ring it came by, or dimension order back from the memory port. -/
def responseWay (s : State) (m p : Nat) : Option (Nat × Nat) × List Nat :=
  let w := requestWay s m p
  match w.2.head? with
  | some a => (w.1, meshPath (pcRouter p) a)
  | none => w

/-- Reports the way of a request or a response of a master. -/
def sendWay (m id : Nat) (vc : MeshVc) (w : Option (Nat × Nat) × List Nat) (s : State) : State := emit (.way m id vc.num w.1 w.2) s

/-! ### Token buckets (R289, R290, R296) -/

/-- The key of a lode bucket. -/
def lodeBucket (m l : Nat) : Nat := m * 128 + l

/-- Whether the bucket that a lode draws from at a master covers a cost. -/
def bucketHas (s : State) (m l n : Nat) : Bool :=
  let k := lodeBucket m l
  decide (n ≤ if tget 0 s.noc.buckets k ≠ 0 then tget 0 s.noc.bucketTok k else (masterOf s m).tokens)

/-- Takes a cost from that bucket. -/
def bucketTake (m l n : Nat) (s : State) : State :=
  let k := lodeBucket m l
  if tget 0 s.noc.buckets k ≠ 0 then modNoc (fun x => { x with bucketTok := tset 0 x.bucketTok k (tget 0 x.bucketTok k - n) }) s
  else modMaster m (fun x => { x with tokens := x.tokens - n }) s

/-- The class that a tag stands for: a class of `KIND` 0 counts as class 0 (R293). -/
def tagClass (s : State) (c : Nat) : Nat := if (tget {} s.img.applied.classes c).kind = 0 then 0 else c

/-- Counts bytes served for a master and a class, conforming or excess (R298). -/
def countBytes (m c n : Nat) (conf : Bool) (s : State) : State :=
  let t := tget (0, 0) s.noc.served c
  modMaster m (fun x => if conf then { x with conform := x.conform + n } else { x with excess := x.excess + n })
    (modNoc (fun x => { x with served := tset (0, 0) x.served c (if conf then (t.1 + n, t.2) else (t.1, t.2 + n)) }) s)

/-- A request of a lode at a master: conforming, its cost taken, or excess. -/
def payReq (m l cls n : Nat) (s : State) : State :=
  let conf := bucketHas s m l n
  countBytes m (tagClass s cls) n conf (if conf then bucketTake m l n s else s)

/-- Whether a request waits at its master: a sealed-share lode issues no excess request. A cost beyond the bucket's depth waits for a full
bucket (log 79). -/
def sealedWaits (s : State) (m l n : Nat) : Bool := (lodeOf s l).sealed && !bucketHas s m l (min n ((masterOf s m).depthL * 1024))

/-- A register access, a doorbell or mailbox traffic of the host travels as a request of the headframe master with class 0 (R273). -/
def headAccess (n : Nat) (s : State) : State := payReq 160 0x7F 0 n s

end Sys2Proof.Machine
end

