-- ==== Sys2Proof/Machine/MeFields.lean ====
section
/-! DEFINITION. The fields of matrix-engine commands and the ranges they name (R100, R102 to R115), what an abandoned command leaves
(R118, R121), and the deliveries of REDUCE_SEND (R115, R116, R286, R287). -/
namespace Sys2Proof.Machine
open Sys2Proof

/-! ### Command fields (R100, R102 to R115) -/

def cOp (b : Nat) : Nat := fld b 0 4
def cPost (b : Nat) : Bool := b.testBit 63
def cSem (b : Nat) : Nat := fld b 46 17
/-- `ROWS` + 1 and `COLS` + 1 of MMA, ACC_READ, TRANSPOSE, ACC_LOAD and REDUCE_SEND. -/
def cRows (b : Nat) : Nat := fld b 35 7 + 1
def cCols (b : Nat) : Nat := fld b 28 7 + 1
/-- `ROWS` + 1 of LOAD and STORE. -/
def cRows2 (b : Nat) : Nat := fld b 38 7 + 1
/-- The K of an MMA (`KB`). -/
def cK (b : Nat) : Nat := 32 * (fld b 21 7 + 1)

/-- Bytes of `n` packed elements of a format. -/
def elemBytes (code n : Nat) : Nat := (n * fmtBits code + 7) / 8

/-- A range of rows that a command names, in bytes: its space (0 operand store, 1 block-local, 2 cluster memory only), start,
stride, rows, and row length. -/
structure Span where
  space  : Nat
  start  : Nat
  stride : Nat
  rows   : Nat
  len    : Nat
deriving DecidableEq, Repr

/-- Whether a range lies wholly inside its store or one populated block-local range, each row within its stride (R95, R91). The scratchpads
of all 32 logical cores count as populated, also that of an absent one; an operand-store line whose bits [127:124] are not 0 lies beyond the
store (log 25). -/
def Span.ok (r : Span) : Bool :=
  let last := r.start + (r.rows - 1) * r.stride + r.len
  (decide (r.rows ≤ 1) || decide (r.len ≤ r.stride)) &&
    match r.space with
    | 0 => decide (last ≤ 0x80000)
    | 1 => decide (last ≤ 0x400000) || (decide (0x400000 ≤ r.start) && decide (last ≤ 0x600000))
    | _ => decide (last ≤ 0x400000)

/-- Where row `i` of a range starts. -/
def Span.row (r : Span) (i : Nat) : Nat := r.start + i * r.stride

/-- Whether two ranges of one space share a byte. -/
def Span.meets (r t : Span) : Bool :=
  decide (r.space = t.space) && (List.range r.rows).any fun i => (List.range t.rows).any fun j =>
    decide (r.row i < t.row j + t.len) && decide (t.row j < r.row i + r.len)

/-- The chip physical address of a byte of a space of engine `e` of block `b`. -/
def spaceAddr (b e space off : Nat) : Nat := blockBase b + (if space = 0 then 0x800000 + e * 0x80000 else 0) + off

/-! LOAD (R102) -/

def loadSrc (c : Nat) : Span := ⟨1, fld c 111 17 * 64, fld c 96 15 * 64, cRows2 c, elemBytes (fld c 20 4) (fld c 24 14 + 1)⟩
def loadDst (c : Nat) : Span :=
  if c.testBit 45 then ⟨0, fld c 83 13 * 64, fld c 70 13 * 64, fld c 24 14 + 1, elemBytes (fld c 16 4) (cRows2 c)⟩
  else ⟨0, fld c 83 13 * 64, fld c 70 13 * 64, cRows2 c, elemBytes (fld c 16 4) (fld c 24 14 + 1)⟩

/-- The format pairs of R102. -/
def loadPair (sf df : Nat) : Bool :=
  decide (sf = df) || match sf with
    | 5 | 6 | 7 => decide (df = 3) || decide (df = 1) || decide (df = 2)
    | 3 | 4 => decide (df = 1) || decide (df = 2)
    | 1 | 2 => decide (df = 0)
    | 9 => decide (df = 8)
    | _ => false

def loadFits (c : Nat) : Bool :=
  let sf := fld c 20 4
  let df := fld c 16 4
  let n := fld c 24 14 + 1
  loadPair sf df && (!(decide (fmtBits sf < 8) || decide (fmtBits df < 8)) || decide (n % 32 = 0)) &&
    (!c.testBit 45 || (decide (8 ≤ fmtBits sf) && decide (8 ≤ fmtBits df) && decide (n ≤ 128)))

/-! MMA (R103, R107) -/

/-- What a format pair allows: whether the tile is INT32, whether `SPARSE`, whether `MX`, and the largest `KB` + 1. -/
def mmaPair (a b : Nat) : Option (Bool × Bool × Bool × Nat) :=
  if mxFmt a && mxFmt b then some (false, true, true, 128)
  else if (a = 8 ∨ a = 9) ∧ (b = 8 ∨ b = 9) then some (true, true, false, 128)
  else if (a = 2 ∧ b = 2) ∨ (a = 1 ∧ b = 1) then some (false, false, false, 32)
  else if a = 0 ∧ b = 0 then some (false, false, false, 16)
  else none

def mmaFits (c : Nat) : Bool :=
  match mmaPair (fld c 12 4) (fld c 8 4) with
  | some (_, sp, mx, kb) => (sp || !c.testBit 45) && (mx || !c.testBit 44) && decide (cK c ≤ 32 * kb)
  | none => false

/-- Stored values of a row of A: half of them when `SPARSE`. -/
def mmaAK (c : Nat) : Nat := if c.testBit 45 then cK c / 2 else cK c
def mmaA (c : Nat) : Span := ⟨0, fld c 115 13 * 64, fld c 102 13 * 64, cRows c, elemBytes (fld c 12 4) (mmaAK c)⟩
def mmaB (c : Nat) : Span := ⟨0, fld c 89 13 * 64, fld c 76 13 * 64, cCols c, elemBytes (fld c 8 4) (cK c)⟩
def mmaAS (c : Nat) : Span := ⟨0, fld c 179 13 * 64, fld c 169 10 * 16, cRows c, cK c / 32⟩
def mmaBS (c : Nat) : Span := ⟨0, fld c 156 13 * 64, fld c 146 10 * 16, cCols c, cK c / 32⟩
def mmaMeta (c : Nat) : Span := ⟨0, fld c 243 13 * 64, fld c 233 10 * 16, cRows c, cK c / 8⟩

/-! ACC_READ (R108 to R111, R620) -/

def arTrans (c : Nat) : Bool := c.testBit 44
def arFmt (c : Nat) : Nat := fld c 20 4
def arRows (c : Nat) : Nat := if arTrans c then cCols c else cRows c
def arLen (c : Nat) : Nat := if arTrans c then cRows c else cCols c
/-- Bytes of a written row: up to the end of its last line for 4-bit and 6-bit formats. -/
def arRowBytes (c : Nat) : Nat :=
  if fmtBits (arFmt c) < 8 then alignUp (elemBytes (arFmt c) (arLen c)) 64 else elemBytes (arFmt c) (arLen c)
def arDst (c : Nat) : Span := ⟨if c.testBit 43 then 0 else 1, fld c 111 17 * 64, fld c 96 15 * 64, arRows c, arRowBytes c⟩
def arVec (c mode line : Nat) : List Span :=
  if mode = 2 then [⟨0, line * 64, 0, 1, 4 * cRows c⟩] else if mode = 3 then [⟨0, line * 64, 0, 1, 4 * cCols c⟩] else []
def arScales (c : Nat) : List Span := if c.testBit 17 then [⟨1, fld c 239 17 * 64, 0, 1, arRows c * (arLen c / 32)⟩] else []

def arFits (c : Nat) : Bool :=
  let f := arFmt c
  decide (f ≠ 11) && (!c.testBit 17 || (mxFmt f && decide (arLen c % 32 = 0))) && (decide (8 ≤ fmtBits f) || decide (arLen c % 32 = 0))

/-! STORE, TRANSPOSE, ACC_LOAD, REDUCE_SEND (R112 to R115) -/

def storeSrc (c : Nat) : Span := ⟨0, fld c 83 13 * 64, fld c 70 13 * 64, cRows2 c, (fld c 31 7 + 1) * 64⟩
def storeDst (c : Nat) : Span := ⟨1, fld c 111 17 * 64, fld c 96 15 * 64, cRows2 c, (fld c 31 7 + 1) * 64⟩
def trWidth (c : Nat) : Nat := 2 ^ fld c 44 2
def trSrc (c : Nat) : Span := ⟨0, fld c 83 13 * 64, fld c 70 13 * 64, cRows c, cCols c * trWidth c⟩
def trDst (c : Nat) : Span := ⟨0, fld c 115 13 * 64, fld c 102 13 * 64, cCols c, cRows c * trWidth c⟩
/-- Bytes of an element of `EFMT`: 0 FP32, 1 BF16, 2 INT32. -/
def efBytes (f : Nat) : Nat := if f = 1 then 2 else 4
def alSrc (c : Nat) : Span := ⟨if c.testBit 43 then 0 else 1, fld c 111 17 * 64, fld c 96 15 * 64, cRows c, cCols c * efBytes (fld c 24 2)⟩
def rsLen (c : Nat) : Nat := cCols c * efBytes (fld c 24 2)
def rsStage (c : Nat) : Span := ⟨2, fld c 111 17 * 64, 0, 1, 64 + cRows c * alignUp (rsLen c) 64⟩
def rsDst (c : Nat) : Span := ⟨1, fld c 87 17 * 64, fld c 72 15 * 64, cRows c, rsLen c⟩

/-! ### Abandoned commands -/

/-- Fills a range of memory with free values. -/
def scramble (a n : Nat) (s : State) : State :=
  let bs := (List.range n).map fun i => BitVec.ofNat 8 (Config.freeNat (s.free + i))
  (settle { s with free := s.free + n } (wrPhys a bs { s with free := s.free + n })).2

def tileOf (g : Engine) (t : Nat) : Tile := if t = 0 then g.tile0 else g.tile1
def setTile (t : Nat) (v : Tile) (g : Engine) : Engine := if t = 0 then { g with tile0 := v } else { g with tile1 := v }

/-- Fills the corner of a tile with free values. -/
def scrambleTile (b e t rows cols : Nat) (s : State) : State :=
  let old := (tileOf (engineOf s b e) t).cells
  let cells := (List.range rows).foldl (fun c i => (List.range cols).foldl (fun c j =>
    tset 0 c (i * 128 + j) (BitVec.ofNat 32 (Config.freeNat (s.free + i * 128 + j)))) c) old
  modEngine b e (fun g => setTile t { tileOf g t with cells := cells } g) { s with free := s.free + 16384 }

/-- The destinations of an abandoned command become undefined (R118, R121): of an MMA the corner it updates, or the whole tile that `ZERO`
clears. -/
def scrambleDst (b e c : Nat) (s : State) : State :=
  let spans (rs : List Span) (s : State) : State :=
    each rs (fun r => each (List.range r.rows) fun i => scramble (spaceAddr b e r.space (r.row i)) r.len) s
  let whole (s : State) : State := scrambleTile b e (fld c 42 1) 128 128 s
  match cOp c with
  | 1 => spans [loadDst c] s
  | 2 => if c.testBit 43 then whole s else scrambleTile b e (fld c 42 1) (cRows c) (cCols c) s
  | 3 => spans (arDst c :: arScales c) (if c.testBit 45 then whole s else s)
  | 4 => spans [storeDst c] s
  | 5 => spans [trDst c] s
  | 6 => spans [rsStage c] (if c.testBit 45 then whole s else s)
  | _ => whole s

/-! ### Deliveries (R115, R116, R286) -/

/-- 64-byte lines of a row in the staging area. -/
def rsPerRow (c : Nat) : Nat := alignUp (rsLen c) 64 / 64
/-- Lines of a delivery. -/
def rsLines (c : Nat) : Nat := cRows c * rsPerRow c

/-- Changes a delivery. -/
def modDeliv (id : Nat) (f : Delivery → Delivery) (s : State) : State :=
  modCu (fun k => { k with deliv := k.deliv.map fun d => if d.id = id then f d else d }) s

/-- Sends a line of a delivery from the staging area into the mesh. A line that differs from what the engine staged was written
meanwhile: its contents are undefined (R116). A line that cannot be read fails. -/
def sendLine (alone : Bool) (line id : Nat) (s : State) : State :=
  match s.cu.deliv.find? fun d => d.id = id with
  | none => s
  | some d =>
    let c := d.bits
    let row := line / rsPerRow c
    let i := line % rsPerRow c
    let n := min 64 (rsLen c - 64 * i)
    match rdPhys s (blockBase d.block + fld c 111 17 * 64 + 64 + 64 * line) n with
    | .error e => modDeliv id (fun d => { d with failed := d.failed ++ [(line, e)] }) s
    | .ok bs =>
      let (data, s) := if bs = slice d.staged (64 + 64 * line) n then (bs, s)
        else ((List.range n).map fun i => BitVec.ofNat 8 (Config.freeNat (s.free + i)), { s with free := s.free + n })
      let p : RedPkt := {
        lode := d.lode, etag := epochTag s d.lode, dblock := d.dblock, dline := fld c 87 17 + row * fld c 72 15 + i
        rop := fld c 26 2, efmt := fld c 24 2, contribs := [(id, line)], data := data, alone := alone }
      emit (.reduction d.block (some d.block) p) (payReq d.block d.lode 0 64 <| modDeliv id (fun d => { d with lines := d.lines ++ [line] }) s)

/-- The rows of a delivery that have failed, each with its first error. -/
def failedRows (d : Delivery) : List (Nat × Nat) :=
  d.failed.foldl (fun rs f => if rs.any (fun r => r.1 = f.1 / rsPerRow d.bits) then rs else rs ++ [(f.1 / rsPerRow d.bits, f.2)]) []

/-- The bytes of the failed rows at the destination become undefined (R116), where the destination still belongs to the lode. -/
def loseRows (d : Delivery) (s : State) : State :=
  if (blockOf s d.dblock).lode ≠ d.lode then s
  else each (failedRows d) (fun r => scramble (spaceAddr d.dblock 0 1 ((rsDst d.bits).row r.1)) (rsLen d.bits)) s

end Sys2Proof.Machine
end

