-- ==== Sys2Proof/Machine/Access.lean ====
section
/-! DEFINITION. Who may write a register, and what becomes of a write that is turned away (R601 to R609). -/
namespace Sys2Proof.Machine
open Sys2Proof

/-- Whether the image unlocks expert function `f` (R78): 0 HF, 1 LM, 2 ME, 3 GC, 4 MEM, 5 XL, 6 NOC, 7 REG, 8 DR, 9 UT,
10 SCH, 11 TAL, 12 SEC, 13 PWR, 14 LAMP, 15 RAS, 16 CAN, 17 EVR. -/
def unlocked (s : State) (f : Nat) : Bool := s.img.applied.expert.testBit f

/-- Records a discarded host write in the port's `HF_WRITE_ERR` (R607, R618). Other writers leave no record. -/
def discard (who : Writer) (off reason : Nat) (s : State) : State :=
  match who with
  | .host p => modHport p (fun h => { h with errOff := off, errReason := reason, errCount := min 0xFF (h.errCount + 1) }) s
  | _ => s

/-- Whether a write comes from the host. -/
def isHost (who : Writer) : Bool :=
  match who with
  | .host _ => true
  | _ => false

/-- Whether a write comes from a core: cores reach only R164's registers. -/
def isCore (who : Writer) : Bool :=
  match who with
  | .core _ _ => true
  | _ => false

/-! ### Commands that wake the chip (R499, R501, R503) -/

/-- A command that reaches the chip awake; otherwise it wakes the chip and is held until CHIP_WAKE performs it. -/
def wakeFirst (i : Instr) (f : State → State) (s : State) : State :=
  if asleep s then modPwr (fun p => { p with heldWake := p.heldWake ++ [i], wakeHeld := true }) s else f s

/-- The command of a packet's arrival, which wakes the chip (R501). -/
def packetCmd (i : Instr) (s : State) (k : State → State) : Host.Outcome State Fault Refusal := run s (wakeFirst i k)

/-- Whether chip start-up has reached ready (`HF_BOOT.STAGE` 7, R574). -/
def bootDone (s : State) : Bool := decide (s.chip.phase = 3)

/-- Whether a word of a lode's doorbell page is live on a port: the chip is ready, the slice is there, a generation is settled (R371,
R375, R574). -/
def pageLive (s : State) (p l : Nat) : Bool :=
  bootDone s && decide ((lodeOf s l).state ≠ 0) && (lodeOf s l).home && decide ((lodeOf s l).pasid ≠ 0) && decide ((lodeOf s l).port = p) &&
    decide ((hportOf s p).settled ≠ 0)

/-- Whether a port has a PCIe function that answers: ready, in recovery, or in start-up from step 4 on (R574, R576, R599), its link not
held down by `PERST#` (R594). -/
def funcPresent (s : State) (p : Nat) : Bool :=
  (hostPorts s).contains p && (decide (s.chip.phase = 3) || decide (s.chip.phase = 4) || (decide (s.chip.phase = 2) && decide (3 ≤ s.chip.stage))) &&
    !(decide (s.img.applied.hostMode = 1) && if p = 0 then s.chip.perst0 else s.chip.perst1)

/-! ### Writes -/

/-- Whether a writer reaches the registers: a host needs a function that answers. -/
def reaches (s : State) (who : Writer) : Bool :=
  match who with
  | .host p => funcPresent s p
  | .core _ _ => false
  | _ => true

/-- A writer's access reaches the registers: a host's is a request of the headframe master (R273). -/
def entered (who : Writer) (s : State) : State := if isHost who then headAccess 4 s else s

/-- A register write of function `f` at `off`: a core's is ignored (R164); before ready only the power and Lamp range takes a host's
(R574), which needs the function unlocked (R605); a value is turned away for the reason `bad`, 0 for none; otherwise it is done. The
reasons rank as in R607. -/
def regWrite (who : Writer) (f off bad : Nat) (k : State → State) (s : State) : State :=
  if !reaches s who then s else
  let s := entered who s
  if isHost who ∧ !bootDone s ∧ f ≠ 13 ∧ f ≠ 14 then s
  else if bad ≠ 0 ∧ bad < 5 then discard who off bad s
  else if isHost who ∧ !unlocked s f then discard who off 5 s
  else if bad ≠ 0 then discard who off bad s
  else k s

/-- The command `i` of a register write outside the power and Lamp range: a host's wakes the chip (R501). -/
def regCmd (i : Instr) (who : Writer) (f off bad : Nat) (s : State) (k : State → State) : Host.Outcome State Fault Refusal :=
  run s fun s => if isHost who then wakeFirst i (regWrite who f off bad k) s else regWrite who f off bad k s

/-- The command of a register write in the power and Lamp range, which wakes nothing (R520). -/
def powerCmd (who : Writer) (f off bad : Nat) (s : State) (k : State → State) : Host.Outcome State Fault Refusal :=
  run s (regWrite who f off bad k)

/-! ### Verbs that name a device (R241, R340) -/

/-- What a verb carried out answers: its status and result, and the state after it. -/
abbrev Reply := Nat × List Byte × State

/-- A verb turned down: nothing is changed. -/
def deny (err : Nat) (s : State) : Reply := (err, [], s)

/-- A verb done, without a result. -/
def done (s : State) : Reply := (0, [], s)

/-- Completes a verb with a reply. -/
def finish (via : Via) (r : Reply) : State := answer via r.1 r.2.1 r.2.2

/-- The number that a forwarded verb carries for its issuer, and back. -/
def viaNum (via : Via) : Nat :=
  match via with
  | .mailbox p n => p * 64 + n
  | .sideband => 256
  | .relay => 257
  | .member dev n => 512 + dev + n * 16384

def viaOf (n : Nat) : Via :=
  if 512 ≤ n then .member ((n - 512) % 16384) ((n - 512) / 16384)
  else if n = 256 then .sideband else if n = 257 then .relay else .mailbox (n / 64) (n % 64)

/-- A verb for a device: carried out here, forwarded to another member chip on virtual channel 6 (its reply completes the verb),
or turned down when the device is no member of the lode (R220, R241, R340). -/
def onDev (via : Via) (l dev code : Nat) (args : List Nat) (f : State → Reply) (s : State) : State :=
  if dev = s.dr.devid then finish via (f s)
  else if (lodeOf s l).members.contains dev then emit (.control dev 2 (code :: viaNum via :: args)) s
  else reject via Err.lodeUnknown s

/-- Whether a block belongs to a confidential lode (R606). -/
def confBlock (s : State) (b : Nat) : Bool := (lodeOf s (blockOf s b).lode).conf && decide ((blockOf s b).lode ≠ 0x7F)

end Sys2Proof.Machine
end

