-- ==== Sys2Proof/Machine/Xlate.lean ====
section
/-! DEFINITION. Address translation (chapter 8): the table walk, extents, the dirty log, faults; and fences (R405 to R407). -/
namespace Sys2Proof.Machine
open Sys2Proof

/-! ### Sealing of records (R385, R386) -/

/-- The key of a confidential lode: the material of its valid session slot (R480). -/
def sessionKey (s : State) (l : Nat) : Option Nat :=
  ((lodeOf s l).session.filter fun n =>
    let k := vslotOf s n
    k.valid && (vslotOf s k.parent).valid && decide (k.pgen = (vslotOf s k.parent).gen)).map fun n =>
      ((vslotOf s n).s1 ^^^ (vslotOf s n).s2).toNat

/-- Writes a record of a kind to host memory by `put`, sealed for a confidential lode with its tag in the tag ring (R386). -/
def sealPut (put : Nat → List Byte → State → State) (l kind ctr addr ring : Nat) (data : List Byte) (s : State) : State :=
  if (lodeOf s l).conf then
    let (c, t) := Config.gcmSeal ((sessionKey s l).getD 0) kind ctr [] data
    let s := put addr c s
    match tget none (queueOf s l).tagRings kind with
    | some a => hostWrite l (a + ctr % ring * 16) t s
    | none => s
  else put addr data s

/-- Writes a record of a kind to host memory. -/
def sealWrite (l kind ctr addr ring : Nat) (data : List Byte) (s : State) : State := sealPut (hostWrite l) l kind ctr addr ring data s

/-! ### Writes that are logged (R238, R239) -/

/-- Every page of a lode counts as dirty from now on (R239). -/
def setCoarse (l : Nat) (s : State) : State :=
  if !(xlLodeOf s l).dlOn ∨ (xlLodeOf s l).coarse then s else raiseLode l 2 (modXlLode l (fun x => { x with coarse := true }) s)

/-- Notes a write of a page: sets its bit in the bitmap, which lies in the table range, and, when the bit was clear, appends a ring entry
or sets `COARSE` (R238, R239). A bitmap line that cannot be read sets `COARSE` too (log 77). -/
def logPage (l cls page : Nat) (s : State) : State :=
  let x := xlLodeOf s l
  if !x.dlOn then s else
  let a := x.dlMap + page / 8
  match rdLode s l a 1 with
  | .error _ => setCoarse l s
  | .ok bs =>
    let b := bs.headD 0
    if b.toNat.testBit (page % 8) then s else
      let s := touchLode l a 1 cls true (settle s (wrLode l a [b ||| BitVec.ofNat 8 (2 ^ (page % 8))] s)).2
      if x.coarse then s
      else if (x.dlProd + 2 ^ 32 - x.dlCons) % 2 ^ 32 < 2 ^ 20 then
        let n := (queueOf s l).dlCount
        let s := sealPut (fun a d => hostPost l a false d (.dirtyEntry l)) l 3 n (x.dlAddr + x.dlProd % 2 ^ 20 * 4) (2 ^ 20) (le 4 page) s
        modXlLode l (fun x => { x with dlProd := (x.dlProd + 1) % 2 ^ 32 }) (modQueue l (fun q => { q with dlCount := n + 1 }) s)
      else setCoarse l s

/-- Notes every page of a range that was written. -/
def logWrite (l cls a n : Nat) (s : State) : State :=
  each ((List.range ((a + n - 1) / 65536 - a / 65536 + 1)).map fun i => a / 65536 + i) (logPage l cls) s

/-- A write of lode memory that is not firmware traffic: written, cached and logged (R197, R238). -/
def storeLode (l a cls : Nat) (bs : List Byte) (s : State) : Except Nat State :=
  if bs.isEmpty then .ok s else
  (wrLode l a bs (touchLode l a bs.length cls true s)).map (logWrite l cls a bs.length)

/-! ### The walk (R215 to R218) -/

/-- Whether a range of lode memory overlaps the lode's table range (R219). -/
def inTables (s : State) (l a n : Nat) : Bool :=
  let x := xlLodeOf s l
  decide (a < (x.tblBase + x.tblCnt) * 2 ^ 28) && decide (x.tblBase * 2 ^ 28 < a + n)

/-- Whether a range of lode memory lies in the table range. -/
def insideTables (s : State) (l a n : Nat) : Bool :=
  let x := xlLodeOf s l
  decide (x.tblBase * 2 ^ 28 ≤ a) && decide (a + n ≤ (x.tblBase + x.tblCnt) * 2 ^ 28)

/-- Why a walk stops: a reason of R232 and the level. Two reasons are the model's own: 5 is a line of a table that cannot be read (R204),
16 a resource that needs more than 16 extents (R225). -/
abbrev Stop := Nat × Nat

/-- The table entry at a lode memory address. -/
def entryAt (s : State) (l a level : Nat) : Except Stop Nat :=
  match rdLode s l a 8 with
  | .ok b => .ok (unle b)
  | .error e => .error (if e = Err.xlGranule then 3 else 5, level)

/-- The `ADDR` of an entry as a lode memory address (R216). -/
def entryAddr (e : Nat) : Nat := fld e 16 25 * 65536

/-- Bytes that an entry of a level covers. -/
def leafSize (level : Nat) : Nat := if level = 0 then 2 ^ 42 else if level = 1 then 2 ^ 29 else 2 ^ 16

/-- The leaf an entry of a level gives, or the fault of R217. -/
def leafOf (s : State) (l c level e va : Nat) : Except Stop TlbEntry :=
  let a := entryAddr e
  if (level = 0 ∧ a ≠ 0) ∨ (level = 1 ∧ a % 2 ^ 29 ≠ 0) ∨ (level ≠ 0 ∧ inTables s l a (leafSize level)) then .error (2, level)
  else .ok { ctx := c, level := level, page := va / leafSize level, laddr := a, r := e.testBit 3, w := e.testBit 4, a := e.testBit 5 }

/-- The address of the entry for a DVA in a table of a level. -/
def entrySlot (tbl level va : Nat) : Nat := tbl + va / leafSize level % 8192 * 8

/-- A walk with tables of `left` levels to go, from a table that must lie in the table range (R215, R217, R220). -/
def walkFrom (s : State) (c va : Nat) : Nat → Nat → Except Stop TlbEntry
  | 0, _ => .error (2, 2)
  | left + 1, tbl =>
    let l := (xlCtxOf s c).lode
    let level := 2 - left
    if !insideTables s l tbl 65536 then .error (2, level - 1)
    else (entryAt s l (entrySlot tbl level va) level).bind fun e =>
      if !e.testBit 0 then .error (0, level)
      else if e.testBit 1 then leafOf s l c level e va
      else walkFrom s c va left (entryAddr e)

/-- The entries that such a walk reads: level, address and contents. -/
def walkReads (s : State) (c va : Nat) : Nat → Nat → List (Nat × Nat × Nat)
  | 0, _ => []
  | left + 1, tbl =>
    let l := (xlCtxOf s c).lode
    let level := 2 - left
    let a := entrySlot tbl level va
    if !insideTables s l tbl 65536 then [] else
    match entryAt s l a level with
    | .error _ => []
    | .ok e => (level, a, e) :: if e.testBit 0 && !e.testBit 1 then walkReads s c va left (entryAddr e) else []

/-- Where a walk of a context starts: its root table. -/
def rootOf (s : State) (c : Nat) : Nat × Nat := (3, (xlCtxOf s c).root * 65536)

/-- The walk of a context's tables as they stand. -/
def walk (s : State) (c va : Nat) : Except Stop TlbEntry := walkFrom s c va (rootOf s c).1 (rootOf s c).2

/-! ### The walkers' caches (R222, R227) -/

/-- The table that a walker's cache names for a DVA at a level. -/
def cachedTab (s : State) (w c level va : Nat) : Option Nat :=
  ((tget [] s.xl.walkers w).find? fun e => decide (e.ctx = c) && decide (e.level = level) && decide (e.idx = va / leafSize level)).map (·.next)

/-- Where walker `w` starts a walk: as deep as its cache leads. -/
def cachedStart (s : State) (w c va : Nat) : Nat × Nat :=
  match cachedTab s w c 1 va, cachedTab s w c 0 va with
  | some t, _ => (1, t)
  | none, some t => (2, t)
  | none, none => rootOf s c

/-- Where a walk starts. Until an invalidation completes, a walk takes the old value or the new one, and which is undefined: bit
`page of the DVA` of the free value `v` says (R222). -/
def walkStart (s : State) (w v c va : Nat) : Nat × Nat :=
  let p := cachedStart s w c va
  let old := walkFrom s c va p.1 p.2
  let new := walk s c va
  if v.testBit (va / 65536) ∧ old.toOption ≠ new.toOption then rootOf s c else p

/-- A walk by walker `w`. -/
def walkAs (s : State) (w v c va : Nat) : Except Stop TlbEntry :=
  let p := walkStart s w v c va
  walkFrom s c va p.1 p.2

/-- Entries of a walker's cache: 256 of a block's, 1,024 of the headframe's, which is number 96 (R227). -/
def walkerSize (w : Nat) : Nat := if w = 96 then 1024 else 256

/-- What a walk leaves: the table lines it read are cached under the class of the access, the granules in the master's cache, and its
non-leaf entries in the walker's (R195, R197, R227). -/
def noteWalk (w cls v c va : Nat) (s : State) : State :=
  let p := walkStart s w v c va
  let l := (xlCtxOf s c).lode
  each (walkReads s c va p.1 p.2) (fun r s =>
    let s := touchLode l r.2.1 8 cls false (resolveGrans (if w = 96 then 160 else w) l r.2.1 8 s)
    let idx := va / leafSize r.1
    if r.2.2.testBit 0 && !r.2.2.testBit 1 && decide (r.1 < 2) && insideTables s l (entryAddr r.2.2) 65536 then
      modXl (fun x => { x with walkers := tset [] x.walkers w (({ ctx := c, level := r.1, idx := idx, next := entryAddr r.2.2 } ::
        (tget [] x.walkers w).filter fun e => !(decide (e.ctx = c) && decide (e.level = r.1) && decide (e.idx = idx))).take (walkerSize w)) }) s
    else s) s

/-- Whether a leaf grants an access (R223): 0 read, 1 write, 2 atomic, 3 fetch, 4 updated at the memory side. -/
def grants (e : TlbEntry) (access : Nat) : Bool :=
  match access with
  | 0 => e.r | 1 => e.w | 2 => e.r && e.w && e.a | 3 => e.r | _ => e.w && e.a

/-- Uses a leaf: rights, the upper half of a level-0 leaf, the table range (R218, R223, R217). -/
def useLeaf (s : State) (e : TlbEntry) (va access n : Nat) : Except Stop Nat :=
  if !grants e access then .error (1, e.level)
  else
    let a := e.laddr + va % leafSize e.level
    if e.level = 0 ∧ 2 ^ 41 ≤ va % 2 ^ 42 then .error (4, 0)
    else if e.level = 0 ∧ inTables s (xlCtxOf s e.ctx).lode a n then .error (2, 0)
    else .ok a

/-- Appends a piece to a list of extents in reverse order, joining pieces that follow on while the 40 bits of `LEN` hold the sum
(R225). -/
def joinExtent (a n : Nat) : List (Nat × Nat) → List (Nat × Nat)
  | (a', n') :: t => if a' + n' = a ∧ n' + n < 2 ^ 40 then (a', n' + n) :: t else (a, n) :: (a', n') :: t
  | [] => [(a, n)]

/-- How a page is looked up: the leaf, or why there is none. -/
abbrev Look := Nat → Except Stop TlbEntry

/-- The first address of a piece that lies in the table range, as an offset: there an access through a level-0 leaf faults. -/
def tablesFrom (s : State) (e : TlbEntry) (va : Nat) : Nat := (xlLodeOf s (xlCtxOf s e.ctx).lode).tblBase * 2 ^ 28 - (e.laddr + va % leafSize e.level)

/-- Looks a range up leaf by leaf: the DVAs looked up, in reverse order, and the extents or the error with its DVA. -/
def extentsGo (s : State) (look : Look) (access : Nat) : Nat → Nat → Nat → List Nat → List (Nat × Nat) → List Nat × Except (Stop × Nat) (List (Nat × Nat))
  | 0, _, _, seen, acc => (seen, .ok acc.reverse)
  | _ + 1, _, 0, seen, acc => (seen, .ok acc.reverse)
  | fuel + 1, va, n + 1, seen, acc =>
    match look va with
    | .error e => (va :: seen, .error (e, va))
    | .ok leaf =>
      let k0 := min (n + 1) (leafSize leaf.level - va % leafSize leaf.level)
      let k := if leaf.level = 0 ∧ va % 2 ^ 42 < 2 ^ 41 then min (2 ^ 40 - 2 ^ 16) (min k0 (2 ^ 41 - va % 2 ^ 42)) else k0
      match useLeaf s leaf va access k with
      | .error e => (va :: seen, .error (e, if e.1 = 2 then va + tablesFrom s leaf va else va))
      | .ok a => extentsGo s look access fuel (va + k) (n + 1 - k) (va :: seen) (joinExtent a k acc)

/-- The extents of a resource (R225). -/
def extents (s : State) (look : Look) (va len access : Nat) : Except (Stop × Nat) (List (Nat × Nat)) :=
  (extentsGo s look access (len / 65536 + 2) va len [] []).2

/-- Notes every walk that finding a resource's extents took. -/
def noteWalks (w cls v c va len access : Nat) (s : State) : State :=
  each (extentsGo s (walkAs s w v c) access (len / 65536 + 2) va len [] []).1.reverse (noteWalk w cls v c) s

/-- The error code of a fault that is not resumable (R234), and of one answered with action 2 (R233). -/
def stopCode (reason : Nat) : Nat :=
  match reason with
  | 2 => Err.xlTable | 3 => Err.xlGranule | 5 => Err.memPoisoned | 16 => Err.extentLimit | _ => Err.xlFault

/-- Whether a fault can be resumed (R233). -/
def resumable (reason : Nat) : Bool := decide (reason ≤ 1)

/-- The part of an extent list from byte `off` on, of at most `n` bytes. -/
def cutExtents : List (Nat × Nat) → Nat → Nat → List (Nat × Nat)
  | [], _, _ => []
  | (a, k) :: t, off, n =>
    if k ≤ off then cutExtents t (off - k) n
    else if n = 0 then []
    else (a + off, min (k - off) n) :: cutExtents t 0 (n - min (k - off) n)

/-- Reads a range given by extents. -/
def rdExtents (s : State) (l : Nat) (xs : List (Nat × Nat)) : Except Nat (List Byte) :=
  xs.foldl (fun r x => r.bind fun acc => (rdLode s l x.1 x.2).map fun b => acc ++ b) (.ok [])

/-- Writes bytes over a range given by extents. -/
def wrExtents (l cls : Nat) : List (Nat × Nat) → List Byte → State → Except Nat State
  | [], _, s => .ok s
  | (a, k) :: t, bs, s => (storeLode l a cls (bs.take k) s).bind fun s => wrExtents l cls t (bs.drop k) s

/-! ### Fences (R405 to R407, R426) -/

/-- Writes part of a fence: firmware's release of a command's writes (R406). -/
def fencePut (l a off n v : Nat) (s : State) : State := (settle s (storeLode l (a + off) 0 (le n v) s)).2

/-- Signals normally: `VALUE` alone (R407). -/
def fenceOk (l a v : Nat) (s : State) : State := if a = 0 then s else fencePut l a 0 8 v s

/-- The error word of a fence, bits [127:64] (R405). -/
def errorWord (code : Nat) (rec notice part inherited : Bool) (seq : Nat) : Nat :=
  code + (if rec then 2 ^ 16 else 0) + (if notice then 2 ^ 17 else 0) + (if part then 2 ^ 18 else 0) +
    (if inherited then 2 ^ 19 else 0) + seq % 2 ^ 32 * 2 ^ 32

/-- Signals with an error: the error word alone (R407). -/
def fenceErr (l a w : Nat) (s : State) : State := if a = 0 then s else fencePut l a 8 8 w s

/-- Signals with a notice: value and error word (R407). -/
def fenceNotice (l a v w : Nat) (s : State) : State := if a = 0 then s else fencePut l a 0 16 (v + w * 2 ^ 64) s

/-- Whether a verb's fence meets R426: 16-byte aligned, in a valid granule, outside the table range. -/
def fenceFits (s : State) (l : Nat) (f : VFence) : Bool :=
  decide (f.addr % 16 = 0) && (resolve s l f.addr).isSome && !inTables s l f.addr 16

/-- Signals a verb's fence normally. -/
def signalFence (l : Nat) (f : Option VFence) (s : State) : State :=
  match f with
  | some f => fencePut l f.addr 0 8 f.val s
  | none => s

/-! ### Faults (R232 to R237) -/

/-- Whether the fault ring is full (R235). -/
def fqFull (x : XlLode) : Bool := decide ((x.fqProd + 2 ^ 32 - x.fqCons) % 2 ^ 32 = 1024)

/-- Writes the overflow event of a period in which the ring is full and an agent stalls with its record held, once (R236). -/
def noteStall (l : Nat) (s : State) : State :=
  let x := xlLodeOf s l
  if fqFull x && !x.fqPeriod && x.faults.any fun f => resumable f.reason && !f.written then
    event 0x201 4 10 l Err.faultqOverflow 0 (some l) (modXlLode l (fun x => { x with fqPeriod := true }) s)
  else s

/-- Whether an agent that meets a resumable fault of a lode waits for a reply: there is a fault ring, or the home chip has it (R233, R237). -/
def faultWaits (s : State) (l : Nat) : Bool := (xlLodeOf s l).fqReady || !(lodeOf s l).home

/-- The agent's number and its block and core, as the record has them. -/
def agentBits (a : FaultAgent) : Nat × Nat × Nat :=
  match a with
  | .head _ _ => (0, 0, 0) | .coreAccess b c => (1, b, c) | .coreDma b c => (2, b, c) | .memctl _ => (3, 0, 0) | .member _ _ k b c => (k, b, c)

/-- Records a fault: it waits for its ring entry (R236); with no ring placed it counts as answered with action 2, its number used up and
an event written (R237). A member chip sends it to the home chip, which has the fault ring, and keeps a resumable one for the reply (log 78). -/
def newFault (l : Nat) (agent : FaultAgent) (reason level access ctx pos va pc : Nat) (s : State) : Nat × State :=
  let n := (xlLodeOf s l).fseq
  let f : FaultRec := { fseq := n, agent := agent, reason := reason, level := level, access := access, ctx := ctx, pos := pos, va := va, pc := pc }
  let add (f : FaultRec) (keep : Bool) : State → State :=
    modXlLode l fun x => { x with fseq := (n + 1) % 2 ^ 32, faults := if keep then x.faults ++ [f] else x.faults }
  if !(lodeOf s l).home then
    let (k, b, c) := agentBits agent
    (n, emit (.control (lodeOf s l).homeDev 17 [(lodeOf s l).gid, n, k, b, c, reason, level, access, pos, va, pc])
      (add { f with written := true } (resumable reason) s))
  else if (xlLodeOf s l).fqReady then (n, noteStall l (add f true s))
  else (n, event 0x202 3 10 l Err.xlFault n (some l) (add f false s))

/-- Records the fault that a walk stopped with. An invalid granule is found by the memory controller (R232); a line of a table that cannot
be read is no fault of translation. -/
def stopFault (l : Nat) (agent : FaultAgent) (stop : Stop) (access ctx pos va pc : Nat) (s : State) : Nat × State :=
  if stop.1 = 5 then (0, s)
  else if stop.1 = 3 then newFault l (.memctl l) 3 stop.2 access ctx pos va 0 s
  else newFault l agent stop.1 stop.2 access ctx pos va pc s

/-- The first byte of extents whose granule is not valid, as an offset. -/
def missAt (s : State) (l : Nat) : List (Nat × Nat) → Nat → Option Nat
  | [], _ => none
  | (a, n) :: t, off => match (segs a n).find? fun p => (resolve s l p.1).isNone with
    | some p => some (off + (p.1 - a))
    | none => missAt s l t (off + n)

/-- Records the fault of an access that met a granule entry that is not valid (R31, R232): the first of the ranges, each a DVA, its extents
and its access, that has one. -/
def granFault (l ctx pos : Nat) (rs : List (Nat × List (Nat × Nat) × Nat)) (s : State) : State :=
  match rs.findSome? fun r => (missAt s l r.2.1 0).map fun o => (r.1 + o, r.2.2) with
  | some (va, access) => (newFault l (.memctl l) 3 0 access ctx pos va 0 s).2
  | none => s

/-- The 32-byte fault record of R232. -/
def faultBytes (s : State) (f : FaultRec) : List Byte :=
  let (ag, b, c) := agentBits f.agent
  let dev := match f.agent with
    | .member dev _ _ _ _ => dev
    | _ => if s.dr.assigned then s.dr.devid else 0xFFFF
  le 8 (f.va % 2 ^ 55) ++ le 4 f.pos ++
    le 4 (f.ctx % 4096 + (if f.access = 4 then 2 else f.access % 8) * 2 ^ 16 + f.reason * 2 ^ 20 + f.level * 2 ^ 24 + ag * 2 ^ 26 + (if resumable f.reason then 2 ^ 28 else 0)) ++
    le 2 (b + c * 256) ++ le 2 dev ++ le 4 f.fseq ++ le 8 f.pc

end Sys2Proof.Machine
end

