-- ==== Sys2Proof/Machine/Records.lean ====
section
/-! DEFINITION. Taken records: their fields, how they end (R405 to R418), how contexts take turns (R434 to R444) and how work
is cancelled (R419). -/
namespace Sys2Proof.Machine
open Sys2Proof

/-! ### Fields of a record (R398, R399) -/

def rOp (b : Nat) : Nat := fld b 0 8
def rEntries (b : Nat) : Nat := fld b 8 4 + 1
def rIrq (b : Nat) : Bool := b.testBit 12
def rCtx (b : Nat) : Nat := fld b 16 12
def rClass (b : Nat) : Nat := fld b 28 6
def rDlrel (b : Nat) : Nat := min 63487 (fld b 48 16)
def rSigVa (b : Nat) : Nat := fld b 64 64
def rSigVal (b : Nat) : Nat := fld b 128 64
def rW0Va (b : Nat) : Nat := fld b 192 64
def rW0Val (b : Nat) : Nat := fld b 256 64
def rW1Va (b : Nat) : Nat := fld b 320 64
def rW1Val (b : Nat) : Nat := fld b 384 64
def rArg0 (b : Nat) : Nat := fld b 448 64
/-- A field of the argument entries; bit 0 is bit 0 of entry 1. -/
def rArg (b lo w : Nat) : Nat := fld b (512 + lo) w

def rSrc (b : Nat) : Nat := rArg b 0 64
def rDst (b : Nat) : Nat := rArg b 64 64
def rLen (b : Nat) : Nat := rArg b 128 64
def rShost (b : Nat) : Bool := decide (rOp b ≠ 4) && decide (rArg b 261 1 = 1)
def rDhost (b : Nat) : Bool := decide (rArg b 262 1 = 1)

/-- The extents of resource `i`. -/
def resSpace (r : Rec) (i : Nat) : DmaSpace :=
  match r.res[i]? with
  | some (_, _, xs) => .lode xs
  | none => .nil

def recOf (s : State) (l pos : Nat) : Option Rec := (queueOf s l).recs.find? fun r => r.pos = pos
def modRec (l pos : Nat) (f : Rec → Rec) (s : State) : State :=
  modQueue l (fun q => { q with recs := q.recs.map fun r => if r.pos = pos then f r else r }) s

/-! ### Tally (R450) -/

def charge (c : Nat) (f : Tally → Tally) (s : State) : State := if (ctxOf s c).state = 0 then s else modCtx c (fun x => { x with tally := f x.tally }) s
def satAdd (w a n : Nat) : Nat := min (2 ^ w - 1) (a + n)
def chargeHbm (c n : Nat) : State → State := charge c fun t => { t with hbm := satAdd 64 t.hbm n }
def chargeHost (c n : Nat) : State → State := charge c fun t => { t with host := satAdd 64 t.host n }
def chargeDrift (c n : Nat) : State → State := charge c fun t => { t with drift := satAdd 64 t.drift n }

/-- Engine time, core time and energy since they were last charged: the model has no clock, so each is a free amount (R122, R176, R451). -/
def chargeMe (c : Nat) (s : State) : State := charge c (fun t => { t with meNs := satAdd 64 t.meNs (draw s).1 }) (draw s).2
def chargeGc (c : Nat) (s : State) : State := charge c (fun t => { t with gcNs := satAdd 64 t.gcNs (draw s).1 }) (draw s).2
def chargeEnergy (c : Nat) (s : State) : State := charge c (fun t => { t with energy := satAdd 64 t.energy (draw s).1 }) (draw s).2

/-! ### Completion (R411 to R418) -/

/-- The error record's bytes (R417), one part. -/
def errPart (r : Rec) (status seq parts part : Nat) (coarse : Bool) (es : List (Nat × Nat × Nat × Nat)) : List Byte :=
  le 4 seq ++ le 4 (status % 65536 + rCtx r.bits * 65536 + part * 2 ^ 28) ++ le 8 r.pos ++
    le 16 ((parts - 1) + es.length * 16 + (if coarse then 256 else 0)) ++
    padTo 32 (r.detail.flatMap fun d => le 8 d) ++
    padTo 192 (es.flatMap fun e => le 16 (e.2.1 % 65536 + e.1 * 2 ^ 16 + e.2.2.1 % 2 ^ 55 * 2 ^ 32 + e.2.2.2 % 2 ^ 40 * 2 ^ 88))

/-- The failed units of an error record: at most 192, the last covering every further one (R416). -/
def errUnits (es : List (Nat × Nat × Nat × Nat)) : Bool × List (Nat × Nat × Nat × Nat) :=
  if es.length ≤ 192 then (false, es) else
    let last := es.getD 191 (0, 0, 0, 0)
    let hi := ((es.drop 191).map fun e => e.2.2.1 + e.2.2.2).foldl max 0
    (true, es.take 191 ++ [(last.1, last.2.1, last.2.2.1, hi - last.2.2.1)])

/-- Splits a list into runs of 12. -/
def runs12 : Nat → List (Nat × Nat × Nat × Nat) → List (List (Nat × Nat × Nat × Nat))
  | 0, _ => []
  | _ + 1, [] => []
  | n + 1, l => l.take 12 :: runs12 n (l.drop 12)

/-- Writes the error record of an error that has failed ranges or detail (R416): whether one was written, its sequence
number, and the state. -/
def errRecord (l : Nat) (r : Rec) (status : Nat) (s : State) : Bool × Nat × State :=
  if status = 0 ∨ (r.failed.isEmpty ∧ r.detail.isEmpty) then (false, 0, s) else
  let q := queueOf s l
  let (coarse, es) := errUnits r.failed
  let parts := if es.isEmpty then [[]] else runs12 16 es
  let room := 2 ^ q.eqLog - (q.eqProd + 2 ^ 32 - q.eqCons) % 2 ^ 32
  let seq := q.errSeq
  let s := modQueue l (fun q => { q with errSeq := (q.errSeq + 1) % 2 ^ 32 }) s
  if room < parts.length then (false, seq, modQueue l (fun q => { q with eqLost := true }) s) else
  let s := each parts.zipIdx (fun p s =>
    hostWrite l (q.eqAddr + (q.eqProd + p.2) % 2 ^ q.eqLog * 256) (errPart r status seq parts.length p.2 (coarse && decide (p.2 + 1 = parts.length)) p.1) s) s
  (true, seq, modQueue l (fun q => { q with eqProd := (q.eqProd + parts.length) % 2 ^ 32 }) s)

/-- A record whose command has ended with a status; its fence and completion follow by COMMAND_END (R412). -/
def finishRec (l pos err : Nat) (s : State) : State :=
  modRec l pos (fun r => if r.stage = 3 then r else { r with stage := 3, error := if r.error = 0 then err else r.error }) s

/-- Signals a record's fence (R407, R408, R424). -/
def signalRec (l : Nat) (r : Rec) (fenceCode status : Nat) (wrote : Bool) (seq : Nat) (s : State) : State :=
  let a := r.fences.getD 0 0
  let s := if r.silent ∨ a = 0 then s else granFault l (rCtx r.bits) r.pos [(rSigVa r.bits, [(a, 16)], 4)] s
  if r.silent then s
  else if fenceCode = 0 then fenceOk l a (rSigVal r.bits) s
  else fenceErr l a (errorWord fenceCode wrote false (r.wrote && decide (status ≠ 0)) r.inherited seq) s

/-- The completion record (R411). `NOTICE` is 0: the only notice code, `E_REISSUED`, signals a handoff fence (R407). -/
def completionBits (q : Queue) (r : Rec) (status : Nat) (wrote : Bool) (seq : Nat) : Nat :=
  (if q.cqTail / 2 ^ q.cqLog % 2 = 0 then 1 else 0) + (if wrote then 4 else 0) +
    (if r.wrote ∧ status ≠ 0 then 16 else 0) + (if r.inherited then 32 else 0) + rOp r.bits * 2 ^ 24 + rCtx r.bits * 2 ^ 36 +
    status * 2 ^ 48 + r.pos * 2 ^ 64 + seq * 2 ^ 160 + r.result * 2 ^ 192

/-- Ends a command (R412): error record, fence, completion record, vector. `fenceCode` is the fence's error, which
R424 lets differ from the status. -/
def complete (l pos fenceCode status : Nat) (hostOk : Bool) (s : State) : State :=
  match recOf s l pos with
  | none => s
  | some r =>
    let (wrote, seq, s) := errRecord l r status s
    let s := signalRec l r fenceCode status wrote seq s
    let q := queueOf s l
    let bits := completionBits q r status wrote seq
    let s := if hostOk then sealWrite l 1 q.cqTail (q.cqAddr + q.cqTail % 2 ^ q.cqLog * 32) (2 ^ q.cqLog) (le 32 bits) s else s
    let kept := if hostOk then bits else bits + 2
    let s := modQueue l (fun q => { q with
      mirror := (q.mirror ++ [(q.cqTail, kept)]).drop (q.mirror.length + 1 - 256)
      cqTail := q.cqTail + 1
      recs := q.recs.filter fun x => x.pos ≠ pos }) s
    let s := if hostOk then s else
      event 0x101 3 10 l Err.completionUndelivered 0 (some l) (modQueue l (fun x => { x with
        undeliv := true, error := Err.completionUndelivered, undelPos := if x.undeliv then x.undelPos else q.cqTail }) s)
    if rIrq r.bits ∨ status ≠ 0 ∨ !hostOk then raiseLode l 0 s else s

/-! ### Turns (R434 to R442) -/

/-- Whether a context has work: a record dispatched or saved, or one whose waits are met (R435); in a
quiesce, one dispatched (R453). -/
def runnable (s : State) (c : Nat) : Bool :=
  let x := ctxOf s c
  decide (x.state ≠ 0) && decide (x.state ≠ 3) &&
    (queueOf s x.lode).recs.any fun r => decide (rCtx r.bits = c) &&
      (decide (r.stage = 2) || (decide (r.stage = 1) && (schedOf s x.lode).quiesce.isNone))

/-- Whether a context is running on its lode now. -/
def ctxRuns (s : State) (l c : Nat) : Bool := decide ((schedOf s l).running = c) && decide ((schedOf s l).phase = 1)

/-- The reservation of the lode's current cyclic slot, none in a share slot or without a table (R437, R438). -/
def slotRes (s : State) (l : Nat) : Option Nat :=
  let n := (schedOf s l).slot
  match s.img.applied.cyclic.find? fun t => t.1 = (lodeOf s l).cyclic with
  | some (_, slots) => match slots[n]? with
    | some k => if k.share then none else some k.res
    | none => none
  | none => none

/-- The context that takes the next turn of a slot owned by reservation `res`, or by share: the slot's own if runnable, otherwise the
runnable one with the least virtual time, the lowest number among equals (R438, R440). -/
def chooseFor (s : State) (l : Nat) (res : Option Nat) : Option Nat :=
  let cs := sortBy (fun a b => decide (a ≤ b)) ((ctxsOf s l).filter fun c => runnable s c)
  match res.bind fun k => cs.find? fun c => (ctxOf s c).res = k with
  | some c => some c
  | none => cs.foldl (fun b c => match b with
    | none => some c
    | some d => if (ctxOf s c).vtime < (ctxOf s d).vtime then some c else some d) none

/-- The context that takes the next turn in the current slot. -/
def choose (s : State) (l : Nat) : Option Nat := chooseFor s l (slotRes s l)

/-- A context becomes runnable after an idle period: its virtual time is raised to the floor of R440. -/
def wakeCtx (l c : Nat) (s : State) : State :=
  let x := ctxOf s c
  if !x.idle then s else
    let others := ((ctxsOf s l).filter fun d => d ≠ c && runnable s d).map fun d => (ctxOf s d).vtime
    let vmin := match others with
      | [] => x.vtime
      | v :: t => t.foldl min v
    let floor := vmin - (schedOf s l).quantum * 100000 * 65536 / max 1 x.weight
    modCtx c (fun x => { x with idle := false, vtime := max x.vtime floor }) s

/-- The attributes set by CTX_SET take effect at the context's next turn (R430). -/
def applyAttrs (c : Nat) (s : State) : State :=
  match (ctxOf s c).newW with
  | some (w, d, m, r) => modCtx c (fun x => { x with weight := w, defcls := d, mask := m, res := r, newW := none }) s
  | none => s

/-- Whether a request has a chunk, a host read or packets under way: it stops when they have ended (R174, R443). -/
def Dma.busy (d : Dma) : Bool := decide (d.chunk ≠ 0) || !d.waitIds.isEmpty

/-! ### Images (R444, R432) -/

/-- The image of a block as it stands. -/
def blockImage (s : State) (b : Nat) : BlockImg :=
  let k := blockOf s b
  { launch := k.launch, rank := k.rank, emask := k.emask, slots := k.slots, entry := k.entry, constLen := k.constLen, area := k.area
    cores := s.cu.cores.filterMap fun t => if t.1 / 32 = b then some (t.1 % 32, t.2) else none
    engines := s.cu.engines.filterMap fun t => if t.1 / 4 = b then some (t.1 % 4, t.2) else none
    dma := dmaOf s b, deliv := s.cu.deliv.filter fun d => d.block = b
    bytes := s.mem.bytes.filterMap fun c => if blockBase b ≤ c.1 ∧ c.1 < blockBase b + 0xA00000 then some (c.1 - blockBase b, c.2) else none }

/-- Loads an image into a block: its memories hold the image's bytes and zeros elsewhere (R444 step 3, R180). -/
def loadImage (b : Nat) (i : BlockImg) (s : State) : State :=
  let s := vacateBlock b s
  let s := each i.cores (fun t => modCore b t.1 fun k => { t.2 with resv := none, tlb := k.tlb, cycle := k.cycle, instret := k.instret }) s
  let s := each i.engines (fun t => modEngine b t.1 fun e => { t.2 with retired := e.retired }) s
  let s := modCu (fun k => { k with deliv := k.deliv ++ i.deliv }) (setDma b i.dma s)
  let s := modBlock b (fun k => { k with
    launch := i.launch, rank := i.rank, emask := i.emask, slots := i.slots, entry := i.entry, constLen := i.constLen, area := i.area }) s
  each i.bytes (fun c => putByte (blockBase b + c.1) c.2) s

/-- The semaphore numbers of a lode's pages. -/
def semsOfLode (s : State) (l : Nat) : List Nat :=
  (s.noc.semPages.filter fun t => t.2.bound ∧ t.2.lode = l).flatMap fun t => (List.range 256).map fun i => t.1 * 256 + i
def barsOfLode (s : State) (l : Nat) : List Nat :=
  (s.noc.barPages.filter fun t => t.2.bound ∧ t.2.lode = l).flatMap fun t => (List.range 64).map fun i => t.1 * 64 + i

/-- Withdraws the waits of a context's cores at semaphores, barriers and walks (R282, R444): they execute their instruction again. -/
def withdrawWaits (l : Nat) (s : State) : State :=
  let s := modNoc (fun n => { n with
    sems := (n.sems.map fun t => if (semsOfLode s l).contains t.1 then (t.1, { t.2 with waits := [] }) else t).filter fun t => t.2 ≠ {}
    bars := (n.bars.map fun t => if (barsOfLode s l).contains t.1 then (t.1, { t.2 with arrivals := t.2.arrivals - t.2.stalled.length, stalled := [] }) else t).filter fun t => t.2 ≠ {} }) s
  each (blocksOf s l) (fun b => each (List.range 32) fun c => modCore b c fun k => { k with wait := match k.wait with
    | .sem _ _ _ _ | .barrier _ | .walk _ _ => .none
    | w => w }) s

/-- Saves a context's images, semaphores, barrier counts and requests (R444 steps 2 and 3). -/
def saveCtx (l c : Nat) (s : State) : State :=
  let bs := blocksOf s l
  let sems := s.noc.sems.filter fun t => (semsOfLode s l).contains t.1
  let bars := s.noc.bars.filter fun t => (barsOfLode s l).contains t.1
  modCtx c (fun x => { x with
    state := if x.state = 2 then 1 else x.state
    images := bs.foldl (fun m b => tset none m b (some (blockImage s b))) x.images
    sems := sems, bars := bars
    rdma := s.cu.dma.flatMap fun t => if t.1 < 96 then [] else (t.2.filter fun d => decide (d.ctx = c) && decide (d.lode = l)).map fun d => (t.1, d) }) s

/-- Takes a context off its blocks: its work is saved, the blocks hold no launch (R444 steps 2 and 3). -/
def switchOut (l c : Nat) (s : State) : State :=
  let s := saveCtx l c (withdrawWaits l s)
  let s := modCu (fun k => { k with dma := (k.dma.map fun t =>
    (t.1, if t.1 < 96 then t.2 else t.2.filter fun d => !(decide (d.ctx = c) && decide (d.lode = l)))).filter fun t => t.2 ≠ [] }) s
  each (blocksOf s l) (fun b s =>
    modBlock b (fun x => { x with launch := none }) (vacateBlock b (modCu (fun k => { k with deliv := k.deliv.filter fun d => d.block ≠ b }) s))) s

/-- Loads a context's images, or zeros where it has none, and its semaphores (R444 steps 3 to 5, R436). -/
def loadCtx (l c : Nat) (s : State) : State :=
  let x := ctxOf s c
  let s := each (blocksOf s l) (fun b => loadImage b ((tget none x.images b).getD {})) s
  let s := each (semsOfLode s l) (fun n => modSem n fun _ => tget {} x.sems n) s
  let s := each (barsOfLode s l) (fun n => modBar n fun g => { (tget {} x.bars n) with target := g.target, next := g.next }) s
  modCtx c (fun x => { x with images := [], sems := [], bars := [] }) s

/-! ### How a turn begins -/

/-- Tells the member chips of a lode about a turn (R434): a switch order on virtual channel 6. -/
def orderSwitch (l c : Nat) (s : State) : State :=
  let d := lodeOf s l
  if d.home then each (d.members.filter (· ≠ s.dr.devid)) (fun m => emit (.control m 1 [d.gid, tget 0xFFF (ctxOf s c).members m])) s else s

/-- Whether every engine of a lode's blocks has stopped (R443, R264): no matrix-engine command runs, no chunk, packet or host read of the
context's requests is under way, every line that a delivery has sent is acknowledged, no block is in a hold of direct mode (R614), and every
message to the lode's semaphores and barriers has landed (R282). -/
def stopped (s : State) (l c : Nat) : Bool :=
  let bs := blocksOf s l
  let mine (d : Dma) : Bool := match d.owner with
    | .core b _ | .stream b _ => bs.contains b
    | _ => decide (d.ctx = c) && decide (d.lode = l)
  !(s.cu.dma.any fun t => t.2.any fun d => mine d && d.busy) &&
    !(s.cu.deliv.any fun d => bs.contains d.block && !d.lines.isEmpty) &&
    bs.all (fun b => !(cmaOf s b).hold && (List.range 4).all fun e => !((engineOf s b e).queue.any (·.ran))) &&
    !(s.noc.sems.any fun t => (semsOfLode s l).contains t.1 && !t.2.inflight.isEmpty) &&
    !(s.noc.bars.any fun t => (barsOfLode s l).contains t.1 && !t.2.inflight.isEmpty)

/-- Requests that the running context stops in favour of another (R443). -/
def preempt (l c : Nat) (s : State) : State := modSched l (fun d => { d with phase := 2, incoming := some c }) s

/-- A turn starts on a lode whose context stands loaded, or a switch to it begins (R444): at once when the engines of an idle lode stand
still, otherwise when what has ended has drained. -/
def beginTurn (l c : Nat) (s : State) : State :=
  if (schedOf s l).running ≠ c ∧ (schedOf s l).running ≠ 0xFFF ∧ !stopped s l (schedOf s l).running then preempt l c s else
  let s := orderSwitch l c s
  if (schedOf s l).running = c then
    modCtx c (fun x => { x with state := 2, tally := { x.tally with turns := satAdd 32 x.tally.turns 1 } }) (modSched l (fun d => { d with phase := 1, incoming := none }) (applyAttrs c s))
  else
    let d := (schedOf s l).running
    let s := if d = 0xFFF then s else switchOut l d s
    modSched l (fun d => { d with phase := 3, incoming := some c }) s

/-- A record became ready: an idle lode starts a turn; a reservation's own context claims its slot at once (R438). Turns are the home
chip's to decide (R434). -/
def kick (l c : Nat) (s : State) : State :=
  let s := wakeCtx l c s
  let d := schedOf s l
  if asleep s ∨ !(lodeOf s l).home then s
  else if d.phase = 0 then beginTurn l c s
  else if d.phase = 1 ∧ d.running ≠ c ∧ slotRes s l = some (ctxOf s c).res ∧ (ctxOf s c).res ≠ 0xFF ∧
      slotRes s l ≠ some (ctxOf s d.running).res then preempt l c s
  else s

/-- The headframe decides the next turn (R440, R441): no switch for the same context; with none runnable the lode keeps the
context loaded (R435). -/
def decideTurn (l : Nat) (s : State) : State :=
  let d := schedOf s l
  if asleep s ∨ !(lodeOf s l).home then s else
  match choose s l with
  | none => if d.phase = 1 then modSched l (fun d => { d with phase := 0 }) s else s
  | some c =>
    if d.phase = 0 then beginTurn l c s
    else if d.phase = 1 ∧ d.running ≠ c then preempt l c s
    else if d.phase = 1 then modCtx c (fun x => { x with tally := { x.tally with turns := satAdd 32 x.tally.turns 1 } }) (applyAttrs c s)
    else s

/-! ### Blocks of a launch (R179, R404) -/

/-- Engine mask of a launch record (R399): 0 means all four. -/
def rEmask (b : Nat) : Nat := if rArg b 96 4 = 0 then 15 else rArg b 96 4
def rConstLen (b : Nat) : Nat := rArg b 112 16
def rDevid (b : Nat) : Nat := rArg b 192 16

/-- A launch takes a block that the lode's previous launch has left (R404). -/
def placeLaunch (l : Nat) (r : Rec) (b : Nat) (s : State) : State :=
  let s := wakeBlock b s
  let s := modBlock b (fun k => { k with
    launch := some (l, r.pos), etag := (lodeOf s l).epoch % 256, rank := r.parts.findIdx (· = b), emask := rEmask r.bits
    slots := r.parts.map fun b => (blockOf s b).slot, entry := rArg0 r.bits, constLen := rConstLen r.bits }) s
  each (List.range 32) (fun c => modCore b c fun k => { k with run := 0 }) s

/-- Whether a row of a block waits for its spare: the block takes no launch before it is in service (R188). -/
def remapWaits (s : State) (b : Nat) : Bool := (List.range 4).any fun r => (rowOf s b r).pendingRemap

/-- The dispatched launch of the running context that waits for a block, the first in queue order. -/
def nextLaunch (s : State) (b : Nat) : Option (Nat × Rec) :=
  let l := (blockOf s b).lode
  if (blockOf s b).launch.isSome || (blockOf s b).resetting || remapWaits s b then none else
    ((queueOf s l).recs.find? fun r => decide (rOp r.bits = 1) && decide (r.stage = 2) && r.parts.contains b && ctxRuns s l (rCtx r.bits)).map fun r => (l, r)

/-! ### Cancellation (R419) and the end of launches -/

/-- Whether a DMA request is work of a block: issued by one of its cores, or the stream of one of its engines. -/
def dmaOfBlock (b : Nat) (d : Dma) : Bool :=
  match d.owner with
  | .core b' _ | .stream b' _ => decide (b' = b)
  | _ => false

/-- The record that a DMA request works for. -/
def recOfDma (s : State) (d : Dma) : Option (Nat × Nat) :=
  match d.owner with
  | .record l pos => some (l, pos)
  | .core b _ | .stream b _ => (blockOf s b).launch
  | .firmware _ => none

/-- The waits and arrivals of a block's cores leave their hubs: no core waits for them any more (R282). -/
def dropBlockWaits (b : Nat) (s : State) : State :=
  let mine (m : SyncMsg) : Bool := match m with
    | .wait k _ _ _ | .try k _ _ _ => decide (k = b)
    | .post _ => false
  modNoc (fun n => { n with
    sems := (n.sems.map fun t => (t.1, { t.2 with inflight := t.2.inflight.filter fun m => !mine m.2, waits := t.2.waits.filter fun m => !mine m })).filter fun t => t.2 ≠ {}
    bars := (n.bars.map fun t => (t.1, { t.2 with
      arrivals := t.2.arrivals - (t.2.stalled.filter fun p => decide (p.1 = b)).length
      stalled := t.2.stalled.filter fun p => p.1 ≠ b, inflight := t.2.inflight.filter fun p => p.2.1 ≠ b })).filter fun t => t.2 ≠ {} }) s

/-- The parts of a request's destination that are not written, as failed units (R417): a DVA range, a window range, and the
rest of a destination array. A chunk under way reaches its boundary and is written. -/
def lostRanges (d : Dma) (code : Nat) : List (Nat × Nat × Nat × Nat) :=
  let done := d.moved + d.chunkD
  let arr := max d.arr d.chunkA
  (if done < d.dlen then [(if d.kind = 4 then 2 else 1, code, d.dstVa + done, d.dlen - done)] else []) ++
    (if arr < d.arrLen then [(1, code, d.arrVa + arr, d.arrLen - arr)] else [])

/-- Fills a part of a transfer's destination with free values (R418: failed ranges are undefined). -/
def scrambleSpace (l : Nat) (sp : DmaSpace) (off n : Nat) (s : State) : State :=
  let bytes (k : Nat) (s : State) : List Byte := (List.range k).map fun i => BitVec.ofNat 8 (Config.freeNat (s.free + i))
  match sp with
  | .lode xs => each (cutExtents xs off n) (fun x s =>
      let t := { s with free := s.free + x.2 }
      (settle t (wrLode l x.1 (bytes x.2 s) t)).2) s
  | .phys a =>
    let t := { s with free := s.free + n }
    (settle t (wrPhys (a + off) (bytes n s) t)).2
  | _ => s

/-- What becomes of the unwritten destination of a request of kind 1 to 3 that ends early. -/
def scrambleRest (d : Dma) (s : State) : State :=
  if 3 < d.kind then s else
    let done := d.moved + d.chunkD
    let arr := max d.arr d.chunkA
    let s := scrambleSpace d.lode d.dst done (d.dlen - done) s
    if d.arrLen = 0 then s else scrambleSpace d.lode d.dscale arr (d.arrLen - arr) s

/-- Adds failed units to a record; parts that stop after it has ended add theirs too (R418). -/
def addFailed (l pos : Nat) (fs : List (Nat × Nat × Nat × Nat)) (s : State) : State :=
  modRec l pos (fun r => { r with failed := r.failed ++ fs }) s

/-- Whether a request has written anything. -/
def dmaWrote (d : Dma) : Bool := decide (0 < d.moved + d.chunkD)

/-- A request that ends early loses the rest of its destination; its record takes the failed ranges and the flags (R153, R418). -/
def loseRest (d : Dma) (err : Nat) (s : State) : State :=
  match recOfDma s d with
  | none => scrambleRest d s
  | some (l, pos) =>
    addFailed l pos (d.failed.map (fun f => (if d.kind = 4 then 2 else 1, f)) ++ lostRanges d err)
      (modRec l pos (fun r => { r with wrote := r.wrote || dmaWrote d, result := r.result ||| d.flags ||| d.chunkF }) (scrambleRest d s))

/-- The rest of a memory-side reduction's destination is lost (R418). -/
def loseReduce (l pos err : Nat) (s : State) : State :=
  match recOf s l pos with
  | none => s
  | some r =>
    let n := rLen r.bits - r.moved
    let s := if rDhost r.bits then s else scrambleSpace l (resSpace r (if rShost r.bits then 0 else 1)) r.moved n s
    addFailed l pos [(1, err, rDst r.bits + r.moved, n)] (modRec l pos (fun x => { x with wrote := decide (0 < x.moved) }) s)

/-- A delivery whose lines are all accounted for leaves; its failed rows are listed and undefined (R116, R418). -/
def closeDeliv (d : Delivery) (s : State) : State :=
  let s := loseRows d (modCu (fun k => { k with deliv := k.deliv.filter fun x => x.id ≠ d.id }) s)
  match (blockOf s d.block).launch with
  | none => s
  | some (l, pos) =>
    let src := (blockOf s d.block).slot
    addFailed l pos ((failedRows d).map fun f => (4, f.2, src + fld d.bits 104 7 * 256 + f.1 * 32768, 1))
      (modRec l pos (fun r => { r with wrote := true }) s)

/-- A stream sends nothing more: the lines not yet sent fail (R120). -/
def cutDeliv (id err : Nat) (s : State) : State :=
  match s.cu.deliv.find? fun d => d.id = id with
  | none => s
  | some d =>
    let d := { d with
      pos := 64 + 64 * rsLines d.bits
      failed := d.failed ++ ((List.range (rsLines d.bits)).filter fun k => decide (d.pos ≤ 64 + 64 * k)).map fun k => (k, err) }
    if d.lines.isEmpty then closeDeliv d s else modDeliv id (fun _ => d) s

/-- Cancels a request (R174): one with a chunk under way stops at the chunk's end, the others stop now. -/
def cancelDma (err : Nat) (d : Dma) (s : State) : State :=
  if d.busy then s else
    match d.owner with
    | .stream _ id => cutDeliv id err s
    | _ => if d.started then loseRest d err s else s

/-- Cancels the requests that `mine` names, on every unit. -/
def cancelDmas (mine : Dma → Bool) (err : Nat) (s : State) : State :=
  let ds := (s.cu.dma.flatMap (·.2)).filter mine
  let s := modCu (fun c => { c with dma := (c.dma.map fun t => (t.1, (t.2.filter fun d => !mine d || d.busy).map fun d =>
    if mine d && decide (d.cancel = 0) then { d with cancel := err } else d)).filter fun t => t.2 ≠ [] }) s
  each ds (cancelDma err) s

/-- Charges the context of a block's launch for its running cores and for the engines that `me` names (R122, R176). -/
def chargeBlock (b : Nat) (me : Engine → Bool) (s : State) : State :=
  match (blockOf s b).launch.bind fun p => recOf s p.1 p.2 with
  | none => s
  | some r =>
    let s := if (List.range 32).any fun c => decide ((coreOf s b c).run = 1) then chargeGc (rCtx r.bits) s else s
    if (List.range 4).any fun e => me (engineOf s b e) then chargeMe (rCtx r.bits) s else s

/-- Stops the work of a launch on a block (R120, R184): cores at an instruction boundary; each engine finishes its running command and
discards its queue; DMA requests and deliveries stop at a chunk. The block stays with the launch until they have. -/
def stopBlock (b : Nat) (s : State) : State :=
  let s := chargeBlock b (fun g => g.queue.any (fun c => !c.ran) && !g.queue.any (·.ran)) s
  let s := each (List.range 32) (fun c => modCore b c fun k => { k with run := if k.run = 1 then 3 else k.run, wait := .none }) s
  let s := each (List.range 4) (fun e => modEngine b e fun g => { g with queue := g.queue.filter (·.ran) }) s
  cancelDmas (dmaOfBlock b) Err.cancelled (dropBlockWaits b s)

/-- A block's launch is over: it takes another, and its engines' stops are cleared (R96). -/
def leaveBlock (b : Nat) (s : State) : State :=
  let s := each (List.range 4) (fun e => modEngine b e fun g => { g with errstop := false, error := 0 }) s
  modBlock b (fun x => { x with launch := none }) s

/-- The work of a block is lost with its logic: nothing of it is waited for any more (R526, R545). -/
def killBlock (b : Nat) (s : State) : State :=
  let ds := (s.cu.dma.flatMap (·.2)).filter fun d => dmaOfBlock b d && d.busy
  let s := each ds (fun d => loseRest d Err.cancelled) s
  let s := each (List.range 4) (fun e => modEngine b e fun g => { g with queue := [], busy := false }) s
  let s := modCu (fun c => { c with
    deliv := c.deliv.filter fun d => d.block ≠ b
    dma := (c.dma.map fun t => (t.1, t.2.filter fun d => !dmaOfBlock b d)).filter fun t => t.2 ≠ [] }) s
  leaveBlock b (dropBlockWaits b s)

/-- The blocks a record's launch holds. -/
def recBlocks (s : State) (l pos : Nat) : List Nat := (List.range 96).filter fun b => (blockOf s b).launch = some (l, pos)

/-- Whether nothing of a record's work is under way: no request, engine command or delivery on this chip, and no part on a member chip that
has not reported (R419, R263, R267). -/
def workDone (s : State) (l pos : Nat) : Bool :=
  let bs := recBlocks s l pos
  !(s.cu.dma.any fun t => t.2.any fun d => decide (recOfDma s d = some (l, pos))) &&
    !(s.cu.deliv.any fun d => bs.contains d.block) &&
    bs.all (fun b => (List.range 4).all fun e => (engineOf s b e).queue.isEmpty) &&
    !((lodeOf s l).home && ((recOf s l pos).bind (·.remote)).isSome)

/-- Stops every part of a record's command: its blocks, its DMA work, saved work of a switched-out context, its part on a member chip. -/
def stopWork (l pos err : Nat) (s : State) : State :=
  let s := match (recOf s l pos).bind fun r => if (lodeOf s l).home then r.remote else none with
    | some dev => emit (.control dev 9 [(lodeOf s l).gid, pos]) s
    | none => s
  let saved := (ctxsOf s l).flatMap fun c => (ctxOf s c).rdma.map (·.2)
  let s := each (saved.filter fun d => decide (d.owner = .record l pos) && d.started) (loseRest · err) s
  let s := match recOf s l pos with
    | some r => if rOp r.bits = 5 ∧ r.stage = 2 then loseReduce l pos err s else s
    | none => s
  let s := cancelDmas (fun d => decide (d.owner = .record l pos)) err (each (recBlocks s l pos) stopBlock s)
  each (ctxsOf s l) (fun c => modCtx c fun x => { x with
   rdma := x.rdma.filter fun p => match p.2.owner with
     | .record l' pos' => !(decide (l' = l) && decide (pos' = pos))
     | .core b _ => ((tget none x.images b).bind (·.launch)) ≠ some (l, pos)
     | _ => true
   images := x.images.map fun t => (t.1, t.2.map fun i =>
    if i.launch = some (l, pos) then
      { i with
        launch := none, dma := [], deliv := [], engines := i.engines.map fun e => (e.1, { e.2 with queue := [], busy := false, errstop := false, error := 0 })
        cores := i.cores.map fun k => (k.1, { k.2 with run := if k.2.run = 1 then 3 else k.2.run, wait := .none, dmaOut := 0, meOut := 0 }) }
    else i) }) s

/-- Ends a launch or a dispatched command early with an error (R184, R419): its parts stop at their preemption points. -/
def abortRec (l pos err : Nat) (s : State) : State :=
  match recOf s l pos with
  | none => s
  | some r => if r.stage = 3 then s else finishRec l pos err (stopWork l pos err s)

/-- Cancels a record: its work stops; it ends with `E_CANCELLED` once drained (R419). A command takes the outcome of the first
cancellation that reaches it (R421). -/
def cancelRec (l pos why : Nat) (s : State) : State :=
  match recOf s l pos with
  | none => s
  | some r =>
    if r.stage = 3 then s
    else
      let s := modXlLode l (fun x => { x with faults := x.faults.filter fun f => f.agent ≠ .head l pos }) s
      modRec l pos (fun r => { r with stage := 3, error := if r.error = 0 then Err.cancelled else r.error, cancel := why }) (stopWork l pos Err.cancelled s)

/-- Withdraws a context's waits at semaphores and barriers without touching them, and its waiting faults (R423 step 2). -/
def dropWaits (l c : Nat) (s : State) : State :=
  let mine (b k : Nat) : Bool := decide ((blockOf s b).lode = l) && decide ((coreOf s b k).run ≠ 1)
  let kept (w : SyncMsg) : Bool := match w with
    | .wait b k _ _ => !mine b k
    | _ => true
  let s := modNoc (fun n => { n with sems := (n.sems.map fun t => (t.1, { t.2 with waits := t.2.waits.filter kept })).filter fun t => t.2 ≠ {} }) s
  modXlLode l (fun x => { x with faults := x.faults.filter fun f => f.ctx ≠ c }) s

/-- Starts the teardown of a context (R423 steps 1 and 2): it is ending, its commands are cancelled but those that keep their own
error, its saved work goes. `code` is the error of a teardown that a cause started, which its dispatched commands take, 0 for the
verb. Member chips tear down their part. A context that is ending already takes the further fence alone. -/
def startTeardown (c code : Nat) (fence : Option VFence) (s : State) : State :=
  let x := ctxOf s c
  if x.state = 0 then s
  else if x.state = 3 then modCtx c (fun x => { x with endFences := x.endFences ++ fence.toList }) s
  else
    let l := x.lode
    let rs := (queueOf s l).recs.filter fun r => rCtx r.bits = c
    let s := each (rs.filter fun r => r.stage = 2) (fun r => modRec l r.pos fun r => { r with error := if r.error = 0 then code else r.error }) s
    let s := each rs (fun r => cancelRec l r.pos 2) s
    let s := dropWaits l c s
    let s := if (lodeOf s l).home then each x.members (fun m => emit (.control m.1 10 [(lodeOf s l).gid, m.2])) s else s
    modCtx c (fun x => { x with state := 3, images := [], rdma := [], endFences := fence.toList, draining := true }) s

/-- Ends every record of a lode that is not ended yet with an error, at once (R349, R476, R517). -/
def failLode (l err : Nat) (s : State) : State :=
  each ((queueOf s l).recs.map (·.pos)) (fun p => abortRec l p err) s

/-! ### Requests at a region memory controller (R193, R203, R204) -/

/-- The pseudo-channel a request's first byte lies on. -/
def pcOfReq (s : State) (r : MemReq) : Option Nat :=
  (resolve s r.lode r.laddr).bind fun a => if a < 0x18000000000 then some (a / 0x80000000) else none

/-- A request is answered; the response travels back from its memory port (R272). -/
def answerReq (r : MemReq) (e : Nat) (bs : List Byte) (s : State) : State :=
  emit (.memResp r.id e bs) (match pcOfReq s r with
    | some p => sendWay r.master r.id .response (responseWay s r.master p) s
    | none => s)

/-- A request fails: its master hears of it, and the command it was issued for ends with the error. -/
def failReq (r : MemReq) (e : Nat) (s : State) : State :=
  let s := answerReq r e [] s
  match r.cmd with
  | some p => abortRec r.lode p e s
  | none => s

/-- Performs a request of a lode at its region memory controller and answers it (R193, R204); firmware's is not cached and
not logged (R200, R238). -/
def serveReq (r : MemReq) (s : State) : State :=
  if r.write then
    let (e, s) := settle s (if r.firmware then wrLode r.lode r.laddr r.data s else storeLode r.lode r.laddr r.cls r.data s)
    if e ≠ 0 then failReq r e s else answerReq r 0 [] s
  else
    let s := if r.firmware then s else touchLode r.lode r.laddr r.len r.cls false s
    match rdLode s r.lode r.laddr r.len with
    | .ok d => answerReq r 0 d s
    | .error e => failReq r e s

end Sys2Proof.Machine
end

