-- ==== Sys2Proof/Machine/CoreBase.lean ====
section
/-! DEFINITION. What core instructions and engine commands share: core registers, launches, core addresses (R163), semaphore posts
(R277, R278). -/
namespace Sys2Proof.Machine
open Sys2Proof

/-! ### Registers of a core -/

/-- An integer register; x0 reads 0. -/
def xOf (k : Core) (n : Nat) : Nat := if n = 0 then 0 else (tget 0 k.x n).toNat

/-- Writes an integer register; x0 discards it. -/
def setX (n v : Nat) (k : Core) : Core := if n = 0 then k else { k with x := tset 0 k.x n (BitVec.ofNat 64 v) }

/-- An instruction of `len` bytes retires: the pc moves past it, the core waits for nothing. -/
def retire (len : Nat) (k : Core) : Core := { k with pc := k.pc + BitVec.ofNat 64 len, instret := (k.instret + 1) % 2 ^ 64, wait := .none, gated := false }

/-- Retires with a result in `rd`. -/
def retireX (rd v : Nat) (k : Core) : Core := retire 4 (setX rd v k)

/-- Whether a logical core has a physical core (R187). -/
def corePresent (s : State) (b c : Nat) : Bool := !(rowOf s b (c / 8)).absent.testBit (c % 8)

/-- The mask of present cores (`GC_PRESENT`). -/
def presentMask (s : State) (b : Nat) : Nat := maskOf ((List.range 32).filter fun c => corePresent s b c)

/-- Whether a core can execute an instruction now: it runs, and does not wait for something another agent delivers.
An instruction that stalled for room is executed again from its start (R166). -/
def coreReady (k : Core) : Bool :=
  decide (k.run = 1) && match k.wait with
    | .none | .meFull _ | .dmaFull | .fence _ _ | .range => true
    | _ => false

/-- Whether a block belongs to a sealed-share lode (R487). -/
def sealedBlock (s : State) (b : Nat) : Bool := decide ((blockOf s b).lode ≠ 0x7F) && (lodeOf s (blockOf s b).lode).sealed

/-- Whether a block issues nothing now: its region is held (R516), duty limiting stops it (R510), or a thermal shutdown has begun (R517). -/
def issueStopped (s : State) (b : Nat) : Bool :=
  (pregOf s (b / 12)).held || (s.pwr.dutyStop && !sealedBlock s b) || decide (s.pwr.shutdown ≠ 0)

/-- The command of a core instruction: nothing happens on a core that executes none, and on a block that issues nothing (log 6). -/
def onCore (b c : Nat) (s : State) (f : State → State) : Host.Outcome State Fault Refusal :=
  run s fun s => if coreReady (coreOf s b c) && corePresent s b c && !issueStopped s b then f s else s

/-! ### Launches -/

/-- The record of the launch a block runs: its lode, position, context. -/
def launchOf (s : State) (b : Nat) : Option (Nat × Nat × Nat) :=
  match (blockOf s b).launch with
  | some (l, pos) => (recOf s l pos).map fun r => (l, pos, rCtx r.bits)
  | none => none

/-- The launch of a block ends at once with an error (R184); the first detail given stays. -/
def endLaunch (b err : Nat) (detail : List Nat) (s : State) : State :=
  match (blockOf s b).launch with
  | some (l, pos) => abortRec l pos err (modRec l pos (fun r => if r.detail.isEmpty ∧ r.stage ≠ 3 then { r with detail := detail } else r) s)
  | none => s

/-- An exception of a core (R184): cause, pc, faulting address. No reservation outlives a trap (R161). -/
def coreTrap (b c cause tval : Nat) (s : State) : State :=
  endLaunch b Err.gcFault [cause, (coreOf s b c).pc.toNat, tval % 2 ^ 64, b + c * 256]
    (modCore b c (fun k => { k with cause := cause, resv := none }) s)

/-- The context whose work a block carries out. -/
def ctxOfBlock (s : State) (b : Nat) : Nat := ((launchOf s b).map fun t => t.2.2).getD (schedOf s (blockOf s b).lode).running

/-- An engine that holds no command any more has its time charged (R122). -/
def meIdle (b e : Nat) (s : State) : State := if (engineOf s b e).queue.isEmpty then chargeMe (ctxOfBlock s b) s else s

/-! ### Addresses of a core (R163) -/

/-- What an effective address names. -/
inductive Place where
  | phys (a : Nat)
  | reg (off : Nat)
  | virt (va : Nat)
  | bad
deriving DecidableEq, Repr

/-- Whether the cores whose scratchpads a range of the scratchpad window touches are all present. -/
def padsPresent (s : State) (b o n : Nat) : Bool :=
  (List.range 32).all fun c => decide (o + n ≤ c * 0x10000) || decide ((c + 1) * 0x10000 ≤ o) || corePresent s b c

/-- An offset of a block's window: memories of present cores and engines; `n` bytes within one range (R91, R163, R191). -/
def blockPlace (s : State) (b off n : Nat) : Place :=
  if off + n ≤ 0x400000 then .phys (blockBase b + off)
  else if 0x400000 ≤ off ∧ off + n ≤ 0x600000 then
    if padsPresent s b (off - 0x400000) n then .phys (blockBase b + off) else .bad
  else if 0x800000 ≤ off ∧ off + n ≤ 0xA00000 then .phys (blockBase b + off)
  else .bad

/-- A far window's access (R163, R175). -/
def farPlace (s : State) (k : Core) (w o n : Nat) : Place :=
  match tget none k.wins w with
  | none => .bad
  | some t =>
    if t.kind = 0 then (if o + n ≤ 0x400000 then blockPlace s t.block o n else .bad)
    else if o + n ≤ 0x200000 then blockPlace s t.block ((if t.kind = 1 then 0x400000 else 0x800000) + o) n else .bad

/-- What an access of `n` bytes at an effective address of core `c` names. -/
def placeOf (s : State) (b c a n : Nat) : Place :=
  if a + n ≤ 2 ^ 55 then .virt a
  else if 0xFFFFFFFFFE000000 ≤ a ∧ a + n ≤ 2 ^ 64 then
    let o := a - 0xFFFFFFFFFE000000
    if 0xA00000 ≤ o ∧ o + n ≤ 0xA10000 then .reg (o - 0xA00000)
    else if 0x1000000 ≤ o then farPlace s (coreOf s b c) ((o - 0x1000000) / 0x400000) (o % 0x400000) n
    else blockPlace s b o n
  else .bad

/-- The effective address of a block offset in the local aperture. -/
def apAddr (off : Nat) : Nat := 0xFFFFFFFFFE000000 + off

/-- Whether `n` bytes at an address lie in the core's own scratchpad, and their chip physical address (R170, R171). -/
def ownPad (b c a n : Nat) : Option Nat :=
  let base := apAddr (0x400000 + c * 0x10000)
  if base ≤ a ∧ a + n ≤ base + 0x10000 then some (blockBase b + (a - 0xFFFFFFFFFE000000)) else none

/-! ### Semaphores and barriers of a lode (R278) -/

/-- Whether a lode holds a semaphore. -/
def holdsSem (s : State) (l n : Nat) : Bool :=
  let p := tget {} s.noc.semPages (n / 256)
  decide (n < 131072) && p.bound && decide (p.lode = l)

/-- Whether a lode holds a barrier group. -/
def holdsBar (s : State) (l g : Nat) : Bool :=
  let p := tget {} s.noc.barPages (g / 64)
  decide (g < 4096) && p.bound && decide (p.lode = l)

/-- Sends a message towards a semaphore's hub, tagged with the epoch of the lode that holds its page (R36). -/
def sendSync (n : Nat) (m : SyncMsg) (s : State) : State :=
  let tag := epochTag s (pageOf s (n / 256)).lode
  modSem n (fun k => { k with inflight := k.inflight ++ [(tag, m)] }) s

/-- Sends a post towards a semaphore's hub, applied by SEM_POST_APPLY. -/
def sendPost (n count : Nat) (s : State) : State := sendSync n (.post count) s

/-- A post of an engine or a DMA request (R98, R278): discarded with the end of the launch when the lode does not hold
the semaphore. -/
def unitPost (b n : Nat) (s : State) : State :=
  if !holdsSem s (blockOf s b).lode n then endLaunch b Err.gcSem [] s
  else if (semOf s n).poisoned then endLaunch b Err.memUncorrected [] s
  else sendPost n 1 s

/-- The number a count operand stands for (R167). -/
def countOf (v : Nat) : Nat := if v % 2 ^ 16 = 0 then 1 else v % 2 ^ 16

end Sys2Proof.Machine
end

