-- ==== Sys2Proof/Machine/Faults.lean ====
section
/-! DEFINITION. How DMA requests end, how faults of units are counted and classified (R521 to R525), and what a retirement does to
each kind of unit (R121, R187, R201, R207, R526 to R528). -/
namespace Sys2Proof.Machine
open Sys2Proof

/-! ### The end of a DMA request (R174, R229, R418) -/

/-- Every line of a delivery is accounted for: it posts (R98), or the launch ends with the first error and the rows (R116). -/
def endDeliv (d : Delivery) (s : State) : State :=
  match d.failed with
  | [] => (if cPost d.bits then unitPost d.block (cSem d.bits) else id) (modCu (fun k => { k with deliv := k.deliv.filter fun x => x.id ≠ d.id }) s)
  | (_, err) :: _ => endLaunch d.block err [] (closeDeliv d s)

/-- A delivery ends once its stream is sent and every line has its acknowledgement. -/
def settleDeliv (id : Nat) (s : State) : State :=
  match s.cu.deliv.find? fun d => decide (d.id = id) && d.lines.isEmpty && decide (64 + 64 * rsLines d.bits ≤ d.pos) with
  | some d => endDeliv d s
  | none => s

/-- The status of a core's converting request: nothing in the core holds it, so it goes out (R153; log 14). -/
def requestStatus (d : Dma) (err : Nat) (s : State) : State :=
  match d.owner with
  | .core b c => if d.kind = 2 then emit (.requestStatus b c d.serial err (d.flags ||| d.chunkF)) s else s
  | _ => s

/-- The ranges of one end of a request, as a fault would name them: DVA, extents, access. -/
def endRanges (sp : DmaSpace) (va off k access : Nat) : List (Nat × List (Nat × Nat) × Nat) :=
  match sp with
  | .lode xs => [(va + off, cutExtents xs off k, access)]
  | _ => []

/-- The lode memory that a request's chunk in hand reads and writes. -/
def chunkData (d : Dma) : List (Nat × List (Nat × Nat) × Nat) :=
  let cv := decide (d.kind = 2)
  let n := if cv then cvSrcAt d.conv (cvNext d.conv d.len d.pos) - d.pos else min 4096 (d.len - d.pos)
  let m := if cv then cvDstAt d.conv (cvNext d.conv d.len d.pos) - d.moved else min 4096 (d.dlen - d.moved)
  endRanges d.src d.srcVa d.pos n 0 ++ endRanges d.dst d.dstVa d.moved m 1

/-- The same with the arrays of a conversion. -/
def chunkRanges (d : Dma) : List (Nat × List (Nat × Nat) × Nat) :=
  chunkData d ++ endRanges d.sscale (cvSva d.conv) 0 (2 ^ 41) 0 ++ endRanges d.dscale (cvDva d.conv) 0 (2 ^ 41) (if d.arrLen = 0 then 0 else 1)

/-- The fault of a chunk that met a granule entry that is not valid (R31, R232). -/
def chunkFault (d : Dma) (err : Nat) (s : State) : State :=
  let pos := match d.owner with
    | .record _ pos => pos
    | .core b _ => ((launchOf s b).map fun x => x.2.1).getD 0
    | _ => 0
  if err = Err.xlGranule ∧ d.kind ≠ 7 then granFault d.lode d.ctx pos (chunkRanges d) s else s

/-- A request ends in an error (R174, R418): its record takes the failed ranges, and it or the launch ends with the error. -/
def failDma (d : Dma) (err : Nat) (s : State) : State :=
  let s := chunkFault d err s
  match d.owner with
  | .core b _ => endLaunch b err [] (requestStatus d err (loseRest d err s))
  | .record l pos => finishRec l pos err (loseRest d err s)
  | .stream b id => endLaunch b err [] (cutDeliv id err s)
  | .firmware _ => s

/-- A request ends normally: its post, its core's count, its record's end with the flags of R153. -/
def endDma (d : Dma) (s : State) : State :=
  match d.owner with
  | .core b c =>
    let s := modCore b c (fun k => { k with dmaOut := k.dmaOut - 1 }) (requestStatus d 0 s)
    if d.post then unitPost b d.sem s else s
  | .record l pos => finishRec l pos 0 (modRec l pos (fun r => { r with result := r.result ||| d.flags }) s)
  | .stream _ id => settleDeliv id s
  | .firmware _ => s

/-! ### What a retirement does -/

/-- The retirement bit is written before the retirement takes effect (R530). -/
def setRetired (u : HwUnit) (s : State) : State := modFc u (fun f => { f with retired := true, deferred := false }) s

/-- A higher action ends the rebinding operations that name a set (R44). -/
def endOpsOnSet (n err : Nat) (s : State) : State :=
  each (s.lm.ops.filter fun o => isRebind o.kind ∧ (o.sets.contains n ∨ (o.kind = .granuleMigrate ∧ (o.dest = n ∨
    o.granules.any fun g => (granOf s o.donor g).set = n)))) (fun o => stopOp o.num err) s

/-- A higher action ends the rebinding operations that name a block (R44). -/
def endOpsOnBlock (b err : Nat) (s : State) : State :=
  each (s.lm.ops.filter fun o => isRebind o.kind ∧ o.blocks.contains b) (fun o => stopOp o.num err) s

/-- Whether a range of a transfer's end lies on a pseudo-channel. -/
def spaceOn (s : State) (l p : Nat) (sp : DmaSpace) (off n : Nat) : Bool :=
  match sp with
  | .lode xs => (cutExtents xs off n).any fun x => (segs x.1 x.2).any fun g => match resolve s l g.1 with
    | some a => decide (a / 0x80000000 = p)
    | none => false
  | _ => false

/-- Ends the command of a request. -/
def endOwner (cause : Nat) (d : Dma) (s : State) : State :=
  match d.owner with
  | .core b _ | .stream b _ => endLaunch b cause [] s
  | .record l pos => abortRec l pos cause s
  | .firmware _ => s

/-- Whether the chunk under way of a request addresses a pseudo-channel: its source, destination or scale arrays. -/
def chunkOnPc (s : State) (p : Nat) (d : Dma) : Bool :=
  let arr (sp : DmaSpace) (stride : Nat) : Bool := decide (d.kind = 2) &&
    (cvPieces d.conv (cvPoint d.conv d.pos) (cvNext d.conv d.len d.pos)).any fun x => spaceOn s d.lode p sp (stride * x.1 + x.2.1 / 32) ((x.2.2 - x.2.1) / 32)
  decide (d.chunk ≠ 0) && (spaceOn s d.lode p d.src d.pos d.chunk || spaceOn s d.lode p d.dst d.moved d.chunkD ||
    arr d.sscale (cvSstride d.conv) || arr d.dscale (cvDstride d.conv))

/-- The commands with a request outstanding on a pseudo-channel end with `E_MEM_POISONED` (R207): a chunk under way, a request in the queue or at
its ingress. -/
def endOnPc (p : Nat) (s : State) : State :=
  let hit := (s.cu.dma.flatMap (·.2)).filter (chunkOnPc s p)
  let a := arbOf s p
  let s := modArb p (fun a => { a with queue := [], ingress := [] }) (each hit (endOwner Err.memPoisoned) s)
  each a.ingress (fun r => failReq r.1 Err.memPoisoned) (each (a.queue.filterMap (·.cmd)) (fun c => abortRec c.1 c.2 Err.memPoisoned) s)

/-- Whether a granule of an operation that has not passed its cutover is copied from, or into, a set. -/
def copyHits (s : State) (o : Op) (n g : Nat) : Bool :=
  let e := granOf s o.donor g
  !o.begun && decide (e.op = some o.num) && decide (e.mig ≤ 1) && (decide (e.set = n) || decide (e.dset = n))

/-- A granule goes back to Home; it may get another destination. -/
def unplan (l g : Nat) (f : Granule → Granule) (s : State) : State :=
  dropCopy l g (modGran l g (fun e => f { e with mig := 0, dset := 0, dslot := 0, copied := false }) s)

/-- A pseudo-channel of a set fails while granules are copied from or into it (R52): a copy into it starts again elsewhere, a migration from it
ends. An evacuation goes on either way, with what slots there are (R207, R208). -/
def copyAgain (n : Nat) (o : Op) (s : State) : State :=
  let src := o.granules.any fun g => copyHits s o n g && decide ((granOf s o.donor g).set = n)
  let bad := o.granules.filter fun g => copyHits s o n g && decide ((granOf s o.donor g).dset = n)
  let dests := freeElsewhere s o.donor n
  let s := modLm (fun m => { m with waiting := m.waiting.filter fun w => w.2 ≠ .cutover o.num }) s
  if o.kind = .evacuate ∧ dests.length < bad.length then
    evacNext o.num (each (o.granules.filter fun g => (granOf s o.donor g).mig ≤ 1) (fun g => unplan o.donor g fun e => { e with op := none }) s)
  else if (o.kind ≠ .evacuate ∧ src) ∨ dests.length < bad.length then endOp o.num Err.migrationFailed s
  else
    let s := each (bad.zip dests) (fun gd => unplan o.donor gd.1 fun e => { e with dset := gd.2.1, dslot := gd.2.2 }) s
    copiesDone o.num (startCopies o.num (modOp o.num (fun o => { o with step := 2 }) s))

/-- A pseudo-channel fails (R207): its cached lines are pinned, its set is degraded, the masters forget the set; an unbound set is broken at once (R208). A
set's copies start again or end (R52). -/
def pcFail (p : Nat) (s : State) : State :=
  if (pcOf s p).failed || (pcOf s p).retired then s else
  let s := endOnPc p s
  let s := modPc p (fun c => { c with failed := true, predicted := false }) s
  let s := setRetired ⟨5, p⟩ s
  let s := modRegion (p / 96) (fun r => { r with cache := r.cache.map fun c => if c.line * 128 / 0x80000000 = p then { c with pinned := true } else c }) s
  match s.lm.sets.find? fun t => decide (t.2.base ≤ p) && decide (p < t.2.base + t.2.count) with
  | none => modPc p (fun c => { c with retired := true }) s
  | some (n, t) =>
    if t.lode = 0x7F then breakNow n (endOpsOnSet n Err.unitRetired s)
    else
      let s := dropGrans (fun h => h.set ≠ n) (modSet n (fun t => { t with state := 6 }) s)
      each (s.lm.ops.filter fun o => o.granules.any (copyHits s o n)) (copyAgain n) s

/-- A block is retired (R526): its work ends, its images are dropped, and its lode gives it up under a new epoch. -/
def blockRetire (b : Nat) (s : State) : State :=
  let s := setRetired ⟨3, b⟩ s
  let s := killBlock b (endLaunch b Err.unitRetired [] s)
  let l := (blockOf s b).lode
  let s := each (((queueOf s l).recs.filter fun r => decide (r.stage = 2) && r.parts.contains b).map (·.pos)) (fun p => abortRec l p Err.unitRetired) s
  let s := endOpsOnBlock b Err.unitRetired s
  let s := each (s.sch.ctxs.map (·.1)) (fun c => modCtx c fun x => { x with images := tset none x.images b none }) s
  let k := blockOf s b
  if (k.state = 1 ∨ k.state = 2) ∧ k.lode ≠ 0x7F then commit k.lode (.retireBlock b) s
  else shutBlock b s

/-- An engine is retired (R121): its work is abandoned with undefined destinations, the launch ends. -/
def engineRetire (n : Nat) (s : State) : State :=
  let b := n / 4
  let s := setRetired ⟨2, n⟩ s
  let s := match (engineOf s b (n % 4)).queue with
    | c :: _ => scrambleDst b (n % 4) c.bits s
    | [] => s
  let s := if (blockOf s b).emask.testBit (n % 4) then endLaunch b Err.unitRetired [] s else s
  meIdle b (n % 4) (modEngine b (n % 4) (fun e => { e with retired := true, queue := [], busy := false }) s)

/-- A physical core fails for good (R187, R188): the row waits for its remap, or falls short. -/
def coreRetire (n : Nat) (s : State) : State :=
  let b := n / 36
  let row := n % 36 / 9
  let col := n % 9
  let s := setRetired ⟨1, n⟩ s
  let r := rowOf s b row
  let s := if col = 8 ∧ !r.spent then s else endLaunch b Err.unitRetired [] s
  if r.failed = 0xF then modRow b row (fun r => { r with failed := col, pendingRemap := decide (col ≠ 8) }) s
  else
    let lcol := if col < r.failed then col else col - 1
    modRow b row (fun r => { r with short := true, absent := r.absent ||| 2 ^ lcol }) s

/-- A region DMA engine is retired (R527): the request it is on ends, the others go to the next serviceable engine or end. -/
def rdmaRetire (n : Nat) (s : State) : State :=
  let s := setRetired ⟨4, n⟩ s
  let q := dmaOf s (96 + n)
  let s := setDma (96 + n) [] s
  let (head, rest) := match q with
    | d :: t => if d.started then ([d], t) else ([], d :: t)
    | [] => ([], [])
  let s := each head (fun d => failDma d Err.unitRetired) s
  match rdmaFor s (n / 4) (n % 4) with
  | some k => setDma (96 + n / 4 * 4 + k) (dmaOf s (96 + n / 4 * 4 + k) ++ rest) s
  | none => each rest (fun d => failDma d Err.unitRetired) s

/-- A sync page is classified permanent (R528): it stays with its lode until it is freed. -/
def pageRetire (n : Nat) (s : State) : State :=
  let s := setRetired ⟨8, n⟩ s
  if n < 512 then modSemPage (n / 64) (n % 64) (fun p => if p.bound then { p with failing := true } else { p with retired := true }) s
  else modBarPage (n - 512) (fun p => if p.bound then { p with failing := true } else { p with retired := true }) s

/-- A router or the Drift switch stops combining (R523). Kinds 20 and 21 are the model's own numbers for them. -/
def combRetire (u : HwUnit) (s : State) : State :=
  if u.kind = 21 then modDr (fun d => { d with noComb := true }) s
  else modRegion (u.num / 12) (fun r => { r with noComb := if r.noComb.contains u.num then r.noComb else u.num :: r.noComb }) s

/-- A unit classified permanent is retired. -/
def retireUnit (u : HwUnit) (s : State) : State :=
  match u.kind with
  | 1 => coreRetire u.num s
  | 2 => engineRetire u.num s
  | 3 => blockRetire u.num s
  | 4 => rdmaRetire u.num s
  | 5 => pcFail u.num s
  | 6 => modRegion (u.num / 64) (fun r => { r with waysRet := r.waysRet ||| 2 ^ (u.num % 64), cache := r.cache.filter fun c => c.way ≠ u.num % 64 })
      (setRetired u s)
  | 7 => setRetired u s
  | 8 => pageRetire u.num s
  | _ => combRetire u s

/-! ### Counting (R522) -/

/-- The block a cell-level unit lies in. -/
def blockOfUnit (u : HwUnit) : Option Nat :=
  match u.kind with
  | 1 => some (u.num / 36) | 2 => some (u.num / 4) | 3 => some u.num
  | _ => none

/-- The region a unit lies in. -/
def regionOfUnit (u : HwUnit) : Option Nat :=
  match u.kind with
  | 4 => some (u.num / 4) | 5 => some (u.num / 96) | 6 => some (u.num / 64)
  | _ => (blockOfUnit u).map (· / 12)

/-- Whether a unit's domain is being reset: what it reports is not counted (R522), what retires it waits (R525). -/
def inReset (s : State) (u : HwUnit) : Bool :=
  ((blockOfUnit u).map fun b => (blockOf s b).resetting).getD false || ((regionOfUnit u).map fun r => (regionOf s r).resetting).getD false

/-- The deadline tick now, counted from the start (R288). -/
def nowTick (s : State) : Nat := s.chip.tick

/-- Whether a fault comes within 1 ms of the unit's last one (R522). -/
def sameFault (s : State) (u : HwUnit) : Bool :=
  match (fcOf s u).tick with
  | some t => decide (nowTick s < t + 10000)
  | none => false

/-- Faults in the window, this one included. -/
def faultsNow (s : State) (u : HwUnit) : Nat :=
  let f := fcOf s u
  if f.count ≠ 0 ∧ s.evr.opsec ≤ f.last + s.ras.window * 60 then f.count + 1 else 1

/-- The lode whose resource a unit is. -/
def lodeOfUnit (s : State) (u : HwUnit) : Option Nat :=
  match u.kind with
  | 5 => (s.lm.sets.find? fun t => decide (t.2.base ≤ u.num) && decide (u.num < t.2.base + t.2.count)).bind fun t => if t.2.lode = 0x7F then none else some t.2.lode
  | _ => (blockOfUnit u).bind fun b => if (blockOf s b).lode = 0x7F then none else some (blockOf s b).lode

/-- Whether a predicted retirement waits for a launch boundary (R524): a core, an engine, a block whose launch runs. -/
def mustWait (s : State) (u : HwUnit) : Bool :=
  decide (u.kind ≤ 3) && ((blockOfUnit u).map fun b => (blockOf s b).launch.isSome).getD false

/-- The `UNIT_KIND` of an event about a unit (R557): 0 for a combining entry, which has none. -/
def evKind (u : HwUnit) : Nat := if 13 < u.kind then 0 else u.kind

/-- A unit is classified permanent (R522, R523): recorded, and retired now, or at the launch boundary when it was only
predicted, or when the reset under way ends (R525). -/
def classify (u : HwUnit) (predicted : Bool) (n : Nat) (s : State) : State :=
  if (fcOf s u).retired || (fcOf s u).deferred then s else
  let s := event 0x903 5 (evKind u) u.num Err.unitRetired n (lodeOfUnit s u) s
  if inReset s u || (predicted && mustWait s u) then modFc u (fun f => { f with deferred := true }) s
  else retireUnit u s

/-- Whether a second fault in the window makes a unit permanent (R523): pseudo-channels, lanes and links have criteria of
their own instead. -/
def secondCounts (u : HwUnit) : Bool := u.kind ≠ 5 && u.kind ≠ 7 && u.kind ≠ 9

/-- Counts a fault and classifies the unit (R522). `own` is its own criterion of R523 met. -/
def countFault (u : HwUnit) (own : Bool) (detail : Nat) (s : State) : State :=
  if inReset s u || sameFault s u || (fcOf s u).retired then s else
  let n := faultsNow s u
  let s := modFc u (fun f => { f with count := n, last := s.evr.opsec, tick := some (nowTick s) }) s
  if own || (secondCounts u && decide (2 ≤ n)) then classify u false n s
  else event 0x902 3 (evKind u) u.num 0 detail (lodeOfUnit s u) s

/-- The deferred retirements of a domain whose reset ends (R525). -/
def applyDeferred (mine : HwUnit → Bool) (s : State) : State :=
  let us := (s.ras.units.filter fun t => t.2.deferred).map fun t => (⟨t.1 / 65536, t.1 % 65536⟩ : HwUnit)
  each (us.filter mine) (fun u s => if inReset s u || mustWait s u then s else retireUnit u s) s

end Sys2Proof.Machine
end

