-- ==== Sys2Proof/Machine/Engines.lean ====
section
/-! DEFINITION. Matrix engines (R90 to R125, R620): acceptance, the seven commands, completion, the time bound, gating, and the
reduction acknowledgements (R286, R287). -/
namespace Sys2Proof.Machine
open Sys2Proof

/-! ### Acceptance (R95) -/

/-- Whether an enumerated field holds a reserved encoding. -/
def meReserved (c : Nat) : Bool :=
  match cOp c with
  | 1 => decide (12 ≤ fld c 20 4) || decide (12 ≤ fld c 16 4)
  | 2 => decide (12 ≤ fld c 12 4) || decide (12 ≤ fld c 8 4)
  | 3 => decide (8 ≤ fld c 24 4) || decide (12 ≤ fld c 20 4) || decide (fld c 18 2 = 3) || decide (fld c 12 2 = 1)
  | 4 => false
  | 5 => decide (fld c 44 2 = 3)
  | 6 => decide (fld c 26 2 = 3) || decide (fld c 24 2 = 3)
  | 7 => decide (fld c 24 2 = 3)
  | _ => true

/-- The ranges a command names. -/
def meSpans (c : Nat) : List Span :=
  match cOp c with
  | 1 => [loadSrc c, loadDst c]
  | 2 => [mmaA c, mmaB c] ++ (if c.testBit 44 then [mmaAS c, mmaBS c] else []) ++ (if c.testBit 45 then [mmaMeta c] else [])
  | 3 => arDst c :: arVec c (fld c 14 2) (fld c 179 13) ++ arVec c (fld c 12 2) (fld c 166 13) ++ arScales c
  | 4 => [storeSrc c, storeDst c]
  | 5 => [trSrc c, trDst c]
  | 6 => [rsStage c, rsDst c]
  | _ => [alSrc c]

/-- Whether formats, shape and flags meet the command's rules. -/
def meFits (c : Nat) : Bool :=
  match cOp c with
  | 1 => loadFits c
  | 2 => mmaFits c
  | 3 => arFits c
  | _ => true

/-- Whether an engine serves the block's launch (`ME_PRESENT`, R124). -/
def mePresent (s : State) (b e : Nat) : Bool := !(engineOf s b e).retired && (blockOf s b).emask.testBit e

/-- The error of the acceptance checks, 0 for none, in their order. -/
def meCheck (s : State) (b e c : Nat) : Nat :=
  if meReserved c then Err.reservedEncoding
  else if !mePresent s b e then Err.meAbsent
  else if !((meSpans c).all Span.ok) || (decide (cOp c = 5) && (trSrc c).meets (trDst c)) then Err.meOperand
  else if !meFits c then Err.meFormat
  else 0

/-- An engine stops on an error (R96): its queue is discarded but for a running command that goes on, the code latched, and the block agent
ends the launch. `keep`: the running command is not the one that failed. -/
def meStop (b e err : Nat) (keep : Bool) (s : State) : State :=
  endLaunch b err [0, 0, 0, b + e * 65536] (meIdle b e (modEngine b e (fun g =>
    { g with queue := if keep then g.queue.filter (·.ran) else [], errstop := true, error := err, busy := keep && g.busy }) s))

/-- The running command of an engine is abandoned with undefined destinations, and the engine stops (R96, R118, R121). -/
def meAbandon (b e err : Nat) (s : State) : State :=
  meStop b e err false (match (engineOf s b e).queue with
    | c :: _ => scrambleDst b e c.bits s
    | [] => s)

/-- ME.ISSUE (R170): reads the command from the core's scratchpad and hands it over; stalls while eight entries are full (R94), before any
check of the command. -/
def execMeIssue (b c rd rs1 rs2 : Nat) (s : State) : Host.Outcome State Fault Refusal :=
  onCore b c s fun s =>
    let k := coreOf s b c
    let a := xOf k rs1
    let e := xOf k rs2
    match ownPad b c a 32 with
    | none => modCore b c (retireX rd Err.meOperand) s
    | some ph =>
      if a % 32 ≠ 0 ∨ 4 ≤ e then modCore b c (retireX rd Err.meOperand) s
      else match rdPhys s ph 32 with
        | .error err => endLaunch b err [] s
        | .ok bytes =>
          let bits := unle bytes
          let g := engineOf s b e
          if g.errstop then modCore b c (retireX rd g.error) s
          else if 8 ≤ g.queue.length then modCore b c (fun k => { k with wait := .meFull e }) s
          else
            let err := meCheck s b e bits
            if err ≠ 0 then meStop b e err true (modCore b c (retireX rd err) s)
            else
              let s := modEngine b e (fun g => { g with queue := g.queue ++ [{ bits := bits, issuer := c }], gated := false }) s
              modCore b c (fun k => { retireX rd 0 k with meOut := k.meOut + 1 }) s

/-! ### Performing a command -/

/-- The command at the head of an engine's queue, when it has the opcode and its units have not performed it. -/
def meHead (s : State) (b e op : Nat) : Option Nat :=
  match (engineOf s b e).queue with
  | c :: _ => if cOp c.bits = op ∧ !c.ran then some c.bits else none
  | [] => none

/-- Whether a command reads or writes cluster memory. -/
def usesCluster (c : Nat) : Bool := (meSpans c).any fun r => decide (r.space ≠ 0) && decide (r.start < 0x400000)

/-- An engine command is performed (R97: one at a time, in order of acceptance), or ends in an error (R96): of one that breaks off at
memory, the destinations are undefined. Nothing happens
when no such command is at the head (log 6), while the block issues nothing, or while a hold of R613 grants the cluster memory that the
command needs to no one (R93). -/
def meRun (b e op : Nat) (s : State) (f : Nat → State → Except Nat State) : Host.Outcome State Fault Refusal :=
  run s fun s => match meHead s b e op with
    | none => s
    | some c => if issueStopped s b ∨ ((cmaOf s b).hold ∧ usesCluster c) then s else match f c s with
      | .ok t => modEngine b e (fun g => { g with busy := true, queue := match g.queue with
          | h :: rest => { h with ran := true, etag := epochTag s (blockOf s b).lode } :: rest
          | [] => [] }) t
      | .error err => if err = Err.meTileType ∨ err = Err.meDest then meStop b e err false s else meAbandon b e err s

/-- Reads row `i` of a range. -/
def rdRow (s : State) (b e : Nat) (r : Span) (i : Nat) : Except Nat (List Byte) := rdPhys s (spaceAddr b e r.space (r.row i)) r.len

/-- Reads every row of a range. -/
def rdRows (s : State) (b e : Nat) (r : Span) : Except Nat (List (List Byte)) := (List.range r.rows).mapM (rdRow s b e r)

/-- Writes rows over a range. -/
def wrRows (b e : Nat) (r : Span) (rows : List (List Byte)) (s : State) : Except Nat State :=
  rows.zipIdx.foldlM (fun s p => wrPhys (spaceAddr b e r.space (r.row p.2)) p.1 s) s

/-- The rows of `n` elements as columns. -/
def flipRows {α : Type} (d : α) (n : Nat) (rows : List (List α)) : List (List α) :=
  (List.range n).map fun j => rows.map fun r => r.getD j d

/-- Sets flags of `ME_FLAGS`. -/
def orFlags (b e f : Nat) (s : State) : State := modEngine b e (fun g => { g with flags := g.flags ||| f }) s

/-- LOAD (R102): rows copied or widened exactly into the operand store. -/
def doLoad (b e c : Nat) (s : State) : Except Nat State :=
  let sf := fld c 20 4
  let df := fld c 16 4
  let n := fld c 24 14 + 1
  (rdRows s b e (loadSrc c)).bind fun rows =>
    let es := rows.map fun r => (unpack sf n r).map fun v => if sf = df then v else (encodeElem df 0 0 false none (decodeElem sf v 0)).1
    let out := if c.testBit 45 then flipRows 0 n es else es
    wrRows b e (loadDst c) (out.map (pack df)) s

def execMeLoad (b e : Nat) (s : State) : Host.Outcome State Fault Refusal := meRun b e 1 s (doLoad b e)

/-! #### MMA (R103 to R107) -/

def tileGet (t : Tile) (i j : Nat) : Nat := (tget 0 t.cells (i * 128 + j)).toNat

/-- Takes the elements of a list in the order that `f` gives, whatever it answers. -/
def permute {α : Type} (f : Nat → Nat) : Nat → List α → List α
  | 0, _ => []
  | n + 1, l => match l[f n % l.length]? with
    | some a => a :: permute f n (l.eraseIdx (f n % l.length))
    | none => []

/-- Whether both infinities occur. -/
def infsClash (xs : List Num) : Bool := xs.contains (.inf false) && xs.contains (.inf true)

/-- One group added to a binary32 accumulator element (R105, R106): the products already carry their scales. `bad`: a NaN
operand or scale entered the group; `inv`: an infinity met 0 in a product. Each case sets its own flag. -/
def addGroup (sat bad inv : Bool) (prods : List Num) (acc : Nat) : Nat × Nat :=
  let terms := decodeElem 0 acc 0 :: prods
  let f := (if bad then fNanIn else 0) ||| (if inv || infsClash terms then fInvalid else 0)
  if bad || (sumExact terms).isNan then (0x7FC00000, f)
  else
    let (v, o) := encodeElem 0 0 0 sat none (sumExact terms)
    (v, if o = fOsat then f ||| fOverflow else f)

/-- One group added to an INT32 element with saturation (R105, R106). -/
def addIntGroup (prods : List Num) (acc : Nat) : Nat × Nat :=
  let (v, f) := intEncode 32 0 0 (sumExact (decodeElem 10 acc 0 :: prods))
  (v, if f = fOsat then fIsat else 0)

/-- The products of group `g` of an element: the A values, the B value each meets, NaN marks (R105, R107). -/
def groupProds (sparse : Bool) (mt : List Byte) (arow bcol : List Num) (g : Nat) : List (Num × Num) :=
  if sparse then
    (List.range 16).map fun t =>
      let i := 16 * g + t
      let q := i / 2
      let nib := ((mt.getD (q / 2) 0).toNat / (if q % 2 = 0 then 1 else 16)) % 16
      let p := if i % 2 = 0 then nib % 4 else nib / 4
      (arow.getD i .nan, bcol.getD (4 * q + p) .nan)
  else (List.range 32).map fun t => (arow.getD (32 * g + t) .nan, bcol.getD (32 * g + t) .nan)

/-- The new value and flags of one element of C. -/
def mmaElem (isInt sparse mx sat : Bool) (ser kb : Nat) (mt sa sb : List Byte) (arow bcol : List Num) (acc : Nat) : Nat × Nat :=
  (permute (Config.mmaOrder ser) kb (List.range kb)).foldl (fun st g =>
    let ps := groupProds sparse mt arow bcol g
    let xa := (sa.getD g 0).toNat
    let xb := (sb.getD g 0).toNat
    let prods := ps.map fun p => if mx then (p.1.mul p.2).scale ((xa : Int) - 127 + ((xb : Int) - 127)) else p.1.mul p.2
    let bad := (ps.any fun p => p.1.isNan || p.2.isNan) || (mx && (xa == 255 || xb == 255))
    let inv := ps.any fun p => !p.1.isNan && !p.2.isNan && (p.1.mul p.2).isNan
    let r := if isInt then addIntGroup prods st.1 else addGroup sat bad inv prods st.1
    (r.1, st.2 ||| r.2)) (acc, 0)

/-- MMA (R103 to R107). The order of the groups is left open (R105): each element draws its own. -/
def doMma (b e c : Nat) (s : State) : Except Nat State :=
  let af := fld c 12 4
  let bf := fld c 8 4
  let isInt := ((mmaPair af bf).map (·.1)).getD false
  let g := engineOf s b e
  let t := fld c 42 1
  let old := tileOf g t
  if !c.testBit 43 ∧ old.int ≠ isInt then .error Err.meTileType else
  (rdRows s b e (mmaA c)).bind fun ra =>
  (rdRows s b e (mmaB c)).bind fun rb =>
  (if c.testBit 44 then rdRows s b e (mmaAS c) else .ok []).bind fun sa =>
  (if c.testBit 44 then rdRows s b e (mmaBS c) else .ok []).bind fun sb =>
  (if c.testBit 45 then rdRows s b e (mmaMeta c) else .ok []).bind fun mt =>
    let as := ra.map fun r => (unpack af (mmaAK c) r).map fun v => decodeElem af v 0
    let bs := rb.map fun r => (unpack bf (cK c) r).map fun v => decodeElem bf v 0
    let base : Tile := if c.testBit 43 then { int := isInt, cells := [] } else old
    let res := as.zipIdx.foldl (fun st ai => bs.zipIdx.foldl (fun st bj =>
      let i := ai.2
      let j := bj.2
      let r := mmaElem isInt (c.testBit 45) (c.testBit 44) g.accSat (s.free * 16384 + i * 128 + j) (cK c / 32)
        (mt.getD i []) (sa.getD i []) (sb.getD j []) ai.1 bj.1 (tileGet base i j)
      (tset 0 st.1 (i * 128 + j) (BitVec.ofNat 32 r.1), st.2 ||| r.2)) st) (base.cells, 0)
    let s := { s with free := s.free + 1 }
    .ok (orFlags b e res.2 (modEngine b e (setTile t { base with cells := res.1 }) s))

def execMeMma (b e : Nat) (s : State) : Host.Outcome State Fault Refusal := meRun b e 2 s (doMma b e)

/-! #### ACC_READ (R108 to R111, R620) -/

/-- Rounds to binary32 at nearest-even: the value, and whether it overflowed. -/
def rn32 (x : Num) : Num × Bool :=
  let (v, f) := encodeElem 0 0 0 false none x
  (decodeElem 0 v 0, f = fOsat)

/-- Step 2 or 3 of the epilogue: INVALID for a NaN that arises, OVERFLOW beyond the range (R108). -/
def epiStep (x : Num) (quiet : Bool) : Num × Nat :=
  let (v, o) := rn32 x
  (v, (if v.isNan && !quiet then fInvalid else 0) ||| (if o then fOverflow else 0))

/-! The transcendental activations (R109) are computed in fixed point with `actBits` fraction bits, far beyond binary32, and rounded once. -/

/-- Fraction bits of the computation. -/
def actBits : Nat := 1024

/-- A number in fixed point, kept within ±400: beyond that the logistic function is 0 or 1 to every bit that binary32 can show. -/
def toFix (x : Num) : Int :=
  match x with
  | .nan => 0
  | .inf n => if n then -(400 * 2 ^ actBits : Int) else 400 * 2 ^ actBits
  | .fin n m e =>
    let lim : Nat := 400 * 2 ^ actBits
    let v : Nat := if 0 ≤ e then (if 2000 < e then (if m = 0 then 0 else lim) else min lim (m * 2 ^ (e.toNat + actBits))) else min lim (m * 2 ^ actBits / 2 ^ (-e).toNat)
    if n then -(v : Int) else v

/-- e^y for a fixed-point y from 0 to 400: a Taylor polynomial at y ÷ 2^16, squared 16 times. -/
def expFix (y : Nat) : Nat :=
  let z := y / 2 ^ 16
  let p := (List.range 90).foldr (fun k acc => 2 ^ actBits + z * acc / 2 ^ actBits / (k + 1)) (2 ^ actBits)
  (List.range 16).foldl (fun v _ => v * v / 2 ^ actBits) p

/-- The logistic function 1 ÷ (1 + e^−y) in fixed point. -/
def logistic (y : Int) : Nat :=
  let x := expFix y.natAbs
  if 0 ≤ y then 2 ^ actBits * x / (2 ^ actBits + x) else 2 ^ actBits * 2 ^ actBits / (2 ^ actBits + x)

/-- The argument 2 × 0.7978845608 × (v + 0.044715 v³) of GELU's logistic form, v × logistic of it. -/
def geluArg (v : Num) : Int :=
  let x := toFix v
  let one : Int := 2 ^ actBits
  let lim : Int := 400 * one
  let y := 2 * 7978845608 * (x + 44715 * (x * x / one * x / one) / 1000000) / 10000000000
  if lim < y then lim else if y < -lim then -lim else y

/-- A fixed-point number as an exact value. -/
def ofFix (y : Int) : Num := .fin (decide (y < 0)) y.natAbs (-(actBits : Int))

/-- The formula of activation 4 to 7 at a finite value. -/
def actFormula (act : Nat) (v : Num) : Num :=
  match act with
  | 4 => v.mul (ofFix (logistic (geluArg v)))
  | 5 => v.mul (ofFix (logistic (toFix v)))
  | 6 => ofFix (logistic (toFix v))
  | _ =>
    let y := (toFix v).natAbs
    let x := expFix (min (2 * y) (400 * 2 ^ actBits))
    let t := ofFix (((x : Int) - 2 ^ actBits) * 2 ^ actBits / (x + 2 ^ actBits))
    if v.neg then t.negate else t

/-- Whether a binary32 lies within 4 units in the last place of another (R109). -/
def within4 (x r : Nat) : Bool :=
  let e : Nat := r / 2 ^ 23 % 256 - 1
  match sumExact [decodeElem 0 x 0, (decodeElem 0 r 0).negate] with
  | .fin _ m k => !(Num.fin false 4 ((e : Int) - 149)).lt (.fin false m k)
  | _ => decide (x = r)

/-- A result of an activation: any binary32 within 4 units in the last place of the correctly rounded value `x` (R109). Which one, the spec
leaves open (log 31). -/
def near4 (act bits : Nat) (x : Num) : Num :=
  let r := (encodeElem 0 0 0 false none x).1
  let c := Config.activation act bits % 2 ^ 32
  decodeElem 0 (if within4 c r then c else r) 0

/-- The activations (R109). NaN passes; infinities take the limits; a clamp whose bounds do not enclose a range is open (log 31). -/
def activate (act p0 p1 : Nat) (v : Num) : Num × Nat :=
  let lo := decodeElem 0 p0 0
  let hi := decodeElem 0 p1 0
  let bits := (encodeElem 0 0 0 false none v).1
  if v.isNan then (.nan, 0) else
  match act with
  | 0 => (v, 0)
  | 1 => (if v.neg then .fin false 0 0 else v, 0)
  | 2 => if v.neg && !v.isZero then
      let r := lo.mul v
      (if r.isNan then .nan else near4 2 bits r, if r.isNan && !lo.isNan then fInvalid else 0)
    else (v, 0)
  | 3 => if lo.isNan || hi.isNan || hi.lt lo then (decodeElem 0 (Config.activation 3 bits % 2 ^ 32) 0, 0)
    else (if v.lt lo then lo else if hi.lt v then hi else v, 0)
  | 4 | 5 => match v with
    | .inf true => (.fin ((Config.activation act bits).testBit 31) 0 0, 0)
    | .inf false => (.inf false, 0)
    | _ => (near4 act bits (actFormula act v), 0)
  | 6 => match v with
    | .inf n => (if n then .fin false 0 0 else .fin false 1 0, 0)
    | _ => (near4 6 bits (actFormula 6 v), 0)
  | _ => match v with
    | .inf n => (.fin n 1 0, 0)
    | _ => (near4 7 bits (actFormula 7 v), 0)

/-- Steps 1 to 4 of R108 for one element. -/
def epilogue (c : Nat) (isInt : Bool) (sc bi : Option Nat) (raw : Nat) : Num × Nat :=
  if isInt ∧ fld c 14 2 = 0 ∧ fld c 12 2 = 0 ∧ fld c 24 4 = 0 ∧ (intOf (arFmt c)).isSome then (decodeElem 10 raw 0, 0)
  else
    let v1 := if isInt then (rn32 (decodeElem 10 raw 0)).1 else decodeElem 0 raw 0
    let (v2, f2) := match sc with
      | some x => let m := decodeElem 0 x 0
                  epiStep (v1.mul m) (v1.isNan || m.isNan)
      | none => (v1, 0)
    let (v3, f3) := match bi with
      | some x => let m := decodeElem 0 x 0
                  epiStep (sumExact [v2, m]) (v2.isNan || m.isNan)
      | none => (v2, 0)
    let (v4, f4) := activate (fld c 24 4) (fld c 128 32) (fld c 192 32) v3
    (v4, f2 ||| f3 ||| f4)

/-- The entry of a scale or bias vector. -/
def vecEntry (mode : Nat) (v : List Byte) (i j : Nat) : Option Nat :=
  if mode = 2 then some (unle ((v.drop (4 * i)).take 4)) else if mode = 3 then some (unle ((v.drop (4 * j)).take 4)) else none

/-- The runs of 32 of a row. -/
def blocks32 {α : Type} : Nat → List α → List (List α)
  | 0, _ => []
  | _ + 1, [] => []
  | n + 1, l => l.take 32 :: blocks32 n (l.drop 32)

/-- Converts a written row (R110, R111): codes, scale bytes, flags, generator. -/
def arEncode (fmt rnd : Nat) (sat mx : Bool) (row : List Num) (gen : Nat) : List Nat × List Nat × Nat × Nat :=
  if mx then
    (blocks32 (row.length / 32 + 1) row).foldl (fun st blk =>
      let sc := mxScale fmt blk
      let (es, fs, gen) := encodeList fmt rnd sat (some sc) blk st.2.2.2
      (st.1 ++ es, st.2.1 ++ [sc], fs.foldl (· ||| ·) (st.2.2.1 ||| if sc = 255 then fNanLost else 0), gen)) ([], [], 0, gen)
  else
    let (es, fs, gen) := encodeList fmt rnd sat none row gen
    (es, [], fs.foldl (· ||| ·) 0, gen)

/-- ACC_READ: the epilogue of R108 over the tile, the conversion of R110 and R111, the layout of R620. -/
def doAccRead (b e c : Nat) (s : State) : Except Nat State :=
  let g := engineOf s b e
  let t := fld c 42 1
  let tl := tileOf g t
  let sm := fld c 14 2
  let bm := fld c 12 2
  let vec (mode line : Nat) : Except Nat (List Byte) := match arVec c mode line with
    | r :: _ => rdRow s b e r 0
    | [] => .ok []
  (vec sm (fld c 179 13)).bind fun sv =>
  (vec bm (fld c 166 13)).bind fun bv =>
    let vals := (List.range (cRows c)).map fun i => (List.range (cCols c)).map fun j =>
      epilogue c tl.int (if sm = 1 then some (fld c 64 32) else vecEntry sm sv i j) (vecEntry bm bv i j) (tileGet tl i j)
    let f1 := vals.foldl (fun f r => r.foldl (fun f x => f ||| x.2) f) 0
    let nums := vals.map fun r => r.map (·.1)
    let rows := if arTrans c then flipRows .nan (cCols c) nums else nums
    let res := rows.foldl (fun (st : List (List Byte) × List Nat × Nat × Nat) row =>
      let (es, sc, f, gen) := arEncode (arFmt c) (fld c 18 2) g.outSat (c.testBit 17) row st.2.2.2
      (st.1 ++ [padTo (arRowBytes c) (pack (arFmt c) es)], st.2.1 ++ sc, st.2.2.1 ||| f, gen)) ([], [], f1, g.gen)
    (wrRows b e (arDst c) res.1 s).bind fun s =>
    ((arScales c).foldlM (fun s r => wrPhys (spaceAddr b e r.space r.start) (res.2.1.map fun x => BitVec.ofNat 8 x) s) s).map fun s =>
      let s := modEngine b e (fun g => { g with gen := res.2.2.2 }) s
      let s := if c.testBit 45 then modEngine b e (setTile t { tl with cells := [] }) s else s
      orFlags b e res.2.2.1 s

def execMeAccRead (b e : Nat) (s : State) : Host.Outcome State Fault Refusal := meRun b e 3 s (doAccRead b e)

/-- STORE (R112). -/
def doStore (b e c : Nat) (s : State) : Except Nat State := (rdRows s b e (storeSrc c)).bind fun rows => wrRows b e (storeDst c) rows s

def execMeStore (b e : Nat) (s : State) : Host.Outcome State Fault Refusal := meRun b e 4 s (doStore b e)

/-- The elements of a row of `w` bytes each. -/
def chunks (w : Nat) : Nat → List Byte → List (List Byte)
  | 0, _ => []
  | n + 1, l => l.take w :: chunks w n (l.drop w)

/-- TRANSPOSE (R113). -/
def doTranspose (b e c : Nat) (s : State) : Except Nat State :=
  (rdRows s b e (trSrc c)).bind fun rows =>
    wrRows b e (trDst c) ((flipRows [] (cCols c) (rows.map (chunks (trWidth c) (cCols c)))).map List.flatten) s

def execMeTranspose (b e : Nat) (s : State) : Host.Outcome State Fault Refusal := meRun b e 5 s (doTranspose b e)

/-- ACC_LOAD (R114). A BF16 NaN becomes the canonical NaN (R128). -/
def doAccLoad (b e c : Nat) (s : State) : Except Nat State :=
  let ef := fld c 24 2
  (rdRows s b e (alSrc c)).map fun rows =>
    let cells := rows.zipIdx.foldl (fun t ri => (chunks (efBytes ef) (cCols c) ri.1).zipIdx.foldl (fun t vj =>
      let v := unle vj.1
      tset 0 t (ri.2 * 128 + vj.2) (BitVec.ofNat 32 (if ef = 1 then (encodeElem 0 0 0 false none (decodeElem 2 v 0)).1 else v))) t) ([] : List (Nat × BitVec 32))
    modEngine b e (setTile (fld c 42 1) { int := decide (ef = 2), cells := cells }) s

def execMeAccLoad (b e : Nat) (s : State) : Host.Outcome State Fault Refusal := meRun b e 7 s (doAccLoad b e)

/-! #### REDUCE_SEND (R115, R116, R286, R287) -/

/-- The block that a local slot names in the launch's slot list (R115). -/
def destBlock (s : State) (b slot : Nat) : Option Nat :=
  if (blockOf s b).slots.contains slot then (blocksOf s (blockOf s b).lode).find? fun k => (blockOf s k).slot = slot else none

/-- REDUCE_SEND (R115): the header, of contents internal to the device, and the rows are staged, and the stream is queued on the block DMA
engine; the engine's command ends there. -/
def doReduceSend (b e c : Nat) (s : State) : Except Nat State :=
  let g := engineOf s b e
  let t := fld c 42 1
  let tl := tileOf g t
  let ef := fld c 24 2
  if tl.int ≠ decide (ef = 2) then .error Err.meTileType else
  match destBlock s b (fld c 104 7) with
  | none => .error Err.meDest
  | some db =>
    let row (i : Nat) : List Byte := (List.range (cCols c)).flatMap fun j =>
      let v := tileGet tl i j
      if ef = 1 then le 2 (encodeElem 2 0 0 false none (decodeElem 0 v 0)).1 else le 4 v
    let head := (List.range 64).map fun i => BitVec.ofNat 8 (Config.freeNat (s.free + i))
    let s := { s with free := s.free + 64 }
    let staged := head ++ (List.range (cRows c)).flatMap fun i => padTo (alignUp (rsLen c) 64) (row i)
    let stage := spaceAddr b e 1 (fld c 111 17 * 64)
    (wrPhys stage staged s).map fun s =>
      let l := (blockOf s b).lode
      let d : Delivery := { id := s.cu.delivNext, block := b, engine := e, lode := l, etag := epochTag s l, dblock := db, bits := c, staged := staged }
      let q : Dma := {
        owner := .stream b d.id, serial := s.cu.dmaNext, kind := 7, len := staged.length, src := .phys stage, ctx := ctxOfBlock s b
        lode := l, epoch := epochTag s l, post := cPost c, sem := cSem c }
      let s := modCu (fun k => { k with deliv := k.deliv ++ [d], delivNext := k.delivNext + 1, dmaNext := k.dmaNext + 1 }) s
      let s := setDma b (dmaOf s b ++ [q]) s
      if c.testBit 45 then modEngine b e (setTile t { tl with cells := [] }) s else s

def execMeReduceSend (b e : Nat) (s : State) : Host.Outcome State Fault Refusal := meRun b e 6 s (doReduceSend b e)

/-- An acknowledgement of a line of a delivery (R286). A stale tag has it sent again once, without combining (R287, R40); another error
fails its row. -/
def execReduceAck (id line status : Nat) (s : State) : Host.Outcome State Fault Refusal :=
  run s fun s => match s.cu.deliv.find? fun d => d.id = id with
    | none => s
    | some d =>
      if !d.lines.contains line then s
      else if status = Err.staleEpoch ∧ !d.retried.contains line then
        sendLine true line id (modDeliv id (fun d => { d with retried := line :: d.retried, lines := d.lines.erase line }) s)
      else settleDeliv id (modDeliv id (fun d => { d with
        lines := d.lines.erase line, failed := if status = 0 then d.failed else d.failed ++ [(line, status)] }) s)

/-! ### Completion, bound and gating -/

/-- A performed command completes (R98): `ME_DONE`, its issuer's count, and its post but for a REDUCE_SEND's. The engine's time is charged
when it holds no command any more (R122). -/
def execMeCommandDone (b e : Nat) (s : State) : Host.Outcome State Fault Refusal :=
  run s fun s => match (engineOf s b e).queue with
    | c :: rest =>
      if !c.ran then s else
        let s := modEngine b e (fun g => { g with queue := rest, done := (g.done + 1) % 2 ^ 32, busy := false }) s
        let s := if rest.isEmpty then chargeMe (ctxOfBlock s b) s else s
        let s := if c.issuer < 32 then modCore b c.issuer (fun k => { k with meOut := k.meOut - 1 }) s else s
        if cPost c.bits ∧ cOp c.bits ≠ 6 then unitPost b (cSem c.bits) s else s
    | [] => s

/-- The bound of R118 expires: the command is abandoned, the engine stops, and the fault is counted (R523). -/
def execMeBoundExpiry (b e : Nat) (s : State) : Host.Outcome State Fault Refusal :=
  run s fun s => match (engineOf s b e).queue with
    | _ :: _ =>
      if (cmaOf s b).hold || (pregOf s (b / 12)).held then s
      else countFault ⟨2, b * 4 + e⟩ false Err.meBound (meAbandon b e Err.meBound s)
    | [] => s

/-- An engine whose queue has been empty for 256 cycles is gated (R123). -/
def execMeClockGate (b e : Nat) (s : State) : Host.Outcome State Fault Refusal :=
  run s fun s => if (engineOf s b e).queue.isEmpty then modEngine b e (fun g => { g with gated := true }) s else s

end Sys2Proof.Machine
end

