-- ==== Sys2Proof/Machine/BlockRegs.lean ====
section
/-! DEFINITION. The registers of a block window that belong to engines, cores and cluster memory (R124, R189, R617): their values, and
the writes that take effect. -/
namespace Sys2Proof.Machine
open Sys2Proof

/-- Status of an engine (`ME_STATUS`). -/
def meStatus (g : Engine) : Nat :=
  (if g.busy then 1 else 0) + (if g.errstop then 2 else 0) + (if g.gated then 4 else 0) + (if g.retired then 8 else 0) +
    g.queue.length * 256 + g.error * 65536

/-- Serviceable engines of the launch's mask (`ME_PRESENT`). -/
def presentEngines (s : State) (b : Nat) : Nat := maskOf ((List.range 4).filter fun e => mePresent s b e)

/-- Byte r of `GC_ROWS`: 0xF while the row's spare is not yet in service. -/
def rowByte (r : Row) : Nat :=
  (if r.pendingRemap then 0xF else r.failed) + (if r.spent then 16 else 0) + (if r.short then 32 else 0)

/-- The register of a block window that covers an offset: where it starts, its bytes, its value. -/
def blockReg (s : State) (b off : Nat) : Option (Nat × Nat × Nat) :=
  if 0x4000 ≤ off ∧ off < 0x4100 then
    let e := (off - 0x4000) / 64
    let base := 0x4000 + e * 64
    let g := engineOf s b e
    let o := off - base
    if 8 ≤ o ∧ o < 12 then some (base + 8, 4, meStatus g)
    else if g.retired then none
    else if o < 4 then some (base, 4, (if g.accSat then 1 else 0) + (if g.outSat then 2 else 0))
    else if 12 ≤ o ∧ o < 16 then some (base + 12, 4, g.flags)
    else if 16 ≤ o ∧ o < 20 then some (base + 16, 4, g.done)
    else if 24 ≤ o ∧ o < 32 then some (base + 24, 8, g.seed)
    else none
  else if 0x4100 ≤ off ∧ off < 0x4104 then some (0x4100, 4, presentEngines s b)
  else if 0x5000 ≤ off ∧ off < 0x5004 then
    some (0x5000, 4, ((List.range 4).map fun r => rowByte (rowOf s b r) * 2 ^ (8 * r)).sum)
  else if 0x5008 ≤ off ∧ off < 0x500C then some (0x5008, 4, presentMask s b)
  else none

/-- Bytes of the block register window as a core reads them (R164). -/
def blockRegBytes (s : State) (b off n : Nat) : List Byte :=
  (List.range n).map fun i => match blockReg s b (off + i) with
    | some (base, _, v) => BitVec.ofNat 8 (v / 256 ^ (off + i - base))
    | none => 0

/-- A write of a value to an engine register that starts at `base` (R124): other registers ignore it. -/
def writeMeReg (b base v : Nat) (s : State) : State :=
  let e := (base - 0x4000) / 64
  if base < 0x4000 ∨ 0x4100 ≤ base ∨ (engineOf s b e).retired then s else
  match base - 0x4000 - e * 64 with
  | 0 => modEngine b e (fun g => { g with accSat := v.testBit 0, outSat := v.testBit 1 }) s
  | 12 => modEngine b e (fun g => { g with flags := g.flags &&& (63 - v % 64) }) s
  | 24 => modEngine b e (fun g => { g with seed := v % 2 ^ 64, gen := v % 2 ^ 64 }) s
  | _ => s

/-- A core's store to the window (R164): the bytes it gives to each register that takes them. The other bytes of a register keep
their value; of `ME_FLAGS` they clear nothing. -/
def blockRegStore (b off : Nat) (bs : List Byte) (s : State) : State :=
  let n := bs.length
  let bases := ((List.range n).filterMap fun i => (blockReg s b (off + i)).map fun r => (r.1, r.2.1)).eraseDups
  each bases (fun r s => match blockReg s b r.1 with
    | some (base, w, v) =>
      let old := if (base - 0x4000) % 64 = 12 then 0 else v
      writeMeReg b base (unle ((List.range w).map fun i =>
        if off ≤ base + i ∧ base + i < off + n then bs.getD (base + i - off) 0 else BitVec.ofNat 8 (old / 256 ^ i))) s
    | none => s) s

end Sys2Proof.Machine
end

