-- ==== Sys2Proof/Machine/Sync.lean ====
section
/-! DEFINITION. The sync network (R277 to R282, R298): semaphores, barriers, their pages; and the arithmetic with which
reductions are merged and applied (R285). -/
namespace Sys2Proof.Machine
open Sys2Proof

/-! ### Reduction arithmetic (R285, R144) -/

/-- Max or min of two values: +0 above −0, any NaN gives NaN. -/
def pickOf (isMax : Bool) (x y : Num) : Num :=
  if x.isNan || y.isNan then .nan
  else
    let less := x.lt y || (x.isZero && y.isZero && x.neg && !y.neg)
    if less == isMax then y else x

/-- Merges two elements under `ROP` (0 sum, 1 max, 2 min) and `EFMT` (0 FP32, 1 BF16, 2 INT32). -/
def mergeElem (rop ef a b : Nat) : Nat :=
  let code := if ef = 2 then 10 else if ef = 1 then 2 else 0
  let x := decodeElem code a 0
  let y := decodeElem code b 0
  let v := if rop = 0 then sumExact [x, y] else pickOf (rop == 1) x y
  if ef = 1 then (encodeElem 2 0 0 false none (decodeElem 0 (encodeElem 0 0 0 false none v).1 0)).1
  else (encodeElem code 0 0 false none v).1

/-- The elements of a byte string. -/
def splitElems (w : Nat) : Nat → List Byte → List Nat
  | 0, _ => []
  | n + 1, l => unle (l.take w) :: splitElems w n (l.drop w)

/-- Merges two byte strings element by element. -/
def mergeBytes (rop ef : Nat) (a b : List Byte) : List Byte :=
  let w := if ef = 1 then 2 else 4
  let n := a.length / w
  (List.zipWith (mergeElem rop ef) (splitElems w n a) (splitElems w n b)).flatMap (le w)

/-! ### Grants at a hub (R279 to R281) -/

/-- A stalled core's wait is granted: the count left goes to `rd`, the instruction retires (R168). -/
def grantCore (b c rd left : Nat) (s : State) : State := modCore b c (retireX rd left) s

/-- Serves the queued waits of a semaphore in order while the value covers the first (R280). -/
def grantWaits : Nat → Nat → State → State
  | 0, _, s => s
  | fuel + 1, n, s =>
    let m := semOf s n
    match m.waits with
    | .wait b c count rd :: t =>
      if count ≤ m.value then
        grantWaits fuel n (grantCore b c rd (m.value - count) (modSem n (fun k => { k with value := k.value - count, waits := t }) s))
      else s
    | _ => s

/-- Applies a post: saturation sets `OVF` and writes a record (R279); then waits are granted. -/
def applyPost (n count : Nat) (s : State) : State :=
  let m := semOf s n
  let page := pageOf s (n / 256)
  if m.poisoned then s else
  let s := if 2 ^ 32 ≤ m.value + count then
      event 0x90B 3 8 (n / 256) 0 (n % 256) (if page.bound then some page.lode else none) (modPage (n / 256) (fun p => { p with ovf := true }) s)
    else s
  let s := modSem n (fun k => { k with value := min 0xFFFFFFFF (m.value + count) }) s
  grantWaits (m.waits.length + 1) n s

/-- Waiting records in use at a region's hub (`NOC_SYNC_STATUS`). -/
def waiters (s : State) (r : Nat) : Nat := ((s.noc.sems.filter fun t => t.1 / 16384 = r).map fun t => t.2.waits.length).sum

/-- The first message of a list that meets a test, and the others. -/
def takeFirst (f : SyncMsg → Bool) : List (Nat × SyncMsg) → Option (SyncMsg × List (Nat × SyncMsg))
  | [] => none
  | m :: t => if f m.2 then some (m.2, t) else (takeFirst f t).map fun r => (r.1, m :: r.2)

def isPost (m : SyncMsg) : Bool :=
  match m with
  | .post _ => true
  | _ => false

/-- A post reaches its hub: the oldest under way (R279). -/
def execSemPostApply (n : Nat) (s : State) : Host.Outcome State Fault Refusal :=
  run s fun s => match takeFirst isPost (semOf s n).inflight with
    | some (.post k, rest) => applyPost n k (modSem n (fun m => { m with inflight := rest }) s)
    | _ => s

/-- Whether a hub can take a message now: a wait that must queue needs a waiting record (R280). -/
def hubTakes (s : State) (n : Nat) (x : SyncMsg) : Bool :=
  let m := semOf s n
  match x with
  | .post _ => false
  | .wait _ _ count _ => decide (waiters s (n / 16384) < 2048) || m.poisoned || (m.waits.isEmpty && decide (count ≤ m.value))
  | .try _ _ _ _ => true

/-- A wait or try reaches its hub (R280): the first that the hub can take is granted or queued; with every waiting record in use a further
wait stays held at its core. -/
def execSemWaitArrive (n : Nat) (s : State) : Host.Outcome State Fault Refusal :=
  run s fun s =>
    let m := semOf s n
    match takeFirst (hubTakes s n) m.inflight with
    | some (.wait b c count rd, rest) =>
      if m.poisoned then endLaunch b Err.memUncorrected [] (modSem n (fun m => { m with inflight := rest }) s)
      else if m.waits.isEmpty ∧ count ≤ m.value then
        grantCore b c rd (m.value - count) (modSem n (fun m => { m with inflight := rest, value := m.value - count }) s)
      else modSem n (fun m => { m with inflight := rest, waits := m.waits ++ [.wait b c count rd] }) s
    | some (.try b c count rd, rest) =>
      let s := modSem n (fun m => { m with inflight := rest }) s
      if m.poisoned then endLaunch b Err.memUncorrected [] s
      else if m.waits.isEmpty ∧ count ≤ m.value then grantCore b c rd 1 (modSem n (fun m => { m with value := m.value - count }) s)
      else grantCore b c rd 0 s
    | _ => s

/-- The arrivals that complete a round: the target, or every present core of the blocks of the launch (R281). -/
def barTarget (s : State) (g b : Nat) : Nat :=
  if (barOf s g).target ≠ 0 then (barOf s g).target
  else (((List.range 96).filter fun k => (blockOf s k).launch = (blockOf s b).launch ∧ (blockOf s k).launch.isSome).map fun k =>
    ((List.range 32).filter fun c => corePresent s k c).length).sum

/-- An arrival reaches its hub (R281): the round completes when the arrivals reach the target. -/
def execBarArrivalApply (g : Nat) (s : State) : Host.Outcome State Fault Refusal :=
  run s fun s =>
    let m := barOf s g
    match m.inflight with
    | (_, b, c) :: rest =>
      let s := modBar g (fun m => { m with inflight := rest }) s
      if m.poisoned then endLaunch b Err.memUncorrected [] s
      else
        let st := m.stalled ++ [(b, c)]
        let n := barTarget s g b
        if n ≤ m.arrivals + 1 then
          let s := modBar g (fun m => { m with arrivals := m.arrivals + 1 - n, stalled := [], target := m.next }) s
          each st (fun p => modCore p.1 p.2 (retire 4)) s
        else modBar g (fun m => { m with arrivals := m.arrivals + 1, stalled := st }) s
    | [] => s

/-! ### The verbs (R278, R281, R298) -/

/-- The pages a SYNC verb names, or none when they do not exist. -/
def verbPages (region first count : Nat) : Option (List Nat) :=
  if count = 0 ∨ 64 < first + count then none
  else if region < 8 then some ((List.range count).map fun i => region * 64 + first + i)
  else if region = 0xFF then some ((List.range count).map fun i => 512 + first + i)
  else none

/-- SYNC_BIND (R278): the pages are scrubbed and join the lode when the scrub ends (R482); a retired page is never bound (R528). -/
def execSyncBind (via : Via) (gid region first count : Nat) (s : State) : Host.Outcome State Fault Refusal :=
  verb via 0x0670 s fun s => match verbPages region first count, findLive s via gid with
    | none, _ => reject via Err.cmdFormat s
    | _, .error e => reject via e s
    | some ps, .ok l =>
      if ps.any fun p => (pageOf s p).retired then reject via Err.unitRetired s
      else if ps.any fun p => (pageOf s p).bound || (pageOf s p).scrub then reject via Err.resourceBusy s
      else
        let s := each ps (fun p s => modPage p (fun k => { k with scrub := true }) (wipePage p s)) s
        startScrub 1 8 (ps.headD 0) (.syncPages ps (some l) via) s

/-- SYNC_FREE (R278). A page that the lode does not hold is no page of it. -/
def execSyncFree (via : Via) (gid region first count : Nat) (s : State) : Host.Outcome State Fault Refusal :=
  verb via 0x0671 s fun s => match verbPages region first count, findLive s via gid with
    | none, _ => reject via Err.cmdFormat s
    | _, .error e => reject via e s
    | some ps, .ok l =>
      if ps.any fun p => !((pageOf s p).bound && decide ((pageOf s p).lode = l)) then reject via Err.resourceBusy s
      else
        let s := each ps (fun p s => modPage p (fun k => { k with bound := false, lode := 0x7F, scrub := true }) (wipePage p s)) s
        startScrub 1 8 (ps.headD 0) (.syncPages ps none via) s

/-- The scrub of sync pages ended: they join the lode, or are free. -/
def pagesScrubbed (ps : List Nat) (l : Option Nat) (via : Via) (s : State) : State :=
  let s := each ps (fun p => match l with
    | some l => if (lodeOf s l).state = 0 then freePage p else modPage p (fun k => { k with scrub := false, bound := true, lode := l, ovf := false })
    | none => freePage p) s
  answer via 0 [] s

/-- BAR_ARRIVALS_SET (R281): from the next round; a group in which nobody has arrived starts its round with the new target. -/
def execBarArrivalsSet (via : Via) (gid g n : Nat) (s : State) : Host.Outcome State Fault Refusal :=
  verb via 0x0672 s fun s =>
    if 4096 ≤ g ∨ 65535 < n then reject via Err.cmdFormat s
    else match findLive s via gid with
      | .error e => reject via e s
      | .ok l =>
        if !holdsBar s l g then reject via Err.gcSem s
        else
          let s := modBar g (fun m => { m with next := n, target := if m.arrivals = 0 ∧ m.stalled.isEmpty then n else m.target }) s
          answer via 0 [] s

end Sys2Proof.Machine
end

