-- ==== Sys2Proof/Machine/DriftBase.lean ====
section
/-! DEFINITION. Drift packets: routing and credits (R317 to R326), what a destination does with a window packet (R331 to R334), and
what a response does to the request it answers (R338, R339). -/
namespace Sys2Proof.Machine
open Sys2Proof

/-! ### Ports -/

/-- Whether a port is up (`STATE` 2 or 3, R341). -/
def portUp (s : State) (p : Nat) : Bool := decide ((portOf s p).state = 2) || decide ((portOf s p).state = 3)

/-- Slots of a packet (R321): the header, its data, and the contributors of a merged reduction packet. -/
def pktSlots (p : Packet) : Nat := 1 + (p.data.length + 31) / 32 + (if 1 < p.contribs.length then 2 else 0)

/-- The receive slots of a virtual channel (R317). -/
def vcSlots (vc : Nat) : Nat :=
  match vc with
  | 2 => 2048 | 3 => 512 | 4 => 256 | 5 => 1024 | 6 => 256 | 7 => 128 | _ => 8192

/-- Credits of the common pool of a port (R318): those of no lode's units. -/
def poolSize (s : State) (p : Nat) : Nat := 8192 - 128 * ((List.range 96).map fun l => creditOf s l p).sum

/-- The lode index whose reserve a packet draws on: one sent by a lode of this chip with units on the port (R319), under a live epoch of the
lode (R37). -/
def reserveLode (s : State) (p : Nat) (k : Packet) : Option Nat :=
  if k.sdev = s.dr.devid then (findGid s k.slode).filter fun l => creditOf s l p ≠ 0 ∧ tagLive s l k.etag else none

/-- Credits free to a packet on a port (R319). A sealed-share lode without units there has none: its packets leave by the escape channel (log 46). -/
def freeCredits (s : State) (p : Nat) (k : Packet) : Nat :=
  if 2 ≤ k.vc then vcSlots k.vc - tget 0 (portOf s p).vcUse k.vc
  else
    let pool := poolSize s p - (portOf s p).poolUse
    match reserveLode s p k with
    | some l =>
      let own := creditLimit s l p - tget 0 s.lm.creditUse (l * 32 + p)
      if (lodeOf s l).sealed then own else max own pool
    | none => if k.sdev = s.dr.devid ∧ ((findGid s k.slode).map fun l => (lodeOf s l).sealed).getD false then 0 else pool

/-- Takes a packet's credits on a port (R319); the caller has checked that they are free. -/
def takeCredits (p : Nat) (k : Packet) (s : State) : State :=
  let n := pktSlots k
  if 2 ≤ k.vc then modPort p (fun t => { t with vcUse := tset 0 t.vcUse k.vc (tget 0 t.vcUse k.vc + n) }) s
  else
    let pool := modPort p (fun t => { t with poolUse := t.poolUse + n }) s
    match reserveLode s p k with
    | some l =>
      if n + tget 0 s.lm.creditUse (l * 32 + p) ≤ creditLimit s l p then
        modLm (fun m => { m with creditUse := tset 0 m.creditUse (l * 32 + p) (tget 0 m.creditUse (l * 32 + p) + n) }) s
      else pool
    | none => pool

/-- A packet leaves on a port: it goes into the replay buffer under the next sequence number (R309). -/
def launchPkt (p : Nat) (k : Packet) (s : State) : State :=
  let s := takeCredits p k s
  let seq := (portOf s p).txSeq
  let s := modPort p (fun t => { t with txSeq := t.txSeq + 1, replayBuf := t.replayBuf ++ [(seq, k)] }) s
  emit (.packet p k) s

/-- The ports of a route entry, in the order P0 to P3 (R323). -/
def routePorts (s : State) (d : Nat) : List Nat :=
  let e := tget 0 s.dr.routes d
  (List.range 4).filterMap fun k => if e.testBit (8 * k + 7) then some (fld e (8 * k) 5) else none

/-- The port a packet takes at this hop (R324, R316): adaptive for VC 0 and 1, P0 or the lowest valid port up for the others. -/
def routeOf (s : State) (k : Packet) : Option Nat :=
  let e := tget 0 s.dr.routes k.ddev
  if !e.testBit 7 then none
  else
    let ups := (routePorts s k.ddev).filter (portUp s)
    if 2 ≤ k.vc then ups.head?
    else
      let full := ups.filter fun p => (portOf s p).state = 2
      let cand := if full.isEmpty then ups else full
      cand.foldl (fun b p => match b with
        | none => some p
        | some q => if freeCredits s q k < freeCredits s p k then some p else some q) none

/-- The peer's slots of a packet that came in on a port are given back: it has been forwarded or performed (R320). -/
def giveBack (ingress : Option Nat) (k : Packet) (s : State) : State :=
  match ingress with
  | some p => emit (.credit p k.vc (pktSlots k)) s
  | none => s

/-- Whether a packet can leave on a port now: credits, and room in the replay buffer of 256 flits (R309, R319). -/
def canLeave (s : State) (p : Nat) (k : Packet) : Bool :=
  decide (pktSlots k ≤ freeCredits s p k) && decide ((portOf s p).replayBuf.length < 256)

/-- Sends a packet at this hop or leaves it waiting at its port for credits; none when no port is up (R324). A waiting packet
holds its deadline as a tick (R322). -/
def tryForward (ingress : Option Nat) (k : Packet) (s : State) : Option State :=
  (routeOf s k).map fun p =>
    if canLeave s p k then giveBack ingress k (launchPkt p k s)
    else
      let k := { k with dlrem := if k.dlrem = 0 then 0 else s.chip.tick + k.dlrem }
      modPort p (fun t => { t with waiting := t.waiting ++ [(ingress, k)] }) s

/-- A waiting packet as it leaves: its deadline is a time remaining again (R322). -/
def unwait (s : State) (k : Packet) : Packet :=
  { k with dlrem := if k.dlrem = 0 then 0 else if k.dlrem ≤ s.chip.tick then 1 else min (k.dlrem - s.chip.tick) 63487 }

/-! ### Responses (R338, R339) -/

/-- The contributors of a packet: the senders and tags it answers for. -/
def contribsOf (k : Packet) : List (Nat × Nat) := if k.contribs.isEmpty then [(k.sdev, k.rtag)] else k.contribs

/-- The first entry of a list that meets a test is changed. -/
def modFirst {α : Type} (f : α → Bool) (g : α → α) : List α → List α
  | [] => []
  | a :: t => if f a then g a :: t else a :: modFirst f g t

/-- Every packet of a sent window request has its response: the request ends (R266, R339). -/
def settleDma (u : Nat) (s : State) : State :=
  match (dmaOf s u).find? fun d => decide (d.kind = 4 ∨ d.kind = 5) && d.started && d.waitIds.isEmpty && decide (d.chunk = 0) && (decide (d.pos = d.len) || decide (d.cancel ≠ 0)) with
  | none => s
  | some d =>
    let s := setDma u ((dmaOf s u).filter fun x => x.serial ≠ d.serial) s
    if d.cancel ≠ 0 then failDma d d.cancel s else endDma d s

/-! ### Sealed buffers (R385 to R389) -/

/-- The first counter of a sealed buffer's header. -/
def sealedN (hdr : List Byte) : Nat := fld (unle hdr) 64 64

/-- The header of a sealed buffer of `total` plaintext bytes (R387). -/
def sealedHeader (n total kind : Nat) : List Byte :=
  let chunks := (total + 4095) / 4096
  le 64 (kind + (total - (chunks - 1) * 4096) * 2 ^ 16 + chunks * 2 ^ 32 + n * 2 ^ 64)

/-- Seals chunk `i` of a record's buffer and writes it with its tag; after the last one, the header (R389). -/
def sealChunk (l pos addr total : Nat) (hdr : List Byte) (i : Nat) (plain : List Byte) (s : State) : State :=
  let (c, t) := Config.gcmSeal ((sessionKey s l).getD 0) 5 (sealedN hdr + i) (hdr ++ le 8 i) plain
  let put (a : Nat) (bs : List Byte) : State → State := hostPost l a true bs (.post l pos (5, Err.hostAccess, i, 1))
  wh (i + 1 = (total + 4095) / 4096) (put addr hdr) (put (addr + 64 + total + 16 * i) t (put (addr + 64 + 4096 * i) c s))

/-- Seals every chunk that the bytes from chunk `i` on fill; the rest stays in the bounce buffer (R383). -/
def sealChunks (l pos addr total : Nat) (hdr : List Byte) : Nat → Nat → List Byte → State → State
  | 0, _, buf, s => modSec (fun k => { k with bounce := buf }) s
  | fuel + 1, i, buf, s =>
    if !buf.isEmpty && (decide (4096 ≤ buf.length) || decide (i * 4096 + buf.length = total)) then
      sealChunks l pos addr total hdr fuel (i + 1) (buf.drop 4096) (sealChunk l pos addr total hdr i (buf.take 4096) s)
    else modSec (fun k => { k with bounce := buf }) s

/-- Bytes of a sealed destination, in order from its start. -/
def sealedPut (l pos addr total : Nat) (hdr : List Byte) (off : Nat) (bs : List Byte) (s : State) : State :=
  let buf := s.sec.bounce.take (off % 4096) ++ bs
  sealChunks l pos addr total hdr (buf.length / 4096 + 2) (off / 4096) buf s

/-- Writes to the destination of a request at a byte offset: lode memory, a chip physical range, or host memory. -/
def wrSpace (l cls : Nat) (sp : DmaSpace) (off : Nat) (bs : List Byte) (s : State) : Except Nat State :=
  match sp with
  | .lode xs => wrExtents l cls (cutExtents xs off bs.length) bs s
  | .phys a => (wrPhys (a + off) bs s).map (wakeAddr (a + off))
  | .host a pos => .ok (hostPost l (a + off) true bs (.post l pos (1, Err.hostAccess, a + off, bs.length)) s)
  | .sealed a n h pos => .ok (sealedPut l pos a n h off bs s)
  | .nil => .ok s

/-- A response reaches the sender of a packet: data of a get, an acknowledgement, or an error (R339). A stale tag has the
packet sent once more under the tag in force (R40). `resend` sends it. -/
def respond (resend : Packet → State → State) (rtag typ status : Nat) (data : List Byte) (s : State) : State :=
  match s.dr.out.find? fun w => w.rtag = rtag with
  | none => s
  | some w =>
    let isIt (d : Dma) : Bool := d.waitIds.contains rtag
    match (dmaOf s w.unit).find? isIt with
    | none => modDr (fun d => { d with out := d.out.filter fun x => x.rtag ≠ rtag }) s
    | some d =>
      if typ = 5 ∧ status = Err.staleEpoch ∧ !w.retried ∧ (lodeOf s d.lode).state ≠ 0 then
        let k := { w.pkt with etag := epochTag s d.lode }
        resend k (modDr (fun d => { d with out := d.out.map fun x => if x.rtag = rtag then { x with retried := true, pkt := k } else x }) s)
      else
        let s := modDr (fun d => { d with out := d.out.filter fun x => x.rtag ≠ rtag }) s
        let (err, s) := if typ = 5 then (status, s) else if typ = 3 then settle s (wrSpace d.lode d.cls d.dst w.dstOff data s) else (0, s)
        let lost := if d.kind = 4 then w.pkt.offset else d.dstVa + w.dstOff
        let s := setDma w.unit (modFirst isIt (fun d => { d with
          waitIds := d.waitIds.filter (· ≠ rtag)
          failed := if err = 0 then d.failed else d.failed ++ [(err, lost, w.pkt.len)]
          cancel := if d.cancel = 0 then err else d.cancel }) (dmaOf s w.unit)) s
        settleDma w.unit s

/-! ### What a destination does (R331 to R334) -/

/-- The error of checks 1 to 5 of R331, 0 for none. `LEN` counts the data bytes here. -/
def winCheck (s : State) (k : Packet) : Nat :=
  let w := rwinOf s k.winid
  let kind := if k.typ = 7 then 1 else if k.typ = 6 then 2 else 0
  if !w.valid || w.closing || decide (w.kind ≠ kind) then Err.winUnknown
  else if decide (k.slode ≠ w.allowLode) || decide (k.sdev &&& w.devMask ≠ w.allowDev &&& w.devMask) then Err.winDenied
  else if !(if k.typ = 2 then w.r else if k.typ = 6 then w.w && w.a else w.w) then Err.winDenied
  else if decide (k.slode = (lodeOf s w.lode).gid) && !tagLive s w.lode k.etag then Err.staleEpoch
  else if (w.len256 + 1) * 256 < k.offset + k.len then Err.winRange
  else 0

/-- A semaphore put posts each named semaphore of the window's context, live in the hub or saved (R333). -/
def putSem (w : RWin) (n count : Nat) (s : State) : State :=
  if (schedOf s w.lode).running = w.ctx then applyPost n count s
  else modCtx w.ctx (fun x => { x with sems := tmod {} x.sems n fun m => { m with value := min 0xFFFFFFFF (m.value + count) } }) s

/-- Performs a window packet that has passed the checks: its data for a get, and the error of check 6. -/
def winPerform (k : Packet) (s : State) : Nat × List Byte × State :=
  let w := rwinOf s k.winid
  let a := w.laddr + k.offset
  if k.typ = 7 then
    (0, [], each (List.range (k.data.length / 8)) (fun i =>
      putSem w (w.semBase + k.offset / 8 + i) (countOf (unle ((k.data.drop (8 * i)).take 2)))) s)
  else if k.typ = 2 then
    match rdLode s w.lode a k.len with
    | .ok d => (0, d, touchLode w.lode a k.len k.cls false s)
    | .error e => (e, [], s)
  else if k.typ = 6 then
    match rdLode s w.lode a k.len with
    | .ok d =>
      let r := settle s (storeLode w.lode a k.cls (mergeBytes (k.winid / 4 % 4) (k.winid % 4) d k.data) s)
      (r.1, [], r.2)
    | .error e => (e, [], s)
  else
    let r := settle s (storeLode w.lode a k.cls k.data s)
    (r.1, [], r.2)

/-- The response packets to a window packet: one for each contributor (R338). -/
def responses (s : State) (k : Packet) (typ status : Nat) (data : List Byte) : List Packet :=
  (contribsOf k).map fun c =>
    { typ := typ, vc := 2, ddev := c.1, sdev := s.dr.devid, slode := k.slode, etag := k.etag, cls := k.cls, rtag := c.2
      winid := k.winid, offset := k.offset, len := data.length, status := status, data := data }

/-- Receives a window packet: the checks, the access, and the responses to send (R331). -/
def winReceive (k : Packet) (s : State) : List Packet × State :=
  let e := winCheck s k
  if e ≠ 0 then (responses s k 5 e [], s)
  else
    let (e, data, s) := winPerform k s
    (responses s k (if e ≠ 0 then 5 else if k.typ = 2 then 3 else 4) e data, s)

/-- Sends a response: to this module's own request at once, otherwise by its route; one that finds no port is lost (R324). -/
def sendResponse (r : Packet) (s : State) : State :=
  if r.ddev = s.dr.devid then respond (fun _ s => s) r.rtag r.typ r.status r.data s
  else (tryForward none r s).getD s

/-- A packet that cannot go on: each contributor of a request gets a negative acknowledgement (R324, R338). -/
def nack (k : Packet) (err : Nat) (s : State) : State :=
  if k.typ = 1 ∨ k.typ = 2 ∨ k.typ = 6 ∨ k.typ = 7 then each (responses s k 5 err []) sendResponse s else s

/-- Sends a request packet of this module: delivered here when it names this module, routed otherwise (R323, R324). -/
def sendPacket (k : Packet) (s : State) : State :=
  if k.ddev = s.dr.devid then
    let (rs, s) := winReceive k s
    each rs sendResponse s
  else match tryForward none k s with
    | some t => t
    | none => nack k Err.drUnreachable s

/-- A response as its module performs it, resending under R40. -/
def takeResponse (rtag typ status : Nat) (data : List Byte) (s : State) : State := respond sendPacket rtag typ status data s

end Sys2Proof.Machine
end

