-- ==== Sys2Proof/Machine/Dma.lean ====
section
/-! DEFINITION. DMA requests (R171 to R174, R147 to R155, R265, R266, R328, R329): issue by a core, the chunks of copies,
conversions and fills, and the packets of window requests. -/
namespace Sys2Proof.Machine
open Sys2Proof

/-! ### Request fields (R172) -/

def qKind (q : Nat) : Nat := fld q 0 4
def qTarget (q : Nat) : Nat := fld q 16 4
def qSem (q : Nat) : Nat := fld q 46 17
def qPost (q : Nat) : Bool := q.testBit 63
def qFill (q : Nat) : Nat := fld q 64 64
def qSrc (q : Nat) : Nat := fld q 128 64
def qDst (q : Nat) : Nat := fld q 192 64
def qLen (q : Nat) : Nat := fld q 256 32
def qConv (q : Nat) : Nat := fld q 288 16
def qWin (q : Nat) : Nat := fld q 324 12
def qDev (q : Nat) : Nat := fld q 336 16

/-! ### Ends -/

/-- A request leaves its unit's queue. -/
def dropReq (u : Nat) (d : Dma) (s : State) : State := setDma u ((dmaOf s u).filter fun x => x.serial ≠ d.serial) s

/-- A request leaves its queue and ends in an error. -/
def stopReq (u : Nat) (d : Dma) (err : Nat) (s : State) : State := failDma d err (dropReq u d s)

/-- A request that holds a stale descriptor ends with `E_OBJECT_FREED`; one that has not begun performs nothing and has no failed
ranges (R229). -/
def staleReq (u : Nat) (d : Dma) (s : State) : State :=
  let s := dropReq u d s
  if d.started then failDma d Err.objectFreed s
  else match d.owner with
    | .core b _ => endLaunch b Err.objectFreed [] s
    | .record l pos => finishRec l pos Err.objectFreed s
    | .firmware _ | .stream _ _ => s

/-- The TLB entry of a context's page. -/
def tlbFind (k : Core) (ctx va : Nat) : Option TlbEntry :=
  k.tlb.find? fun e => decide (e.ctx = ctx) && decide (e.page = va / leafSize e.level)

/-- A core's TLB gives up its entry for a DVA. -/
def tlbDrop (ctx va : Nat) (k : Core) : Core := { k with tlb := k.tlb.filter fun e => !(decide (e.ctx = ctx) && decide (e.page = va / leafSize e.level)) }

/-- A fault met by a core at an access or at DMA.ISSUE (R233, R234, R237): it is recorded; the core waits for the reply, after which it walks
again, or the launch ends. -/
def coreFault (b c : Nat) (dma : Bool) (stop : Stop) (access va : Nat) (s : State) : State :=
  match launchOf s b with
  | none => s
  | some (l, pos, ctx) =>
    let agent := if dma then FaultAgent.coreDma b c else .coreAccess b c
    let (n, s) := stopFault l agent stop access ctx pos va (coreOf s b c).pc.toNat s
    let s := modCore b c (fun k => tlbDrop ctx va { k with resv := none }) s
    if !resumable stop.1 then endLaunch b (stopCode stop.1) [] s
    else if faultWaits s l then modCore b c (fun k => { k with wait := .fault n }) s
    else endLaunch b Err.xlFault [] s

/-! ### Ranges a core's requests touch (R251) -/

/-- The ranges of one end of a transfer: whether it lies in lode memory, start, length. -/
def spaceRanges (sp : DmaSpace) (n : Nat) : List (Bool × Nat × Nat) :=
  match sp with
  | .lode xs => (cutExtents xs 0 n).map fun x => (true, x.1, x.2)
  | .phys a => [(false, a, n)]
  | _ => []

/-- The source and destination ranges of a request, with its arrays. -/
def reqRanges (d : Dma) : List (Bool × Nat × Nat) :=
  spaceRanges d.src d.len ++ spaceRanges d.dst d.dlen ++ spaceRanges d.sscale (2 ^ 41) ++ spaceRanges d.dscale (2 ^ 41)

def rangesMeet (xs ys : List (Bool × Nat × Nat)) : Bool :=
  xs.any fun x => ys.any fun y => x.1 == y.1 && decide (x.2.1 < y.2.1 + y.2.2) && decide (y.2.1 < x.2.1 + x.2.2)

/-- The requests of a core that are outstanding, on any unit. -/
def coreReqs (s : State) (b c : Nat) : List Dma := (s.cu.dma.flatMap fun t => t.2).filter fun d => decide (d.owner = .core b c)

/-- Whether a range meets an outstanding request of the core. -/
def meetsDma (s : State) (b c : Nat) (xs : List (Bool × Nat × Nat)) : Bool := (coreReqs s b c).any fun d => rangesMeet xs (reqRanges d)

/-- Whether a request must wait for an earlier one of its core that it overlaps (R251). -/
def reqBlocked (s : State) (d : Dma) : Bool :=
  match d.owner with
  | .core b c => (coreReqs s b c).any fun x => decide (x.serial < d.serial) && rangesMeet (reqRanges d) (reqRanges x)
  | _ => false

/-! ### DMA.ISSUE (R171, R173) -/

/-- Whether an address is usable for `n` bytes by a DMA request (R173 order 2): a device virtual range, or one populated range of the
block's own memories. -/
def reqPlace (s : State) (b c a n : Nat) : Option DmaSpace :=
  match placeOf s b c a n with
  | .virt _ => some .nil
  | .phys p => if a < 0xFFFFFFFFFF000000 then some (.phys p) else none
  | _ => none

/-- R173 order 1. -/
def reqReserved (q : Nat) : Bool :=
  decide (qKind q = 0) || decide (6 ≤ qKind q) || decide (5 ≤ qTarget q) || (decide (4 ≤ qKind q) && decide (2 ^ 14 ≤ qDev q))

/-- Destination bytes of a request. -/
def reqDlen (q c : Nat) : Nat := if qKind q = 2 then cvDlen c (qLen q) else qLen q

/-- R173 order 2, but for the request's own address. -/
def reqOk (s : State) (b c q cv : Nat) : Bool :=
  let k := qKind q
  let n := qLen q
  decide (n ≠ 0) && (decide (k ≠ 2) || (decide (qTarget q ≠ 0) && decide (qConv q % 32 = 0))) &&
    (decide (k ≠ 3) || (decide (n % 8 = 0) && decide (qDst q % 8 = 0))) &&
    (decide (k = 3) || (if k = 5 then decide (qSrc q < 2 ^ 40) else (reqPlace s b c (qSrc q) n).isSome)) &&
    (if k = 4 then decide (qDst q < 2 ^ 40) else (reqPlace s b c (qDst q) (max 1 (reqDlen q cv))).isSome)

/-- Equally spaced runs of bytes: start, stride, how many, and the length of each. Rows of an array, or one run of data. -/
structure Runs where
  at'    : Nat
  stride : Nat := 0
  count  : Nat := 1
  len    : Nat
deriving DecidableEq, Repr

/-- Whether a run of bytes shares one with equally spaced runs: the first run that ends after its start is the one to look at. -/
def Runs.hits (r : Runs) (a n : Nat) : Bool :=
  let i := if r.stride = 0 ∨ a < r.at' + r.len then 0 else (a - r.at' - r.len) / r.stride + 1
  decide (0 < n) && decide (0 < r.len) && decide (i < r.count) && decide (a < r.at' + r.stride * i + r.len) && decide (r.at' + r.stride * i < a + n)

/-- Whether two sets of runs share a byte. -/
def Runs.meet (x y : Runs) : Bool :=
  y.hits x.at' (x.stride * (x.count - 1) + x.len) && (List.range x.count).any fun i => y.hits (x.at' + x.stride * i) x.len

/-- What a converting request reads and writes, by the addresses it gives: R151 order 4. The rows of an array leave out the bytes between
them. -/
def cvArrays (c src len dst : Nat) : List Runs × List Runs :=
  let v := convOf c
  let ss := if v.ss then [⟨cvSva c, cvSstride c, cvRows c len, cvElems c / 32⟩] else []
  let da := [⟨cvDva c, cvDstride c, cvRows c len, cvElems c / 32⟩]
  (⟨src, 0, 1, len⟩ :: ss ++ (if v.ds = 2 then da else []), ⟨dst, 0, 1, cvDlen c len⟩ :: (if v.ds = 1 then da else []))

/-- The checks of R151, with the reserved-encoding check before them. -/
def cvCheck (c src len dst : Nat) : Nat :=
  let v := convOf c
  if v.check ≠ 0 then v.check
  else if !cvShapeOk c len then Err.convShape
  else if (v.ss ∧ (cvSva c % 64 ≠ 0 ∨ 2 ^ 55 < cvSva c + cvSspan c len)) ∨
      (v.ds ≠ 0 ∧ (cvDva c % 64 ≠ 0 ∨ 2 ^ 55 < cvDva c + cvDspan c len)) then Err.convScale
  else
    let (rs, ws) := cvArrays c src len dst
    if ws.any fun w => rs.any (Runs.meet w) then Err.convOverlap else 0

/-- Translates one resource of a request: its space, or where the walk stops. -/
def reqSpace (s : State) (b c : Nat) (look : Look) (a n access : Nat) : Except (Stop × Nat) DmaSpace :=
  match reqPlace s b c a n with
  | some (.phys p) => .ok (.phys p)
  | _ => (extents s look a n access).map .lode

/-- The spaces of a request in the order of its fields: source, destination, scale arrays (R173 order 4). -/
def reqSpaces (s : State) (b c : Nat) (look : Look) (q cv : Nat) : Except ((Stop × Nat) × Nat) (DmaSpace × DmaSpace × DmaSpace × DmaSpace) :=
  let k := qKind q
  let v := convOf cv
  let get (a n access : Nat) : Except ((Stop × Nat) × Nat) DmaSpace := (reqSpace s b c look a n access).mapError fun e => (e, access)
  (if k = 3 ∨ k = 5 then .ok .nil else get (qSrc q) (qLen q) 0).bind fun src =>
  (if k = 4 then .ok .nil else get (qDst q) (reqDlen q cv) 1).bind fun dst =>
  (if k = 2 ∧ v.ss then get (cvSva cv) (cvSspan cv (qLen q)) 0 else .ok .nil).bind fun ss =>
  (if k = 2 ∧ v.ds ≠ 0 then get (cvDva cv) (cvDspan cv (qLen q)) (if v.ds = 1 then 1 else 0) else .ok .nil).map fun ds => (src, dst, ss, ds)

/-- The resources that a request names in lode memory: DVA, length, access. -/
def reqNames (s : State) (b c q cv : Nat) : List (Nat × Nat × Nat) :=
  let k := qKind q
  let v := convOf cv
  ((if k = 3 ∨ k = 5 then [] else [(qSrc q, qLen q, 0)]) ++ (if k = 4 then [] else [(qDst q, reqDlen q cv, 1)]) ++
    (if k = 2 ∧ v.ss then [(cvSva cv, cvSspan cv (qLen q), 0)] else []) ++
    (if k = 2 ∧ v.ds ≠ 0 then [(cvDva cv, cvDspan cv (qLen q), if v.ds = 1 then 1 else 0)] else [])).filter fun r =>
      match reqPlace s b c r.1 r.2.1 with
      | some (.phys _) => false
      | _ => true

/-- R173 order 5: a resource that needs more than 16 extents. -/
def overExtents (sp : DmaSpace × DmaSpace × DmaSpace × DmaSpace) : Bool :=
  [sp.1, sp.2.1, sp.2.2.1, sp.2.2.2].any fun x => match x with
    | .lode xs => decide (16 < xs.length)
    | _ => false

/-- The absolute deadline a request of a class carries (R176, R293): 0 for none and for classes that are not real-time. -/
def carried (s : State) (cls : Nat) (dl : Option Nat) : Nat :=
  if (tget {} s.img.applied.classes (tagClass s cls)).kind = 2 then dl.getD 0 else 0

/-- The unit a request goes to (R172, R527). -/
def reqUnit (s : State) (b target : Nat) : Option Nat :=
  if target = 0 then some b else (rdmaFor s (b / 12) (target - 1)).map fun e => 96 + b / 12 * 4 + e

/-- Queues an accepted request on its unit (R174). -/
def queueReq (b c q cv u l ctx : Nat) (sp : DmaSpace × DmaSpace × DmaSpace × DmaSpace) (s : State) : State :=
  let k := coreOf s b c
  let d : Dma := {
    owner := .core b c, serial := s.cu.dmaNext, kind := qKind q, len := qLen q, src := sp.1, dst := sp.2.1
    srcVa := qSrc q, dstVa := qDst q, dlen := reqDlen q cv, ctx := ctx, lode := l, epoch := epochTag s l, cls := k.tag
    deadline := carried s k.tag k.deadline, fill := qFill q, post := qPost q, sem := qSem q, conv := cv, convAt := qConv q
    sscale := sp.2.2.1, dscale := sp.2.2.2, devid := qDev q, winid := qWin q
    arrLen := if qKind q = 2 ∧ (convOf cv).ds = 1 then cvDspan cv (qLen q) else 0, arrVa := cvDva cv, gen := cvSeed cv }
  let s := modCu (fun k => { k with dmaNext := k.dmaNext + 1 }) s
  setDma u (dmaOf s u ++ [d]) s

/-- DMA.ISSUE. -/
def execDmaIssue (b c rd rs1 : Nat) (s : State) : Host.Outcome State Fault Refusal :=
  onCore b c s fun s =>
    let k := coreOf s b c
    let a := xOf k rs1
    let ret (err : Nat) : State := modCore b c (retireX rd err) s
    if 8 ≤ k.dmaOut then modCore b c (fun k => { k with wait := .dmaFull }) s
    else match ownPad b c a 64, launchOf s b with
    | some ph, some (l, _, ctx) =>
      match rdPhys s ph 64 with
      | .error e => endLaunch b e [] s
      | .ok bytes =>
        let q := unle bytes
        match rdPhys s (blockBase b + 0x400000 + c * 0x10000 + qConv q / 32 * 32) (if qKind q = 2 then 32 else 0) with
        | .error e => endLaunch b e [] s
        | .ok cb =>
          let cv := unle cb
          if reqReserved q then ret Err.reservedEncoding
          else if a % 64 ≠ 0 ∨ !reqOk s b c q cv then ret Err.gcDma
          else
            let e := if qKind q = 2 then cvCheck cv (qSrc q) (qLen q) (qDst q) else 0
            if e ≠ 0 then ret e
            else
              let (v, s) := draw s
              let ret (err : Nat) (s : State) : State := modCore b c (retireX rd err) s
              let t := each (reqNames s b c q cv) (fun r => noteWalks b k.tag v ctx r.1 r.2.1 r.2.2) s
              match reqSpaces s b c (walkAs s b v ctx) q cv with
              | .error ((stop, va), access) => coreFault b c true stop access va t
              | .ok sp => if overExtents sp then ret Err.extentLimit t else match reqUnit s b (qTarget q) with
                | none => endLaunch b Err.unitRetired [] (ret 0 t)
                | some u => modCore b c (fun k => { retireX rd 0 k with dmaOut := k.dmaOut + 1 }) (queueReq b c q cv u l ctx sp t)
    | _, _ => ret Err.gcDma

/-! ### Chunks (R174, R226) -/

/-- The request a unit works on: the first that is not only waiting for responses. -/
def dmaHead (s : State) (u : Nat) : Option Dma :=
  (dmaOf s u).find? fun d => !(decide (d.kind = 4 ∨ d.kind = 5) && (decide (d.pos = d.len) || decide (d.cancel ≠ 0)) && decide (d.chunk = 0))

/-- The request on which a unit can start a chunk of a kind. -/
def chunkReady (s : State) (u kind : Nat) : Option Dma :=
  (dmaHead s u).filter fun d => decide (d.kind = kind) && decide (d.chunk = 0) && (d.waitIds.isEmpty || decide (3 < kind)) && !reqBlocked s d

/-- Changes a request in its queue. -/
def modReq (u : Nat) (d : Dma) (f : Dma → Dma) (s : State) : State :=
  setDma u ((dmaOf s u).map fun x => if x.serial = d.serial then f x else x) s

/-- Does a chunk with the bounce buffer holding what the request left there, and notes what it holds after (R383). -/
def bounced (u : Nat) (d : Dma) (r : State → Except Nat State) (s : State) : Except Nat State :=
  (r (modSec (fun k => { k with bounce := d.bufD }) s)).map fun s =>
    let rest := s.sec.bounce
    modReq u d (fun x => { x with bufN := rest }) (modSec (fun k => { k with bounce := [] }) s)

/-- Whether a unit starts no chunk now: its block is held (R516, R613) or being reset, or its region is (R545, R546). -/
def unitHeld (s : State) (u : Nat) : Bool :=
  if u < 96 then (cmaOf s u).hold || issueStopped s u || (blockOf s u).resetting else (regionOf s ((u - 96) / 4)).resetting

/-- Whether a request reaches a granule in Cutover: its accesses are held until the end-of-forward marker (R48). -/
def reqHeld (s : State) (d : Dma) : Bool :=
  [d.src, d.dst, d.sscale, d.dscale].any fun sp => match sp with
    | .lode xs => xs.any fun x => inCutover s d.lode x.1 x.2
    | _ => false

/-- Whether a conversion, or a transfer that meets one, waits for another whose destination it overlaps (R156): each line then holds the bytes
of one of them, as the model lets them write one after the other (log 24). -/
def writeWaits (s : State) (d : Dma) : Bool :=
  let dest (x : Dma) : List (Bool × Nat × Nat) := spaceRanges x.dst x.dlen ++ if x.arrLen = 0 then [] else spaceRanges x.dscale (2 ^ 41)
  (s.cu.dma.flatMap (·.2)).any fun x =>
    decide (x.serial ≠ d.serial) && x.started && (!d.started || decide (x.serial < d.serial)) && decide (x.lode = d.lode) &&
      (decide (x.kind = 2) || decide (d.kind = 2)) && decide (x.kind ≤ 3) && rangesMeet (dest x) (dest d)

/-- The pieces of lode memory of the chunk that a request is about to do. -/
def chunkPieces (d : Dma) : List (Nat × Nat) := (chunkData d).flatMap (·.2.1)

/-- A unit's master resolves the granules of the chunk that a request is about to do (R195) and pays for it (R290); the masters of the region
DMA engines follow the blocks' in the order of R73. -/
def resolveChunk (u : Nat) (d : Dma) (s : State) : State :=
  each (chunkPieces d) (fun x s => payReq u d.lode d.cls x.2 (resolveGrans u d.lode x.1 x.2 s)) s

/-- A unit performs a chunk: nothing without a request of the kind that can start one (log 6), or while the unit is held. -/
def dmaRun (u kind : Nat) (s : State) (f : Dma → State → Except Nat State) : Host.Outcome State Fault Refusal :=
  run s fun s => match chunkReady s u kind with
    | none => s
    | some d =>
      if unitHeld s u ∨ reqHeld s d ∨ sealedWaits s u d.lode ((chunkPieces d).map (·.2)).sum ∨ (kind ≤ 3 ∧ writeWaits s d) then s
      else if d.stale then staleReq u d s
      else if d.cancel ≠ 0 ∧ kind ≤ 3 then stopReq u d d.cancel s
      else match bounced u d (f d) (resolveChunk u d (modReq u d (fun x => { x with started := true, epoch := epochTag s d.lode }) s)) with
        | .ok t => t
        | .error e => stopReq u { d with started := true } e s

/-- Charges the bytes of one end of a transfer (R450). -/
def chargeSpace (ctx : Nat) (sp : DmaSpace) (n : Nat) (s : State) : State :=
  match sp with
  | .lode _ => chargeHbm ctx n s
  | .host _ _ | .sealed _ _ _ _ => chargeHost ctx n s
  | _ => s

/-- Reads bytes of one end of a transfer that lies in the chip. -/
def rdSpace (s : State) (l : Nat) (sp : DmaSpace) (off n : Nat) : Except Nat (List Byte) :=
  match sp with
  | .lode xs => rdExtents s l (cutExtents xs off n)
  | .phys a => rdPhys s (a + off) n
  | _ => .ok (List.replicate n 0)

/-- The lines a read brings into the cache, or the block it wakes (R498). -/
def touchSpace (l cls : Nat) (sp : DmaSpace) (off n : Nat) (s : State) : State :=
  match sp with
  | .lode xs => each (cutExtents xs off n) (fun x => touchLode l x.1 x.2 cls false) s
  | .phys a => wakeAddr (a + off) s
  | _ => s

/-- Asks for the ciphertext of the chunks of a sealed buffer that hold a range of its plaintext (R388). -/
def sealedRead (l addr total : Nat) (hdr : List Byte) (off n : Nat) (next : HostReadFor) (s : State) : State :=
  let first := off / 4096
  let stop := min total (((off + n - 1) / 4096 + 1) * 4096)
  hostRead l (addr + 64 + first * 4096) (stop - first * 4096) (.cipher l addr total hdr first (off - first * 4096) n next) s

/-- Asks for a range of an end that lies in host memory; none for another end. -/
def fetchHost (l : Nat) (sp : DmaSpace) (off n : Nat) (next : HostReadFor) (s : State) : Option State :=
  match sp with
  | .host a _ => some (hostRead l (a + off) n next s)
  | .sealed a total hdr _ => some (sealedRead l a total hdr off n next s)
  | _ => none

/-- Stores the data of a copy's chunk and notes the chunk. -/
def copyChunk (u : Nat) (d : Dma) (bs : List Byte) (s : State) : Except Nat State :=
  (wrSpace d.lode d.cls d.dst d.pos bs s).map fun s =>
    modReq u d (fun x => { x with chunk := bs.length, chunkD := bs.length, waitIds := [] })
      (chargeSpace d.ctx d.dst bs.length (chargeSpace d.ctx d.src bs.length s))

/-- A copy's chunk of 4 KiB (R174). Host data is asked for, and stored when HOST_READ_COMPLETION brings it (R369). -/
def doCopy (u : Nat) (d : Dma) (s : State) : Except Nat State :=
  let n := min 4096 (d.len - d.pos)
  match fetchHost d.lode d.src d.pos n (.dma u d.serial d.pos n) s with
  | some t => .ok (modReq u d (fun x => { x with waitIds := [s.hp.readNext] }) t)
  | none => (rdSpace s d.lode d.src d.pos n).bind fun bs => copyChunk u d bs (touchSpace d.lode d.cls d.src d.pos n s)

def execDmaCopy (u : Nat) (s : State) : Host.Outcome State Fault Refusal := dmaRun u 1 s (doCopy u)

/-- A fill's chunk (R172). -/
def doFill (u : Nat) (d : Dma) (s : State) : Except Nat State :=
  let n := min 4096 (d.len - d.pos)
  let pat := le 8 d.fill
  (wrSpace d.lode d.cls d.dst d.pos ((List.range n).map fun i => pat.getD (i % 8) 0) s).map fun s =>
    modReq u d (fun x => { x with chunk := n, chunkD := n }) (chargeSpace d.ctx d.dst n s)

def execDmaFill (u : Nat) (s : State) : Host.Outcome State Fault Refusal := dmaRun u 3 s (doFill u)

/-! ### Conversion (R149 to R155) -/

/-- Converts one piece of a row: reads its elements and array bytes, writes destination and array. The state carries the flags and
the generator of the chunk. -/
def cvPiece (d : Dma) (src : Option (Nat × List Byte)) (st : State × Nat × Nat) (p : Nat × Nat × Nat) : Except Nat (State × Nat × Nat) :=
  let (s, fl, gen) := st
  let c := d.conv
  let v := convOf c
  let (r, lo, hi) := p
  let so := cvSrcAt c (r, lo)
  let sn := (hi - lo) * fmtBits v.sf / 8
  let nb := (hi - lo) / 32
  let arr (used : Bool) (sp : DmaSpace) (stride : Nat) : Except Nat (List Nat) :=
    if used then (rdSpace s d.lode sp (stride * r + lo / 32) nb).map fun bs => bs.map (·.toNat) else .ok []
  let touch (used : Bool) (sp : DmaSpace) (stride : Nat) (s : State) : State := wh used (touchSpace d.lode d.cls sp (stride * r + lo / 32) nb) s
  (match src with
    | some (base, bs) => Except.ok ((bs.drop (so - base)).take sn)
    | none => rdSpace s d.lode d.src so sn).bind fun raw =>
  (arr v.ss d.sscale (cvSstride c)).bind fun sa =>
  (arr (decide (v.ds = 2)) d.dscale (cvDstride c)).bind fun da =>
    let s := touch (decide (v.ds = 2)) d.dscale (cvDstride c) (touch v.ss d.sscale (cvSstride c) s)
    let (es, sc, f, gen) := v.row (unpack v.sf (hi - lo) raw) sa da gen
    let out := pack v.df es
    let out := if hi = cvElems c then padTo (cvDrow c - lo * fmtBits v.df / 8) out else out
    (wrSpace d.lode d.cls d.dst (cvDstAt c (r, lo)) out s).bind fun s =>
    (if v.ds = 1 then wrSpace d.lode d.cls d.dscale (cvDstride c * r + lo / 32) (sc.map fun x => BitVec.ofNat 8 x) s else Except.ok s).map fun s =>
      (s, fl ||| f, gen)

/-- The end of the chunk that a conversion is about to do. -/
def cvEnd (d : Dma) : Nat × Nat := cvNext d.conv d.len d.pos

/-- A conversion's chunk, up to the next stop point. `src` is its data when the source is host memory. -/
def cvChunk (u : Nat) (d : Dma) (src : Option (Nat × List Byte)) (s : State) : Except Nat State :=
  let c := d.conv
  let q := cvEnd d
  let n := cvSrcAt c q - d.pos
  let m := cvDstAt c q - d.moved
  ((cvPieces c (cvPoint c d.pos) q).foldlM (cvPiece d src) (touchSpace d.lode d.cls d.src d.pos n s, 0, d.gen)).map fun st =>
    modReq u d (fun x => { x with
      chunk := n, chunkD := m, chunkA := if d.arrLen = 0 then 0 else cvArrAt c q, chunkF := st.2.1, chunkG := st.2.2, waitIds := [] })
      (chargeSpace d.ctx d.dst m (chargeSpace d.ctx d.src n st.1))

def doConvert (u : Nat) (d : Dma) (s : State) : Except Nat State :=
  let n := cvSrcAt d.conv (cvEnd d) - d.pos
  match fetchHost d.lode d.src d.pos n (.dma u d.serial d.pos n) s with
  | some t => .ok (modReq u d (fun x => { x with waitIds := [s.hp.readNext] }) t)
  | none => cvChunk u d none s

def execDmaConvert (u : Nat) (s : State) : Host.Outcome State Fault Refusal := dmaRun u 2 s (doConvert u)

/-! ### Window requests (R265, R266, R328, R329) -/

/-- The checks of R329 and R303 before any byte is sent. -/
def winRequestErr (s : State) (d : Dma) (off : Nat) : Nat :=
  if !s.dr.assigned then Err.drNoDevid
  else if d.kind = 5 then (if 0xF00 ≤ d.winid then Err.winRange else 0)
  else if 0xF80 ≤ d.winid then
    if off % 64 ≠ 0 ∨ d.len % 64 ≠ 0 ∨ d.winid % 4 = 3 ∨ d.winid / 4 % 4 = 3 then Err.winRange else 0
  else if 0xF00 ≤ d.winid ∧ (off % 8 ≠ 0 ∨ d.len % 8 ≠ 0) then Err.winRange
  else 0

/-- The time remaining that a packet carries (R322). -/
def dlRem (s : State) (t : Nat) : Nat := if t = 0 then 0 else if t ≤ nowTick s then 1 else min (t - nowTick s) 63487

/-- The packets of a chunk of a window request: each within one 1,024-byte block of the window (R321). -/
def winPieces : Nat → Nat → Nat → List (Nat × Nat)
  | 0, _, _ => []
  | fuel + 1, off, n => if n = 0 then [] else
    let k := min n (1024 - off % 1024)
    (off, k) :: winPieces fuel (off + k) (n - k)

/-- The type and virtual channel of a window request's packets (R321, R328). -/
def winTypeVc (s : State) (d : Dma) : Nat × Nat :=
  let data := if (tget {} s.img.applied.classes (tagClass s d.cls)).kind = 2 then 1 else 0
  if d.kind = 5 then (2, data) else if 0xF80 ≤ d.winid then (6, 5) else if 0xF00 ≤ d.winid then (7, 4) else (1, data)

/-- Sends one packet of a request under a tag of its own. -/
def sendPiece (u : Nat) (d : Dma) (base : Nat) (data : List Byte) (p : Nat × Nat) (s : State) : State :=
  let t := s.dr.rtagNext
  let tv := winTypeVc s d
  let at' := p.1 - base
  let k : Packet := {
    typ := tv.1, vc := tv.2, ddev := d.devid, sdev := s.dr.devid, slode := (lodeOf s d.lode).gid, etag := epochTag s d.lode, cls := d.cls
    dlrem := dlRem s d.deadline, rtag := t, winid := d.winid, offset := p.1, len := p.2
    data := if d.kind = 4 then (data.drop at').take p.2 else [] }
  let s := modDr (fun x => { x with rtagNext := (t + 1) % 2 ^ 32, out := x.out ++ [{ rtag := t, unit := u, pkt := k, dstOff := d.pos + at' }] }) s
  sendPacket k (modReq u d (fun x => { x with waitIds := x.waitIds ++ [t] }) s)

/-- Sends the next packets of a window request, at most 4 KiB of them. -/
def doWindow (u : Nat) (d : Dma) (s : State) : Except Nat State :=
  let off := (if d.kind = 4 then d.dstVa else d.srcVa) + d.pos
  let e := if d.pos = 0 then winRequestErr s d off else 0
  if e ≠ 0 then .error e else
  let n := min 4096 (d.len - d.pos)
  (if d.kind = 4 then rdSpace s d.lode d.src d.pos n else Except.ok []).map fun bs =>
    let s := if d.kind = 4 then chargeSpace d.ctx d.src n (touchSpace d.lode d.cls d.src d.pos n s) else chargeSpace d.ctx d.dst n s
    let s := chargeDrift d.ctx n s
    let s := modReq u d (fun x => { x with chunk := n, chunkD := n }) s
    each (winPieces 6 off n) (sendPiece u d off bs) s

def execWindowPut (u : Nat) (s : State) : Host.Outcome State Fault Refusal := dmaRun u 4 s (doWindow u)
def execWindowGet (u : Nat) (s : State) : Host.Outcome State Fault Refusal := dmaRun u 5 s (doWindow u)

/-! ### The end of a chunk (R174, R523) -/

/-- The unit that a fault of a DMA unit counts against: its block, or the region DMA engine. -/
def dmaFaultUnit (u : Nat) : HwUnit := if u < 96 then ⟨3, u⟩ else ⟨4, u - 96⟩

/-- A chunk is complete: the request goes on, stops for a stale descriptor or a cancellation, or ends. -/
def chunkDone (u : Nat) (d : Dma) (s : State) : State :=
  let d' := { d with
    pos := d.pos + d.chunk, moved := d.moved + d.chunkD, arr := max d.arr d.chunkA, flags := d.flags ||| d.chunkF
    gen := if d.kind = 2 then d.chunkG else d.gen, chunk := 0, chunkD := 0, chunkA := 0, chunkF := 0, retries := 0
    bufD := d.bufN, bufN := [] }
  let s := modReq u d (fun _ => d') s
  if 3 < d.kind then
    settleDma u (if d'.stale && decide (d'.pos < d'.len) && decide (d'.cancel = 0) then modReq u d (fun x => { x with cancel := Err.objectFreed }) s else s)
  else if d'.pos = d'.len then endDma d' (dropReq u d' s)
  else if d'.stale then stopReq u d' Err.objectFreed s
  else if d'.cancel ≠ 0 then stopReq u d' d'.cancel s
  else s

/-- A chunk failed inside its engine: the fault is counted and the chunk is done again, at most 3 times (R523). Packets of a window
request are not sent twice (R339). -/
def chunkFailed (u : Nat) (d : Dma) (s : State) : State :=
  let s := countFault (dmaFaultUnit u) false 0 s
  match (dmaOf s u).find? fun x => x.serial = d.serial with
  | none => s
  | some d =>
    if 3 < d.kind then chunkDone u d s
    else
      let d' := { d with chunk := 0, chunkD := 0, chunkA := 0, chunkF := 0, waitIds := [], retries := d.retries + 1 }
      if 3 ≤ d.retries then stopReq u d' (if (fcOf s (dmaFaultUnit u)).retired then Err.unitRetired else Err.domainReset) s
      else modReq u d (fun _ => d') s

/-- A stream of a REDUCE_SEND (R115, R120): its next 4 KiB of rows enter the mesh; the last ones end it. The table has no command that starts
such a chunk, so it is sent when it is done (log 25). A chunk that the engine fails is sent again like any other (R523). -/
def streamChunk (u : Nat) (d : Dma) (id : Nat) (ok : Bool) (s : State) : State :=
  if unitHeld s u then s
  else if !ok then
    let s := countFault (dmaFaultUnit u) false 0 s
    if 3 ≤ d.retries then stopReq u d (if (fcOf s (dmaFaultUnit u)).retired then Err.unitRetired else Err.domainReset) s
    else modReq u d (fun x => { x with retries := x.retries + 1 }) s
  else
    let stop := min d.len (d.pos + 4096)
    let lines := (List.range (d.len / 64 - 1)).filter fun k => decide (d.pos ≤ 64 + 64 * k) && decide (64 + 64 * k < stop)
    let s := modDeliv id (fun x => { x with pos := stop }) (each lines (sendLine false · id) s)
    if stop = d.len then endDma d (dropReq u d s) else modReq u d (fun x => { x with pos := stop, started := true, retries := 0 }) s

/-- DMA_CHUNK_DONE: the chunk under way on a unit is complete or has failed; a stream at its head goes on. -/
def execDmaChunkDone (u : Nat) (ok : Bool) (s : State) : Host.Outcome State Fault Refusal :=
  run s fun s => match (dmaOf s u).find? fun d => d.chunk ≠ 0 with
    | some d => if ok then chunkDone u d s else chunkFailed u d s
    | none => match chunkReady s u 7 with
      | some d => match d.owner with
        | .stream _ id => streamChunk u d id ok s
        | _ => s
      | none => s

end Sys2Proof.Machine
end

