-- ==== Sys2Proof/Machine/Rv.lean ====
section
/-! DEFINITION. The integer part of the cores' standard instruction set (R159: RV64I, M, C, at the ratified versions): decoding of
fields, the compressed forms, and arithmetic on 64-bit values. -/
namespace Sys2Proof.Machine

/-! ### Fields -/

def wOp (w : Nat) : Nat := fld w 0 7
def wRd (w : Nat) : Nat := fld w 7 5
def wF3 (w : Nat) : Nat := fld w 12 3
def wRs1 (w : Nat) : Nat := fld w 15 5
def wRs2 (w : Nat) : Nat := fld w 20 5
def wF7 (w : Nat) : Nat := fld w 25 7
def wRs3 (w : Nat) : Nat := fld w 27 5

/-- A signed value as a 64-bit number. -/
def wrap64 (i : Int) : Nat := wrapInt 64 i
def immI (w : Nat) : Int := sgn 12 (fld w 20 12)
def immS (w : Nat) : Int := sgn 12 (fld w 7 5 + fld w 25 7 * 32)
def immB (w : Nat) : Int := sgn 13 (fld w 8 4 * 2 + fld w 25 6 * 32 + fld w 7 1 * 2048 + fld w 31 1 * 4096)
def immU (w : Nat) : Int := sgn 32 (fld w 12 20 * 4096)
def immJ (w : Nat) : Int := sgn 21 (fld w 21 10 * 2 + fld w 20 1 * 2048 + fld w 12 8 * 4096 + fld w 31 1 * 2 ^ 20)

/-- Builds 32-bit words of the standard formats. -/
def mkR (op f3 f7 rd rs1 rs2 : Nat) : Nat := op + rd * 2 ^ 7 + f3 * 2 ^ 12 + rs1 * 2 ^ 15 + rs2 * 2 ^ 20 + f7 * 2 ^ 25
def mkI (op f3 rd rs1 : Nat) (imm : Int) : Nat := op + rd * 2 ^ 7 + f3 * 2 ^ 12 + rs1 * 2 ^ 15 + wrapInt 12 imm * 2 ^ 20
def mkS (op f3 rs1 rs2 : Nat) (imm : Int) : Nat :=
  let i := wrapInt 12 imm
  op + fld i 0 5 * 2 ^ 7 + f3 * 2 ^ 12 + rs1 * 2 ^ 15 + rs2 * 2 ^ 20 + fld i 5 7 * 2 ^ 25
def mkB (f3 rs1 rs2 : Nat) (imm : Int) : Nat :=
  let i := wrapInt 13 imm
  0x63 + (fld i 11 1 + fld i 1 4 * 2) * 2 ^ 7 + f3 * 2 ^ 12 + rs1 * 2 ^ 15 + rs2 * 2 ^ 20 + (fld i 5 6 + fld i 12 1 * 64) * 2 ^ 25
def mkJ (rd : Nat) (imm : Int) : Nat :=
  let i := wrapInt 21 imm
  0x6F + rd * 2 ^ 7 + (fld i 12 8 + fld i 11 1 * 2 ^ 8 + fld i 1 10 * 2 ^ 9 + fld i 20 1 * 2 ^ 19) * 2 ^ 12

/-! ### Compressed instructions (C) -/

/-- Quadrant 0. -/
def expand0 (h : Nat) : Option Nat :=
  let r2 := fld h 2 3 + 8
  let r1 := fld h 7 3 + 8
  let uw : Int := (fld h 6 1 * 4 + fld h 10 3 * 8 + fld h 5 1 * 64 : Nat)
  let ud : Int := (fld h 10 3 * 8 + fld h 5 2 * 64 : Nat)
  match fld h 13 3 with
  | 0 =>
    let i := fld h 6 1 * 4 + fld h 5 1 * 8 + fld h 11 2 * 16 + fld h 7 4 * 64
    if i = 0 then none else some (mkI 0x13 0 r2 2 i)
  | 1 => some (mkI 0x07 3 r2 r1 ud)
  | 2 => some (mkI 0x03 2 r2 r1 uw)
  | 3 => some (mkI 0x03 3 r2 r1 ud)
  | 5 => some (mkS 0x27 3 r1 r2 ud)
  | 6 => some (mkS 0x23 2 r1 r2 uw)
  | 7 => some (mkS 0x23 3 r1 r2 ud)
  | _ => none

/-- Quadrant 1. -/
def expand1 (h : Nat) : Option Nat :=
  let rd := fld h 7 5
  let r1 := fld h 7 3 + 8
  let r2 := fld h 2 3 + 8
  let imm := sgn 6 (fld h 2 5 + fld h 12 1 * 32)
  let sh := fld h 2 5 + fld h 12 1 * 32
  let j := sgn 12 (fld h 3 3 * 2 + fld h 11 1 * 16 + fld h 2 1 * 32 + fld h 7 1 * 64 + fld h 6 1 * 128 + fld h 9 2 * 256 +
    fld h 8 1 * 1024 + fld h 12 1 * 2048)
  let b := sgn 9 (fld h 3 2 * 2 + fld h 10 2 * 8 + fld h 2 1 * 32 + fld h 5 2 * 64 + fld h 12 1 * 256)
  match fld h 13 3 with
  | 0 => some (mkI 0x13 0 rd rd imm)
  | 1 => if rd = 0 then none else some (mkI 0x1B 0 rd rd imm)
  | 2 => some (mkI 0x13 0 rd 0 imm)
  | 3 =>
    if rd = 2 then
      let i := sgn 10 (fld h 6 1 * 16 + fld h 2 1 * 32 + fld h 5 1 * 64 + fld h 3 2 * 128 + fld h 12 1 * 512)
      if i = 0 then none else some (mkI 0x13 0 2 2 i)
    else if imm = 0 then none else some (0x37 + rd * 2 ^ 7 + wrapInt 20 imm * 2 ^ 12)
  | 4 =>
    match fld h 10 2 with
    | 0 => some (mkI 0x13 5 r1 r1 sh)
    | 1 => some (mkI 0x13 5 r1 r1 (sh + 1024 : Nat))
    | 2 => some (mkI 0x13 7 r1 r1 imm)
    | _ => match fld h 12 1, fld h 5 2 with
      | 0, 0 => some (mkR 0x33 0 0x20 r1 r1 r2)
      | 0, 1 => some (mkR 0x33 4 0 r1 r1 r2)
      | 0, 2 => some (mkR 0x33 6 0 r1 r1 r2)
      | 0, _ => some (mkR 0x33 7 0 r1 r1 r2)
      | _, 0 => some (mkR 0x3B 0 0x20 r1 r1 r2)
      | _, 1 => some (mkR 0x3B 0 0 r1 r1 r2)
      | _, _ => none
  | 5 => some (mkJ 0 j)
  | 6 => some (mkB 0 r1 0 b)
  | _ => some (mkB 1 r1 0 b)

/-- Quadrant 2. -/
def expand2 (h : Nat) : Option Nat :=
  let rd := fld h 7 5
  let rs2 := fld h 2 5
  let sh := fld h 2 5 + fld h 12 1 * 32
  let ld : Int := (fld h 5 2 * 8 + fld h 12 1 * 32 + fld h 2 3 * 64 : Nat)
  let lw : Int := (fld h 4 3 * 4 + fld h 12 1 * 32 + fld h 2 2 * 64 : Nat)
  let sd : Int := (fld h 10 3 * 8 + fld h 7 3 * 64 : Nat)
  let sw : Int := (fld h 9 4 * 4 + fld h 7 2 * 64 : Nat)
  match fld h 13 3 with
  | 0 => some (mkI 0x13 1 rd rd sh)
  | 1 => some (mkI 0x07 3 rd 2 ld)
  | 2 => if rd = 0 then none else some (mkI 0x03 2 rd 2 lw)
  | 3 => if rd = 0 then none else some (mkI 0x03 3 rd 2 ld)
  | 4 =>
    if fld h 12 1 = 0 then
      if rs2 = 0 then (if rd = 0 then none else some (mkI 0x67 0 0 rd 0)) else some (mkR 0x33 0 0 rd 0 rs2)
    else if rs2 = 0 then (if rd = 0 then some 0x00100073 else some (mkI 0x67 0 1 rd 0))
    else some (mkR 0x33 0 0 rd rd rs2)
  | 5 => some (mkS 0x27 3 2 rs2 sd)
  | 6 => some (mkS 0x23 2 2 rs2 sw)
  | _ => some (mkS 0x23 3 2 rs2 sd)

/-- The 32-bit form and the length in bytes of an instruction; none for a reserved compressed form. -/
def expandWord (w : Nat) : Option (Nat × Nat) :=
  match w % 4 with
  | 0 => (expand0 (w % 65536)).map fun x => (x, 2)
  | 1 => (expand1 (w % 65536)).map fun x => (x, 2)
  | 2 => (expand2 (w % 65536)).map fun x => (x, 2)
  | _ => some (w % 2 ^ 32, 4)

/-! ### Arithmetic -/

/-- OP and OP-IMM by funct3; `alt` selects SUB and SRA. -/
def alu (f3 : Nat) (alt : Bool) (a b : Word) : Word :=
  match f3 with
  | 0 => if alt then a - b else a + b
  | 1 => a <<< (b.toNat % 64)
  | 2 => if a.slt b then 1 else 0
  | 3 => if a.ult b then 1 else 0
  | 4 => a ^^^ b
  | 5 => if alt then a.sshiftRight (b.toNat % 64) else a >>> (b.toNat % 64)
  | 6 => a ||| b
  | _ => a &&& b

/-- A 32-bit result, sign-extended. -/
def sext32 (v : Nat) : Word := BitVec.ofInt 64 (sgn 32 v)

/-- OP-32 and OP-IMM-32. -/
def aluW (f3 : Nat) (alt : Bool) (a b : Word) : Option Word :=
  let x := BitVec.ofNat 32 a.toNat
  let y := BitVec.ofNat 32 b.toNat
  match f3 with
  | 0 => some (sext32 (if alt then x - y else x + y).toNat)
  | 1 => some (sext32 (x <<< (y.toNat % 32)).toNat)
  | 5 => some (sext32 (if alt then x.sshiftRight (y.toNat % 32) else x >>> (y.toNat % 32)).toNat)
  | _ => none

/-- Division with the results that RISC-V gives for a zero divisor and for overflow; quotients round toward zero. -/
def divI (a b : Int) : Int := if b = 0 then -1 else a.tdiv b
def remI (a b : Int) : Int := if b = 0 then a else a.tmod b

/-- M on values of `n` bits. -/
def mulDiv (n f3 a b : Nat) : Nat :=
  let sa := sgn n a
  let sb := sgn n b
  wrapInt n (match f3 with
  | 0 => (a : Int) * b
  | 1 => sa * sb / 2 ^ n
  | 2 => sa * b / 2 ^ n
  | 3 => (a : Int) * b / 2 ^ n
  | 4 => divI sa sb
  | 5 => divI a b
  | 6 => remI sa sb
  | _ => remI a b)

/-- Whether a branch is taken; none for a reserved funct3. -/
def branchTaken (f3 : Nat) (a b : Word) : Option Bool :=
  match f3 with
  | 0 => some (decide (a = b))
  | 1 => some (decide (a ≠ b))
  | 4 => some (a.slt b)
  | 5 => some (!a.slt b)
  | 6 => some (a.ult b)
  | 7 => some (!a.ult b)
  | _ => none

/-- The result of an integer instruction with pc and operands: a value for `rd`, and where the pc goes when not to the next
instruction; none for an illegal encoding. -/
def intResult (w : Nat) (pc a b : Word) (len : Nat) : Option (Option Word × Option Word) :=
  let f3 := wF3 w
  let f7 := wF7 w
  let imm := BitVec.ofInt 64 (immI w)
  let val (v : Word) : Option (Option Word × Option Word) := some (some v, none)
  match wOp w with
  | 0x37 => val (BitVec.ofInt 64 (immU w))
  | 0x17 => val (pc + BitVec.ofInt 64 (immU w))
  | 0x6F => some (some (pc + BitVec.ofNat 64 len), some (pc + BitVec.ofInt 64 (immJ w)))
  | 0x67 => if f3 = 0 then some (some (pc + BitVec.ofNat 64 len), some ((a + imm) &&& BitVec.ofNat 64 (2 ^ 64 - 2))) else none
  | 0x63 => (branchTaken f3 a b).map fun t => (none, if t then some (pc + BitVec.ofInt 64 (immB w)) else none)
  | 0x13 =>
    if f3 = 1 then (if fld w 26 6 = 0 then val (alu 1 false a (BitVec.ofNat 64 (fld w 20 6))) else none)
    else if f3 = 5 then
      (if fld w 26 6 = 0 ∨ fld w 26 6 = 16 then val (alu 5 (decide (fld w 26 6 = 16)) a (BitVec.ofNat 64 (fld w 20 6))) else none)
    else val (alu f3 false a imm)
  | 0x1B =>
    if f3 = 0 then val (sext32 (a + imm).toNat)
    else if f3 = 1 ∧ f7 ≠ 0 then none
    else if f3 = 5 ∧ f7 ≠ 0 ∧ f7 ≠ 32 then none
    else (aluW f3 (decide (f7 = 32)) a (BitVec.ofNat 64 (wRs2 w))).bind val
  | 0x33 =>
    if f7 = 1 then val (BitVec.ofNat 64 (mulDiv 64 f3 a.toNat b.toNat))
    else if f7 = 0 ∨ (f7 = 32 ∧ (f3 = 0 ∨ f3 = 5)) then val (alu f3 (decide (f7 = 32)) a b) else none
  | 0x3B =>
    if f7 = 1 then
      (if f3 = 0 ∨ 4 ≤ f3 then val (sext32 (mulDiv 32 f3 (a.toNat % 2 ^ 32) (b.toNat % 2 ^ 32))) else none)
    else if f7 = 0 ∨ (f7 = 32 ∧ (f3 = 0 ∨ f3 = 5)) then (aluW f3 (decide (f7 = 32)) a b).bind val else none
  | _ => none

/-- What an AMO of RV64A stores, from the old value and the operand, both of `n` bits; none for a reserved encoding. -/
def amoValue (n f5 old v : Nat) : Option Nat :=
  match f5 with
  | 0 => some ((old + v) % 2 ^ n)
  | 1 => some v
  | 4 => some (old ^^^ v)
  | 8 => some (old ||| v)
  | 12 => some (old &&& v)
  | 16 => some (if sgn n old ≤ sgn n v then old else v)
  | 20 => some (if sgn n old ≤ sgn n v then v else old)
  | 24 => some (min old v)
  | 28 => some (max old v)
  | _ => none

end Sys2Proof.Machine
end

