-- ==== Sys2Proof/Machine/Fp.lean ====
section
/-! DEFINITION. The floating-point part of the cores' instruction set (R159: F, D, Zfh, at the ratified versions): IEEE 754 arithmetic
on exact values, rounded once, with the exception flags of `fcsr`. -/
namespace Sys2Proof.Machine

/-- Exception flags of `fcsr`. -/
def fpNX : Nat := 1
def fpUF : Nat := 2
def fpOF : Nat := 4
def fpDZ : Nat := 8
def fpNV : Nat := 16

/-- The format and width of an `fmt` field: 0 binary32, 1 binary64, 2 binary16. -/
def fpFmt (c : Nat) : Option (Flt × Nat) :=
  match c with
  | 0 => some (⟨8, 23, 127, 0⟩, 32)
  | 1 => some (⟨11, 52, 1023, 0⟩, 64)
  | 2 => some (⟨5, 10, 15, 0⟩, 16)
  | _ => none

/-- A value read from a 64-bit register: one that is not NaN-boxed reads as the canonical NaN. -/
def unbox (f : Flt) (w v : Nat) : Nat := if w = 64 ∨ v / 2 ^ w = 2 ^ (64 - w) - 1 then v % 2 ^ w else f.nanBits
/-- NaN-boxing. -/
def box (w v : Nat) : Nat := (2 ^ 64 - 2 ^ w) + v % 2 ^ w

/-- Whether an encoding is a signalling NaN. -/
def sNaN (f : Flt) (b : Nat) : Bool := (f.decode b).isNan && !b.testBit (f.mb - 1)

/-- Whether the magnitude is rounded up from `k`: 0 nearest-even, 1 toward zero, 2 down, 3 up, 4 nearest with ties away. -/
def fpUp (rm : Nat) (neg : Bool) (k rem den : Nat) : Bool :=
  match rm with
  | 0 => decide (den < 2 * rem) || (decide (2 * rem = den) && decide (k % 2 = 1))
  | 1 => false
  | 2 => neg && decide (rem ≠ 0)
  | 3 => !neg && decide (rem ≠ 0)
  | _ => decide (den ≤ 2 * rem) && decide (rem ≠ 0)

/-- Rounds `m × 2^e` to units of 2^q: the count, and whether it is inexact. -/
def fpUnits (rm : Nat) (neg : Bool) (m : Nat) (e q : Int) : Nat × Bool :=
  if q ≤ e then (m * 2 ^ (e - q).toNat, false)
  else
    let d := 2 ^ (q - e).toNat
    let k := m / d
    (if fpUp rm neg k (m % d) d then k + 1 else k, decide (m % d ≠ 0))

/-- The encoding of an exact value under a rounding mode, with flags; tininess is detected after rounding. -/
def fpEncode (f : Flt) (rm : Nat) (x : Num) : Nat × Nat :=
  let sign (n : Bool) : Nat := if n then 2 ^ (f.eb + f.mb) else 0
  match x with
  | .nan => (f.nanBits, 0)
  | .inf n => (sign n + f.infBits, 0)
  | .fin n m e =>
    if m = 0 then (sign n, 0) else
    let q := f.unit m e
    let (k, nx) := fpUnits rm n m e q
    let b := (q + f.mb + f.bias - 1).toNat * 2 ^ f.mb + k
    if f.maxBits < b then
      let big := decide (rm = 0) || decide (rm = 4) || (decide (rm = 2) && n) || (decide (rm = 3) && !n)
      (sign n + (if big then f.infBits else f.maxBits), fpOF ||| fpNX)
    else
      let top : Int := e + Nat.log2 m
      let (k2, _) := fpUnits rm n m e (top - f.mb)
      let tiny := decide (top < 1 - f.bias) && !(decide (top = -f.bias) && decide (2 ^ (f.mb + 1) ≤ k2))
      (sign n + b, (if nx then fpNX else 0) ||| (if nx && tiny then fpUF else 0))

/-- The sign of an exact zero sum (IEEE 754). -/
def zeroSign (rm : Nat) (x y : Num) (s : Num) : Num :=
  match s with
  | .fin _ 0 _ => if x.isZero && y.isZero && x.neg == y.neg then .fin x.neg 0 0 else .fin (decide (rm = 2)) 0 0
  | v => v

/-- Sum: value, and NV when infinities of both signs meet. -/
def fpSum (rm : Nat) (x y : Num) : Num × Nat :=
  let s := sumExact [x, y]
  if s.isNan then (.nan, if x.isNan || y.isNan then 0 else fpNV) else (zeroSign rm x y s, 0)

def fpProd (x y : Num) : Num × Nat :=
  let s := x.mul y
  (s, if s.isNan && !x.isNan && !y.isNan then fpNV else 0)

/-- Quotient, to 70 bits beyond the larger operand with a sticky bit: enough to round to any format. -/
def fpQuot (x y : Num) : Num × Nat :=
  match x, y with
  | .nan, _ => (.nan, 0)
  | _, .nan => (.nan, 0)
  | .inf _, .inf _ => (.nan, fpNV)
  | .inf a, .fin b _ _ => (.inf (a != b), 0)
  | .fin a _ _, .inf b => (.fin (a != b) 0 0, 0)
  | .fin a m e, .fin b m' e' =>
    if m' = 0 then (if m = 0 then (.nan, fpNV) else (.inf (a != b), fpDZ))
    else
      let sh := 70 + Nat.log2 m'
      let n := m * 2 ^ sh
      (.fin (a != b) (n / m' * 2 + (if n % m' = 0 then 0 else 1)) (e - e' - sh - 1), 0)

/-- The integer square root by bits. -/
def isqrtGo : Nat → Nat → Nat → Nat
  | 0, _, r => r
  | k + 1, n, r => isqrtGo k n (if (r + 2 ^ k) * (r + 2 ^ k) ≤ n then r + 2 ^ k else r)

/-- Square root with a sticky bit. -/
def fpSqrt (x : Num) : Num × Nat :=
  match x with
  | .nan => (.nan, 0)
  | .inf n => if n then (.nan, fpNV) else (.inf false, 0)
  | .fin n m e =>
    if m = 0 then (.fin n 0 0, 0)
    else if n then (.nan, fpNV)
    else
      let odd := (e % 2).toNat
      let v := m * 2 ^ (140 + odd)
      let r := isqrtGo 110 v 0
      (.fin false (r * 2 + (if r * r = v then 0 else 1)) ((e - odd - 140) / 2 - 1), 0)

/-- NV for signalling NaN operands. -/
def snanFlag (f : Flt) (xs : List Nat) : Nat := if xs.any (sNaN f) then fpNV else 0

/-- The arithmetic operations on encodings: 0 add, 1 sub, 2 mul, 3 div, 4 square root of the first. -/
def fpArith (f : Flt) (op rm a b : Nat) : Nat × Nat :=
  let x := f.decode a
  let y := f.decode b
  let (v, g) := match op with
    | 0 => fpSum rm x y
    | 1 => fpSum rm x y.negate
    | 2 => fpProd x y
    | 3 => fpQuot x y
    | _ => fpSqrt x
  let (r, h) := fpEncode f rm v
  (r, g ||| h ||| snanFlag f (if op = 4 then [a] else [a, b]))

/-- Fused multiply-add, with the product or the addend negated. -/
def fpFma (f : Flt) (rm : Nat) (negP negC : Bool) (a b c : Nat) : Nat × Nat :=
  let (p, g) := fpProd (f.decode a) (f.decode b)
  let p := if negP then p.negate else p
  let z := f.decode c
  let z := if negC then z.negate else z
  let (v, g2) := fpSum rm p z
  let (r, h) := fpEncode f rm v
  (r, g ||| (if g = 0 then g2 else 0) ||| h ||| snanFlag f [a, b, c])

/-- FMIN and FMAX: a NaN operand gives the other, −0 is below +0. -/
def fpMinMax (f : Flt) (isMax : Bool) (a b : Nat) : Nat × Nat :=
  let x := f.decode a
  let y := f.decode b
  let less := x.lt y || (x.isZero && y.isZero && x.neg && !y.neg)
  (if x.isNan && y.isNan then f.nanBits else if x.isNan then b else if y.isNan then a else if less == isMax then b else a,
    snanFlag f [a, b])

/-- Comparisons: 2 equal, 1 less, 0 less or equal. -/
def fpCmp (f : Flt) (op a b : Nat) : Nat × Nat :=
  let x := f.decode a
  let y := f.decode b
  let eq := !x.isNan && !y.isNan && !x.lt y && !y.lt x
  let nv := if op = 2 then snanFlag f [a, b] else if x.isNan || y.isNan then fpNV else 0
  (if (match op with | 2 => eq | 1 => x.lt y | _ => x.lt y || eq) then 1 else 0, nv)

/-- FCLASS. -/
def fpClass (f : Flt) (a : Nat) : Nat :=
  let e := fld a f.mb f.eb
  match f.decode a with
  | .nan => if sNaN f a then 2 ^ 8 else 2 ^ 9
  | .inf n => if n then 1 else 2 ^ 7
  | .fin n m _ => if m = 0 then (if n then 8 else 16) else if e = 0 then (if n then 4 else 32) else (if n then 2 else 64)

/-- Conversion to an integer of `n` bits: NaN and values beyond range give the limits and NV. -/
def fpToInt (rm n : Nat) (signed : Bool) (x : Num) : Nat × Nat :=
  let hi : Int := if signed then 2 ^ (n - 1) - 1 else 2 ^ n - 1
  let lo : Int := if signed then -2 ^ (n - 1) else 0
  match x with
  | .nan => (wrapInt n hi, fpNV)
  | .inf s => (wrapInt n (if s then lo else hi), fpNV)
  | .fin s m e =>
    let (k, nx) := if m = 0 then (0, false) else fpUnits rm s m e 0
    let v : Int := if s then -(k : Int) else k
    if hi < v then (wrapInt n hi, fpNV) else if v < lo then (wrapInt n lo, fpNV) else (wrapInt n v, if nx then fpNX else 0)

/-- An integer as a value. -/
def numOfInt (i : Int) : Num := .fin (decide (i < 0)) i.natAbs 0

/-- FSGNJ, FSGNJN, FSGNJX on values of `w` bits. -/
def fpSgnj (w f3 a b : Nat) : Option Nat :=
  let m := a % 2 ^ (w - 1)
  let sb := b.testBit (w - 1)
  let put (s : Bool) : Option Nat := some (m + if s then 2 ^ (w - 1) else 0)
  match f3 with
  | 0 => put sb
  | 1 => put (!sb)
  | 2 => put (sb != a.testBit (w - 1))
  | _ => none

/-- The rounding mode of an instruction: its field, or `frm` for 7; none for a reserved mode. -/
def fpRm (w fcsr : Nat) : Option Nat :=
  let r := if wF3 w = 7 then fld fcsr 5 3 else wF3 w
  if r ≤ 4 then some r else none

/-- What a floating-point instruction writes: to an f register, or to an x register; with flags. -/
inductive FpOut where
  | f (v flags : Nat)
  | x (v flags : Nat)

/-- The result of OP-FP (0x53) and of the fused forms, from the f operands, the x operand and `fcsr`; none for an illegal encoding. -/
def fpResult (w fcsr fa fb fc xa : Nat) : Option FpOut :=
  match fpFmt (fld w 25 2) with
  | none => none
  | some (f, n) =>
    let a := unbox f n fa
    let b := unbox f n fb
    let c := unbox f n fc
    let outF (r : Nat × Nat) : Option FpOut := some (.f (box n r.1) r.2)
    let rm := fpRm w fcsr
    match wOp w with
    | 0x43 => rm.bind fun m => outF (fpFma f m false false a b c)
    | 0x47 => rm.bind fun m => outF (fpFma f m false true a b c)
    | 0x4B => rm.bind fun m => outF (fpFma f m true false a b c)
    | 0x4F => rm.bind fun m => outF (fpFma f m true true a b c)
    | _ => match wRs3 w with
      | 0 | 1 | 2 | 3 => rm.bind fun m => outF (fpArith f (wRs3 w) m a b)
      | 11 => if wRs2 w = 0 then rm.bind fun m => outF (fpArith f 4 m a b) else none
      | 4 => (fpSgnj n (wF3 w) a b).bind fun v => outF (v, 0)
      | 5 => if wF3 w ≤ 1 then outF (fpMinMax f (decide (wF3 w = 1)) a b) else none
      | 20 => if wF3 w ≤ 2 then (let r := fpCmp f (wF3 w) a b; some (.x r.1 r.2)) else none
      | 8 => match fpFmt (wRs2 w) with
        | some (g, k) =>
          let s := unbox g k fa
          if wRs2 w = fld w 25 2 then none else rm.bind fun m =>
            let r := fpEncode f m (g.decode s)
            outF (r.1, r.2 ||| snanFlag g [s])
        | none => none
      | 24 => if 4 ≤ wRs2 w then none else rm.bind fun m =>
          let k := if wRs2 w < 2 then 32 else 64
          let r := fpToInt m k (decide (wRs2 w % 2 = 0)) (f.decode a)
          some (.x (if k = 32 then (sext32 r.1).toNat else r.1) r.2)
      | 26 => if 4 ≤ wRs2 w then none else rm.bind fun m =>
          let k := if wRs2 w < 2 then 32 else 64
          outF (fpEncode f m (numOfInt (if wRs2 w % 2 = 0 then sgn k xa else ((xa % 2 ^ k : Nat) : Int))))
      | 28 =>
        if wRs2 w ≠ 0 then none
        else if wF3 w = 0 then some (.x (BitVec.ofInt 64 (sgn n (fa % 2 ^ n))).toNat 0)
        else if wF3 w = 1 then some (.x (fpClass f a) 0)
        else none
      | 30 => if wRs2 w = 0 ∧ wF3 w = 0 then outF (xa % 2 ^ n, 0) else none
      | _ => none

end Sys2Proof.Machine
end

