-- ==== Sys2Proof/Machine/CoreMem.lean ====
section
/-! DEFINITION. How a core reaches memory (R160 to R163, R227, R249, R251): translation through its TLB, loads and stores of scalar and
vector instructions, atomics. -/
namespace Sys2Proof.Machine
open Sys2Proof

/-! ### Translation through the TLB (R227) -/

/-- Why a core access cannot go on now: its translation is not cached, it faults, or nothing answers at the address. -/
inductive Miss where
  | walk (va : Nat)
  | stop (st : Stop) (va : Nat)
  | trap (va : Nat)
deriving DecidableEq, Repr

/-- What a part of an access reaches: memory, by lode memory address or by chip physical address, or the register window. -/
inductive Part where
  | mem (lode : Bool) (a n : Nat)
  | reg (off n : Nat)
deriving DecidableEq, Repr

/-- The bytes of memory that parts name. -/
def memOf (ps : List Part) : List (Bool × Nat × Nat) :=
  ps.filterMap fun p => match p with
    | .mem l a n => some (l, a, n)
    | .reg _ _ => none

/-- What a part of an access reaches, within one page and one range of the aperture. -/
def partOf (s : State) (b c access va n : Nat) : Except Miss Part :=
  match placeOf s b c va n with
  | .bad => .error (.trap va)
  | .reg off => .ok (.reg off n)
  | .phys a => .ok (.mem false a n)
  | .virt _ => match tlbFind (coreOf s b c) (ctxOfBlock s b) va with
    | none => .error (.walk va)
    | some e => match useLeaf s e va access n with
      | .error st => .error (.stop st va)
      | .ok a => .ok (.mem true a n)

/-- The parts of an access. Pages and ranges of the aperture end at multiples of 64 KiB, so a misaligned access has at most two (R161). -/
def partsOf (s : State) (b c access va n : Nat) : Except Miss (List Part) :=
  let m := 65536 - va % 65536
  if n ≤ m then (partOf s b c access va n).map fun p => [p]
  else (partOf s b c access va m).bind fun p => (partOf s b c access ((va + m) % 2 ^ 64) (n - m)).map fun q => [p, q]

/-- A core stalls for a walk, faults, or traps with the cause of an access fault. -/
def onMiss (b c access cause : Nat) (m : Miss) (s : State) : State :=
  match m with
  | .walk va => modCore b c (fun k => { k with wait := .walk va access }) s
  | .stop st va => coreFault b c false st access va s
  | .trap va => coreTrap b c cause va s

/-- A memory access ends in an error: a granule that is not valid is a fault of the memory controller (R31, R232), a poisoned line ends
the launch (R204). -/
def memError (b : Nat) (err access va : Nat) (s : State) : State :=
  match launchOf s b with
  | some (l, pos, ctx) =>
    if err = Err.xlGranule then endLaunch b err [] (newFault l (.memctl l) 3 0 access ctx pos va 0 s).2 else endLaunch b err [] s
  | none => s

/-- Bytes that a core reads at an address of its block's launch area: free values once another agent has written there during the launch
(R180). -/
def blurArea (b c a : Nat) (bs : List Byte) (s : State) : List Byte × State :=
  if areaOf a bs.length = some b ∧ (blockOf s b).area.any fun w => decide (w ≠ c) then
    (bs.zipIdx.map fun p => if 0x3FEF00 ≤ a % 0x1000000 + p.2 then BitVec.ofNat 8 (Config.freeNat (s.free + p.2)) else p.1, { s with free := s.free + bs.length })
  else (bs, s)

/-- Reads one part of an access. -/
def rdPart (b c : Nat) (p : Part) (s : State) : Except Nat (List Byte × State) :=
  match p with
  | .mem true a n => (rdLode s (blockOf s b).lode a n).map fun bs => (bs, s)
  | .mem false a n => (rdPhys s a n).map fun bs => blurArea b c a bs s
  | .reg off n => .ok (blockRegBytes s b off n, s)

/-- Reads the parts of an access. -/
def rdParts (b c : Nat) : List Part → State → Except Nat (List Byte × State)
  | [], s => .ok ([], s)
  | p :: t, s => (rdPart b c p s).bind fun r => (rdParts b c t r.2).map fun q => (r.1 ++ q.1, q.2)

/-- Writes bytes over the parts of an access. -/
def wrParts (b c cls : Nat) : List Part → List Byte → State → Except Nat State
  | [], _, s => .ok s
  | p :: t, bs, s =>
    (match p with
      | .mem true a n => (storeLode (blockOf s b).lode a cls (bs.take n) s).bind (wrParts b c cls t (bs.drop n))
      | .mem false a n => (wrPhysBy (if areaOf a n = some b then c else 32) a (bs.take n) s).bind (wrParts b c cls t (bs.drop n))
      | .reg off n => wrParts b c cls t (bs.drop n) (blockRegStore b off (bs.take n) s))

/-- Whether a part of an access leaves the block: lode memory, or another block's (R289). -/
def leavesBlock (b : Nat) (p : Bool × Nat × Nat) : Bool := p.1 || !(decide (blockBase b ≤ p.2.1) && decide (p.2.1 < blockBase b + 0x1000000))

/-- What a block's access of lode memory brings into its granule cache (R195) and the region cache, and its charge (R450); what leaves the
block draws on its bucket, 64 bytes for an atomic (R290). -/
def touchParts (b cls ctx : Nat) (write atomic : Bool) (ps : List Part) (s : State) : State :=
  let l := (blockOf s b).lode
  each (memOf ps) (fun p s =>
    let s := wh (leavesBlock b p) (payReq b l cls (if atomic then 64 else p.2.2)) s
    if p.1 then chargeHbm ctx p.2.2 (touchLode l p.2.1 p.2.2 cls write (resolveGrans b l p.2.1 p.2.2 s)) else wakeAddr p.2.1 s) s

/-- The 16 lines of its scratchpad that a core touched last (R539). -/
def noteTouch (b c a : Nat) (s : State) : State :=
  let base := blockBase b + 0x400000 + c * 0x10000
  if base ≤ a ∧ a < base + 0x10000 then
    let line := (a - base) / 64
    modCore b c (fun k => { k with recent := (line :: k.recent.filter (· ≠ line)).take 16 }) s
  else s

/-- Whether an address lies in the cluster memory of a block whose floors are held in direct mode: its arbiter grants nothing (R613, R615). -/
def floorHeld (s : State) (a : Nat) : Bool :=
  decide (0x1C000000000 ≤ a) && decide (a % 0x1000000 < 0x400000) && (cmaOf s ((a - 0x1C000000000) / 0x1000000)).hold

/-- Until an invalidation completes, each use of a TLB entry may take the old value or the new one (R222): a free value says whether the
core still has an entry that the tables no longer give. -/
def ageTlb (b c va : Nat) (s : State) : State :=
  let ctx := ctxOfBlock s b
  match tlbFind (coreOf s b c) ctx va with
  | none => s
  | some e =>
    if (walk s ctx va).toOption = some e then s
    else
      let (v, s) := draw s
      if v.testBit 0 then modCore b c (tlbDrop ctx va) s else s

/-- Whether an access waits: it meets an outstanding DMA range (R267), a cluster memory held in direct mode, a granule in Cutover (R48), or the
block's bucket for a sealed-share lode (R296). -/
def accessWaits (s : State) (b c : Nat) (ps : List (Bool × Nat × Nat)) : Bool :=
  meetsDma s b c ps || sealedWaits s b (blockOf s b).lode ((ps.filter (leavesBlock b)).map (·.2.2)).sum || ps.any fun p => if p.1 then inCutover s (blockOf s b).lode p.2.1 p.2.2 else floorHeld s p.2.1

/-- Resolves an access of `n` bytes: it goes on with what it reaches, or the core traps, stalls or faults. -/
def reach (b c va n access cause : Nat) (s : State) (go : List Part → State → State) : State :=
  let s := ageTlb b c ((va + n - 1) % 2 ^ 64) (ageTlb b c va s)
  match partsOf s b c access va n with
  | .error m => onMiss b c access cause m s
  | .ok ps =>
    if accessWaits s b c (memOf ps) then modCore b c (fun k => { k with wait := .range }) s
    else go ps (each (memOf ps) (fun p => wh (!p.1) (noteTouch b c p.2.1)) s)

/-- Loads `n` bytes and goes on with their value. -/
def loadBytes (b c va n : Nat) (s : State) (go : Nat → State → State) : State :=
  reach b c va n 0 5 s fun ps s => match rdParts b c ps s with
    | .error e => memError b e 0 va s
    | .ok (bs, s) => go (unle bs) (touchParts b (coreOf s b c).tag (ctxOfBlock s b) false false ps s)

/-- Stores bytes and goes on. -/
def storeBytes (b c va : Nat) (bs : List Byte) (s : State) (go : State → State) : State :=
  reach b c va bs.length 1 7 s fun ps s => match wrParts b c (coreOf s b c).tag ps bs s with
    | .error e => memError b e 1 va s
    | .ok t => go (touchParts b (coreOf s b c).tag (ctxOfBlock s b) true false ps t)

/-! ### Scalar loads and stores -/

/-- Sets an f register. -/
def setF (n v : Nat) (k : Core) : Core := { k with f := tset 0 k.f n (BitVec.ofNat 64 v) }
def fOf (k : Core) (n : Nat) : Nat := (tget 0 k.f n).toNat

/-- The effective address of a base register and an offset. -/
def effAddr (k : Core) (rs1 : Nat) (imm : Int) : Nat := wrap64 ((xOf k rs1 : Nat) + imm)

/-- An illegal instruction (R159, R184). -/
def illegal (b c w : Nat) (s : State) : State := coreTrap b c 2 w s

/-- LOAD. -/
def doLoadX (b c w len : Nat) (s : State) : State :=
  let f3 := wF3 w
  if f3 = 7 then illegal b c w s else
  let n := 2 ^ (f3 % 4)
  loadBytes b c (effAddr (coreOf s b c) (wRs1 w) (immI w)) n s fun v s =>
    modCore b c (fun k => retire len (setX (wRd w) (if f3 < 4 then wrap64 (sgn (8 * n) v) else v) k)) s

/-- STORE. -/
def doStoreX (b c w len : Nat) (s : State) : State :=
  if 4 ≤ wF3 w then illegal b c w s else
  let k := coreOf s b c
  storeBytes b c (effAddr k (wRs1 w) (immS w)) (le (2 ^ wF3 w) (xOf k (wRs2 w))) s fun s => modCore b c (retire len) s

/-- FLH, FLW, FLD. -/
def doLoadF (b c w len : Nat) (s : State) : State :=
  let n := 2 ^ wF3 w
  loadBytes b c (effAddr (coreOf s b c) (wRs1 w) (immI w)) n s fun v s => modCore b c (fun k => retire len (setF (wRd w) (box (8 * n) v) k)) s

/-- FSH, FSW, FSD. -/
def doStoreF (b c w len : Nat) (s : State) : State :=
  let k := coreOf s b c
  storeBytes b c (effAddr k (wRs1 w) (immS w)) (le (2 ^ wF3 w) (fOf k (wRs2 w))) s fun s => modCore b c (retire len) s

/-! ### Vector loads and stores (R159: segment, strided and indexed accesses) -/

/-- An element of a vector register group: `j` counts elements of `w` bits from register `r`. -/
def vGet (k : Core) (r w j : Nat) : Nat := (tget 0 k.v ((r + j * w / 512) % 32)).toNat / 2 ^ (j * w % 512) % 2 ^ w
def vPut (r w j v : Nat) (k : Core) : Core :=
  let n := (r + j * w / 512) % 32
  { k with v := tset 0 k.v n (BitVec.ofNat 512 (putFld (tget 0 k.v n).toNat (j * w % 512) w v)) }

/-- `vtype` (V 1.0): SEW in bits, LMUL in eighths. -/
def vSew (k : Core) : Nat := 8 * 2 ^ fld k.vtype 3 3
def vLmul8 (k : Core) : Nat :=
  match fld k.vtype 0 3 with
  | 0 => 8 | 1 => 16 | 2 => 32 | 3 => 64 | 5 => 1 | 6 => 2 | 7 => 4 | _ => 0
def vIll (k : Core) : Bool := k.vtype.testBit 63
/-- The largest vector length of a setting. -/
def vMax (k : Core) : Nat := 512 * vLmul8 k / 8 / vSew k
/-- Whether an element is active under the mask bit of an instruction. -/
def vActive (k : Core) (w i : Nat) : Bool := w.testBit 25 || vGet k 0 1 i == 1

/-- A register group: first register, element width, size in eighths of a register. -/
structure VReg where
  reg : Nat
  ew  : Nat
  m8  : Nat
deriving DecidableEq, Repr

/-- The registers a group touches. -/
def VReg.count (g : VReg) : Nat := max 1 (g.m8 / 8)
/-- A group of the current setting at an element width. -/
def vGroup (k : Core) (r ew : Nat) : VReg := ⟨r, ew, vLmul8 k * ew / vSew k⟩
/-- One register: a mask (width 1), or a scalar element. -/
def vOne (r ew : Nat) : VReg := ⟨r, ew, 8⟩
/-- A legal group: 1/8 to 8 registers, elements of 8 to 64 bits, aligned. -/
def VReg.ok (g : VReg) : Bool :=
  (decide (g.ew = 1) || (decide (8 ≤ g.ew) && decide (g.ew ≤ 64))) && decide (1 ≤ g.m8) && decide (g.m8 ≤ 64) && decide (g.reg % g.count = 0)
def VReg.meets (g h : VReg) : Bool := decide (g.reg < h.reg + h.count) && decide (h.reg < g.reg + g.count)

/-- Whether a destination may lie where a source does: apart, of the same width, in the lowest part of a wider source, or over a
narrower source of a register or more that is its highest part. -/
def vOverDst (d g : VReg) : Bool :=
  !d.meets g || decide (d.ew = g.ew) || (decide (d.ew < g.ew) && decide (d.reg = g.reg)) ||
    (decide (g.ew < d.ew) && decide (8 ≤ g.m8) && decide (g.reg + g.count = d.reg + d.count))

/-- One access of a vector instruction: element index, address, bytes, the register group and element it moves. -/
structure VAcc where
  idx  : Nat
  addr : Nat
  n    : Nat
  reg  : Nat
  el   : Nat
deriving DecidableEq, Repr

/-- Whether an element must wait because of an element in its own 64-byte line: a line is moved as a whole (R249). -/
def lineWaits (s : State) (b c access : Nat) (as : List VAcc) : Bool :=
  as.any fun x => match partsOf s b c access x.addr x.n with
    | .ok ps => meetsDma s b c (memOf ps)
    | .error _ => false

/-- Performs accesses in order. When one must wait, `vstart` names its element and the instruction goes on from there; the last one
retires the instruction. -/
def vecGo (b c len : Nat) (store : Bool) : List VAcc → State → State
  | [], s => modCore b c (fun k => retire len { k with vstart := 0 }) s
  | a :: t, s =>
    let s := modCore b c (fun k => { k with vstart := a.idx }) s
    if lineWaits s b c (if store then 1 else 0) (t.takeWhile fun x => decide (x.addr / 64 = a.addr / 64)) then
      modCore b c (fun k => { k with wait := .range }) s
    else if store then storeBytes b c a.addr (le a.n (vGet (coreOf s b c) a.reg (8 * a.n) a.el)) s (vecGo b c len store t)
    else loadBytes b c a.addr a.n s fun v s => vecGo b c len store t (modCore b c (vPut a.reg (8 * a.n) a.el v) s)

/-- The width in bits of the element field of a vector access. -/
def vEew (f3 : Nat) : Nat :=
  match f3 with
  | 0 => 8 | 5 => 16 | 6 => 32 | _ => 64

/-- Whether the registers of a vector access are legal together (V 1.0): data of `nf` groups, the index group of an indexed access. -/
def vAccOk (w nf : Nat) (data : VReg) (index : Option VReg) : Bool :=
  let store := decide (wOp w = 0x27)
  let field (i : Nat) : VReg := { data with reg := data.reg + i * data.count }
  let fields := (List.range nf).map field
  let reads := (if w.testBit 25 then [] else [vOne 0 1]) ++ index.toList ++ (if store then fields else [])
  data.ok && index.all VReg.ok && decide (nf * data.count ≤ 8) && decide (data.reg + nf * data.count ≤ 32) &&
    reads.all (fun g => reads.all fun h => decide (g.ew = h.ew) || !g.meets h) &&
    (store || ((w.testBit 25 || !data.meets (vOne 0 1)) &&
      index.all fun g => if nf = 1 then vOverDst data g else fields.all fun d => !d.meets g))

/-- The accesses of a vector load or store; none for a reserved encoding. -/
def vecAccs (k : Core) (w : Nat) : Option (List VAcc) :=
  let nf := fld w 29 3 + 1
  let mop := fld w 26 2
  let eew := vEew (wF3 w)
  let store := decide (wOp w = 0x27)
  let base := xOf k (wRs1 w)
  let vd := wRd w
  let els (evl : Nat) : List Nat := (List.range evl).filter fun i => decide (k.vstart ≤ i)
  let at64 (i : Int) : Nat := wrap64 i
  if w.testBit 28 then none
  else if mop = 0 ∧ wRs2 w = 8 then
    if (nf = 1 ∨ nf = 2 ∨ nf = 4 ∨ nf = 8) ∧ vd % nf = 0 ∧ w.testBit 25 ∧ (!store ∨ eew = 8) then
      some ((els (nf * 64 / (eew / 8))).map fun i => ⟨i, at64 ((base : Int) + i * (eew / 8 : Nat)), eew / 8, vd, i⟩)
    else none
  else if mop = 0 ∧ wRs2 w = 11 then
    if wF3 w = 0 ∧ nf = 1 ∧ w.testBit 25 ∧ !vIll k then some ((els ((k.vl + 7) / 8)).map fun i => ⟨i, at64 ((base : Int) + i), 1, vd, i⟩) else none
  else if vIll k ∨ (mop = 0 ∧ wRs2 w ≠ 0 ∧ (wRs2 w ≠ 16 ∨ store)) then none
  else
    let dw := if mop % 2 = 1 then vSew k else eew
    let data := vGroup k vd dw
    let index := if mop % 2 = 1 then some (vGroup k (wRs2 w) eew) else none
    if !vAccOk w nf data index then none
    else
      let off (i : Nat) : Int := match mop with
        | 0 => (i * nf * (dw / 8) : Nat)
        | 2 => (i : Int) * sgn 64 (xOf k (wRs2 w))
        | _ => (vGet k (wRs2 w) eew i : Nat)
      some (((els k.vl).filter (vActive k w)).flatMap fun i => (List.range nf).map fun f =>
        ⟨i, at64 ((base : Int) + off i + (f * (dw / 8) : Nat)), dw / 8, vd + f * data.count, i⟩)

/-- Fault-only-first: the first element, beyond element 0, that no walk translates cuts `vl` (V 1.0). -/
def faultFirst (s : State) (b c : Nat) (as : List VAcc) : Option Nat :=
  (as.find? fun a => decide (0 < a.idx) && (match partsOf s b c 0 a.addr a.n with
    | .error (.walk va) => match walk s (ctxOfBlock s b) va with
      | .ok e => (useLeaf s e va 0 1).toOption.isNone
      | .error _ => true
    | .error _ => true
    | .ok _ => false)).map (·.idx)

/-- A vector load or store. -/
def doVecMem (b c w len : Nat) (store : Bool) (s : State) : State :=
  match vecAccs (coreOf s b c) w with
  | none => illegal b c w s
  | some as =>
    let cut := if !store ∧ fld w 26 2 = 0 ∧ wRs2 w = 16 then faultFirst s b c as else none
    match cut with
    | some i => vecGo b c len store (as.filter fun a => decide (a.idx < i)) (modCore b c (fun k => { k with vl := i }) s)
    | none => vecGo b c len store as s

/-! ### Atomics (R161, R259 to R262) -/

/-- The instruction class of a word, after expansion. -/
def isAtomic (w : Nat) : Bool := decide (wOp w = 0x2F) && (decide (wF3 w = 2) || decide (wF3 w = 3))
def isLr (w : Nat) : Bool := isAtomic w && decide (wRs3 w = 2)
def isSc (w : Nat) : Bool := isAtomic w && decide (wRs3 w = 3)
def atomBytes (w : Nat) : Nat := 2 ^ wF3 w

/-- Whether a chip physical address lies in an operand store (R259). -/
def inOperandStore (a : Nat) : Bool := decide (0x1C000000000 ≤ a) && decide (0x800000 ≤ a % 0x1000000)

/-- Resolves an atomic access: naturally aligned memory that is no operand store. Misaligned and access faults are traps (R161, R259). -/
def reachAtomic (b c w : Nat) (isLr : Bool) (s : State) (go : List Part → Nat → State → State) : State :=
  let va := xOf (coreOf s b c) (wRs1 w)
  let n := atomBytes w
  if va % n ≠ 0 then coreTrap b c (if isLr then 4 else 6) va s
  else reach b c va n 2 (if isLr then 5 else 7) s fun ps s =>
    if (memOf ps).isEmpty ∨ (memOf ps).any fun p => !p.1 && inOperandStore p.2.1 then coreTrap b c (if isLr then 5 else 7) va s
    else go ps va s

/-- The chip physical line of an access (R161: the reservation set is the aligned 64-byte line). -/
def physLine (s : State) (l : Nat) (ps : List Part) : Option Nat :=
  match memOf ps with
  | p :: _ => if p.1 then (resolve s l p.2.1).map (· / 64) else some (p.2.1 / 64)
  | [] => none

/-- A value of `n` bytes as a register receives it. -/
def atomOut (n v : Nat) : Nat := wrap64 (sgn (8 * n) v)

/-- AMO. -/
def doAmo (b c w : Nat) (s : State) : State :=
  let n := atomBytes w
  match amoValue (8 * n) (wRs3 w) 0 0 with
  | none => illegal b c w s
  | some _ => reachAtomic b c w false s fun ps va s =>
    match rdParts b c ps s with
    | .error e => memError b e 2 va s
    | .ok (bs, s) =>
      let old := unle bs
      let k := coreOf s b c
      let v := (amoValue (8 * n) (wRs3 w) old (xOf k (wRs2 w) % 2 ^ (8 * n))).getD 0
      match wrParts b c k.tag ps (le n v) s with
      | .error e => memError b e 2 va s
      | .ok t => modCore b c (retireX (wRd w) (atomOut n old)) (touchParts b k.tag (ctxOfBlock s b) true true ps t)

/-- LR. -/
def doLr (b c w : Nat) (s : State) : State :=
  let l := (blockOf s b).lode
  if wRs2 w ≠ 0 then illegal b c w s else
  reachAtomic b c w true s fun ps va s =>
    match rdParts b c ps s with
    | .error e => memError b e 2 va s
    | .ok (bs, s) =>
      let k := coreOf s b c
      modCore b c (fun k => { retireX (wRd w) (atomOut (atomBytes w) (unle bs)) k with resv := physLine s l ps })
        (touchParts b k.tag (ctxOfBlock s b) false true ps s)

/-- SC: stores when the reservation still holds its line. -/
def doSc (b c w : Nat) (s : State) : State :=
  let l := (blockOf s b).lode
  reachAtomic b c w false s fun ps va s =>
    let k := coreOf s b c
    if k.resv.isSome ∧ k.resv = physLine s l ps then
      match wrParts b c k.tag ps (le (atomBytes w) (xOf k (wRs2 w))) s with
      | .error e => memError b e 2 va s
      | .ok t => modCore b c (fun k => { retireX (wRd w) 0 k with resv := none }) (touchParts b k.tag (ctxOfBlock s b) true true ps t)
    else modCore b c (fun k => { retireX (wRd w) 1 k with resv := none }) s

end Sys2Proof.Machine
end

