-- ==== Sys2Proof/Machine/Vector.lean ====
section
/-! DEFINITION. Vector arithmetic of the cores (R159, R162: V 1.0, Zvfh; VLEN 512, ELEN 64): the settings, and every instruction of
OP-V with its reserved encodings. Only the unordered floating-point sums are free values (log 34). -/
namespace Sys2Proof.Machine
open Sys2Proof

/-! ### vsetvl -/

/-- Whether a `vtype` value is supported: no reserved bit, SEW to 64, a group that holds an element. -/
def vtypeOk (t : Nat) : Bool :=
  let lm : Nat := vLmul8 { vtype := t }
  decide (t < 256) && decide (fld t 3 3 ≤ 3) && decide (lm ≠ 0) && decide (2 ^ fld t 3 3 ≤ lm)

/-- Sets `vtype` and `vl`: an unsupported setting sets `vill` and `vl` 0. `avl` none keeps `vl`. -/
def vSet (t : Nat) (avl : Option Nat) (k : Core) : Core :=
  if vtypeOk t then
    let k := { k with vtype := t }
    { k with vl := min (avl.getD k.vl) (vMax k), vstart := 0 }
  else { k with vtype := 2 ^ 63, vl := 0, vstart := 0 }

/-- VSETVLI, VSETIVLI, VSETVL: the core with the setting, and `vl` in `rd`; none for a reserved encoding. -/
def vecSet (k : Core) (w : Nat) : Option Core :=
  let rd := wRd w
  let avl : Option Nat := if wRs1 w ≠ 0 then some (xOf k (wRs1 w)) else if rd ≠ 0 then some (2 ^ 64 - 1) else none
  let r := if !w.testBit 31 then some (vSet (fld w 20 11) avl k)
    else if w.testBit 30 then some (vSet (fld w 20 10) (some (wRs1 w)) k)
    else if fld w 25 6 = 0 then some (vSet (xOf k (wRs2 w)) avl k) else none
  r.map fun k => setX rd k.vl k

/-! ### What an instruction reads and writes -/

/-- The class of an OP-V funct3: 0 integer, 1 floating-point, 2 the M group. -/
def vClass (f3 : Nat) : Nat := if f3 = 1 ∨ f3 = 5 then 1 else if f3 = 2 ∨ f3 = 6 then 2 else 0

/-- The funct6 values that V 1.0 defines, with the operand forms of each: 0 a vector, 3 an immediate, 4 a scalar register. -/
def vForms (cls f6 : Nat) : List Nat :=
  match cls with
  | 0 =>
    if [1, 8, 13, 20, 21, 22, 36, 38].contains f6 ∨ 49 < f6 then []
    else if f6 = 48 ∨ f6 = 49 then [0]
    else if [3, 15, 30, 31].contains f6 then [3, 4]
    else if [2, 4, 5, 6, 7, 18, 19, 26, 27, 34, 35].contains f6 then [0, 4]
    else [0, 3, 4]
  | 1 =>
    if [11, 12, 13, 17, 20, 21, 22, 26, 30, 34, 35, 37, 38, 53, 55, 57, 58, 59].contains f6 then []
    else if [1, 3, 5, 7, 18, 19, 49, 51].contains f6 then [0]
    else if [14, 15, 23, 29, 31, 33, 39].contains f6 then [4]
    else [0, 4]
  | _ =>
    if [12, 13, 17, 19, 21, 22, 40, 42, 44, 46, 57].contains f6 then []
    else if f6 ≤ 7 ∨ f6 = 18 ∨ f6 = 20 ∨ (23 ≤ f6 ∧ f6 ≤ 31) then [0]
    else if f6 = 14 ∨ f6 = 15 ∨ f6 = 62 then [4]
    else [0, 4]

/-- The operand form of a funct3. -/
def vForm (f3 : Nat) : Nat := if f3 ≤ 2 then 0 else if f3 = 3 then 3 else 4

/-- How an instruction works on its elements. Widths are those of the destination, of vs2 and of vs1. -/
inductive VKind where
  | elem (dw aw bw : Nat)
  | carry
  | merge
  | compare
  | carryOut
  | logic
  | reduce (dw : Nat)
  | gather (iw : Nat)
  | slide (up one : Bool)
  | toScalar
  | fromScalar
  | first
  | iota
  | ident
  | compress
  | whole
deriving DecidableEq, Repr

/-- The kind of an instruction at an element width of `n` bits; none for a reserved encoding. -/
def vKind (w n : Nat) : Option VKind :=
  let f6 := fld w 26 6
  let f3 := wF3 w
  let u := wRs1 w
  if !(vForms (vClass f3) f6).contains (vForm f3) then none
  else match vClass f3 with
  | 0 => match f6 with
    | 12 => some (.gather n)
    | 14 => some (if f3 = 0 then .gather 16 else .slide true false)
    | 15 => some (.slide false false)
    | 16 | 18 => some .carry
    | 17 | 19 => some .carryOut
    | 23 => some .merge
    | 24 | 25 | 26 | 27 | 28 | 29 | 30 | 31 => some .compare
    | 39 => some (if f3 = 3 then .whole else .elem n n n)
    | 44 | 45 | 46 | 47 => some (.elem n (2 * n) n)
    | 48 | 49 => some (.reduce (2 * n))
    | _ => some (.elem n n n)
  | 1 => match f6 with
    | 1 | 3 | 5 | 7 => some (.reduce n)
    | 49 | 51 => some (.reduce (2 * n))
    | 14 => some (.slide true true)
    | 15 => some (.slide false true)
    | 16 => if f3 = 5 then some .fromScalar else if u = 0 then some .toScalar else none
    | 18 =>
      if u ≤ 3 ∨ u = 6 ∨ u = 7 then some (.elem n n n)
      else if (8 ≤ u ∧ u ≤ 12) ∨ u = 14 ∨ u = 15 then some (.elem (2 * n) n n)
      else if 16 ≤ u ∧ u ≤ 23 then some (.elem n (2 * n) n)
      else none
    | 19 => if u = 0 ∨ u = 4 ∨ u = 5 ∨ u = 16 then some (.elem n n n) else none
    | 23 => some .merge
    | 24 | 25 | 27 | 28 | 29 | 31 => some .compare
    | 52 | 54 => some (.elem (2 * n) (2 * n) n)
    | _ => some (if 48 ≤ f6 then .elem (2 * n) n n else .elem n n n)
  | _ => match f6 with
    | 14 => some (.slide true true)
    | 15 => some (.slide false true)
    | 16 => if f3 = 6 then some .fromScalar else if u = 0 ∨ u = 16 ∨ u = 17 then some .toScalar else none
    | 18 => if 2 ≤ u ∧ u ≤ 7 then some (.elem n (n / 2 ^ (4 - u / 2)) n) else none
    | 20 => if 1 ≤ u ∧ u ≤ 3 then some .first else if u = 16 then some .iota else if u = 17 then some .ident else none
    | 23 => some .compress
    | 24 | 25 | 26 | 27 | 28 | 29 | 30 | 31 => some .logic
    | 52 | 53 | 54 | 55 => some (.elem (2 * n) (2 * n) n)
    | _ => some (if f6 ≤ 7 then .reduce n else if 48 ≤ f6 then .elem (2 * n) n n else .elem n n n)

/-- The destination group of a kind; none when it is a scalar register. -/
def vDst (k : Core) (w : Nat) : VKind → Option VReg
  | .elem dw _ _ => some (vGroup k (wRd w) dw)
  | .compare | .carryOut | .logic | .first => some (vOne (wRd w) 1)
  | .reduce dw => some (vOne (wRd w) dw)
  | .fromScalar => some (vOne (wRd w) (vSew k))
  | .toScalar => none
  | .whole => some ⟨wRd w, vSew k, 8 * (wRs1 w + 1)⟩
  | _ => some (vGroup k (wRd w) (vSew k))

/-- The source groups of a kind, v0 apart. -/
def vSrcs (k : Core) (w : Nat) (v : VKind) : List VReg :=
  let n := vSew k
  let a (g : Nat → Nat → VReg) (ew : Nat) : List VReg := [g (wRs2 w) ew]
  let b (g : Nat → Nat → VReg) (ew : Nat) : List VReg := if wF3 w ≤ 2 then [g (wRs1 w) ew] else []
  let unary := (vClass (wF3 w) = 1 ∧ (fld w 26 6 = 18 ∨ fld w 26 6 = 19)) ∨ (vClass (wF3 w) = 2 ∧ fld w 26 6 = 18)
  match v with
  | .elem _ aw bw => a (vGroup k) aw ++ (if unary then [] else b (vGroup k) bw)
  | .carry | .compare | .carryOut => a (vGroup k) n ++ b (vGroup k) n
  | .merge => (if w.testBit 25 then [] else a (vGroup k) n) ++ b (vGroup k) n
  | .logic => a vOne 1 ++ b vOne 1
  | .reduce dw => a (vGroup k) n ++ b vOne dw
  | .gather iw => a (vGroup k) n ++ b (vGroup k) iw
  | .slide _ _ => a (vGroup k) n
  | .toScalar => if vClass (wF3 w) = 2 ∧ wRs1 w ≠ 0 then a vOne 1 else a vOne n
  | .fromScalar | .ident => []
  | .first | .iota => a vOne 1
  | .compress => a (vGroup k) n ++ b vOne 1
  | .whole => [⟨wRs2 w, n, 8 * (wRs1 w + 1)⟩]

/-- Whether the fields of an encoding that a kind fixes have their values: the mask bit, and unused register fields. -/
def vFieldsOk (w : Nat) (v : VKind) : Bool :=
  let vm := w.testBit 25
  match v with
  | .carry => !vm && decide (wRd w ≠ 0)
  | .merge => !vm || decide (wRs2 w = 0)
  | .logic | .compress => vm
  | .toScalar => vm || (decide (vClass (wF3 w) = 2) && decide (wRs1 w ≠ 0))
  | .fromScalar => vm && decide (wRs2 w = 0)
  | .ident => decide (wRs2 w = 0)
  | .whole => vm && [0, 1, 3, 7].contains (wRs1 w)
  | _ => true

/-- Whether an instruction writes one mask or one scalar element, so that v0 may be its destination while it is masked. -/
def VKind.single : VKind → Bool
  | .compare | .carryOut | .logic | .reduce _ | .toScalar | .fromScalar => true
  | _ => false

/-- Whether no source may lie under the destination. -/
def VKind.apart : VKind → Bool
  | .gather _ | .slide true _ | .first | .iota | .compress => true
  | _ => false

/-- Whether `vstart` must be 0. -/
def vFromStart (w : Nat) : VKind → Bool
  | .reduce _ | .first | .iota | .compress => true
  | .toScalar => decide (vClass (wF3 w) = 2) && decide (wRs1 w ≠ 0)
  | _ => false

/-- Whether an encoding of a kind is legal under the setting: groups, overlaps, `vstart`, fixed fields (V 1.0). -/
def vLegal (k : Core) (w : Nat) (v : VKind) : Bool :=
  let src := vSrcs k w v
  let masked := !w.testBit 25
  let reads := (if masked then [vOne 0 1] else []) ++ src
  vFieldsOk w v && src.all VReg.ok && !(vFromStart w v && decide (k.vstart ≠ 0)) &&
    reads.all (fun g => reads.all fun h => decide (g.ew = h.ew) || !g.meets h) &&
    (match vDst k w v with
    | none => true
    | some d => d.ok && (v.single || !masked || !d.meets (vOne 0 1)) &&
        (match v with
        | .reduce _ => true
        | _ => src.all fun g => if v.apart then !d.meets g else vOverDst d g))

/-! ### Element values -/

/-- The format of floating-point elements of a width. -/
def vFlt (n : Nat) : Option Flt :=
  match n with
  | 16 => some ⟨5, 10, 15, 0⟩ | 32 => some ⟨8, 23, 127, 0⟩ | 64 => some ⟨11, 52, 1023, 0⟩ | _ => none

/-- The value of an element: its bits, its `fcsr` flags, and whether it saturated. -/
structure VVal where
  v     : Nat
  flags : Nat := 0
  sat   : Bool := false
deriving DecidableEq, Repr

/-- A fixed-point value shifted right by `d` bits and rounded: 0 to nearest up, 1 to nearest even, 2 down, 3 to odd. -/
def vRound (rm : Nat) (v : Int) (d : Nat) : Int :=
  let q := v / (2 ^ d : Nat)
  let r := (v % (2 ^ d : Nat)).toNat
  let up : Bool := match rm with
    | 0 => decide (2 ^ d ≤ 2 * r)
    | 1 => decide (2 ^ d < 2 * r) || (decide (2 ^ d = 2 * r) && decide (q % 2 = 1))
    | 2 => false
    | _ => decide (r ≠ 0) && decide (q % 2 = 0)
  if up then q + 1 else q

/-- A value clipped to `n` bits. -/
def vClip (n : Nat) (signed : Bool) (i : Int) : VVal :=
  let hi : Int := if signed then 2 ^ (n - 1) - 1 else 2 ^ n - 1
  let lo : Int := if signed then -2 ^ (n - 1) else 0
  if hi < i then ⟨wrapInt n hi, 0, true⟩ else if i < lo then ⟨wrapInt n lo, 0, true⟩ else ⟨wrapInt n i, 0, false⟩

/-- An element of OPI: vs2, the other operand, the bit of v0. -/
def vInt (f6 n xrm a b m : Nat) : VVal :=
  let w (i : Int) : VVal := ⟨wrapInt n i, 0, false⟩
  let sa := sgn n a
  let sb := sgn n b
  let sh := b % n
  let sh2 := b % (2 * n)
  match f6 with
  | 0 => w ((a : Int) + b) | 2 => w ((a : Int) - b) | 3 => w ((b : Int) - a)
  | 4 => w (min a b : Nat) | 5 => w (min sa sb) | 6 => w (max a b : Nat) | 7 => w (max sa sb)
  | 9 => w (a &&& b : Nat) | 10 => w (a ||| b : Nat) | 11 => w (a ^^^ b : Nat)
  | 16 => w ((a : Int) + b + m) | 18 => w ((a : Int) - b - m)
  | 32 => vClip n false ((a : Int) + b) | 33 => vClip n true (sa + sb)
  | 34 => vClip n false ((a : Int) - b) | 35 => vClip n true (sa - sb)
  | 37 => w (a * 2 ^ sh : Nat) | 40 => w (a / 2 ^ sh : Nat) | 41 => w (sa / (2 ^ sh : Nat))
  | 39 => vClip n true (vRound xrm (sa * sb) (n - 1))
  | 42 => w (vRound xrm a sh) | 43 => w (vRound xrm sa sh)
  | 44 => w (a / 2 ^ sh2 : Nat) | 45 => w (sgn (2 * n) a / (2 ^ sh2 : Nat))
  | 46 => vClip n false (vRound xrm a sh2)
  | _ => vClip n true (vRound xrm (sgn (2 * n) a) sh2)

/-- An element of OPM of `dw` bits: the operand form's code `u` (VXUNARY0), vs2 of `aw` bits, the other operand, the old vd. -/
def vMul (f6 n dw aw xrm u a b d : Nat) : VVal :=
  let w (i : Int) : VVal := ⟨wrapInt dw i, 0, false⟩
  let sa := sgn aw a
  let sb := sgn n b
  let ab : Int := (a * b : Nat)
  match f6 with
  | 8 => w (vRound xrm ((a : Int) + b) 1) | 9 => w (vRound xrm (sa + sb) 1)
  | 10 => w (vRound xrm ((a : Int) - b) 1) | 11 => w (vRound xrm (sa - sb) 1)
  | 18 => w (if u % 2 = 1 then sa else a)
  | 32 => w (mulDiv n 5 a b : Nat) | 33 => w (mulDiv n 4 a b : Nat) | 34 => w (mulDiv n 7 a b : Nat) | 35 => w (mulDiv n 6 a b : Nat)
  | 36 => w (mulDiv n 3 a b : Nat) | 37 => w (mulDiv n 0 a b : Nat) | 38 => w (mulDiv n 2 a b : Nat) | 39 => w (mulDiv n 1 a b : Nat)
  | 41 => w ((d * b + a : Nat) : Int) | 43 => w ((a : Int) - (d * b : Nat))
  | 45 => w (ab + d) | 47 => w ((d : Int) - ab)
  | 48 | 52 => w ((a : Int) + b) | 49 | 53 => w (sa + sb) | 50 | 54 => w ((a : Int) - b) | 51 | 55 => w (sa - sb)
  | 56 => w ab | 58 => w (sa * b) | 59 => w (sa * sb)
  | 60 => w (ab + d) | 61 => w (sa * sb + d) | 62 => w (sa * b + d)
  | _ => w ((a : Int) * sb + d)

/-- The square-root estimate's table entry (V 1.0): seven bits of 1/√x, by the low bit of the exponent and six bits of significand. -/
def vRsqrtTable (i : Nat) : Nat :=
  let x := (129 + 2 * (i % 64)) * (if i < 64 then 2 else 1)
  (isqrtGo 20 (2 ^ 25 / x) 0 + 1) / 2 - 128
/-- The reciprocal estimate's table entry (V 1.0). -/
def vRecTable (i : Nat) : Nat := (2 * 65536 + (257 + 2 * i)) / (2 * (257 + 2 * i)) - 128

/-- Exponent and significand of a finite nonzero encoding, subnormals normalised. -/
def vNormal (f : Flt) (a : Nat) : Int × Nat :=
  let e := fld a f.mb f.eb
  let m := a % 2 ^ f.mb
  if e ≠ 0 then (e, m)
  else
    let z := f.mb - 1 - Nat.log2 m
    (-(z : Int), m * 2 ^ (z + 1) % 2 ^ f.mb)

/-- VFRSQRT7. -/
def vRsqrt7 (f : Flt) (a : Nat) : VVal :=
  let neg := a.testBit (f.eb + f.mb)
  match f.decode a with
  | .nan => ⟨f.nanBits, snanFlag f [a], false⟩
  | .inf n => if n then ⟨f.nanBits, fpNV, false⟩ else ⟨0, 0, false⟩
  | .fin _ m _ =>
    if m = 0 then ⟨(if neg then 2 ^ (f.eb + f.mb) else 0) + f.infBits, fpDZ, false⟩
    else if neg then ⟨f.nanBits, fpNV, false⟩
    else
      let (e, s) := vNormal f a
      let t := vRsqrtTable ((e % 2).toNat * 64 + s / 2 ^ (f.mb - 6))
      ⟨((3 * f.bias - 1 - e) / 2).toNat * 2 ^ f.mb + t * 2 ^ (f.mb - 7), 0, false⟩

/-- VFREC7. -/
def vRec7 (f : Flt) (rm a : Nat) : VVal :=
  let neg := a.testBit (f.eb + f.mb)
  let sg := if neg then 2 ^ (f.eb + f.mb) else 0
  match f.decode a with
  | .nan => ⟨f.nanBits, snanFlag f [a], false⟩
  | .inf _ => ⟨sg, 0, false⟩
  | .fin _ m _ =>
    if m = 0 then ⟨sg + f.infBits, fpDZ, false⟩
    else
      let (e, s) := vNormal f a
      if e < -1 then
        let low := decide (rm = 1) || (decide (rm = 2) && !neg) || (decide (rm = 3) && neg)
        ⟨sg + (if low then f.infBits - 1 else f.infBits), fpOF ||| fpNX, false⟩
      else
        let t := vRecTable (s / 2 ^ (f.mb - 7)) * 2 ^ (f.mb - 7)
        let o := 2 * f.bias - 1 - e
        if 1 ≤ o then ⟨sg + o.toNat * 2 ^ f.mb + t, 0, false⟩
        else ⟨sg + (2 ^ f.mb + t) / 2 ^ (1 - o).toNat, 0, false⟩

/-- A conversion (VFUNARY0) to `dw` bits from `aw` bits. -/
def vConvert (u rm dw aw a : Nat) : VVal :=
  let o (r : Nat × Nat) : VVal := ⟨r.1, r.2, false⟩
  let toInt (rm : Nat) (signed : Bool) : VVal := match vFlt aw with
    | some f => o (fpToInt rm dw signed (f.decode a))
    | none => o (0, 0)
  let ofInt (i : Int) : VVal := match vFlt dw with
    | some g => o (fpEncode g rm (numOfInt i))
    | none => o (0, 0)
  match u % 8 with
  | 0 => toInt rm false
  | 1 => toInt rm true
  | 2 => ofInt a
  | 3 => ofInt (sgn aw a)
  | 6 => toInt 1 false
  | 7 => toInt 1 true
  | _ => match vFlt aw, vFlt dw with
    | some f, some g =>
      let r := fpEncode g (if u % 8 = 5 then 1 else rm) (f.decode a)
      let odd := decide (u % 8 = 5) && r.2.testBit 0
      ⟨if odd then r.1 ||| 1 else r.1, r.2 ||| snanFlag f [a], false⟩
    | _, _ => o (0, 0)

/-- An element of OPF at one width. -/
def vFp (f : Flt) (f6 n rm u a b d : Nat) : VVal :=
  let o (r : Nat × Nat) : VVal := ⟨r.1, r.2, false⟩
  match f6 with
  | 0 => o (fpArith f 0 rm a b) | 2 => o (fpArith f 1 rm a b) | 39 => o (fpArith f 1 rm b a)
  | 36 => o (fpArith f 2 rm a b) | 32 => o (fpArith f 3 rm a b) | 33 => o (fpArith f 3 rm b a)
  | 4 => o (fpMinMax f false a b) | 6 => o (fpMinMax f true a b)
  | 8 | 9 | 10 => o ((fpSgnj n (f6 - 8) a b).getD 0, 0)
  | 19 => match u with
    | 0 => o (fpArith f 4 rm a a) | 4 => vRsqrt7 f a | 5 => vRec7 f rm a | _ => o (fpClass f a, 0)
  | 40 => o (fpFma f rm false false d b a) | 41 => o (fpFma f rm true true d b a)
  | 42 => o (fpFma f rm false true d b a) | 43 => o (fpFma f rm true false d b a)
  | 44 => o (fpFma f rm false false a b d) | 45 => o (fpFma f rm true true a b d)
  | 46 => o (fpFma f rm false true a b d) | _ => o (fpFma f rm true false a b d)

/-- A value in the format of twice the width: exact, with NV for a signalling NaN. -/
def vWiden (f g : Flt) (a : Nat) : Nat × Nat := ((fpEncode g 0 (f.decode a)).1, snanFlag f [a])

/-- An element of OPF with a result of twice the width; `wa` when vs2 already has it. -/
def vFpWide (f g : Flt) (f6 rm : Nat) (wa : Bool) (a b d : Nat) : VVal :=
  let x := if wa then (a, 0) else vWiden f g a
  let y := vWiden f g b
  let r := match f6 with
    | 48 | 52 => fpArith g 0 rm x.1 y.1
    | 50 | 54 => fpArith g 1 rm x.1 y.1
    | 56 => fpArith g 2 rm x.1 y.1
    | 60 => fpFma g rm false false x.1 y.1 d
    | 61 => fpFma g rm true true x.1 y.1 d
    | 62 => fpFma g rm false true x.1 y.1 d
    | _ => fpFma g rm true false x.1 y.1 d
  ⟨r.1, r.2 ||| x.2 ||| y.2, false⟩

/-- An integer comparison into a mask. -/
def vIntCmp (f6 n a b : Nat) : Bool :=
  let sa := sgn n a
  let sb := sgn n b
  match f6 with
  | 24 => decide (a = b) | 25 => decide (a ≠ b) | 26 => decide (a < b) | 27 => decide (sa < sb)
  | 28 => decide (a ≤ b) | 29 => decide (sa ≤ sb) | 30 => decide (b < a) | _ => decide (sb < sa)

/-- A floating-point comparison into a mask, with flags. -/
def vFpCmp (f : Flt) (f6 a b : Nat) : Bool × Nat :=
  let t (op x y : Nat) (neg : Bool) : Bool × Nat := let r := fpCmp f op x y
                                                    ((r.1 == 1) != neg, r.2)
  match f6 with
  | 24 => t 2 a b false | 25 => t 0 a b false | 27 => t 1 a b false | 28 => t 2 a b true | 29 => t 1 b a false | _ => t 0 b a false

/-- The carry out of an addition, or the borrow of a subtraction. -/
def vCarryOut (f6 n a b m : Nat) : Bool := if f6 = 17 then decide (2 ^ n ≤ a + b + m) else decide (a < b + m)

/-- A mask operation. -/
def vLogic (f6 : Nat) (x y : Bool) : Bool :=
  match f6 with
  | 24 => x && !y | 25 => x && y | 26 => x || y | 27 => x != y
  | 28 => x || !y | 29 => !(x && y) | 30 => !(x || y) | _ => x == y

/-! ### Operands and results -/

/-- Whether an immediate is unsigned: shifts, clips, slides and gathers. -/
def vUimm (f6 : Nat) : Bool := [12, 14, 15, 37, 40, 41, 42, 43, 44, 45, 46, 47].contains f6

/-- The scalar operand of a floating-point form: an f register, unboxed. -/
def vScalarF (k : Core) (w n : Nat) : Nat :=
  match vFlt n with
  | some f => unbox f n (fOf k (wRs1 w)) % 2 ^ n
  | none => fOf k (wRs1 w) % 2 ^ n

/-- The second operand of element `i`: a vs1 element, a register, or the immediate. -/
def vOperand (k : Core) (w n i : Nat) : Nat :=
  match wF3 w with
  | 0 | 1 | 2 => vGet k (wRs1 w) n i
  | 3 => if vUimm (fld w 26 6) then wRs1 w else wrapInt n (sgn 5 (wRs1 w))
  | 5 => vScalarF k w n
  | _ => xOf k (wRs1 w) % 2 ^ n

/-- The amount of a slide, or the index of a gather, that is no vector: the whole register, or the immediate. -/
def vAmount (k : Core) (w : Nat) : Nat := if wF3 w = 3 then wRs1 w else xOf k (wRs1 w)

/-- Everything a vector instruction can read, for the results that the model leaves free. -/
def vState (k : Core) : List Nat :=
  [k.vl, k.vtype, k.vstart, k.vcsr, k.fcsr] ++ (List.range 32).map (xOf k) ++ (List.range 32).map (fOf k) ++
    (List.range 32).map fun n => (tget 0 k.v n).toNat

/-- The free result number `i` of an instruction (log 34). -/
def vFree (k : Core) (w i : Nat) : Nat := Config.coreResult w (i :: vState k)

/-- Adds flags to `fcsr`. -/
def accrue (f : Nat) (k : Core) : Core := { k with fcsr := k.fcsr ||| f % 32 }
/-- Sets `vxsat` on a saturation. -/
def saturate (sat : Bool) (k : Core) : Core := if sat then { k with vcsr := k.vcsr ||| 1 } else k

/-- Writes elements of a group, with their flags. -/
def vWrite (r dw : Nat) (es : List (Nat × VVal)) (k : Core) : Core :=
  es.foldl (fun k e => accrue e.2.flags (saturate e.2.sat (vPut r dw e.1 (e.2.v % 2 ^ dw) k))) k
/-- Writes bits of a mask register, with flags. -/
def vWriteMask (r : Nat) (es : List (Nat × Bool × Nat)) (k : Core) : Core :=
  es.foldl (fun k e => accrue e.2.2 (vPut r 1 e.1 (if e.2.1 then 1 else 0) k)) k

/-- The rounding mode of floating-point elements. -/
def vFrm (k : Core) : Nat := fld k.fcsr 5 3
/-- Bit `i` of a mask register. -/
def vBit (k : Core) (r i : Nat) : Bool := vGet k r 1 i == 1

/-- Element `i` of an elementwise instruction. -/
def vElem (k : Core) (w n dw aw bw i : Nat) : VVal :=
  let f6 := fld w 26 6
  let a := vGet k (wRs2 w) aw i
  let b := vOperand k w bw i
  let d := vGet k (wRd w) dw i
  match vClass (wF3 w) with
  | 0 => vInt f6 n (fld k.vcsr 1 2) a b (if vBit k 0 i then 1 else 0)
  | 2 => vMul f6 n dw aw (fld k.vcsr 1 2) (wRs1 w) a b d
  | _ =>
    if f6 = 18 then vConvert (wRs1 w) (vFrm k) dw aw a
    else match vFlt n, vFlt dw with
    | some f, some g => if dw = n then vFp f f6 n (vFrm k) (wRs1 w) a b d else vFpWide f g f6 (vFrm k) (decide (aw ≠ n)) a b d
    | _, _ => ⟨0, 0, false⟩

/-- One step of a reduction: the value so far and an element of vs2. -/
def vReduceStep (k : Core) (w n dw : Nat) (acc : VVal) (a : Nat) : VVal :=
  let f6 := fld w 26 6
  let o (v : Nat) : VVal := ⟨v, 0, false⟩
  match vClass (wF3 w) with
  | 0 => o (wrapInt dw ((acc.v : Int) + (if f6 = 49 then sgn n a else a)))
  | 2 => match f6 with
    | 0 => o ((acc.v + a) % 2 ^ n) | 1 => o (acc.v &&& a) | 2 => o (acc.v ||| a) | 3 => o (acc.v ^^^ a)
    | 4 => o (min acc.v a) | 5 => o (wrapInt n (min (sgn n acc.v) (sgn n a)))
    | 6 => o (max acc.v a) | _ => o (wrapInt n (max (sgn n acc.v) (sgn n a)))
  | _ => match vFlt n, vFlt dw with
    | some f, some g =>
      let x := if dw = n then (a, 0) else vWiden f g a
      let r := if f6 = 5 then fpMinMax g false acc.v x.1 else if f6 = 7 then fpMinMax g true acc.v x.1 else fpArith g 0 (vFrm k) acc.v x.1
      ⟨r.1, acc.flags ||| r.2 ||| x.2, false⟩
    | _, _ => acc

/-- An unordered sum (log 34): which value it has, V 1.0 leaves open, but no element leaves the scalar, a NaN operand gives a NaN, and a
NaN is the canonical one (R128). -/
def vFreeSum (k : Core) (w n dw : Nat) (active : List Nat) : VVal :=
  let nan (bits : Nat) (f : Flt) : Bool := (f.decode bits).isNan
  match vFlt n, vFlt dw with
  | some f, some g =>
    let scalar := vGet k (wRs1 w) dw 0
    let v := vFree k w 0 % 2 ^ dw
    if active.isEmpty then ⟨scalar, 0, false⟩
    else if nan v g || nan scalar g || active.any (fun i => nan (vGet k (wRs2 w) n i) f) then ⟨g.nanBits, vFree k w 1 % 32, false⟩
    else ⟨v, vFree k w 1 % 32, false⟩
  | _, _ => ⟨0, 0, false⟩

/-- A reduction over active elements; the sums whose order V 1.0 leaves open are free (log 34). -/
def vReduce (k : Core) (w n dw : Nat) (active : List Nat) : VVal :=
  if vClass (wF3 w) = 1 ∧ (fld w 26 6 = 1 ∨ fld w 26 6 = 49) then vFreeSum k w n dw active
  else active.foldl (fun acc i => vReduceStep k w n dw acc (vGet k (wRs2 w) n i)) ⟨vGet k (wRs1 w) dw 0, 0, false⟩

/-- Element `i` after a slide, none when it keeps its value. -/
def vSlid (k : Core) (w n : Nat) (up one : Bool) (i : Nat) : Option Nat :=
  let sc := if wF3 w = 5 then vScalarF k w n else xOf k (wRs1 w) % 2 ^ n
  let o := vAmount k w
  let a (j : Nat) : Nat := if j < vMax k then vGet k (wRs2 w) n j else 0
  match up, one with
  | true, true => some (if i = 0 then sc else a (i - 1))
  | false, true => some (if i + 1 = k.vl then sc else a (i + 1))
  | true, false => if i < o then none else some (a (i - o))
  | false, false => some (a (i + o))

/-- The moves and counts that write a scalar register (VWXUNARY0, VWFUNARY0). -/
def vToScalar (k : Core) (w n : Nat) : Core :=
  let bits := (List.range k.vl).filter fun i => vActive k w i && vBit k (wRs2 w) i
  let rd := wRd w
  if wF3 w = 1 then setF rd (box n (vGet k (wRs2 w) n 0)) k
  else if wRs1 w = 0 then setX rd (wrap64 (sgn n (vGet k (wRs2 w) n 0))) k
  else if wRs1 w = 16 then setX rd bits.length k
  else setX rd (match bits with | i :: _ => i | [] => 2 ^ 64 - 1) k

/-- What a legal instruction writes. -/
def vRun (k : Core) (w n : Nat) (v : VKind) : Core :=
  let f6 := fld w 26 6
  let rd := wRd w
  let body := (List.range k.vl).filter fun i => decide (k.vstart ≤ i)
  let act := body.filter (vActive k w)
  let vec (is : List Nat) (f : Nat → VVal) : Core := vWrite rd n (is.map fun i => (i, f i)) k
  let o (x : Nat) : VVal := ⟨x, 0, false⟩
  match v with
  | .elem dw aw bw => vWrite rd dw (act.map fun i => (i, vElem k w n dw aw bw i)) k
  | .carry => vec body fun i => vElem k w n n n n i
  | .merge => vec body fun i => o (if vActive k w i then vOperand k w n i else vGet k (wRs2 w) n i)
  | .compare => vWriteMask rd (act.map fun i =>
      let a := vGet k (wRs2 w) n i
      let b := vOperand k w n i
      (i, match vClass (wF3 w), vFlt n with
        | 1, some f => vFpCmp f f6 a b
        | _, _ => (vIntCmp f6 n a b, 0))) k
  | .carryOut => vWriteMask rd (body.map fun i =>
      (i, vCarryOut f6 n (vGet k (wRs2 w) n i) (vOperand k w n i) (if !w.testBit 25 && vBit k 0 i then 1 else 0), 0)) k
  | .logic => vWriteMask rd (body.map fun i => (i, vLogic f6 (vBit k (wRs2 w) i) (vBit k (wRs1 w) i), 0)) k
  | .reduce dw => if k.vl = 0 then k else vWrite rd dw [(0, vReduce k w n dw act)] k
  | .gather iw => vec act fun i =>
      let j := if wF3 w = 0 then vGet k (wRs1 w) iw i else vAmount k w
      o (if j < vMax k then vGet k (wRs2 w) n j else 0)
  | .slide up one => vWrite rd n (act.filterMap fun i => (vSlid k w n up one i).map fun x => (i, o x)) k
  | .toScalar => vToScalar k w n
  | .fromScalar => if k.vstart < k.vl then vWrite rd n [(0, o (vOperand k w n 0))] k else k
  | .first =>
    let lead := act.find? (vBit k (wRs2 w))
    vWriteMask rd (act.map fun i => (i, (match lead with
      | none => decide (wRs1 w ≠ 2)
      | some j => match wRs1 w with
        | 1 => decide (i < j)
        | 2 => decide (i = j)
        | _ => decide (i ≤ j)), 0)) k
  | .iota => vec act fun i => o ((act.filter fun j => decide (j < i) && vBit k (wRs2 w) j).length)
  | .ident => vec act o
  | .compress =>
    let keep := (List.range k.vl).filter (vBit k (wRs1 w))
    vWrite rd n ((List.range keep.length).zip keep |>.map fun p => (p.1, o (vGet k (wRs2 w) n p.2))) k
  | .whole => vWrite rd n (((List.range ((wRs1 w + 1) * 512 / n)).filter fun i => decide (k.vstart ≤ i)).map fun i =>
      (i, o (vGet k (wRs2 w) n i))) k

/-- Whether the widths of a floating-point instruction have formats and `frm` names a rounding mode. -/
def vFpOk (k : Core) (w n : Nat) : Bool :=
  let ints := decide (fld w 26 6 = 18) && [10, 11, 16, 17, 22, 23].contains (wRs1 w)
  decide (vClass (wF3 w) ≠ 1) || (decide (vFrm k ≤ 4) && (decide (n ≠ 8) || ints))

/-- An arithmetic instruction of OP-V: the core with its result; none for an illegal one. -/
def vecArith (k : Core) (w : Nat) : Option Core :=
  let n := vSew k
  if vIll k ∨ !vFpOk k w n then none
  else match vKind w n with
  | none => none
  | some v => if vLegal k w v then some { vRun k w n v with vstart := 0 } else none

/-- OP-V. -/
def vecOp (k : Core) (w : Nat) : Option Core := if wF3 w = 7 then vecSet k w else vecArith k w

end Sys2Proof.Machine
end

