-- ==== Sys2Proof/Machine/Cores.lean ====
section
/-! DEFINITION. The instructions of the general cores (R159 to R182), exceptions (R184), walks (R227), and how a launch starts and
ends on a block (R179, R183, R187, R188). -/
namespace Sys2Proof.Machine
open Sys2Proof

/-! ### Semaphores, barriers, fences (R167 to R169) -/

/-- SEM.WAIT: the core waits; its request goes to the hub. -/
def execSemWait (b c rd rs1 rs2 scope : Nat) (s : State) : Host.Outcome State Fault Refusal :=
  onCore b c s fun s =>
    let k := coreOf s b c
    let n := xOf k rs1 % 2 ^ 17
    let count := countOf (xOf k rs2)
    if !holdsSem s (blockOf s b).lode n then endLaunch b Err.gcSem [] s
    else modCore b c (fun k => { k with wait := .sem n count rd scope })
      (sendSync n (.wait b c count rd) s)

/-- SEM.POST: a release that orders the core's earlier accesses, which this model has performed already. -/
def execSemPost (b c rs1 rs2 _scope : Nat) (s : State) : Host.Outcome State Fault Refusal :=
  onCore b c s fun s =>
    let k := coreOf s b c
    let n := xOf k rs1 % 2 ^ 17
    if !holdsSem s (blockOf s b).lode n then endLaunch b Err.gcSem [] s
    else if (semOf s n).poisoned then endLaunch b Err.memUncorrected [] s
    else modCore b c (retire 4) (sendPost n (countOf (xOf k rs2)) s)

/-- SEM.TRY: its one attempt is made at the hub; the core continues with the answer. -/
def execSemTry (b c rd rs1 rs2 scope : Nat) (s : State) : Host.Outcome State Fault Refusal :=
  onCore b c s fun s =>
    let k := coreOf s b c
    let n := xOf k rs1 % 2 ^ 17
    let count := countOf (xOf k rs2)
    if !holdsSem s (blockOf s b).lode n then endLaunch b Err.gcSem [] s
    else modCore b c (fun k => { k with wait := .sem n count rd scope })
      (sendSync n (.try b c count rd) s)

/-- BAR.ARRIVE. -/
def execBarArrive (b c rs1 : Nat) (s : State) : Host.Outcome State Fault Refusal :=
  onCore b c s fun s =>
    let g := xOf (coreOf s b c) rs1 % 2 ^ 12
    if !holdsBar s (blockOf s b).lode g then endLaunch b Err.gcSem [] s
    else modCore b c (fun k => { k with wait := .barrier g }) (modBar g (fun m => { m with inflight := m.inflight ++ [(epochTag s (blockOf s b).lode, b, c)] }) s)

/-- FENCE.S: in a machine that performs each access at once it orders nothing more; its DMA and ME bits wait. -/
def execFenceS (b c funct7 : Nat) (s : State) : Host.Outcome State Fault Refusal :=
  onCore b c s fun s =>
    let k := coreOf s b c
    if 64 ≤ funct7 then illegal b c (mkR 0x0B 4 funct7 0 0 0) s
    else if (funct7.testBit 2 ∧ k.dmaOut ≠ 0) ∨ (funct7.testBit 3 ∧ k.meOut ≠ 0) then
      modCore b c (fun k => { k with wait := .fence (funct7.testBit 2) (funct7.testBit 3) }) s
    else modCore b c (retire 4) s

/-- SPW.SEL (R175). -/
def execSpwSel (b c rd rs1 rs2 : Nat) (s : State) : Host.Outcome State Fault Refusal :=
  onCore b c s fun s =>
    let k := coreOf s b c
    let w := xOf k rs1 % 4
    let t := xOf k rs2
    let set (v : Option FarWin) : State := modCore b c (fun k => retireX rd 0 { k with wins := tset none k.wins w v }) s
    let bad : State := modCore b c (retireX rd Err.gcWindow) s
    if 2 ^ 11 ≤ t then bad
    else if t.testBit 10 then set none
    else if fld t 8 2 = 3 ∨ t.testBit 7 then bad
    else match destBlock s b (fld t 0 7) with
      | some k => set (some { kind := fld t 8 2, block := k })
      | none => bad

/-! ### VCVT (R177, R178) -/

/-- The conversion of a control word. -/
def vcvtConv (t : Nat) : Conv :=
  { sf := fld t 0 4, df := fld t 4 4, rnd := fld t 10 2, sat := t.testBit 16, pre := none, ss := t.testBit 13, ds := fld t 14 2 }

/-- Registers of a group of `n` packed elements. -/
def vcvtRegs (code n : Nat) : Nat := (n * fmtBits code / 8 + 63) / 64

/-- The register rules of R177. -/
def vcvtRegsOk (k : Core) (t vd vs2 : Nat) : Bool :=
  let c := vcvtConv t
  let n := 32 * (fld t 17 2 + 1)
  let ns := vcvtRegs c.sf n
  let nd := vcvtRegs c.df n
  let vsc := fld t 19 5
  decide (t < 2 ^ 24) && !t.testBit 12 && decide (fld t 8 2 = 0) && decide (k.vstart = 0) &&
    decide (ns ≤ 8) && decide (nd ≤ 8) && decide (vs2 + ns ≤ 32) && decide (vd + nd ≤ 32) &&
    (decide (vs2 + ns ≤ vd) || decide (vd + nd ≤ vs2)) &&
    (decide (vsc < vs2) || decide (vs2 + ns ≤ vsc)) && (decide (vsc < vd) || decide (vd + nd ≤ vsc))

/-- The low bytes of a group of vector registers. -/
def vBytes (k : Core) (r n : Nat) : List Byte := (List.range n).map fun i => BitVec.ofNat 8 (vGet k r 8 i)
def vPutBytes (r : Nat) (bs : List Byte) (k : Core) : Core := bs.zipIdx.foldl (fun k p => vPut r 8 p.2 p.1.toNat k) k

/-- The conversion of registers. -/
def vcvtCore (t vd vs2 : Nat) (k : Core) : Core :=
  let c := vcvtConv t
  let n := 32 * (fld t 17 2 + 1)
  let vsc := fld t 19 5
  let bytes (o : Nat) : List Nat := (List.range 4).map fun i => vGet k vsc 8 (o + i)
  let (es, sc, f, gen) := c.row (unpack c.sf n (vBytes k vs2 (n * fmtBits c.sf / 8))) (bytes 0) (bytes 8) k.gen
  let k' := vPutBytes vd (pack c.df es) k
  let k' := if c.ds = 1 then sc.zipIdx.foldl (fun k p => vPut vsc 8 (8 + p.2) p.1 k) k' else k'
  { k' with xflags := k'.xflags ||| f, gen := gen }

def execVcvt (b c vd rs1 vs2 : Nat) (s : State) : Host.Outcome State Fault Refusal :=
  onCore b c s fun s =>
    let k := coreOf s b c
    let t := xOf k rs1
    if (vcvtConv t).check ≠ 0 then endLaunch b Err.convPair [] s
    else if !vcvtRegsOk k t vd vs2 then illegal b c (mkR 0x5B 0 0 vd rs1 vs2) s
    else modCore b c (fun k => retire 4 (vcvtCore t vd vs2 k)) s

/-! ### CSRs (R159, R176, R181) -/

/-- Ticks left of a deadline: 1 once it has passed, 0 for none (R176). -/
def ticksLeft (s : State) (k : Core) : Nat :=
  match k.deadline with
  | none => 0
  | some t => if t ≤ nowTick s then 1 else t - nowTick s

/-- The value of a CSR; none for one that does not exist. -/
def csrRead (s : State) (b c n : Nat) : Option Nat :=
  let k := coreOf s b c
  let d := blockOf s b
  let slots := d.slots
  match n with
  | 0x001 => some (k.fcsr % 32)
  | 0x002 => some (fld k.fcsr 5 3)
  | 0x003 => some k.fcsr
  | 0x008 => some k.vstart
  | 0x009 => some (k.vcsr % 2)
  | 0x00A => some (fld k.vcsr 1 2)
  | 0x00F => some k.vcsr
  | 0x800 => some k.tag
  | 0x801 => some (ticksLeft s k)
  | 0x802 => some k.gen
  | 0x803 => some k.xflags
  | 0xC00 => some k.cycle
  | 0xC01 => some (nowTick s)
  | 0xC02 => some k.instret
  | 0xC20 => some k.vl
  | 0xC21 => some k.vtype
  | 0xC22 => some 64
  | 0xCC0 => some (c % 32 + c / 8 * 32 + ((List.range 32).filter fun i => corePresent s b i).length * 256)
  | 0xCC1 => some ((match d.launch with | some (_, pos) => pos % 2 ^ 32 | none => 0) + (lodeOf s d.lode).gid % 2 ^ 32 * 2 ^ 32)
  | 0xCC2 => some (d.slot + d.rank * 2 ^ 8 + slots.length * 2 ^ 16 + presentEngines s b * 2 ^ 24)
  | 0xCC3 => some (presentMask s b)
  | _ => none

/-- A write of `GC_CLASS`: a tag outside the context's mask is discarded (R176). -/
def writeClass (b c v : Nat) (s : State) : State :=
  if (ctxOf s (ctxOfBlock s b)).mask.testBit (v % 64) then modCore b c (fun k => { k with tag := v % 64 }) s
  else modCore b c (fun k => { k with xflags := k.xflags ||| 128 }) s

/-- A write of `GC_DEADLINE` (R176). -/
def writeDeadline (b c v : Nat) (s : State) : State :=
  let n := v % 65536
  modCore b c (fun k => { k with deadline := if n = 0 then none else some (nowTick s + min n 63487) }) s

/-- A write of `GC_SR_SEED` (R176, R143): a state of 0 is used as 1 at the first draw. -/
def writeSeed (b c v : Nat) (s : State) : State := modCore b c (fun k => { k with gen := v % 2 ^ 64 }) s

/-- A write of a CSR that may be written. -/
def csrWrite (b c n v : Nat) (s : State) : State :=
  let put (f : Core → Core) : State := modCore b c f s
  match n with
  | 0x001 => put fun k => { k with fcsr := putFld k.fcsr 0 5 v }
  | 0x002 => put fun k => { k with fcsr := putFld k.fcsr 5 3 v }
  | 0x003 => put fun k => { k with fcsr := v % 256 }
  | 0x008 => put fun k => { k with vstart := v % 512 }
  | 0x009 => put fun k => { k with vcsr := putFld k.vcsr 0 1 v }
  | 0x00A => put fun k => { k with vcsr := putFld k.vcsr 1 2 v }
  | 0x00F => put fun k => { k with vcsr := v % 8 }
  | 0x800 => writeClass b c v s
  | 0x801 => writeDeadline b c v s
  | 0x802 => writeSeed b c v s
  | 0x803 => put fun k => { k with xflags := v &&& 0xF3 }
  | _ => s

/-- Counts of arithmetic cycles are not modelled: each read of `cycle` finds it advanced by a free amount (log 4). -/
def tickCycle (b c n : Nat) (s : State) : State :=
  if n ≠ 0xC00 then s else
    let (v, s) := draw s
    modCore b c (fun k => { k with cycle := (k.cycle + v) % 2 ^ 64 }) s

/-- A CSR instruction (Zicsr). CSRs 0xC00 and above cannot be written. -/
def doCsr (b c w len : Nat) (s : State) : State :=
  let n := fld w 20 12
  let f3 := wF3 w
  let s := tickCycle b c n s
  let k := coreOf s b c
  let src := if 4 ≤ f3 then wRs1 w else xOf k (wRs1 w)
  let writes := decide (f3 % 4 = 1) || decide (wRs1 w ≠ 0)
  match csrRead s b c n with
  | none => illegal b c w s
  | some old =>
    if f3 % 4 = 0 ∨ (writes ∧ 0xC00 ≤ n) then illegal b c w s
    else
      let v := match f3 % 4 with
        | 1 => src
        | 2 => old ||| src
        | _ => old &&& (2 ^ 64 - 1 - src)
      modCore b c (fun k => retire len (setX (wRd w) old k)) (if writes then csrWrite b c n v s else s)

def execGcClassWrite (b c v : Nat) (s : State) : Host.Outcome State Fault Refusal :=
  onCore b c s fun s => modCore b c (retire 4) (writeClass b c v s)
def execGcDeadlineWrite (b c v : Nat) (s : State) : Host.Outcome State Fault Refusal :=
  onCore b c s fun s => modCore b c (retire 4) (writeDeadline b c v s)
def execGcSrSeedWrite (b c v : Nat) (s : State) : Host.Outcome State Fault Refusal :=
  onCore b c s fun s => modCore b c (retire 4) (writeSeed b c v s)

/-! ### Supervisor calls (R182) -/

/-- A core's part of the launch ends with a status; its time is charged (R176). -/
def coreExit (b c status : Nat) (s : State) : State :=
  chargeGc (ctxOfBlock s b) (modCore b c (fun k => { k with run := 2, status := status % 2 ^ 32, wait := .none, resv := none }) s)

def doExit (b c : Nat) (s : State) : State := coreExit b c (xOf (coreOf s b c) 10) s
def kernelAbort (b c : Nat) (s : State) : State := endLaunch b Err.kernelError [xOf (coreOf s b c) 10 % 2 ^ 32, 0, 0, b + c * 256] s
/-- The ECALL traps, so it does not retire and no reservation outlives it (R161); the core goes on behind it. -/
def doTrace (b c : Nat) (s : State) : State :=
  let k := coreOf s b c
  let x := ctxOfBlock s b
  let s := if (ctxOf s x).profile ∧ !(lodeOf s (blockOf s b).lode).conf then
      modCtx x (fun d => { d with trace := d.trace ++ [[xOf k 10, xOf k 11, xOf k 12, xOf k 13]] }) s
    else s
  modCore b c (fun k => { k with pc := k.pc + 4, resv := none }) s

/-- ECALL: the service in a7; another value is a fault (R182). -/
def doEcall (b c : Nat) (s : State) : State :=
  match xOf (coreOf s b c) 17 with
  | 0 => doExit b c s
  | 1 => kernelAbort b c s
  | 2 => doTrace b c s
  | _ => coreTrap b c 8 0 s

/-- The services as commands: nothing happens when a7 names another one (log 6). -/
def execSvExit (b c : Nat) (s : State) : Host.Outcome State Fault Refusal :=
  onCore b c s fun s => if xOf (coreOf s b c) 17 = 0 then doExit b c s else s
def execSvAbort (b c : Nat) (s : State) : Host.Outcome State Fault Refusal :=
  onCore b c s fun s => if xOf (coreOf s b c) 17 = 1 then kernelAbort b c s else s
def execSvTrace (b c : Nat) (s : State) : Host.Outcome State Fault Refusal :=
  onCore b c s fun s => if xOf (coreOf s b c) 17 = 2 then doTrace b c s else s

/-! ### Standard instructions -/

/-- The integer instructions. A jump to the exit stub exits (R179). -/
def doInt (b c w len : Nat) (s : State) : State :=
  let k := coreOf s b c
  match intResult w k.pc (BitVec.ofNat 64 (xOf k (wRs1 w))) (BitVec.ofNat 64 (xOf k (wRs2 w))) len with
  | none => illegal b c w s
  | some (v, next) =>
    let s := modCore b c (fun k =>
      let k := match v with
        | some x => setX (wRd w) x.toNat k
        | none => k
      match next with
      | some pc => { retire len k with pc := pc }
      | none => retire len k) s
    if next.map BitVec.toNat = some Config.exitStub then doExit b c s else s

/-- OP-FP and the fused instructions. -/
def doFp (b c w len : Nat) (s : State) : State :=
  let k := coreOf s b c
  match fpResult w k.fcsr (fOf k (wRs1 w)) (fOf k (wRs2 w)) (fOf k (wRs3 w)) (xOf k (wRs1 w)) with
  | none => illegal b c w s
  | some (.f v f) => modCore b c (fun k => retire len (accrue f (setF (wRd w) v k))) s
  | some (.x v f) => modCore b c (fun k => retire len (accrue f (setX (wRd w) v k))) s

/-- The standard FENCE and PAUSE: a chip-scope FENCE.S over loads and stores, all performed already (R162). -/
def doFence (b c len : Nat) (s : State) : State := modCore b c (retire len) s

/-- SYSTEM: ECALL, EBREAK, WFI (a no-op, R160), CSR instructions. -/
def doSystem (b c w len : Nat) (s : State) : State :=
  if wF3 w ≠ 0 then doCsr b c w len s
  else if w = 0x73 then doEcall b c s
  else if w = 0x00100073 then coreTrap b c 3 (coreOf s b c).pc.toNat s
  else if w = 0x10500073 then modCore b c (retire len) s
  else illegal b c w s

/-- Whether a word is a load or store. -/
def isLoadStore (w : Nat) : Bool := decide (wOp w = 0x03) || decide (wOp w = 0x23) || decide (wOp w = 0x07) || decide (wOp w = 0x27)

/-- Whether a word is an instruction of the device extension that R165 names, with 0 in each field shown as 0. -/
def isExtension (w : Nat) : Bool :=
  match wOp w, wF3 w with
  | 0x0B, 0 | 0x0B, 2 => decide (wF7 w < 4)
  | 0x0B, 1 => decide (wF7 w < 4) && decide (wRd w = 0)
  | 0x0B, 3 => decide (wF7 w = 0) && decide (wRs2 w = 0) && decide (wRd w = 0)
  | 0x0B, 4 => decide (wF7 w < 64) && decide (wRs1 w = 0) && decide (wRs2 w = 0) && decide (wRd w = 0)
  | 0x0B, 6 => decide (wF7 w = 0) && decide (wRs2 w = 0)
  | 0x0B, 5 | 0x2B, 0 | 0x5B, 0 => decide (wF7 w = 0)
  | _, _ => false

/-- A standard instruction that is no memory access. A word of another command's class changes nothing here (log 6); an encoding outside
R159 and R165 is illegal. -/
def doWord (b c w len : Nat) (s : State) : State :=
  if isLoadStore w ∨ wOp w = 0x2F ∨ isExtension w then s
  else match wOp w with
    | 0x73 => doSystem b c w len s
    | 0x0F => if wF3 w ≤ 1 then doFence b c len s else illegal b c w s
    | 0x53 | 0x43 | 0x47 | 0x4B | 0x4F => doFp b c w len s
    | 0x57 => match vecOp (coreOf s b c) w with
      | some k => modCore b c (fun _ => retire len k) s
      | none => illegal b c w s
    | _ => doInt b c w len s

def execCoreInstruction (b c word : Nat) (s : State) : Host.Outcome State Fault Refusal :=
  onCore b c s fun s => match expandWord word with
    | some (w, len) => doWord b c w len s
    | none => illegal b c word s

/-- Whether an f or vector access: the width field of the FP and vector loads and stores. -/
def doLoadStore (b c w len : Nat) (s : State) : State :=
  let f3 := wF3 w
  let scalar := decide (1 ≤ f3) && decide (f3 ≤ 3)
  match wOp w with
  | 0x03 => doLoadX b c w len s
  | 0x23 => doStoreX b c w len s
  | 0x07 => if scalar then doLoadF b c w len s else if f3 = 4 then illegal b c w s else doVecMem b c w len false s
  | 0x27 => if scalar then doStoreF b c w len s else if f3 = 4 then illegal b c w s else doVecMem b c w len true s
  | _ => s

def execCoreLoadStore (b c word : Nat) (s : State) : Host.Outcome State Fault Refusal :=
  onCore b c s fun s => match expandWord word with
    | some (w, len) => doLoadStore b c w len s
    | none => illegal b c word s

def execCoreAmo (b c word : Nat) (s : State) : Host.Outcome State Fault Refusal :=
  onCore b c s fun s => if wOp word ≠ 0x2F ∨ isLr word ∨ isSc word then s else if !isAtomic word then illegal b c word s else doAmo b c word s
def execCoreLr (b c word : Nat) (s : State) : Host.Outcome State Fault Refusal :=
  onCore b c s fun s => if isLr word then doLr b c word s else s
def execCoreSc (b c word : Nat) (s : State) : Host.Outcome State Fault Refusal :=
  onCore b c s fun s => if isSc word then doSc b c word s else s
def execCoreFence (b c _pred _succ : Nat) (s : State) : Host.Outcome State Fault Refusal :=
  onCore b c s (doFence b c 4)

/-! ### Exceptions and walks (R184, R227, R232) -/

/-- The walk that a core waits for ends: the TLB takes the leaf, the oldest of 64 leaving, or the fault is raised. -/
def walkEnd (b c : Nat) (fill : Bool) (s : State) : State :=
  match (coreOf s b c).wait with
  | .walk va access =>
    let ctx := ctxOfBlock s b
    let v := (draw s).1
    let t := noteWalk b (coreOf s b c).tag v ctx va (draw s).2
    match (walkAs s b v ctx va).bind fun e => (useLeaf s e va access 1).map fun _ => e with
    | .error st => coreFault b c false st access va t
    | .ok e => if fill then modCore b c (fun k => { k with wait := .none, tlb := (e :: k.tlb).take 64 }) t else s
  | _ => s

def execTlbWalkDone (b c : Nat) (s : State) : Host.Outcome State Fault Refusal := run s (walkEnd b c true)

/-- The fault of a core's walk (R232): nothing when the core waits for no walk, or its walk does not fault (log 6). -/
def execTranslationFault (b c : Nat) (s : State) : Host.Outcome State Fault Refusal := run s (walkEnd b c false)

/-- An exception: translation faults (causes 12, 13, 15) stall the core or end the launch under R233 and R234; any other ends the
launch. A translation that holds by now is tried again. -/
def execCoreException (b c cause tval : Nat) (s : State) : Host.Outcome State Fault Refusal :=
  onCore b c s fun s =>
    if cause = 12 ∨ cause = 13 ∨ cause = 15 then
      let access := if cause = 12 then 3 else if cause = 13 then 0 else 1
      match (walk s (ctxOfBlock s b) tval).bind fun e => useLeaf s e tval access 1 with
      | .error st => coreFault b c false st access tval s
      | .ok _ => s
    else coreTrap b c cause tval s

/-! ### Launches on a block (R179, R183) -/

/-- A core at a launch's entry: the registers of R179, the context's default tag, no far window. Its counters (R159), its deadline,
generator and flags (R176), and its TLB stay. -/
def entryCore (d : Block) (tag c : Nat) (k : Core) : Core :=
  { k with
    run := 1, wait := .none, pc := BitVec.ofNat 64 d.entry, tag := tag, f := [], v := [], fcsr := 0, vl := 0, vtype := 2 ^ 63, vstart := 0, vcsr := 0
    resv := none, wins := [], dmaOut := 0, meOut := 0, status := 0, post := false, cause := 0
    x := [(10, apAddr 0x3FF000), (11, d.constLen), (2, (apAddr (0x400000 + (c + 1) * 0x10000)) % 2 ^ 64), (1, Config.exitStub)].foldl
      (fun x r => tset 0 x r.1 (BitVec.ofNat 64 r.2)) [] }

/-- The block agent writes the launch area and starts every present core. Nothing happens without a launch that is yet to
start. -/
def launchBlock (b ctx : Nat) (consts : List Byte) (s : State) : State :=
  let d := blockOf s b
  let base := blockBase b
  let list := (List.range 96).map fun i => BitVec.ofNat 8 (d.slots.getD i 0x7F)
  let s := (settle s (wrPhys (base + 0x3FF000) (consts.take d.constLen) s)).2
  let s := (settle s (wrPhys (base + 0x3FEF00) list s)).2
  let s := each (List.range 4) (fun e => modEngine b e fun g => { g with done := 0, errstop := false, error := 0 }) s
  let s := modBlock b (fun k => { k with area := [] }) s
  each ((List.range 32).filter fun c => corePresent s b c) (fun c => modCore b c (entryCore d (ctxOf s ctx).defcls c)) s

/-- Whether a block's launch has not started: none of its cores has. -/
def launchWaits (s : State) (b : Nat) : Bool := (List.range 32).all fun c => decide ((coreOf s b c).run = 0)

/-- A launch that waited for the block takes it first. A block takes no launch under a tag of neither live epoch (R37): it is dispatched to the
block again under the current one (R40). -/
def execLaunchStart (b : Nat) (s : State) : Host.Outcome State Fault Refusal :=
  run s fun s =>
    let s := match nextLaunch s b with
      | some (l, r) => placeLaunch l r b s
      | none => s
    match launchOf s b, (blockOf s b).launch.bind fun p => recOf s p.1 p.2 with
    | some (l, _, ctx), some r =>
      if !(launchWaits s b) ∨ (blockOf s b).resetting ∨ remapWaits s b then s
      else if tagLive s l (blockOf s b).etag then launchBlock b ctx r.consts s
      else modBlock b (fun k => { k with etag := epochTag s l }) s
    | _, _ => s

/-- The blocks of a launch once every one of them has started its part. -/
def launchBlocks (s : State) (l pos : Nat) : List Nat :=
  match recOf s l pos with
  | some r => if r.parts.all fun b => decide ((blockOf s b).launch = some (l, pos)) then r.parts else []
  | none => []

/-- Whether a block's part of a launch is complete (R183): its cores have exited, their requests, commands and deliveries are done. -/
def blockDone (s : State) (b : Nat) : Bool :=
  ((List.range 32).all fun c => !corePresent s b c ||
    (decide ((coreOf s b c).run = 2) && decide ((coreOf s b c).dmaOut = 0) && decide ((coreOf s b c).meOut = 0))) &&
  !(s.cu.deliv.any fun d => decide (d.block = b))

/-- The first nonzero status by rank and core, with where it came from. -/
def firstStatus (s : State) (bs : List Nat) : Option (Nat × Nat × Nat) :=
  ((bs.flatMap fun b => (List.range 32).map fun c => (b, c)).find? fun p =>
    corePresent s p.1 p.2 && decide ((coreOf s p.1 p.2).status ≠ 0)).map fun p => ((coreOf s p.1 p.2).status, p.1, p.2)

def execLaunchComplete (l pos : Nat) (s : State) : Host.Outcome State Fault Refusal :=
  run s fun s =>
    let bs := launchBlocks s l pos
    if bs.isEmpty ∨ !(bs.all (blockDone s)) then s
    else
      let st := firstStatus s bs
      let s := each bs leaveBlock s
      match st with
      | none => finishRec l pos 0 s
      | some (v, b, c) => finishRec l pos Err.kernelError (modRec l pos (fun r => { r with detail := [v, 0, 0, b + c * 256] }) s)

/-! ### Row spares (R187, R188) -/

/-- The block agent puts a row's spare into service while the block runs no launch. The scratchpad moves with its logical address; a line
that cannot be read is zero in the spare and listed in the record. -/
def execRowSpareRemap (b row : Nat) (badLines : List Nat) (s : State) : Host.Outcome State Fault Refusal :=
  run s fun s =>
    let r := rowOf s b row
    if !r.pendingRemap ∨ (blockOf s b).launch.isSome then s
    else
      let c := row * 8 + r.failed
      let pad := blockBase b + 0x400000 + c * 0x10000
      let bad := (List.range 1024).filter fun i => badLines.contains i || poisoned s (pad + i * 64)
      let s := each bad (fun i => zeroRange (pad + i * 64) 64) s
      let s := modRow b row (fun r => { r with pendingRemap := false, spent := true }) s
      let l := (blockOf s b).lode
      acceptEv {
        typ := 0x904, sev := 5, seq := 0, ops := 0, kind := 1, num := b * 36 + row * 9 + r.failed
        gid := if l = 0x7F then 0 else (lodeOf s l).gid
        extra := if confBlock s b then [] else bad.flatMap fun i => (le 16 i).map (·.toNat) } s

end Sys2Proof.Machine
end

