-- ==== Sys2Proof/Machine/LodeMap.lean ====
section
/-! DEFINITION. The commands of the lode map (chapter 2): the lode-map verbs, the steps of rebinding operations, and the
expert registers. -/
namespace Sys2Proof.Machine
open Sys2Proof

/-! ### Validation (R42, R43, R54, R624) -/

/-- The first error of a list of checks, 0 when all pass. -/
def firstErr : List (Bool × Nat) → Nat
  | [] => 0
  | (bad, e) :: t => if bad then e else firstErr t

/-- Blocks and sets that a lode holds and that operations in progress take from it (R43). -/
def leavingOf (s : State) (l : Nat) : Nat × Nat :=
  (((blocksOf s l).filter fun b => s.lm.ops.any fun o => decide (o.donor = l) && isRebind o.kind && o.blocks.contains b).length,
    ((setsOf s l).filter fun n => s.lm.ops.any fun o => decide (o.donor = l) && isRebind o.kind && o.sets.contains n).length)

/-- Whether a lode would break R12 or R29 after losing so many blocks and sets, once the operations in progress have completed (R43; R210: not
one that breaks it already). R29 holds on this chip, R12 over all its chips. -/
def tooSmall (s : State) (l dBlocks dSets : Nat) : Bool :=
  let out := leavingOf s l
  let nb := (blocksOf s l).length - out.1
  let ns := (setsOf s l).length - out.2
  let far (f : Held → Nat) : Nat := ((lodeOf s l).others.map fun t => f t.2).sum
  decide (nb + ns ≤ dBlocks + dSets) || (decide (0 < dBlocks) && decide (nb + far (·.blocks) ≤ dBlocks)) ||
    (decide (0 < dSets) && decide (ns + far (·.sets) ≤ dSets))

/-- Save slots a lode holds (R432), and whether so many contexts times blocks exceed them (R433). -/
def savesShort (s : State) (l addCtx addBlocks : Nat) : Bool :=
  decide (28 * (tget [] s.lm.save l).length < ((ctxsOf s l).length + addCtx) * ((blocksOf s l).length + addBlocks))

/-- The error of a block move (R46 step 1, R433). Bits of the mask above 95 are reserved and read as 0 (R23, R380). -/
def blockMoveErr (s : State) (mask d r deadline : Nat) : Nat :=
  let bs := bitsOf 96 mask
  firstErr [
    ((lodeOf s d).frozen || (lodeOf s r).frozen, Err.utQuorum),
    (bs.isEmpty || decide (d = r) || (deadline ≠ 0 && decide (10000 < deadline)), Err.cmdFormat),
    (bs.any fun b => blockClaimed s b, Err.resourceBusy),
    (bs.any fun b => (blockOf s b).lode ≠ d, Err.lodeUnknown),
    (tooSmall s d bs.length 0, Err.lodeMinimum),
    (savesShort s r 0 bs.length && !(ctxsOf s r).isEmpty, Err.noCapacity)]

/-- A copy rate in units of 3.2 GB/s: 0 stands for the default 8 (R51). -/
def badRate (rate : Nat) : Bool := decide (32 < rate)
def theRate (rate : Nat) : Nat := if rate = 0 then 8 else rate

/-- Valid granules of a lode on a set. -/
def onSet (s : State) (l n : Nat) : List Nat := (gransOf s l).filter fun g => (granOf s l g).set = n

def channelMoveErr (s : State) (n d r rate : Nat) : Nat :=
  firstErr [
    ((lodeOf s d).frozen || (lodeOf s r).frozen, Err.utQuorum),
    (decide (192 ≤ n) || decide ((setOf s n).state = 0) || decide (d = r) || badRate rate, Err.cmdFormat),
    (setClaimed s n || (onSet s d n).any fun g => granClaimed s d g, Err.resourceBusy),
    (decide ((setOf s n).lode ≠ d) || decide ((setOf s n).state < 2), Err.lodeUnknown),
    (decide ((setOf s n).state ≠ 2), Err.resourceBusy),
    (tooSmall s d 0 1, Err.lodeMinimum),
    (decide ((freeElsewhere s d n).length < (onSet s d n).length + savesOn s d n), Err.noCapacity)]

def granuleErr (s : State) (l : Nat) (gs : List Nat) (dest rate : Nat) : Nat :=
  firstErr [
    ((lodeOf s l).frozen, Err.utQuorum),
    (gs.isEmpty || decide (64 < gs.length) || !gs.Nodup || gs.any (fun g => 8192 ≤ g || !(granOf s l g).valid) ||
      decide (192 ≤ dest) || decide ((setOf s dest).state = 0) || badRate rate ||
      gs.any (fun g => (granOf s l g).set = dest), Err.cmdFormat),
    (setClaimed s dest || gs.any fun g => granClaimed s l g, Err.resourceBusy),
    (decide ((setOf s dest).lode ≠ l), Err.lodeUnknown),
    (decide ((setOf s dest).state ≠ 2), Err.resourceBusy),
    (decide ((freeSlots s l dest).length < gs.length), Err.noCapacity)]

def creditErr (s : State) (p units d r : Nat) : Nat :=
  firstErr [
    ((lodeOf s d).frozen || (lodeOf s r).frozen, Err.utQuorum),
    (decide (32 ≤ p) || decide (units = 0) || decide (64 < units) || decide (d = r), Err.cmdFormat),
    (portClaimed s p, Err.resourceBusy),
    (decide (creditOf s d p < units), Err.noCapacity)]

/-! ### Starting an operation -/

/-- Runs a rebinding verb: a ninth operation waits in arrival order (R42). -/
def startOp (i : Instr) (go : State → State) (s : State) : State :=
  if 8 ≤ rebinds s then modLm (fun m => { m with opHeld := m.opHeld ++ [i] }) s else go s

def startBlockMove (via : Via) (mask donor receiver deadline : Nat) (s : State) : State :=
  match findRun s via donor, findRun s via receiver with
  | some d, some r =>
    let e := blockMoveErr s mask d r deadline
    if e ≠ 0 then reject via e s else
      let bs := bitsOf 96 mask
      let s := addOp { num := 0, kind := .blockMove, step := 3, donor := d, receiver := r, blocks := bs, deadline := if deadline = 0 then 100 else deadline, via := some via } s
      each bs markDrain s
  | _, _ => reject via Err.lodeUnknown s

def startChannelMove (via : Via) (n donor receiver rate : Nat) (s : State) : State :=
  match findRun s via donor, findRun s via receiver with
  | some d, some r =>
    let e := channelMoveErr s n d r rate
    if e ≠ 0 then reject via e s else
      let gs := onSet s d n
      let k := opNumber s
      let dests := freeElsewhere s d n
      let s := addOp { num := 0, kind := .channelMove, step := 2, donor := d, receiver := r, sets := [n], granules := gs, rate := theRate rate, via := some via } s
      copiesDone k (planCopies k d gs dests s)
  | _, _ => reject via Err.lodeUnknown s

def startGranules (via : Via) (lode : Nat) (gs : List Nat) (dest rate : Nat) (s : State) : State :=
  match findRun s via lode with
  | some l =>
    let e := granuleErr s l gs dest rate
    if e ≠ 0 then reject via e s else
      let k := opNumber s
      let dests := (freeSlots s l dest).map fun x => (dest, x)
      let s := addOp { num := 0, kind := .granuleMigrate, step := 2, donor := l, receiver := l, granules := gs, dest := dest, rate := theRate rate, via := some via } s
      planCopies k l gs dests s
  | none => reject via Err.lodeUnknown s

def startCredits (via : Via) (p units donor receiver : Nat) (s : State) : State :=
  match findRun s via donor, findRun s via receiver with
  | some d, some r =>
    let e := creditErr s p units d r
    if e ≠ 0 then reject via e s else
      let k := opNumber s
      commit d (.credit k) (addOp { num := 0, kind := .creditMove, donor := d, receiver := r, port := p, units := units, via := some via } s)
  | _, _ => reject via Err.lodeUnknown s

/-! ### Staged steps (R59, R60) -/

/-- Whether the group passes its agreement rule (R60): lode indices in use, or 0x7F where the kind has none, and a resource that the donor
holds. A resource that is to be attached has no donor; it belongs to no lode. -/
def stageAgrees (s : State) (m : Stage) : Bool :=
  let used (l : Nat) : Bool := decide (l < 96) && decide ((lodeOf s l).state = 2)
  let unused (l : Nat) : Bool := decide (l = 0x7F) || used l
  match m.kind with
  | 1 => used m.donor && unused m.recv && decide (m.res < 96) && decide ((blockOf s m.res).lode = m.donor)
  | 2 => used m.recv && unused m.donor && decide (m.res < 96) && decide ((blockOf s m.res).lode = 0x7F)
  | 3 => used m.donor && unused m.recv && decide (m.res < 192) && decide ((setOf s m.res).lode = m.donor)
  | 4 => used m.recv && unused m.donor && decide (m.res < 192) && decide ((setOf s m.res).lode = 0x7F) && decide ((setOf s m.res).state ≠ 0)
  | 5 => used m.donor && used m.recv && decide (m.res < 32) && decide (creditOf s m.donor m.res ≠ 0)
  | _ => false

/-- A staged step fails. -/
def stageFail (e : Nat) (s : State) : State := modLm (fun m => { m with opState := 4, opError := e, stWait := .none }) s

/-- A staged step waits, in state 1 (R42, R59, R60; log 70). -/
def stageHold (w : StageWait) (s : State) : State := modLm (fun m => { m with opState := 1, opError := 0, stWait := w }) s

/-- The write of `GO` that a staged step stands for among the held operations (R42). -/
def stageInstr (kind : Nat) : Instr :=
  match kind with
  | 1 => .lmBlockDetach .firmware | 2 => .lmBlockAttach .firmware | 3 => .lmSetCutover .firmware | 4 => .lmSetAttach .firmware
  | _ => .lmCreditMove .firmware

/-- The error of a staged step (R42, R43, R59), 0 for none. A slot above 95 does not exist (R28, log 70). -/
def stageErr (s : State) (m : Stage) : Nat :=
  let x := m.res
  match m.kind with
  | 1 => firstErr [(blockClaimed s x, Err.resourceBusy), (tooSmall s m.donor 1 0, Err.lodeMinimum)]
  | 2 => firstErr [(decide (96 ≤ m.slot), Err.cmdFormat),
      (blockClaimed s x || (blocksOf s m.recv).any (fun b => (blockOf s b).slot = m.slot) || decide ((blockOf s x).state ≠ 0), Err.resourceBusy)]
  | 3 => firstErr [(setClaimed s x || (onSet s m.donor x).any (granClaimed s m.donor), Err.resourceBusy), (tooSmall s m.donor 0 1, Err.lodeMinimum),
      (!(onSet s m.donor x).isEmpty, Err.noCapacity)]
  | 4 => firstErr [(setClaimed s x || decide ((setOf s x).state ≠ 1), Err.resourceBusy)]
  | _ => firstErr [(decide (m.units = 0) || decide (64 < m.units), Err.cmdFormat), (decide (m.donor = m.recv), Err.cmdFormat),
      (portClaimed s x, Err.resourceBusy), (decide (creditOf s m.donor x < m.units), Err.noCapacity)]

/-- Runs a staged step whose group agrees (R59: R38, R39, R42, R43 and R45 still hold). -/
def stageRun (s : State) : State :=
  let m := s.lm.live
  let x := m.res
  let far (c : Bool) (l : Nat) : Bool := c && decide (l < 96) && multichip s l
  let scrubbing := (decide (m.kind = 2) && (decide ((blockOf s x).state = 3) || decide ((blockOf s x).state = 4))) ||
    (decide (m.kind = 4) && decide ((setOf s x).state = 4))
  if far (m.kind ≠ 2 && m.kind ≠ 4) m.donor || far (m.kind ≠ 1 && m.kind ≠ 3) m.recv then stageFail Err.expertLocked s
  else if scrubbing then stageHold .scrub s
  else
    let e := stageErr s m
    if e ≠ 0 then stageFail e s
    else if 8 ≤ rebinds s then modLm (fun k => { k with opHeld := k.opHeld ++ [stageInstr m.kind] }) (stageHold .ninth s)
    else
      let n := opNumber s
      let o : Op := { num := 0, kind := .expert, donor := if m.kind = 2 ∨ m.kind = 4 then 0x7F else m.donor, receiver := if m.kind = 1 ∨ m.kind = 3 then 0x7F else m.recv
                      slot := m.slot, units := m.units, port := x, rate := m.rate }
      let go (o : Op) (l : Nat) (c : Change) : State := commit l c (addOp o (stageHold .none s))
      match m.kind with
      | 1 => go { o with blocks := [x] } m.donor (.detach n [x])
      | 2 => go { o with blocks := [x] } m.recv (.attach n [x] (some m.slot))
      | 3 => go { o with sets := [x] } m.donor (.cutover n)
      | 4 => go { o with sets := [x] } m.recv (.attachSet n x)
      | _ => go { o with kind := .creditMove } m.donor (.credit n)

/-- Starts the rebinding operation of a held verb, or the held staged step. -/
def startHeld (i : Instr) (s : State) : State :=
  match i with
  | .blockMove via m d r t => startBlockMove via m d r t s
  | .channelMove via n d r t => startChannelMove via n d r t s
  | .granuleMigrate via l gs n t => startGranules via l gs n t s
  | .creditMove via p u d r => startCredits via p u d r s
  | _ => if s.lm.opState = 1 ∧ s.lm.stWait = .ninth then stageRun s else s

/-- Held operations start, in order, as earlier ones end (R42). -/
def releaseGo : List Instr → State → State
  | [], s => s
  | i :: t, s =>
    if 8 ≤ rebinds s then modLm (fun m => { m with opHeld := i :: t ++ m.opHeld }) s else releaseGo t (startHeld i s)

/-- A prediction holds until its pseudo-channel is retired (R206): a set that a lode has taken meanwhile is evacuating, a free one is broken at
once (R208). -/
def settlePredicted (s : State) : State :=
  each ((s.lm.sets.filter fun t => (t.2.state = 1 ∨ t.2.state = 2) ∧ (pcsOfSet s t.1).any fun p => (pcOf s p).predicted).map (·.1)) (fun n s =>
    if (setOf s n).state = 2 then modSet n (fun t => { t with state := 5 }) s else breakNow n s) s

/-- What the end of an operation releases: waiting commits, destructions and held operations. -/
def afterOps (s : State) : State :=
  let s := settlePredicted (wakeDestroys (pump s))
  releaseGo s.lm.opHeld (modLm (fun m => { m with opHeld := [] }) s)

/-! ### The verbs (R57) -/

def execBlockMove (via : Via) (mask donor receiver deadline : Nat) (s : State) : Host.Outcome State Fault Refusal :=
  verb via 0x0310 s (startOp (.blockMove via mask donor receiver deadline) (startBlockMove via mask donor receiver deadline))

def execChannelMove (via : Via) (n donor receiver rate : Nat) (s : State) : Host.Outcome State Fault Refusal :=
  verb via 0x0311 s fun s => afterOps (startOp (.channelMove via n donor receiver rate) (startChannelMove via n donor receiver rate) s)

def execGranuleMigrate (via : Via) (lode : Nat) (gs : List Nat) (dest rate : Nat) (s : State) : Host.Outcome State Fault Refusal :=
  verb via 0x0312 s (startOp (.granuleMigrate via lode gs dest rate) (startGranules via lode gs dest rate))

def execCreditMove (via : Via) (p units donor receiver : Nat) (s : State) : Host.Outcome State Fault Refusal :=
  verb via 0x0313 s fun s => afterOps (startOp (.creditMove via p units donor receiver) (startCredits via p units donor receiver) s)

/-- The device ID in the global IDs of lodes founded here: 0xFFFF without one (R571). -/
def foundDev (s : State) : Nat := if s.dr.assigned then s.dr.devid else 0xFFFF

/-- The lowest serial above the last assigned that no lode founded here still holds (R32): a lode that left this chip may exist elsewhere, and
keeps its serial (log 71). -/
def nextSerial (s : State) : Option Nat :=
  let mine := (((lodes s).filter fun l => (lodeOf s l).gid / 65536 = foundDev s).map fun l => (lodeOf s l).gid % 65536) ++ s.lm.founded
  let cand := (List.range (mine.length + 1)).map fun i => (s.lm.lastSerial + i) % 65535 + 1
  cand.find? fun n => !(mine.contains n)

/-- The lowest free lode index (R33). -/
def freeIndex (s : State) : Option Nat := (List.range 96).find? fun l => (lodeOf s l).state = 0

/-- Credit units of all lodes on a port. -/
def portUnits (s : State) (p : Nat) : Nat := ((List.range 96).map fun l => creditOf s l p).sum +
  ((s.lm.ops.filter fun o => o.kind = .create).map fun o => o.added.getD p 0).sum

/-- Whether a PASID is bound on a port (R376). -/
def pasidUsed (s : State) (port pasid : Nat) : Bool :=
  (lodes s).any fun l => (lodeOf s l).pasid = pasid ∧ (lodeOf s l).port = port

/-- Free pool slots of the vault (R478): slots 16 to 255. -/
def freeVault (s : State) : Option Nat := ((List.range 240).map (· + 16)).find? fun n => !(vslotOf s n).valid

/-- The error of a creation (R12, R14, R43, R54, R376, R478, R580). -/
def createErr (s : State) (mask : Nat) (sets credits : List Nat) (pasid port : Nat) (conf : Bool) : Nat :=
  let bs := bitsOf 96 mask
  firstErr [
    (sets.any (fun n => 192 ≤ n || (setOf s n).state = 0) || !sets.Nodup || decide (32 < credits.length) ||
      credits.any (fun u => 64 < u) || decide (2 ^ 20 ≤ pasid) || decide (1 < port) ||
      (decide (s.img.applied.hostMode = 0) && decide (port ≠ 0)) ||
      credits.zipIdx.any (fun up => up.1 ≠ 0 && !s.img.applied.portEn.testBit up.2), Err.cmdFormat),
    (bs.isEmpty || sets.isEmpty, Err.lodeMinimum),
    ((freeIndex s).isNone || (nextSerial s).isNone, Err.lodeLimit),
    (bs.any (fun b => (blockOf s b).state ≠ 0 || blockClaimed s b) || sets.any (fun n => (setOf s n).state ≠ 1 || setClaimed s n), Err.resourceBusy),
    (credits.zipIdx.any (fun up => 64 < portUnits s up.2 + up.1), Err.noCapacity),
    (decide (pasid ≠ 0) && pasidUsed s port pasid, Err.pasidBusy),
    (conf && (decide (s.sec.identity ≠ 1) || (freeVault s).isNone), Err.confDenied)]

/-- The transport slot of a confidential lode (R478): a pool slot of type 2, use unwrap, with a fresh seed. -/
def makeTransport (l : Nat) (s : State) : State :=
  match freeVault s with
  | none => s
  | some n =>
    let (v, s) := draw s
    let s := modVslot n (fun k => { k with pgen := (vslotOf s 0).gen, parent := 0, ownerId := l, owner := 1, valid := true, typ := 2, uses := 0x40 }) s
    modLode l (fun d => { d with transport := some n }) (putKey n v s)

def execLodeCreate (via : Via) (mask : Nat) (sets credits : List Nat) (pasid port : Nat) (conf : Bool) (s : State) :
    Host.Outcome State Fault Refusal :=
  verb via 0x0300 s fun s =>
    let e := createErr s mask sets credits pasid port conf
    match freeIndex s, nextSerial s with
    | some l, some n =>
      if e ≠ 0 then reject via e s else
        let bs := bitsOf 96 mask
        let s := modLode l (fun _ => {
          gid := foundDev s * 65536 + n, state := 1, pasid := pasid, port := port, coord := true, home := true
          homeDev := s.dr.devid, conf := conf }) s
        let s := modLm (fun m => { m with lastSerial := n }) s
        let s := if conf then makeTransport l s else s
        let k := opNumber s
        let s := addOp { num := 0, kind := .create, slot := l, blocks := bs, sets := sets, added := credits, via := some via } s
        let s := each bs (fun b => modBlock b fun x => { x with state := 4 }) s
        let s := each sets (fun m => modSet m fun t => { t with state := 4 }) s
        startScrub 60000 10 l (.op k) (each sets wipeSet (each bs wipeBlock s))
    | _, _ => reject via (if e = Err.cmdFormat ∨ e = Err.lodeMinimum then e else Err.lodeLimit) s

/-- LODE_DESTROY at the chip that runs it (R55). -/
def doDestroy (via : Via) (l : Nat) (s : State) : State :=
  if !(ctxsOf s l).isEmpty then reject via Err.resourceBusy s
  else if lodeNamed s l then modLode l (fun d => { d with destroyVias := d.destroyVias ++ [via] }) s
  else afterOps (destroyLode l via s)

/-- LODE_DESTROY. A lode's coordinator carries it out (R57). -/
def execLodeDestroy (via : Via) (gid : Nat) (s : State) : Host.Outcome State Fault Refusal :=
  verb via 0x0301 s fun s =>
    match findRun s via gid with
    | none => reject via Err.lodeUnknown s
    | some l =>
      if (lodeOf s l).frozen then reject via Err.utQuorum s
      else if multichip s l ∧ !(lodeOf s l).coord then emit (.control ((lodeOf s l).members.foldl min 0xFFFF) 2 [0x0301, viaNum via, gid]) s
      else doDestroy via l s

/-- The state of a lode (`LM_LODE_STATE.STATE`): a running lode that an operation in progress names is rebinding. -/
def lodeState (s : State) (l : Nat) : Nat :=
  let d := lodeOf s l
  if d.state = 2 ∧ s.lm.ops.any fun o => isRebind o.kind && (decide (o.donor = l) || decide (o.receiver = l)) then 3 else d.state

/-- What LODE_QUERY reports (R57): index, state, epoch, PASID, flags (bit 0 frozen, 1 keyless, 2 previous epoch live), the lode's indices on
other chips, block masks (held, draining, detaching, scrubbing, joining), sets with states, granules in migration with their states, credit
units, operations, shortfall, thermal events (the fields' order: log 9). -/
def lodeReport (s : State) (l : Nat) : List Byte :=
  let d := lodeOf s l
  let held := blocksOf s l
  let mine (o : Op) : Bool := decide (o.donor = l) || decide (o.receiver = l) || (decide (o.kind = .create) && decide (o.slot = l))
  let via (k : Nat) : List Nat := (List.range 96).filter fun b => decide ((blockOf s b).state = k) && s.lm.ops.any fun o => mine o && o.blocks.contains b
  let sets := (List.range 192).filter fun n => (decide ((setOf s n).lode = l) && decide (2 ≤ (setOf s n).state)) ||
    (decide ((setOf s n).state = 4) && s.lm.ops.any fun o => mine o && o.sets.contains n)
  let moving := (s.lm.chan.filter fun t => decide (t.1 / 8192 = l) && decide (t.2.mig ≠ 0)).map fun t => (t.1 % 8192, t.2.mig)
  let ops := s.lm.ops.filter fun o => isRebind o.kind ∧ (o.donor = l ∨ o.receiver = l)
  let mask (bs : List Nat) : List (Nat × Nat) := [(8, maskOf bs % 2 ^ 64), (8, maskOf bs / 2 ^ 64)]
  enc ([(1, l), (1, lodeState s l), (4, d.epoch), (4, d.pasid), (1, (if d.frozen then 1 else 0) + (if d.keyless then 2 else 0) + if d.prevLive then 4 else 0)] ++
    (2, d.others.length) :: d.others.flatMap (fun t => [(2, t.1), (1, t.2.idx)]) ++
    [held, held.filter fun b => (blockOf s b).state = 2, via 3, via 4, via 5].flatMap mask ++
    (1, sets.length) :: sets.flatMap (fun n => [(1, n), (1, (setOf s n).state)]) ++
    (2, moving.length) :: moving.flatMap (fun g => [(2, g.1), (1, g.2)]) ++
    (List.range 32).map (fun p => (1, creditOf s l p)) ++
    (1, ops.length) :: ops.flatMap (fun o => [(2, o.num), (2, opCode o.kind), (1, o.step)]) ++
    (1, d.shortfall.length) :: d.shortfall.map (fun n => (2, n)) ++ [(4, d.thermalEv)])

def execLodeQuery (via : Via) (gid : Nat) (s : State) : Host.Outcome State Fault Refusal :=
  verb via 0x0302 s fun s =>
    match findVia s via gid with
    | none => reject via Err.lodeUnknown s
    | some l => answer via 0 (lodeReport s l) s

def execRebindAbort (via : Via) (op : Nat) (s : State) : Host.Outcome State Fault Refusal :=
  verb via 0x0314 s fun s =>
    match (getOp s op).filter fun o => isRebind o.kind with
    | none => reject via Err.cmdFormat s
    | some o => if o.committed ∨ o.begun then reject via Err.resourceBusy s else afterOps (answer via 0 [] (endOp op Err.cancelled s))

/-! ### The steps of operations -/

def execBlockDrained (b : Nat) (s : State) : Host.Outcome State Fault Refusal := run s (blockDrainedEff b)

def execRebindDrainTimeout (op : Nat) (s : State) : Host.Outcome State Fault Refusal :=
  run s fun s => match (getOp s op).filter fun o => o.kind = .blockMove ∧ o.step = 3 with
    | some o => if lodeHeld s o.donor then s else afterOps (endOp op Err.rebindTimeout s)
    | none => s

/-- Whether a request tagged with an epoch of a lode is outstanding at a master or a resource of this chip (R38): requests that wait at an
injection port, for a slot of a queue or for a marker, chunks and packets under way, reduction rows, sync messages, launches that have not started, engine commands
under way. A core's accesses are complete when its instruction is. -/
def outstanding (s : State) (l tag : Nat) : Bool :=
  let gid := (lodeOf s l).gid
  let page (n : Nat) : Bool := decide ((pageOf s n).lode = l) && (pageOf s n).bound
  s.noc.waiting.any (fun r => decide (r.lode = l) && decide (r.etag % 256 = tag)) ||
  s.noc.ingress.any (fun p => decide (p.2.slode = (lodeOf s l).gid) && decide (p.2.etag % 256 = tag)) ||
  s.noc.arbs.any (fun t => t.2.ingress.any fun r => decide (r.1.lode = l) && decide (r.1.etag % 256 = tag)) ||
  s.lm.chan.any (fun t => decide (t.1 / 8192 = l) && t.2.held.any fun r => decide (r.etag % 256 = tag)) ||
  s.cu.dma.any (fun t => t.2.any fun d => decide (d.lode = l) && decide (d.kind ≠ 6) && decide (d.epoch = tag) && (decide (d.chunk ≠ 0) || !d.waitIds.isEmpty)) ||
  s.dr.out.any (fun w => decide (w.pkt.slode = gid) && decide (w.pkt.etag = tag)) ||
  s.cu.deliv.any (fun d => decide (d.lode = l) && decide (d.etag = tag)) ||
  s.noc.comb.any (fun t => t.2.any fun k => decide (k.lode = l) && decide (k.etag = tag)) ||
  s.noc.sems.any (fun t => page (t.1 / 256) && t.2.inflight.any fun m => decide (m.1 = tag)) ||
  s.noc.bars.any (fun t => page (512 + t.1 / 64) && t.2.inflight.any fun m => decide (m.1 = tag)) ||
  (List.range 96).any (fun b => match (blockOf s b).launch with
    | some (k, _) => decide (k = l) && ((decide ((blockOf s b).etag = tag) && (List.range 32).all fun c => decide ((coreOf s b c).run = 0)) ||
        (List.range 4).any fun e => (engineOf s b e).queue.any fun c => c.ran && decide (c.etag = tag))
    | none => false)

/-- The epoch tag that a lode drains: the previous epoch's while one is live. -/
def drainTag (s : State) (l : Nat) : Nat :=
  (if (lodeOf s l).prevLive then (lodeOf s l).epoch + 2 ^ 32 - 1 else (lodeOf s l).epoch) % 256

/-- EPOCH_DRAINED: the oldest live epoch of a lode has no request outstanding any more on this chip (R38). Nothing happens while one is. -/
def execEpochDrained (l : Nat) (s : State) : Host.Outcome State Fault Refusal :=
  run s fun s => if (lodeOf s l).state = 0 ∨ outstanding s l (drainTag s l) then s else afterOps (epochDrainedEff l s)

/-- Whether the copy of a granule is the first request of a DMA engine that works. -/
def copyRuns (s : State) (l g : Nat) : Bool :=
  s.cu.dma.any fun t => !(regionOf s ((t.1 - 96) / 4)).resetting && match t.2 with
    | d :: _ => decide (d.kind = 6) && decide (d.lode = l) && decide (d.srcVa = g)
    | [] => false

/-- GRANULE_COPY_DONE: the copy of a granule, the first request of its DMA engine, is written at the destination; writes are forwarded from now
on (R48, R51). -/
def execGranuleCopyDone (l g : Nat) (s : State) : Host.Outcome State Fault Refusal :=
  run s fun s =>
    let e := granOf s l g
    match e.op with
    | some n =>
      if e.valid ∧ e.mig = 1 ∧ !e.copied ∧ copyRuns s l g then
        let s := chargeHead s.img.applied.migClass (2 ^ 28) (dropCopy l g (copySlot e.set e.slot e.dset e.dslot s))
        let s := modGran l g (fun e => { e with copied := true }) s
        afterOps (copiesDone n (startCopies n s))
      else s
    | none => s

/-- The end-of-forward marker (R48): the granule is settled, its source slot free, its held requests served in order. -/
def settleGranule (l g : Nat) (s : State) : State :=
  let e := granOf s l g
  let s := dropSlotLines e.dset e.dslot s
  let s := modGran l g (fun e => { e with mig := 0, dset := 0, dslot := 0, copied := false, op := none, held := [] }) s
  each e.held serveReq s

def execEndOfForward (l g : Nat) (s : State) : Host.Outcome State Fault Refusal :=
  run s fun s =>
    let e := granOf s l g
    if e.valid ∧ e.mig = 2 ∧ drained s l then
      let s := settleGranule l g s
      afterOps ((e.op.map fun n => settledAll n s).getD s)
    else s

/-! ### The expert registers (R59, R60) -/

def drainWrite (b value : Nat) (s : State) : State :=
  if value.testBit 23 then (if (blockOf s b).state = 1 then markDrain b s else s)
  else if (blockOf s b).state = 2 ∧ !(s.lm.ops.any fun o => o.step = 4 ∧ o.blocks.contains b) then
    modBlock b (fun x => { x with state := 1, drain := false }) s
  else s

def execLmBlockDrainWrite (who : Writer) (b value : Nat) (s : State) : Host.Outcome State Fault Refusal :=
  regCmd (.lmBlockDrainWrite who b value) who 1 (0x00102000 + 8 * b) (if 96 ≤ b then 2 else 0) s (drainWrite b value)

/-- The group that the staging registers hold (R60). -/
def stagedGroup (s : State) : Stage :=
  { kind := s.lm.stKind, res := s.lm.stRes, donor := s.lm.stDonor, recv := s.lm.stRecv, slot := s.lm.stSlot, units := s.lm.stUnits, rate := s.lm.stRate }

/-- `LM_STAGE_COMMIT.GO` (R60): ignored while a step is staged or committing, and with another `KIND` in the group; it copies the group, and a
group that does not agree is held in state 1. -/
def stageGo (kind : Nat) (s : State) : State :=
  let m := s.lm
  if m.opState = 1 ∨ m.opState = 2 ∨ m.stKind ≠ kind then s
  else
    let g := stagedGroup s
    let s := modLm (fun m => { m with live := g }) s
    if stageAgrees s g then afterOps (stageRun s) else stageHold .agreement s

/-- The command of a write of `LM_STAGE_COMMIT.GO`. -/
def stageCmd (i : Instr) (who : Writer) (kind : Nat) (s : State) : Host.Outcome State Fault Refusal := regCmd i who 1 0x00100050 0 s (stageGo kind)

def execLmBlockDetach (who : Writer) (s : State) : Host.Outcome State Fault Refusal := stageCmd (.lmBlockDetach who) who 1 s
def execLmBlockAttach (who : Writer) (s : State) : Host.Outcome State Fault Refusal := stageCmd (.lmBlockAttach who) who 2 s
def execLmSetCutover (who : Writer) (s : State) : Host.Outcome State Fault Refusal := stageCmd (.lmSetCutover who) who 3 s
def execLmSetAttach (who : Writer) (s : State) : Host.Outcome State Fault Refusal := stageCmd (.lmSetAttach who) who 4 s
def execLmCreditMove (who : Writer) (s : State) : Host.Outcome State Fault Refusal := stageCmd (.lmCreditMove who) who 5 s

/-- A scrub has ended: the staged step that waits for one is tried again (R59). -/
def stageWake (s : State) : State :=
  if s.lm.opState = 1 ∧ s.lm.stWait = .scrub then (if stageAgrees s s.lm.live then stageRun s else stageFail Err.lodeUnknown s) else s

/-- After 1 ms a staged step whose group still fails ends; one whose group agrees by now runs (R60). -/
def execLmStageHoldExpiry (s : State) : Host.Outcome State Fault Refusal :=
  run s fun s =>
    if s.lm.opState = 1 ∧ s.lm.stWait = .agreement then
      if stageAgrees s s.lm.live then afterOps (stageRun s) else stageFail Err.lodeUnknown s
    else s

end Sys2Proof.Machine
end

