-- ==== Sys2Proof/Machine/Drift.lean ====
section
/-! DEFINITION. Drift: port training and recovery (R302 to R316), packets at a hop (R317 to R324), windows (R328 to R339) and the Drift
verbs and port registers (R340, R341). -/
namespace Sys2Proof.Machine
open Sys2Proof

/-! ### Lanes and training (R304 to R306) -/

/-- The lanes of a mask of four. -/
def lanesOf (m : Nat) : List Nat := bitsOf 4 m

/-- The lanes of a port that may train: neither retired nor switched off (R304 step 1). -/
def trainable (t : Port) : Nat := 15 - (t.retired ||| t.laneOff) % 16

/-- The lane a port in low-rate mode uses: the lowest usable one (R314). -/
def lowLane (m : Nat) : Nat := ((lanesOf m).head?.map fun l => 2 ^ l).getD 0

/-- Whether the image enables a port (R302). -/
def imagePort (s : State) (p : Nat) : Bool := s.img.applied.portEn.testBit p

/-- Whether a port runs in low-rate mode when it is up: asked for, held there by the link loop (R511), or its chip is in Doze or Rest (R314). -/
def lowWanted (s : State) (p : Nat) : Bool := (portOf s p).lowrate || (portOf s p).capLow || decide (s.pwr.chip ≠ 0)

/-- Training begins (R304): a port that was up recovers with its replay buffer and sequence numbers (R310), any other starts afresh. -/
def train (p : Nat) (s : State) : State :=
  modPort p (fun t => { t with
    state := if t.state = 2 ∨ t.state = 3 ∨ t.state = 4 then 4 else 1
    step := 1, lanes := 0, usable := trainable t }) s

/-- Sends waiting packets of a port that can leave now: in order, the real-time channel by earliest deadline (R317). -/
def drain (p : Nat) (s : State) : State :=
  if !portUp s p then s else
  let soon (a b : Option Nat × Packet) : Bool := decide (b.2.dlrem = 0) || (decide (a.2.dlrem ≠ 0) && decide (a.2.dlrem ≤ b.2.dlrem))
  let rt := sortBy soon ((portOf s p).waiting.filter fun w => w.2.vc = 1)
  let ws := rt ++ (portOf s p).waiting.filter fun w => w.2.vc ≠ 1
  each ws (fun w s =>
    let k := unwait s w.2
    if canLeave s p k then giveBack w.1 k (launchPkt p k (modPort p (fun t => { t with waiting := t.waiting.erase w }) s)) else s) s

/-- A packet for this hop or the next: sent, left waiting, or turned back with `E_DR_UNREACHABLE` (R324). -/
def sendOn (ingress : Option Nat) (k : Packet) (s : State) : State :=
  match tryForward ingress k s with
  | some t => t
  | none => giveBack ingress k (nack k Err.drUnreachable s)

/-- A lost packet (R310, R338): the source learns of it, each contributor of a merged one of `E_REDUCE_LOST`. -/
def lostPacket (k : Packet) (s : State) : State := nack k (if 1 < k.contribs.length then Err.reduceLost else Err.drLink) s

/-- A port goes down (R310): the packets of its replay buffer are lost, its waiting packets are routed again, its credits are free. -/
def portDown (p state err : Nat) (s : State) : State :=
  let lost := (portOf s p).replayBuf
  let ws := (portOf s p).waiting
  let s := modPort p (fun t => { t with
    state := state, error := err, lanes := 0, step := 0, replayBuf := [], replays := 0, waiting := [], vcUse := [], poolUse := 0, takeDown := false, asked := false }) s
  let s := modLm (fun m => { m with creditUse := m.creditUse.filter fun t => t.1 % 32 ≠ p }) s
  let s := each lost (fun q => lostPacket q.2) s
  let s := each ws (fun w s => sendOn w.1 (unwait s w.2) s) s
  if state = 5 ∨ state = 7 then emit (.notice 0x401 p err) (event 0x401 5 0 p err 0 none s) else s

/-- The port is up (R304 step 6): after recovery its buffer is replayed, after a fresh start numbers and credits begin anew
and a module with an ID sends JOIN (R571). -/
def portRun (p version mask : Nat) (s : State) : State :=
  let keep := decide ((portOf s p).state = 4)
  let low := lowWanted s p
  let s := modPort p (fun t => { t with
    state := if low then 3 else 2, version := version, lanes := if low then lowLane mask else mask, usable := mask, step := 0, replays := 0, asked := false, error := 0 }) s
  let s := if keep then
      (match (portOf s p).replayBuf with
       | (n, _) :: _ => emit (.replay p n) s
       | [] => s)
    else
      let s := modPort p (fun t => { t with rxSeq := 0, txSeq := 0, replayBuf := [], vcUse := [], poolUse := 0 }) s
      if s.dr.assigned ∧ (portOf s p).peerDev ≠ 0xFFFF then sendUt [(portOf s p).peerDev] { msg := 11, fromDev := 0, body := [s.chip.serialNo] } s else s
  drain p s

/-- A port whose training fails goes down: 7 when no peer answered, 5 otherwise. -/
def trainFail (p state : Nat) (s : State) : State := portDown p state Err.drLink s

/-- A lane's failures of a training step count against it (R311): at three within the classification window it is permanent. -/
def laneMiss (p lane : Nat) (s : State) : State :=
  let t := portOf s p
  let n := if s.evr.opsec ≤ tget 0 t.laneLast lane + s.ras.window * 60 then tget 0 t.laneFail lane + 1 else 1
  let s := modPort p (fun t => { t with laneFail := tset 0 t.laneFail lane n, laneLast := tset 0 t.laneLast lane s.evr.opsec }) s
  if n < 3 then s
  else modPort p (fun t => { t with retired := t.retired ||| 2 ^ lane }) (classify ⟨7, p * 4 + lane⟩ false n s)

/-- Whether a port is in training. -/
def training (s : State) (p : Nat) : Bool := decide ((portOf s p).state = 1) || decide ((portOf s p).state = 4)

/-- Training starts or starts again on an enabled port; the lanes named are locked so far. -/
def execDrPortTrain (p locked : Nat) (s : State) : Host.Outcome State Fault Refusal :=
  run s fun s =>
    if !(portOf s p).enable ∨ !imagePort s p then s
    else
      let s := train p s
      let ok := locked % 16 &&& (portOf s p).usable
      if ok = (portOf s p).usable then modPort p (fun t => { t with step := 2 }) s else s

/-- The 20 ms of step 1 or the 40 ms of step 2 have passed: lanes that did not pass drop out (R304), counted against them. -/
def execTrainingStepTimeout (p lanesOk : Nat) (s : State) : Host.Outcome State Fault Refusal :=
  run s fun s =>
    let t := portOf s p
    if !training s p ∨ t.step = 0 ∨ 2 < t.step then s
    else
      let ok := t.usable &&& (lanesOk % 16)
      let s := each ((lanesOf t.usable).filter fun l => !ok.testBit l) (laneMiss p) s
      if ok = 0 then trainFail p (if t.step = 1 then 7 else 5) s
      else modPort p (fun t => { t with usable := ok, step := t.step + 1 }) s

/-- Both capability records are there: version and width settle (R305, R306). -/
def execCapabilityRecord (p lo hi dev serial peerPort lanes : Nat) (s : State) : Host.Outcome State Fault Refusal :=
  run s fun s =>
    if !training s p then s
    else
      let s := modPort p (fun t => { t with peerDev := dev, peerPort := peerPort, peerLo := lo, peerHi := hi, peerSerial := serial }) s
      let mask := (portOf s p).usable &&& (lanes % 16)
      if 1 < lo ∨ hi < 1 then event 0x402 4 0 p 0 (1 + 1 * 2 ^ 8 + lo * 2 ^ 16 + hi * 2 ^ 24) none (portDown p 6 0 s)
      else if (lanesOf mask).length < 2 then trainFail p 5 s
      else portRun p 1 mask s

/-! ### Flits and replay (R307 to R310) -/

/-- Recovery (R310): the port trains again with its buffer kept. -/
def recover (p : Nat) (s : State) : State := if portUp s p then train p s else s

/-- A port that is being taken down is disabled once its replay buffer is empty (R341). -/
def takenDown (p : Nat) (s : State) : State :=
  if (portOf s p).takeDown ∧ (portOf s p).replayBuf.isEmpty then portDown p 0 0 s else s

/-- A flit arrives: acknowledged flits leave the replay buffer, corrected symbols are counted by lane, and the flit is accepted or
discarded and asked for again once (R308, R309, R311). -/
def execFlitReceive (p seq : Nat) (good : Bool) (corrected : List Nat) (acked : Nat) (s : State) : Host.Outcome State Fault Refusal :=
  run s fun s =>
    if !portUp s p then s
    else
      let s := modPort p (fun t => { t with laneErr := corrected.zipIdx.foldl (fun m c =>
        if c.2 < 4 then tset 0 m c.2 (min 0xFFFF (tget 0 m c.2 + c.1)) else m) t.laneErr }) s
      if !good ∨ seq ≠ (portOf s p).rxSeq then
        if (portOf s p).asked then s
        else emit (.replayAsk p (portOf s p).rxSeq) (modPort p (fun t => { t with asked := true }) s)
      else
        let old := (portOf s p).replayBuf
        let new := old.filter fun q => acked ≤ q.1
        let s := modPort p (fun t => { t with
          rxSeq := t.rxSeq + 1, asked := false, replayBuf := new, replays := if new.length = old.length then t.replays else 0 }) s
        drain p (takenDown p s)

/-- Flits are sent again from a sequence number; the eighth replay of one flit starts recovery (R310). -/
def replayFrom (p seq : Nat) (s : State) : State :=
  let n := (portOf s p).replays + 1
  let s := modPort p (fun t => { t with replays := n }) s
  if 8 ≤ n then recover p s else emit (.replay p seq) s

/-- The peer asks for a replay: flits before the one it names have arrived (R308, R309). -/
def execReplayRequest (p seq : Nat) (s : State) : Host.Outcome State Fault Refusal :=
  run s fun s =>
    let old := (portOf s p).replayBuf
    let new := old.filter fun q => seq ≤ q.1
    if !portUp s p ∨ new.isEmpty then s
    else replayFrom p seq (modPort p (fun t => { t with replayBuf := new, replays := if new.length = old.length then t.replays else 0 }) s)

def execReplayAckTimeout (p : Nat) (s : State) : Host.Outcome State Fault Refusal :=
  run s fun s => match (portOf s p).replayBuf with
    | (n, _) :: _ => if portUp s p then replayFrom p n s else s
    | [] => s

def execPeerSilentTimeout (p : Nat) (s : State) : Host.Outcome State Fault Refusal := run s (recover p)

/-- A lane is classified permanent and retired; a port that is up trains again without it, or goes down with fewer than two lanes
(R311, R312). -/
def execLaneRetire (p lane : Nat) (s : State) : Host.Outcome State Fault Refusal :=
  run s fun s =>
    if (portOf s p).retired.testBit lane then s
    else
      let up := portUp s p
      let s := modPort p (fun t => { t with retired := t.retired ||| 2 ^ lane }) (classify ⟨7, p * 4 + lane⟩ false (tget 0 (portOf s p).laneFail lane) s)
      if !up then s
      else if (lanesOf (trainable (portOf s p) &&& (portOf s p).usable)).length < 2 then portDown p 5 Err.unitRetired s
      else recover p s

/-! ### Packets at a hop (R317 to R324) -/

/-- What a packet costs its Drift ingress (R290, R327): the bytes written or read, 64 for a reduction; a post to semaphores travels on the sync
network (R277), and a response was paid for by its request. -/
def packetCost (k : Packet) : Nat := if k.typ = 6 then 64 else if k.typ = 1 ∨ k.typ = 2 then k.len else 0

/-- The way of a packet that came in on a Drift port, in the data mesh or on rings (R274 to R276). -/
def packetWay (q : Nat) (k : Packet) (d : Dest) (s : State) : State :=
  sendWay (128 + q) k.rtag (if 3 ≤ k.typ ∧ k.typ ≤ 5 then .response else .request) (driftWay s q d) s

/-- A window packet is performed: it draws on its ingress's bucket and goes to the memory it names. -/
def receiveWindow (ingress : Option Nat) (k : Packet) (s : State) : State :=
  let w := rwinOf s k.winid
  let s := match ingress with
    | some q =>
      let s := payReq (128 + q) w.lode k.cls (packetCost k) s
      (match if k.typ = 7 then none else resolve s w.lode (w.laddr + k.offset) with
        | some a => if a < 0x18000000000 then packetWay q k (.pc (a / 0x80000000)) s else s
        | none => s)
    | none => s
  let (rs, s) := winReceive k s
  giveBack ingress k (each rs sendResponse s)

/-- A packet that came in on a port and names this module: a window packet is performed, or waits at the ingress for the bucket of a
sealed-share lode (R296); a response is taken (R323, R331). -/
def deliver (ingress : Option Nat) (k : Packet) (s : State) : State :=
  if k.typ = 1 ∨ k.typ = 2 ∨ k.typ = 6 ∨ k.typ = 7 then
    match ingress.filter fun q => sealedWaits s (128 + q) (rwinOf s k.winid).lode (packetCost k) || s.noc.ingress.any fun w => decide (w.1 = q) &&
        decide (w.2.winid = k.winid) with
    | some q => modNoc (fun n => { n with ingress := n.ingress ++ [(q, k)] }) s
    | none => receiveWindow ingress k s
  else if k.typ = 3 ∨ k.typ = 4 ∨ k.typ = 5 then giveBack ingress k (takeResponse k.rtag k.typ k.status k.data s)
  else giveBack ingress k s

/-- A packet goes on: delivered here, or routed with one hop less; with no hops left it is discarded (R323, R324). A module without
a device ID carries only channels 6 and 7 (R303). -/
def forward (ingress : Option Nat) (k : Packet) (s : State) : State :=
  if !s.dr.assigned ∧ k.vc < 6 then s
  else if k.ddev = s.dr.devid then deliver ingress k s
  else if k.hops = 0 then giveBack ingress k (nack k Err.drUnreachable s)
  else sendOn ingress { k with hops := k.hops - 1 } (match ingress, routeOf s k with
    | some q, some p => packetWay q k (.port p) (payReq (128 + q) ((findGid s k.slode).getD 0x7F) k.cls (packetCost k) s)
    | _, _ => s)

def execPacketForward (p : Nat) (k : Packet) (s : State) : Host.Outcome State Fault Refusal :=
  packetCmd (.packetForward p k) s (forward (some p) k)

/-- The first waiting packet of channel 0 or 1 moves to the escape channel (R319, R324). -/
def execEscWaitExpiry (p : Nat) (s : State) : Host.Outcome State Fault Refusal :=
  run s fun s => match (portOf s p).waiting.find? fun w => decide (w.2.vc < 2) with
    | none => s
    | some w => sendOn w.1 { unwait s w.2 with vc := 3 } (modPort p (fun t => { t with waiting := t.waiting.erase w }) s)

/-- A peer gives slots back (R320): a reserve's to its lode, and through it to the receiver of a credit move (R53). -/
def execCreditReturn (p vc slots : Nat) (lode : Option Nat) (s : State) : Host.Outcome State Fault Refusal :=
  run s fun s =>
    let s := if 2 ≤ vc then modPort p (fun t => { t with vcUse := tset 0 t.vcUse vc (tget 0 t.vcUse vc - slots) }) s
      else match lode with
        | some l => modLm (fun m => { m with creditUse := tset 0 m.creditUse (l * 32 + p) (tget 0 m.creditUse (l * 32 + p) - slots) }) s
        | none => modPort p (fun t => { t with poolUse := t.poolUse - slots }) s
    let moves := s.lm.ops.filter fun o => decide (o.kind = .creditMove) && decide (o.step = 2) && decide (o.port = p)
    afterOps (drain p (each moves (fun o => passCredits o.num) s))

/-! ### Windows at the destination (R331 to R334) -/

def execWindowPacketReceive (p : Nat) (k : Packet) (s : State) : Host.Outcome State Fault Refusal :=
  packetCmd (.windowPacketReceive p k) s fun s => if k.typ = 1 ∨ k.typ = 2 ∨ k.typ = 6 ∨ k.typ = 7 then deliver (some p) k s else s

/-- The sender's module takes a response (R339). -/
def execWindowResponse (k : Packet) (s : State) : Host.Outcome State Fault Refusal :=
  packetCmd (.windowResponse k) s fun s => if k.typ = 3 ∨ k.typ = 4 ∨ k.typ = 5 then takeResponse k.rtag k.typ k.status k.data s else s

/-- A packet had no response in time: its request ends with `E_DR_TIMEOUT` (R339). -/
def execDrTimeoutExpiry (rtag : Nat) (s : State) : Host.Outcome State Fault Refusal := run s (takeResponse rtag 5 Err.drTimeout [])

/-! ### The combining store of the switch (R336 to R338) -/

/-- Whether two packets merge (R336); together they name at most 8 contributors. -/
def merges (a b : Packet) : Bool :=
  decide (a.ddev = b.ddev) && decide (a.winid = b.winid) && decide (a.offset = b.offset) && decide (a.len = b.len) &&
    decide (a.etag = b.etag) && decide (a.slode = b.slode) && decide ((contribsOf a).length + (contribsOf b).length ≤ 8)

def mergePkt (a b : Packet) : Packet :=
  let cs := contribsOf a ++ contribsOf b
  { a with contribs := cs, ncontrib := cs.length, data := mergeBytes (a.winid / 4 % 4) (a.winid % 4) a.data b.data }

/-- A reduction packet reaches the store: it merges, waits, or goes on at once. -/
def execSwitchCombineArrive (k : Packet) (s : State) : Host.Outcome State Fault Refusal :=
  packetCmd (.switchCombineArrive k) s fun s =>
    if k.typ ≠ 6 then s
    else if !s.dr.combEn || s.dr.noComb || decide (s.dr.combHold = 0) || decide (8 ≤ (contribsOf k).length) then forward none k s
    else match s.dr.store.find? (merges k) with
      | some e =>
        let m := mergePkt e k
        if 8 ≤ m.contribs.length then forward none m (modDr (fun d => { d with store := d.store.erase e }) s)
        else modDr (fun d => { d with store := d.store.map fun x => if x = e then m else x }) s
      | none =>
        match s.dr.store with
        | old :: rest =>
          if 1024 ≤ s.dr.store.length then forward none old (modDr (fun d => { d with store := rest ++ [k] }) s)
          else modDr (fun d => { d with store := d.store ++ [k] }) s
        | [] => modDr (fun d => { d with store := [k] }) s

def execDrCombHoldExpiry (s : State) : Host.Outcome State Fault Refusal :=
  run s fun s => match s.dr.store with
    | k :: rest => forward none k (modDr (fun d => { d with store := rest }) s)
    | [] => s

/-! ### Port controls (R340, R341) -/

/-- `DR_PORT_CTL.ENABLE`: 1 trains a port that the image enables; 0 takes it down after its replay buffer empties. -/
def setEnable (p : Nat) (on : Bool) (s : State) : State :=
  if on then
    if !imagePort s p then s
    else
      let s := modPort p (fun t => { t with enable := true, takeDown := false }) s
      if portUp s p || training s p then s else train p s
  else
    let s := modPort p (fun t => { t with enable := false }) s
    if portUp s p ∨ (portOf s p).state = 4 then takenDown p (modPort p (fun t => { t with takeDown := true }) s) else portDown p 0 0 s

/-- A port that is up takes the width asked of it: the lanes beyond the low-rate one go off or come back (R314, R315). -/
def fitWidth (p : Nat) (s : State) : State :=
  if !portUp s p then s
  else if lowWanted s p then modPort p (fun t => { t with state := 3, lanes := lowLane t.usable }) s
  else modPort p (fun t => { t with state := 2, lanes := t.usable }) s

/-- `DR_PORT_CTL.LOWRATE`: the other lanes go off or come back (R314). -/
def setLowrate (p : Nat) (on : Bool) (s : State) : State :=
  fitWidth p (modPort p (fun t => { t with lowrate := on }) s)

/-- `DR_PORT_CTL.LANE_OFF`: only while the port is down (R341). -/
def setLaneOff (p m : Nat) (s : State) : State :=
  if portUp s p || training s p then modPort p (fun t => { t with discard := true }) s
  else modPort p (fun t => { t with laneOff := m }) s

def execDrPortSet (via : Via) (p : Nat) (enable lowrate : Bool) (laneMask : Nat) (s : State) : Host.Outcome State Fault Refusal :=
  verb via 0x0400 s fun s =>
    if 32 ≤ p ∨ (enable ∧ !imagePort s p) then reject via Err.cmdFormat s
    else answer via 0 [] (setEnable p enable (setLowrate p lowrate (setLaneOff p (laneMask % 16) s)))

/-- `DR_PORT_STATUS` (R341). -/
def portStatus (t : Port) : Nat :=
  t.error % 65536 + t.state % 16 * 2 ^ 16 + (if t.discard then 2 ^ 20 else 0) + t.retired % 16 * 2 ^ 24 + t.lanes % 16 * 2 ^ 28 +
    t.version % 256 * 2 ^ 32 + t.peerPort % 32 * 2 ^ 40 + t.peerDev % 65536 * 2 ^ 48

/-- `DR_LANE_ERR` (R341). -/
def laneErrWord (t : Port) : Nat := ((List.range 4).map fun l => tget 0 t.laneErr l * 2 ^ (16 * l)).sum

/-- DR_PORT_QUERY: the status, the lane counters and the peer's capability record. -/
def execDrPortQuery (via : Via) (p : Nat) (s : State) : Host.Outcome State Fault Refusal :=
  verb via 0x0401 s fun s =>
    if 32 ≤ p then reject via Err.cmdFormat s
    else
      let t := portOf s p
      answer via 0 (enc [(8, portStatus t), (8, laneErrWord t), (1, t.peerLo), (1, t.peerHi), (2, t.peerDev), (8, t.peerSerial), (1, t.peerPort), (1, t.usable)]) s

def execDrRouteSet (via : Via) (first : Nat) (entries : List Nat) (s : State) : Host.Outcome State Fault Refusal :=
  verb via 0x0402 s fun s =>
    if entries.isEmpty ∨ 256 < entries.length ∨ 16384 < first + entries.length then reject via Err.cmdFormat s
    else answer via 0 [] (modDr (fun d => { d with routes := entries.zipIdx.foldl (fun r e => tset 0 r (first + e.2) (e.1 &&& 0x9F9F9F9F)) d.routes }) s)

def execDrTimingSet (via : Via) (timeout escWait hold : Nat) (enable : Bool) (s : State) : Host.Outcome State Fault Refusal :=
  verb via 0x0406 s fun s =>
    if timeout = 0 ∨ 65535 < timeout ∨ escWait = 0 ∨ 65535 < escWait ∨ 255 < hold then reject via Err.cmdFormat s
    else answer via 0 [] (modDr (fun d => { d with timeout := timeout, escWait := escWait, combHold := hold, combEn := enable }) s)

/-- The offset of a port's control register. -/
def portCtl (p : Nat) : Nat := 0x00700100 + 0x20 * p

def execDrPortRetrain (who : Writer) (p : Nat) (s : State) : Host.Outcome State Fault Refusal :=
  regCmd (.drPortRetrain who p) who 8 (portCtl p) (if 32 ≤ p then 2 else 0) s fun s => if (portOf s p).enable ∧ imagePort s p then train p s else s

def execDrPortEnableWrite (who : Writer) (p : Nat) (on : Bool) (s : State) : Host.Outcome State Fault Refusal :=
  regCmd (.drPortEnableWrite who p on) who 8 (portCtl p) (if 32 ≤ p then 2 else if on ∧ !imagePort s p then 8 else 0) s (setEnable p on)

def execDrPortLowrateWrite (who : Writer) (p : Nat) (on : Bool) (s : State) : Host.Outcome State Fault Refusal :=
  regCmd (.drPortLowrateWrite who p on) who 8 (portCtl p) (if 32 ≤ p then 2 else 0) s (setLowrate p on)

/-! ### Window verbs (R330, R335, R340) -/

/-- The kind a window ID has by its range (R328); 3 for a reserved reduction ID. -/
def kindOfWin (w : Nat) : Nat :=
  if w < 0xF00 then 0 else if w < 0xF80 then 1 else if w % 4 = 3 ∨ w / 4 % 4 = 3 then 3 else 2

/-- DR_WINDOW_OPEN on this chip: `f` holds window ID, context, kind, rights, address, length, semaphore base, allowed lode, allowed
device, device mask. -/
def doWinOpen (l : Nat) (f : List Nat) (s : State) : Reply :=
  match f with
  | [win, ctx, kind, rights, laddr, len256, semBase, allowLode, allowDev, devMask] =>
    let allowDev := allowDev % 2 ^ 14
    let devMask := devMask % 2 ^ 14
    if kind % 4 = 3 then deny Err.reservedEncoding s
    else if 4096 ≤ win ∨ 3 < kind ∨ laddr % 256 ≠ 0 ∨ 2 ^ 32 ≤ len256 ∨ 2 ^ 17 ≤ semBase ∨ 2 ^ 32 ≤ allowLode then deny Err.cmdFormat s
    else if !(xlCtxOf s ctx).valid ∨ (xlCtxOf s ctx).lode ≠ l then deny Err.xlContext s
    else if (rwinOf s win).valid then deny Err.resourceBusy s
    else if kind ≠ kindOfWin win ∨ (kind ≠ 1 ∧ (2 ^ 41 < laddr + (len256 + 1) * 256 ∨ inTables s l laddr ((len256 + 1) * 256))) then deny Err.winRange s
    else if kind = 1 ∧ !((List.range (min ((len256 + 1) * 32) 131073)).all fun i => holdsSem s l (semBase + i)) then deny Err.gcSem s
    else done (modRwin win (fun _ => {
      valid := true, kind := kind, r := rights.testBit 0, w := rights.testBit 1, a := rights.testBit 2, len256 := len256, laddr := laddr
      semBase := semBase, lode := l, ctx := ctx, devMask := devMask, allowDev := allowDev, allowLode := allowLode }) s)
  | _ => deny Err.cmdFormat s

def execDrWindowOpen (via : Via) (dev win gid ctx kind rights laddr len256 semBase allowLode allowDev devMask : Nat) (s : State) : Host.Outcome State Fault Refusal :=
  verb via 0x0403 s fun s => match findLive s via gid with
    | .error e => reject via e s
    | .ok l =>
      let f := [win, ctx, kind, rights, laddr, len256, semBase, allowLode, allowDev, devMask]
      onDev via l dev 0x0403 (gid :: f) (doWinOpen l f) s

/-- Step 1 of a close: packets that reach order 1 from now on fail it. -/
def doWinClose (win : Nat) (f : VFence) (s : State) : Reply :=
  let w := rwinOf s win
  if 4096 ≤ win ∨ !w.valid ∨ w.closing then deny Err.winUnknown s
  else done (modRwin win (fun w => { w with closing := true, fence := some f }) s)

/-- `DR_RWT` (R330). -/
def rwtBits (w : RWin) : Nat :=
  w.kind + (if w.r then 8 else 0) + (if w.w then 16 else 0) + (if w.a then 32 else 0) + (if w.valid then 128 else 0) + w.len256 * 2 ^ 64 +
    w.laddr * 2 ^ 110 + w.semBase * 2 ^ 160 + w.lode * 2 ^ 177 + w.ctx * 2 ^ 184 + w.devMask * 2 ^ 196 + w.allowDev * 2 ^ 210 + w.allowLode * 2 ^ 224

/-- DR_WINDOW_QUERY on this chip: the entry, zero for a confidential lode's window. -/
def doWinQuery (win : Nat) (s : State) : Reply :=
  let w := rwinOf s win
  if 4096 ≤ win then deny Err.cmdFormat s
  else (0, le 32 (if w.valid ∧ (lodeOf s w.lode).conf then 0 else rwtBits w), s)

/-- A verb on a window of a device: here, on another member chip of some lode of this one, or unknown. -/
def onWinDev (via : Via) (dev code : Nat) (args : List Nat) (f : State → Reply) (s : State) : State :=
  if dev = s.dr.devid then finish via (f s)
  else if (lodes s).any fun l => (lodeOf s l).members.contains dev then emit (.control dev 2 (code :: viaNum via :: args)) s
  else reject via Err.lodeUnknown s

/-- Whether a port may name the lode that owns a window here (R371). -/
def winSeen (s : State) (via : Via) (dev win : Nat) : Bool :=
  decide (dev ≠ s.dr.devid) || !(rwinOf s win).valid || (findVia s via (lodeOf s (rwinOf s win).lode).gid).isSome

def execDrWindowClose (via : Via) (dev win : Nat) (f : VFence) (s : State) : Host.Outcome State Fault Refusal :=
  verb via 0x0404 s fun s =>
    if !winSeen s via dev win then reject via Err.lodeUnknown s
    else if dev = s.dr.devid ∧ (rwinOf s win).valid ∧ (lodeOf s (rwinOf s win).lode).home ∧ !fenceFits s (rwinOf s win).lode f then reject via Err.cmdFormat s
    else onWinDev via dev 0x0404 [win, f.addr, f.val] (doWinClose win f) s

/-- Step 3 of a close: the entry is cleared and the fence signalled, by the home chip where this one is not it. -/
def execWindowCloseDrained (win : Nat) (s : State) : Host.Outcome State Fault Refusal :=
  run s fun s =>
    let w := rwinOf s win
    if !w.closing then s
    else
      let s := modRwin win (fun _ => {}) s
      match w.fence with
      | none => s
      | some f => if (lodeOf s w.lode).home then signalFence w.lode (some f) s
        else emit (.control (lodeOf s w.lode).homeDev 6 [(lodeOf s w.lode).gid, f.addr, f.val]) s

def execDrWindowQuery (via : Via) (dev win : Nat) (s : State) : Host.Outcome State Fault Refusal :=
  verb via 0x0405 s fun s =>
    if !winSeen s via dev win then reject via Err.lodeUnknown s else onWinDev via dev 0x0405 [win] (doWinQuery win) s

end Sys2Proof.Machine
end

