-- ==== Sys2Proof/Machine/Alarm.lean ====
section
/-! DEFINITION. What survives a chip reset, how chip start-up begins, and alarms (R61, R475 to R477, R547, R569). -/
namespace Sys2Proof.Machine
open Sys2Proof

/-- An XMSS key after a loss of power or a reset: signing resumes at the recorded end (R467). -/
def Xmss.resume (k : Xmss) (lost : Bool) : Xmss := { k with next := if lost then k.rend else k.next, wait := [] }

/-- A slot pair at a start: the session has ended, a slot being written is empty (R86, chapter 3). -/
def SlotPair.settle (p : SlotPair) : SlotPair :=
  let f (n : NvSlot) : NvSlot := if n.state = 2 then {} else n
  { p with a := f p.a, b := f p.b, session := none }

/-- The retirement map as a start reads it (R530): what its bits say of pseudo-channels, ways, pages and blocks. -/
def fromMap (units : Tbl Fc) (s : State) : State :=
  each (units.filter fun t => t.2.retired) (fun t s =>
    let k := t.1 / 65536
    let n := t.1 % 65536
    match k with
    | 2 => modEngine (n / 4) (n % 4) (fun e => { e with retired := true }) s
    | 3 => modBlock n (fun b => { b with state := 6 }) s
    | 5 => modPc n (fun p => { p with retired := true }) s
    | 6 => modRegion (n / 64) (fun r => { r with waysRet := r.waysRet ||| 2 ^ (n % 64) }) s
    | 7 => modPort (n / 4) (fun p => { p with retired := p.retired ||| 2 ^ (n % 4) }) s
    | 8 => if n < 512 then modSemPage (n / 64) (n % 64) (fun p => { p with retired := true }) s
           else modBarPage (n - 512) (fun p => { p with retired := true }) s
    | _ => s) s

/-- The module when chip start-up begins at step 1 (R569): what non-volatile memory and the Lamp domain keep stays, all else
is at its Reset value. `lost`: main or auxiliary was out of range, so the dies lost their contents. -/
def coldState (lost : Bool) (s : State) : State :=
  let t : State := {
    pending := s.pending, free := s.free, out := s.out, edits := s.edits
    chip := { s.chip with
      phase := 2, stage := 1, bootErr := 0, tick := 0, acc := 0, pcRet := 0, hbmTodo := [], stackTry := [], training := [] }
    lm := { lastSerial := s.lm.lastSerial }
    img := { s.img with slots := SlotPair.settle s.img.slots, policySig := [], everApplied := s.img.everApplied && !lost }
    cu := { rows := s.cu.rows }
    mem := { bytes := s.mem.bytes, poison := s.mem.poison }
    sec := { s.sec with
      slots := [], locked := false, seen := 0, lock := 0, boot := 0, fw := SlotPair.settle s.sec.fw
      idKey := s.sec.idKey.resume lost, atKey := s.sec.atKey.resume lost, bounce := [] }
    pwr := { vtCopies := s.pwr.vtCopies, sensors := s.pwr.sensors }
    ras := {
      units := (s.ras.units.map fun t => (t.1, { t.2 with tick := none, ces := [], retired := t.2.retired || t.2.deferred, deferred := false })).filter fun t => t.2 ≠ {}
      mapLost := s.ras.mapLost, unserv := s.ras.unserv, wires := s.ras.wires }
    evr := { s.evr with chal := none, sig := [] } }
  fromMap t.ras.units (if lost then zeroRange 0 (2 ^ 44) t else t)

/-- Whether a reset input holds the chip: `MODULE_RESET#`, or `PERST0#` in mode 0 (R594). -/
def heldByPin (s : State) : Bool := s.chip.mReset || (s.chip.perst0 && decide (s.img.applied.hostMode = 0))

/-- Chip start-up begins again without any change of rails (R569), when no reset input holds the chip: a start that had not reached
ready counts in `FAILS` (R577). `cause` is what the 0x001 record reports: 1 chip reset, 2 restart after thermal shutdown. -/
def restart (cause : Nat) (s : State) : State :=
  let failed := decide (s.chip.phase = 2)
  let s := coldState false s
  modChip (fun c => { c with phase := if heldByPin s then 7 else 2, startCause := cause, fails := if failed then min 3 (c.fails + 1) else c.fails }) s

/-- Every host link is down: outstanding host reads are gone with the function's state (R373, R547). -/
def linksDown (s : State) : State := modHp (fun _ => {}) s

/-- The level of an alarm source in effect (R70, R81): record 0, lock 1, erase 2. -/
def alarmLevel (s : State) (src : Nat) : Nat :=
  let dflt := [1, 1, 1, 2, 1]
  if src = 3 then 2 else if s.img.everApplied then s.img.applied.alarms.getD src 0 else dflt.getD src 0

/-- The confidential lodes of the chip. -/
def confLodes (s : State) : List Nat := (lodes s).filter fun l => (lodeOf s l).conf

/-- Lamp acts on an alarm (R476, R477). The shield seen without main power is recorded, and its erase is left for the next
start. -/
def alarm (src : Nat) (s : State) : State :=
  let lvl := alarmLevel s src
  let s := event 0x701 (if lvl = 0 then 5 else if lvl = 1 then 6 else 7) 0 src 0 0 none s
  let s := modSec (fun k => { k with seen := k.seen ||| 2 ^ src, boot := min 0xFF (k.boot + 1) }) s
  let s := emit (.notice 0x701 src 0) (raiseAll 3075 s)
  if lvl = 0 then s else
  let s := modSec (fun k => { k with locked := true, lock := k.lock ||| 2 ^ src, life := min 0xFFFF (k.life + 1) }) s
  let s := modChip (fun c => { c with alarmOut := true }) s
  let s := each (confLodes s) (fun l => failLode l Err.alarmLocked) s
  let s := each (s.lm.ops.filter fun o => isRebind o.kind ∧ ((lodeOf s o.donor).conf ∨ (lodeOf s o.receiver).conf)) (fun o => stopOp o.num Err.alarmLocked) s
  if lvl = 1 then s
  else if s.chip.phase = 8 then modSec (fun k => { k with slots := [], bounce := [] }) s
  else if s.chip.main && s.chip.aux then
    restart 1 (linksDown (modSec (fun k => { k with slots := [], bounce := [] }) s))
  else modSec (fun k => { k with erasePending := true }) s

/-- A signature verification failed (R81): counted, and an alarm from the count in effect on. -/
def sigFailed (s : State) : State :=
  let s := modImg (fun i => { i with sigFails := i.sigFails + 1 }) s
  let lim := if s.img.everApplied then s.img.applied.sigCount else 8
  if lim ≤ s.img.sigFails then alarm 4 s else s

end Sys2Proof.Machine
end

