-- ==== Sys2Proof/Machine/Hash.lean ====
section
/-! DEFINITION. SHAKE256 of FIPS 202 (R64, R470, R472) and CRC-32C (R308, R556): the published functions the spec names. -/
namespace Sys2Proof.Machine
open Sys2Proof

/-- Lane (x, y) of a Keccak state of 25 lanes. -/
def lane (a : List Word) (x y : Nat) : Word := a.getD (x % 5 + 5 * (y % 5)) 0

/-- The rotation of each lane, lane x + 5 y. -/
def keccakRot : List Nat :=
  [0, 1, 62, 28, 27, 36, 44, 6, 55, 20, 3, 10, 43, 25, 39, 41, 45, 15, 21, 8, 18, 2, 61, 56, 14]

/-- The round constants. -/
def keccakRc : List Word :=
  [0x0000000000000001, 0x0000000000008082, 0x800000000000808A, 0x8000000080008000, 0x000000000000808B, 0x0000000080000001,
   0x8000000080008081, 0x8000000000008009, 0x000000000000008A, 0x0000000000000088, 0x0000000080008009, 0x000000008000000A] ++
  [0x000000008000808B, 0x800000000000008B, 0x8000000000008089, 0x8000000000008003, 0x8000000000008002, 0x8000000000000080,
   0x000000000000800A, 0x800000008000000A, 0x8000000080008081, 0x8000000000008080, 0x0000000080000001, 0x8000000080008008]

/-- One round. -/
def keccakRound (a : List Word) (rc : Word) : List Word :=
  let c := (List.range 5).map fun x => lane a x 0 ^^^ lane a x 1 ^^^ lane a x 2 ^^^ lane a x 3 ^^^ lane a x 4
  let d := (List.range 5).map fun x => c.getD ((x + 4) % 5) 0 ^^^ (c.getD ((x + 1) % 5) 0).rotateLeft 1
  let t := a.zipIdx.map fun p => p.1 ^^^ d.getD (p.2 % 5) 0
  let b := (List.range 25).map fun i =>
    let x := i % 5
    let y := i / 5
    let sx := (x + 3 * y) % 5
    (lane t sx x).rotateLeft (keccakRot.getD (sx + 5 * x) 0)
  let e := (List.range 25).map fun i => lane b (i % 5) (i / 5) ^^^ (~~~ lane b (i % 5 + 1) (i / 5) &&& lane b (i % 5 + 2) (i / 5))
  match e with
  | h :: t => (h ^^^ rc) :: t
  | [] => []

def keccakF (a : List Word) : List Word := keccakRc.foldl keccakRound a

/-- The 64-bit lanes of a byte string. -/
def toLanes : Nat → List Byte → List Word
  | 0, _ => []
  | n + 1, l => BitVec.ofNat 64 (unle (l.take 8)) :: toLanes n (l.drop 8)

/-- Absorbs blocks of 136 bytes. -/
def absorb : Nat → List Byte → List Word → List Word
  | 0, _, a => a
  | n + 1, l, a =>
    if l.isEmpty then a else
    absorb n (l.drop 136) (keccakF (List.zipWith (fun x y => x ^^^ y) (toLanes 17 (l.take 136) ++ List.replicate 8 0) a))

/-- The message with the padding of SHAKE256. -/
def shakePad (m : List Byte) : List Byte :=
  let k := 136 - m.length % 136
  m ++ (if k = 1 then [0x9F] else 0x1F :: List.replicate (k - 2) 0 ++ [0x80])

/-- The first `n` bytes, at most 136, of SHAKE256. -/
def shake256 (n : Nat) (m : List Byte) : List Byte :=
  let p := shakePad m
  ((absorb (p.length / 136 + 1) p (List.replicate 25 0)).flatMap fun w => le 8 w.toNat).take n

/-- One byte of a CRC-32C (reflected polynomial 0x82F6_3B78). -/
def crcByte (c : Nat) (b : Byte) : Nat :=
  (List.range 8).foldl (fun c _ => if c % 2 = 1 then c / 2 ^^^ 0x82F63B78 else c / 2) (c ^^^ b.toNat)

/-- CRC-32C (Castagnoli) of a byte string. -/
def crc32c (m : List Byte) : Nat := m.foldl crcByte 0xFFFFFFFF ^^^ 0xFFFFFFFF

end Sys2Proof.Machine
end

