-- ==== Sys2Proof/Machine/Image.lean ====
section
/-! DEFINITION. The structure image: reading and checking it (R61 to R80), its slots and verbs (R82 to R88, R621). The slot
and session rules are shared with firmware bundles (R471). -/
namespace Sys2Proof.Machine
open Sys2Proof

/-- The serial number as the module reports it: 64 bits fixed at manufacture (log 3). -/
def moduleSerial (s : State) : Nat := s.chip.serialNo

/-! ### Sections (R66, R67) -/

/-- Turns a failed condition into an error. -/
def need (c : Bool) (e : Nat) : Except Nat Unit := if c then .ok () else .error e

/-- Splits the bytes after the header into sections (type, body), `fuel` at most. -/
def sections : Nat → List Byte → Except Nat (List (Nat × List Byte))
  | _, [] => .ok []
  | 0, _ => .error Err.imageFormat
  | fuel + 1, l =>
    let h := unle (l.take 16)
    let len := fld h 32 32
    if fld h 16 16 ≠ 1 ∨ len % 8 ≠ 0 ∨ len < 16 ∨ l.length < len then .error Err.imageFormat
    else (sections fuel (l.drop len)).map fun t => (fld h 0 16, slice l 16 (len - 16)) :: t

/-- The entries of `n` bytes of a body, as numbers. -/
def entries (n : Nat) : Nat → List Byte → List Nat
  | 0, _ => []
  | k + 1, l => if l.isEmpty then [] else unle (l.take n) :: entries n k (l.drop n)

/-- The tables of the cyclic section (R77). Tables that do not fill the section fail order 1 of R79, before its target check, like a
section whose body has the wrong length (log 73). -/
def cycTables : Nat → List Byte → Except Nat (List (Nat × List Nat))
  | _, [] => .ok []
  | 0, _ => .error Err.imageFormat
  | fuel + 1, l =>
    let h := unle (l.take 8)
    let n := fld h 8 16
    let len := 8 + alignUp (4 * n) 8
    if l.length < len then .error Err.imageFormat
    else (cycTables fuel (l.drop len)).map fun t => (fld h 0 8, entries 4 n (slice l 8 (4 * n))) :: t

/-- Interleave-set entries: the last word of the body, when zero, is padding (R67). -/
def setWords (body : List Byte) : List Nat :=
  let ws := entries 4 (body.length / 4) body
  if ws.getLast? = some 0 then ws.dropLast else ws

/-- Whether the types of the sections stand in R67's order. -/
def typesOk (ts : List Nat) : Bool :=
  decide (ts = [1, 2, 3, 4, 5, 6, 7, 8, 10]) || decide (ts = [1, 2, 3, 4, 5, 6, 7, 8, 9, 10])

/-- Body lengths of R67. -/
def bodyOk (t : Nat × List Byte) : Bool :=
  match t.1 with
  | 5 => decide (t.2.length = 512)
  | 6 => decide (t.2.length = 648)
  | 7 => decide (t.2.length ≤ 768)
  | 8 => decide (t.2.length % 80 = 0)
  | 9 => decide (8 ≤ t.2.length)
  | _ => decide (t.2.length = 8)

/-- A lode entry (R75). -/
def lodeEntry (e : Nat) : LodeDef :=
  { blocks := fld e 0 96, sets := fld e 96 192, credits := (List.range 32).map fun p => fld e (288 + 8 * p) 8
    pasid := fld e 544 20, conf := e.testBit 564, sealed := e.testBit 565, port := fld e 566 1, cyclic := fld e 568 8
    classes := fld e 576 64 }

/-- Order 1 of R79: the layout. A `SIG_ALG` that is reserved has no length that could agree with R65, so it fails here, not at order 4
(log 73). Answers the header, the sections and the signature (algorithm, bytes) if there is one. -/
def imageLayout (img : List Byte) : Except Nat (Nat × List (Nat × List Byte) × Option (Nat × List Byte)) := do
  let h := unle (img.take 64)
  let body := fld h 64 32
  let signed := h.testBit 96
  need (decide (64 ≤ img.length) && decide (img.length ≤ 4194304) && decide (fld h 0 32 = 0x49535644) && decide (fld h 32 16 = 1) &&
    decide (fld h 128 16 = 0x2401) && decide (fld h 144 8 ≤ 1)) Err.imageFormat
  need (decide (64 ≤ body) && decide (body % 8 = 0) && decide (body + 8 ≤ img.length)) Err.imageFormat
  let tr := unle (slice img (body + 8) 8)
  let alg := fld tr 0 16
  let slen := fld tr 32 32
  need (if signed then ((decide (alg = 1) && decide (slen = 4963)) || (decide (alg = 2) && decide (slen = 9893))) &&
      decide (img.length = body + 16 + alignUp slen 8) else decide (img.length = body + 8)) Err.imageFormat
  let secs ← sections 11 (slice img 64 (body - 64))
  need (decide (secs.length = fld h 48 16) && typesOk (secs.map (·.1)) && secs.all bodyOk) Err.imageFormat
  return (h, secs, if signed then some (alg, slice img (body + 16) slen) else none)

def sect (secs : List (Nat × List Byte)) (t : Nat) : List Byte := ((secs.find? fun x => x.1 = t).map (·.2)).getD []

/-- The image's contents as the device reads them. -/
def readImage (h hash : Nat) (secs : List (Nat × List Byte)) (cyc : List (Nat × List Nat)) (signed : Bool) : Image :=
  let n (t : Nat) : Nat := unle (sect secs t)
  { format := fld h 32 16, part := fld h 128 16, minGen := fld h 144 8, serial := fld h 160 32, target := fld h 192 64
    signed := signed, hash := hash, migClass := fld (n 1) 8 6, hostMode := fld (n 1) 0 1, capW := fld (n 2) 0 16
    sealedW := fld (n 2) 16 16, sigCount := fld (n 3) 16 8
    alarms := (List.range 5).map fun i => fld (n 3) (2 * i) 2
    portEn := fld (n 4) 8 32, attach := fld (n 4) 0 8
    classes := (entries 8 64 (sect secs 5)).zipIdx.foldl (fun t e => tset {} t e.2
      { kind := fld e.1 0 2, weight := fld e.1 8 8, cache := fld e.1 16 7, queue := fld e.1 24 7 }) []
    mins := (entries 4 161 (sect secs 6)).map fun e => fld e 0 16
    sets := (setWords (sect secs 7)).map fun e => (fld e 0 8, fld e 8 10, fld e 24 8)
    lodes := (entries 80 97 (sect secs 8)).map lodeEntry
    cyclic := cyc.map fun t => (t.1, t.2.map fun e => { share := e.testBit 24, res := fld e 16 8, len := fld e 0 14 })
    expert := fld (n 10) 0 18 }

/-- Whether no element of a list of lists occurs in two of them. -/
def disjoint (ls : List (List Nat)) : Bool := decide (ls.flatten.Nodup)

/-- The semantic rules of R80 and the ranges of the field maps. -/
def semanticOk (i : Image) : Bool :=
  let cls := (List.range 64).map fun k => tget {} i.classes k
  let setNums := i.sets.map (·.1)
  let blk (d : LodeDef) := bitsOf 96 d.blocks
  let sts (d : LodeDef) := bitsOf 192 d.sets
  let tabs := i.cyclic.map (·.1)
  decide (i.alarms.getD 3 0 = 2) && i.alarms.all (fun a => decide (a ≤ 2)) && decide (1 ≤ i.sigCount) &&
  decide (1600 ≤ i.capW) && decide (i.capW ≤ 3200) && decide (i.capW % 10 = 0) && decide (i.sealedW ≤ 960) && decide (i.sealedW % 10 = 0) &&
  decide ((tget {} i.classes 0).kind = 1) && cls.all (fun c => decide (c.kind ≤ 2) && (decide (c.kind = 0) || decide (1 ≤ c.weight)) && decide (c.cache ≤ 64) && decide (c.queue ≤ 64)) &&
  decide ((cls.map (·.cache)).sum ≤ 64) && decide ((cls.map (·.queue)).sum ≤ 64) && decide ((tget {} i.classes i.migClass).kind = 1) &&
  decide (i.mins.sum ≤ 265420) && decide (32 ≤ i.mins.getD 160 0) &&
  i.sets.all (fun t => decide (t.1 < 192) && [4, 8, 16, 32].contains t.2.2 && decide (t.2.1 % t.2.2 = 0) && decide (t.2.1 + t.2.2 ≤ 768)) &&
  decide setNums.Nodup && disjoint (i.sets.map fun t => (List.range t.2.2).map fun k => t.2.1 + k) &&
  decide (i.lodes.length ≤ 96) && i.lodes.all (fun d => (sts d).all (setNums.contains ·) && !(blk d).isEmpty && !(sts d).isEmpty &&
    (decide (i.hostMode = 1) || decide (d.port = 0)) && d.credits.all (fun u => decide (u ≤ 64)) &&
    d.credits.zipIdx.all (fun u => decide (u.1 = 0) || i.portEn.testBit u.2) && (decide (d.cyclic = 0xFF) || tabs.contains d.cyclic) &&
    (if d.sealed then decide (d.classes ≠ 0) && (bitsOf 64 d.classes).all (fun k => decide (k ≠ 0) && decide (k ≠ i.migClass) &&
        decide ((tget {} i.classes k).kind ≠ 0) && decide ((tget {} i.classes k).cache ≠ 0) && decide ((tget {} i.classes k).queue ≠ 0))
     else decide (d.classes = 0))) &&
  disjoint (i.lodes.map blk) && disjoint (i.lodes.map sts) && disjoint (i.lodes.map fun d => bitsOf 64 d.classes) &&
  decide (((i.lodes.filter fun d => d.pasid ≠ 0).map fun d => d.pasid * 2 + d.port).Nodup) &&
  (List.range 32).all (fun p => decide ((i.lodes.map fun d => d.credits.getD p 0).sum ≤ 64)) &&
  decide tabs.Nodup && tabs.all (fun t => decide (t < 96) && decide ((i.lodes.filter fun d => d.cyclic = t).length = 1)) &&
  i.cyclic.all (fun t => decide (1 ≤ t.2.length) && decide (t.2.length ≤ 256) && t.2.all fun k => decide (10 ≤ k.len) && decide (k.len ≤ 10000)) &&
  (i.lodes.any (·.sealed) || decide (i.sealedW = 0))

/-- The checks of R79 in order. While no image authority key is installed (R65), the key that the signature is verified under is
empty (log 73). The first part says whether a signature verification failed (R81). -/
def checkImage (s : State) (img : List Byte) : Bool × Except Nat Image :=
  match imageLayout img with
  | .error e => (false, .error e)
  | .ok (h, secs, sig) =>
    let body := fld h 64 32
    let out := shake256 32 (img.take body)
    let target := fld h 192 64
    let good := match sig with
      | some (alg, sg) => Config.verifies alg s.sec.authKey (img.take (body + 8)) sg
      | none => !s.img.policyReq
    match cycTables 96 (sect secs 9) with
    | .error e => (false, .error e)
    | .ok cyc =>
      let i := readImage h (unle out) secs cyc sig.isSome
      if target ≠ 0 ∧ target ≠ moduleSerial s then (false, .error Err.imageTarget)
      else if unle (out.take 8) ≠ unle (slice img body 8) then (false, .error Err.imageCheck)
      else if !good then (sig.isSome, .error Err.imageSignature)
      else if i.signed ∧ i.serial < s.img.slots.floor then (false, .error Err.imageRollback)
      else if !semanticOk i then (false, .error Err.imageSemantic)
      else (false, .ok i)

/-! ### Slots and sessions (R82 to R88), for images and bundles alike -/

def SlotPair.get (p : SlotPair) (n : Nat) : NvSlot := if n = 0 then p.a else p.b
def SlotPair.put (p : SlotPair) (n : Nat) (v : NvSlot) : SlotPair := if n = 0 then { p with a := v } else { p with b := v }

/-- Why a session is not opened (R87): busy while one is open or for the preferred slot; a length of 0 or above the largest is refused. -/
def beginErr (p : SlotPair) (slot len top : Nat) : Nat :=
  if 1 < slot then Err.cmdFormat
  else if p.session.isSome ∨ slot = p.pref then Err.imageBusy
  else if len = 0 ∨ top < len then Err.imageSession else 0

/-- Opens a session. The first session is number 1, and 16-bit numbers wrap (log 65). -/
def SlotPair.begin (p : SlotPair) (slot len : Nat) : SlotPair :=
  { p.put slot { state := 2 } with session := some { num := p.sessNext, slot := slot, len := len }, sessNext := (p.sessNext + 1) % 65536, lastErr := 0 }

/-- The session a verb names, if it is the open one and not being programmed: while COMMIT programs the slot, every verb that names
the session is `E_IMAGE_SESSION` (log 65). -/
def SlotPair.named (p : SlotPair) (n : Nat) : Option Session := p.session.filter fun x => x.num = n ∧ x.commit.isNone

/-- Bytes that are written again replace the earlier ones (R87). -/
def Session.write (x : Session) (off : Nat) (bs : List Byte) : Session :=
  { x with map := bs.zipIdx.foldl (fun m b => tset none m (off + b.2) (some b.1)) x.map }

/-- The staged bytes, when every one of them has been written. -/
def Session.whole (x : Session) : Option (List Byte) :=
  if x.map.length = x.len then some (x.map.filterMap (·.2)) else none

/-- The session ends and its slot is empty (R85, R86). -/
def SlotPair.abort (p : SlotPair) : SlotPair :=
  match p.session with
  | some x => { p.put x.slot {} with session := none }
  | none => p

/-- `IMAGE_SELECT` names the open session's slot or one that is not valid (R87). -/
def selectErr (p : SlotPair) (slot : Nat) : Nat :=
  if 1 < slot then Err.cmdFormat
  else if (p.get slot).state ≠ 1 ∨ (p.session.map (·.slot)) = some slot then Err.imageBusy else 0

def SlotPair.select (p : SlotPair) (slot : Nat) (trial : Bool) : SlotPair :=
  if trial then { p with trial := true, trialSl := slot } else { p with pref := slot }

def modSlots (fw : Bool) (f : SlotPair → SlotPair) (s : State) : State :=
  if fw then modSec (fun k => { k with fw := f k.fw }) s else modImg (fun i => { i with slots := f i.slots }) s
def slotsOf (fw : Bool) (s : State) : SlotPair := if fw then s.sec.fw else s.img.slots

/-- A slot verb fails: its error is answered and stands in `LAST_ERROR` (R89). -/
def slotFail (fw : Bool) (via : Via) (e : Nat) (s : State) : State := modSlots fw (fun p => { p with lastErr := e }) (reject via e s)

/-- A slot verb: refused under a lock (R476) and by its own check; what it does then, `go` says. -/
def slotGate (fw : Bool) (via : Via) (code : Nat) (s : State) (err : State → Nat) (go : State → State) : Host.Outcome State Fault Refusal :=
  verb via code s fun s =>
    if s.sec.locked then slotFail fw via Err.alarmLocked s else if err s ≠ 0 then slotFail fw via (err s) s else go s

/-- A slot verb that succeeds once its check has passed: it clears `LAST_ERROR` (R89). -/
def slotVerb (fw : Bool) (via : Via) (code : Nat) (s : State) (err : State → Nat) (go : State → State) : Host.Outcome State Fault Refusal :=
  slotGate fw via code s err fun s => go (modSlots fw (fun p => { p with lastErr := 0 }) s)

def doBegin (fw : Bool) (top : Nat) (via : Via) (code slot len : Nat) (s : State) : Host.Outcome State Fault Refusal :=
  slotVerb fw via code s (fun s => beginErr (slotsOf fw s) slot len top) fun s =>
    answer via 0 (enc [(2, (slotsOf fw s).sessNext)]) (modSlots fw (fun p => p.begin slot len) s)

def dataErr (p : SlotPair) (n off k : Nat) : Nat :=
  if k = 0 ∨ 4096 < k then Err.cmdFormat else
  match p.named n with
  | none => Err.imageSession
  | some x => if x.len < off + k then Err.imageSession else 0

def doData (fw : Bool) (via : Via) (code n off : Nat) (bs : List Byte) (s : State) : Host.Outcome State Fault Refusal :=
  slotVerb fw via code s (fun s => dataErr (slotsOf fw s) n off bs.length) fun s =>
    answer via 0 [] (modSlots fw (fun p => { p with session := p.session.map fun x => x.write off bs }) s)

def doAbort (fw : Bool) (via : Via) (code n : Nat) (s : State) : Host.Outcome State Fault Refusal :=
  slotVerb fw via code s (fun s => if ((slotsOf fw s).named n).isNone then Err.imageSession else 0) fun s =>
    answer via 0 [] (modSlots fw (fun p => p.abort) s)

def doSelect (fw : Bool) (via : Via) (code slot : Nat) (trial : Bool) (s : State) : Host.Outcome State Fault Refusal :=
  slotVerb fw via code s (fun s => selectErr (slotsOf fw s) slot) fun s =>
    answer via 0 [] (modSlots fw (fun p => p.select slot trial) s)

/-- The session that has received no verb for 10 s ends as if aborted (R86). -/
def doTimeout (fw : Bool) (s : State) : State :=
  if ((slotsOf fw s).session.map fun x => x.commit.isNone) = some true then modSlots fw (fun p => p.abort) s else s

/-- A commit fails: the slot becomes empty, the session ends and the error is returned (R88). -/
def commitFail (fw : Bool) (via : Via) (e : Nat) (s : State) : State :=
  reject via e (modSlots fw (fun p => { p.abort with lastErr := e }) s)

/-- `COMMIT` (R88): the staged bytes are checked; when they pass, the slot is programmed and SLOT_PROGRAM_DONE follows;
otherwise the slot becomes empty, the session ends and the error is returned. `LAST_ERROR` is cleared when the verb succeeds. -/
def doCommit (fw : Bool) (via : Via) (code n : Nat) (check : State → List Byte → Bool × Nat) (s : State) : Host.Outcome State Fault Refusal :=
  slotGate fw via code s (fun s => match (slotsOf fw s).named n with
      | none => Err.imageSession
      | some x => if x.whole.isNone then Err.imageSession else 0) fun s =>
    match ((slotsOf fw s).named n).bind Session.whole with
    | none => s
    | some bs =>
      let (bad, e) := check s bs
      let s := if bad then sigFailed s else s
      if e ≠ 0 then commitFail fw via e s
      else modSlots fw (fun p => { p with session := p.session.map fun x => { x with commit := some via } }) s

/-- Programming and read-back of the slot end: the same check judges the bytes that the slot gives back, and only when they pass is
the slot valid (R88). A signature that fails here counts like any other (R81). -/
def doProgrammed (fw : Bool) (check : State → List Byte → Bool × Nat) (result : List Byte → List Byte) (readBack : List Byte) (s : State) : State :=
  match (slotsOf fw s).session.bind fun x => x.commit.map fun via => (x.slot, via) with
  | none => s
  | some (slot, via) =>
    let (bad, e) := check s readBack
    let s := if bad then sigFailed s else s
    if e ≠ 0 then commitFail fw via e s
    else answer via 0 (result readBack)
      (modSlots fw (fun p => { p.put slot { state := 1, data := readBack } with session := none, lastErr := 0 }) s)

/-! ### The image verbs (R85) -/

/-- The error of an image, 0 when it passes R79. -/
def imageErr (s : State) (bs : List Byte) : Bool × Nat :=
  match checkImage s bs with
  | (b, .ok _) => (b, 0)
  | (b, .error e) => (b, e)

def execImageBegin (via : Via) (slot len : Nat) (s : State) : Host.Outcome State Fault Refusal := doBegin false 4194304 via 0x0020 slot len s
def execImageData (via : Via) (n off : Nat) (bs : List Byte) (s : State) : Host.Outcome State Fault Refusal := doData false via 0x0021 n off bs s
/-- Result of `IMAGE_COMMIT` (R85): `SERIAL` and structure-image hash (R64). -/
def imageResult (bs : List Byte) : List Byte :=
  let h := unle (bs.take 64)
  enc [(4, fld h 160 32)] ++ List.replicate 4 0 ++ shake256 32 (bs.take (fld h 64 32))

def execImageCommit (via : Via) (n : Nat) (s : State) : Host.Outcome State Fault Refusal := doCommit false via 0x0022 n imageErr s
def execImageAbort (via : Via) (n : Nat) (s : State) : Host.Outcome State Fault Refusal := doAbort false via 0x0023 n s
def execImageSelect (via : Via) (slot : Nat) (trial : Bool) (s : State) : Host.Outcome State Fault Refusal := doSelect false via 0x0024 slot trial s
def execImageSessionTimeout (s : State) : Host.Outcome State Fault Refusal := run s (doTimeout false)

/-- `SERIAL` of a slot's image and whether it is signed. -/
def slotSerial (n : NvSlot) : Bool × Nat :=
  let h := unle (n.data.take 64)
  (h.testBit 96, fld h 160 32)

/-- The rollback floor that a confirmation leaves (R83): raised, never lowered. -/
def newFloor (p : SlotPair) : Nat :=
  let f (n : NvSlot) : Option Nat := if n.state = 1 ∧ (slotSerial n).1 then some (slotSerial n).2 else none
  let v := match f p.a, f p.b with
    | some x, some y => min x y
    | some x, none => x
    | none, some y => y
    | none, none => 0
  max p.floor v

/-- Makes the slot in use preferred (R83); rejected while the factory default is in use. -/
def execImageConfirm (via : Via) (s : State) : Host.Outcome State Fault Refusal :=
  slotVerb false via 0x0025 s (fun s => if s.lm.defaulted then Err.imageBusy else 0) fun s =>
    answer via 0 [] (modSlots false (fun p => { p with pref := p.inUse, floor := newFloor p }) s)

/-- What `IMAGE_STATUS` and `FW_STATUS` report of a slot pair, in the order of R85's row; `extra` stands after the slot in use. The open
session is a flag and a number, which is 0 when none is open (log 65). -/
def slotReport (p : SlotPair) (extra : List (Nat × Nat)) : List (Nat × Nat) :=
  [(1, p.a.state), (1, p.b.state), (1, p.pref), (1, if p.trial then 1 else 0), (1, p.trialSl), (4, p.floor), (1, p.inUse)] ++ extra ++
  [(1, if p.session.isSome then 1 else 0), (2, (p.session.map (·.num)).getD 0)]

/-- The result of `IMAGE_STATUS` (R85). -/
def imageReport (s : State) : List (Nat × Nat) :=
  slotReport s.img.slots [(1, if s.lm.defaulted then 1 else 0)] ++ [(1, if s.img.policyReq then 0 else 1), (4, s.img.policyCnt)]

/-- `IMAGE_STATUS` leaves `LAST_ERROR` when it succeeds and sets it when it fails (R89). -/
def execImageStatus (via : Via) (s : State) : Host.Outcome State Fault Refusal :=
  verb via 0x0026 s fun s =>
    if s.sec.locked then slotFail false via Err.alarmLocked s else answer via 0 (enc (imageReport s)) s

/-- The signed message of a policy change (R621). -/
def policyMsg (s : State) (policy : Nat) : List Byte :=
  le 4 0x50535644 ++ le 4 policy ++ le 4 s.img.policyCnt ++ le 4 0 ++ le 8 (moduleSerial s)

/-- The signature length of an algorithm of R65. -/
def sigLen (alg : Nat) : Nat := if alg = 1 then 4963 else 9893

/-- Places a chunk of a signature. -/
def sigPut (t : Tbl (Option Byte)) (off : Nat) (bs : List Byte) : Tbl (Option Byte) :=
  bs.zipIdx.foldl (fun m b => tset none m (off + b.2) (some b.1)) t

/-- The signature, when all its bytes have been written. -/
def sigWhole (t : Tbl (Option Byte)) (alg : Nat) : Option (List Byte) :=
  let u := t.filter fun b => b.1 < sigLen alg
  if u.length = sigLen alg then some (u.filterMap (·.2)) else none

def policyErr (policy alg off k : Nat) : Nat :=
  if 1 < policy ∨ alg = 0 ∨ 2 < alg then Err.reservedEncoding
  else if 4096 < k ∨ sigLen alg < off + k then Err.cmdFormat else 0

/-- A signed change of the signature policy, in chunks (R621). The chunks staged so far are dropped once they have been verified and at
a chip reset; a final chunk that leaves a byte unwritten keeps them (log 73). -/
def execImagePolicySet (via : Via) (policy alg off : Nat) (final : Bool) (chunk : List Byte) (s : State) : Host.Outcome State Fault Refusal :=
  slotVerb false via 0x0027 s (fun _ => policyErr policy alg off chunk.length) fun s =>
    let s := modImg (fun i => { i with policySig := sigPut i.policySig off chunk }) s
    if !final then answer via 0 [] s else
    match sigWhole s.img.policySig alg with
    | none => slotFail false via Err.imageSession s
    | some sg =>
      let good := Config.verifies alg s.sec.authKey (policyMsg s policy) sg
      let s := modImg (fun i => { i with policySig := [] }) s
      if good then answer via 0 [] (modImg (fun i => { i with policyReq := decide (policy = 0), policyCnt := i.policyCnt + 1 }) s)
      else sigFailed (slotFail false via Err.imageSignature s)

end Sys2Proof.Machine
end

