-- ==== Sys2Proof/Machine/Evr.lean ====
section
/-! DEFINITION. The event recorder (chapter 19): operating seconds, placement of records in pages, reading and clearing. -/
namespace Sys2Proof.Machine
open Sys2Proof

/-! ### Operating seconds (R554) -/

/-- OPSEC_TICK: one more second; the reservation end is renewed when the count comes within 64 s of it. -/
def execOpsecTick (s : State) : Host.Outcome State Fault Refusal :=
  run s fun s => if s.chip.phase = 0 then s else
    modEvr (fun r => { r with opsec := r.opsec + 1, resEnd := if r.resEnd ≤ r.opsec + 1 + 64 then r.opsec + 1 + 256 else r.resEnd }) s

/-! ### Acceptance and placement (R559 to R562) -/

/-- EVENT_RECORD_ACCEPT: a record from a source outside the commands of this model. -/
def execEventRecordAccept (typ sev code kind num detail gid : Nat) (s : State) : Host.Outcome State Fault Refusal :=
  run s fun s =>
    let conf := ((findGid s gid).map fun l => (lodeOf s l).conf).getD false
    acceptEv { typ := typ, sev := sev, seq := 0, ops := 0, code := code, kind := kind, num := num, detail := if conf then 0 else detail, gid := gid } s

/-- The band of a severity: 0 L, 1 M, 2 H. -/
def bandOf (sev : Nat) : Nat := if sev < 4 then 0 else if sev < 6 then 1 else 2

/-- The page that a band takes: the lowest free one, else the oldest closed page of its own or a lower band. At 896 pages of bands M
and H together, those take of their own alone. -/
def choosePage (r : Evr) (b : Nat) : Option Nat :=
  let tight := decide (b ≠ 0) && decide (896 ≤ (r.pages.filter fun p => decide (p.2.band = 1) || decide (p.2.band = 2)).length)
  match if tight then none else (List.range 1024).find? fun n => decide ((tget {} r.pages n).band = 3) with
  | some n => some n
  | none =>
    ((r.pages.filter fun p => !p.2.opened && (decide (p.2.band = b) || (!tight && decide (p.2.band < b)))).foldl (fun o p =>
      match o with
      | none => some p
      | some q => if p.2.order < q.2.order then some p else some q) none).map (·.1)

/-- A band opens a page, stamped with the power-cycle count; its last open page is closed. -/
def openPage (r : Evr) (b : Nat) : Option (Nat × Evr) :=
  (choosePage r b).map fun n =>
    let shut := r.pages.map fun p => (p.1, if p.2.band = b then { p.2 with opened := false } else p.2)
    (n, { r with pages := tset {} shut n { band := b, opened := true, pcycles := r.pcycles, order := r.orderNext }, orderNext := r.orderNext + 1 })

/-- The page a record goes into. -/
def pageFor (r : Evr) (e : Ev) : Option (Nat × Evr) :=
  let b := bandOf e.sev
  match r.pages.find? fun p => decide (p.2.band = b) && p.2.opened && decide ((p.2.recs.map evBytes).sum + evBytes e ≤ 8192) with
  | some (n, _) => some (n, r)
  | none => openPage r b

/-- Programs a record; one whose band finds no page is dropped. -/
def programEv (e : Ev) (s : State) : State :=
  match pageFor s.evr e with
  | some (n, r) => modEvr (fun _ => { r with pages := tmod {} r.pages n fun p => { p with recs := p.recs ++ [e] } }) s
  | none => modEvr (fun r => { r with dropped := min 0xFFFF (r.dropped + 1), dropRun := r.dropRun + 1 }) s

/-- Room again in staging: one 0x005 record for the run of drops. -/
def noteDrops (s : State) : State :=
  if s.evr.dropRun = 0 ∨ 65536 < stagedBytes s.evr + 32 then s
  else event 0x005 4 0 0 0 s.evr.dropRun none (modEvr (fun r => { r with dropRun := 0 }) s)

/-- EVENT_RECORD_PROGRAMMED: the first staged record; during a clear records wait (R565). -/
def execEventRecordProgrammed (s : State) : Host.Outcome State Fault Refusal :=
  run s fun s => match s.evr.staging with
    | [] => s
    | e :: t =>
      if s.chip.phase = 0 ∨ s.evr.clearing ≠ [] then s
      else noteDrops (programEv e (modEvr (fun r => { r with staging := t }) s))

/-- Every band opens a fresh page at a chip start-up. -/
def freshPages (s : State) : State :=
  each [0, 1, 2] (fun b s => match openPage s.evr b with
    | some (_, r) => modEvr (fun _ => r) s
    | none => s) s

/-! ### Reading (R556, R557, R563) -/

/-- A record without its check. -/
def rawRecord (e : Ev) : List Byte :=
  let head := (evBytes e / 16 - 1) + e.sev % 8 * 2 ^ 9 + e.typ % 2 ^ 12 * 2 ^ 12 + e.seq % 2 ^ 32 * 2 ^ 24 + e.ops % 2 ^ 40 * 2 ^ 56
  let body := e.code % 2 ^ 16 + e.kind % 2 ^ 8 * 2 ^ 16 + e.num % 2 ^ 16 * 2 ^ 32 + e.dev % 2 ^ 16 * 2 ^ 48 + e.detail % 2 ^ 32 * 2 ^ 64 + e.gid % 2 ^ 32 * 2 ^ 96
  le 16 head ++ padTo (evBytes e - 16) ((if e.typ = 0x004 then [] else le 16 body) ++ e.extra.map (BitVec.ofNat 8))

/-- A record as software reads it. -/
def recordBytes (e : Ev) : List Byte :=
  let raw := rawRecord e
  raw.take 12 ++ le 4 (crc32c raw) ++ raw.drop 16

/-- How long ago a record was accepted, in `SEQ` modulo 2^32 (R560). -/
def evAge (r : Evr) (seq : Nat) : Nat := (r.nextSeq + 2 ^ 32 - seq - 1) % 2 ^ 32 + 1

/-- The records of the ring in `SEQ` order, each with the power-cycle count of its page. -/
def ringRecords (r : Evr) : List (Nat × Ev) :=
  sortBy (fun a b => decide (evAge r b.2.seq ≤ evAge r a.2.seq)) (r.pages.flatMap fun p => p.2.recs.map fun e => (p.2.pcycles, e))

/-- The records of the clear area, with the count of their body. -/
def clearRecords (r : Evr) : List (Nat × Ev) := r.clears.map fun e => (unle (((e.extra.drop 16).take 4).map (BitVec.ofNat 8)), e)

/-- The records a read returns, in order. A read that continues in the clear area starts there. -/
def readFrom (r : Evr) (first off : Nat) : Except Nat (List (Nat × Ev)) :=
  let all := ringRecords r ++ clearRecords r
  let here := all.dropWhile fun x => x.2.seq ≠ first
  if off ≠ 0 then
    match here with
    | x :: _ => if off % 16 = 0 ∧ off < evBytes x.2 then .ok here else .error Err.cmdFormat
    | [] => .error Err.cmdFormat
  else if (clearRecords r).any fun x => decide (x.2.seq = first) then .ok here
  else .ok ((ringRecords r).filter (fun x => decide (evAge r x.2.seq ≤ (r.nextSeq + 2 ^ 32 - first) % 2 ^ 32)) ++ clearRecords r)

/-- Places records, whole while they fit, then as much as fits of the next: the bytes, and where to go on. -/
def placeRecords : List (Nat × Ev) → Nat → Nat → List Byte × Option (Nat × Nat)
  | [], _, _ => ([], none)
  | (pc, e) :: t, off, room =>
    let b := (recordBytes e).drop off
    if 8 + b.length ≤ room then
      let r := placeRecords t 0 (room - 8 - b.length)
      (le 8 (pc % 2 ^ 32) ++ b ++ r.1, r.2)
    else if room < 24 then ([], some (e.seq, off))
    else
      let k := (room - 8) / 16 * 16
      (le 8 (pc % 2 ^ 32) ++ b.take k, some (e.seq, off + k))

def execEvrRead (via : Via) (first off : Nat) (s : State) : Host.Outcome State Fault Refusal :=
  verb via 0x0930 s fun s => match readFrom s.evr first off with
    | .error e => reject via e s
    | .ok rs =>
      let (bs, next) := placeRecords rs off 4088
      let (n, o) := next.getD (s.evr.nextSeq, 0)
      answer via 0 (le 8 (n % 2 ^ 32 + o % 2 ^ 16 * 2 ^ 32) ++ bs) s

/-! ### Clearing (R564 to R566) -/

def execEvrChallenge (via : Via) (s : State) : Host.Outcome State Fault Refusal :=
  verb via 0x0931 s fun s =>
    let c := le 8 (moduleSerial s) ++ le 4 s.evr.nextSeq ++ le 4 s.evr.pcycles ++ padTo 48 (Config.drbg s.free)
    answer via 0 c (modEvr (fun r => { r with chal := some c, sig := [] }) { s with free := s.free + 1 })

/-- The challenge lapses 60 s after it was issued. -/
def execEvrChallengeLapse (s : State) : Host.Outcome State Fault Refusal :=
  run s fun s => modEvr (fun r => { r with chal := none, sig := [] }) s

/-- The closed pages that hold only records at or before `last`. -/
def clearable (r : Evr) (last : Nat) : List (Nat × Page) :=
  r.pages.filter fun p => decide (p.2.band ≠ 3) && !p.2.opened && p.2.recs.all fun e => decide ((r.nextSeq + 2 ^ 32 - last) % 2 ^ 32 ≤ evAge r e.seq)

/-- An accepted clear: its 0x004 record goes into the clear area, then the pages are erased (CLEAR_ERASURE_DONE). -/
def acceptClear (via : Via) (last : Nat) (chal : List Byte) (s : State) : State :=
  let r := s.evr
  let ps := clearable r last
  let gone := (sortBy (fun a b => decide (evAge r b.seq ≤ evAge r a.seq)) (ps.flatMap fun p => p.2.recs)).map (·.seq)
  let lo := gone.headD last
  let hi := gone.getLastD last
  let body := le 4 lo ++ le 4 hi ++ le 4 r.dropped ++ le 4 ps.length ++ le 4 r.pcycles ++ le 4 0 ++ slice chal 16 24
  let e : Ev := { typ := 0x004, sev := 7, seq := r.nextSeq, ops := r.opsec, extra := body.map (·.toNat), dev := evDev s }
  let s := bumpSeq (modEvr (fun r => { r with clears := r.clears ++ [e], dropped := 0, clearing := ps.map (·.1), sig := [] }) s)
  answer via 0 (le 4 hi) (raiseAll 3073 s)

def execEvrClear (via : Via) (last alg off : Nat) (final : Bool) (chunk : List Byte) (s : State) : Host.Outcome State Fault Refusal :=
  verb via 0x0932 s fun s =>
    if alg = 0 ∨ 2 < alg then reject via Err.reservedEncoding s
    else if 4096 < chunk.length ∨ sigLen alg < off + chunk.length then reject via Err.cmdFormat s
    else if 254 ≤ s.evr.clears.length ∨ s.evr.clearing ≠ [] then reject via Err.resourceBusy s
    else
      let s := modEvr (fun r => { r with sig := sigPut r.sig off chunk }) s
      if !final then answer via 0 [] s
      else
        let sg := sigWhole s.evr.sig alg
        let s := modEvr (fun r => { r with sig := [] }) s
        match s.evr.chal with
        | none => reject via Err.evrAuth s
        | some c => if (sg.map (Config.verifies alg s.sec.authKey (c ++ le 4 last))).getD false then acceptClear via last c s
          else sigFailed (reject via Err.evrAuth s)

/-- The erasure of a clear ends: its pages are free. -/
def clearDone (s : State) : State :=
  modEvr (fun r => { r with pages := r.pages.filter fun p => !r.clearing.contains p.1, clearing := [] }) s

def execClearErasureDone (s : State) : Host.Outcome State Fault Refusal :=
  run s fun s => if s.chip.phase = 0 then s else clearDone s

end Sys2Proof.Machine
end

