-- ==== Sys2Proof/Machine/XlVerbs.lean ====
section
/-! DEFINITION. The translation verbs (R219 to R221, R228, R235, R238 to R241), invalidation, and the fault ring (R235 to R237). Each
verb that names a device has a local part, which a forwarded verb reaches too. -/
namespace Sys2Proof.Machine
open Sys2Proof

/-- The number of a lode index by global ID, on this chip whatever port asks. -/
def gidHere (s : State) (gid : Nat) : Option Nat := (findGid s gid).filter fun l => (lodeOf s l).state ≠ 1 ∧ (lodeOf s l).state ≠ 4

/-! ### The table range and the mirror (R219 to R221) -/

def doTableRange (l first count : Nat) (s : State) : Reply :=
  if 8192 < first + count ∨ 8192 ≤ first then deny Err.cmdFormat s
  else if !(ctxsOf s l).isEmpty || s.xl.ctxs.any (fun t => t.2.valid && decide (t.2.lode = l)) then deny Err.resourceBusy s
  else done (modXlLode l (fun x => { x with tblBase := first, tblCnt := count }) s)

def execXlTableRangeSet (via : Via) (gid dev first count : Nat) (s : State) : Host.Outcome State Fault Refusal :=
  verb via 0x0200 s fun s => match findLive s via gid with
    | .error e => reject via e s
    | .ok l => onDev via l dev 0x0200 [gid, first, count] (doTableRange l first count) s

/-- Whether an entry may stand in a table of a level (R217, R221). -/
def entryOk (s : State) (l level e : Nat) : Bool :=
  if !e.testBit 0 then true
  else
    let a := entryAddr e
    if e.testBit 1 then
      if level = 0 then decide (a = 0)
      else if level = 1 then decide (a % 2 ^ 29 = 0) && !inTables s l a (2 ^ 29)
      else !inTables s l a (2 ^ 16)
    else decide (level ≠ 2) && insideTables s l a 65536

/-- Writes entries, all or none (R221). -/
def doMirror (l table level first : Nat) (entries : List Nat) (s : State) : Reply :=
  let n := entries.length
  if n = 0 ∨ 64 < n ∨ 2 < level ∨ 8192 < first + n ∨ table % 65536 ≠ 0 then deny Err.cmdFormat s
  else if !insideTables s l table 65536 ∨ !(entries.all (entryOk s l level)) then deny Err.xlTable s
  else
    let (e, s) := settle s (storeLode l (table + first * 8) 0 (entries.flatMap (le 8)) s)
    (e, [], s)

def execXlMirrorWrite (via : Via) (gid dev table level first : Nat) (entries : List Nat) (s : State) : Host.Outcome State Fault Refusal :=
  verb via 0x0201 s fun s => match findLive s via gid with
    | .error e => reject via e s
    | .ok l => onDev via l dev 0x0201 (gid :: table :: level :: first :: entries) (doMirror l table level first entries) s

/-! ### Invalidation (R228 to R230) -/

/-- Whether two DVA ranges intersect. -/
def meets (a n b m : Nat) : Bool := decide (a < b + m) && decide (b < a + n)

/-- The DVA ranges a queued transfer names. -/
def dmaVas (d : Dma) : List (Nat × Nat) :=
  (d.srcVa, d.len) :: (d.dstVa, d.dlen) ::
    (if d.kind = 2 then [(cvSva d.conv, cvSspan d.conv d.len), (cvDva d.conv, cvDspan d.conv d.len)] else [])

/-- Marks a queued transfer stale when it names the range (R228 step 3). -/
def staleDma (ctxs : List Nat) (va n : Nat) (d : Dma) : Dma :=
  if ctxs.contains d.ctx && (dmaVas d).any (fun r => meets r.1 r.2 va n) then { d with stale := true } else d

/-- Removes a core's cached translations of the range (R228 step 2). -/
def dropTlb (ctxs : List Nat) (va n : Nat) (k : Core) : Core :=
  { k with tlb := k.tlb.filter fun e => !(ctxs.contains e.ctx && meets (e.page * leafSize e.level) (leafSize e.level) va n) }

/-- Steps 2 and 3 of R228 on this chip: cached translations go, descriptors of the range are stale. -/
def invalidateRange (l : Nat) (ctxs : List Nat) (va n : Nat) (s : State) : State :=
  let s := modXl (fun x => { x with walkers := x.walkers.map fun t => (t.1, t.2.filter fun e =>
    !(ctxs.contains e.ctx && meets (e.idx * leafSize e.level) (leafSize e.level) va n)) }) s
  let s := modCu (fun c => { c with
    cores := (c.cores.map fun t => (t.1, dropTlb ctxs va n t.2)).filter fun t => t.2 ≠ {}
    dma := c.dma.map fun t => (t.1, t.2.map (staleDma ctxs va n)) }) s
  let hit (r : Rec) : Bool := ctxs.contains (rCtx r.bits) && r.res.any fun x => meets x.1 x.2.1 va n
  let ps := ((queueOf s l).recs.filter hit).map (·.pos)
  let ofRec (d : Dma) : Bool := ps.any fun p => decide (d.owner = .record l p)
  let s := modQueue l (fun q => { q with recs := q.recs.map fun r => if hit r then
    { r with stale := true, silent := r.silent || (decide (rSigVa r.bits ≠ 0) && meets (rSigVa r.bits) 16 va n) } else r }) s
  let s := modCu (fun c => { c with dma := c.dma.map fun t => (t.1, t.2.map fun d => if ofRec d then { d with stale := true } else d) }) s
  each (ctxsOf s l) (fun c => modCtx c fun x => { x with
    rdma := x.rdma.map fun p => (p.1, let d := staleDma ctxs va n p.2; if ofRec d then { d with stale := true } else d)
    images := x.images.map fun t => (t.1, t.2.map fun i => { i with dma := i.dma.map (staleDma ctxs va n) }) }) s

/-- The contexts an invalidation names on this chip. -/
def invalCtxs (s : State) (l : Nat) (ctx : Option Nat) : List Nat :=
  match ctx with
  | some c => [c]
  | none => (s.xl.ctxs.filter fun t => t.2.valid && decide (t.2.lode = l)).map (·.1)

/-- Accepts an invalidation: its number is answered, and it is carried out here and asked of the other named chips. One that a home chip asks
for has no fence, and is carried out here alone. -/
def acceptInval (i : Inval) (s : State) : State :=
  let n := s.xl.invNext
  let others := (lodeOf s i.lode).members.filter fun m => i.fence.isSome && decide (m ≠ s.dr.devid) && (decide (i.dev = 0xFFFF) || decide (i.dev = m))
  let s := modXl (fun x => { x with invals := x.invals ++ [{ i with num := n, via := none, away := others }], invNext := (n + 1) % 2 ^ 32 }) s
  let s := answerOpt i.via 0 (enc [(4, n)]) s
  let s := each others (fun m => emit (.control m 4 [(lodeOf s i.lode).gid, i.ctx.getD 0xFFFF, i.dva, i.len, n])) s
  if i.fence.isNone ∨ i.dev = 0xFFFF ∨ i.dev = s.dr.devid then invalidateRange i.lode (invalCtxs s i.lode i.ctx) i.dva i.len s else s

/-- At most 16 invalidations are in progress on a chip; later ones wait in order of arrival (R228). -/
def offerInval (i : Inval) (s : State) : State :=
  if s.xl.invals.length < 16 ∧ s.xl.invHeld.isEmpty then acceptInval i s
  else modXl (fun x => { x with invHeld := x.invHeld ++ [i] }) s

/-- XL_INVALIDATE. -/
def execXlInvalidate (via : Via) (gid : Nat) (ctx : Option Nat) (dva len dev : Nat) (f : VFence) (s : State) : Host.Outcome State Fault Refusal :=
  verb via 0x0202 s fun s => match findLive s via gid with
    | .error e => reject via e s
    | .ok l =>
      if dev ≠ 0xFFFF ∧ dev ≠ s.dr.devid ∧ !(lodeOf s l).members.contains dev then reject via Err.lodeUnknown s
      else if (ctx.map fun c => !((xlCtxOf s c).valid && decide ((xlCtxOf s c).lode = l))).getD false then reject via Err.xlContext s
      else if len = 0 ∨ 2 ^ 55 < dva + len ∨ !fenceFits s l f then reject via Err.cmdFormat s
      else
        offerInval { num := 0, lode := l, ctx := ctx, dva := dva, len := len, dev := dev, fence := some f, via := some via } s

/-- Whether a use of the range still runs on this chip (R228 step 4): a chunk of a stale transfer, its data perhaps still on the way from
the host, or a stale reduction under way. -/
def usesLeft (s : State) (l : Nat) : Bool :=
  (s.cu.dma.any fun t => t.2.any fun d => d.stale && d.busy && decide (d.lode = l)) ||
    (queueOf s l).recs.any fun r => r.stale && decide (r.stage = 2) && decide (rOp r.bits = 5)

/-- Every chip reported drained: the fence is signalled, in order of acceptance within a lode, and a waiting invalidation is
accepted. A member chip reports to the home chip instead. -/
def execInvalidationComplete (num : Nat) (s : State) : Host.Outcome State Fault Refusal :=
  run s fun s => match s.xl.invals.find? fun i => i.num = num with
    | none => s
    | some i =>
      if !i.away.isEmpty ∨ usesLeft s i.lode ∨ (s.xl.invals.find? fun j => j.lode = i.lode) ≠ some i then s
      else
        let s := modXl (fun x => { x with invals := x.invals.filter fun j => j.num ≠ num }) s
        let s := match i.fence with
          | some f => signalFence i.lode (some f) s
          | none => if (lodeOf s i.lode).home then s else emit (.control (lodeOf s i.lode).homeDev 5 [(lodeOf s i.lode).gid, i.dev]) s
        match s.xl.invHeld with
        | [] => s
        | j :: rest => acceptInval j (modXl (fun x => { x with invHeld := rest }) s)

/-! ### The fault ring (R235 to R237) -/

def execXlFqSetup (via : Via) (gid addr : Nat) (s : State) : Host.Outcome State Fault Refusal :=
  verb via 0x0203 s fun s => match findLive s via gid with
    | .error e => reject via e s
    | .ok l =>
      if (xlLodeOf s l).fqReady ∨ (lodeOf s l).pasid = 0 then reject via Err.queueState s
      else if addr % 4096 ≠ 0 then reject via Err.cmdFormat s
      else answer via 0 [] (modXlLode l (fun x => { x with
        fqReady := true, fqAddr := addr, fqProd := 0, fqCons := 0, fqOver := false, fqPeriod := false }) s)

/-- The first record that no ring entry holds yet. -/
def firstHeld (x : XlLode) : Option FaultRec := x.faults.find? fun f => !f.written

/-! ### The dirty log (R238 to R240) -/

/-- Clears a range of lode memory, stripe by stripe, at its destination too while its copy stands there (R48). -/
def zeroLode (l a n : Nat) (s : State) : State :=
  each (List.range (n / 256 + 2)) (fun i s =>
    let lo := max a ((a / 256 + i) * 256)
    let k := min (a + n) ((a / 256 + i + 1) * 256) - lo
    match if k = 0 then none else resolve s l lo with
    | none => s
    | some ph =>
      let g := granOf s l (lo / 2 ^ 28)
      wh (decide (g.mig = 1) && g.copied) (zeroRange (slotAddr s g.dset g.dslot (lo % 2 ^ 28)) k) (zeroRange ph k s)) s

def doDirtyStart (l ring bitmap : Nat) (s : State) : Reply :=
  if (xlLodeOf s l).dlOn then deny Err.queueState s
  else if !insideTables s l bitmap (2 ^ 22) then deny Err.cmdFormat s
  else done (modXlLode l (fun x => { x with dlOn := true, dlAddr := ring, dlMap := bitmap, dlProd := 0, dlCons := 0, coarse := false })
    (zeroLode l bitmap (2 ^ 22) s))

def execXlDirtyStart (via : Via) (gid dev ring bitmap : Nat) (s : State) : Host.Outcome State Fault Refusal :=
  verb via 0x0204 s fun s => match findLive s via gid with
    | .error e => reject via e s
    | .ok l => onDev via l dev 0x0204 [gid, ring, bitmap] (doDirtyStart l ring bitmap) s

/-- Every write performed so far has its entry: the sync is complete; re-armed, the bitmap and `COARSE` are cleared first. -/
def doDirtySync (l : Nat) (rearm : Bool) (s : State) : Reply :=
  if !(xlLodeOf s l).dlOn then deny Err.queueState s
  else
    let s := wh rearm (fun s => modXlLode l (fun x => { x with coarse := false }) (zeroLode l (xlLodeOf s l).dlMap (2 ^ 22) s)) s
    (0, enc [(4, (xlLodeOf s l).dlProd)], raiseLode l 2 s)

def execXlDirtySync (via : Via) (gid dev : Nat) (rearm : Bool) (s : State) : Host.Outcome State Fault Refusal :=
  verb via 0x0205 s fun s => match findLive s via gid with
    | .error e => reject via e s
    | .ok l => onDev via l dev 0x0205 [gid, if rearm then 1 else 0] (doDirtySync l rearm) s

def doDirtyStop (l : Nat) (s : State) : Reply :=
  if !(xlLodeOf s l).dlOn then deny Err.queueState s
  else done (raiseLode l 2 (modXlLode l (fun x => { x with dlOn := false }) s))

def execXlDirtyStop (via : Via) (gid dev : Nat) (s : State) : Host.Outcome State Fault Refusal :=
  verb via 0x0206 s fun s => match findLive s via gid with
    | .error e => reject via e s
    | .ok l => onDev via l dev 0x0206 [gid] (doDirtyStop l) s

end Sys2Proof.Machine
end

