-- ==== Sys2Proof/Machine/HostPort.lean ====
section
/-! DEFINITION. The host port (chapter 13): resets of a port, the interface generation, BAR4 windows, the mailbox and the sideband,
the host-port verbs, and keys and tag rings of confidential lodes. -/
namespace Sys2Proof.Machine
open Sys2Proof

/-! ### A port's reset and its generation (R373 to R375) -/

/-- The lodes whose slice a port holds (R376). -/
def slicesOf (s : State) (p : Nat) : List Nat :=
  (lodes s).filter fun l => (lodeOf s l).home ∧ (lodeOf s l).pasid ≠ 0 ∧ (lodeOf s l).port = p

/-- A port's link comes up: the rate and width that the training negotiates are not given, so they are free within R367. -/
def linkUp (p : Nat) (s : State) : State :=
  let (n, s) := draw s
  modHport p (fun h => { h with rate := 1 + n % 7, width := 2 ^ (n / 7 % (if s.img.applied.hostMode = 1 then 4 else 5)) }) s

/-- Function Level Reset, hot reset or link-down of a port: it acts on that port only (R373). -/
def portDownEff (p : Nat) (s : State) : State :=
  let s := each ((slicesOf s p).flatMap (ctxsOf s)) (fun c => startTeardown c 0 none) s
  modHport p (fun h => { h with wins := [], msix := [], pba := [], slots := [], settled := 0 }) s

def execPortReset (p : Nat) (s : State) : Host.Outcome State Fault Refusal := run s (portDownEff p)

/-- `DRV_MAX` (R374, R375, R574): discarded before ready and while a lode of the port has a context. -/
def doDrvMax (p v : Nat) (s : State) : State :=
  if !bootDone s || (slicesOf s p).any (fun l => !(ctxsOf s l).isEmpty) then
    modHport p (fun h => { h with genDisc := true }) (discard (.host p) 8 7 s)
  else modHport p (fun h => { h with drvMax := v % 256, settled := min (v % 256) 1 }) s

def execDrvMaxWrite (p v : Nat) (s : State) : Host.Outcome State Fault Refusal := run s fun s => wakeFirst (.drvMaxWrite p v) (doDrvMax p v) s

/-! ### BAR4 (R370, R372) -/

/-- The window of a port that holds a range of BAR4. -/
def aperOf (s : State) (p off n : Nat) : Option Aper :=
  ((hportOf s p).wins.find? fun w => w.2.opened && decide (w.2.off ≤ off) && decide (off + n ≤ w.2.off + w.2.size)).map (·.2)

/-- A refused access: a write is discarded, a read gives bytes 0xFF, the access is counted. -/
def aperRefuse (p n : Nat) (write : Bool) (s : State) : State :=
  let s := modHport p (fun h => { h with aperErr := min 0xFFFFFFFF (h.aperErr + 1) }) s
  if write then s else emit (.apertureData (List.replicate n 0xFF)) s

/-- An access of the host through its window: class 0, translated with the context's tables, logged (R372, R238). Before ready it is
handled as with no window open (R574). -/
def doAperture (p off : Nat) (write : Bool) (len : Nat) (data : List Byte) (s : State) : State :=
  let n := if write then data.length else len
  match if bootDone s then aperOf s p off n else none with
  | none => aperRefuse p n write s
  | some w =>
    let l := (xlCtxOf s w.ctx).lode
    let access := if write then 1 else 0
    let v := (draw s).1
    let look := walkAs s 96 v w.ctx
    let s := payReq 160 l 0 n (noteWalks 96 0 v w.ctx (w.dva + (off - w.off)) n access (draw s).2)
    match extents s look (w.dva + (off - w.off)) n access with
    | .error _ => aperRefuse p n write s
    | .ok xs =>
      if write then
        match wrExtents l 0 xs data s with
        | .ok t => t
        | .error _ => aperRefuse p n write s
      else
        match rdExtents s l xs with
        | .ok d => emit (.apertureData d) (each xs (fun x => touchLode l x.1 x.2 0 false) s)
        | .error _ => aperRefuse p n write s

def execApertureAccess (p off : Nat) (write : Bool) (len : Nat) (data : List Byte) (s : State) : Host.Outcome State Fault Refusal :=
  run s fun s => wakeFirst (.apertureAccess p off write len data) (doAperture p off write len data) s

/-- The lode of a context that a verb names: an unknown context, or a lode the verb may not name (R224, R371, R365). -/
def ctxLode (s : State) (via : Via) (c : Nat) : Except Nat Nat :=
  let x := ctxOf s c
  if x.state = 0 then .error Err.xlContext else (findLive s via (lodeOf s x.lode).gid)

/-- Whether a window of a size at an offset breaks R372 or R382. -/
def aperBad (s : State) (p off size : Nat) : Bool :=
  let h := hportOf s p
  !((List.range 24).any fun k => decide (size = 2 ^ (16 + k))) || decide (off % max 1 size ≠ 0) || decide (h.bar4 < off + size) ||
    h.wins.any (fun w => w.2.opened && decide (off < w.2.off + w.2.size) && decide (w.2.off < off + size)) ||
    (List.range 256).all fun n => (tget {} h.wins n).opened

/-- The port a verb about BAR4 windows concerns: the mailbox's own, or the one named over the sideband. -/
def aperPort (via : Via) (p : Nat) : Nat := if fromManager via then p else viaPort via

def execApertureMap (via : Via) (port off size ctx dva : Nat) (s : State) : Host.Outcome State Fault Refusal :=
  verb via 0x0013 s fun s =>
    let p := aperPort via port
    match ctxLode s via ctx with
    | .error e => reject via e s
    | .ok l =>
      if (lodeOf s l).conf then reject via Err.confDenied s
      else if (ctxOf s ctx).state = 3 then reject via Err.xlContext s
      else if (lodeOf s l).port ≠ p ∨ (lodeOf s l).pasid = 0 then reject via Err.lodeUnknown s
      else if aperBad s p off size then reject via Err.aperture s
      else if 2 ^ 55 < dva + size then reject via Err.cmdFormat s
      else
        let n := ((List.range 256).find? fun n => !(tget {} (hportOf s p).wins n).opened).getD 0
        answer via 0 (enc [(1, n)]) (modHport p (fun h => { h with
          wins := tset {} h.wins n { opened := true, off := off, size := size, ctx := ctx, dva := dva } }) s)

def execApertureUnmap (via : Via) (port n : Nat) (s : State) : Host.Outcome State Fault Refusal :=
  verb via 0x0014 s fun s =>
    let p := aperPort via port
    if !(tget {} (hportOf s p).wins n).opened then reject via Err.aperture s
    else answer via 0 [] (modHport p (fun h => { h with wins := tset {} h.wins n {} }) s)

/-! ### The mailbox and the sideband (R378 to R381) -/

/-- The argument fields of a verb, by width in bytes, and what may follow: 0 nothing, 1 to 8 a list or byte data of entries of that
width, 255 arguments that hold a list in their middle. None for a code that no chapter defines. -/
def verbShape (code : Nat) : Option (List Nat × Nat) :=
  match code with
  | 0x0010 => some ([], 0) | 0x0011 => some ([4, 1, 4], 0) | 0x0012 => some ([4], 0) | 0x0013 => some ([8, 8, 2, 8], 0)
  | 0x0014 => some ([1], 0) | 0x0015 => some ([4, 8], 1) | 0x0016 => some ([4, 1, 8], 0)
  | 0x0020 => some ([1, 4], 0) | 0x0021 => some ([2, 4], 1) | 0x0022 => some ([2], 0) | 0x0023 => some ([2], 0)
  | 0x0024 => some ([1, 1], 0) | 0x0025 => some ([], 0) | 0x0026 => some ([], 0) | 0x0027 => some ([1, 2, 2, 1], 1)
  | 0x0100 => some ([4, 8, 8, 8, 1, 1, 1, 8], 0) | 0x0101 => some ([4, 8, 8], 0) | 0x0102 => some ([4, 8], 0)
  | 0x0103 => some ([2, 8, 8], 0) | 0x0104 => some ([4, 8], 0)
  | 0x0200 => some ([4, 2, 2, 2], 0) | 0x0201 => some ([4, 2, 8, 1, 2], 8) | 0x0202 => some ([4, 2, 8, 8, 2, 8, 8], 0)
  | 0x0203 => some ([4, 8], 0) | 0x0204 => some ([4, 2, 8, 8], 0) | 0x0205 => some ([4, 2, 1], 0) | 0x0206 => some ([4, 2], 0)
  | 0x0300 => some ([8, 8], 255) | 0x0301 => some ([4], 0) | 0x0302 => some ([4], 0) | 0x0310 => some ([8, 8, 4, 4, 2], 0)
  | 0x0311 => some ([1, 4, 4, 1], 0) | 0x0312 => some ([4], 255) | 0x0313 => some ([1, 1, 4, 4], 0) | 0x0314 => some ([2], 0)
  | 0x0400 => some ([1, 1, 1, 1], 0) | 0x0401 => some ([1], 0) | 0x0402 => some ([2], 4) | 0x0403 => some ([2, 2, 4, 2], 255)
  | 0x0404 => some ([2, 2, 8, 8], 0) | 0x0405 => some ([2, 2], 0) | 0x0406 => some ([], 255)
  | 0x0500 => some ([2], 0) | 0x0501 => some ([2, 2, 2], 0) | 0x0502 => some ([4, 2], 255) | 0x0503 => some ([4, 2], 0)
  | 0x0504 => some ([], 255) | 0x0505 => some ([2, 1], 0) | 0x0506 => some ([4], 0) | 0x0507 => some ([], 255)
  | 0x0600 => some ([4, 4, 2, 1, 8, 1], 0) | 0x0601 => some ([2, 2, 4], 0) | 0x0602 => some ([2, 2, 1, 8, 1], 0)
  | 0x0603 => some ([4, 2, 2], 0) | 0x0604 => some ([4, 2, 1], 0) | 0x0605 => some ([], 255) | 0x0606 => some ([4, 2], 0)
  | 0x0607 => some ([4, 2, 1], 0) | 0x0608 => some ([4], 0)
  | 0x0660 => some ([1, 2, 2], 0) | 0x0661 => some ([1, 1], 0) | 0x0662 => some ([1, 4, 2], 0) | 0x0663 => some ([], 255)
  | 0x0670 => some ([4, 1, 1, 1], 0) | 0x0671 => some ([4, 1, 1, 1], 0) | 0x0672 => some ([4, 2, 2], 0)
  | 0x0700 => some ([4], 1) | 0x0701 => some ([2, 1, 2], 0) | 0x0702 => some ([], 0) | 0x0703 => some ([], 255)
  | 0x0704 => some ([1], 0) | 0x0705 => some ([1], 0)
  | 0x0730 => some ([1, 4], 0) | 0x0731 => some ([2, 4], 1) | 0x0732 => some ([2], 0) | 0x0733 => some ([2], 0)
  | 0x0734 => some ([1, 1], 0) | 0x0735 => some ([], 0) | 0x0736 => some ([], 0)
  | 0x0800 => some ([1, 8], 0) | 0x0801 => some ([1, 1, 1], 0) | 0x0802 => some ([], 0) | 0x0803 => some ([], 0)
  | 0x0900 => some ([1, 2], 0) | 0x0901 => some ([], 255) | 0x0902 => some ([4, 2], 0) | 0x0903 => some ([1, 1], 0)
  | 0x0904 => some ([1, 1], 0)
  | 0x0930 => some ([4, 4], 0) | 0x0931 => some ([], 0) | 0x0932 => some ([4, 2, 2, 1], 1)
  | _ => none

/-- The verbs that only the sideband may send (R381). -/
def sideOnly (code : Nat) : Bool := [0x0500, 0x0702, 0x0703, 0x0803, 0x0903, 0x0904].contains code

/-- Whether a request's length fits its verb's arguments under R380. -/
def lenFits (code len : Nat) : Bool :=
  match verbShape code with
  | none => true
  | some (ws, tail) =>
    let n := (enc (ws.map fun w => (w, 0))).length
    let at8 := if tail = 1 then alignUp n 8 else alignUp n (max 1 tail)
    if tail = 0 then decide (len = n)
    else if tail = 255 then decide (n ≤ len)
    else decide (at8 ≤ len) && decide ((len - at8) % tail = 0)

/-- Whether the sideband serves a verb in a phase of the chip (R470, R529, R567, R574, R577, R599; PWR_RESTART after a thermal shutdown,
R517). -/
def sideServed (phase code : Nat) : Bool :=
  let evr := [0x0930, 0x0931, 0x0932].contains code
  let fw := decide (0x0730 ≤ code) && decide (code ≤ 0x0736)
  match phase with
  | 3 => true
  | 0 => false
  | 1 => evr
  | 2 => evr || fw || decide (code = 0x0802) || decide (code = 0x0903)
  | 4 => fw || decide (code = 0x0010)
  | 5 => evr || decide (code = 0x0010) || decide (code = 0x0900) || decide (code = 0x0903)
  | 8 => evr || decide (code = 0x0803) || decide (code = 0x0903)
  | _ => evr || decide (code = 0x0903)

/-- Why a request is turned down before its verb is carried out (R379, R574). -/
def requestErr (s : State) (side : Bool) (port code len : Nat) : Nat :=
  if side then
    if !sideServed s.chip.phase code then Err.resourceBusy
    else if (verbShape code).isNone then Err.mbVerb
    else if code = 0x0015 ∨ code = 0x0016 then Err.confDenied
    else if !lenFits code len ∨ 4352 < len then Err.mbLength else 0
  else if !bootDone s && decide (code = 0x0010) then Err.resourceBusy
  else if (hportOf s port).settled = 0 ∧ code ≠ 0x0010 then Err.genUnsettled
  else if (verbShape code).isNone || sideOnly code then Err.mbVerb
  else if !lenFits code len ∨ 4352 < len then Err.mbLength else 0

/-- A request turned down before its verb is carried out; of an image verb, the error stands in `LAST_ERROR` (R89). -/
def turnDown (via : Via) (code e : Nat) (s : State) : State :=
  answer via e [] (if 0x0020 ≤ code ∧ code ≤ 0x0027 then modImg (fun i => { i with slots := { i.slots with lastErr := e } }) s else s)

/-- `MB_GO` (R378, R379): a busy slot ignores it; the request stands in its slot until its verb's command carries it out. -/
def doMbGo (p n value : Nat) (payload : List Byte) (s : State) : State :=
  if value % 2 = 0 ∨ 8 ≤ n ∨ (slotOf s p n).state = 1 then s
  else
    let s := modSlot p n (fun m => { m with state := 1, irq := value.testBit 1, req := payload.take m.len }) s
    let e := requestErr s false p (slotOf s p n).verb (slotOf s p n).len
    if e ≠ 0 then turnDown (.mailbox p n) (slotOf s p n).verb e s else s

def execMbGo (p n value : Nat) (payload : List Byte) (s : State) : Host.Outcome State Fault Refusal :=
  run s fun s => wakeFirst (.mbGo p n value payload) (fun s => doMbGo p n value payload (headAccess (8 + payload.length) s)) s

/-- A request over the sideband: one is outstanding at a time (R381). -/
def doSideband (code tag len : Nat) (payload : List Byte) (s : State) : State :=
  if s.hp.side.isSome then s
  else
    let s := modHp (fun h => { h with side := some (code, tag, payload) }) s
    let e := requestErr s true 0 code len
    if e ≠ 0 then turnDown .sideband code e s else s

/-- PWR_QUERY does not wake the chip (R501); a chip that has not started has nothing to wake. -/
def execSidebandRequest (code tag len : Nat) (payload : List Byte) (s : State) : Host.Outcome State Fault Refusal :=
  run s fun s => if code = 0x0802 then doSideband code tag len payload s
    else wakeFirst (.sidebandRequest code tag len payload) (doSideband code tag len payload) s

/-! ### INVENTORY (R382) -/

/-- `STATE` of `MEM_PC` (R212). -/
def pcState (s : State) (p : Nat) : Nat :=
  let c := pcOf s p
  if c.retired ∨ c.failed then 5
  else if c.stranded then 6
  else match s.lm.sets.find? fun t => decide (t.2.base ≤ p) && decide (p < t.2.base + t.2.count) with
    | none => 0
    | some (_, t) => if t.state = 5 then 3 else if t.state = 6 then 4 else if t.lode = 0x7F then 1 else 2

/-- Serviceable engines of a block. -/
def engineMask (s : State) (b : Nat) : Nat := maskOf ((List.range 4).filter fun e => !(engineOf s b e).retired)

/-- Serviceable ways of a region's cache. -/
def waysOk (s : State) (r : Nat) : Nat := 64 - ((List.range 64).filter fun w => (regionOf s r).waysRet.testBit w).length

def inventoryReport (s : State) : List Byte :=
  enc ([(8, moduleSerial s), (2, if s.dr.assigned then s.dr.devid else 0xFFFF), (1, 1), (1, 1)] ++
    (List.range 96).flatMap (fun b => if (blockOf s b).state = 6 then [(4, 0), (1, 0)] else [(4, presentMask s b), (1, engineMask s b)]) ++
    (List.range 8).map (fun r => (1, waysOk s r)) ++ (List.range 768).map (fun p => (1, pcState s p)) ++
    (List.range 32).flatMap fun p => [(1, (portOf s p).lanes), (1, (portOf s p).state)])

def execInventory (via : Via) (s : State) : Host.Outcome State Fault Refusal := verb via 0x0010 s fun s => answer via 0 (inventoryReport s) s

/-! ### PASIDs (R376) -/

def execPasidBind (via : Via) (gid port pasid : Nat) (s : State) : Host.Outcome State Fault Refusal :=
  verb via 0x0011 s fun s => match findLive s via gid with
    | .error e => reject via e s
    | .ok l =>
      if pasid = 0 ∨ 2 ^ 20 ≤ pasid ∨ (hostPorts s).length ≤ port then reject via Err.cmdFormat s
      else if !(lodeOf s l).home then reject via Err.lodeUnknown s
      else if (lodeOf s l).pasid ≠ 0 ∨ pasidUsed s port pasid then reject via Err.pasidBusy s
      else answer via 0 [] (modLode l (fun d => { d with pasid := pasid, port := port }) s)

def execPasidUnbind (via : Via) (gid : Nat) (s : State) : Host.Outcome State Fault Refusal :=
  verb via 0x0012 s fun s => match findLive s via gid with
    | .error e => reject via e s
    | .ok l =>
      if !(ctxsOf s l).isEmpty then reject via Err.resourceBusy s
      else answer via 0 [] (modLode l (fun d => { d with pasid := 0 }) s)

/-! ### Keys and tag rings (R384, R386, R480) -/

/-- The port that holds a lode's slice sends a `CONF_` verb (R381). -/
def confLode (s : State) (via : Via) (gid : Nat) : Except Nat Nat :=
  if fromManager via then .error Err.confDenied
  else (findLive s via gid).bind fun l =>
    if !(lodeOf s l).home ∨ (lodeOf s l).pasid = 0 ∨ (lodeOf s l).port ≠ viaPort via then .error Err.lodeUnknown
    else if !(lodeOf s l).conf ∨ (lodeOf s l).keyless then .error Err.confDenied
    else if s.sec.locked then .error Err.alarmLocked
    else .ok l

/-- The seed of a lode's transport slot, when the slot stands. -/
def transportSeed (s : State) (l : Nat) : Option Nat :=
  ((lodeOf s l).transport.filter fun n => (vslotOf s n).valid).map fun n => ((vslotOf s n).s1 ^^^ (vslotOf s n).s2).toNat

/-- The session key goes into a pool slot whose parent is the transport slot; the lode's previous session slot is zeroised (R480), and
its counters start again (R384). -/
def installKey (l key : Nat) (s : State) : State :=
  let s := match (lodeOf s l).session with
    | some n => modVslot n (fun v => { gen := v.gen }) s
    | none => s
  let t := (lodeOf s l).transport.getD 0
  match freeVault s with
  | none => s
  | some n =>
    let s := putKey n key (modVslot n (fun v => { v with
      pgen := (vslotOf s t).gen, parent := t, ownerId := l, owner := 1, valid := true, typ := 0, uses := 3 }) s)
    modQueue l (fun q => { q with hdFloor := 0, dhCount := 0, fqCount := 0, dlCount := 0, keyGen := q.keyGen + 1 })
      (modLode l (fun d => { d with session := some n }) s)

def execConfKeySet (via : Via) (gid : Nat) (wrapped : List Byte) (s : State) : Host.Outcome State Fault Refusal :=
  verb via 0x0015 s fun s => match confLode s via gid with
    | .error e => reject via e s
    | .ok l =>
      if !(ctxsOf s l).isEmpty ∧ !(schedOf s l).moving then reject via Err.resourceBusy s
      else match (transportSeed s l).bind fun k => if wrapped.length = 1608 then Config.unwrapKey k wrapped else none with
      | none => reject via Err.confKey s
      | some key =>
        if (lodeOf s l).session.isNone ∧ (freeVault s).isNone then reject via Err.confDenied s
        else
          let s := installKey l (key % 2 ^ 256) s
          answer via 0 (enc [(4, (queueOf s l).keyGen)]) s

/-- CONF_RING_SETUP: the tag ring of a kind, placed once under the rules of R392. -/
def execConfRingSetup (via : Via) (gid kind addr : Nat) (s : State) : Host.Outcome State Fault Refusal :=
  verb via 0x0016 s fun s => match confLode s via gid with
    | .error e => reject via e s
    | .ok l =>
      if 3 < kind ∨ addr % 4096 ≠ 0 then reject via Err.cmdFormat s
      else if (tget none (queueOf s l).tagRings kind).isSome then reject via Err.queueState s
      else answer via 0 [] (modQueue l (fun q => { q with tagRings := tset none q.tagRings kind (some addr) }) s)

end Sys2Proof.Machine
end

