-- ==== Sys2Proof/Machine/MemCtl.lean ====
section
/-! DEFINITION. Requests at the region memory controllers, token buckets and arbiters (R193, R289 to R296), memory errors (R203 to
R206) and evacuation (R207 to R209). -/
namespace Sys2Proof.Machine
open Sys2Proof

/-! ### Injection (R290, R296) -/

/-- What the lode buckets of a master take of its minimum. -/
def lodeRates (s : State) (m : Nat) : Nat := ((List.range 96).map fun l => tget 0 s.noc.buckets (lodeBucket m l)).sum

/-- The class a request is served under (R293): firmware's is the migration class; a class of `KIND` 0 counts as class 0. -/
def effClass (s : State) (r : MemReq) : Nat :=
  tagClass s (if r.firmware then s.img.applied.migClass else r.cls)

/-- What a request meets at its master's injection port: conforming, excess, or a wait for its bucket. -/
inductive Admit where
  | conforming
  | excess
  | wait
deriving DecidableEq, Repr

/-- The bucket's answer, with the tokens taken (R290, R296). -/
def takeIn (r : MemReq) (s : State) : Admit × State :=
  if bucketHas s r.master r.lode r.len then (.conforming, bucketTake r.master r.lode r.len s)
  else (if (lodeOf s r.lode).sealed then .wait else .excess, s)

/-- The 16 bits that carry an absolute deadline: those of the current tick once it has passed, 1 in place of 0 (R295). -/
def carriedTick (now t : Nat) : Nat := if t = 0 then 0 else max 1 (max now t % 65536)

/-- The tick an arbiter reads from a carried deadline (R295). -/
def readDeadline (now d : Nat) : Nat := if d = 0 then 0 else now + 63487 - (now + 63487 - d) % 65536

/-- The slot of a pseudo-channel's queue that a request of a class takes: one reserved for its class, else a common one of the 64, else none
(R202). -/
def freeSlot (s : State) (a : Arb) (c : Nat) : Option Bool :=
  let share (k : Nat) : Nat := (tget {} s.img.applied.classes k).queue
  if (a.queue.filter fun q => q.own && decide (q.cls = c)).length < share c then some true
  else if (a.queue.filter fun q => !q.own).length < 64 - ((List.range 64).map share).sum then some false
  else none

/-- A request takes its place in the pseudo-channel's queue, under the deadline its scheduler reads (R294, R295). -/
def enterQueue (p : Nat) (own : Bool) (r : MemReq) (conf : Bool) (s : State) : State :=
  let c := effClass s r
  let dl := if (tget {} s.img.applied.classes c).kind = 2 then readDeadline (nowTick s) (carriedTick (nowTick s) r.deadline) else 0
  modArb p (fun a => { a with queue := a.queue ++ [{
    id := r.id, cls := c, conform := conf, dl := dl, bytes := r.len, own := own, cmd := r.cmd.map fun pos => (r.lode, pos) }] }) s

/-- A request that its controller has accepted: it is served once it has a slot of the queue, and waits at the ingress without one (R202). -/
def accept (r : MemReq) (conf : Bool) (s : State) : State :=
  match pcOfReq s r with
  | none => serveReq { r with cls := effClass s r } s
  | some p => match freeSlot s (arbOf s p) (effClass s r) with
    | some own => enterQueue p own r conf (serveReq { r with cls := effClass s r } s)
    | none => modArb p (fun a => { a with ingress := a.ingress ++ [(r, conf)] }) s

/-- Whether a direct request waits for the end-of-forward marker of its granule (R48): its master routed it by the map that names the
destination. -/
def waitsMarker (s : State) (r : MemReq) : Bool :=
  let g := granOf s r.lode (r.laddr / 2 ^ 28)
  decide (g.mig = 2) && decide (r.route = some (g.set, g.slot))

/-- A request arrives at its region memory controller (R37, R40, R193). A rejected one is kept for its second attempt; rejected again, it ends its
command (R40). -/
def arrive (r : MemReq) (conf : Bool) (s : State) : State :=
  if (lodeOf s r.lode).state = 0 ∨ !tagLive s r.lode r.etag then
    if r.retried then failReq r Err.staleEpoch s
    else answerReq r Err.staleEpoch [] (modMem (fun m => { m with retries := tins m.retries r.id r }) s)
  else if waitsMarker s r then modGran r.lode (r.laddr / 2 ^ 28) (fun g => { g with held := g.held ++ [r] }) s
  else match resolve s r.lode r.laddr with
    | none =>
      let (_, s) := newFault r.lode (.memctl r.lode) 3 0 (if r.write then 1 else 0) 0 0 r.laddr 0 s
      failReq r Err.xlGranule s
    | some _ => accept r conf s

/-- Whether a request goes to a region that is being reset, which takes none (R546). -/
def regionClosed (s : State) (r : MemReq) : Bool := ((pcOfReq s r).map fun p => (regionOf s (p / 96)).resetting).getD false

/-- A request leaves its master for its memory port (R271, R272). -/
def inject (r : MemReq) (s : State) : State :=
  if regionClosed s r then modNoc (fun n => { n with waiting := n.waiting ++ [r] }) s else
  let go (conf : Bool) (s : State) : State :=
    let s := countBytes r.master (effClass s r) r.len conf s
    arrive r conf (match pcOfReq s r with
      | some p => sendWay r.master r.id .request (requestWay s r.master p) s
      | none => s)
  match takeIn r s with
  | (.conforming, s) => go true s
  | (.excess, s) => go false s
  | (.wait, s) => modNoc (fun n => { n with waiting := n.waiting ++ [r] }) s

/-- Whether an earlier request of the same lode waits at the same master. -/
def behind (s : State) (r : MemReq) : Bool := s.noc.waiting.any fun w => decide (w.master = r.master) && decide (w.lode = r.lode)

/-- The request as its master resolves it (R195). -/
def routed (r : MemReq) (s : State) : MemReq × State :=
  let (h, s) := granHit r.master r.lode (r.laddr / 2 ^ 28) s
  ({ r with route := some (h.set, h.slot) }, s)

/-- A request is issued: behind the waiting ones of its lode at its master, if there are any. -/
def issue (r : MemReq) (s : State) : State :=
  let (r, s) := routed r s
  if behind s r then modNoc (fun n => { n with waiting := n.waiting ++ [r] }) s else inject r s

/-- STALE_EPOCH_RETRY: a rejected request is routed again under the current map, tagged with the current epoch and issued once more (R40). -/
def execStaleEpochRetry (req : Nat) (s : State) : Host.Outcome State Fault Refusal :=
  run s fun s => match s.mem.retries.find? fun t => t.1 = req with
    | none => s
    | some (_, r) => issue { r with etag := (lodeOf s r.lode).epoch % 256, retried := true } (modMem (fun m => { m with retries := m.retries.filter fun t => t.1 ≠ req }) s)

def execMemoryRequest (r : MemReq) (s : State) : Host.Outcome State Fault Refusal := run s (issue r)

/-! ### Arbitration (R294) -/

/-- The excess weight of a class in effect: a run-time value, else the image's. -/
def weightOf (s : State) (k : Nat) : Nat :=
  let w := tget 0 s.noc.weights k
  if w ≠ 0 then w else (tget {} s.img.applied.classes k).weight

/-- Whether request `a` of a tier is served ahead of `b`, which is older: an earlier deadline wins, no deadline comes last. -/
def dueBefore (a b : ArbReq) : Bool := decide (a.dl ≠ 0) && (decide (b.dl = 0) || decide (a.dl < b.dl))

/-- The request of a list with the earliest deadline, the oldest among equals. -/
def earliest : List ArbReq → Option ArbReq
  | [] => none
  | r :: t => some (t.foldl (fun b x => if dueBefore x b then x else b) r)

/-- Deficit round robin (R294): from class `k` on, the first class with excess requests whose deficit covers its request is
served; a class met without enough gains its quantum and the turn passes on; one without requests loses its deficit. -/
def roundRobin (w : Nat → Nat) (ex : List ArbReq) : Nat → Nat → Tbl Nat → Option (ArbReq × Nat × Tbl Nat)
  | 0, _, _ => none
  | fuel + 1, k, ds =>
    match earliest (ex.filter fun r => r.cls = k) with
    | none => roundRobin w ex fuel ((k + 1) % 64) (tset 0 ds k 0)
    | some r =>
      if r.bytes ≤ tget 0 ds k then some (r, k, tset 0 ds k (tget 0 ds k - r.bytes))
      else
        let k' := (k + 1) % 64
        roundRobin w ex fuel k' (tset 0 ds k' (tget 0 ds k' + w k' * 64))

/-- Whether an arbiter serves tier 3: a pseudo-channel's may have it stopped by the memory loop (R511) or by heat (R518). -/
def tier3On (s : State) (n : Nat) : Bool := !(decide (n < 768) && (decide ((regionOf s (n / 96)).tier3 = 0) || tget false s.pwr.tier3off (n / 32)))

/-- The request an arbiter serves next, and the arbiter after it. -/
def pickNext (s : State) (a : Arb) (excess : Bool) : Option (ArbReq × Arb) :=
  let drop (r : ArbReq) (a : Arb) : Arb := { a with queue := a.queue.filter fun x => x.id ≠ r.id }
  match earliest (a.queue.filter fun r => r.conform && decide (r.dl ≠ 0)) with
  | some r => some (r, drop r a)
  | none => match a.queue.find? fun r => r.conform with
    | some r => some (r, drop r a)
    | none => if !excess then none else
      let most := (a.queue.map (·.bytes)).foldl max 0
      (roundRobin (weightOf s) a.queue (64 * (most / 64 + 3)) a.turn a.deficit).map fun t =>
        (t.1, { drop t.1 a with turn := t.2.1, deficit := t.2.2 })

/-- The requests at the ingress of a pseudo-channel's queue are tried again, in order (R202). -/
def letIn (n : Nat) (s : State) : State :=
  each (arbOf s n).ingress (fun r => accept r.1 r.2) (modArb n (fun a => { a with ingress := [] }) s)

/-- ARBITER_SERVE: the next request by tier, deadline, age and round robin leaves the queue, and its slot may be taken from the ingress; an
arbiter with none waiting serves none. -/
def execArbiterServe (n : Nat) (s : State) : Host.Outcome State Fault Refusal :=
  run s fun s => match pickNext s (arbOf s n) (tier3On s n) with
    | some (r, a) => letIn n (emit (.served n r.id) (modArb n (fun _ => a) s))
    | none => s

/-! ### Corrected errors (R203, R206, R523) -/

/-- The corrected errors of a window, the new one included. -/
def cesNow (s : State) (ces : List Nat) : List Nat := (ces.filter fun t => decide (s.evr.opsec ≤ t + s.ras.window * 60)) ++ [s.evr.opsec]

/-- A pseudo-channel's retirement is predicted (R206): a bound set evacuates; a set of no lode is broken at once (R208). -/
def predictPc (p : Nat) (s : State) : State :=
  let s := modPc p (fun c => { c with predicted := true }) s
  match s.lm.sets.find? fun t => decide (t.2.base ≤ p) && decide (p < t.2.base + t.2.count) with
  | none => modPc p (fun c => { c with retired := true, predicted := false }) (setRetired ⟨5, p⟩ s)
  | some (n, t) =>
    if t.lode = 0x7F then breakNow n (endOpsOnSet n Err.unitRetired s)
    else modSet n (fun t => if t.state = 2 ∨ t.state = 3 then { t with state := 5 } else t) s

/-- A unit corrected an error: counted in its window, and a threshold of its own acts once reached. -/
def corrected (u : HwUnit) (s : State) : State :=
  if inReset s u || (fcOf s u).retired then s
  else if u.kind = 5 then
    let c := pcOf s u.num
    let ces := cesNow s c.ces
    let lim := (regionOf s (u.num / 96)).ceThresh
    let s := modPc u.num (fun c => { c with ces := ces, ceTotal := min 0xFFFF (c.ceTotal + 1) }) s
    if lim = 0 ∨ ces.length < lim ∨ c.predicted ∨ c.failed then s
    else afterOps (predictPc u.num (event 0x901 2 5 u.num 0 ces.length (lodeOfUnit s u) s))
  else
    let ces := cesNow s (fcOf s u).ces
    let s := modFc u (fun f => { f with ces := ces }) s
    if (u.kind = 1 ∨ u.kind = 2) ∧ s.ras.ceCell ≠ 0 ∧ s.ras.ceCell ≤ ces.length ∧ !(fcOf s u).deferred then
      afterOps (classify u true (fcOf s u).count (event 0x901 2 u.kind u.num 0 ces.length (lodeOfUnit s u) s))
    else s

def execCorrectedError (u : HwUnit) (s : State) : Host.Outcome State Fault Refusal := run s (corrected u)

/-- The pseudo-channels of a region that lie in a set, which a patrol pass reads (R205). -/
def patrolled (s : State) (r : Nat) : List Nat :=
  ((List.range 96).map fun i => 96 * r + i).filter fun p => s.lm.sets.any fun t => decide (t.2.base ≤ p) && decide (p < t.2.base + t.2.count)

/-- The patrol reads a line of a pseudo-channel of its region that lies in a set (R205). `bad`: it found an error it corrected. A pass starts at
the region's first line in a set, and takes `HOURS` as it stands then; with 0 it does not start. -/
def execPatrolScrubLine (r p line : Nat) (bad : Bool) (s : State) : Host.Outcome State Fault Refusal :=
  run s fun s =>
    let s := wh (decide ((patrolled s r).head? = some p) && decide (line = 0)) (modRegion r fun g => { g with patrolNow := g.patrol }) s
    if (regionOf s r).patrolNow = 0 ∨ !(patrolled s r).contains p then s
    else
      let s := modRegion r (fun g => { g with patrolAt := p % 96 * 2 ^ 25 + line % 2 ^ 25 }) s
      if bad then corrected ⟨5, p⟩ s else s

/-! ### Uncorrectable errors (R203) -/

/-- Latches `MEM_ERR` of a region. -/
def memErr (r store addr : Nat) : State → State := modRegion r fun g => { g with errStore := store, errAddr := addr / 64 * 64 }

/-- The unit number of the physical core that serves a logical core (R187). -/
def physCore (s : State) (b c : Nat) : Nat :=
  let f := (rowOf s b (c / 8)).failed
  b * 36 + c / 8 * 9 + (if c % 8 < f then c % 8 else c % 8 + 1)

/-- A line of a block's memory is poisoned, and the launch whose request met it ends. -/
def blockLineError (b off store : Nat) (u : HwUnit) (stop : State → State) (s : State) : State :=
  let a := blockBase b + off
  countFault u false (a / 64 * 64) (stop (memErr (b / 12) store a (setPoison (a / 64) true s)))

/-- The request that met an uncorrectable error fails with it (R203). -/
def failHit (r : Option MemReq) (s : State) : State :=
  match r with
  | some r => failReq r Err.memUncorrected s
  | none => s

/-- Poisons both 64-byte lines of a cache line in HBM. -/
def poisonLine (line : Nat) (s : State) : State := setPoison (2 * line + 1) true (setPoison (2 * line) true s)

/-- A store detects an error it cannot correct (R203, R523): what is poisoned, dropped or failed, and the fault counted. -/
def uncorrectable (st : Store) (s : State) : State :=
  match st with
  | .hbm p addr req =>
    if (pcOf s p).failed then s else
    let a := p * 0x80000000 + addr % 0x80000000
    let own := match (pcOf s p).lastUe with
      | some x => decide (x ≠ a / 64) && decide ((fcOf s ⟨5, p⟩).count ≠ 0) && decide (s.evr.opsec ≤ (fcOf s ⟨5, p⟩).last + s.ras.window * 60)
      | none => false
    let s := failHit req (memErr (p / 96) 1 a (setPoison (a / 64) true s))
    countFault ⟨5, p⟩ own (a / 64 * 64) (modPc p (fun c => { c with lastUe := some (a / 64) }) s)
  | .cacheData r way line dirty req =>
    let s := wh dirty (failHit req) (memErr r 2 (line * 128) s)
    let s := modRegion r (fun g => { g with cache := g.cache.filter fun c => c.line ≠ line }) s
    countFault ⟨6, r * 64 + way⟩ false (line * 128) (wh dirty (poisonLine line) s)
  | .cacheTag r way set =>
    let hit := (regionOf s r).cache.filter fun c => c.set = set
    let s := memErr r 2 ((hit.headD ⟨0, 0, 0, false, 0, false⟩).line * 128) s
    let s := modRegion r (fun g => { g with cache := g.cache.filter fun c => c.set ≠ set }) s
    countFault ⟨6, r * 64 + way⟩ false set (each (hit.filter (·.dirty)) (fun c => poisonLine c.line) s)
  | .cluster b off => blockLineError b off 3 ⟨3, b⟩ (endLaunch b Err.memUncorrected []) s
  | .scratchpad b c off => blockLineError b (0x400000 + c * 0x10000 + off) 4 ⟨1, physCore s b c⟩ (endLaunch b Err.memUncorrected []) s
  | .operand b e off =>
    blockLineError b (0x800000 + e * 0x80000 + off) 5 ⟨2, b * 4 + e⟩ (fun s =>
      if (engineOf s b e).queue.isEmpty then endLaunch b Err.memUncorrected [] s else meAbandon b e Err.memUncorrected s) s
  | .accumulator b e tile _ _ =>
    let s := scrambleTile b e tile 128 128 s
    let s := memErr (b / 12) 6 (blockBase b + 0x800000 + e * 0x80000) s
    countFault ⟨2, b * 4 + e⟩ false 0 (if (engineOf s b e).queue.isEmpty then s else meAbandon b e Err.memUncorrected s)
  | .syncPage page idx isBar =>
    if isBar then
      let s := modBar (page * 64 + idx) (fun x => { x with poisoned := true }) s
      let ws := (barOf s (page * 64 + idx)).stalled
      pageRetireErr (512 + page) (each ws (fun w => endLaunch w.1 Err.memUncorrected []) s)
    else
      let n := page * 256 + idx
      let ws := (semOf s n).waits.filterMap fun m => match m with
        | .wait b _ _ _ => some b
        | _ => none
      let s := modSem n (fun x => { x with poisoned := true, waits := [] }) s
      pageRetireErr page (each ws (fun b => endLaunch b Err.memUncorrected []) s)
  | .combEntry router =>
    match tget [] s.noc.comb router with
    | [] => s
    | k :: rest =>
      let s := modNoc (fun n => { n with comb := tset [] n.comb router rest }) s
      countFault ⟨20, router⟩ false 0 (each k.contribs (fun c => emit (.reduceAck c.1 c.2 Err.reduceLost)) s)
  | .switchEntry =>
    match s.dr.store with
    | [] => s
    | k :: rest => countFault ⟨21, 0⟩ false 0 (nackLost k (modDr (fun d => { d with store := rest }) s))
  | .descriptor l pos => abortRec l pos Err.memUncorrected s
  | .ctxImage c => startTeardown c Err.memUncorrected none s
  | .dmaUnit u => if u < 96 then countFault ⟨3, u⟩ false 0 s else countFault ⟨4, u - 96⟩ false 0 s
where
  /-- Any such error classifies the page (R523, R528). -/
  pageRetireErr (n : Nat) (s : State) : State := countFault ⟨8, n⟩ true 0 s
  /-- A lost entry of the switch: each contributor receives `E_REDUCE_LOST` (R338). -/
  nackLost (k : Packet) (s : State) : State := nack k Err.reduceLost s

def execUncorrectableError (st : Store) (s : State) : Host.Outcome State Fault Refusal := run s fun s => afterOps (uncorrectable st s)

/-! ### Failure and evacuation of pseudo-channels (R207, R208) -/

def execPseudoChannelFailure (p : Nat) (s : State) : Host.Outcome State Fault Refusal :=
  run s fun s => afterOps (classify ⟨5, p⟩ false (faultsNow s ⟨5, p⟩) s)

/-- The evacuation of a set under way, if any. -/
def evacOf (s : State) (n : Nat) : Option Op := s.lm.ops.find? fun o => decide (o.kind = .evacuate) && o.sets.contains n

/-- Steps 1 and 2 of R208: the set is claimed over any rebinding operation (R44), and the first batch is copied. -/
def execEvacuationStart (n : Nat) (s : State) : Host.Outcome State Fault Refusal :=
  run s fun s =>
    let t := setOf s n
    if (t.state = 5 ∨ t.state = 6) ∧ t.lode ≠ 0x7F ∧ (evacOf s n).isNone then
      let s := endOpsOnSet n Err.unitRetired s
      let num := opNumber s
      afterOps (evacNext num (addOp { num := 0, kind := .evacuate, donor := t.lode, sets := [n] } s))
    else s

/-- An evacuation that waits goes on when the lode has a free slot elsewhere. -/
def execEvacuationResume (n : Nat) (s : State) : Host.Outcome State Fault Refusal :=
  run s fun s => match evacOf s n with
    | some o => if o.step = 5 ∧ !(freeElsewhere s o.donor n).isEmpty then afterOps (evacNext o.num s) else s
    | none => s

end Sys2Proof.Machine
end

