-- ==== Sys2Proof/Machine/Queues.lean ====
section
/-! DEFINITION. Submission queues: the doorbell, reads of host memory, taking and checking records (R392 to R404), waits on fences
(R408, R409). -/
namespace Sys2Proof.Machine
open Sys2Proof

/-! ### Fields of the argument entries (R399) -/

def rPattern (b : Nat) : Nat := rArg b 192 64
def rRop (b : Nat) : Nat := rArg b 256 2
def rEfmt (b : Nat) : Nat := rArg b 258 2
/-- The conversion descriptor of op 3. -/
def rConv (b : Nat) : Nat := rArg b 512 256
def rSlots (b : Nat) : Nat := rArg b 0 96
def rConstVa (b : Nat) : Nat := rArg b 128 64
def rM (b : Nat) : Nat := rArg b 192 20 + 1
def rN (b : Nat) : Nat := rArg b 212 20 + 1
def rK (b : Nat) : Nat := 32 * (rArg b 232 15 + 1)
def rAfmt (b : Nat) : Nat := rArg b 512 4
def rBfmt (b : Nat) : Nat := rArg b 516 4
def rOfmt (b : Nat) : Nat := rArg b 520 4
def rAct (b : Nat) : Nat := rArg b 524 4
def rRnd (b : Nat) : Nat := rArg b 528 2
def rMx (b : Nat) : Bool := decide (rArg b 530 1 = 1)
def rSparse (b : Nat) : Bool := decide (rArg b 531 1 = 1)
def rMxout (b : Nat) : Bool := decide (rArg b 532 1 = 1)
def rBmode (b : Nat) : Nat := rArg b 534 2
def rSmode (b : Nat) : Nat := rArg b 536 2

/-- An epilogue in the fields that ACC_READ gives it (R108, R399). -/
def rEpi (b : Nat) : Nat :=
  rBmode b * 2 ^ 12 + rSmode b * 2 ^ 14 + (if rMxout b then 2 ^ 17 else 0) + rRnd b * 2 ^ 18 + rOfmt b * 2 ^ 20 + rAct b * 2 ^ 24 +
    rArg b 544 32 * 2 ^ 64 + rArg b 576 32 * 2 ^ 128 + rArg b 608 32 * 2 ^ 192

/-! ### The layout of a matmul's resources (R400) -/

def mmArow (b : Nat) : Nat := alignUp (elemBytes (rAfmt b) (if rSparse b then rK b / 2 else rK b)) 64
def mmBrow (b : Nat) : Nat := alignUp (elemBytes (rBfmt b) (rK b)) 64
def mmCrow (b : Nat) : Nat := alignUp (elemBytes (rOfmt b) (rN b)) 64
/-- Bytes of a scale, metadata or output-scale array of `rows` rows of `n` entries. -/
def mmArr (rows n : Nat) : Nat := (rows - 1) * alignUp n 16 + n

/-- The resources of a matmul: DVA, length, access (R223: 0 read, 1 write). -/
def mmResources (b : Nat) : List (Nat × Nat × Nat) :=
  [(rArg b 0 64, rM b * mmArow b, 0), (rArg b 64 64, rN b * mmBrow b, 0), (rArg b 128 64, rM b * mmCrow b, 1)] ++
    (if rMx b then [(rArg b 256 64, mmArr (rM b) (rK b / 32), 0), (rArg b 320 64, mmArr (rN b) (rK b / 32), 0)] else []) ++
    (if rSparse b then [(rArg b 384 64, mmArr (rM b) (rK b / 8), 0)] else []) ++
    (if rMxout b then [(rArg b 448 64, mmArr (rM b) (rN b / 32), 1)] else []) ++
    (if 2 ≤ rBmode b then [(rArg b 640 64, 4 * (if rBmode b = 2 then rM b else rN b), 0)] else []) ++
    (if 2 ≤ rSmode b then [(rArg b 704 64, 4 * (if rSmode b = 2 then rM b else rN b), 0)] else [])

/-- The resources of a conversion; the destination and the arrays only when the shape gives their lengths. -/
def cvResources (b : Nat) : List (Nat × Nat × Nat) :=
  let c := rConv b
  let v := convOf c
  (if rShost b then [] else [(rSrc b, rLen b, 0)]) ++
    if !cvShapeOk c (rLen b) then [] else
      (if rDhost b then [] else [(rDst b, cvDlen c (rLen b), 1)]) ++
      (if v.ss then [(cvSva c, cvSspan c (rLen b), 0)] else []) ++
      (if v.ds ≠ 0 then [(cvDva c, cvDspan c (rLen b), if v.ds = 1 then 1 else 0)] else [])

/-- The operands of a record in lode memory: DVA, length, access. -/
def rResources (b : Nat) : List (Nat × Nat × Nat) :=
  match rOp b with
  | 1 => if 256 < rConstLen b then [(rConstVa b, rConstLen b - 256, 0)] else []
  | 2 | 4 | 5 =>
    (if rOp b = 4 ∨ rShost b then [] else [(rSrc b, rLen b, 0)]) ++
      (if rDhost b then [] else [(rDst b, rLen b, if rOp b = 5 then 4 else 1)])
  | 3 => cvResources b
  | 6 => mmResources b
  | _ => []

/-- The fences of a record: wait fences, then the signal fence (R223). -/
def rFences (b : Nat) : List (Nat × Nat × Nat) :=
  (if rW0Va b = 0 then [] else [(rW0Va b, 16, 0)]) ++ (if rW1Va b = 0 then [] else [(rW1Va b, 16, 0)]) ++
    (if rSigVa b = 0 then [] else [(rSigVa b, 16, 4)])

/-- The DVA fields whose bits [63:55] must be 0 (R398, R402). -/
def rVas (b : Nat) : List Nat :=
  [rSigVa b, rW0Va b, rW1Va b] ++
    match rOp b with
    | 1 => [rArg0 b, rConstVa b]
    | 2 | 3 | 4 | 5 => (if rOp b = 4 ∨ rShost b then [] else [rSrc b]) ++ (if rDhost b then [] else [rDst b])
    | 6 => [0, 64, 128, 256, 320, 384, 448, 640, 704].map fun k => rArg b k 64
    | _ => []

/-! ### The checks of R402 -/

/-- Order 2: a reserved encoding (R24). -/
def recReserved (b : Nat) : Bool :=
  decide (rOp b = 0) || decide (8 ≤ rOp b) || (decide (rOp b = 5) && (decide (rRop b = 3) || decide (rEfmt b = 3))) ||
    (decide (rOp b = 3) && decide ((convOf (rConv b)).check = 1)) ||
    (decide (rOp b = 6) && (decide (12 ≤ rAfmt b) || decide (12 ≤ rBfmt b) || decide (12 ≤ rOfmt b) || decide (8 ≤ rAct b) ||
      decide (rRnd b = 3) || decide (rBmode b = 1)))

/-- Entries that a record's op asks for (R399). -/
def recEntries (b : Nat) : Nat :=
  match rOp b with
  | 7 => 1
  | 2 | 4 | 5 => 2
  | 3 | 6 => 3
  | _ => 2 + (min (rConstLen b) 256 + 63) / 64

/-- Whether a context is a lode's and valid (R224). -/
def ctxValid (s : State) (l c : Nat) : Bool := (xlCtxOf s c).valid && decide ((xlCtxOf s c).lode = l)

/-- Order 3: the format. -/
def recMalformed (s : State) (l b : Nat) : Bool :=
  decide (rEntries b ≠ recEntries b) || (rVas b).any (fun v => decide (2 ^ 55 ≤ v)) ||
    [rSigVa b, rW0Va b, rW1Va b].any (fun v => decide (v % 16 ≠ 0)) ||
    (rResources b ++ rFences b).any (fun r => decide (2 ^ 55 < r.1 + r.2.1)) ||
    (decide (rOp b = 1) && decide (4096 < rConstLen b)) ||
    (decide (2 ≤ rOp b) && decide (rOp b ≤ 5) && (decide (rLen b = 0) || decide (2 ^ 40 ≤ rLen b))) ||
    (decide (rOp b = 4) && decide (rLen b % 8 ≠ 0)) || (decide (rOp b = 5) && decide (rLen b % 64 ≠ 0)) ||
    (decide (rOp b ≠ 1) && ctxValid s l (rCtx b) && !(ctxOf s (rCtx b)).mask.testBit (rClass b))

/-- Order 5: the chip and the slots of a launch. A member chip's headframe checks the slots of its own blocks (R224). -/
def recPlace (s : State) (l b : Nat) : Nat :=
  if rOp b ≠ 1 then 0
  else if rDevid b ≠ s.dr.devid then (if (lodeOf s l).members.contains (rDevid b) then 0 else Err.lodeUnknown)
  else
    let have' := (blocksOf s l).map fun k => (blockOf s k).slot
    if (bitsOf 96 (rSlots b)).all (have'.contains ·) then 0 else Err.cmdSlots

/-- Op 6: what an engine would say of its formats (R99, R103, R111, R620). -/
def mmCheck (s : State) (l b : Nat) : Nat :=
  if (blocksOf s l).all fun k => engineMask s k = 0 then Err.meAbsent
  else match mmaPair (rAfmt b) (rBfmt b) with
  | none => Err.meFormat
  | some (_, sp, mx, _) =>
    if (rSparse b && !sp) || (rMx b && !mx) || decide (rOfmt b = 11) || (rMxout b && !(mxFmt (rOfmt b) && decide (rN b % 32 = 0))) ||
        (decide (fmtBits (rOfmt b) < 8) && decide (rN b % 32 ≠ 0)) then Err.meFormat else 0

/-- Order 6: the rules of the op. A host address never overlaps a DVA range (R151). -/
def recRules (s : State) (l b : Nat) : Nat :=
  match rOp b with
  | 3 => cvCheck (rConv b) (if rShost b then rSrc b + 2 ^ 70 else rSrc b) (rLen b) (if rDhost b then rDst b + 2 ^ 70 else rDst b)
  | 6 => mmCheck s l b
  | _ => 0

/-- Orders 2 to 6 of R402: the first error, 0 for none. -/
def recCheck (s : State) (l b : Nat) : Nat :=
  if recReserved b then Err.reservedEncoding
  else if recMalformed s l b then Err.cmdFormat
  else if !ctxValid s l (rCtx b) then Err.xlContext
  else if recPlace s l b ≠ 0 then recPlace s l b
  else recRules s l b

/-! ### Translation of a record (order 7; R224 to R226) -/

/-- Translates resources in order; the error carries the access. -/
def translateAll (s : State) (look : Look) : List (Nat × Nat × Nat) → Except ((Stop × Nat) × Nat) (List (Nat × Nat × List (Nat × Nat)))
  | [] => .ok []
  | (va, n, access) :: t =>
    match extents s look va n access with
    | .error e => .error (e, access)
    | .ok xs => if 16 < xs.length then .error (((16, 0), va), access) else (translateAll s look t).map fun r => (va, n, xs) :: r

/-- Extent slots of the descriptor store in use (R226). -/
def descSlots (s : State) : Nat := (s.q.map fun t => (t.2.recs.map fun r => (r.res.map fun x => x.2.2.length).sum).sum).sum

/-- The lode memory address of a translated fence, 0 when the record names none. -/
def fenceAddr (va : Nat) (res : List (Nat × Nat × List (Nat × Nat))) : Nat :=
  if va = 0 then 0 else match res with
    | (_, _, (a, _) :: _) :: _ => a
    | _ => 0

/-- The lode memory addresses of the signal and the wait fences, from the translations of `rFences`. -/
def fenceAddrs (b : Nat) (res : List (Nat × Nat × List (Nat × Nat))) : List Nat :=
  let w1 := if rW0Va b = 0 then res else res.drop 1
  let sg := if rW1Va b = 0 then w1 else w1.drop 1
  [fenceAddr (rSigVa b) sg, fenceAddr (rW0Va b) res, fenceAddr (rW1Va b) w1]

/-- The signal fence of a record that fails a check, when it translates by the tables as they stand (R403). -/
def sigOnly (s : State) (l b : Nat) : List Nat :=
  if rSigVa b = 0 ∨ 2 ^ 55 ≤ rSigVa b + 16 ∨ rSigVa b % 16 ≠ 0 ∨ !ctxValid s l (rCtx b) then []
  else match extents s (walk s (rCtx b)) (rSigVa b) 16 4 with
    | .ok ((a, _) :: _) => [a]
    | _ => []

/-- A record fails a check and performs nothing (R403). -/
def rejectRec (l pos err : Nat) (s : State) : State :=
  match recOf s l pos with
  | none => s
  | some r =>
    let f := sigOnly s l r.bits
    modRec l pos (fun r => { r with stage := 3, error := err, fences := f, res := [] }) s

/-! ### Waits (R404, R408, R409) -/

/-- What one wait says: none while unmet; an error, and whether it is the fence's own (inherited). -/
def waitOne (s : State) (l a v : Nat) : Option (Nat × Bool) :=
  if a = 0 then some (0, false) else
    match rdLode s l a 16 with
    | .error e => some (e, false)
    | .ok bs =>
      let w := unle bs
      if v ≤ fld w 0 64 then some (0, false)
      else if fld w 64 16 ≠ 0 ∧ !w.testBit 81 then some (fld w 64 16, true)
      else none

/-- What the waits of a record say, the first before the second. -/
def waitsOf (s : State) (l : Nat) (r : Rec) : Option (Nat × Bool) :=
  match waitOne s l (r.fences.getD 1 0) (rW0Val r.bits), waitOne s l (r.fences.getD 2 0) (rW1Val r.bits) with
  | some (0, _), w => w
  | some e, _ => some e
  | none, some (0, _) => none
  | none, w => w

/-- The wait fences of a record as ranges that a fault may name. -/
def fenceRanges (r : Rec) : List (Nat × List (Nat × Nat) × Nat) :=
  [(rW0Va r.bits, [(r.fences.getD 1 0, 16)], 0), (rW1Va r.bits, [(r.fences.getD 2 0, 16)], 0)].filter fun x => x.1 ≠ 0

/-- Whether a record is held: by its waits, a fault, or a header it needs. -/
def isHeld (r : Rec) : Bool := decide (r.stage = 0) || decide (r.stage = 4) || decide (r.stage = 5)

/-- Releases the records of a context from `ps` on, in order, up to one that stays held. -/
def letGo (l c : Nat) : List Nat → State → State
  | [], s => s
  | p :: t, s =>
    match recOf s l p with
    | none => letGo l c t s
    | some r =>
      if r.stage = 0 then
        match waitsOf s l r with
        | none => s
        | some (0, _) => letGo l c t (modRec l p (fun r => { r with stage := 1 }) s)
        | some (e, own) => letGo l c t (modRec l p (fun r => { r with stage := 3, error := e, inherited := own })
            (if e = Err.xlGranule ∧ !own then granFault l c p (fenceRanges r) s else s))
      else if isHeld r then s
      else letGo l c t s

/-- Evaluates the held records of a context; one that is ready may start a turn (R408, R435). -/
def releaseCtx (l c : Nat) (s : State) : State :=
  let s := letGo l c (((queueOf s l).recs.filter fun r => rCtx r.bits = c).map (·.pos)) s
  if runnable s c then kick l c s else s

/-! ### Sealed source buffers (R387, R388) -/

/-- The sealed buffers that a record reads: host address and plaintext length. A reduction's host target is read and written. -/
def sealedReads (b : Nat) : List (Nat × Nat) :=
  (if rShost b ∧ rOp b ≤ 5 ∧ 2 ≤ rOp b then [(rSrc b, rLen b)] else []) ++ (if rOp b = 5 ∧ rDhost b then [(rDst b, rLen b)] else [])

/-- The record waits for the next header it needs, or for its waits. -/
def headersNext (l pos : Nat) (s : State) : State :=
  match recOf s l pos with
  | none => s
  | some r =>
    match if (lodeOf s l).conf then (sealedReads r.bits)[r.hdr.length / 64]? else none with
    | some (a, _) => hostRead l a 64 (.sealedHdr l pos) (modRec l pos (fun r => { r with stage := 5 }) s)
    | none => releaseCtx l (rCtx r.bits) (modRec l pos (fun r => { r with stage := 0 }) s)

/-- A header of a sealed buffer comes in: R388's check, and the floor rises. -/
def headerRead (l pos : Nat) (h : List Byte) (s : State) : State :=
  match recOf s l pos with
  | none => s
  | some r =>
    if r.stage ≠ 5 then s else
    let w := unle h
    let n := ((sealedReads r.bits).getD (r.hdr.length / 64) (0, 0)).2
    let chunks := (n + 4095) / 4096
    if fld w 0 3 ≠ 4 ∨ fld w 32 32 ≠ chunks ∨ fld w 16 13 ≠ n - (chunks - 1) * 4096 ∨ fld w 64 64 < (queueOf s l).hdFloor then
      releaseCtx l (rCtx r.bits) (modRec l pos (fun r => { r with stage := 3, error := Err.confReplay }) s)
    else headersNext l pos (modRec l pos (fun r => { r with hdr := r.hdr ++ h }) (modQueue l (fun q => { q with hdFloor := fld w 64 64 + chunks }) s))

/-! ### Taking a record (R402 to R404) -/

/-- The resources that this chip translates for a record: a launch on another chip is translated there (R224). -/
def recNames (s : State) (b : Nat) : List (Nat × Nat × Nat) :=
  (if rOp b = 1 ∧ rDevid b ≠ s.dr.devid then [] else rResources b) ++ rFences b

/-- Translates a record and holds it, or rejects it; a resumable fault leaves the headframe waiting at it (R233). -/
def translateRec (l pos : Nat) (s : State) : State :=
  match recOf s l pos with
  | none => s
  | some r =>
    let c := rCtx r.bits
    let names := recNames s r.bits
    let v := (draw s).1
    let t := each names (fun x => noteWalks 96 (rClass r.bits) v c x.1 x.2.1 x.2.2) (draw s).2
    match translateAll s (walkAs s 96 v c) names with
    | .ok res =>
      let t := modRec l pos (fun r => { r with stage := 0, res := res, fences := fenceAddrs r.bits (res.drop (names.length - (rFences r.bits).length)) }) t
      if (ctxOf s c).state = 3 then modRec l pos (fun r => { r with stage := 3, error := Err.cancelled, cancel := 2 }) t
      else headersNext l pos t
    | .error (((16, _), _), _) => rejectRec l pos Err.extentLimit t
    | .error ((stop, va), access) =>
      let t := (stopFault l (.head l pos) stop access c pos va 0 t).2
      if resumable stop.1 ∧ faultWaits s l then modRec l pos (fun r => { r with stage := 4 }) t
      else rejectRec l pos (stopCode stop.1) t

/-- Translates a record that was taken before: while the descriptor store lacks the slots, the headframe stays at it and takes no other (R226). -/
def fitRec (l pos : Nat) (s : State) : State :=
  let t := translateRec l pos s
  if descSlots t ≤ 262144 then t else modXl (fun x => { x with storeWait := some l }) (modRec l pos (fun r => { r with stage := 4 }) s)

/-- The records that wait for slots alone are translated as slots come free. -/
def fitWaiting (s : State) : State :=
  match s.xl.storeWait with
  | none => s
  | some l =>
    let held (p : Nat) : Bool := (xlLodeOf s l).faults.any fun f => decide (f.agent = .head l p)
    match ((queueOf s l).recs.filter fun r => decide (r.stage = 4) && !held r.pos).map (·.pos) with
    | [] => s
    | p :: _ => fitRec l p (modXl (fun x => { x with storeWait := none }) s)

/-- Whether the descriptor store keeps the headframe from taking a record of a lode: the next record, of another queue, waits for slots
(R226). -/
def storeHolds (s : State) (l : Nat) : Bool :=
  match s.xl.storeWait with
  | none => false
  | some k =>
    let q := queueOf s k
    decide (k ≠ l) && decide (q.state = 1) && (decide (q.sqHead < q.sqTail) || q.recs.any fun r => decide (r.stage = 4))

/-- Whether the headframe may take the next record of a lode (R395, R412, R226, R233, R454, R476). -/
def mayTake (s : State) (l bits : Nat) : Bool :=
  let q := queueOf s l
  let d := schedOf s l
  !asleep s && !storeHolds s l && decide (s.pwr.shutdown = 0) && decide (q.state = 1) && decide (q.sqHead + rEntries bits ≤ q.sqTail) &&
    decide (q.recs.length + (q.cqTail - q.cqHead) < 2 ^ q.cqLog) && !(q.recs.any fun r => decide (r.stage = 4)) &&
    d.quiesce.isNone && !d.moving && decide (d.phase ≠ 4) && !((lodeOf s l).conf && s.sec.locked)

/-- The next record of a queue is taken: `bits` is the record, decrypted for a confidential lode, whose tag `tagOk` tells of. -/
def doTake (l bits : Nat) (tagOk : Bool) (s : State) : State :=
  let pos := (queueOf s l).sqHead
  let s1 := modQueue l (fun q => { q with sqHead := q.sqHead + rEntries bits, recs := q.recs ++ [{ pos := pos, bits := bits }] }) s
  let conf := (lodeOf s l).conf
  let err := if conf ∧ (sessionKey s l).isNone then Err.confKey else if conf ∧ !tagOk then Err.confTag else 0
  if err ≠ 0 then modRec l pos (fun r => { r with stage := 3, error := err }) s1
  else
    let e := recCheck s1 l bits
    if e ≠ 0 then rejectRec l pos e s1
    else
      let t := translateRec l pos (modXl (fun x => { x with storeWait := none }) s1)
      if descSlots t ≤ 262144 then t else modXl (fun x => { x with storeWait := some l }) s

def execRecordTake (l bits : Nat) (tagOk : Bool) (s : State) : Host.Outcome State Fault Refusal :=
  run s fun s => if mayTake s l bits then doTake l bits tagOk s else s

def execWaitEvaluate (l pos : Nat) (s : State) : Host.Outcome State Fault Refusal :=
  run s fun s => match recOf s l pos with
    | some r => if r.stage = 0 then releaseCtx l (rCtx r.bits) s else s
    | none => s

/-! ### The doorbell (R394, R395) -/

/-- Reads the entries of a range of positions, in runs that do not wrap. -/
def readEntries (l lo hi : Nat) (s : State) : State :=
  let q := queueOf s l
  let size := 2 ^ q.sqLog
  let get (p n : Nat) (s : State) : State := if n = 0 then s else hostRead l (q.sqAddr + p % size * 64) (n * 64) (.sqEntry l) s
  let k := min (hi - lo) (size - lo % size)
  get (lo + k) (hi - lo - k) (get lo k s)

def doTail (p l pos : Nat) (s : State) : State :=
  let q := queueOf s l
  if !pageLive s p l then s
  else if q.state ≠ 1 then s
  else if pos < q.sqTail ∨ q.sqHead + 2 ^ q.sqLog < pos then modQueue l (fun q => { q with badTail := true }) s
  else readEntries l q.sqTail pos (modQueue l (fun q => { q with sqTail := pos }) s)

def execSqTailWrite (port l pos : Nat) (s : State) : Host.Outcome State Fault Refusal :=
  run s fun s => wakeFirst (.sqTailWrite port l pos) (fun s => doTail port l pos (headAccess 8 s)) s

end Sys2Proof.Machine
end

