-- ==== Sys2Proof/Machine/Operations.lean ====
section
/-! DEFINITION. The operations of command records (R399 to R401, R404, R410): dispatch of launches, transfers, reductions, matmuls and
signals, and the host-memory reads they wait for (R369, R387, R388). -/
namespace Sys2Proof.Machine
open Sys2Proof

/-! ### Dispatch (R404, R434) -/

/-- A released record of the running context that no earlier record of its context precedes; none while a thermal shutdown stops the chip
(R18, R517). -/
def dispatchable (s : State) (l pos op : Nat) : Option Rec :=
  (recOf s l pos).filter fun r =>
    decide (s.pwr.shutdown = 0) && decide (rOp r.bits = op) && decide (r.stage = 1) && ctxRuns s l (rCtx r.bits) && (schedOf s l).quiesce.isNone &&
      !((queueOf s l).recs.any fun x => decide (x.pos < pos) && decide (rCtx x.bits = rCtx r.bits) && (isHeld x || decide (x.stage = 1)))

/-- An operation is dispatched; with a stale descriptor it ends and performs nothing (R229). Nothing happens to a record that cannot
be dispatched now. -/
def dispatch (l pos op : Nat) (s : State) (f : Rec → State → State) : Host.Outcome State Fault Refusal :=
  run s fun s => match dispatchable s l pos op with
    | none => s
    | some r =>
      if r.stale then finishRec l pos Err.objectFreed s
      else f r (modRec l pos (fun r => { r with stage := 2, ran := true }) s)

/-- A dispatched record that turns out to wait goes back. -/
def undispatch (l pos : Nat) (s : State) : State := modRec l pos (fun r => { r with stage := 1, ran := false }) s

/-! ### Launches (R401, R404) -/

/-- The blocks a launch runs on: every occupied slot that no operation drains, or the slots it names. -/
def launchParts (s : State) (l slots : Nat) : List Nat :=
  let bs := blocksOf s l
  let bySlot := (List.range 96).flatMap fun k => bs.filter fun b => (blockOf s b).slot = k
  if slots = 0 then bySlot.filter fun b => !(blockOf s b).drain else bySlot.filter fun b => slots.testBit (blockOf s b).slot

/-- Whether a launch names a slot that is empty. -/
def emptySlot (s : State) (l slots : Nat) : Bool :=
  (bitsOf 96 slots).any fun k => !((blocksOf s l).any fun b => (blockOf s b).slot = k)

/-- The constant buffer of a launch: inline bytes, then those at `CONST_VA` (R401). -/
def launchConsts (s : State) (l : Nat) (r : Rec) : Except Nat (List Byte) :=
  let n := rConstLen r.bits
  let head := le (min n 256) (r.bits / 2 ^ 1024)
  if n ≤ 256 then .ok head
  else match r.res with
    | (_, _, xs) :: _ => (rdExtents s l xs).map fun t => head ++ t
    | [] => .ok head

/-- The fault of a record's access that met a granule entry that is not valid (R31, R232). -/
def resFault (l : Nat) (r : Rec) (err : Nat) (s : State) : State :=
  if err = Err.xlGranule then
    granFault l (rCtx r.bits) r.pos ((r.res.zip (recNames s r.bits)).map fun x => (x.1.1, x.1.2.2, x.2.2.2)) s
  else s

/-- A launch on this chip: its blocks take it as they are free. -/
def launchHere (l : Nat) (r : Rec) (s : State) : State :=
  let slots := rSlots r.bits
  if emptySlot s l slots then finishRec l r.pos Err.cmdSlots s
  else
    let ps := launchParts s l slots
    if ps.any fun b => (blockOf s b).drain then undispatch l r.pos s
    else match launchConsts s l r with
      | .error e => finishRec l r.pos e (resFault l r e s)
      | .ok cs =>
        if ps.isEmpty then finishRec l r.pos 0 s
        else
          let r := { r with parts := ps, consts := cs }
          let s := modRec l r.pos (fun x => { x with parts := ps, consts := cs }) s
          each (ps.filter fun b => (blockOf s b).launch.isNone && !(blockOf s b).resetting && !remapWaits s b) (placeLaunch l r) s

/-- Op 1. A launch for a member chip is carried out there, under the number its context has on that chip (R224, R431, R434). -/
def execOpLaunch (l pos : Nat) (s : State) : Host.Outcome State Fault Refusal :=
  dispatch l pos 1 s fun r s =>
    let dev := rDevid r.bits
    if dev = s.dr.devid ∨ r.remote.isSome then launchHere l r s
    else emit (.control dev 7 [(lodeOf s l).gid, tget 0 (ctxOf s (rCtx r.bits)).members dev, pos, r.bits])
      (modRec l pos (fun r => { r with remote := some dev }) s)

/-! ### Transfers (R147, R172, R387) -/

/-- The region DMA unit of an operation: an engine of the region of the lode's lowest set, by the record's position (the choice is
firmware's), or another region's when none of its engines is in service. -/
def opUnit (s : State) (l pos : Nat) : Option Nat :=
  let r0 := match setsOf s l with
    | n :: _ => (setOf s n).base / 96
    | [] => 0
  (r0 :: (List.range 8).filter (· ≠ r0)).findSome? fun r => (rdmaFor s r (pos % 4)).map fun e => 96 + r * 4 + e

/-- Takes the counters of a device-to-host buffer and gives its header (R389). -/
def newSealed (l total : Nat) (s : State) : List Byte × State :=
  let n := (queueOf s l).dhCount
  (sealedHeader n total 5, modQueue l (fun q => { q with dhCount := q.dhCount + (total + 4095) / 4096 }) s)

/-- The space of a host source: a sealed buffer for a confidential lode. -/
def hostSrc (s : State) (l : Nat) (r : Rec) : DmaSpace :=
  if (lodeOf s l).conf then .sealed (rSrc r.bits) (rLen r.bits) (r.hdr.take 64) r.pos else .host (rSrc r.bits) r.pos

/-- The space of a host destination of `total` bytes. -/
def hostDst (l pos addr total : Nat) (s : State) : DmaSpace × State :=
  if (lodeOf s l).conf then
    let (h, s) := newSealed l total s
    (.sealed addr total h pos, s)
  else (.host addr pos, s)

/-- A transfer goes to a region DMA unit (kinds 1 copy, 2 convert, 3 fill). -/
def startTransfer (l kind : Nat) (r : Rec) (s : State) : State :=
  match opUnit s l r.pos with
  | none => finishRec l r.pos Err.unitRetired s
  | some u =>
    let b := r.bits
    let c := rConv b
    let v := convOf c
    let dlen := if kind = 2 then cvDlen c (rLen b) else rLen b
    let i1 := if kind = 3 ∨ rShost b then 0 else 1
    let i2 := if rDhost b then i1 else i1 + 1
    let i3 := if v.ss then i2 + 1 else i2
    let (dst, s) := if rDhost b then hostDst l r.pos (rDst b) dlen s else (resSpace r i1, s)
    let d : Dma := {
      owner := .record l r.pos, serial := s.cu.dmaNext, kind := kind, len := rLen b
      src := if kind = 3 then .nil else if rShost b then hostSrc s l r else resSpace r 0
      dst := dst, srcVa := rSrc b, dstVa := rDst b, dlen := dlen, ctx := rCtx b, lode := l, epoch := epochTag s l, cls := rClass b
      deadline := carried s (rClass b) (if rDlrel b = 0 then none else some (nowTick s + rDlrel b)), fill := rPattern b
      conv := if kind = 2 then c else 0, sscale := if kind = 2 ∧ v.ss then resSpace r i2 else .nil
      dscale := if kind = 2 ∧ v.ds ≠ 0 then resSpace r i3 else .nil
      arrLen := if kind = 2 ∧ v.ds = 1 then cvDspan c (rLen b) else 0, arrVa := if kind = 2 then cvDva c else 0
      gen := if kind = 2 then cvSeed c else 0 }
    setDma u (dmaOf s u ++ [d]) (modCu (fun k => { k with dmaNext := k.dmaNext + 1 }) s)

def execOpCopy (l pos : Nat) (s : State) : Host.Outcome State Fault Refusal := dispatch l pos 2 s (startTransfer l 1)
def execOpConvert (l pos : Nat) (s : State) : Host.Outcome State Fault Refusal := dispatch l pos 3 s (startTransfer l 2)
def execOpFill (l pos : Nat) (s : State) : Host.Outcome State Fault Refusal := dispatch l pos 4 s (startTransfer l 3)

/-! ### Memory-side reduction (R258, R259, R399) -/

/-- The command fails at a chunk: the rest of its destination is lost (R418). -/
def reduceFail (l : Nat) (r : Rec) (err : Nat) (s : State) : State := finishRec l r.pos err (loseReduce l r.pos err (resFault l r err s))

/-- Merges a chunk's source into its destination in lode memory. -/
def reduceInto (l : Nat) (r : Rec) (n : Nat) (src : List Byte) (s : State) : Except Nat State :=
  let sp := resSpace r (if rShost r.bits then 0 else 1)
  (rdSpace s l sp r.moved n).bind fun d =>
    (wrSpace l (rClass r.bits) sp r.moved (mergeBytes (rRop r.bits) (rEfmt r.bits) d src) s).map fun s => chargeHbm (rCtx r.bits) (2 * n) s

/-- Goes on with a reduction, chunk by chunk of 4 KiB, until it ends or waits for host memory. `consts` holds the chunk's source. -/
def reduceGo (l pos : Nat) : Nat → State → State
  | 0, s => s
  | fuel + 1, s =>
    match recOf s l pos with
    | none => s
    | some r =>
      let b := r.bits
      let n := min 4096 (rLen b - r.moved)
      if r.stage ≠ 2 then s
      else if n = 0 then finishRec l pos 0 s
      else if r.stale then reduceFail l r Err.objectFreed s
      else if rShost b ∧ r.consts.isEmpty then (fetchHost l (hostSrc s l r) r.moved n (.reduceSrc l pos) s).getD s
      else match if rShost b then .ok r.consts else rdSpace s l (resSpace r 0) r.moved n with
        | .error e => reduceFail l r e s
        | .ok src =>
          if rDhost b then
            let sp : DmaSpace := if (lodeOf s l).conf then .sealed (rDst b) (rLen b) ((r.hdr.drop (if rShost b then 64 else 0)).take 64) pos else .host (rDst b) pos
            (fetchHost l sp r.moved n (.reduceDst l pos) (modRec l pos (fun r => { r with consts := src }) s)).getD s
          else match reduceInto l r n src s with
            | .error e => reduceFail l r e s
            | .ok s => reduceGo l pos fuel (modRec l pos (fun r => { r with moved := r.moved + n, consts := [], wrote := true }) s)

/-- Chunks of a reduction, and one more for its end. -/
def reduceFuel (r : Rec) : Nat := rLen r.bits / 4096 + 2

/-- Op 5. A confidential lode's host target is sealed again under a new header (R389), kept after the headers it was read with. -/
def execOpReduce (l pos : Nat) (s : State) : Host.Outcome State Fault Refusal :=
  dispatch l pos 5 s fun r s =>
    let s := if (lodeOf s l).conf ∧ rDhost r.bits then
        let (h, s) := newSealed l (rLen r.bits) s
        modRec l pos (fun x => { x with hdr := x.hdr ++ h }) s
      else s
    reduceGo l pos (reduceFuel r) s

/-- A chunk of a reduction's source has come from host memory. -/
def reduceSrcData (l pos : Nat) (bs : List Byte) (s : State) : State :=
  match recOf s l pos with
  | none => s
  | some r => reduceGo l pos (reduceFuel r) (chargeHost (rCtx r.bits) bs.length (modRec l pos (fun r => { r with consts := bs }) s))

/-- A chunk of a reduction's host target has come: the merged chunk is written back. -/
def reduceDstData (l pos : Nat) (bs : List Byte) (s : State) : State :=
  match recOf s l pos with
  | none => s
  | some r =>
    if r.stage ≠ 2 then s
    else if r.stale then reduceFail l r Err.objectFreed s else
    let b := r.bits
    let sp : DmaSpace := if (lodeOf s l).conf then .sealed (rDst b) (rLen b) (r.hdr.drop (r.hdr.length - 64)) pos else .host (rDst b) pos
    let s := chargeHost (rCtx b) (2 * bs.length) s
    match wrSpace l (rClass b) sp r.moved (mergeBytes (rRop b) (rEfmt b) bs r.consts) s with
    | .error e => reduceFail l r e s
    | .ok s => reduceGo l pos (reduceFuel r) (modRec l pos (fun r => { r with moved := r.moved + bs.length, consts := [], wrote := true }) s)

/-! ### Matmul (R99, R400, R103 to R111, R620) -/

/-- Reads `n` bytes of resource `i` of a record from byte `off`. -/
def resRead (s : State) (l : Nat) (r : Rec) (i off n : Nat) : Except Nat (List Byte) := rdSpace s l (resSpace r i) off n

/-- The index of each optional resource of a matmul, in the order of `mmResources`. -/
def mmIx (b : Nat) : Nat × Nat × Nat × Nat :=
  let m := if rMx b then 5 else 3
  let o := if rSparse b then m + 1 else m
  let bi := if rMxout b then o + 1 else o
  (m, o, bi, if 2 ≤ rBmode b then bi + 1 else bi)

/-- The epilogue row of C: element codes and scale bytes. Without stochastic rounding as the drain unit converts a row; with it, each
element takes the draw that the seed gives it. -/
def mmRow (b i c0 : Nat) (row : List Num) : List Nat × List Nat :=
  if rRnd b ≠ 1 then
    let r := arEncode (rOfmt b) (rRnd b) false (rMxout b) row 0
    (r.1, r.2.1)
  else
    let blks := if rMxout b then blocks32 (row.length / 32 + 1) row else [row]
    let sc (blk : List Num) : Option Nat := if rMxout b then some (mxScale (rOfmt b) blk) else none
    let draw (j : Nat) : Nat := Config.matmulDraw (rArg b 768 64) i (c0 + j) % 65536
    (blks.zipIdx.flatMap fun k => k.1.zipIdx.map fun x =>
        (encodeElem (rOfmt b) 1 (draw (k.2 * 32 + x.2)) false (sc k.1) x.1).1,
      if rMxout b then blks.map fun k => mxScale (rOfmt b) k else [])

/-- One output tile: rows from `r0`, columns from `c0`. -/
def mmTile (l : Nat) (r : Rec) (r0 c0 : Nat) (s : State) : Except Nat State :=
  let b := r.bits
  let rows := min 128 (rM b - r0)
  let cols := min 128 (rN b - c0)
  let k := rK b
  let isInt := ((mmaPair (rAfmt b) (rBfmt b)).map fun p => p.1).getD false
  let (im, io, ib, is') := mmIx b
  let get (i n stride len : Nat) (x0 : Nat) : Except Nat (List (List Byte)) :=
    (List.range n).mapM fun j => resRead s l r i ((x0 + j) * stride) len
  let opt (c : Bool) (x : Except Nat (List (List Byte))) : Except Nat (List (List Byte)) := if c then x else .ok []
  let vec (i mode : Nat) : Except Nat (List Byte) :=
    if mode = 2 then resRead s l r i (4 * r0) (4 * rows) else if mode = 3 then resRead s l r i (4 * c0) (4 * cols) else .ok []
  let ss := alignUp (k / 32) 16
  let ka := if rSparse b then k / 2 else k
  (get 0 rows (mmArow b) (elemBytes (rAfmt b) ka) r0).bind fun ra =>
  (get 1 cols (mmBrow b) (elemBytes (rBfmt b) k) c0).bind fun rb =>
  (opt (rMx b) (get 3 rows ss (k / 32) r0)).bind fun sa =>
  (opt (rMx b) (get 4 cols ss (k / 32) c0)).bind fun sb =>
  (opt (rSparse b) (get im rows (alignUp (k / 8) 16) (k / 8) r0)).bind fun mt =>
  (vec ib (rBmode b)).bind fun bv =>
  (vec is' (rSmode b)).bind fun sv =>
    let as' := ra.map fun x => (unpack (rAfmt b) ka x).map fun v => decodeElem (rAfmt b) v 0
    let bs := rb.map fun x => (unpack (rBfmt b) k x).map fun v => decodeElem (rBfmt b) v 0
    let epi := rEpi b
    let out := as'.zipIdx.map fun ai =>
      let row := bs.zipIdx.map fun bj =>
        let acc := (mmaElem isInt (rSparse b) (rMx b) false (s.free * 16384 + ai.2 * 128 + bj.2) (k / 32) (mt.getD ai.2 []) (sa.getD ai.2 [])
          (sb.getD bj.2 []) ai.1 bj.1 0).1
        (epilogue epi isInt (if rSmode b = 1 then some (rArg b 544 32) else vecEntry (rSmode b) sv ai.2 bj.2)
          (vecEntry (rBmode b) bv ai.2 bj.2) acc).1
      mmRow b (r0 + ai.2) c0 row
    let s := { s with free := s.free + 1 }
    let head := elemBytes (rOfmt b) c0
    out.zipIdx.foldlM (fun s o =>
      let i := r0 + o.2
      let data := pack (rOfmt b) o.1.1
      let data := if c0 + cols = rN b then padTo (mmCrow b - head) data else data
      (wrSpace l (rClass b) (resSpace r 2) (i * mmCrow b + head) data s).bind fun s =>
        if rMxout b then wrSpace l (rClass b) (resSpace r io) (i * alignUp (rN b / 32) 16 + c0 / 32) (o.1.2.map fun x => BitVec.ofNat 8 x) s
        else .ok s) s

/-- The rows of an output tile become undefined (R418). -/
def mmLose (l : Nat) (r : Rec) (r0 c0 : Nat) (s : State) : State :=
  let b := r.bits
  let cols := min 128 (rN b - c0)
  let head := elemBytes (rOfmt b) c0
  let n := if c0 + cols = rN b then mmCrow b - head else elemBytes (rOfmt b) cols
  each (List.range (min 128 (rM b - r0))) (fun i s =>
    let s := scrambleSpace l (resSpace r 2) ((r0 + i) * mmCrow b + head) n s
    if rMxout b then scrambleSpace l (resSpace r (mmIx b).2.1) ((r0 + i) * alignUp (rN b / 32) 16 + c0 / 32) (cols / 32) s else s) s

/-- Whether a block of the lode on this chip has an engine in service (R99). -/
def hasEngine (s : State) (l : Nat) : Bool := (blocksOf s l).any fun b => (List.range 4).any fun e => !(engineOf s b e).retired

/-- Op 6: every output tile; a tile that fails is listed by its indices and the others stand (R99, R418). When every engine has been retired
since the record was taken, no tile can be computed: each is lost (R121). Firmware's commands leave no trace in the engines beside their
results: operand stores, tiles, `ME_FLAGS` and `ME_CTL` stand as they were (log 25). -/
def execOpMatmul (l pos : Nat) (s : State) : Host.Outcome State Fault Refusal :=
  dispatch l pos 6 s fun r s =>
    let b := r.bits
    let tiles := (List.range ((rM b + 127) / 128)).flatMap fun i => (List.range ((rN b + 127) / 128)).map fun j => (i, j)
    let s := chargeHbm (rCtx b) ((r.res.map fun x => x.2.1).sum) s
    let able := hasEngine s l
    let s := each tiles (fun t s => match if able then mmTile l r (t.1 * 128) (t.2 * 128) s else .error Err.unitRetired with
      | .ok s => modRec l pos (fun x => { x with wrote := true }) s
      | .error e => addFailed l pos [(3, e, t.1 + t.2 * 65536, 1)] (mmLose l r (t.1 * 128) (t.2 * 128) (resFault l r e s))) s
    finishRec l pos (match (recOf s l pos).bind fun x => x.failed.head? with
      | some f => f.2.1
      | none => 0) s

/-! ### Signals (R410) -/

/-- Op 7: the signal itself follows with the record's end; `RESET` clears the error word first. -/
def execOpSignal (l pos : Nat) (s : State) : Host.Outcome State Fault Refusal :=
  dispatch l pos 7 s fun r s =>
    let a := r.fences.getD 0 0
    let s := if (rArg0 r.bits).testBit 16 ∧ a ≠ 0 then fencePut l a 8 8 0 s else s
    finishRec l pos (fld (rArg0 r.bits) 0 16) s

/-! ### Reads of host memory (R369, R387, R388, R396) -/

/-- Data that a reader waits for reaches it. -/
def hostData (next : HostReadFor) (bs : List Byte) (s : State) : State :=
  match next with
  | .dma u serial off _ =>
    match (dmaOf s u).find? fun d => d.serial = serial with
    | none => s
    | some d => if d.stale then staleReq u d s else match bounced u d (fun s => if d.kind = 2 then cvChunk u d (some (off, bs)) s else copyChunk u d bs s) s with
      | .ok t => t
      | .error e => stopReq u d e s
  | .reduceSrc l pos => reduceSrcData l pos bs s
  | .reduceDst l pos => reduceDstData l pos bs s
  | _ => s

/-- A data write fails: its command ends with the error, and lists what was not written (R369, R418). One whose completion is written is past
it (log 80). -/
def postFail (l pos : Nat) (lost : Nat × Nat × Nat × Nat) (s : State) : State :=
  match recOf s l pos with
  | none => s
  | some r =>
    let s := addFailed l pos [lost] s
    if r.stage = 2 then abortRec l pos Err.hostAccess s
    else if r.stage = 3 ∧ r.error = 0 then modRec l pos (fun r => { r with error := Err.hostAccess, wrote := true }) s else s

/-- A read fails: the reader's command ends, or the queue stops (R369, R396). -/
def hostFail (next : HostReadFor) (err : Nat) (failed : List (Nat × Nat × Nat × Nat)) (s : State) : State :=
  match next with
  | .dma u serial _ _ =>
    match (dmaOf s u).find? fun d => d.serial = serial with
    | none => s
    | some d =>
      let s := match d.owner with
        | .record l pos => addFailed l pos failed s
        | _ => s
      stopReq u d err s
  | .reduceSrc l pos | .reduceDst l pos => match recOf s l pos with
    | some r => if r.stage = 2 then reduceFail l r err (addFailed l pos failed s) else s
    | none => s
  | .post l pos lost => postFail l pos lost s
  | .sealedHdr l pos => match recOf s l pos with
    | some r => if r.stage = 5 then releaseCtx l (rCtx r.bits) (modRec l pos (fun r => { r with stage := 3, error := err }) s) else s
    | none => s
  | _ => s

/-- The DMA request that waits for a read waits for its follow-up read instead. -/
def waitsNow (next : HostReadFor) (id : Nat) (s : State) : State :=
  match next with
  | .dma u serial _ _ => match (dmaOf s u).find? fun d => d.serial = serial with
    | some d => modReq u d (fun x => { x with waitIds := [id] }) s
    | none => s
  | _ => s

/-- Chunks of a sealed buffer are opened: those whose tag fails are listed and not written (R388). -/
def openChunks (l : Nat) (hdr : List Byte) (first : Nat) (cipher tags : List Byte) (s : State) : List Byte × List Nat :=
  (List.range ((cipher.length + 4095) / 4096)).foldl (fun st i =>
    match Config.gcmOpen ((sessionKey s l).getD 0) 4 (sealedN hdr + first + i) (hdr ++ le 8 (first + i)) ((cipher.drop (4096 * i)).take 4096)
      ((tags.drop (16 * i)).take 16) with
    | some p => (st.1 ++ p, st.2)
    | none => (st.1 ++ List.replicate (min 4096 (cipher.length - 4096 * i)) 0, st.2 ++ [first + i])) ([], [])

/-- A device read of host memory, or a write whose outcome matters, completes or fails. -/
def hostReadDone (id : Nat) (ok : Bool) (data : List Byte) (s : State) : State :=
  match tget none s.hp.reads id with
  | none => s
  | some (len, what) =>
    let s := modHp (fun h => { h with reads := tset none h.reads id none }) s
    let bs := (padTo len data).take len
    match what with
    | .sqEntry l =>
      if ok ∨ (queueOf s l).state ≠ 1 then s
      else raiseLode l 0 (modQueue l (fun q => { q with state := 2, error := Err.hostAccess }) s)
    | .sealedHdr l pos => if ok then headerRead l pos bs s else hostFail what Err.hostAccess [] s
    | .cipher l addr total hdr first skip n next =>
      if !ok then hostFail next Err.hostAccess [] s
      else waitsNow next s.hp.readNext
        (hostRead l (addr + 64 + total + 16 * first) (16 * ((len + 4095) / 4096)) (.tags l hdr first skip n bs next) s)
    | .tags l hdr first skip n cipher next =>
      if !ok then hostFail next Err.hostAccess [] s
      else
        let (plain, bad) := openChunks l hdr first cipher bs s
        if bad.isEmpty then hostData next ((plain.drop skip).take n) s
        else hostFail next Err.confTag (bad.map fun i => (5, Err.confTag, i, 1)) s
    | .dirtyEntry l => if ok then s else setCoarse l s
    | _ => if ok then hostData what bs s else hostFail what Err.hostAccess [] s

def execHostReadCompletion (id : Nat) (ok : Bool) (data : List Byte) (s : State) : Host.Outcome State Fault Refusal :=
  run s (hostReadDone id ok data)

end Sys2Proof.Machine
end

