-- ==== Sys2Proof/Machine/Govern.lean ====
section
/-! DEFINITION. The points of blocks and regions: the voltage table, the DVFS sequencer and the governor (R487, R504 to R508), power
averages and budgets (R20, R509, R512), and the last step of chip start-up (R570 step 8). -/
namespace Sys2Proof.Machine
open Sys2Proof

/-! ### The voltage table in use (R504, R505) -/

/-- The highest point of the table in use. -/
def topPoint (s : State) : Nat := if s.pwr.vtFall then 3 else 7

def vpointOf (s : State) (r p : Nat) : VPoint := tget {} s.pwr.vtable (8 * r + p)

/-! ### Points (R487, R506) -/

/-- The blocks of sealed-share lodes. -/
def sealedCount (s : State) : Nat := ((List.range 96).filter (sealedBlock s)).length

/-- The pinned point of a sealed block: the highest whose rated power fits the block's part of `SEALED_W` (R487). -/
def pinnedPoint (s : State) (b : Nat) : Nat :=
  let ps := (List.range (topPoint s + 1)).filter fun p => decide ((vpointOf s (b / 12) p).pblock * sealedCount s ≤ 10 * s.img.applied.sealedW)
  ps.foldl max 0

/-- `REQ`: pinned for a sealed block. -/
def reqOf (s : State) (b : Nat) : Nat := if sealedBlock s b then pinnedPoint s b else (pblkOf s b).req

/-- `CAP`: power throttling never lowers a sealed block's (R506). -/
def capOf (s : State) (b : Nat) : Nat := if sealedBlock s b then 7 else (pblkOf s b).cap

/-- The effective point: the lowest of `REQ`, `CAP` and `TCAP`, behind the voltage (R506, R507). -/
def effPoint (s : State) (b : Nat) : Nat := min (min (reqOf s b) (capOf s b)) (min (pregOf s (b / 12)).tcap (pregOf s (b / 12)).vcur)

/-- The blocks of a region. -/
def regionBlocks (r : Nat) : List Nat := (List.range 12).map fun k => r * 12 + k

/-- `FLOOR`: the highest `REQ` of a region's blocks (R507). -/
def floorOf (s : State) (r : Nat) : Nat := ((regionBlocks r).map (reqOf s)).foldl max 0

/-- A new `VREQ`: the voltage moves to it; until it settles `VCUR` is the lower of the two points (R507). -/
def setVreq (r v : Nat) (s : State) : State :=
  if (pregOf s r).vreq = v then s else modPreg r (fun p => { p with vreq := v, ramp := true, vcur := min p.vcur v }) s

/-! ### The governor (R508) -/

/-- The point that the policy of its region gives a block. -/
def policyPoint (s : State) (b : Nat) : Nat :=
  let p := pregOf s (b / 12)
  let d := schedOf s (blockOf s b).lode
  if sealedBlock s b then pinnedPoint s b
  else min (topPoint s) (if p.policy = 1 then p.point else if (blockOf s b).lode ≠ 0x7F ∧ d.phase = 1 ∧ d.running ≠ 0xFFF then 7 else 0)

/-- The point that the governor wants for a block: no more than its `CAP` once that has stayed below for 1 ms. -/
def wantPoint (s : State) (b : Nat) : Nat := if (pblkOf s b).follow then min (policyPoint s b) (capOf s b) else policyPoint s b

/-- The governor acts on a region: the voltage rises first, or falls last (R507). -/
def govern (r : Nat) (s : State) : State :=
  let s := each (regionBlocks r) (fun b s => if (pblkOf s b).follow ∧ policyPoint s b ≤ capOf s b then modPblk b (fun p => { p with follow := false }) s else s) s
  let t := ((regionBlocks r).map (wantPoint s)).foldl max 0
  let s := if (pregOf s r).vreq < t then setVreq r t s else s
  let s := each (regionBlocks r) (fun b s => if sealedBlock s b then s else modPblk b (fun p => { p with req := min (wantPoint s b) (pregOf s r).vcur }) s) s
  if t < (pregOf s r).vreq then setVreq r t s else s

/-- The governor runs while `PWR_CTL.GOV` is 1, from step 8 of start-up on. -/
def governAll (s : State) : State := if s.pwr.gov ∧ s.chip.phase = 3 then each (List.range 8) govern s else s

/-- A region's governor alone. -/
def governRegion (r : Nat) (s : State) : State := if s.pwr.gov ∧ s.chip.phase = 3 then govern r s else s

/-! ### Power fractions (R20, R69, R509, R512) -/

/-- The budget of a fraction in W: 0 compute, 1 memory, 2 links, 3 platform. -/
def budget (s : State) (k : Nat) : Nat := s.img.applied.capW * [60, 22, 12, 6].getD k 0 / 100

/-- The average of a fraction over the last `n` samples. -/
def average (s : State) (n k : Nat) : Nat :=
  let xs := s.pwr.samples.drop (s.pwr.samples.length - n)
  (xs.map fun x => x.getD k 0).sum / max 1 xs.length

/-- The compute budget less what the platform fraction exceeds its own by (R512). -/
def computeBudget (s : State) : Nat := budget s 0 - (average s 10 3 - budget s 3)

/-! ### The end of chip start-up (R570 step 8) -/

/-- Every lode of the image is founded: the chip is ready, blocks of no lode go dark, the governor starts. -/
def startReady (s : State) : State :=
  if s.chip.phase = 2 ∧ s.chip.stage = 6 ∧ !(s.lm.ops.any fun o => decide (o.kind = .create)) then
    let s := modLm (fun m => { m with mapReady := true }) s
    let s := modChip (fun c => { c with phase := 3, stage := 7, fails := 0 }) s
    let s := each ((List.range 96).filter fun b => (blockOf s b).lode = 0x7F) (fun b => setDomain b 3) s
    governAll s
  else s

end Sys2Proof.Machine
end

