-- ==== Sys2Proof/Machine/Utwelas.lean ====
section
/-! DEFINITION. The Utwelas map protocol (chapter 12): heartbeats and loss (R348 to R350), two-phase changes (R351 to R353), pools and
ownership records (R355 to R361), and the fabric-manager verbs (R347, R362). -/
namespace Sys2Proof.Machine
open Sys2Proof

/-- The modules of a lode, this one included. -/
def membersOf (s : State) (l : Nat) : List Nat := if (lodeOf s l).members.isEmpty then [s.dr.devid] else (lodeOf s l).members

/-- The least of a list of device IDs. -/
def lowest (l : List Nat) : Nat := l.foldl min 0xFFFF

/-- The coordinator of a lode by global ID, as this module knows it: the lowest member, or the founding chip of a lode it does not
hold (R32, R344). -/
def coordOf (s : State) (gid : Nat) : Nat :=
  match findGid s gid with
  | some l => lowest (membersOf s l)
  | none => gid / 65536

/-! ### Pool epochs and ownership records (R354 to R361) -/

/-- Whether epoch `a` is later than `b` (R354). -/
def later (a b : Nat) : Bool := decide (1 ≤ (a + 2 ^ 32 - b % 2 ^ 32) % 2 ^ 32) && decide ((a + 2 ^ 32 - b % 2 ^ 32) % 2 ^ 32 < 2 ^ 31)

/-- A record reverts (R360): ownership returns, REVOKE goes out, the fence carries `E_REISSUED` with the checkpoint in its error
record, and the fabric manager is told (R363). -/
def revert (n : Nat) (s : State) : State :=
  let r := urecOf s n
  let s := modUrec n (fun r => { r with state := 3 }) s
  let s := sendUt [coordOf s r.receiver] { msg := 10, fromDev := 0, subject := r.receiver, reqseq := r.reqseq } s
  let s := emit (.notice 0x501 n Err.reissued) s
  match findGid s r.donor with
  | none => s
  | some l =>
    let (wrote, seq, s) := errRecord l { pos := 0, bits := 0, detail := [r.ckpt, r.reqseq] } Err.reissued s
    raiseLode l 3 (fenceNotice l r.fence.addr r.fence.val (errorWord Err.reissued wrote true false false seq) s)

/-- The sweep at a new pool epoch (R360, R582): records in states 2 and 3 become free, offers more than two epochs old revert. -/
def sweep (s : State) : State :=
  let p := s.ut.poolEpoch
  let s := modUt (fun u => { u with records := u.records.filter fun t => t.2.state = 1 }) s
  each (s.ut.records.map (·.1)) (fun n s => if 2 < (p + 2 ^ 32 - (urecOf s n).base) % 2 ^ 32 then revert n s else s) s

/-- A pool epoch is learned: a later one is taken and its sweep follows. -/
def learn (e : Nat) (s : State) : State := if later e s.ut.poolEpoch then sweep (modUt (fun u => { u with poolEpoch := e }) s) else s

/-- The coordinator raises its pool's epoch and tells the members (R355). -/
def raisePool (body : List Nat) (s : State) : State :=
  let s := modUt (fun u => { u with poolEpoch := (u.poolEpoch + 1) % 2 ^ 32 }) s
  sweep (sendUt (s.ut.poolMembers.filter (· ≠ s.dr.devid)) { msg := 12, fromDev := 0, subject := s.ut.pool, epoch := s.ut.poolEpoch, body := body } s)

/-! ### Heartbeats (R348) -/

/-- The lodes this module shares with a device. -/
def shared (s : State) (d : Nat) : List Nat := (lodes s).filter fun l => (lodeOf s l).members.contains d

/-- The modules this one sends heartbeats to. -/
def peersOf (s : State) : List Nat :=
  let pool := if s.ut.poolCoord then s.ut.poolMembers else if s.ut.poolMembers.isEmpty then [] else [lowest s.ut.poolMembers]
  (((lodes s).flatMap fun l => (lodeOf s l).members) ++ pool).dedup.filter (· ≠ s.dr.devid)

def execHeartbeatSend (s : State) : Host.Outcome State Fault Refusal :=
  run s fun s =>
    if !s.dr.assigned then s
    else each (peersOf s) (fun d s => sendUt [d] {
      msg := 1, fromDev := 0, subject := s.ut.pool, epoch := s.ut.poolEpoch, body := [s.ut.pool, s.ut.poolEpoch, (shared s d).length] } s) s

/-- A heartbeat: the peer is known and present again; one of the own pool carries its epoch (R355). -/
def execUtHeartbeat (m : UtMsg) (s : State) : Host.Outcome State Fault Refusal :=
  run s fun s =>
    let s := modPeer m.fromDev (fun p => { p with known := true, lost := false, pool := m.body.getD 0 0 }) s
    if m.body.getD 0 0 = s.ut.pool then learn m.epoch s else s

/-! ### Two-phase changes (R351 to R353) -/

/-- This chip leaves a lode that goes on elsewhere with the modules `devs`, or ends everywhere: its part is destroyed (R55). Its serial stays
taken while the lode exists (R32). -/
def leaveLode (l : Nat) (devs : List Nat) (via : Option Via) (s : State) : State :=
  let g := (lodeOf s l).gid
  let s := wh (!devs.isEmpty && decide (g / 65536 = foundDev s)) (modLm fun m => { m with founded := g % 65536 :: m.founded }) s
  startDestroy l via (setMembers l [s.dr.devid] (raiseEpoch l s))

/-- An aborted change (R352): its operation ends with the error; what R18 ranks above rebinding is asked for again. -/
def giveUp (l : Nat) (c : Change) (err : Nat) (s : State) : State :=
  let s := setBegun false c s
  let again (s : State) : State := modLm (fun m => { m with waiting := m.waiting ++ [(l, c)] }) s
  match c with
  | .detach n _ | .attach n _ _ | .cutover n | .attachSet n _ | .credit n =>
    if (getOp s n).any fun o => decide (o.kind = .evacuate) then again s
    else endOp n (((getOp s n).map fun o => if o.stop ≠ 0 then o.stop else err).getD err) s
  | .members _ v | .extend _ _ _ _ _ v => answerOpt v err [] s
  | .adopt q => modUt (fun u => { u with adopts := u.adopts.filter fun a => a.2.2 ≠ q }) s
  | .remote _ _ _ => s
  | _ => again s

/-- Reads a list of counted items from words: the items and the rest. -/
def counted (ws : List Nat) : List Nat × List Nat :=
  match ws with
  | n :: t => (t.take n, t.drop n)
  | [] => ([], [])

/-- The resources that an extension's words name: device, blocks, sets, credits, modules; and what each module holds now. -/
def readExtend (ws : List Nat) : Nat × Nat × List Nat × List Nat × List Nat × List Nat :=
  let (sets, t) := counted (ws.drop 4)
  let (credits, t) := counted t
  let (devs, held) := counted t
  (ws.getD 0 0, ws.getD 1 0, sets, credits, devs, held)

/-- What the other modules hold of a lode, from the words of an extension. -/
def readHeld : List Nat → Tbl Held
  | d :: b :: n :: x :: t => tset {} (readHeld t) d { blocks := b, sets := n, idx := x }
  | _ => []

/-- The error of an extension onto this module (R343, R42, R43). -/
def extendErr (s : State) (gid mask : Nat) (sets credits : List Nat) : Nat :=
  let bs := bitsOf 96 mask
  firstErr [
    (sets.any (fun n => 192 ≤ n || (setOf s n).state = 0) || !sets.Nodup || decide (32 < credits.length) ||
      (bs.isEmpty && sets.isEmpty), Err.cmdFormat),
    ((findGid s gid).isSome, Err.resourceBusy),
    ((freeIndex s).isNone, Err.lodeLimit),
    (bs.any (fun b => (blockOf s b).state ≠ 0 || blockClaimed s b) || sets.any (fun n => (setOf s n).state ≠ 1 || setClaimed s n), Err.resourceBusy),
    (credits.zipIdx.any (fun up => 64 < portUnits s up.2 + up.1), Err.noCapacity)]

/-- Phase 1 of an extension on the new module: the lode is forming and its resources are claimed. -/
def claimExtend (m : UtMsg) (l mask : Nat) (sets : List Nat) (devs : List Nat) (s : State) : State :=
  let conf := decide (m.body.getD 3 0 = 1)
  let s := modLode l (fun _ => { gid := m.subject, epoch := (m.epoch + 2 ^ 32 - 1) % 2 ^ 32, state := 1, home := false, homeDev := m.body.getD 4 0, conf := conf }) s
  let s := each (bitsOf 96 mask) (fun b => modBlock b fun x => { x with state := 4 }) s
  setMembers l devs (each sets (fun n => modSet n fun t => { t with state := 4 }) s)

/-- An aborted extension gives the claimed resources back (R352). -/
def dropExtend (l mask : Nat) (sets : List Nat) (s : State) : State :=
  let s := each (bitsOf 96 mask) (fun b => modBlock b fun x => { x with state := if x.state = 4 then 0 else x.state }) s
  let s := each sets (fun n => modSet n fun t => { t with state := if t.state = 4 then 1 else t.state }) s
  modLode l (fun _ => {}) s

/-- Phase 2 of an extension on the new module: its resources join; a confidential lode gets its transport slot (R453, R478). -/
def joinExtend (l mask : Nat) (sets credits : List Nat) (devs held : List Nat) (s : State) : State :=
  let s := modLode l (fun d => { d with others := readHeld held }) s
  let s := raiseEpoch l (modLode l (fun d => { d with state := 2 }) s)
  let s := modLode l (fun d => { d with prevLive := false, undrained := [] }) s
  let s := each ((bitsOf 96 mask).filter fun b => (blockOf s b).state = 4) (fun b => joinBlock l b none) s
  let s := each (sets.filter fun n => (setOf s n).state = 4) (fun n s => (joinSet l n s).2) s
  let s := each credits.zipIdx (fun up => setCredit l up.2 up.1) s
  setMembers l devs (if (lodeOf s l).conf then makeTransport l s else s)

/-- A member validates a change, installs phase 1 and replies PREPARED. -/
def execUtPrepare (m : UtMsg) (s : State) : Host.Outcome State Fault Refusal :=
  packetCmd (.utPrepare m) s fun s =>
    let reply (status idx : Nat) (s : State) : State :=
      sendUt [m.fromDev] { msg := 3, fromDev := 0, txn := m.txn, subject := m.subject, epoch := m.epoch, status := status, body := [status, idx] } s
    let prep (l : Nat) (s : State) : State :=
      modUt (fun u => { u with preps := u.preps ++ [{ coord := m.fromDev, txn := m.txn, lode := l, epoch := m.epoch, change := m.body }] }) s
    let kind := m.body.headD 0
    if kind = 11 then
      let mine := if m.body.getD 1 0xFFFF = s.dr.devid then decide (m.body.getD 2 0 = s.ut.pool)
        else s.ut.poolCoord && (m.body.drop 2).contains s.ut.pool
      if mine then reply 0 0xFF (prep 0xFF s) else reply Err.utAborted 0xFF s
    else if kind = 10 ∧ m.body.getD 1 0xFFFF = s.dr.devid then
      let (_, mask, sets, credits, devs, _) := readExtend m.body.tail
      let e := extendErr s m.subject mask sets credits
      match freeIndex s with
      | some l => if e ≠ 0 then reply e 0xFF s else reply 0 l (prep l (claimExtend m l mask sets devs s))
      | none => reply (if e = 0 then Err.lodeLimit else e) 0xFF s
    else match findGid s m.subject with
      | none => reply Err.lodeUnknown 0xFF s
      | some l =>
        if (lodeOf s l).frozen then reply Err.utQuorum 0xFF s
        else match m.body with
          | 13 :: dev :: n :: _ =>
            if dev ≠ s.dr.devid then reply 0 l (prep l s)
            else match s.ut.asked.find? fun a => decide (a.1 = n) && decide (a.2.1 = l) with
              | some a => reply 0 l (setBegun true a.2.2 (prep l s))
              | none => reply Err.utAborted 0xFF s
          | _ => reply 0 l (prep l s)

/-- A change that this module asked its coordinator for, by number: taken off the list. -/
def takeAsked (l n : Nat) (s : State) : Option Change × State :=
  match s.ut.asked.find? fun a => decide (a.1 = n) && decide (a.2.1 = l) with
  | some a => (some a.2.2, modUt (fun u => { u with asked := u.asked.erase a }) s)
  | none => (none, s)

/-- What this module asked a coordinator for that is gone is asked of the next one (R349). -/
def askAgain (l : Nat) (s : State) : State :=
  let mine := s.ut.asked.filter fun a => a.2.1 = l
  let s := modUt (fun u => { u with asked := u.asked.filter fun a => a.2.1 ≠ l }) s
  modLm (fun m => { m with waiting := mine.map (·.2) ++ m.waiting }) (each mine (fun a => setBegun false a.2.2) s)

/-- A module has moved into or out of the pool that this module coordinates (R356): the membership follows and the pool epoch rises. -/
def poolMoved (dev dest : Nat) (s : State) : State :=
  let ms := if s.ut.pool = dest then s.ut.poolMembers ++ [dev] else s.ut.poolMembers.filter (· ≠ dev)
  raisePool (1 :: ms) (modUt (fun u => { u with poolMembers := ms, poolCoord := ms.all fun d => decide (s.dr.devid ≤ d) }) s)

/-- The moved module's own part: it leaves its pool, as coordinator after telling the others, and knows nothing yet of the new one (R356). -/
def changePool (dest : Nat) (s : State) : State :=
  let s := wh s.ut.poolCoord (poolMoved s.dr.devid dest) s
  modUt (fun u => { u with pool := dest, poolCoord := false, poolMembers := [], poolEpoch := 0 }) s

/-- The coordinator of another pool, as heartbeats show that pool: its lowest known module (R355). -/
def poolHead (s : State) (pool : Nat) : List Nat :=
  match s.ut.peers.filter fun t => t.2.known && !t.2.lost && decide (t.2.pool = pool) with
  | [] => []
  | ts => [lowest (ts.map (·.1))]

/-- A member's part of a committed change (R351 step 5). -/
def memberCommit (p : Prep) (s : State) : State :=
  let s := modUt (fun u => { u with preps := u.preps.erase p }) s
  match p.change with
  | 11 :: ws => if ws.headD 0 = s.dr.devid then changePool (ws.getD 2 0) s else poolMoved (ws.headD 0) (ws.getD 2 0) s
  | 10 :: ws =>
    let (dev, mask, sets, credits, devs, held) := readExtend ws
    if dev = s.dr.devid then joinExtend p.lode mask sets credits devs held s
    else modLode p.lode (fun d => { d with others := tset {} d.others dev { blocks := (bitsOf 96 mask).length, sets := sets.length } })
      (setMembers p.lode devs (raiseEpoch p.lode s))
  | 8 :: devs =>
    if devs.contains s.dr.devid then
      let was := lowest (membersOf s p.lode)
      let s := setMembers p.lode devs (raiseEpoch p.lode s)
      if devs.contains was then s else askAgain p.lode s
    else leaveLode p.lode devs none s
  | 13 :: dev :: n :: ws =>
    if dev = s.dr.devid then match takeAsked p.lode n s with
      | (some c, s) => applyChange p.lode c s
      | (none, s) => raiseEpoch p.lode s
    else noteHeld p.lode dev ws (raiseEpoch p.lode s)
  | ws => noteHeld p.lode p.coord ws (raiseEpoch p.lode s)

/-- A member drops a prepared change (R352). A change it asked for itself is given up with its error; a retirement's is asked for again. -/
def memberAbort (p : Prep) (err : Nat) (s : State) : State :=
  let s := modUt (fun u => { u with preps := u.preps.erase p }) s
  match p.change with
  | 10 :: ws =>
    let (dev, mask, sets, _, _, _) := readExtend ws
    if dev = s.dr.devid then dropExtend p.lode mask sets s else s
  | 13 :: dev :: n :: _ =>
    if dev ≠ s.dr.devid then s
    else match takeAsked p.lode n s with
      | (some c, s) => giveUp p.lode c err s
      | (none, s) => s
  | _ => s

/-- The prepared change a message of a coordinator means: by transaction, or by lode and epoch after a takeover. -/
def prepOf (s : State) (m : UtMsg) : Option Prep :=
  s.ut.preps.find? fun p => (decide (p.coord = m.fromDev) && decide (p.txn = m.txn)) ||
    (decide (p.lode < 96) && decide ((lodeOf s p.lode).gid = m.subject) && decide (p.epoch = m.epoch))

/-- The end of a transaction's own change on the coordinator: phase 2 here, then the verb's answer (R351 step 6). -/
def finishTxn (t : Txn) (s : State) : State :=
  let s := modUt (fun u => { u with txns := u.txns.erase t }) s
  match t.mine with
  | none =>
    match t.change with
    | [11, dev, _, dest] =>
      let s := wh (dev ≠ s.dr.devid) (poolMoved dev dest) s
      answerOpt t.via 0 (enc [(4, if s.ut.pool = dest then t.info else s.ut.poolEpoch), (4, if s.ut.pool = dest then s.ut.poolEpoch else t.info)]) s
    | _ => s
  | some c =>
    let s := match c with
      | .members devs v =>
        if devs.contains s.dr.devid then answerOpt v 0 (enc [(4, t.epoch)]) (applyChange t.lode c s)
        else if devs.isEmpty then leaveLode t.lode devs v s
        else answerOpt v 0 (enc [(4, t.epoch)]) (leaveLode t.lode devs none s)
      | .extend dev _ _ _ _ v =>
        let s := modLode t.lode (fun d => { d with others := tmod {} d.others dev fun h => { h with idx := t.info } }) (applyChange t.lode c s)
        answerOpt v 0 (enc [(4, t.epoch), (1, t.info)]) s
      | _ => applyChange t.lode c s
    afterOps s

/-- The members' transaction has its answers: every member has committed or is lost. The two of a credit move end together (R53). -/
def settleTxn (num : Nat) (s : State) : State :=
  let ended (t : Txn) : Bool := decide (t.phase = 4) && t.devs.all (t.done.contains ·)
  match s.ut.txns.find? fun t => t.num = num with
  | some t =>
    if !ended t then s
    else match t.twin.bind fun k => s.ut.txns.find? fun x => x.num = k with
      | some x => if ended x then finishTxn t (modUt (fun u => { u with txns := u.txns.erase x }) s) else s
      | none => finishTxn t s
  | none => s

/-- A change is given up (R352): members remove the epoch, the verb ends with the error; a credit move's other change with it. -/
def abortTxn (t : Txn) (err : Nat) (s : State) : State :=
  let ts := t :: (t.twin.bind fun k => s.ut.txns.find? fun x => x.num = k).toList
  let s := each ts (fun t s =>
    sendUt t.devs { msg := 6, fromDev := 0, txn := t.num, subject := (lodeOf s t.lode).gid, epoch := t.epoch, body := [err] }
      (modUt (fun u => { u with txns := u.txns.erase t }) s)) s
  afterOps (match t.mine with
    | none => answerOpt t.via err [] s
    | some c => giveUp t.lode c err s)

def modTxn (num : Nat) (f : Txn → Txn) (s : State) : State :=
  modUt (fun u => { u with txns := u.txns.map fun t => if t.num = num then f t else t }) s

/-- A takeover has heard from every member in quorum (R353): COMMIT if any of them committed, ABORT otherwise. -/
def resolveTxn (num : Nat) (s : State) : State :=
  match s.ut.txns.find? fun t => t.num = num with
  | none => s
  | some t =>
    if t.phase ≠ 3 ∨ !(t.devs.all fun d => t.ready.contains d || t.done.contains d) then s
    else
      let s := modUt (fun u => { u with txns := u.txns.erase t }) s
      let own := s.ut.preps.find? fun p => p.lode = t.lode
      let e := (own.map (·.epoch)).getD t.epoch
      let yes := decide ((lodeOf s t.lode).epoch = e) || t.change.contains e
      let msg : UtMsg := { msg := if yes then 4 else 6, fromDev := 0, txn := t.num, subject := (lodeOf s t.lode).gid, epoch := e, body := [e] }
      let s := sendUt t.ready msg s
      let s := match own with
        | some p => if yes then memberCommit p s else memberAbort p Err.utAborted s
        | none => s
      afterOps s

/-- Every member of a change has replied: COMMIT goes out, for a credit move once both its changes are prepared (R35, R351 step 4). -/
def allPrepared (num : Nat) (s : State) : State :=
  let full (t : Txn) : Bool := decide (t.phase = 2) && t.devs.all (t.ready.contains ·)
  match s.ut.txns.find? fun t => t.num = num with
  | none => s
  | some t =>
    let other := t.twin.bind fun k => s.ut.txns.find? fun x => x.num = k
    if !full t ∨ other.any (fun x => !full x) then s
    else each (t :: other.toList) (fun t s =>
      sendUt t.devs { msg := 4, fromDev := 0, txn := t.num, subject := (lodeOf s t.lode).gid, epoch := t.epoch, body := [t.epoch, t.info] }
        (modTxn t.num (fun x => { x with phase := 4 }) s)) s

/-- PREPARED: with every member's consent the coordinator sends COMMIT, otherwise ABORT; during a takeover it counts the member as
prepared. -/
def execUtPrepared (m : UtMsg) (s : State) : Host.Outcome State Fault Refusal :=
  packetCmd (.utPrepared m) s fun s =>
    match s.ut.txns.find? fun t => decide (t.phase = 3) && decide ((lodeOf s t.lode).gid = m.subject) with
    | some t => resolveTxn t.num (modTxn t.num (fun x => { x with ready := x.ready ++ [m.fromDev], epoch := m.epoch }) s)
    | none => match s.ut.txns.find? fun t => decide (t.num = m.txn) && decide (t.phase = 2) with
      | none => s
      | some t =>
        if !(t.devs.contains m.fromDev) ∨ t.ready.contains m.fromDev then s
        else if m.status ≠ 0 then abortTxn t m.status s
        else
          let info := if m.body.getD 1 0xFF ≠ 0xFF then m.body.getD 1 0xFF else t.info
          let t' := { t with ready := t.ready ++ [m.fromDev], info := if t.change.headD 0 = 10 ∧ t.change.getD 1 0 = m.fromDev then info else t.info }
          let s := modTxn t.num (fun _ => t') s
          allPrepared t.num s

def execUtPrepareTimeout (num : Nat) (s : State) : Host.Outcome State Fault Refusal :=
  run s fun s => match s.ut.txns.find? fun t => decide (t.num = num) && decide (t.phase = 2) with
    | some t => abortTxn t Err.utAborted s
    | none => s

/-- A prepared change commits on this member, which reports it (R351 step 5). -/
def commitPrep (p : Prep) (s : State) : State :=
  let t := memberCommit p s
  let pe := if t.ut.poolCoord then t.ut.poolEpoch else s.ut.poolEpoch
  let gid := if p.lode < 96 then (lodeOf s p.lode).gid else s.ut.pool
  afterOps (sendUt [p.coord] { msg := 5, fromDev := 0, txn := p.txn, subject := gid, epoch := p.epoch, body := [0, pe] } t)

/-- Whether a prepared change is an extension onto this module, with its blocks and sets. -/
def ownExtend (s : State) (p : Prep) : Option (Nat × List Nat) :=
  match p.change with
  | 10 :: ws =>
    let (dev, mask, sets, _, _, _) := readExtend ws
    if dev = s.dr.devid then some (mask, sets) else none
  | _ => none

/-- COMMIT: the member installs phase 2 and reports; the epoch before the new previous one has drained by then. Resources that join a lode are
scrubbed first (R45): the module reports when they have joined (log 72). -/
def execUtCommit (m : UtMsg) (s : State) : Host.Outcome State Fault Refusal :=
  packetCmd (.utCommit m) s fun s => match prepOf s m with
    | none => s
    | some p => match ownExtend s p with
      | some (mask, sets) =>
        if s.lm.scrubs.any fun x => x.what = .extend p.coord p.txn then s
        else startScrub (if sets.isEmpty then 200 else 60000) 10 p.lode (.extend p.coord p.txn) (each sets wipeSet (each (bitsOf 96 mask) wipeBlock s))
      | none =>
        let s := match p.change with
          | 10 :: ws => modLode p.lode (fun d => { d with others := tmod {} d.others (ws.headD 0) fun h => { h with idx := m.body.getD 1 0xFF } }) (commitPrep p s)
          | _ => commitPrep p s
        s

/-- The scrub of an extension's resources on the new module has ended: they join. -/
def extendScrubbed (coord txn : Nat) (s : State) : State :=
  match s.ut.preps.find? fun p => decide (p.coord = coord) && decide (p.txn = txn) with
  | some p => commitPrep p s
  | none => s

/-- COMMITTED: a member has installed the change, or reports the previous epoch drained (R38), or answers a takeover. -/
def execUtCommitted (m : UtMsg) (s : State) : Host.Outcome State Fault Refusal :=
  packetCmd (.utCommitted m) s fun s =>
    let s := match findGid s m.subject with
      | some l =>
        if m.body.headD 0 = 1 ∧ !drained s l then
          let s := modLode l (fun d => { d with undrained := d.undrained.filter (· ≠ m.fromDev) }) s
          if drained s l then resumeDrained l (tellDrained l s) else s
        else s
      | none => s
    match s.ut.txns.find? fun t => decide (t.phase = 3) && decide ((lodeOf s t.lode).gid = m.subject) with
    | some t => resolveTxn t.num (modTxn t.num (fun x => { x with done := x.done ++ [m.fromDev], change := x.change ++ [m.epoch] }) s)
    | none => match s.ut.txns.find? fun t => decide (t.num = m.txn) && decide (t.phase = 4) && t.devs.contains m.fromDev with
      | some t => settleTxn t.num (modTxn t.num (fun x => { x with
          done := x.done ++ [m.fromDev]
          info := if x.mine.isNone ∧ (m.fromDev ≠ x.change.getD 1 0 ∨ x.devs.length = 1) then m.body.getD 1 0 else x.info }) s)
      | none => afterOps s

def execUtAbort (m : UtMsg) (s : State) : Host.Outcome State Fault Refusal :=
  packetCmd (.utAbort m) s fun s => match prepOf s m with
    | some p => afterOps (memberAbort p (m.body.headD Err.utAborted) s)
    | none => s

/-- TAKEOVER: the member answers with its state of the pending change (R353). -/
def execUtTakeover (m : UtMsg) (s : State) : Host.Outcome State Fault Refusal :=
  packetCmd (.utTakeover m) s fun s => match findGid s m.subject with
    | none => s
    | some l =>
      match s.ut.preps.find? fun p => p.lode = l with
      | some p =>
        let s := modUt (fun u => { u with preps := u.preps.map fun q => if q = p then { q with coord := m.fromDev } else q }) s
        sendUt [m.fromDev] { msg := 3, fromDev := 0, txn := p.txn, subject := m.subject, epoch := p.epoch, body := [0, 0xFF] } s
      | none => sendUt [m.fromDev] { msg := 5, fromDev := 0, subject := m.subject, epoch := (lodeOf s l).epoch, body := [0] } s

/-! ### Loss of a peer (R349, R350) -/

/-- Whether the modules left of a membership hold its quorum. -/
def quorum (all alive : List Nat) : Bool :=
  decide (all.length < 2 * alive.length) || (decide (all.length = 2 * alive.length) && alive.contains (lowest all))

/-- The window packets outstanding to a device end with `E_PEER_LOST` (R350). -/
def endToPeer (l dev : Nat) (s : State) : State :=
  let tags := (s.dr.out.filter fun w => decide (w.pkt.ddev = dev) && decide (w.pkt.slode = (lodeOf s l).gid)).map (·.rtag)
  each tags (fun t => takeResponse t 5 Err.peerLost []) s

/-- A module on the side without quorum freezes the lode (R349 step 3). -/
def freeze (l : Nat) (s : State) : State :=
  let s := modLode l (fun d => { d with frozen := true }) s
  emit (.notice 0x349 l Err.utQuorum) (raiseLode l 3 (failLode l Err.peerLost s))

/-- What the loss of a device means for one lode. -/
def lodeLoses (dev l : Nat) (s : State) : State :=
  let all := membersOf s l
  let alive := all.filter fun d => d ≠ dev && !(peerOf s d).lost
  let s := endToPeer l dev s
  if !quorum all alive then freeze l s
  else
    let s := each (s.ut.txns.filter fun t => decide (t.lode = l) && t.devs.contains dev) (fun t s =>
      if t.phase = 2 then abortTxn t Err.utAborted s
      else
        let s := modTxn t.num (fun x => { x with devs := x.devs.filter (· ≠ dev) }) s
        if t.phase = 3 then resolveTxn t.num s else settleTxn t.num s) s
    if lowest alive ≠ s.dr.devid then s
    else
      let others := alive.filter (· ≠ s.dr.devid)
      let s := if lowest all = dev then
          let d := lodeOf s l
          let s := askAgain l (modLode l (fun d => { d with coord := true, undrained := [] }) s)
          let n := s.ut.txnNext
          let s := sendUt others { msg := 7, fromDev := 0, subject := d.gid, epoch := d.epoch, body := [d.epoch, all.length] } s
          resolveTxn n (modUt (fun u => { u with txnNext := n + 1, txns := u.txns ++ [{ num := n, lode := l, epoch := 0, devs := others, change := [], phase := 3 }] }) s)
        else s
      commit l (.members alive none) s

/-- The own pool's part: without its coordinator the lowest member in quorum takes over, one epoch on (R355). -/
def poolLoses (dev : Nat) (s : State) : State :=
  if !s.ut.poolMembers.contains dev then s
  else
    let all := s.ut.poolMembers
    let alive := all.filter fun d => d ≠ dev && !(peerOf s d).lost
    if !quorum all alive then s
    else
      let s := modUt (fun u => { u with poolMembers := alive }) s
      if lowest alive = s.dr.devid then raisePool (1 :: alive) (modUt (fun u => { u with poolCoord := true }) s) else s

/-- A peer is declared lost, once. -/
def losePeer (dev : Nat) (s : State) : State :=
  if (peerOf s dev).lost ∨ dev = s.dr.devid then s
  else
    let s := modPeer dev (fun p => { p with lost := true }) s
    let s := emit (.notice 0x502 dev Err.peerLost) (event 0x502 5 0 dev Err.peerLost 0 none s)
    afterOps (poolLoses dev (each (shared s dev) (lodeLoses dev) s))

def execPeerLost (dev : Nat) (s : State) : Host.Outcome State Fault Refusal := run s (losePeer dev)

/-! ### Hand-off messages (R358 to R361) -/

/-- OFFER: the receiver lode's coordinator commits the adoption as a change of that lode. -/
def execUtOffer (m : UtMsg) (s : State) : Host.Outcome State Fault Refusal :=
  packetCmd (.utOffer m) s fun s => match findGid s m.subject with
    | none => s
    | some l =>
      if lowest (membersOf s l) ≠ s.dr.devid ∨ (lodeOf s l).frozen ∨ (lodeOf s l).state ≠ 2 then s
      else afterOps (commit l (.adopt m.reqseq) (modUt (fun u => { u with adopts := u.adopts ++ [(m.fromDev, l, m.reqseq)] }) s))

/-- ADOPTED: an offered record is acknowledged and its fence signalled; one already reverted is left, with an event (R361). -/
def execUtAdopted (m : UtMsg) (s : State) : Host.Outcome State Fault Refusal :=
  packetCmd (.utAdopted m) s fun s =>
    match s.ut.records.find? fun t => decide (t.2.reqseq = m.reqseq) && decide (t.2.receiver = m.subject) with
    | none => s
    | some (n, r) =>
      if r.state = 3 then event 0x501 3 0 n Err.reissued 0 (findGid s r.donor) s
      else if r.state ≠ 1 then s
      else
        let s := modUrec n (fun r => { r with state := 2, acked := m.epoch }) s
        match findGid s r.donor with
        | some l => signalFence l (some r.fence) s
        | none => s

/-- REVOKE: an adoption not yet committed is given up. -/
def execUtRevoke (m : UtMsg) (s : State) : Host.Outcome State Fault Refusal :=
  packetCmd (.utRevoke m) s fun s =>
    if !(s.ut.adopts.any fun a => a.2.2 = m.reqseq) then s
    else
      let s := modLm (fun k => { k with waiting := k.waiting.filter fun w => w.2 ≠ .adopt m.reqseq }) s
      let s := each (s.ut.txns.filter fun t => decide (t.mine = some (.adopt m.reqseq)) && decide (t.phase = 2)) (fun t => abortTxn t Err.utAborted) s
      if s.ut.txns.any fun t => t.mine = some (.adopt m.reqseq) then s
      else modUt (fun u => { u with adopts := u.adopts.filter fun a => a.2.2 ≠ m.reqseq }) s

/-! ### Joining and pools (R347, R355, R356) -/

/-- JOIN: a device ID that another module is known by is refused. -/
def execUtJoin (m : UtMsg) (s : State) : Host.Outcome State Fault Refusal :=
  packetCmd (.utJoin m) s fun s =>
    let serial := m.body.headD 0
    let p := peerOf s m.fromDev
    let taken := (decide (m.fromDev = s.dr.devid) && s.dr.assigned && decide (serial ≠ s.chip.serialNo)) || (p.known && decide (p.serial ≠ 0) && decide (p.serial ≠ serial))
    let s := if taken then s else modPeer m.fromDev (fun p => { p with known := true, serial := serial }) s
    sendUt [m.fromDev] { msg := 11, fromDev := 0, status := if taken then Err.utDevid else 0, body := [s.chip.serialNo] } s

/-- POOL: a tick, or the pool's members, from the pool coordinator. -/
def execUtPool (m : UtMsg) (s : State) : Host.Outcome State Fault Refusal :=
  packetCmd (.utPool m) s fun s =>
    if m.subject ≠ s.ut.pool then s
    else
      let s := match m.body with
        | 1 :: ms => modUt (fun u => { u with poolMembers := ms, poolCoord := ms.contains s.dr.devid && ms.all fun d => decide (s.dr.devid ≤ d) }) s
        | _ => s
      learn m.epoch s

def execPoolTick (s : State) : Host.Outcome State Fault Refusal := run s fun s => if s.ut.poolCoord then raisePool [0] s else s

/-- A neighbour's reply to JOIN (R347): a refusal takes the device ID back, in storage too, and is reported. -/
def execJoinReply (dev status : Nat) (s : State) : Host.Outcome State Fault Refusal :=
  run s fun s =>
    let s := if asleep s then modPwr (fun p => { p with wakeHeld := true }) s else s
    if status = Err.utDevid then
      emit (.notice 0x505 dev status) (modChip (fun c => { c with storedDev := none }) (modDr (fun d => { d with assigned := false, devid := 0 }) s))
    else modPeer dev (fun p => { p with known := true }) s

/-! ### The verbs (R362) -/

/-- UT_DEVID_SET: the ID is stored, and JOIN goes to each neighbour. -/
def execUtDevidSet (via : Via) (dev : Nat) (s : State) : Host.Outcome State Fault Refusal :=
  verb via 0x0500 s fun s =>
    if via ≠ .sideband then reject via Err.mbVerb s
    else if 16383 < dev then reject via Err.utDevid s
    else
      let s := modDr (fun d => { d with devid := dev, assigned := true }) s
      let s := modChip (fun c => { c with storedDev := some dev }) s
      let ns := ((List.range 32).filter fun p => portUp s p && decide ((portOf s p).peerDev ≠ 0xFFFF)).map fun p => (portOf s p).peerDev
      answer via 0 [] (sendUt ns.dedup { msg := 11, fromDev := 0, body := [s.chip.serialNo] } s)

/-- UT_POOL_MOVE at a pool coordinator: a two-phase change with the module and the other pool's coordinator (R356). -/
def execUtPoolMove (via : Via) (dev fromPool toPool : Nat) (s : State) : Host.Outcome State Fault Refusal :=
  verb via 0x0501 s fun s =>
    if 16383 < dev ∨ 65535 < fromPool ∨ 65535 < toPool ∨ fromPool = toPool then reject via Err.cmdFormat s
    else if !(s.ut.poolCoord && (decide (s.ut.pool = fromPool) || decide (s.ut.pool = toPool))) then reject via Err.utQuorum s
    else
      let n := s.ut.txnNext
      let devs := dev :: (poolHead s (if s.ut.pool = fromPool then toPool else fromPool)).filter (· ≠ dev)
      let s := modUt (fun u => { u with txnNext := n + 1, txns := u.txns ++ [{
        num := n, lode := 0xFF, epoch := s.ut.poolEpoch + 1, devs := devs, change := [11, dev, fromPool, toPool], via := some via }] }) s
      sendUt devs { msg := 2, fromDev := 0, txn := n, subject := fromPool, epoch := s.ut.poolEpoch, body := [11, dev, fromPool, toPool] } s

/-- A verb for a lode's coordinator: carried out there, forwarded otherwise. -/
def atCoord (via : Via) (l code : Nat) (args : List Nat) (f : State → State) (s : State) : State :=
  let c := lowest (membersOf s l)
  if c = s.dr.devid then f s else emit (.control c 2 (code :: viaNum via :: args)) s

/-- UT_LODE_EXTEND at the coordinator: a change of membership with the new module's resources. -/
def doExtend (via : Via) (l dev mask : Nat) (sets credits : List Nat) (s : State) : State :=
  if 16383 < dev ∨ dev = s.dr.devid ∨ 32 < credits.length then reject via Err.cmdFormat s
  else if !s.dr.assigned ∨ (lodeOf s l).gid / 65536 = 0xFFFF then reject via Err.drNoDevid s
  else if (membersOf s l).contains dev then reject via Err.resourceBusy s
  else if 16384 ≤ (membersOf s l).length then reject via Err.lodeLimit s
  else afterOps (commit l (.extend dev mask sets credits ((membersOf s l) ++ [dev]) (some via)) s)

def execUtLodeExtend (via : Via) (gid dev mask : Nat) (sets credits : List Nat) (s : State) : Host.Outcome State Fault Refusal :=
  verb via 0x0502 s fun s => match findLive s via gid with
    | .error e => reject via e s
    | .ok l => atCoord via l 0x0502 ([gid, dev, mask, sets.length] ++ sets ++ [credits.length] ++ credits) (doExtend via l dev mask sets credits) s

/-- UT_LODE_SHRINK at the coordinator. The home chip stays while it is the home. -/
def doShrink (via : Via) (l dev : Nat) (s : State) : State :=
  let ms := membersOf s l
  if !ms.contains dev then reject via Err.lodeUnknown s
  else if ms.length < 2 then reject via Err.lodeMinimum s
  else if dev = (lodeOf s l).homeDev then reject via Err.resourceBusy s
  else afterOps (commit l (.members (ms.filter (· ≠ dev)) (some via)) s)

def execUtLodeShrink (via : Via) (gid dev : Nat) (s : State) : Host.Outcome State Fault Refusal :=
  verb via 0x0503 s fun s => match findLive s via gid with
    | .error e => reject via e s
    | .ok l => atCoord via l 0x0503 [gid, dev] (doShrink via l dev) s

/-- UT_HANDOFF (R357, R358): a record in state 1 and an OFFER to the receiver's coordinator. -/
def execUtHandoff (via : Via) (reqseq donor receiver extent ckpt : Nat) (f : VFence) (s : State) : Host.Outcome State Fault Refusal :=
  verb via 0x0504 s fun s => match findLive s via donor with
    | .error e => reject via e s
    | .ok l =>
      if receiver = 0 ∨ !fenceFits s l f then reject via Err.cmdFormat s
      else match (List.range 4096).find? fun n => (urecOf s n).state = 0 with
        | none => reject via Err.utRecordsFull s
        | some n =>
          let c := coordOf s receiver
          let s := modUrec n (fun _ => {
            state := 1, dpool := s.ut.pool, rpool := if c = s.dr.devid then s.ut.pool else (peerOf s c).pool, base := s.ut.poolEpoch
            receiver := receiver, donor := donor, reqseq := reqseq, ckpt := ckpt, fence := f }) s
          answer via 0 [] (sendUt [c] { msg := 8, fromDev := 0, subject := receiver, reqseq := reqseq, body := [receiver, extent, ckpt] } s)

def execUtNotice (via : Via) (dev kind : Nat) (s : State) : Host.Outcome State Fault Refusal :=
  verb via 0x0505 s fun s =>
    if 16383 < dev ∨ (kind ≠ 1 ∧ kind ≠ 2) then reject via Err.cmdFormat s else answer via 0 [] (losePeer dev s)

/-- UT_RELEASE: the resources of a frozen lode are scrubbed and freed. -/
def execUtRelease (via : Via) (gid : Nat) (s : State) : Host.Outcome State Fault Refusal :=
  verb via 0x0506 s fun s => match findRun s via gid with
    | none => reject via Err.lodeUnknown s
    | some l => if !(lodeOf s l).frozen then reject via Err.queueState s else leaveLode l ((membersOf s l).filter (· ≠ s.dr.devid)) (some via) s

/-- UT_QUERY: members, coordinator, epoch, records in use. -/
def execUtQuery (via : Via) (isPool : Bool) (n : Nat) (s : State) : Host.Outcome State Fault Refusal :=
  verb via 0x0507 s fun s =>
    let res (ms : List Nat) (epoch : Nat) (s : State) : State :=
      answer via 0 (enc ([(2, ms.length)] ++ ms.map (fun d => (2, d)) ++ [(2, lowest ms), (4, epoch), (2, s.ut.records.length)])) s
    if isPool then (if n = s.ut.pool then res (if s.ut.poolMembers.isEmpty then [s.dr.devid] else s.ut.poolMembers) s.ut.poolEpoch s else reject via Err.cmdFormat s)
    else match findRun s via n with
      | none => reject via Err.lodeUnknown s
      | some l => res (membersOf s l) (lodeOf s l).epoch s

end Sys2Proof.Machine
end

