-- ==== Sys2Proof/Machine/QueueVerbs.lean ====
section
/-! DEFINITION. The ends of commands (R412, R421, R424), the queue verbs (R420, R426), context teardown (R423), scrub ends (R482), and
the fault ring's records and replies (R233 to R237). -/
namespace Sys2Proof.Machine
open Sys2Proof

/-! ### The end of a command (R412, R424) -/

/-- Whether a cancelled record's fence is left untouched: another live context's taken record signals it with a value at least as
high (R424). -/
def fenceSpared (s : State) (l : Nat) (r : Rec) : Bool :=
  let a := r.fences.getD 0 0
  decide (a ≠ 0) && (queueOf s l).recs.any fun x =>
    decide (rCtx x.bits ≠ rCtx r.bits) && decide ((ctxOf s (rCtx x.bits)).state ≠ 3) && decide (x.fences.getD 0 0 = a) &&
      decide (rSigVal r.bits ≤ rSigVal x.bits)

/-- The result of a launch on a member chip, as its home chip receives it: status, whether it wrote, detail, failed units. -/
def remoteResult (r : Rec) : List Nat :=
  [r.error, if r.wrote then 1 else 0, r.detail.length] ++ r.detail ++ r.failed.flatMap fun f => [f.1, f.2.1, f.2.2.1, f.2.2.2]

/-- A launch that was ended early leaves its blocks, and the images of its context. -/
def leaveRec (l pos : Nat) (s : State) : State :=
  let s := each (recBlocks s l pos) leaveBlock s
  each (ctxsOf s l) (fun c => modCtx c fun x => { x with
    images := x.images.map fun t => (t.1, t.2.map fun i => if i.launch = some (l, pos) then { i with launch := none } else i) }) s

/-- Ends a record that has ended (stage 3), and frees its descriptors' slots (R226). On a member chip the result goes to the home chip. -/
def endRec (l pos : Nat) (hostOk : Bool) (s : State) : State :=
  match recOf s l pos with
  | none => s
  | some r =>
    if r.stage ≠ 3 then s else
    let s := leaveRec l pos s
    if !(lodeOf s l).home then
      fitWaiting (emit (.control (r.remote.getD (lodeOf s l).homeDev) 8 ([(lodeOf s l).gid, pos] ++ remoteResult r))
        (modQueue l (fun q => { q with recs := q.recs.filter fun x => x.pos ≠ pos }) s))
    else
      let lost := r.error = Err.cancelled ∧ r.cancel = 2
      let s := if lost ∧ fenceSpared s l r then modRec l pos (fun x => { x with silent := true }) s else s
      fitWaiting (complete l pos (if lost then Err.producerLost else r.error) r.error hostOk s)

/-- Whether a cancelled record waits for a destroy or teardown to be drained (R420 step 3, R423 step 3). -/
def endWaits (s : State) (l : Nat) (r : Rec) : Bool :=
  decide (r.cancel ≠ 0) && ((decide (r.cancel = 2) && (ctxOf s (rCtx r.bits)).draining) || (decide (r.cancel = 1) && decide ((queueOf s l).state = 3)))

/-- The slice is quiesced: every context is saved, the lode takes no record, the verb completes with `SQ_HEAD` (R453 step 3). -/
def quiesced (l : Nat) (s : State) : State :=
  let via := (schedOf s l).quiesce.map (·.1)
  let s := modSched l (fun d => { d with phase := 4, running := 0xFFF, incoming := none, quiesce := none, guard := false }) s
  answerOpt via 0 (enc [(8, (queueOf s l).sqHead)]) s

/-- Every dispatched command of a lode that quiesces has ended: the loaded context is to stop. -/
def quiesceNext (l : Nat) (s : State) : State :=
  let d := schedOf s l
  if d.quiesce.isNone ∨ (queueOf s l).recs.any (fun r => decide (r.stage = 2) || decide (r.stage = 3)) then s
  else
    let s := if (lodeOf s l).home then each ((lodeOf s l).members.filter (· ≠ s.dr.devid)) (fun m => emit (.control m 1 [(lodeOf s l).gid, 0xFFF])) s else s
    if d.running = 0xFFF then quiesced l s
    else if d.phase ≤ 1 then modSched l (fun d => { d with phase := 2, incoming := none }) s
    else s

/-- A context that is no longer runnable is idle (R440); a quiesce may go on. -/
def afterEnd (l c : Nat) (s : State) : State :=
  let s := if (ctxOf s c).state = 0 ∨ runnable s c then s else modCtx c (fun x => { x with idle := true }) s
  quiesceNext l s

/-- COMMAND_END: an ended record whose work has drained gets its fence and completion (R412, R253, R263, R267). -/
def execCommandEnd (l pos : Nat) (hostOk : Bool) (s : State) : Host.Outcome State Fault Refusal :=
  run s fun s => match recOf s l pos with
    | some r =>
      if r.stage ≠ 3 || endWaits s l r || !workDone s l pos then s
      else afterEnd l (rCtx r.bits) (endRec l pos hostOk (if r.ran then chargeEnergy (rCtx r.bits) s else s))
    | none => s

/-! ### The queue verbs (R392, R396, R413, R420) -/

def execQueueSetup (via : Via) (gid sq cq eq sqLog cqLog eqLog first : Nat) (s : State) : Host.Outcome State Fault Refusal :=
  verb via 0x0100 s fun s => match findLive s via gid with
    | .error e => reject via e s
    | .ok l =>
      let q := queueOf s l
      if !(lodeOf s l).home then reject via Err.lodeUnknown s
      else if q.state ≠ 0 ∨ (lodeOf s l).pasid = 0 then reject via Err.queueState s
      else if sq % 4096 ≠ 0 ∨ cq % 4096 ≠ 0 ∨ eq % 4096 ≠ 0 ∨ sqLog < 6 ∨ 16 < sqLog ∨ cqLog < 6 ∨ 16 < cqLog ∨ eqLog < 4 ∨ 12 < eqLog then
        reject via Err.cmdFormat s
      else answer via 0 [] (modQueue l (fun q => { q with
        state := 1, error := 0, eqLost := false, undeliv := false, badTail := false, sqTail := first, sqHead := first
        cqTail := 0, cqHead := 0, undelPos := 0, eqProd := 0, eqCons := 0, sqAddr := sq, cqAddr := cq, eqAddr := eq
        sqLog := sqLog, cqLog := cqLog, eqLog := eqLog, mirror := [], fence := none }) s)

def execQueueDestroy (via : Via) (gid : Nat) (f : VFence) (s : State) : Host.Outcome State Fault Refusal :=
  verb via 0x0101 s fun s => match findLive s via gid with
    | .error e => reject via e s
    | .ok l =>
      let q := queueOf s l
      if q.state = 0 ∨ q.state = 3 then reject via Err.queueState s
      else if !fenceFits s l f then reject via Err.cmdFormat s
      else
        let s := modQueue l (fun q => { q with state := 3, fence := some f }) s
        answer via 0 [] (each (q.recs.map (·.pos)) (fun p => cancelRec l p 1) s)

/-- Steps 3 and 4 of R420. The fence waits for the teardowns that run (R421). -/
def execQueueDestroyDrained (l : Nat) (s : State) : Host.Outcome State Fault Refusal :=
  run s fun s =>
    let q := queueOf s l
    if q.state ≠ 3 || ((ctxsOf s l).any fun c => (ctxOf s c).draining) || q.recs.any (fun r => !workDone s l r.pos) then s
    else
      let s := each (q.recs.map (·.pos)) (fun p => endRec l p true) s
      let s := signalFence l q.fence s
      modQueue l (fun q => { q with
        state := 0, fence := none, recs := [], sqAddr := 0, cqAddr := 0, eqAddr := 0
        tagRings := tset none (tset none q.tagRings 0 none) 1 none }) s

def execQueueRestart (via : Via) (gid pos : Nat) (s : State) : Host.Outcome State Fault Refusal :=
  verb via 0x0102 s fun s => match findLive s via gid with
    | .error e => reject via e s
    | .ok l =>
      let q := queueOf s l
      if q.state ≠ 2 then reject via Err.queueState s
      else if pos < q.sqHead ∨ q.sqTail < pos then reject via Err.cmdFormat s
      else answer via 0 [] (readEntries l pos q.sqTail (modQueue l (fun q => { q with sqHead := pos, state := 1 }) s))

def execCqMirrorRead (via : Via) (gid pos : Nat) (s : State) : Host.Outcome State Fault Refusal :=
  verb via 0x0104 s fun s => match findVia s via gid with
    | none => reject via Err.lodeUnknown s
    | some l => match (queueOf s l).mirror.find? fun m => m.1 = pos with
      | some m => answer via 0 (le 32 m.2) s
      | none => reject via Err.queueState s

/-! ### Context teardown (R422 to R425) -/

def execCtxTeardown (via : Via) (c : Nat) (f : VFence) (s : State) : Host.Outcome State Fault Refusal :=
  verb via 0x0103 s fun s => match ctxLode s via c with
    | .error e => reject via e s
    | .ok l =>
      if !(lodeOf s l).home then reject via Err.lodeUnknown s
      else if !fenceFits s l f then reject via Err.cmdFormat s
      else answer via 0 [] (startTeardown c 0 (some f) s)

/-- Step 4: the context's receive windows and BAR4 windows close. -/
def closeWindows (c : Nat) (s : State) : State :=
  let mine := s.dr.rwt.filter fun w => w.2.valid && decide (w.2.ctx = c)
  let s := each mine (fun w s => signalFence w.2.lode w.2.fence s) s
  let s := modDr (fun d => { d with rwt := d.rwt.filter fun w => !(w.2.valid && decide (w.2.ctx = c)) }) s
  modHp (fun h => { h with ports := h.ports.map fun p => (p.1, { p.2 with wins := p.2.wins.filter fun w => w.2.ctx ≠ c }) }) s

/-- Vault slots that a context owns are zeroised with it (R463). -/
def wipeKeys (c : Nat) (s : State) : State :=
  modSec (fun k => { k with slots := (k.slots.map fun t =>
    if t.2.valid ∧ t.2.owner = 2 ∧ t.2.ownerId = c then (t.1, { gen := t.2.gen }) else t).filter fun t => t.2 ≠ {} }) s

/-- Step 6: the on-chip state of the lode's blocks when the context is loaded; its semaphores and barrier counts go too. -/
def wipeCtx (l c : Nat) (s : State) : State :=
  let s := wipeKeys c s
  if (schedOf s l).running ≠ c then s else
    let s := each (blocksOf s l) wipeBlock s
    let s := each (semsOfLode s l) (fun n => modSem n fun _ => {}) s
    let s := each (barsOfLode s l) (fun n => modBar n fun b => { target := b.target, next := b.next }) s
    modSched l (fun d => { d with running := 0xFFF, phase := 0, incoming := none }) s

def execCtxTeardownDrained (c : Nat) (s : State) : Host.Outcome State Fault Refusal :=
  run s fun s =>
    let x := ctxOf s c
    let l := x.lode
    let ps := ((queueOf s l).recs.filter fun r => rCtx r.bits = c).map (·.pos)
    if x.state ≠ 3 || !x.draining || ps.any (fun p => !workDone s l p) then s
    else
      let s := each ps (fun p => endRec l p true) s
      let s := closeWindows c s
      let s := invalidateRange l [c] 0 (2 ^ 55) s
      let s := wipeCtx l c s
      let s := startScrub 200 11 c (.ctx c) (modCtx c (fun x => { x with draining := false, images := [], rdma := [], sems := [], bars := [] }) s)
      quiesceNext l (if (schedOf s l).phase = 0 then decideTurn l s else s)

/-- Step 7: the counters go to the closed-context buffer (R450), the number is free, the fences are signalled. -/
def freeCtx (c : Nat) (s : State) : State :=
  let x := ctxOf s c
  if x.state ≠ 3 then s else
  let l := x.lode
  let mine := s.sch.closed.filter fun e => e.1 = l
  let rest := s.sch.closed.filter fun e => e.1 ≠ l
  let v := match x.endFences with
    | f :: _ => f.val
    | [] => 0
  let s := { s with sch := { s.sch with closed := rest ++ (mine ++ [(l, c, v, x.tally)]).drop (mine.length + 1 - 64) } }
  let s := modXlCtx c (fun _ => {}) s
  let s := modCtx c (fun _ => {}) s
  let s := modSched l (fun d => { d with incoming := if d.incoming = some c then none else d.incoming }) s
  each x.endFences (fun f => signalFence l (some f)) s

/-! ### The end of a scrub (R482, R485) -/

/-- The resource an event about a scrub names. -/
def scrubUnit (s : State) (w : ScrubFor) : Nat × Nat :=
  match w with
  | .op n => match getOp s n with
    | some o => match o.kind with
      | .blockMove => (3, o.blocks.headD 0)
      | .create => (10, o.slot)
      | _ => (5, 0)
    | none => (0, 0)
  | .destroy l => (10, l) | .ctx c => (11, c) | .blockReset b => (3, b) | .freeBlock b => (3, b) | .freeSet _ | .extend _ _ => (5, 0) | .regionReset r => (13, r)
  | .stranded ps => (5, ps.headD 0) | .syncPages ps _ _ => (8, ps.headD 0) | .saveSlot l _ _ => (10, l)

/-- A save slot is free again once it is scrubbed (R432, R482). -/
def dropSave (l set slot : Nat) (s : State) : State :=
  modLm (fun m => { m with save := tset [] m.save l ((tget [] m.save l).erase (set, slot)) }) s

/-- The resource is released to the step that waits for it. -/
def scrubRelease (w : ScrubFor) (s : State) : State :=
  match w with
  | .op n => scrubbedOp n s
  | .destroy l =>
    let op := s.lm.ops.find? fun o => decide (o.kind = .destroy) && decide (o.donor = l)
    let s := freeLode l s
    match op with
    | some o => answerOpt o.via 0 [] (modLm (fun m => { m with ops := m.ops.filter fun p => p.num ≠ o.num }) s)
    | none => s
  | .ctx c => freeCtx c s
  | .blockReset b => applyDeferred (fun u => blockOfUnit u = some b) (modBlock b (fun k => { k with resetting := false }) s)
  | .regionReset r =>
    let s := each (List.range 12) (fun i => modBlock (12 * r + i) fun k => { k with resetting := false }) s
    applyDeferred (fun u => regionOfUnit u = some r) (modRegion r (fun g => { g with resetting := false }) s)
  | .freeBlock b => stageWake (modBlock b (fun k => { k with state := if k.state = 4 then 0 else k.state }) s)
  | .freeSet n => stageWake (modSet n (fun t => { t with state := if t.state = 4 then 1 else t.state }) s)
  | .extend c n => extendScrubbed c n s
  | .stranded _ => s
  | .syncPages ps l via => pagesScrubbed ps l via s
  | .saveSlot l set slot => dropSave l set slot s

def execScrubEnd (id : Nat) (s : State) : Host.Outcome State Fault Refusal :=
  run s fun s => match s.lm.scrubs.find? fun x => x.id = id with
    | none => s
    | some x =>
      let u := scrubUnit s x.what
      let s := modLm (fun m => { m with scrubs := m.scrubs.filter fun y => y.id ≠ id }) s
      startReady (afterOps (scrubRelease x.what (event 0x90A 1 u.1 u.2 0 0 none s)))

/-! ### Faults: ring entries and replies (R233 to R237) -/

/-- A waiting agent gets its answer: it walks again, or its command or launch ends with `E_XL_FAULT`. -/
def answerFault (l : Nat) (f : FaultRec) (retry : Bool) (s : State) : State :=
  match f.agent with
  | .head _ pos => match recOf s l pos with
    | none => s
    | some r =>
      if r.stage ≠ 4 then s
      else if retry then fitRec l pos s
      else releaseCtx l (rCtx r.bits) (rejectRec l pos Err.xlFault s)
  | .coreAccess b c | .coreDma b c =>
    if !retry then abortRec l f.pos Err.xlFault s
    else if (coreOf s b c).wait = .fault f.fseq ∧ (blockOf s b).lode = l ∧ (schedOf s l).running = f.ctx then modCore b c (fun k => { k with wait := .none }) s
    else modCtx f.ctx (fun x => { x with images := x.images.map fun t => if t.1 = b then (t.1, t.2.map fun i => { i with
      cores := i.cores.map fun k => if k.1 = c ∧ k.2.wait = .fault f.fseq then (k.1, { k.2 with wait := .none }) else k }) else t }) s
  | .memctl _ => s
  | .member dev num _ _ _ => emit (.control dev 18 [(lodeOf s l).gid, num, if retry then 1 else 0]) s

/-- A fault leaves the list of waiting ones. -/
def dropFault (l fseq : Nat) (s : State) : State := modXlLode l (fun x => { x with faults := x.faults.filter fun f => f.fseq ≠ fseq }) s

/-- The oldest held record enters the ring when it has room; a failed host write counts as action 2 (R237). -/
def execFaultRecordWrite (l : Nat) (hostOk : Bool) (s : State) : Host.Outcome State Fault Refusal :=
  run s fun s =>
    let x := xlLodeOf s l
    match firstHeld x with
    | none => s
    | some f =>
      if !x.fqReady ∨ fqFull x then s
      else if hostOk then
        let n := (queueOf s l).fqCount
        let s := sealWrite l 2 n (x.fqAddr + x.fqProd % 1024 * 32) 1024 (faultBytes s f) s
        let s := modQueue l (fun q => { q with fqCount := n + 1 }) s
        let s := modXlLode l (fun x => { x with
          fqProd := (x.fqProd + 1) % 2 ^ 32
          faults := if resumable f.reason then x.faults.map fun g => if g.fseq = f.fseq then { g with written := true } else g
            else x.faults.filter fun g => g.fseq ≠ f.fseq }) s
        noteStall l (if x.fqProd = x.fqCons then raiseLode l 1 s else s)
      else
        let s := event 0x202 3 10 l Err.xlFault f.fseq (some l) (dropFault l f.fseq s)
        if resumable f.reason then answerFault l f false s else s

/-- Whether the agent of a fault stalls at it: a record, a core of a context loaded or switched out, or an agent of another chip. -/
def agentStalls (s : State) (l : Nat) (f : FaultRec) : Bool :=
  resumable f.reason && match f.agent with
  | .head _ pos => (recOf s l pos).any fun r => decide (r.stage = 4)
  | .coreAccess b c | .coreDma b c =>
    decide ((coreOf s b c).wait = .fault f.fseq) ||
      (ctxOf s f.ctx).images.any fun t => decide (t.1 = b) && t.2.any fun i => i.cores.any fun k => decide (k.1 = c) && decide (k.2.wait = .fault f.fseq)
  | .memctl _ => false
  | .member _ _ _ _ _ => (recOf s l f.pos).any fun r => decide (r.stage ≠ 3)

/-- An agent has stalled for 10 ms with its record held while the ring is full: its command keeps `E_FAULTQ_OVERFLOW`, its context is torn
down (R236, R422). The record stays held. -/
def execFaultqStallTimeout (l : Nat) (s : State) : Host.Outcome State Fault Refusal :=
  run s fun s =>
    let x := xlLodeOf s l
    match x.faults.find? fun f => !f.written && agentStalls s l f with
    | none => s
    | some f =>
      if !fqFull x then s
      else
        let s := modRec l f.pos (fun r => if r.stage = 3 then r else { r with error := Err.faultqOverflow }) s
        startTeardown f.ctx 0 none (modXlLode l (fun x => { x with fqOver := true }) s)

/-- A write of `XL_FQ_RESP` in the doorbell page of a lode's port: a reply that names no waiting fault is ignored. -/
def doFaultReply (p l fseq : Nat) (retry : Bool) (s : State) : State :=
  if !pageLive s p l then s
  else match (xlLodeOf s l).faults.find? fun f => f.written && decide (f.fseq = fseq) with
    | some f => answerFault l f retry (dropFault l fseq s)
    | none => s

def execFaultRetry (port l fseq : Nat) (s : State) : Host.Outcome State Fault Refusal :=
  run s (doFaultReply port l fseq true)
def execFaultFail (port l fseq : Nat) (s : State) : Host.Outcome State Fault Refusal :=
  run s (doFaultReply port l fseq false)

end Sys2Proof.Machine
end

