-- ==== Sys2Proof/Machine/Scheduling.lean ====
section
/-! DEFINITION. Contexts, turns, switches, save slots, the Tally and slice migration (R429 to R456). -/
namespace Sys2Proof.Machine
open Sys2Proof

/-! ### Contexts (R429 to R431) -/

/-- The reservation a context holds or is to hold at its next turn. -/
def resOf (x : Ctx) : Nat :=
  match x.newW with
  | some (_, _, _, r) => r
  | none => x.res

/-- Class tags reserved to sealed-share lodes other than `l` (R75, R430). -/
def sealedTags (s : State) (l : Nat) : Nat := ((lodes s).filter fun k => k ≠ l && (lodeOf s k).sealed).foldl (fun m k => m ||| (lodeOf s k).classes) 0

/-- Whether attributes break R430 for a context of a lode; `self` is the context itself, 4096 for a new one. -/
def attrBad (s : State) (l self weight defTag mask res : Nat) : Bool :=
  decide (weight = 0) || decide (65535 < weight) || decide (64 ≤ defTag) || decide (2 ^ 64 ≤ mask) || decide (255 < res) || !mask.testBit defTag ||
    (decide (res ≠ 0xFF) && (ctxsOf s l).any fun c => decide (c ≠ self) && decide (resOf (ctxOf s c) = res)) ||
    decide (mask &&& sealedTags s l ≠ 0) || ((lodeOf s l).sealed && decide (mask &&& (lodeOf s l).classes ≠ mask))

/-- The lowest free context number of the chip. -/
def freeCtxNo (s : State) : Option Nat := (List.range 4096).find? fun c => (ctxOf s c).state = 0

/-- Enters a context: its number, table root, attributes, and cleared counters. -/
def makeCtx (l c root : Nat) (x : Ctx) (s : State) : State :=
  modCtx c (fun _ => x) (modXlCtx c (fun _ => { valid := true, lode := l, root := root }) s)

def execCtxCreate (via : Via) (gid root weight defTag mask res : Nat) (s : State) : Host.Outcome State Fault Refusal :=
  verb via 0x0600 s fun s => match findLive s via gid with
    | .error e => reject via e s
    | .ok l =>
      if !(lodeOf s l).home then reject via Err.lodeUnknown s
      else if attrBad s l 4096 weight defTag mask res ∨ 2 ^ 25 ≤ root then reject via Err.cmdFormat s
      else match if 256 ≤ (ctxsOf s l).length then none else freeCtxNo s with
        | none => reject via Err.contextLimit s
        | some c =>
          if savesShort s l 1 0 then reject via Err.noCapacity s
          else answer via 0 (enc [(2, c)]) (makeCtx l c root { state := 1, lode := l, weight := weight, res := res, mask := mask, defcls := defTag } s)

/-- The context of this chip that stands for context `home` of the home chip. -/
def memberCtx (s : State) (l homeDev home : Nat) : Option Nat :=
  (ctxsOf s l).find? fun c => decide ((ctxOf s c).members = [(homeDev, home)])

/-- CTX_ROOT_SET on a member chip: a number of its own, reported to the home chip (control kind 11). -/
def doRootSet (l home root : Nat) (s : State) : Reply :=
  let dev := (lodeOf s l).homeDev
  match memberCtx s l dev home with
  | some c => (0, enc [(2, c)], modXlCtx c (fun x => { x with root := root }) s)
  | none => match if 256 ≤ (ctxsOf s l).length then none else freeCtxNo s with
    | none => deny Err.contextLimit s
    | some c =>
      if savesShort s l 1 0 then deny Err.noCapacity s
      else (0, enc [(2, c)], emit (.control dev 11 [(lodeOf s l).gid, home, s.dr.devid, c])
        (makeCtx l c root { state := 1, lode := l, weight := 1, mask := 2 ^ 64 - 1, members := [(dev, home)] } s))

def execCtxRootSet (via : Via) (c dev root : Nat) (s : State) : Host.Outcome State Fault Refusal :=
  verb via 0x0601 s fun s => match ctxLode s via c with
    | .error e => reject via e s
    | .ok l =>
      if (ctxOf s c).state = 3 then reject via Err.xlContext s
      else if !(lodeOf s l).home ∨ (dev ≠ s.dr.devid ∧ !(lodeOf s l).members.contains dev) then reject via Err.lodeUnknown s
      else if dev = s.dr.devid ∨ 2 ^ 25 ≤ root then reject via Err.cmdFormat s
      else emit (.control dev 2 [0x0601, viaNum via, (lodeOf s l).gid, c, root]) s

def execCtxSet (via : Via) (c weight defTag mask res : Nat) (s : State) : Host.Outcome State Fault Refusal :=
  verb via 0x0602 s fun s => match ctxLode s via c with
    | .error e => reject via e s
    | .ok l =>
      if (ctxOf s c).state = 3 then reject via Err.xlContext s
      else if !(lodeOf s l).home then reject via Err.lodeUnknown s
      else if attrBad s l c weight defTag mask res then reject via Err.cmdFormat s
      else answer via 0 [] (modCtx c (fun x => { x with newW := some (weight, defTag, mask, res) }) s)

/-! ### Save slots (R432, R433) -/

/-- Save slots that a lode's contexts need on this chip. -/
def savesNeeded (s : State) (l : Nat) : Nat := ((ctxsOf s l).length * (blocksOf s l).length + 27) / 28

/-- Save slots whose scrub runs: they are on their way out. -/
def savesLeaving (s : State) (l : Nat) : List (Nat × Nat) :=
  s.lm.scrubs.filterMap fun x => match x.what with
    | .saveSlot k set slot => if k = l then some (set, slot) else none
    | _ => none

/-- SCH_SAVE_RESERVE here: free slots are withdrawn in order of set and slot, or the last ones are scrubbed and released. -/
def doSaveReserve (l want : Nat) (s : State) : Reply :=
  let all := tget [] s.lm.save l
  let held := all.filter fun p => !(savesLeaving s l).contains p
  if held.length ≤ want then
    let more := ((setsOf s l).flatMap fun n => (freeSlots s l n).map fun k => (n, k)).take (want - held.length)
    if more.length < want - held.length then deny Err.noCapacity s
    else (0, enc [(2, want)], modLm (fun m => { m with save := tset [] m.save l (all ++ more) }) s)
  else if want < savesNeeded s l then deny Err.resourceBusy s
  else
    let s := each (held.drop want) (fun p s => startScrub 100000 10 l (.saveSlot l p.1 p.2)
      (each ((slotCells s p.1 p.2).map (·.1)) (fun o => putByte (slotAddr s p.1 p.2 o) 0)
        (each (slotPoison s p.1 p.2) (fun o => setPoison (slotAddr s p.1 p.2 o / 64) false) s))) s
    (0, enc [(2, want)], s)

def execSchSaveReserve (via : Via) (gid dev slots : Nat) (s : State) : Host.Outcome State Fault Refusal :=
  verb via 0x0603 s fun s => match findLive s via gid with
    | .error e => reject via e s
    | .ok l => onDev via l dev 0x0603 [gid, slots] (doSaveReserve l slots) s

def execSchLodeSet (via : Via) (gid quantum idle : Nat) (s : State) : Host.Outcome State Fault Refusal :=
  verb via 0x0604 s fun s => match findLive s via gid with
    | .error e => reject via e s
    | .ok l =>
      if quantum < 10 ∨ 1000 < quantum ∨ idle = 0 ∨ 255 < idle then reject via Err.cmdFormat s
      else answer via 0 [] (modSched l (fun d => { d with quantum := quantum, idle := idle }) s)

/-! ### The Tally (R450) -/

/-- The counters as `TAL_CTX` lays them out. -/
def tallyBytes (t : Tally) : List Byte :=
  enc [(8, t.meNs), (8, t.gcNs), (8, t.hbm), (8, t.drift), (8, t.host), (8, t.energy), (8, t.overNs), (4, t.turns), (4, t.overs)]

/-- TALLY_READ. A closed context is named by its number and the value of its teardown fence, `num` = number + 4,096 × value. -/
def execTallyRead (via : Via) (closed : Bool) (num : Nat) (clear : Bool) (s : State) : Host.Outcome State Fault Refusal :=
  verb via 0x0605 s fun s =>
    if closed then
      match s.sch.closed.find? fun e => decide (e.2.1 = num % 4096) && decide (e.2.2.1 = num / 4096) && (findVia s via (lodeOf s e.1).gid).isSome with
      | none => reject via Err.xlContext s
      | some e => answer via 0 (tallyBytes e.2.2.2) (if clear then
          { s with sch := { s.sch with closed := s.sch.closed.map fun x => if x.1 = e.1 ∧ x.2.1 = e.2.1 ∧ x.2.2.1 = e.2.2.1 then (x.1, x.2.1, x.2.2.1, {}) else x } }
        else s)
    else match ctxLode s via num with
      | .error e => reject via e s
      | .ok _ =>
        let x := ctxOf s num
        answer via 0 (tallyBytes x.tally ++ le 8 x.vtime) (if clear then modCtx num (fun x => { x with tally := {} }) s else s)

/-! ### Turns (R437 to R442) -/

/-- Charges a turn's time to a context's virtual time (R440). -/
def chargeV (c ns : Nat) (s : State) : State := modCtx c (fun x => { x with vtime := (x.vtime + ns * 65536 / max 1 x.weight) % 2 ^ 64 }) s

/-- Whether a lode takes its turns here: its home chip decides every turn (R434). -/
def decides (s : State) (l : Nat) : Bool := (lodeOf s l).home && decide ((schedOf s l).phase ≠ 4)

/-- A share turn ends after `QUANTUM`: when the decision stays with the same context, it is charged and begins another turn; another
context has it stopped, and its turn is charged when it has. -/
def execQuantumExpiry (l : Nat) (s : State) : Host.Outcome State Fault Refusal :=
  run s fun s =>
    let d := schedOf s l
    let own := decide ((slotRes s l).isSome) && decide (slotRes s l = some (ctxOf s d.running).res)
    if !decides s l ∨ d.phase ≠ 1 ∨ own ∨ lodeHeld s l then s
    else
      let t := chargeV d.running (d.quantum * 100000) s
      match choose t l with
      | none => s
      | some c => if c = d.running then decideTurn l t else preempt l c s

/-- The running context has been idle for `IDLE`: its turn ends (R435). How long the turn lasted is a free amount when no other
context takes the lode and nothing stops the context. -/
def execIdleExpiry (l : Nat) (s : State) : Host.Outcome State Fault Refusal :=
  run s fun s =>
    let d := schedOf s l
    if !decides s l ∨ d.phase ≠ 1 ∨ runnable s d.running then s
    else
      let s := modCtx d.running (fun x => { x with idle := true }) s
      match choose s l with
      | some c => preempt l c s
      | none =>
        let a := draw s
        modSched l (fun d => { d with phase := 0 }) (chargeV d.running a.1 a.2)

/-- The owner of the slot after the current one: none for share. -/
def nextRes (s : State) (l : Nat) : Option Nat :=
  match s.img.applied.cyclic.find? fun t => t.1 = (lodeOf s l).cyclic with
  | none => none
  | some (_, slots) =>
    let n := (schedOf s l).slot
    match slots[if slots.length ≤ n + 1 then 0 else n + 1]? with
    | some k => if k.share then none else some k.res
    | none => none

def hasTable (s : State) (l : Nat) : Bool := s.img.applied.cyclic.any fun t => t.1 = (lodeOf s l).cyclic

/-- The guard before a slot with another owner (R439). -/
def execCyclicGuard (l : Nat) (s : State) : Host.Outcome State Fault Refusal :=
  run s fun s =>
    let d := schedOf s l
    if !decides s l ∨ !hasTable s l ∨ nextRes s l = slotRes s l then s
    else if d.phase = 1 then modSched l (fun d => { d with phase := 2, incoming := none, guard := true }) s
    else s

/-- A slot begins: its reservation's context runs if it is runnable (R438). -/
def execCyclicSlotStart (l : Nat) (s : State) : Host.Outcome State Fault Refusal :=
  run s fun s => match s.img.applied.cyclic.find? fun t => t.1 = (lodeOf s l).cyclic with
    | none => s
    | some (_, slots) =>
      if !decides s l then s else
      let n := (schedOf s l).slot
      let s := modSched l (fun d => { d with slot := if slots.length ≤ n + 1 then 0 else n + 1, guard := false }) s
      let d := schedOf s l
      if d.phase = 0 then decideTurn l s
      else if d.phase = 1 then
        match (slotRes s l).bind fun k => (ctxsOf s l).find? fun c => decide ((ctxOf s c).res = k) && runnable s c with
        | some c => if c = d.running then s else preempt l c s
        | none => s
      else s

/-! ### The switch (R443 to R447) -/

/-- Charges a stopped turn: virtual time, overrun counters, and a record of an overrun above 200 µs (R442, R446). -/
def chargeTurn (l c ns overNs : Nat) (s : State) : State :=
  let s := chargeEnergy c (each (blocksOf s l) (chargeBlock · fun g => !g.queue.isEmpty) (chargeV c ns s))
  let s := if overNs = 0 then s else charge c (fun t => { t with overNs := satAdd 64 t.overNs overNs, overs := satAdd 32 t.overs 1 }) s
  if 200000 < overNs then event 0x601 3 11 c 0 (overNs / 1000) (some l) s else s

/-- The stopped context gives way (R444 steps 2 and 3): on a home chip to the context chosen now, elsewhere to the one ordered. The
same context goes on without a switch (R441). -/
def giveWay (l : Nat) (s : State) : State :=
  let d := schedOf s l
  let next := if !(lodeOf s l).home then d.incoming
    else if d.quiesce.isSome ∧ !((queueOf s l).recs.any fun r => decide (r.stage = 2) || decide (r.stage = 3)) then none
    else chooseFor s l (if d.guard then nextRes s l else slotRes s l)
  match next with
  | some c =>
    let s := if c = d.running then s else switchOut l d.running s
    if c = d.running then beginTurn l c s
    else modSched l (fun d => { d with phase := 3, incoming := some c }) (orderSwitch l c s)
  | none =>
    if d.quiesce.isSome then quiesced l (switchOut l d.running s)
    else if (lodeOf s l).home then modSched l (fun d => { d with phase := 0, incoming := none }) s
    else modSched l (fun d => { d with phase := 0, incoming := none, running := 0xFFF }) (switchOut l d.running s)

def execContextStopped (l chargedNs overrunNs : Nat) (s : State) : Host.Outcome State Fault Refusal :=
  run s fun s =>
    let d := schedOf s l
    if d.phase ≠ 2 ∨ (ctxOf s d.running).state = 3 ∨ !stopped s l d.running then s
    else giveWay l (chargeTurn l d.running chargedNs overrunNs s)

/-- A saved request of a region engine goes back to its unit, or to the one that took over its work (R444 step 5, R527). -/
def restoreDma (p : Nat × Dma) (s : State) : State :=
  if !(fcOf s ⟨4, p.1 - 96⟩).retired then setDma p.1 (dmaOf s p.1 ++ [p.2]) s
  else match rdmaFor s ((p.1 - 96) / 4) ((p.1 - 96) % 4) with
    | some e => let u := 96 + (p.1 - 96) / 4 * 4 + e
                setDma u (dmaOf s u ++ [p.2]) s
    | none => failDma p.2 Err.unitRetired s

/-- Whether a switch waits for a reset of a block that it loads: the image is loaded again after it (R19, R448). -/
def loadWaits (s : State) (l : Nat) : Bool := (blocksOf s l).any fun b => (blockOf s b).resetting || (regionOf s (b / 12)).resetting

/-- The switch is complete: the incoming context is loaded and resumes (R444 steps 4 and 5); one torn down meanwhile is not. -/
def execSwitchComplete (l ns : Nat) (s : State) : Host.Outcome State Fault Refusal :=
  run s fun s =>
    let d := schedOf s l
    if d.phase ≠ 3 ∨ loadWaits s l then s
    else
      let s := modSched l (fun d => { d with switches := (d.switches + 1) % 2 ^ 32, lastNs := ns % 2 ^ 32, incoming := none, running := 0xFFF, phase := 0 }) s
      match d.incoming.filter fun c => (ctxOf s c).state = 1 ∨ (ctxOf s c).state = 2 with
      | none => quiesceNext l (if (lodeOf s l).home then decideTurn l s else s)
      | some c =>
        let saved := (ctxOf s c).rdma
        let s := modCtx c (fun x => { x with rdma := [] }) (loadCtx l c s)
        let s := modSched l (fun d => { d with running := c, phase := 1 }) (applyAttrs c s)
        let s := modCtx c (fun x => { x with state := 2, tally := { x.tally with turns := satAdd 32 x.tally.turns 1 } }) s
        each saved restoreDma s

/-- A context that has not stopped 2 ms after the scheduled end is torn down (R447). -/
def execOverrunTeardown (l : Nat) (s : State) : Host.Outcome State Fault Refusal :=
  run s fun s =>
    let d := schedOf s l
    if d.phase ≠ 2 ∨ d.running = 0xFFF ∨ lodeHeld s l then s else startTeardown d.running Err.overrun none s

/-! ### Slices (R453, R454) -/

def execSliceQuiesce (via : Via) (gid deadline : Nat) (s : State) : Host.Outcome State Fault Refusal :=
  verb via 0x0606 s fun s => match findLive s via gid with
    | .error e => reject via e s
    | .ok l =>
      let d := schedOf s l
      if !(lodeOf s l).home then reject via Err.lodeUnknown s
      else if deadline ≠ 0 ∧ 10000 < deadline then reject via Err.cmdFormat s
      else if d.quiesce.isSome ∨ d.phase = 4 ∨ d.moving then reject via Err.queueState s
      else quiesceNext l (modSched l (fun d => { d with quiesce := some (via, if deadline = 0 then 100 else deadline) }) s)

/-- The deadline of a quiesce passes: the slice resumes unchanged (R454). -/
def execQuiesceTimeout (l : Nat) (s : State) : Host.Outcome State Fault Refusal :=
  run s fun s => match (schedOf s l).quiesce with
    | none => s
    | some (via, _) =>
      let d := schedOf s l
      let s := modSched l (fun d => { d with quiesce := none, phase := if d.phase = 2 ∧ d.incoming = none then 1 else d.phase }) s
      let s := reject via Err.rebindTimeout s
      if d.phase = 0 then decideTurn l s else s

/-- The record of a context as SLICE_MOVE sends it (control kind 12): its number on the destination, then attributes, V, counters, its
numbers on other members, semaphores and arrivals. -/
def ctxRecord (s : State) (l c dev : Nat) : List Nat :=
  let x := applyAttrs c s |> fun s => ctxOf s c
  let t := x.tally
  let ms := (s.dr.devid, c) :: x.members.filter fun m => m.1 ≠ dev
  [(lodeOf s l).gid, tget 0xFFF x.members dev, x.weight, x.defcls, x.mask, x.res, x.vtime,
    t.meNs, t.gcNs, t.hbm, t.drift, t.host, t.energy, t.overNs, t.turns, t.overs, ms.length] ++ ms.flatMap (fun m => [m.1, m.2]) ++
    [x.sems.length] ++ x.sems.flatMap (fun t => [t.1, t.2.value]) ++ x.bars.flatMap fun t => [t.1, t.2.arrivals]

/-- A held record under the number its context has on the destination. -/
def movedBits (s : State) (dev bits : Nat) : Nat :=
  let c := rCtx bits
  bits - c * 2 ^ 16 + tget 0xFFF (ctxOf s c).members dev * 2 ^ 16

/-- Releases the rings, the PASID and the windows of a slice (R453 step 5). -/
def releaseSlice (l : Nat) (s : State) : State :=
  let s := modQueue l (fun q => { q with state := 0, fence := none, sqAddr := 0, cqAddr := 0, eqAddr := 0, tagRings := [] }) s
  let s := modXlLode l (fun x => { x with fqReady := false, fqAddr := 0, fqProd := 0, fqCons := 0, fqOver := false, fqPeriod := false }) s
  let cs := ctxsOf s l
  let s := modHp (fun h => { h with ports := h.ports.map fun p => (p.1, { p.2 with wins := p.2.wins.filter fun w => !cs.contains w.2.ctx }) }) s
  modLode l (fun d => { d with pasid := 0 }) s

def execSliceMove (via : Via) (gid dev port : Nat) (s : State) : Host.Outcome State Fault Refusal :=
  verb via 0x0607 s fun s => match findLive s via gid with
    | .error e => reject via e s
    | .ok l =>
      let d := schedOf s l
      let own := decide (dev = s.dr.devid)
      if !(lodeOf s l).home then reject via Err.lodeUnknown s
      else if !own ∧ !(lodeOf s l).members.contains dev then reject via Err.lodeUnknown s
      else if 2 ≤ port ∨ (own ∧ (hostPorts s).length ≤ port) then reject via Err.cmdFormat s
      else if d.phase ≠ 4 then reject via Err.queueState s
      else if !own ∧ (ctxsOf s l).any (fun c => tget 0xFFF (ctxOf s c).members dev = 0xFFF) then reject via Err.xlContext s
      else
        let cs := ctxsOf s l
        let rs := (queueOf s l).recs
        if own then
          let s := releaseSlice l s
          let s := each cs (fun c => modCtx c fun x => { x with state := if x.state = 3 then 3 else 4 }) s
          answer via 0 [] (modSched l (fun d => { d with moving := true }) (modLode l (fun d => { d with port := port }) s))
        else
          let q := queueOf s l
          let s := each cs (fun c => emit (.control dev 12 (ctxRecord s l c dev))) s
          let s := emit (.control dev 13 ([gid, port, q.sqHead, q.errSeq] ++ rs.flatMap fun r => [r.pos, movedBits s dev r.bits])) s
          let s := releaseSlice l s
          let s := each cs (fun c => modCtx c fun x => { x with
            state := if x.state = 3 then 3 else 1, members := [(dev, tget 0xFFF x.members dev)], sems := [], bars := [], tally := {} }) s
          let s := modQueue l (fun q => { q with recs := [] }) s
          let s := modSched l (fun d => { d with phase := 0 }) s
          answer via 0 [] (modLode l (fun d => { d with home := false, homeDev := dev }) s)

/-- The destination takes the record of a context (control kind 12). -/
def takeCtxRecord (l : Nat) (a : List Nat) (s : State) : State :=
  match a with
  | c :: w :: dcl :: mask :: res :: v :: me :: gc :: hbm :: dr :: host :: en :: ov :: tu :: os :: nm :: rest =>
    let pairs : List Nat → List (Nat × Nat) := fun xs => (List.range (xs.length / 2)).map fun i => (xs.getD (2 * i) 0, xs.getD (2 * i + 1) 0)
    let ms := pairs (rest.take (2 * nm))
    let rest := rest.drop (2 * nm)
    let sems := pairs ((rest.drop 1).take (2 * rest.headD 0))
    let bars := pairs (rest.drop (1 + 2 * rest.headD 0))
    if (ctxOf s c).state = 0 ∨ (ctxOf s c).lode ≠ l then s
    else modCtx c (fun x => { x with
      state := if x.state = 3 then 3 else 4, weight := w, defcls := dcl, mask := mask, res := res, vtime := v
      tally := { meNs := me, gcNs := gc, hbm := hbm, drift := dr, host := host, energy := en, overNs := ov, turns := tu, overs := os }
      members := ms.foldl (fun t m => tset 0xFFF t m.1 m.2) []
      sems := sems.foldl (fun t p => tset {} t p.1 { value := p.2 }) x.sems
      bars := bars.foldl (fun t p => tset {} t p.1 { arrivals := p.2 }) x.bars }) s
  | _ => s

/-- The destination takes over the home role with the held records (control kind 13). -/
def takeHome (l : Nat) (a : List Nat) (s : State) : State :=
  match a with
  | port :: head :: errSeq :: rest =>
    let rs := (List.range (rest.length / 2)).map fun i => ({ pos := rest.getD (2 * i) 0, bits := rest.getD (2 * i + 1) 0 } : Rec)
    let s := modQueue l (fun q => { q with recs := rs, sqHead := head, sqTail := head, errSeq := errSeq }) s
    let s := modSched l (fun d => { d with phase := 4, moving := true, running := 0xFFF, incoming := none }) s
    modLode l (fun d => { d with home := true, homeDev := s.dr.devid, port := port, pasid := 0 }) s
  | _ => s

/-- SLICE_RESUME: contexts are runnable again; the held records are taken again first, in position order. A slice that was quiesced and
not moved resumes in the same way. -/
def execSliceResume (via : Via) (gid : Nat) (s : State) : Host.Outcome State Fault Refusal :=
  verb via 0x0608 s fun s => match findLive s via gid with
    | .error e => reject via e s
    | .ok l =>
      let d := schedOf s l
      if !(lodeOf s l).home then reject via Err.lodeUnknown s
      else if d.phase ≠ 4 ∨ (d.moving ∧ (queueOf s l).state ≠ 1) then reject via Err.queueState s
      else
        let s := modSched l (fun d => { d with phase := 0, moving := false }) s
        let s := each (ctxsOf s l) (fun c => modCtx c fun x => { x with state := if x.state = 4 then 1 else x.state }) s
        let s := each ((queueOf s l).recs.map (·.pos)) (fun p s => match recOf s l p with
          | some r =>
            if !d.moving ∨ r.stage = 3 then s
            else
              let e := recCheck s l r.bits
              if e ≠ 0 then rejectRec l p e s else fitRec l p (modRec l p (fun r => { r with stage := 0 }) s)
          | none => s) s
        answer via 0 [] (if (schedOf s l).phase = 0 then decideTurn l s else s)

end Sys2Proof.Machine
end

