-- ==== Sys2Proof/Machine/Power.lean ====
section
/-! DEFINITION. Power, clocks and thermal control (chapter 17): domains, chip states, the voltage and frequency writes, the power
loops, the thermal thresholds and the power verbs. -/
namespace Sys2Proof.Machine
open Sys2Proof

/-! ### Registers (R520) -/

/-- A temperature as eight bits of two's complement. -/
def degrees (t : Int) : Nat := wrapInt 8 t

def hottest (ts : List Int) : Int := ts.tail.foldl max (ts.headD 0)

def sensorOf (s : State) (n : Nat) : Int := tget 0 s.pwr.sensors n

/-- The junction sensors of a region: its blocks and its fabric (R514). -/
def regionSensors (r : Nat) : List Nat := regionBlocks r ++ (List.range 4).map fun k => 96 + 4 * r + k

/-- The headframe's two sensors. -/
def headSensors : List Nat := [128, 129]

/-- The HBM stacks of a region. -/
def regionStacks (r : Nat) : List Nat := (List.range 3).map fun k => 3 * r + k

def pwrStatus (s : State) : Nat :=
  s.pwr.chip % 4 + s.pwr.target % 4 * 4 + (if s.pwr.pending then 16 else 0) + s.pwr.throttle % 8 * 2 ^ 12 +
    (if (List.range 8).any fun r => decide ((pregOf s r).tcap < 7) || (pregOf s r).held then 2 ^ 16 else 0) +
    (if s.pwr.duty then 2 ^ 17 else 0) + (if s.pwr.vtFall then 2 ^ 18 else 0) + (if s.pwr.memLimit then 2 ^ 19 else 0) +
    degrees (hottest ((List.range 130).map (sensorOf s))) * 2 ^ 24

def pwrFrac (s : State) (k : Nat) : Nat := tget 0 s.pwr.steps k % 2 ^ 32 + average s 100 k % 2 ^ 16 * 2 ^ 32 + budget s k % 2 ^ 16 * 2 ^ 48

def pwrRegion (s : State) (r : Nat) : Nat :=
  let p := pregOf s r
  p.vreq % 8 + p.vcur % 8 * 8 + p.fabric % 4 * 2 ^ 6 + floorOf s r % 8 * 2 ^ 8 + (if p.ramp then 2 ^ 11 else 0) + p.tcap % 8 * 2 ^ 12 +
    (if p.held then 2 ^ 15 else 0) + degrees (hottest ((regionStacks r).map fun k => tget 0 s.pwr.hbmTemps k)) * 2 ^ 16 +
    degrees (hottest ((regionSensors r).map (sensorOf s))) * 2 ^ 24

def pwrBlock (s : State) (b : Nat) : Nat :=
  let d := (pblkOf s b).domain
  reqOf s b % 8 + capOf s b % 8 * 8 + effPoint s b % 8 * 2 ^ 6 + (if d = 1 then 0 else d % 4) * 2 ^ 10 + (if sealedBlock s b then 2 ^ 15 else 0)

/-- `HF_BOOT` (R579). -/
def hfBoot (s : State) : Nat :=
  s.chip.stage % 16 + (if s.sec.fw.inUse = 1 then 2 ^ 8 else 0) + s.chip.pcRet % 1024 * 2 ^ 12 + s.chip.fails % 4 * 2 ^ 32 + s.chip.bootErr % 2 ^ 16 * 2 ^ 48

/-- The notice of a condition that start-up meets carries `HF_BOOT` (R576). -/
def bootNotice (cause : Nat) (s : State) : State := emit (.notice 0x100 (hfBoot s) cause) s

/-! ### Domains (R496 to R499) -/

/-- BLOCK_RETENTION: an idle block goes into retention; one of no lode, its scrub ended, goes dark. -/
def execBlockRetention (b : Nat) (s : State) : Host.Outcome State Fault Refusal :=
  run s fun s =>
    let k := blockOf s b
    if (pblkOf s b).domain ≠ 0 ∨ k.launch.isSome ∨ k.resetting ∨ !(dmaOf s b).isEmpty then s
    else if k.lode ≠ 0x7F then setDomain b 2 s
    else if k.state = 0 ∨ k.state = 6 then setDomain b 3 s else s

/-- BRIDGE_CLOCK_GATE: a bridge that is on and has carried no flit for 1 µs. -/
def execBridgeClockGate (n : Nat) (s : State) : Host.Outcome State Fault Refusal :=
  run s fun s => if tget 0 s.pwr.bridges n = 0 then modPwr (fun p => { p with bridges := tset 0 p.bridges n 1 }) s else s

/-- CORE_CELL_CLOCK_GATE: a core that has exited, was stopped or stalls. -/
def execCoreCellClockGate (b c : Nat) (s : State) : Host.Outcome State Fault Refusal :=
  run s fun s => if (coreOf s b c).run = 1 ∧ (coreOf s b c).wait = .none then s else modCore b c (fun k => { k with gated := true }) s

/-- DOMAIN_WAKE: kind 0 a core's cell (block × 32 + core), 1 a block, 2 a region fabric, 3 a bridge, 4 an engine's cell (block × 4 +
engine). In Doze and Rest domains wake with the chip alone. -/
def execDomainWake (kind n : Nat) (s : State) : Host.Outcome State Fault Refusal :=
  run s fun s =>
    if asleep s then s
    else match kind with
      | 0 => if n / 32 < 96 then modCore (n / 32) (n % 32) (fun k => { k with gated := false }) s else s
      | 1 => if n < 96 then wakeBlock n s else s
      | 2 => if n < 8 then modPreg n (fun p => { p with fabric := 0 }) s else s
      | 3 => modPwr (fun p => { p with bridges := tset 0 p.bridges n 0 }) s
      | 4 => if n / 4 < 96 then modEngine (n / 4) (n % 4) (fun e => { e with gated := e.retired }) s else s
      | _ => s

/-! ### Chip states (R500 to R503) -/

/-- What makes a request for Doze or Rest wait (R501). -/
def sleepBusy (s : State) : Bool :=
  !s.lm.ops.isEmpty || !s.lm.scrubs.isEmpty || s.img.slots.session.isSome || s.sec.fw.session.isSome

/-- A request for Doze (1) or Rest (2): it waits while the chip is busy, otherwise entry begins. -/
def askSleep (state tick : Nat) (s : State) : State :=
  modPwr (fun p => { p with target := state, wakeAt := tick, pending := sleepBusy s, entering := !sleepBusy s }) s

def execPwrStateSet (via : Via) (state tick : Nat) (s : State) : Host.Outcome State Fault Refusal :=
  verb via 0x0800 s fun s =>
    if 2 < state then reject via Err.reservedEncoding s
    else if state = 0 then modPwr (fun p => { p with target := 0, wakeAt := 0, pending := false }) (answer via 0 [] s)
    else askSleep state tick (answer via 0 [] s)

/-- Whether nothing is left to do that keeps a chip from dozing on its own (R501). -/
def idleChip (s : State) : Bool :=
  !sleepBusy s && s.hp.side.isNone &&
    (hostPorts s).all (fun p => (List.range 8).all fun n => decide ((slotOf s p n).state ≠ 1)) &&
    (lodes s).all fun l => (ctxsOf s l).all (fun c => !runnable s c) && (decide ((queueOf s l).state ≠ 1) || decide ((queueOf s l).sqHead = (queueOf s l).sqTail))

def execAutoDozeExpiry (s : State) : Host.Outcome State Fault Refusal :=
  run s fun s => if s.pwr.autoDoze ≠ 0 ∧ s.chip.phase = 3 ∧ !asleep s ∧ idleChip s then askSleep 1 0 s else s

/-- Step 2 of R502 on a lode: its running context is preempted and saved. -/
def parkLode (l : Nat) (s : State) : State :=
  let d := schedOf s l
  let live := decide (d.running ≠ 0xFFF) && decide (d.phase ≠ 3)
  let s := if live ∧ d.phase ≠ 0 then
      let (ns, s) := draw s
      chargeTurn l d.running ns 0 s
    else s
  let s := if live then switchOut l d.running s else s
  modSched l (fun d => { d with phase := if d.phase = 4 then 4 else 0, running := 0xFFF, incoming := none, guard := false }) s

/-- Whether every running context has stopped at its boundaries. -/
def allStopped (s : State) : Bool := (lodes s).all fun l => decide ((schedOf s l).running = 0xFFF) || decide ((schedOf s l).phase = 3) || stopped s l (schedOf s l).running

/-- CHIP_SLEEP_ENTRY: the sequence of R502, once nothing it waits for is in progress. -/
def execChipSleepEntry (s : State) : Host.Outcome State Fault Refusal :=
  run s fun s =>
    if !(s.pwr.entering || (s.pwr.pending && !sleepBusy s)) || !allStopped s then s
    else
      let s := each (lodes s) parkLode s
      let s := each (List.range 96) (fun b s => setDomain b 3 (wipeBlock b s)) s
      let s := each (List.range 8) (fun r s => modPreg r (fun p => { p with fabric := s.pwr.target + 1 }) s) s
      let s := if s.pwr.target = 2 then each (List.range 8) (fun r => modRegion r fun g => { g with cache := [] }) s else s
      let s := modPwr (fun p => { p with chip := p.target, entering := false, pending := false, bridges := (List.range 7).map fun n => (n, 3) }) s
      each (List.range 32) fitWidth s

/-- WAKE_TICK: the tick named by PWR_STATE_SET is reached. -/
def execWakeTick (s : State) : Host.Outcome State Fault Refusal :=
  run s fun s => if s.pwr.wakeAt ≠ 0 ∧ s.pwr.wakeAt ≤ s.chip.tick ∧ asleep s then modPwr (fun p => { p with wakeHeld := true }) s else s

/-- LOWRATE_WAKE_EVENT (R315): in Run it widens the port when a full-width slot is free (R511); in Doze or Rest it wakes the chip. -/
def fullPorts (s : State) : List Nat := (List.range 32).filter fun p => (portOf s p).state = 2

def execLowrateWakeEvent (p : Nat) (s : State) : Host.Outcome State Fault Refusal :=
  run s fun s =>
    if (portOf s p).state ≠ 3 then s
    else if asleep s then modPwr (fun w => { w with wakeHeld := true }) s
    else if (fullPorts s).length < budget s 2 / 11 then modPort p (fun t => { t with state := 2, capLow := false, lanes := t.usable }) s
    else s

/-! ### Points (R506 to R508) -/

/-- A write that the sequencer discards: the error and the register it names. -/
def dvfsDiscard (isRegion : Bool) (n : Nat) : State → State := modPwr fun p => { p with dvfsErr := Err.dvfsOrder, dvfsReg := isRegion, dvfsIdx := n }

/-- A write of `VREQ`. The governor's hold discards a host's (R508). -/
def writeVreq (who : Writer) (r v : Nat) (s : State) : State :=
  if isHost who ∧ s.pwr.gov then s
  else if v < floorOf s r then dvfsDiscard true r s
  else setVreq r v s

/-- A write of `REQ`. -/
def writeReq (who : Writer) (b v : Nat) (s : State) : State :=
  if isHost who ∧ s.pwr.gov then s
  else if sealedBlock s b ∨ (pregOf s (b / 12)).vcur < v then dvfsDiscard false b s
  else modPblk b (fun p => { p with req := v }) s

def execVreqWrite (who : Writer) (r value : Nat) (s : State) : Host.Outcome State Fault Refusal :=
  powerCmd who 13 (0x00501000 + 0x10 * r) (if 8 ≤ r then 2 else if topPoint s < value % 8 then 8 else 0) s (writeVreq who r (value % 8))

def execReqWrite (who : Writer) (b value : Nat) (s : State) : Host.Outcome State Fault Refusal :=
  powerCmd who 13 (0x00502000 + 8 * b) (if 96 ≤ b then 2 else if topPoint s < value % 8 then 8 else 0) s (writeReq who b (value % 8))

def execVoltageSettled (r : Nat) (s : State) : Host.Outcome State Fault Refusal :=
  run s fun s => if (pregOf s r).ramp then governRegion r (modPreg r (fun p => { p with ramp := false, vcur := p.vreq }) s) else s

/-- GOVERNOR_CAP_FOLLOW: under policy 0, `CAP` has stayed below `REQ` for 1 ms. -/
def execGovernorCapFollow (b : Nat) (s : State) : Host.Outcome State Fault Refusal :=
  run s fun s =>
    if s.pwr.gov ∧ !sealedBlock s b ∧ (pregOf s (b / 12)).policy = 0 ∧ capOf s b < reqOf s b then
      governRegion (b / 12) (modPblk b (fun p => { p with follow := true }) s)
    else s

def execPwrPolicySet (via : Via) (region policy point : Nat) (s : State) : Host.Outcome State Fault Refusal :=
  verb via 0x0801 s fun s =>
    if 1 < policy then reject via Err.reservedEncoding s
    else if (8 ≤ region ∧ region ≠ 0xFF) ∨ topPoint s < point then reject via Err.cmdFormat s
    else
      let rs := if region = 0xFF then List.range 8 else [region]
      answer via 0 [] (governAll (each rs (fun r => modPreg r fun p => { p with policy := policy, point := point }) s))

/-- PWR_QUERY: `PWR_STATUS`, the regions, the blocks, the averages, the energies, the temperatures of every sensor and stack. -/
def execPwrQuery (via : Via) (s : State) : Host.Outcome State Fault Refusal :=
  verb via 0x0802 s fun s =>
    answer via 0 (enc ([(4, pwrStatus s)] ++ ((List.range 8).map fun r => (4, pwrRegion s r)) ++ ((List.range 96).map fun b => (4, pwrBlock s b)) ++
      ((List.range 4).map fun k => (2, average s 100 k)) ++ [(8, s.pwr.energy)] ++ ((List.range 4).map fun k => (8, tget 0 s.pwr.energyF k)) ++
      ((List.range 130).map fun n => (1, degrees (sensorOf s n))) ++ ((List.range 24).map fun n => (1, degrees (tget 0 s.pwr.hbmTemps n))))) s

/-! ### Power (R509 to R513) -/

/-- POWER_SAMPLE: the four fractions in W over the last 10 µs, and the input energy of the rails in µJ. -/
def execPowerSample (watts : List Nat) (inputUj : Nat) (s : State) : Host.Outcome State Fault Refusal :=
  run s fun s => governAll (modPwr (fun p => { p with
    samples := (p.samples ++ [(List.range 4).map fun k => watts.getD k 0]).drop (p.samples.length + 1 - 100)
    energy := p.energy + inputUj
    energyF := (List.range 4).foldl (fun t k => tset 0 t k (tget 0 t k + 10 * watts.getD k 0)) p.energyF }) s)

/-- One step of a throttle loop is counted. -/
def countStep (k : Nat) : State → State := modPwr fun p => { p with steps := tset 0 p.steps k ((tget 0 p.steps k + 1) % 2 ^ 32) }

/-- A loop's bit of `PWR_STATUS.THROTTLE`: entering or leaving throttling raises the vector (R377, R510). -/
def setThrottle (k : Nat) (on : Bool) (s : State) : State :=
  if s.pwr.throttle.testBit k = on then s
  else raiseAll 3074 (modPwr (fun p => { p with throttle := if on then p.throttle + 2 ^ k else p.throttle - 2 ^ k }) s)

/-- The blocks that the compute loop acts on. -/
def bulkBlocks (s : State) : List Nat := (List.range 96).filter fun b => !sealedBlock s b

/-- The compute loop lowers `CAP`, or limits duty when every point is 0 already. -/
def computeLower (s : State) : State :=
  let bs := (bulkBlocks s).filter fun b => decide (0 < effPoint s b)
  if bs.isEmpty then
    if s.pwr.duty then s
    else setThrottle 0 true (event 0x801 3 0 0 0 0 none (countStep 0 (modPwr (fun p => { p with duty := true, dutyStop := false }) s)))
  else setThrottle 0 true (countStep 0 (each bs (fun b => modPblk b fun p => { p with cap := p.cap - 1 }) s))

/-- What a raise of one point would add, in units of 0.1 W: the rated power at the new effective points less that at the old. -/
def raiseGain (s t : State) : Nat :=
  ((bulkBlocks s).map fun b => (vpointOf s (b / 12) (effPoint t b)).pblock - (vpointOf s (b / 12) (effPoint s b)).pblock).sum

/-- The compute loop raises: duty limiting ends first, then the caps by one point. -/
def computeRaise (s : State) : State :=
  let s := if s.pwr.duty then countStep 0 (modPwr (fun p => { p with duty := false, dutyStop := false }) s)
    else
      let bs := (bulkBlocks s).filter fun b => decide ((pblkOf s b).cap < 7)
      let t := each bs (fun b => modPblk b fun p => { p with cap := p.cap + 1 }) s
      if !bs.isEmpty ∧ (10 * average s 10 0 + raiseGain s t) * 100 < 950 * computeBudget s then countStep 0 t else s
  setThrottle 0 (s.pwr.duty || (bulkBlocks s).any fun b => decide ((pblkOf s b).cap < 7)) s

/-- COMPUTE_LOOP_STEP. `below1ms`: the average has stayed below 95 % of the budget for 1 ms. -/
def execComputeLoopStep (below1ms : Bool) (s : State) : Host.Outcome State Fault Refusal :=
  run s fun s =>
    if s.pwr.samples.isEmpty then s
    else if computeBudget s < average s 10 0 then computeLower s
    else if below1ms ∧ 100 * average s 10 0 < 95 * computeBudget s then computeRaise s else s

/-- DUTY_PHASE_CHANGE: under duty limiting issue stops for 1 µs and goes on for 3. -/
def execDutyPhaseChange (s : State) : Host.Outcome State Fault Refusal :=
  run s fun s => if s.pwr.duty then modPwr (fun p => { p with dutyStop := !p.dutyStop }) s else s

/-- MEMORY_LOOP_STEP: tier 3 falls by an eighth in every region, at none conforming service is limited; below the budget both come
back in the opposite order. -/
def execMemoryLoopStep (s : State) : Host.Outcome State Fault Refusal :=
  run s fun s =>
    let setAll (v : Nat) : State → State := each (List.range 8) fun r => modRegion r fun g => { g with tier3 := v }
    let t := (regionOf s 0).tier3
    if s.pwr.samples.isEmpty then s
    else if budget s 1 < average s 10 1 then
      if 0 < t then setThrottle 1 true (countStep 1 (setAll (t - 1) s))
      else if s.pwr.memLimit then s else countStep 1 (modPwr (fun p => { p with memLimit := true }) s)
    else if s.pwr.memLimit then countStep 1 (modPwr (fun p => { p with memLimit := false }) s)
    else if t < 8 then setThrottle 1 (decide (t + 1 < 8)) (countStep 1 (setAll (t + 1) s))
    else s

/-- Whether a sealed-share lode holds credit units on a port. -/
def sealedPort (s : State) (p : Nat) : Bool := (lodes s).any fun l => (lodeOf s l).sealed && decide (creditOf s l p ≠ 0)

/-- LINK_LOOP_STEP: `order` names ports by the bytes they carried in the last 1 ms, fewest first. Ports of sealed-share lodes stay at
full width; of the others, those in excess go into low-rate mode. -/
def execLinkLoopStep (order : List Nat) (s : State) : Host.Outcome State Fault Refusal :=
  run s fun s =>
    if asleep s then s
    else
      let ups := (List.range 32).filter (portUp s)
      let kept := ups.filter (sealedPort s)
      let s := each kept (fun p s => fitWidth p (modPort p (fun t => { t with capLow := false }) s)) s
      let full := (order ++ (List.range 32).filter fun p => !order.contains p).filter fun p => !kept.contains p && (fullPorts s).contains p
      let excess := full.take (full.length - (budget s 2 / 11 - kept.length))
      let s := each excess (fun p s => countStep 2 (fitWidth p (modPort p (fun t => { t with capLow := true }) s))) s
      setThrottle 2 ((List.range 32).any fun p => (portOf s p).capLow) s

/-! ### Heat (R514 to R518) -/

/-- Whether the region dies are powered (R578). -/
def diesOn (s : State) : Bool := decide (s.chip.phase = 3) || (decide (s.chip.phase = 2) && decide (3 ≤ s.chip.stage))

/-- Steps 1 and 2 of R517: issue stops, the commands in progress end with `E_THERMAL_SHUTDOWN`. -/
def shutdownBegin (s : State) : State :=
  if s.pwr.shutdown ≠ 0 then s
  else
    let s := modChip (fun c => { c with thermTrip := true }) (modPwr (fun p => { p with shutdown := 1 }) s)
    let s := emit (.notice 0x802 0 Err.thermalShutdown) (raiseAll 3074 s)
    each (lodes s) (fun l s => each (((queueOf s l).recs.filter fun r => r.stage = 2).map (·.pos)) (fun p => abortRec l p Err.thermalShutdown) s) s

/-- The temperature alarm at its level and, whatever that is, the shutdown of powered dies. -/
def overheat (s : State) : State := if diesOn s then shutdownBegin (alarm 2 s) else alarm 2 s

/-- A region is held at 105 °C; the hold ends, with `TCAP` 0, once every sensor reads 102 °C or less. -/
def holdRegion (r : Nat) (s : State) : State :=
  if !diesOn s then s
  else if !(pregOf s r).held ∧ (regionSensors r).any (fun n => decide (105 ≤ sensorOf s n)) then
    raiseAll 3074 (modPreg r (fun p => { p with held := true }) s)
  else if (pregOf s r).held ∧ (regionSensors r).all (fun n => decide (sensorOf s n ≤ 102)) then
    raiseAll 3074 (modPreg r (fun p => { p with held := false, tcap := 0 }) s)
  else s

/-- The region of a junction sensor: a block's, a fabric's; the headframe has none. -/
def sensorRegion (n : Nat) : Option Nat := if n < 96 then some (n / 12) else if n < 128 then some ((n - 96) / 4) else none

/-- THERMAL_SAMPLE: a junction sensor is read; the alarm and the shutdown follow a crossing of their thresholds. -/
def execThermalSample (sensor : Nat) (c : Int) (s : State) : Host.Outcome State Fault Refusal :=
  run s fun s =>
    let old := sensorOf s sensor
    let s := modPwr (fun p => { p with sensors := tset 0 p.sensors sensor c }) s
    let s := match sensorRegion sensor with
      | some r => holdRegion r s
      | none => s
    if 115 ≤ c ∧ old < 115 then overheat s
    else if c ≤ -25 ∧ -25 < old then alarm 2 s else s

/-- Each thermal step is recorded for the sealed-share lodes that hold blocks in the region (R515). -/
def recordThermal (r : Nat) (s : State) : State :=
  each ((lodes s).filter fun l => (lodeOf s l).sealed && (regionBlocks r).any fun b => decide ((blockOf s b).lode = l))
    (fun l => modLode l fun d => { d with thermalEv := d.thermalEv + 1 }) s

/-- THERMAL_TCAP_STEP: one point down while a sensor of the region or the headframe reads 100 °C or more, one up once every one reads
97 °C or less. -/
def execThermalTcapStep (r : Nat) (s : State) : Host.Outcome State Fault Refusal :=
  run s fun s =>
    let ts := (regionSensors r ++ headSensors).map (sensorOf s)
    let t := (pregOf s r).tcap
    if !diesOn s then s
    else if ts.any (fun c => decide (100 ≤ c)) then
      if t = 0 then s else wh (decide (t = 7)) (raiseAll 3074) (recordThermal r (modPreg r (fun p => { p with tcap := t - 1 }) s))
    else if ts.all (fun c => decide (c ≤ 97)) ∧ t < 7 ∧ !(pregOf s r).held then
      wh (decide (t = 6)) (raiseAll 3074) (recordThermal r (modPreg r (fun p => { p with tcap := t + 1 }) s))
    else s

/-- Whether a sensor stands at a shutdown threshold. -/
def tooHot (s : State) : Bool :=
  (List.range 130).any (fun n => decide (115 ≤ sensorOf s n)) || (List.range 24).any fun n => decide (105 ≤ tget 0 s.pwr.hbmTemps n)

/-- THERMAL_SHUTDOWN: the sequence of R517 begins where a sensor asks for it and it has not begun. -/
def execThermalShutdown (s : State) : Host.Outcome State Fault Refusal :=
  run s fun s => if tooHot s && diesOn s then shutdownBegin s else s

/-- THERMAL_POWER_OFF (step 3 of R517): every rail but Lamp's goes, and with it all work and memory. -/
def execThermalPowerOff (s : State) : Host.Outcome State Fault Refusal :=
  run s fun s =>
    if s.pwr.shutdown ≠ 1 then s
    else
      let s := event 0x802 7 0 0 Err.thermalShutdown 0 none s
      let t := linksDown (coldState true s)
      let t := modImg (fun i => { i with everApplied := s.img.everApplied }) t
      modChip (fun c => { c with phase := 8 }) (modPwr (fun p => { p with shutdown := 2, autoRestart := s.pwr.autoRestart }) t)

/-- Whether every junction sensor reads 85 °C or less. -/
def cooled (s : State) : Bool := (List.range 130).all fun n => decide (sensorOf s n ≤ 85)

def execThermalRestart (s : State) : Host.Outcome State Fault Refusal :=
  run s fun s => if s.pwr.shutdown = 2 ∧ s.pwr.autoRestart ∧ cooled s then restart 2 s else s

/-- PWR_RESTART: over the sideband, after a thermal shutdown that has cooled. -/
def execPwrRestart (via : Via) (s : State) : Host.Outcome State Fault Refusal :=
  verb via 0x0803 s fun s =>
    if s.pwr.shutdown ≠ 2 ∨ !cooled s then reject via Err.resourceBusy s else restart 2 (answer via 0 [] s)

/-- HBM_TEMP_REPORT (R518): 85 °C doubles the refresh rate, 95 °C stops tier 3 until 92 °C, 105 °C shuts the chip down. -/
def execHbmTempReport (stack : Nat) (c : Int) (s : State) : Host.Outcome State Fault Refusal :=
  run s fun s =>
    let old := tget 0 s.pwr.hbmTemps stack
    let s := modPwr (fun p => { p with
      hbmTemps := tset 0 p.hbmTemps stack c
      tier3off := tset false p.tier3off stack (if 95 ≤ c then true else if c ≤ 92 then false else tget false p.tier3off stack) }) s
    let s := each (List.range 32) (fun i => modPc (32 * stack + i) fun p => { p with refresh2 := decide (85 ≤ c) }) s
    if 105 ≤ c ∧ old < 105 then overheat s else s

/-- XTAL_FAIL (R495): the clock alarm, and the on-die oscillator until the next chip start-up. -/
def execXtalFail (s : State) : Host.Outcome State Fault Refusal :=
  run s fun s => if s.chip.phase = 0 ∨ s.chip.xtalFall then s
    else
      let s := modChip (fun c => { c with xtalFall := true }) (alarm 1 s)
      if s.chip.phase = 2 then bootNotice 0 s else s

end Sys2Proof.Machine
end

