-- ==== Sys2Proof/Machine/Security.lean ====
section
/-! DEFINITION. Identity, vault, signatures, quotes, firmware bundles and alarms: the commands of chapter 16. -/
namespace Sys2Proof.Machine
open Sys2Proof

/-! ### Firmware bundles (R469 to R471) -/

/-- The checks of R470: whether a signature verification failed, and the error. -/
def bundleErr (s : State) (bs : List Byte) : Bool × Nat :=
  let h := unle (bs.take 64)
  let body := fld h 96 32
  let tr := unle (slice bs body 8)
  if !(decide (64 ≤ bs.length) && decide (bs.length ≤ 8388608) && decide (fld h 0 32 = 0x57465644) && decide (fld h 32 16 = 0x2401) &&
      decide (body % 8 = 0) && decide (64 + fld h 64 32 + fld h 128 32 ≤ body) && decide (fld tr 0 16 = 2) && decide (fld tr 32 32 = 9893) &&
      decide (bs.length = body + 8 + 9896)) then (false, Err.imageFormat)
  else if !Config.verifies 2 Config.firmwareKey (bs.take body) (slice bs (body + 8) 9893) then (true, Err.imageSignature)
  else if fld h 48 16 < s.sec.fw.floor then (false, Err.imageRollback)
  else (false, 0)

def execFwBegin (via : Via) (slot len : Nat) (s : State) : Host.Outcome State Fault Refusal := doBegin true 8388608 via 0x0730 slot len s
def execFwData (via : Via) (n off : Nat) (bs : List Byte) (s : State) : Host.Outcome State Fault Refusal := doData true via 0x0731 n off bs s
def execFwCommit (via : Via) (n : Nat) (s : State) : Host.Outcome State Fault Refusal := doCommit true via 0x0732 n bundleErr s
def execFwAbort (via : Via) (n : Nat) (s : State) : Host.Outcome State Fault Refusal := doAbort true via 0x0733 n s
def execFwSelect (via : Via) (slot : Nat) (trial : Bool) (s : State) : Host.Outcome State Fault Refusal := doSelect true via 0x0734 slot trial s
def execFwSessionTimeout (s : State) : Host.Outcome State Fault Refusal := run s (doTimeout true)

/-- `SVN` of a bundle. -/
def slotSvn (n : NvSlot) : Nat := fld (unle (n.data.take 64)) 48 16

/-- `FW_CONFIRM` (R471): the floor rises to the lower `SVN` of the two valid slots. -/
def fwFloor (p : SlotPair) : Nat := if p.a.state = 1 ∧ p.b.state = 1 then max p.floor (min (slotSvn p.a) (slotSvn p.b)) else p.floor

def execFwConfirm (via : Via) (s : State) : Host.Outcome State Fault Refusal :=
  slotVerb true via 0x0735 s (fun s => if s.sec.fw.inUse = 2 then Err.imageBusy else 0) fun s =>
    answer via 0 [] (modSlots true (fun p => { p with pref := p.inUse, floor := fwFloor p }) s)

def execFwStatus (via : Via) (s : State) : Host.Outcome State Fault Refusal :=
  verb via 0x0736 s fun s => if s.sec.locked then reject via Err.alarmLocked s else answer via 0 (enc (slotReport s.sec.fw [])) s

/-- Programming and read-back of a slot end (R88, R471). `readBack` is what the slot's non-volatile memory gives back (log 15). -/
def execSlotProgramDone (fw : Bool) (readBack : List Byte) (s : State) : Host.Outcome State Fault Refusal :=
  run s (doProgrammed fw (if fw then bundleErr else imageErr)
    (if fw then fun bs => enc [(2, slotSvn { data := bs })] else imageResult) readBack)

/-! ### The vault (R461 to R465) -/

/-- Whether a slot is orphaned (R462): a root, its own parent, never is. -/
def orphanGo (s : State) : Nat → Nat → Bool
  | 0, _ => false
  | n + 1, k =>
    let v := vslotOf s k
    if v.parent = k then false else
    !(vslotOf s v.parent).valid || decide (v.pgen ≠ (vslotOf s v.parent).gen) || orphanGo s n v.parent

def orphaned (s : State) (k : Nat) : Bool := (vslotOf s k).valid && orphanGo s 4 k

/-- A slot's attribute word (R461). -/
def slotWord (v : VSlot) : Nat :=
  v.uses + v.typ * 2 ^ 7 + (if v.valid then 2 ^ 9 else 0) + v.owner * 2 ^ 10 + v.ownerId * 2 ^ 12 + v.parent * 2 ^ 24 + v.pgen * 2 ^ 32 + v.gen * 2 ^ 48

def execVaultQuery (via : Via) (slot : Nat) (s : State) : Host.Outcome State Fault Refusal :=
  verb via 0x0704 s fun s => if 256 ≤ slot then reject via Err.cmdFormat s else answer via 0 (enc [(8, slotWord (vslotOf s slot))]) s

/-- Who may revoke a slot (R464). -/
def revokeErr (s : State) (via : Via) (slot : Nat) : Nat :=
  let v := vslotOf s slot
  if 256 ≤ slot then Err.cmdFormat
  else if s.sec.locked then Err.alarmLocked
  else if slot < 16 ∨ !v.valid ∨ orphaned s slot then Err.vaultDenied
  else if !fromManager via ∧ !(decide (v.owner = 1) && decide ((lodeOf s v.ownerId).port = viaPort via) && decide ((lodeOf s v.ownerId).pasid ≠ 0)) then Err.vaultDenied
  else 0

def execVaultRevoke (via : Via) (slot : Nat) (s : State) : Host.Outcome State Fault Refusal :=
  verb via 0x0705 s fun s =>
    let e := revokeErr s via slot
    if e ≠ 0 then reject via e s else
    let g := ((vslotOf s slot).gen + 1) % 65536
    let (r, s) := draw s
    answer via 0 (enc [(2, g)]) (wh ((vslotOf s slot).typ = 2) (putKey slot r) (modVslot slot (fun v => { v with gen := g }) s))

/-- An orphaned slot is zeroised and its `VALID` cleared (R462). -/
def execOrphanZeroise (slot : Nat) (s : State) : Host.Outcome State Fault Refusal :=
  run s fun s => if orphaned s slot then modVslot slot (fun v => { gen := v.gen }) s else s

/-- Both shares are replaced by themselves XOR a random value (R465): the key they hold does not change. -/
def execVaultRemask (slot r : Nat) (s : State) : Host.Outcome State Fault Refusal :=
  run s fun s => if (vslotOf s slot).valid then
    modVslot slot (fun v => { v with s1 := v.s1 ^^^ BitVec.ofNat 512 r, s2 := v.s2 ^^^ BitVec.ofNat 512 r }) s else s

/-! ### Signatures and quotes (R466 to R474) -/

/-- A public key, 64 bytes (R466). -/
def pubKey (s : State) (k : Nat) : List Byte := padTo 64 (Config.publicKey k s.sec.enrol)

/-- The certificate's body (R473). -/
def certBody (s : State) : List Byte := le 4 0 ++ le 4 s.sec.enrol ++ le 8 (moduleSerial s) ++ pubKey s 1

/-- The encapsulation key of a lode's transport slot, empty for none (R473, R478). -/
def lodeKem (s : State) (l : Nat) : List Byte :=
  match (lodeOf s l).transport with
  | some n => if (vslotOf s n).valid then padTo 1568 (Config.kemKey ((vslotOf s n).s1 ^^^ (vslotOf s n).s2).toNat) else []
  | none => []

/-- The body of a quote (R472), 320 bytes, `INDEX` still 0; `lo` is the lode index, none for the chip alone. -/
def quoteBody (s : State) (lo : Option Nat) (nonce : List Byte) : List Byte :=
  let d := (lo.map fun l => lodeOf s l).getD {}
  let bit (b : Bool) (n : Nat) : Nat := if b then 2 ^ n else 0
  let kem := (lo.map fun l => lodeKem s l).getD []
  let low := bit lo.isSome 0 + bit (d.conf && lo.isSome) 1 + bit (d.sealed && lo.isSome) 2 + bit (decide (s.img.applied.expert ≠ 0)) 3 + bit s.lm.defaulted 4 +
    1 * 2 ^ 688 + s.sec.boot * 2 ^ 736 + s.sec.life * 2 ^ 744 + (if s.dr.assigned then s.dr.devid else 0xFFFF) * 2 ^ 760 +
    s.sec.svn * 2 ^ 776 + s.img.applied.serial * 2 ^ 792 + (if lo.isSome then d.epoch else 0) * 2 ^ 824 + (if lo.isSome then d.gid else 0) * 2 ^ 856 +
    s.evr.pcycles * 2 ^ 888 + s.evr.opsec * 2 ^ 920 + moduleSerial s * 2 ^ 960
  le 128 low ++ padTo 32 nonce ++ le 32 s.sec.fwHead ++ le 32 s.sec.fwAgent ++ le 32 s.img.applied.hash ++
    (if kem.isEmpty then List.replicate 32 0 else shake256 32 kem) ++
    (match lo with
     | some l => shake256 32 (lodeReport s l)
     | none => List.replicate 32 0)

/-- The handles of a source: port 0, port 1, or the sideband (2). -/
def handlesOf (s : State) (src : Nat) : List (Nat × List Byte × Nat) := if src = 2 then s.hp.sideHandles else (hportOf s src).handles
def setHandles (src : Nat) (h : List (Nat × List Byte × Nat)) (s : State) : State :=
  if src = 2 then modHp (fun x => { x with sideHandles := h }) s else modHport src (fun p => { p with handles := h }) s
def viaSource (via : Via) : Nat := if fromManager via then 2 else viaPort via

def keyOf (s : State) (att : Bool) : Xmss := if att then s.sec.atKey else s.sec.idKey
def setKey (att : Bool) (k : Xmss) (s : State) : State := modSec (fun x => if att then { x with atKey := k } else { x with idKey := k }) s

/-- The place of `INDEX` in a quote's body is filled when the signature is made (R467, R472). -/
def withIndex (body : List Byte) (i : Nat) : List Byte := body.take 87 ++ le 5 i ++ body.drop 92

/-- Takes the key's next index: spent when the next would reach 2^40 (R467, R468). -/
def takeIndex (att : Bool) (s : State) : State :=
  let k := keyOf s att
  let s := setKey att { k with next := k.next + 1, spent := decide (2 ^ 40 ≤ k.next + 1) } s
  if 2 ^ 40 ≤ k.next + 1 then modSec (fun x => { x with identity := 2 }) s else s

/-- A quote under the next index: its body, as the lode stood when the quote was asked for (R474), and a handle for its objects (R473). A
ninth handle reuses the oldest. -/
def signQuote (via : Via) (gid : Nat) (asked : List Byte) (s : State) : State :=
  let lo := findGid s gid
  let i := s.sec.atKey.next
  let body := withIndex asked i
  let sig := padTo 9893 (Config.sign 1 i body)
  let src := viaSource via
  let h := s.hp.handleNext
  let old := handlesOf s src
  let s := setHandles src ((if 8 ≤ old.length then old.drop 1 else old) ++ [(h, sig, lo.getD 0x7F)]) s
  let s := modHp (fun x => { x with handleNext := (h + 1) % 65536 }) (takeIndex true s)
  answer via 0 (le 2 h ++ List.replicate 6 0 ++ body) s

/-- The certificate under the identity key's next index; enrolment is complete (R459 steps 3 and 4). -/
def signCert (via : Via) (s : State) : State :=
  let i := s.sec.idKey.next
  let cert := certBody s ++ padTo 9893 (Config.sign 0 i (certBody s))
  let s := modSec (fun x => { x with cert := cert, identity := 1 }) (takeIndex false s)
  answer via 0 (pubKey s 0 ++ pubKey s 1 ++ cert.take (4096 - 128)) s

/-- Makes the first waiting signature of a key (kind 0 quote, 1 certificate); a spent key signs no more (R468). -/
def signWaiting (att : Bool) (s : State) : State :=
  match (keyOf s att).wait with
  | [] => s
  | (via, kind, msg) :: t =>
    let s := setKey att { keyOf s att with wait := t } s
    if (keyOf s att).spent then reject via Err.identityRetired s
    else if kind = 1 then signCert via s else signQuote via (unle (msg.take 4)) (msg.drop 4) s

/-- Signs, or waits for the reservation write when the index reaches the recorded end (R467). -/
def signOrWait (att : Bool) (via : Via) (kind : Nat) (msg : List Byte) (s : State) : State :=
  let k := keyOf s att
  let s := setKey att { k with wait := k.wait ++ [(via, kind, msg)] } s
  if k.wait.isEmpty ∧ k.next < k.rend then signWaiting att s else s

/-- A new reservation end, 1,024 higher, is written: the waiting signatures below it are made in order (R467). -/
def execXmssReservationWritten (att : Bool) (s : State) : Host.Outcome State Fault Refusal :=
  run s fun s =>
    let k := keyOf s att
    if k.wait.isEmpty then s else
    let s := setKey att { k with rend := k.rend + 1024 } s
    each k.wait (fun _ s => if (keyOf s att).next < (keyOf s att).rend then signWaiting att s else s) s

/-- Why a quote is refused (R474). -/
def quoteErr (s : State) (via : Via) (gid : Nat) (nonce : List Byte) : Nat :=
  if s.sec.locked then Err.alarmLocked
  else if s.sec.identity = 0 ∨ s.sec.identity = 3 then Err.vaultDenied
  else if s.sec.identity = 2 then Err.identityRetired
  else if nonce.length ≠ 32 then Err.cmdFormat
  else if gid ≠ 0 ∧ (findRun s via gid).isNone then Err.lodeUnknown else 0

def execAssayQuote (via : Via) (gid : Nat) (nonce : List Byte) (s : State) : Host.Outcome State Fault Refusal :=
  verb via 0x0700 s fun s =>
    let e := quoteErr s via gid nonce
    if e ≠ 0 then reject via e s else signOrWait true via 0 (le 4 gid ++ quoteBody s (findGid s gid) nonce) s

/-- An object of a quote (R473): signature, certificate, encapsulation key. -/
def assayObject (s : State) (h : Nat × List Byte × Nat) (obj : Nat) : Option (List Byte) :=
  match obj with
  | 0 => some h.2.1
  | 1 => some s.sec.cert
  | 2 => some (lodeKem s h.2.2)
  | _ => none

def execAssayRead (via : Via) (handle obj offset : Nat) (s : State) : Host.Outcome State Fault Refusal :=
  verb via 0x0701 s fun s =>
    match ((handlesOf s (viaSource via)).find? fun h => h.1 = handle).bind fun h => assayObject s h obj with
    | none => reject via Err.cmdFormat s
    | some o => if o.length ≤ offset then reject via Err.cmdFormat s else answer via 0 (slice o offset 4096) s

def execAssayHandleLapse (source handle : Nat) (s : State) : Host.Outcome State Fault Refusal :=
  run s fun s => if source < 3 then setHandles source ((handlesOf s source).filter fun h => h.1 ≠ handle) s else s

/-- Fills the slots of the identity root and of the two keys' seeds, which the root and the enrolment counter fix (R457, R458). -/
def deriveKeys (s : State) : State :=
  let root := Config.identityRoot % 2 ^ 256
  let seeds (c : Nat) : Nat := unle (Config.digest root ((le 4 c) ++ le 1 s.sec.enrol))
  let s := putKey 0 root (modVslot 0 (fun v => { v with parent := 0, ownerId := 0, owner := 0, valid := true, typ := 0, uses := 0x10 }) s)
  let child (n c : Nat) (s : State) : State := putKey n (seeds c)
    (modVslot n (fun v => { v with parent := 0, pgen := (vslotOf s 0).gen, ownerId := 0, owner := 0, valid := true, typ := 1, uses := 4 }) s)
  child 2 0x54415644 (child 1 0x44495644 s)

/-- Enrolment (R459); a counter that has saturated allows no more (R583). -/
def execSecEnrol (via : Via) (s : State) : Host.Outcome State Fault Refusal :=
  verb via 0x0702 s fun s =>
    if !fromManager via then reject via Err.mbVerb s
    else if s.sec.locked then reject via Err.alarmLocked s
    else if s.sec.identity = 1 ∨ s.sec.enrol = 255 then reject via Err.vaultDenied s
    else
      let wrote := !(s.sec.helperA || s.sec.helperB)
      signOrWait false via 1 [] (deriveKeys (modSec (fun x => { x with
        helperA := x.helperA || wrote, helperB := x.helperB || wrote, enrol := x.enrol + 1, idKey := {}, atKey := {} }) s))

/-- Installs the image authority key (R460). -/
def execSecImageAuthSet (via : Via) (key : List Byte) (alg : Nat) (sig : List Byte) (s : State) : Host.Outcome State Fault Refusal :=
  verb via 0x0703 s fun s =>
    let install (s : State) : State :=
      putKey 3 (unle key) <| modVslot 3 (fun v => { v with parent := 3, valid := true, typ := 3, uses := 8 }) (modSec (fun x => { x with authSet := true, authKey := key }) s)
    if !fromManager via then reject via Err.mbVerb s
    else if key.length ≠ 64 then reject via Err.cmdFormat s
    else if !s.sec.authSet then answer via 0 [] (install s)
    else if s.sec.locked then reject via Err.alarmLocked s
    else if Config.verifies alg s.sec.authKey key sig then answer via 0 [] (install s)
    else sigFailed (reject via Err.vaultDenied s)

def execAlarmRaise (source : Nat) (s : State) : Host.Outcome State Fault Refusal :=
  run s fun s =>
    if 5 ≤ source ∨ s.chip.phase = 0 then s
    else
      let s := if source = 3 then modChip (fun c => { c with shieldOk := false }) s else s
      afterOps (alarm source s)

end Sys2Proof.Machine
end

