-- ==== Sys2Proof/Machine/Startup.lean ====
section
/-! DEFINITION. Rails, power failure and chip start-up (R490 to R492, R569 to R578), and a chip reset (R547). -/
namespace Sys2Proof.Machine
open Sys2Proof

/-! ### Rails (R490 to R492) -/

/-- Lamp gets power again: operating seconds resume at the reservation end (R554). -/
def lampOn (s : State) : State := if s.chip.phase = 0 then modEvr (fun r => { r with opsec := r.resEnd }) s else s

/-- RAILS_IN_RANGE: chip start-up begins, whatever `MODULE_RESET#` is (R491, R598). -/
def execRailsInRange (s : State) : Host.Outcome State Fault Refusal :=
  run s fun s =>
    if 2 ≤ s.chip.phase then s
    else modChip (fun c => { c with main := true, aux := true, startCause := 0 }) (coldState true (lampOn s))

/-- The staged records that the hold-up allows are programmed, highest severity first, after the 0x002 record (R562). -/
def saveStaged (written : Nat) (s : State) : State :=
  let old := sortBy (fun a b => decide (b.sev ≤ a.sev)) s.evr.staging
  let s := event 0x002 6 0 0 0 (old.length - written) none (modEvr (fun r => { r with staging := [] }) s)
  let new := s.evr.staging
  each (new ++ old.take written) programEv (modEvr (fun r => { r with staging := [] }) s)

/-- A reservation write under way is completed (R492, R467). -/
def Xmss.finishWrite (k : Xmss) : Xmss := if k.wait.isEmpty then k else { k with rend := k.rend + 1024 }

/-- POWER_FAILURE: `written` staged records are saved; all work and memory contents are lost; Lamp goes on alone. -/
def execPowerFailure (written : Nat) (s : State) : Host.Outcome State Fault Refusal :=
  run s fun s =>
    if s.chip.phase < 2 then s
    else
      let s := saveStaged written s
      let s := modSec (fun k => { k with idKey := k.idKey.finishWrite, atKey := k.atKey.finishWrite }) s
      modChip (fun c => { c with phase := 1, main := false, mainLow := false }) (linksDown (coldState true s))

/-- LAMP_RAIL_CHANGE: standby and auxiliary as they are now. Without either, Lamp and what it staged are off. -/
def execLampRailChange (stby aux : Bool) (s : State) : Host.Outcome State Fault Refusal :=
  run s fun s =>
    if 2 ≤ s.chip.phase then modChip (fun c => { c with stby := stby }) s
    else if stby ∨ aux then modChip (fun c => { c with stby := stby, aux := aux, phase := 1 }) (lampOn s)
    else
      modEvr (fun r => { r with staging := [], dropRun := 0 })
        (modChip (fun c => { c with stby := false, aux := false, phase := 0, alarmOut := false, thermTrip := false }) s)

/-- MAIN_LOW_CHANGE: main enters or leaves the band of 38 to 40 V. -/
def execMainLowChange (low : Bool) (s : State) : Host.Outcome State Fault Refusal :=
  run s fun s => if s.chip.phase < 2 then s else modChip (fun c => { c with mainLow := low }) s

/-! ### Chip reset (R547) -/

/-- Notice, record, and start-up again. -/
def resetChip (err : Nat) (s : State) : State :=
  if s.chip.phase < 2 ∨ s.chip.phase = 8 then s
  else restart 1 (linksDown (event 0x907 7 0 0 err 0 none (emit (.notice 0x913 0 (err + s.evr.opsec * 2 ^ 16)) s)))

/-! ### Steps 1 and 2 of start-up -/

/-- Step 1: a pending erase, the power-cycle count, fresh pages, the 0x001 record, the outputs of Lamp. -/
def bootLamp (s : State) : State :=
  let s := modSec (fun k => { k with slots := [], erasePending := false }) (if s.evr.clearing = [] then s else clearDone s)
  let s := if s.chip.startCause ≠ 0 then s
    else
      let s := modEvr (fun r => { r with pcycles := min 0xFFFFFFFF (r.pcycles + 1), pcycSat := decide (0xFFFFFFFF ≤ r.pcycles + 1) }) s
      modChip (fun c => { c with fails := 0 }) (modImg (fun i => { i with sigFails := 0 }) s)
  let s := modEvr (fun r => { r with ready := true }) (freshPages s)
  let s := modChip (fun c => { c with alarmOut := false, thermTrip := false, xtalFall := false, shieldOk := true }) s
  event 0x001 4 0 0 0 s.chip.startCause none s

/-- Step 2: identity, and the slots that ROM and non-volatile memory fill (R457 to R461). -/
def bootRom (s : State) : State :=
  let key (n : Nat) (bs : List Byte) (s : State) : State :=
    putKey n (unle bs) (modVslot n (fun v => { v with parent := n, valid := true, typ := 3, uses := 8 }) s)
  let s := key 4 Config.firmwareKey s
  let s := wh s.sec.authSet (key 3 s.sec.authKey) s
  if s.sec.helperA || s.sec.helperB then deriveKeys s
  else bootNotice 0 (modSec (fun k => { k with identity := 3 }) s)

/-! ### Slots in the order of R82 -/

def slotOrder (p : SlotPair) : List Nat := ((if p.trial then [p.trialSl] else []) ++ [p.pref, 1 - p.pref]).eraseDups

/-- Whether start-up still runs: an erase begins it again. -/
def stillAt (stage : Nat) (s : State) : Bool := decide (s.chip.phase = 2) && decide (s.chip.stage = stage)

/-- Step 3: the first bundle that passes; the error of the last one rejected. -/
def tryBundles : List Nat → State → Option Nat × State
  | [], s => (none, s)
  | n :: t, s =>
    let v := s.sec.fw.get n
    if v.state ≠ 1 then tryBundles t s
    else
      let (bad, e) := bundleErr s v.data
      if e = 0 then (some n, s)
      else
        let s := modChip (fun c => { c with bootErr := e }) s
        let s := if bad then sigFailed s else s
        if stillAt 2 s then tryBundles t s else (none, s)

/-- The bundle in use: its measurements and its version (R470). -/
def useBundle (n : Nat) (s : State) : State :=
  let bs := (s.sec.fw.get n).data
  let h := unle (bs.take 64)
  let hl := fld h 64 32
  modSec (fun k => { k with
    fw := { k.fw with inUse := n }, svn := fld h 48 16
    fwHead := unle (shake256 32 (bs.take (64 + hl))), fwAgent := unle (shake256 32 (slice bs (64 + hl) (fld h 128 32))) }) s

/-! ### Step 4 (R504, R505) -/

/-- The rules of R505 on a table. -/
def vtableOk (t : Tbl VPoint) : Bool :=
  (List.range 8).all fun r =>
    let p (k : Nat) : VPoint := tget {} t (8 * r + k)
    decide ((p 7).mhz = 1050) &&
      ((List.range 8).all fun k => decide (200 ≤ (p k).mhz) && decide ((p k).mhz ≤ 1050) && decide ((p k).mhz % 25 = 0) && decide (550 ≤ (p k).mv) && decide ((p k).mv ≤ 950)) &&
      (List.range 7).all fun k => decide ((p k).mhz < (p (k + 1)).mhz) && decide ((p k).mv ≤ (p (k + 1)).mv) && decide ((p k).pblock ≤ (p (k + 1)).pblock)

/-- The fallback table: the rated powers and coefficients are not given, so they are free. -/
def fallbackTable (free : Nat) : Tbl VPoint :=
  (List.range 32).map fun i =>
    (8 * (i / 4) + i % 4, { mhz := 350 + 100 * (i % 4), mv := 850, pblock := Config.freeNat (free + 8 * i) % 2 ^ 16
                            coef := (List.range 7).map fun k => Config.freeNat (free + 8 * i + k + 1) % 2 ^ 24 })

/-- The point entries of a stored copy of the table. -/
def vtPoints (bs : List Byte) : Tbl VPoint :=
  (List.range 64).map fun i =>
    let e := unle (slice bs (64 + 32 * i) 32)
    (i, { mhz := fld e 0 16, mv := fld e 32 16, pblock := fld e 48 16, coef := (List.range 7).map fun k => fld e (88 + 24 * k) 24 })

/-- Whether a stored copy is of the form of R505, with the trailer of R65 after its 2,112 bytes, verifies, and is this module's (R504). -/
def vtVerifies (s : State) (bs : List Byte) : Bool :=
  let h := unle (bs.take 64)
  let tr := unle (slice bs 2112 8)
  decide (bs.length = 2112 + 8 + 9896) && decide (fld h 0 32 = 0x54565644) && decide (fld h 32 16 = 1) && decide (fld h 48 16 = 0x2401) &&
    decide (fld h 96 32 = 2112) && decide (fld tr 0 16 = 2) && decide (fld tr 32 32 = 9893) &&
    Config.verifies 2 Config.firmwareKey (bs.take 2112) (slice bs 2120 9893) && decide (fld h 128 64 = moduleSerial s) && vtableOk (vtPoints bs)

def bootClocks (s : State) : State :=
  let s := modChip (fun c => { c with stage := 3 }) s
  let s := match s.pwr.vtCopies.find? (vtVerifies s) with
    | some bs => modPwr (fun p => { p with vtable := vtPoints bs, vtHead := (List.range 3).map fun k => fld (unle (bs.take 64)) (192 + 32 * k) 32, vtFall := false }) s
    | none =>
      let s := modPwr (fun p => { p with vtable := fallbackTable s.free, vtFall := true }) { s with free := s.free + 256 }
      bootNotice 0 (event 0x803 5 0 0 0 0 none s)
  modRas (fun r => { r with
    hf := { r.hf with on := true, count := r.hf.count + 1 }
    hbs := ((List.range 96).filter fun b => decide ((blockOf s b).state ≠ 6)).map fun b => (b, { on := true, count := 1 }) }) s

/-! ### Step 5 (R79, R82) -/

/-- The first image that passes, each slot tried with its record. -/
def tryImages : List Nat → State → Option (Nat × Image) × State
  | [], s => (none, s)
  | n :: t, s =>
    let v := s.img.slots.get n
    if v.state ≠ 1 then tryImages t s
    else
      match checkImage s v.data with
      | (_, .ok i) => (some (n, i), event 0x006 1 0 0 0 0 none s)
      | (bad, .error e) =>
        let s := event 0x006 4 0 0 e 0 none s
        let s := modImg (fun i => { i with slots := { i.slots with lastErr := e } }) (modChip (fun c => { c with bootErr := e }) s)
        let s := if bad then sigFailed s else s
        if stillAt 4 s then tryImages t s else (none, s)

/-- Applies an image but for its sets and lodes. -/
def applyImage (slot : Nat) (i : Image) (s : State) : State :=
  let s := modImg (fun x => { x with applied := i, everApplied := true, slots := { x.slots with inUse := slot } }) s
  let s := modLm (fun m => { m with imageSlot := slot % 2, defaulted := decide (slot = 2) }) s
  let s := each (List.range 161) (fun m => modMaster m fun k => { k with min := i.mins.getD m 0, minL := i.mins.getD m 0, depth := 16, depthL := 16 }) s
  let s := match s.chip.storedDev with
    | some d => modDr (fun x => { x with devid := d, assigned := true }) s
    | none => s
  let s := each ((List.range 32).filter fun p => i.portEn.testBit p) (fun p s => train p (modPort p (fun t => { t with enable := true }) s)) s
  each (hostPorts s) linkUp s

/-- The factory default image as it is applied (R84): signed by Dravwyn; its hash and `SERIAL` are fixed in ROM and not given (log 73). -/
def factoryImage : Image :=
  { signed := true, hash := Config.factoryImageHash % 2 ^ 256, serial := Config.factoryImageSerial % 2 ^ 32 }

def bootImage (s : State) : State :=
  let s := modChip (fun c => { c with stage := 4 }) s
  let order := slotOrder s.img.slots
  let s := modImg (fun i => { i with slots := { i.slots with trial := false, lastErr := 0 } }) s
  let (r, s) := tryImages order s
  if !stillAt 4 s then s
  else match r with
    | some (n, i) => applyImage n i s
    | none => bootNotice s.chip.bootErr (applyImage 2 factoryImage s)

/-! ### Steps 6 and 7 (R76, R211, R572) -/

/-- Founds a lode of the image: `sets` are what its sets became. -/
def foundLode (d : LodeDef) (sets : List Nat) (s : State) : State :=
  match freeIndex s, nextSerial s with
  | some l, some n =>
    let bs := (bitsOf 96 d.blocks).filter fun b => decide ((blockOf s b).state ≠ 6)
    let s := modLode l (fun _ => {
      gid := foundDev s * 65536 + n, state := 1, pasid := d.pasid, port := d.port, coord := true, home := true, homeDev := s.dr.devid
      conf := d.conf, sealed := d.sealed, classes := d.classes, cyclic := d.cyclic }) s
    let s := modLm (fun m => { m with lastSerial := n }) s
    let s := if !d.conf then s
      else if s.sec.identity = 1 then makeTransport l s
      else event 0x702 4 0 0 0 0 (some l) (modLode l (fun x => { x with keyless := true }) s)
    let k := opNumber s
    let s := addOp { num := 0, kind := .create, slot := l, blocks := bs, sets := sets, added := d.credits } s
    let s := each bs (fun b => modBlock b fun x => { x with state := 4 }) s
    let s := each sets (fun m => modSet m fun t => { t with state := 4 }) s
    startScrub 60000 10 l (.op k) (each sets wipeSet (each bs wipeBlock s))
  | _, _ => s

/-- Step 7: the sets, their pieces where a pseudo-channel is retired, and the lodes in entry order. -/
def foundLodes (s : State) : State :=
  let i := s.img.applied
  let s := modChip (fun c => { c with stage := 6 }) s
  let s := each i.sets (fun t => modSet t.1 fun _ => { state := 1, base := t.2.1, count := t.2.2 }) s
  let hurt := sortBy (fun a b => decide (a ≤ b)) ((i.sets.filter fun t => (List.range t.2.2).any fun k => (pcOf s (t.2.1 + k)).retired).map (·.1))
  let s := each hurt (fun n s => (splitSet n s).2) s
  let now := s.lm.sets.map fun t => (t.1, t.2.base)
  let parts (d : LodeDef) : List Nat := (now.filter fun q => i.sets.any fun t => (bitsOf 192 d.sets).contains t.1 && decide (t.2.1 ≤ q.2) && decide (q.2 < t.2.1 + t.2.2)).map (·.1)
  startReady (each i.lodes (fun d => foundLode d (parts d)) s)

/-- Step 6 is done once every stack has finished. -/
def trained (s : State) : State := if s.chip.training.isEmpty then foundLodes s else s

/-! ### The sequence (R570) -/

/-- Steps 3 to 6, where start-up has a bundle. -/
def bootOn (n : Nat) (training : List Nat) (s : State) : State :=
  let s := useBundle n s
  if 3 ≤ s.chip.fails then modChip (fun c => { c with phase := 6, stage := 10 }) s
  else
    let s := bootImage (bootClocks s)
    if !stillAt 4 s then s
    else if s.ras.mapLost ∨ s.ras.unserv then bootNotice 0 (modChip (fun c => { c with phase := 5, stage := 9 }) s)
    else trained (modChip (fun c => { c with stage := 5, training := training.eraseDups.filter (· < 24), hbmTodo := [], stackTry := [] }) s)

/-- Steps 1 and 2 of R570: Lamp's own start, then the boot ROM's. -/
def bootFirst (s : State) : State := modChip (fun c => { c with stage := 2 }) (bootRom (bootLamp s))

/-- Step 2 of R570: the bundles are tried in the order of the selection record, whose trial is spent. -/
def bootBundle (s : State) : Option Nat × State :=
  tryBundles (slotOrder s.sec.fw) (modSec (fun k => { k with fw := { k.fw with trial := false } }) s)

/-- What follows the bundle's choice: start-up goes on with it, or ends in recovery (R576). -/
def bootChosen (training : List Nat) (r : Option Nat) (s : State) : State :=
  match r with
  | some n => bootOn n training s
  | none => bootNotice s.chip.bootErr (each (hostPorts s) linkUp (modChip (fun c => { c with phase := 4, stage := 8 }) s))

/-- CHIP_STARTUP: the sequence up to the training of the stacks named, whose attempts are reported one by one; the others pass. -/
def execChipStartup (training : List Nat) (s : State) : Host.Outcome State Fault Refusal :=
  run s fun s =>
    if !stillAt 1 s ∨ !(s.chip.main && s.chip.aux) ∨ s.pwr.shutdown ≠ 0 then s
    else
      let t := bootBundle (bootFirst s)
      if stillAt 2 t.2 then bootChosen training t.1 t.2 else t.2

/-- HBM_TRAINING_ATTEMPT_DONE: `failed` are the pseudo-channels of the stack (0 to 31) that failed. One that fails one attempt and passes
the other has a transient fault, one that fails both is retired. -/
def execHbmTrainingAttemptDone (stack : Nat) (failed : List Nat) (s : State) : Host.Outcome State Fault Refusal :=
  run s fun s =>
    if !stillAt 5 s ∨ !s.chip.training.contains stack then s
    else
      let bad := (List.range 32).filter fun i => failed.contains i && !(pcOf s (32 * stack + i)).retired
      let finished (s : State) : State := trained (modChip (fun c => { c with training := c.training.filter (· ≠ stack) }) s)
      if tget 0 s.chip.stackTry stack = 0 then
        let s := each bad (fun i => countFault ⟨5, 32 * stack + i⟩ false 0) s
        if bad.isEmpty then finished s
        else modChip (fun c => { c with stackTry := tset 0 c.stackTry stack 1, hbmTodo := tset [] c.hbmTodo stack bad }) s
      else
        let gone := bad.filter fun i => (tget [] s.chip.hbmTodo stack).contains i
        let s := each (bad.filter fun i => !gone.contains i) (fun i => countFault ⟨5, 32 * stack + i⟩ false 0) s
        let s := each gone (fun i s => modChip (fun c => { c with pcRet := c.pcRet + 1 }) (classify ⟨5, 32 * stack + i⟩ false 2 s)) s
        finished (if gone.isEmpty then s else bootNotice 0 s)

/-- BOOT_STEP_TIMEOUT: no step has ended within 2 s of its start. -/
def execBootStepTimeout (s : State) : Host.Outcome State Fault Refusal :=
  run s fun s => if s.chip.phase = 2 then
    resetChip Err.hang (bootNotice Err.hang (modChip (fun c => { c with bootErr := Err.hang }) s)) else s

/-- STARTUP_AGENT_TIMEOUT: a block agent without a first heartbeat at step 4; its block is retired before step 7. -/
def execStartupAgentTimeout (b : Nat) (s : State) : Host.Outcome State Fault Refusal :=
  run s fun s =>
    if s.chip.phase ≠ 2 ∨ s.chip.stage < 3 ∨ 5 < s.chip.stage ∨ (blockOf s b).state = 6 then s
    else bootNotice 0 (blockRetire b (modRas (fun r => { r with hbs := tset {} r.hbs b {} }) s))

end Sys2Proof.Machine
end

