-- ==== Sys2Proof/Machine/Capture.lean ====
section
/-! DEFINITION. Captures before a reset (R539 to R543): what a record holds and where it is written. -/
namespace Sys2Proof.Machine
open Sys2Proof

/-! ### Sections (R542, R543) -/

/-- A section: its 64-byte header and its data, which a confidential lode's capture leaves out. -/
def capSection (conf : Bool) (kind unit entries w0 w1 : Nat) (data : List Byte) : List Byte :=
  let d := if conf then [] else padTo (alignUp data.length 64) data
  le 64 (kind + unit * 2 ^ 8 + (64 + d.length) * 2 ^ 32 + if conf then 0 else entries * 2 ^ 16 + w0 * 2 ^ 64 + w1 * 2 ^ 128) ++ d

/-- A core: the head of its scratchpad, then the lines it touched last, newest first, after their offsets. -/
def capCore (s : State) (conf : Bool) (b c : Nat) : List Byte :=
  let k := coreOf s b c
  let base := blockBase b + 0x400000 + c * 0x10000
  let ls := k.recent.take s.ras.capLines
  let offs := ls.flatMap fun n => le 8 (n * 64)
  capSection conf 1 c ls.length k.pc.toNat k.cause
    (peek s base (s.ras.capHead * 1024) ++ padTo (alignUp offs.length 64) offs ++ ls.flatMap fun n => peek s (base + n * 64) 64)

/-- An engine: its registers and its queued commands. -/
def capEngine (s : State) (conf : Bool) (b e : Nat) : List Byte :=
  let g := engineOf s b e
  capSection conf 2 e g.queue.length (meStatus g + g.flags * 2 ^ 32) g.done (g.queue.flatMap fun c => le 32 c.bits)

/-- A request in the layout of R172, on unit `u`. -/
def reqWords (u : Nat) (d : Dma) : Nat :=
  d.kind + (if u < 96 then 0 else u % 4 + 1) * 2 ^ 16 + d.sem * 2 ^ 46 + (if d.post then 2 ^ 63 else 0) + d.fill * 2 ^ 64 +
    d.srcVa % 2 ^ 64 * 2 ^ 128 + d.dstVa % 2 ^ 64 * 2 ^ 192 + d.len % 2 ^ 32 * 2 ^ 256 + d.convAt * 2 ^ 288 + d.winid * 2 ^ 324 + d.devid * 2 ^ 336

/-- A DMA engine: its requests and the 4 KiB chunks its running one has done. -/
def capDma (s : State) (conf : Bool) (unit u : Nat) : List Byte :=
  let q := dmaOf s u
  capSection conf 3 unit q.length ((q.headD { owner := .firmware 0, kind := 0, len := 0 }).pos / 4096) 0 (q.flatMap fun d => le 64 (reqWords u d))

/-- The sync hub of a region: the semaphores that `mine` names and that have queued waits. -/
def capSync (s : State) (conf : Bool) (r : Nat) (mine : Nat → Bool) : List Byte :=
  let ss := s.noc.sems.filter fun t => decide (t.1 / 16384 = r) && mine t.1 && !t.2.waits.isEmpty
  capSection conf 4 r ss.length 0 0 (ss.flatMap fun t => le 4 t.1 ++ le 4 t.2.value ++ le 8 t.2.waits.length)

/-- A lode's queue: the records that were taken and have not completed. -/
def capQueue (s : State) (conf : Bool) (l : Nat) : List Byte :=
  let q := queueOf s l
  capSection conf 5 l q.recs.length q.sqHead q.cqTail (q.recs.flatMap fun r => le 8 r.pos)

/-! ### Records (R541) -/

/-- The record of a capture: `cut` is how many sections a truncated one keeps. -/
def capRecord (s : State) (l : Option Nat) (conf : Bool) (block region scope cause : Nat) (secs : List (List Byte)) (cut : Option Nat) : List Byte :=
  let kept := match cut with
    | some n => secs.take n
    | none => secs
  let body := kept.flatten
  le 64 (cause % 2 ^ 16 + scope * 2 ^ 16 + kept.length * 2 ^ 24 + (64 + body.length) * 2 ^ 32 + evDev s * 2 ^ 64 + block * 2 ^ 80 + region * 2 ^ 88 +
    ((l.map fun l => (lodeOf s l).gid).getD 0) * 2 ^ 96 + s.ras.capSeq % 2 ^ 32 * 2 ^ 128 + s.evr.opsec % 2 ^ 40 * 2 ^ 160 + s.evr.pcycles % 2 ^ 32 * 2 ^ 200 +
    (if cut.isSome then 2 ^ 232 else 0) + if conf then 2 ^ 233 else 0) ++ body

/-- Writes a record to a port's buffer, or drops it for want of room (R540). -/
def capPut (p : Nat) (bs : List Byte) (s : State) : State :=
  let h := hportOf s p
  if h.capLen < h.capUsed + bs.length then modRas (fun r => { r with capDrop := min 0xFF (r.capDrop + 1) }) s
  else emit (.hostWrite p 0 (h.capAddr + h.capUsed) bs) (modHport p (fun h => { h with capUsed := h.capUsed + bs.length }) s)

/-- A record goes to the port of the lode's slice, over the home chip when that is another (R540), and its capture is recorded. -/
def capDeliver (l : Option Nat) (kind num cause : Nat) (bs : List Byte) (s : State) : State :=
  let n := s.ras.capSeq
  let s := match l with
    | some l =>
      let d := lodeOf s l
      if d.home then capPut d.port bs s else emit (.control d.homeDev 14 (d.gid :: bs.map (·.toNat))) s
    | none => capPut 0 bs s
  event 0x908 6 kind num cause n l (modRas (fun r => { r with capSeq := (n + 1) % 2 ^ 32 }) s)

/-- Whether a lode has work on a block. -/
def blockWork (s : State) (b : Nat) : Bool := (blockOf s b).launch.isSome || !(dmaOf s b).isEmpty

/-- The sections of a block's record. -/
def blockSections (s : State) (b : Nat) : Option Nat × Bool × List (List Byte) :=
  let l := if (blockOf s b).lode = 0x7F then none else some (blockOf s b).lode
  let conf := (l.map fun l => (lodeOf s l).conf).getD false
  let secs := (((List.range 32).filter (corePresent s b)).map (capCore s conf b)) ++ ((List.range 4).map (capEngine s conf b)) ++ [capDma s conf 0 b] ++
    (match l with
     | some l => capSync s conf (b / 12) (holdsSem s l) :: (if blockWork s b then [capQueue s conf l] else [])
     | none => [])
  (l, conf, secs)

/-- Captures a block for a reset of a scope. -/
def capBlock (b scope cause : Nat) (cut : Option Nat) (s : State) : State :=
  let t := blockSections s b
  capDeliver t.1 3 b cause (capRecord s t.1 t.2.1 b (b / 12) scope cause t.2.2 (cut.map fun n => n % (t.2.2.length + 1))) s

/-- The region part of a region's capture: its DMA engines, its hub, and the queues of the lodes that have work on those engines. A
confidential lode's work anywhere in it reduces it. -/
def capRegion (r cause : Nat) (cut : Option Nat) (s : State) : State :=
  let ls := (((List.range 4).flatMap fun e => dmaOf s (96 + 4 * r + e)).map (·.lode)).eraseDups
  let conf := ls.any (fun l => (lodeOf s l).conf) ||
    (s.noc.sems.any fun t => decide (t.1 / 16384 = r) && !t.2.waits.isEmpty && (confLodes s).any fun l => holdsSem s l t.1)
  let secs := ((List.range 4).map fun e => capDma s conf (e + 1) (96 + 4 * r + e)) ++ [capSync s conf r fun _ => true] ++ ls.map (capQueue s conf)
  capDeliver none 13 r cause (capRecord s none conf 0x7F r 2 cause secs (cut.map fun n => n % (secs.length + 1))) s

/-- Writes what a capture holds. A truncated one has `whole` records complete and the next cut short. -/
def capFinish (c : Cap) (cut : Option (Nat × Nat)) (s : State) : State :=
  let scope := if c.region.isSome then 2 else 1
  let parts := (c.blocks.map fun b => capBlock b scope c.cause) ++ (c.region.map fun r => capRegion r c.cause).toList
  let s := modRas (fun r => { r with caps := r.caps.filter fun x => x.id ≠ c.id }) s
  match cut with
  | none => each parts (fun f => f none) s
  | some (whole, secs) =>
    let k := whole % parts.length
    each (parts.drop k |>.take 1) (fun f => f (some secs)) (each (parts.take k) (fun f => f none) s)

end Sys2Proof.Machine
end

