-- ==== Sys2Proof/Machine/Ras.lean ====
section
/-! DEFINITION. Faults, hangs, resets and the reliability verbs (R521 to R552). -/
namespace Sys2Proof.Machine
open Sys2Proof

/-- The notice of a hang or reset (R549): scope 0 cell, 1 block, 2 region, 3 chip; the unit; the cause with the operating seconds. -/
def rasNotice (scope unit cause : Nat) (s : State) : State := emit (.notice (0x910 + scope) unit (cause + s.evr.opsec * 2 ^ 16)) s

/-! ### Block reset (R545) -/

/-- A block is reset while images move (R448): the outgoing context loses its image of the block, and its launches in progress end. -/
def loseImage (b : Nat) (s : State) : State :=
  let l := (blockOf s b).lode
  let c := (schedOf s l).running
  if (schedOf s l).phase ≠ 3 ∨ c = 0xFFF then s
  else
    let rs := (queueOf s l).recs.filter fun r => decide (rOp r.bits = 1) && decide (r.stage = 2) && decide (rCtx r.bits = c)
    modCtx c (fun x => { x with images := tset none x.images b none }) (each (rs.map (·.pos)) (fun p => abortRec l p Err.domainReset) s)

/-- Steps 3 to 5: the work on the block ends with the cause, its logic and memories are cleared. -/
def resetBlockNow (b cause : Nat) (s : State) : State :=
  let s := loseImage b s
  let s := match launchOf s b with
    | some (l, pos, _) => addFailed l pos [(6, cause, b, 1)] s
    | none => s
  let s := wipeBlock b (killBlock b (endLaunch b cause [] s))
  modCma b (fun _ => {}) s

/-- Step 1, and step 2 when the capture is to be taken. A block that is being reset already, or lies in a region that is, is not reset
again (R533, R534). -/
def startBlockReset (b cause : Nat) (capture : Bool) (s : State) : State :=
  if (blockOf s b).resetting ∨ (regionOf s (b / 12)).resetting ∨ (blockOf s b).state = 6 ∨ 96 ≤ b then s
  else
    let s := rasNotice 1 b cause (event 0x906 6 3 b cause 0 (lodeOfUnit s ⟨3, b⟩) s)
    let s := endOpsOnBlock b Err.domainReset (modBlock b (fun k => { k with resetting := true, cause := cause }) s)
    let s := modRas (fun r => { r with blkRst := min 0xFF (r.blkRst + 1), hbs := tset {} r.hbs b {} }) s
    if capture && s.ras.capEn then
      modRas (fun r => { r with caps := r.caps ++ [{ id := r.capNext, blocks := [b], region := none, cause := cause }], capNext := r.capNext + 1 }) s
    else resetBlockNow b cause s

/-! ### Region reset (R546) -/

/-- Whether a transfer has a chunk under way on a region's pseudo-channels. -/
def chunkIn (s : State) (r : Nat) (d : Dma) : Bool :=
  decide (d.chunk ≠ 0) && (List.range 96).any fun i =>
    spaceOn s d.lode (96 * r + i) d.src d.pos d.chunk || spaceOn s d.lode (96 * r + i) d.dst d.moved d.chunkD

/-- The blocks whose cores wait at a region's hub. -/
def waitingAt (s : State) (r : Nat) : List Nat :=
  let blk (m : SyncMsg) : List Nat := match m with
    | .wait b _ _ _ | .try b _ _ _ => [b]
    | .post _ => []
  ((s.noc.sems.filter fun t => t.1 / 16384 = r).flatMap fun t => (t.2.waits ++ t.2.inflight.map (·.2)).flatMap blk) ++
    (s.noc.bars.filter fun t => t.1 / 512 = r).flatMap fun t => (t.2.stalled ++ t.2.inflight.map (·.2)).map (·.1)

/-- Step 3: every command with a request outstanding at the region, or work on its blocks, ends. -/
def endRegionWork (r cause : Nat) (s : State) : State :=
  let s := each (List.range 12) (fun i s => match launchOf s (12 * r + i) with
    | some (l, pos, _) => endLaunch (12 * r + i) cause [] (addFailed l pos [(6, cause, 12 * r + i, 1)] s)
    | none => s) s
  let s := each ((List.range 4).flatMap fun e => dmaOf s (96 + 4 * r + e)) (endOwner cause) s
  let s := each (s.cu.dma.flatMap fun t => (t.2.filter (chunkIn s r)).map fun d => (t.1, d)) (fun p s =>
    setDma p.1 ((dmaOf s p.1).filter fun d => d.serial ≠ p.2.serial) (loseRest p.2 cause (endOwner cause p.2 s))) s
  let arbs := (List.range 96).map fun i => arbOf s (96 * r + i)
  let s := each (arbs.flatMap fun a => a.queue.filterMap (·.cmd)) (fun c => abortRec c.1 c.2 cause) s
  let s := each (arbs.flatMap (·.ingress)) (fun q => failReq q.1 cause) s
  each (waitingAt s r) (fun b => endLaunch b cause []) s

/-- Steps 4 and 5: the logic restarts; queued waits are withdrawn, dirty lines are written back. Firmware asks for the copies of an evacuation
again. -/
def restartRegion (r : Nat) (s : State) : State :=
  let s := each (List.range 4) (fun e s => setDma (96 + 4 * r + e) ((dmaOf s (96 + 4 * r + e)).filter fun d => d.kind = 6) s) s
  let s := each (List.range 96) (fun i => modArb (96 * r + i) fun a => { a with queue := [], ingress := [], deficit := [], turn := 0 }) s
  let lost := s.noc.comb.filter fun t => t.1 / 12 = r
  let held := s.noc.ingress.filter fun t => t.1 / 4 = r
  let s := modNoc (fun n => { n with
    ingress := n.ingress.filter fun t => t.1 / 4 ≠ r
    comb := n.comb.filter fun t => t.1 / 12 ≠ r
    sems := (n.sems.map fun t => if t.1 / 16384 = r then (t.1, { t.2 with waits := [], inflight := t.2.inflight.filter fun m => isPost m.2 }) else t).filter fun t => t.2 ≠ {}
    bars := (n.bars.map fun t => if t.1 / 512 = r then (t.1, { t.2 with arrivals := t.2.arrivals - t.2.stalled.length, stalled := [], inflight := [] }) else t).filter fun t => t.2 ≠ {} }) s
  let s := each lost (fun t => each t.2 fun k => each k.contribs fun c => emit (.reduceAck c.1 c.2 Err.reduceLost)) s
  let s := each held (fun t => giveBack (some t.1) t.2 ∘ lostPacket t.2) s
  modRegion r (fun g => { g with cache := g.cache.map fun c => { c with dirty := false } }) s

/-- Steps 3 to 6. The ports of the region go down and train again when they are enabled. -/
def resetRegionNow (r cause : Nat) (s : State) : State :=
  let s := endRegionWork r cause s
  let ps := (List.range 4).map fun i => 4 * r + i
  let s := each (ps.filter (portUp s)) (fun p => portDown p 5 cause) s
  let s := restartRegion r s
  let s := each ((List.range 12).map fun i => 12 * r + i) (fun b => resetBlockNow b cause) s
  let s := each (ps.filter fun p => (portOf s p).enable && imagePort s p) train s
  startScrub 200 13 r (.regionReset r) s

/-- Steps 1 and 2. The region's reset takes the place of those of its blocks (R533). -/
def startRegionReset (r cause : Nat) (capture : Bool) (s : State) : State :=
  if (regionOf s r).resetting ∨ 8 ≤ r then s
  else
    let bs := ((List.range 12).map fun i => 12 * r + i).filter fun b => (blockOf s b).state ≠ 6
    let s := rasNotice 2 r cause (event 0x906 6 13 r cause 0 none s)
    let s := modRegion r (fun g => { g with resetting := true, cause := cause }) s
    let s := each bs (fun b s => endOpsOnBlock b Err.domainReset (modBlock b (fun k => { k with resetting := true, cause := cause }) s)) s
    let s := each ((s.lm.sets.filter fun t => t.2.base / 96 = r).map (·.1)) (fun n => endOpsOnSet n Err.domainReset) s
    let s := modLm (fun m => { m with scrubs := m.scrubs.filter fun x => match x.what with
      | .blockReset b => b / 12 ≠ r
      | _ => true }) s
    let s := modRas (fun x => { x with
      regRst := min 0xFF (x.regRst + 1), hbs := x.hbs.filter fun t => t.1 / 12 ≠ r
      caps := x.caps.filter fun c => !(c.region.isNone && c.blocks.all fun b => decide (b / 12 = r)) }) s
    if capture && s.ras.capEn then
      modRas (fun x => { x with caps := x.caps ++ [{ id := x.capNext, blocks := bs, region := some r, cause := cause }], capNext := x.capNext + 1 }) s
    else resetRegionNow r cause s

/-- The reset that a capture held goes on. -/
def afterCapture (c : Cap) (s : State) : State :=
  match c.region with
  | some r => resetRegionNow r c.cause s
  | none => each c.blocks (fun b => resetBlockNow b c.cause) s

/-- CAPTURE_TIMEOUT: the capture has run for 2 ms; how much of it was written is not given. -/
def execCaptureTimeout (id : Nat) (s : State) : Host.Outcome State Fault Refusal :=
  run s fun s => match s.ras.caps.find? fun c => c.id = id with
    | none => s
    | some c =>
      let (n, s) := draw s
      let (m, s) := draw s
      afterOps (afterCapture c (capFinish c (some (n, m)) s))

/-- The agent of a block counts again. -/
def agentOn (b : Nat) (s : State) : State :=
  modRas (fun r => { r with hbs := tset {} r.hbs b { tget {} r.hbs b with on := true, misses := 0, count := (tget {} r.hbs b).count + 1 } }) s

/-- Whether a scrub for a block reset runs. -/
def scrubsBlock (s : State) (b : Nat) : Bool := s.lm.scrubs.any fun x => decide (x.what = .blockReset b)

/-- BLOCK_AGENT_FIRST_HEARTBEAT: a capture of the block has ended by now; step 4 is done and the scrub begins (R545). In a region reset it
says that the region's logic and the block's agent run again. -/
def execBlockAgentFirstHeartbeat (b : Nat) (s : State) : Host.Outcome State Fault Refusal :=
  run s fun s =>
    if (blockOf s b).state = 6 ∨ s.chip.phase < 2 then s
    else
      let s := match s.ras.caps.find? fun c => c.blocks.contains b with
        | some c => afterCapture c (capFinish c none s)
        | none => s
      let s := if (blockOf s b).resetting ∧ !(regionOf s (b / 12)).resetting ∧ !scrubsBlock s b then startScrub 200 3 b (.blockReset b) s else s
      afterOps (agentOn b s)

/-! ### The reset commands -/

/-- CELL_RESET: the block agent clears a core or an engine before its next launch (R544). -/
def execCellReset (b : Nat) (engine : Bool) (n : Nat) (s : State) : Host.Outcome State Fault Refusal :=
  run s fun s =>
    if (blockOf s b).launch.isSome then s
    else if engine then rasNotice 0 (b * 64 + 32 + n) Err.domainReset (modEngine b n (fun g => { retired := g.retired }) s)
    else rasNotice 0 (b * 64 + n) Err.domainReset (modCore b n (fun _ => {}) s)

def execBlockReset (b cause : Nat) (s : State) : Host.Outcome State Fault Refusal :=
  run s fun s => if s.chip.phase = 3 then afterOps (startBlockReset b cause true s) else s

def execRegionReset (r cause : Nat) (s : State) : Host.Outcome State Fault Refusal :=
  run s fun s => if s.chip.phase = 3 then afterOps (startRegionReset r cause true s) else s

def execChipReset (cause : Nat) (s : State) : Host.Outcome State Fault Refusal := run s (resetChip cause)

/-- Lamp removes the die rails and starts the chip again (R532). -/
def railsAgain (s : State) : State :=
  let s := coldState true (linksDown s)
  modChip (fun c => { c with phase := if heldByPin s then 7 else 2, startCause := 1, fails := min 3 (c.fails + 1) }) s

/-- RESET_TIMEOUT: the reset of a domain has failed and the enclosing domain is reset (R532, R533). -/
def execResetTimeout (dom : Domain) (s : State) : Host.Outcome State Fault Refusal :=
  run s fun s => match dom with
    | .cell b _ _ => if s.chip.phase = 3 then afterOps (startBlockReset b Err.domainReset true s) else s
    | .block b => if (blockOf s b).resetting ∧ !(regionOf s (b / 12)).resetting then afterOps (startRegionReset (b / 12) Err.domainReset true s) else s
    | .region r => if (regionOf s r).resetting then resetChip Err.domainReset s else s
    | .chip => if s.chip.phase = 2 ∧ s.chip.stage = 1 then railsAgain s else s

/-! ### Faults of units (R522 to R525) -/

/-- Counts a block-level fault whose retirement waits for the reset that follows (R525). -/
def countBlockFault (b code detail : Nat) (s : State) : State :=
  let u : HwUnit := ⟨3, b⟩
  if inReset s u || sameFault s u || (fcOf s u).retired then s else
  let n := faultsNow s u
  let s := modFc u (fun f => { f with count := n, last := s.evr.opsec, tick := some (nowTick s) }) s
  if 2 ≤ n ∧ !(fcOf s u).deferred then modFc u (fun f => { f with deferred := true }) (event 0x903 5 3 b Err.unitRetired n (lodeOfUnit s u) s)
  else event 0x902 3 3 b code detail (lodeOfUnit s u) s

/-- What a block-level fault ends its work with (R548). -/
def blockCause (s : State) (b : Nat) : Nat := if (fcOf s ⟨3, b⟩).deferred then Err.unitRetired else Err.domainReset

/-- An internal error of a DMA engine: the chunk under way on it is performed again (R523). -/
def dmaFault (u detail : Nat) (s : State) : State :=
  match (dmaOf s u).find? fun d => d.chunk ≠ 0 with
  | some d => chunkFailed u d s
  | none => countFault (dmaFaultUnit u) false detail s

/-- UNIT_FAULT: `predicted` is a retirement foreseen from corrected errors (R524); a pseudo-channel so foreseen is evacuated first. An engine that
finds its array faulty stops with its command. Of a block (log 81): a fault of its agent resets it, one in the cluster memory ports that it shares
with its region (`detail` 1) is passed up and resets the region (R532), one of its DMA engine (`detail` 2) has the chunk done again, as that of a
region DMA engine. The others are counted. -/
def execUnitFault (u : HwUnit) (predicted : Bool) (detail : Nat) (s : State) : Host.Outcome State Fault Refusal :=
  run s fun s => afterOps (
    if predicted then
      if u.kind = 5 then (if (pcOf s u.num).predicted || (pcOf s u.num).failed then s else predictPc u.num s) else classify u true (faultsNow s u) s
    else match u.kind with
      | 2 =>
        let s := if (engineOf s (u.num / 4) (u.num % 4)).queue.isEmpty then s else meAbandon (u.num / 4) (u.num % 4) Err.memUncorrected s
        countFault u false detail s
      | 4 => dmaFault (96 + u.num) detail s
      | 3 =>
        if detail = 2 then dmaFault u.num detail s else
        let s := countBlockFault u.num 0 detail s
        if detail = 1 then startRegionReset (u.num / 12) (blockCause s u.num) true s else startBlockReset u.num (blockCause s u.num) true s
      | 8 => countFault u true detail s
      | _ => countFault u false detail s)

/-- DEFERRED_RETIREMENT: the launch that kept the unit in service has ended. -/
def execDeferredRetirement (u : HwUnit) (s : State) : Host.Outcome State Fault Refusal :=
  run s fun s => if (fcOf s u).deferred ∧ !inReset s u ∧ !mustWait s u then afterOps (retireUnit u s) else s

/-- WIRE_GROUP_FAILURE (R529): the third failure of a link finds no spare group. -/
def execWireGroupFailure (link : Nat) (s : State) : Host.Outcome State Fault Refusal :=
  run s fun s =>
    let n := tget 0 s.ras.wires link
    if s.chip.phase < 2 then s
    else if n < 2 then countFault ⟨9, link⟩ false n (modRas (fun r => { r with wires := tset 0 r.wires link (n + 1) }) s)
    else resetChip Err.unitRetired (event 0x903 5 9 link Err.unitRetired (n + 1) none (modRas (fun r => { r with unserv := true }) s))

/-! ### The Canary (R535, R536) -/

/-- CANARY_HEARTBEAT: every agent that is on counts, but for those that are silent. -/
def execCanaryHeartbeat (silent : List Nat) (headframe : Bool) (s : State) : Host.Outcome State Fault Refusal :=
  run s fun s =>
    if s.chip.phase ≠ 3 ∧ !(decide (s.chip.phase = 2) && decide (3 ≤ s.chip.stage)) then s
    else
      let on := (List.range 96).filter fun b =>
        !silent.contains b && decide ((blockOf s b).state ≠ 6) && !(blockOf s b).resetting && decide ((pblkOf s b).domain = 0)
      let s := each on (fun b => modRas fun r => { r with hbs := tset {} r.hbs b { tget {} r.hbs b with on := true, count := (tget {} r.hbs b).count + 1 } }) s
      if headframe then modRas (fun r => { r with hf := { r.hf with on := true, count := r.hf.count + 1 } }) s else s

/-- One check of one counter. -/
def Hb.check (h : Hb) : Hb := { h with seen := h.count, misses := if h.count = h.seen then h.misses + 1 else 0 }

/-- The agents that Lamp checks: on, not held (R534), not being reset. -/
def watched (s : State) (b : Nat) : Bool :=
  (tget {} s.ras.hbs b).on && decide ((pblkOf s b).domain = 0) && !(pregOf s (b / 12)).held && !(blockOf s b).resetting && !(regionOf s (b / 12)).resetting

/-- A block agent hangs. -/
def blockHang (b : Nat) (s : State) : State :=
  let s := event 0x905 6 3 b Err.hang 0 (lodeOfUnit s ⟨3, b⟩) s
  let s := modRas (fun r => { r with hangs := min 0xFFFF (r.hangs + 1), lastBlk := b }) s
  startBlockReset b Err.hang true (countBlockFault b Err.hang 0 s)

/-- The headframe firmware hangs: its state is recorded, then the chip is reset. -/
def headframeHang (s : State) : State :=
  resetChip Err.hang (event 0x905 6 0 0 Err.hang 0 none (modRas (fun r => { r with hangs := min 0xFFFF (r.hangs + 1) }) s))

/-- CANARY_CHECK: the third miss in a row declares a hang. In Rest the headframe is not on. -/
def execCanaryCheck (s : State) : Host.Outcome State Fault Refusal :=
  run s fun s =>
    let bs := (List.range 96).filter (watched s)
    let s := each bs (fun b => modRas fun r => { r with hbs := tset {} r.hbs b (tget {} r.hbs b).check }) s
    let s := each (bs.filter fun b => 3 ≤ (tget {} s.ras.hbs b).misses) blockHang s
    if !s.ras.hf.on ∨ s.pwr.chip = 2 then afterOps s
    else
      let s := modRas (fun r => { r with hf := r.hf.check }) s
      if 3 ≤ s.ras.hf.misses then headframeHang s else afterOps s

/-! ### Watchdogs (R537, R538) -/

/-- The dispatched records of a lode's running context. -/
def runningRecs (s : State) (l : Nat) : List Rec :=
  if (schedOf s l).phase ≠ 1 then [] else
    (queueOf s l).recs.filter fun r => decide (r.stage = 2) && decide (rCtx r.bits = (schedOf s l).running)

/-- Whether a lode's watchdog runs. -/
def watchdogRuns (s : State) (l : Nat) : Bool :=
  decide (tget 100 s.ras.canTime l ≠ 0) && !(runningRecs s l).isEmpty && !lodeHeld s l &&
    !((xlLodeOf s l).faults.any fun f => decide (f.ctx = (schedOf s l).running) && resumable f.reason)

/-- QUEUE_WATCHDOG_EXPIRY: captures, then the running context's dispatched commands are cancelled with `E_HANG`. -/
def execQueueWatchdogExpiry (l : Nat) (s : State) : Host.Outcome State Fault Refusal :=
  run s fun s =>
    if !watchdogRuns s l then s
    else
      let rs := runningRecs s l
      let bs := (List.range 96).filter fun b => rs.any fun r => decide ((blockOf s b).launch = some (l, r.pos))
      let s := modRas (fun r => { r with canHung := tset false r.canHung l true }) s
      let s := if s.ras.capEn then each bs (fun b => capBlock b 1 Err.hang none) s else s
      afterOps (each rs (fun r s => cancelRec l r.pos 1 (modRec l r.pos (fun x => { x with error := if x.error = 0 then Err.hang else x.error }) s)) s)

/-- WATCHDOG_DRAIN_TIMEOUT: the blocks of the cancelled commands that have not ended are reset. -/
def execWatchdogDrainTimeout (l : Nat) (s : State) : Host.Outcome State Fault Refusal :=
  run s fun s =>
    let rs := (queueOf s l).recs.filter fun r => decide (r.stage = 3) && decide (r.cancel = 1) && decide (r.error = Err.hang)
    let bs := (blocksOf s l).filter fun b => rs.any fun r => r.parts.contains b
    afterOps (each bs (fun b => startBlockReset b Err.hang true) s)

/-- Whether a fabric watchdog of a region has something that makes no progress. -/
def fabricBusy (s : State) (r : Nat) (hub : Bool) : Bool :=
  if hub then (s.noc.sems.any fun t => decide (t.1 / 16384 = r) && !t.2.inflight.isEmpty) || (s.noc.bars.any fun t => decide (t.1 / 512 = r) && !t.2.inflight.isEmpty)
  else (List.range 96).any fun i => (arbOf s (96 * r + i)).queue.any fun q => q.conform || tier3On s (96 * r + i)

/-- FABRIC_WATCHDOG_EXPIRY: the region is reset and the work ends with `E_HANG`. -/
def execFabricWatchdogExpiry (r : Nat) (hub : Bool) (s : State) : Host.Outcome State Fault Refusal :=
  run s fun s => if fabricBusy s r hub ∧ !(pregOf s r).held ∧ (pregOf s r).fabric = 0 then afterOps (startRegionReset r Err.hang true s) else s

/-! ### The verbs (R551) -/

/-- Units of a kind that the retirement map holds (R530); links have none there. -/
def unitCount (kind : Nat) : Nat := [0, 3456, 384, 96, 32, 768, 512, 128, 576, 65536].getD kind 0

/-- RAS_QUERY: state 0 in service, 1 to be retired, 2 retired; the faults of the window; the operating seconds of the last. -/
def execRasQuery (via : Via) (kind num : Nat) (s : State) : Host.Outcome State Fault Refusal :=
  verb via 0x0900 s fun s =>
    if unitCount kind ≤ num then reject via Err.cmdFormat s
    else
      let f := fcOf s ⟨kind, num⟩
      let st := if f.retired then 2 else if f.deferred ∨ (kind = 5 ∧ (pcOf s num).predicted) then 1 else 0
      let n := if f.count ≠ 0 ∧ s.evr.opsec ≤ f.last + s.ras.window * 60 then f.count else 0
      answer via 0 (enc [(1, st), (2, n), (8, f.last), (1, if f.retired then 1 else 0)]) s

/-- RAS_CAPTURE_SETUP (R540). -/
def execRasCaptureSetup (via : Via) (port addr len : Nat) (s : State) : Host.Outcome State Fault Refusal :=
  verb via 0x0901 s fun s =>
    if !(hostPorts s).contains port ∨ (len ≠ 0 ∧ (len < 2 ^ 20 ∨ 2 ^ 30 < len ∨ addr % 4096 ≠ 0)) then reject via Err.cmdFormat s
    else answer via 0 [] (modHport port (fun h => { h with capAddr := addr, capLen := len, capUsed := 0 }) s)

/-- CAN_SET (R537). -/
def execCanSet (via : Via) (gid timeout : Nat) (s : State) : Host.Outcome State Fault Refusal :=
  verb via 0x0902 s fun s => match findLive s via gid with
    | .error e => reject via e s
    | .ok l =>
      if 65535 < timeout then reject via Err.cmdFormat s
      else answer via 0 [] (modRas (fun r => { r with canTime := tset 100 r.canTime l timeout }) s)

/-- RAS_RESET: answered as the reset begins. The chip scope starts a halted chip again (R577). -/
def execRasReset (via : Via) (scope num : Nat) (s : State) : Host.Outcome State Fault Refusal :=
  verb via 0x0903 s fun s =>
    if scope = 3 then
      if s.chip.phase < 2 ∨ s.chip.phase = 8 then reject via Err.resourceBusy s
      else
        let s := answer via 0 [] s
        resetChip Err.domainReset (if s.chip.phase = 6 then modChip (fun c => { c with fails := 0 }) s else s)
    else if !((scope = 1 ∧ num < 96) ∨ (scope = 2 ∧ num < 8)) then reject via Err.cmdFormat s
    else if s.chip.phase ≠ 3 then reject via Err.resourceBusy s
    else if scope = 1 then afterOps (startBlockReset num Err.domainReset false (answer via 0 [] s))
    else afterOps (startRegionReset num Err.domainReset false (answer via 0 [] s))

/-- RAS_UNRETIRE (R531). -/
def execRasUnretire (via : Via) (port lanes : Nat) (s : State) : Host.Outcome State Fault Refusal :=
  verb via 0x0904 s fun s =>
    if 32 ≤ port then reject via Err.cmdFormat s
    else if portUp s port ∨ training s port then reject via Err.resourceBusy s
    else
      let ls := (lanesOf (lanes % 16)).filter fun n => (portOf s port).retired.testBit n || (fcOf s ⟨7, 4 * port + n⟩).retired
      let s := modPort port (fun t => { t with retired := maskOf ((lanesOf t.retired).filter fun n => !ls.contains n) }) s
      let s := each ls (fun n s => event 0x90C 5 7 (4 * port + n) 0 0 none
        (modPort port (fun t => { t with laneFail := tset 0 t.laneFail n 0 }) (modFc ⟨7, 4 * port + n⟩ (fun _ => {}) s))) s
      answer via 0 [] s

end Sys2Proof.Machine
end

