-- ==== Sys2Proof/Machine/Pins.lean ====
section
/-! DEFINITION. Reset pins (R594, R598), BAR4's size (R370), the driver's consumer words (R243, R394), the cluster-memory floors (R611 to
R617), and a peer's signal on a Drift port (R304). -/
namespace Sys2Proof.Machine
open Sys2Proof

/-! ### Reset inputs (R594) -/

/-- The module's conventional reset: the chip is reset and stays held; a module that runs no chip, or holds it already, is held when
its rails or its shutdown let it start (R598). -/
def holdChip (s : State) : State := if 2 ≤ s.chip.phase ∧ s.chip.phase < 7 then resetChip Err.domainReset s else s

/-- The inputs let a held chip start up. -/
def unholdChip (s : State) : State := if s.chip.phase = 7 ∧ !heldByPin s then modChip (fun c => { c with phase := 2 }) s else s

/-- MODULE_RESET_ASSERT: `MODULE_RESET#`, or `PERST0#` where it is the module's reset. -/
def execModuleResetAssert (perst : Bool) (s : State) : Host.Outcome State Fault Refusal :=
  run s fun s =>
    if perst then
      if s.img.applied.hostMode = 1 then s else holdChip (modChip (fun c => { c with perst0 := true }) s)
    else holdChip (modChip (fun c => { c with mReset := true }) s)

/-- MODULE_RESET_RELEASE. -/
def execModuleResetRelease (perst : Bool) (s : State) : Host.Outcome State Fault Refusal :=
  run s fun s =>
    if perst then
      if s.img.applied.hostMode = 1 then s else unholdChip (modChip (fun c => { c with perst0 := false }) s)
    else unholdChip (modChip (fun c => { c with mReset := false }) s)

/-- A port's `PERST#` input. -/
def setPerst (p : Nat) (v : Bool) : State → State := modChip fun c => if p = 0 then { c with perst0 := v } else { c with perst1 := v }

/-- PERST_ASSERT: in mode 1 the port's own link goes down; in mode 0 `PERST0#` resets the module and `PERST1#` is ignored (R589, R594). -/
def execPerstAssert (p : Nat) (s : State) : Host.Outcome State Fault Refusal :=
  run s fun s =>
    let s := setPerst p true s
    if s.img.applied.hostMode = 1 then modHport p (fun h => { h with rate := 0, width := 0 }) (portDownEff p s)
    else if p = 0 then holdChip s else s

/-- PERST_RELEASE: the port's link comes up again (R573). -/
def execPerstRelease (p : Nat) (s : State) : Host.Outcome State Fault Refusal :=
  run s fun s =>
    let s := setPerst p false s
    if s.img.applied.hostMode = 1 then (if s.chip.phase = 3 then linkUp p s else s)
    else if p = 0 then unholdChip s else s

/-! ### BAR4 and the driver's words -/

/-- BAR4_RESIZE: a power of two from 256 MiB to 2 TiB; every window of the port closes (R370, R372). -/
def execBar4Resize (p size : Nat) (s : State) : Host.Outcome State Fault Refusal :=
  run s fun s =>
    if (hostPorts s).contains p ∧ (List.range 14).any fun k => decide (size = 2 ^ (28 + k)) then modHport p (fun h => { h with bar4 := size, wins := [] }) s
    else s

/-- A write of a doorbell-page word that is no doorbell, by its offset (R394, R243). -/
def doConsumer (p l word v : Nat) (s : State) : State :=
  if !pageLive s p l then s
  else match word with
    | 0x018 => modQueue l (fun q => { q with cqHead := v % 2 ^ 64 }) s
    | 0x020 => modQueue l (fun q => { q with
        eqLost := q.eqLost && !v.testBit 7, undeliv := q.undeliv && !v.testBit 6, badTail := q.badTail && !v.testBit 5 }) s
    | 0x038 => modQueue l (fun q => { q with eqCons := v % 2 ^ 32 }) s
    | 0x800 =>
      let s := modXlLode l (fun x => { x with fqCons := v % 2 ^ 32 }) s
      modXlLode l (fun x => { x with fqPeriod := x.fqPeriod && fqFull x }) s
    | 0x810 => modXlLode l (fun x => { x with dlCons := v % 2 ^ 32 }) s
    | _ => s

/-- CONSUMER_POSITION_WRITE. It wakes nothing (R501). -/
def execConsumerPositionWrite (p l word v : Nat) (s : State) : Host.Outcome State Fault Refusal := run s (doConsumer p l word v)

/-! ### Cluster-memory floors (R611 to R617) -/

/-- The agreement rule of a set of floors (R617). -/
def cmaOk (v : Nat) : Bool :=
  decide (4 ≤ fld v 0 8) && decide (fld v 0 8 ≤ 16) && decide (4 * fld v 0 8 + fld v 8 8 + fld v 16 8 ≤ 128)

/-- The offset of a block's cluster-memory register (R617). -/
def cmaOff (b o : Nat) : Nat := 0x01000000 + b * 0x00080000 + o

/-- A write to a block's register wakes the block (R498). -/
def cmaWrite (who : Writer) (b o size v : Nat) (s : State) (f : Cma → Cma) : Host.Outcome State Fault Refusal :=
  regCmd (.registerWrite who (cmaOff b o) size v) who 4 (cmaOff b o) (if isHost who ∧ confBlock s b then 4 else 0) s fun s => modCma b f (wakeBlock b s)

/-- A write of `GO` (R612, R617). -/
def Cma.go (c : Cma) : Cma := if c.direct || decide (c.state = 1) then c else { c with going := true }

/-- A write of `DIRECT` (R614). Left while the live copy breaks the rule, direct mode gives it back the last good values. -/
def Cma.setDirect (v : Bool) (c : Cma) : Cma :=
  if v then
    if c.direct || c.pendingDirect then c
    else if c.going then { c with pendingDirect := true }
    else { c with direct := true, state := if c.state = 1 then 0 else c.state }
  else
    if c.pendingDirect then { c with pendingDirect := false }
    else if !c.direct then c
    else { c with direct := false, hold := false, live := if c.hold || !cmaOk c.live then c.good else c.live, state := if c.hold then 0 else c.state }

/-- A write of `MEM_CMA_SHARE` (R610, R613). -/
def Cma.share (v : Nat) (c : Cma) : Cma := { c with shadow := v % 2 ^ 24, live := if c.direct then v % 2 ^ 24 else c.live }

/-- A direct-mode safe point (R613). -/
def Cma.check (c : Cma) : Cma :=
  if cmaOk c.live then { c with hold := false, state := 2, error := 0, good := c.live } else { c with hold := true, state := 1 }

/-- A safe point (R612 to R614): a commit is evaluated first, then direct mode applies. -/
def Cma.safePoint (c : Cma) : Cma :=
  if c.direct then c.check
  else
    let c := if !c.going && decide (c.state ≠ 1) then c
      else if cmaOk c.shadow then { c with live := c.shadow, good := c.shadow, state := 2, error := 0, going := false }
      else { c with going := false, state := if c.pendingDirect then 0 else 1 }
    if c.pendingDirect then ({ c with direct := true, pendingDirect := false } : Cma).check else c

def execCmaCommit (who : Writer) (b : Nat) (s : State) : Host.Outcome State Fault Refusal :=
  cmaWrite who b 0x6008 4 (1 + if (cmaOf s b).direct || (cmaOf s b).pendingDirect then 2 else 0) s Cma.go

def execCmaDirectWrite (who : Writer) (b : Nat) (v : Bool) (s : State) : Host.Outcome State Fault Refusal :=
  cmaWrite who b 0x6008 4 (if v then 2 else 0) s (Cma.setDirect v)

def execCmaShareWrite (who : Writer) (b v : Nat) (s : State) : Host.Outcome State Fault Refusal := cmaWrite who b 0x6000 4 v s (Cma.share v)

/-- CMA_SAFE_POINT: the rounds are counted while the block's clock runs. -/
def execCmaSafePoint (b : Nat) (s : State) : Host.Outcome State Fault Refusal :=
  run s fun s => if (pblkOf s b).domain = 0 then modCma b Cma.safePoint s else s

/-- CMA_HOLD_EXPIRY: a hold of direct mode has lasted 1 ms (R613, R616). -/
def execCmaHoldExpiry (b : Nat) (s : State) : Host.Outcome State Fault Refusal :=
  run s fun s =>
    if !(cmaOf s b).hold then s
    else
      let s := modCma b (fun c => { c with live := c.good, hold := false, state := 3, error := Err.regOversub }) s
      match launchOf s b with
      | some (l, pos, _) => afterOps (endLaunch b Err.regOversub [] (addFailed l pos [(6, Err.regOversub, b, 1)] s))
      | none => s

/-- CMA_COMMIT_HOLD_EXPIRY: the rule still fails 1 ms after the commit (R612 step 4). -/
def execCmaCommitHoldExpiry (b : Nat) (s : State) : Host.Outcome State Fault Refusal :=
  run s fun s =>
    let c := cmaOf s b
    if c.direct ∨ c.state ≠ 1 ∨ cmaOk c.shadow then s else modCma b (fun c => { c with state := 3, error := Err.regOversub }) s

/-! ### A peer's signal -/

/-- LINK_SIGNAL_DETECT: an enabled port that found no peer trains when a signal appears on lanes that may train (R304). -/
def execLinkSignalDetect (p lanes : Nat) (s : State) : Host.Outcome State Fault Refusal :=
  run s fun s =>
    let t := portOf s p
    if !t.enable ∨ !imagePort s p ∨ t.state ≠ 7 ∨ lanes % 16 &&& trainable t = 0 then s else train p s

end Sys2Proof.Machine
end

