-- ==== Sys2Proof/Machine/Regulate.lean ====
section
/-! DEFINITION. The deadline clock, the bucket refill, the regulation group and its verbs (R288, R289, R296 to R298, R493), and
reduction packets in the mesh (R283 to R287). -/
namespace Sys2Proof.Machine
open Sys2Proof

/-! ### The deadline clock (R493) -/

/-- `cycles` crystal cycles pass: the accumulator gains 25 for each and ticks each time it passes 96. -/
def execDeadlineTick (cycles : Nat) (s : State) : Host.Outcome State Fault Refusal :=
  run s fun s => modChip (fun c => { c with tick := c.tick + (c.acc + 25 * cycles) / 96, acc := (c.acc + 25 * cycles) % 96 }) s

/-! ### The buckets (R289, R296) -/

/-- The agreement rule of the group (R297), over the shadow values. -/
def regAgrees (s : State) : Bool :=
  let ms := (List.range 161).map fun m => masterOf s m
  decide ((ms.map (·.min)).sum ≤ 265420) && decide (32 ≤ (masterOf s 160).min) && ms.all (fun m => decide (1 ≤ m.depth)) &&
    (List.range 161).all fun m => decide (lodeRates s m ≤ (masterOf s m).min)

/-- The shadow values take effect (R297); tokens stay within the new depth. -/
def regCopy (s : State) : State :=
  modNoc (fun n => { n with regState := 2, regError := 0, regGo := false })
    (each (List.range 161) (fun m => modMaster m fun k => { k with minL := k.min, depthL := k.depth, tokens := min k.tokens (k.depth * 1024) }) s)

/-- A refill of 40 ns: a lode bucket gains 4 × its rate, the master's own the rest of 4 × `MIN`. -/
def refillAll (s : State) : State :=
  let s := modNoc (fun n => { n with bucketTok := n.buckets.foldl (fun t b =>
    tset 0 t b.1 (min (tget 0 t b.1 + 4 * b.2) ((tget {} n.masters (b.1 / 128)).depthL * 1024))) n.bucketTok }) s
  each (List.range 161) (fun m s => modMaster m (fun k => { k with tokens := min (k.tokens + 4 * (k.minL - lodeRates s m)) (k.depthL * 1024) }) s) s

/-- BUCKET_REFILL: a commit waiting for the boundary, or held and now agreeing, takes effect; then the refill; then the waiting
requests and window packets of sealed-share lodes that their buckets cover, in order. -/
def execBucketRefill (s : State) : Host.Outcome State Fault Refusal :=
  run s fun s =>
    let s := if s.noc.regGo ∨ (s.noc.regState = 1 ∧ regAgrees s) then regCopy s else s
    let s := refillAll s
    let ws := s.noc.waiting
    let ps := s.noc.ingress
    let s := each ws issue (modNoc (fun n => { n with waiting := [], ingress := [] }) s)
    each ps (fun p => deliver (some p.1) p.2) s

/-- Starts a commit of the group (R297): at the next refill boundary, or held while the rule fails. -/
def regStart (s : State) : State :=
  if s.noc.regState = 1 then s
  else if regAgrees s then modNoc (fun n => { n with regGo := true }) s
  else modNoc (fun n => { n with regState := 1 }) s

def execRegCommit (who : Writer) (value : Nat) (s : State) : Host.Outcome State Fault Refusal :=
  regCmd (.regCommit who value) who 7 0x00040800 0 s fun s => if value.testBit 0 then regStart s else s

def execRegCommitHoldExpiry (s : State) : Host.Outcome State Fault Refusal :=
  run s fun s => if s.noc.regState = 1 ∧ !regAgrees s then modNoc (fun n => { n with regState := 3, regError := Err.regOversub }) s else s

/-! ### The verbs (R298) -/

def execRegMinSet (via : Via) (m mn depth : Nat) (s : State) : Host.Outcome State Fault Refusal :=
  verb via 0x0660 s fun s =>
    if 161 ≤ m ∨ 65535 < mn ∨ depth = 0 ∨ 1023 < depth then reject via Err.cmdFormat s
    else
      let t := modMaster m (fun k => { k with min := mn, depth := depth }) s
      if regAgrees t then answer via 0 [] (modNoc (fun n => { n with regGo := true }) t)
      else reject via Err.regOversub (modNoc (fun n => { n with regState := 3, regError := Err.regOversub }) s)

def execRegWeightSet (via : Via) (k w : Nat) (s : State) : Host.Outcome State Fault Refusal :=
  verb via 0x0661 s fun s =>
    if 64 ≤ k ∨ w = 0 ∨ 255 < w then reject via Err.cmdFormat s
    else answer via 0 [] (modNoc (fun n => { n with weights := tset 0 n.weights k w }) s)

/-- The lode buckets of a master: lode and rate. -/
def bucketsOf (s : State) (m : Nat) : List (Nat × Nat) := (s.noc.buckets.filter fun t => t.1 / 128 = m).map fun t => (t.1 % 128, t.2)

/-- REG_LODE_BUCKET_SET (R296): at a region DMA engine or a Drift ingress; at most 8, together at most the master's `MIN`. -/
def execRegLodeBucketSet (via : Via) (m gid rate : Nat) (s : State) : Host.Outcome State Fault Refusal :=
  verb via 0x0662 s fun s =>
    if m < 96 ∨ 160 ≤ m ∨ 65535 < rate then reject via Err.cmdFormat s
    else match findLive s via gid with
      | .error e => reject via e s
      | .ok l =>
        let k := lodeBucket m l
        let old := tget 0 s.noc.buckets k
        if old = 0 ∧ rate ≠ 0 ∧ 8 ≤ (bucketsOf s m).length then reject via Err.noCapacity s
        else if (masterOf s m).minL < lodeRates s m - old + rate then reject via Err.regOversub s
        else answer via 0 [] (modNoc (fun n => { n with
          buckets := tset 0 n.buckets k rate
          bucketTok := tset 0 n.bucketTok k (if rate = 0 then 0 else tget 0 n.bucketTok k) }) s)

/-- REG_QUERY: for a master the values in effect, its lode buckets and the bytes served; for a class its weight and bytes. -/
def execRegQuery (via : Via) (isClass : Bool) (n : Nat) (s : State) : Host.Outcome State Fault Refusal :=
  verb via 0x0663 s fun s =>
    if (isClass ∧ 64 ≤ n) ∨ (!isClass ∧ 161 ≤ n) then reject via Err.cmdFormat s
    else if isClass then
      let b := tget (0, 0) s.noc.served n
      answer via 0 (enc [(1, weightOf s n), (8, b.1), (8, b.2)]) s
    else
      let m := masterOf s n
      let bs := (bucketsOf s n).filter fun b => (findVia s via (lodeOf s b.1).gid).isSome
      answer via 0 (enc ([(2, m.minL), (2, m.depthL), (1, bs.length)] ++ bs.flatMap (fun b => [(4, (lodeOf s b.1).gid), (2, b.2)]) ++
        [(8, m.conform), (8, m.excess)])) s

/-! ### Reduction packets in the mesh (R283 to R287) -/

/-- Whether two reduction packets combine (R283); together they name at most 8 contributors, over the same bytes. -/
def combines (a b : RedPkt) : Bool :=
  decide (a.lode = b.lode) && decide (a.etag = b.etag) && decide (a.dblock = b.dblock) && decide (a.dline = b.dline) &&
    decide (a.rop = b.rop) && decide (a.efmt = b.efmt) && decide (a.data.length = b.data.length) &&
    decide (a.contribs.length + b.contribs.length ≤ 8)

/-- The merged packet (R285). -/
def mergeRed (a b : RedPkt) : RedPkt := { a with contribs := a.contribs ++ b.contribs, data := mergeBytes a.rop a.efmt a.data b.data }

def setComb (router : Nat) (l : List RedPkt) (s : State) : State := modNoc (fun n => { n with comb := tset [] n.comb router l }) s

/-- A router forwards a reduction packet by dimension order: to the next router, or to the destination block behind this one (R272, R284). -/
def forwardRed (router : Nat) (p : RedPkt) (s : State) : State :=
  emit (.reduction router (if router = p.dblock then none else some (nextHop router p.dblock)) p) s

/-- A packet reaches a router: forwarded at once, merged into a waiting entry, or held as the newest entry. A row sent again goes without
combining (R287). -/
def execReductionPacketArrive (router : Nat) (p : RedPkt) (s : State) : Host.Outcome State Fault Refusal :=
  run s fun s =>
    let r := regionOf s (router / 12)
    let held := tget [] s.noc.comb router
    if !r.combEn || r.noComb.contains router || decide (r.combHold = 0) || p.alone || decide (8 ≤ p.contribs.length) then forwardRed router p s
    else match held.find? (combines p) with
      | some e =>
        let m := mergeRed e p
        if 8 ≤ m.contribs.length then forwardRed router m (setComb router (held.erase e) s)
        else setComb router (held.map fun x => if x = e then m else x) s
      | none =>
        match held with
        | old :: rest =>
          if 64 ≤ held.length then forwardRed router old (setComb router (rest ++ [p]) s) else setComb router (held ++ [p]) s
        | [] => setComb router [p] s

/-- The oldest entry of a router has waited its time: it is forwarded (R284). -/
def execCombineHoldExpiry (router : Nat) (s : State) : Host.Outcome State Fault Refusal :=
  run s fun s => match tget [] s.noc.comb router with
    | p :: rest => forwardRed router p (setComb router rest s)
    | [] => s

/-- The destination applies a packet as one memory-side update and acknowledges each contributor (R259, R286). A block that is not the
lode's, or a tag of neither live epoch, rejects it (R40). -/
def execReductionApply (p : RedPkt) (s : State) : Host.Outcome State Fault Refusal :=
  run s fun s =>
    let ack (e : Nat) (s : State) : State := each p.contribs (fun c => emit (.reduceAck c.1 c.2 e)) s
    let k := blockOf s p.dblock
    if (lodeOf s p.lode).state = 0 ∨ !tagLive s p.lode p.etag ∨ k.lode ≠ p.lode ∨ (k.state ≠ 1 ∧ k.state ≠ 2) then ack Err.staleEpoch s
    else
      let a := blockBase p.dblock + p.dline * 64
      match rdPhys s a p.data.length with
      | .error e => ack e s
      | .ok old =>
        let (e, s) := settle s (wrPhys a (mergeBytes p.rop p.efmt old p.data) (wakeAddr a s))
        ack e s

end Sys2Proof.Machine
end

