-- ==== Sys2Proof/Machine/Registers.lean ====
section
/-! DEFINITION. The register map (R601 to R619): every register of BAR0 with its value, its fields and its writes, and the words of BAR2
(R371, R378, R394, R243). -/
namespace Sys2Proof.Machine
open Sys2Proof

/-- A value that a register write gives: what the register would hold, the bits given, and which bits the write covers. -/
structure Given where
  full : Nat
  bits : Nat
  mask : Nat

/-- A register: where it starts, its bytes, its function, its value, the bits of its fields (the others are reserved), whether the host
may not see it (R606), whether its reads need the function unlocked (R124, R189), whether its writable fields need no unlocking (R605),
the lode whose doorbell port alone sees it (R371), whether a field of it spans bits 31 and 32 (R601), what a read leaves of it (R9), and
its writes: none for a read-only register, else a reason of R607 or the state after it. -/
structure Reg where
  base   : Nat
  size   : Nat
  fn     : Nat
  val    : Nat
  fields : Nat
  conf   : Bool := false
  rlock  : Bool := false
  opn    : Bool := false
  lode   : Option Nat := none
  whole  : Bool := false
  clear  : Option (Nat → State → State) := none
  put    : Option (Writer → Given → State → Except Nat State) := none

/-- The bits of fields, each given by its lowest bit and its width. -/
def fieldMask (l : List (Nat × Nat)) : Nat := (l.map fun f => (2 ^ f.2 - 1) * 2 ^ f.1).sum

/-- Which entry of an array of registers covers an offset. -/
def span (off base stride count size : Nat) : Option Nat :=
  if base ≤ off ∧ (off - base) / stride < count ∧ (off - base) % stride < size then some ((off - base) / stride) else none

/-- One bit of a word. -/
def flag (b : Bool) (n : Nat) : Nat := if b then 2 ^ n else 0

/-- A write that takes effect whatever the value. -/
def puts (f : Given → State → State) : Option (Writer → Given → State → Except Nat State) := some fun _ g s => .ok (f g s)

/-- A write that needs its value in range (R607 reason 8). -/
def putsIf (c : Given → Bool) (f : Given → State → State) : Option (Writer → Given → State → Except Nat State) :=
  some fun _ g s => if c g then .ok (f g s) else .error 8

/-! ### Headframe, interrupts, regulation (R89, R299, R374, R375, R377, R579, R618) -/

/-- `HF_IMAGE_STATUS` (R89). -/
def imageStatus (p : SlotPair) : Nat :=
  p.a.state % 8 + p.b.state % 8 * 2 ^ 4 + p.pref % 2 * 2 ^ 8 + flag p.trial 9 + p.inUse % 4 * 2 ^ 10 + flag p.session.isSome 12 + p.lastErr % 2 ^ 16 * 2 ^ 16

/-- `HF_WRITE_ERR` (R618). -/
def writeErr (h : HPort) : Nat := h.errReason % 16 + h.errCount % 256 * 2 ^ 8 + h.errOff % 2 ^ 26 * 2 ^ 32

/-- A write of an MSI-X table entry; unmasking a pending vector raises it. -/
def msixPut (p v n : Nat) (s : State) : State :=
  let s := modHport p (fun h => { h with msix := tset (2 ^ 96) h.msix v n }) s
  if !n.testBit 96 ∧ tget false (hportOf s p).pba v then emit (.msix p v) (modHport p (fun h => { h with pba := tset false h.pba v false }) s) else s

/-- The pending bits of 64 vectors. -/
def pbaWord (h : HPort) (i : Nat) : Nat := maskOf ((List.range 64).filter fun k => tget false h.pba (i * 64 + k))

/-- The port whose function a writer reaches: a host's own, else port 0. -/
def writerPort (who : Writer) : Nat :=
  match who with
  | .host p => p
  | _ => 0

/-- Registers below 0x4_0000, as port `p` sees them. -/
def regHf (s : State) (p off : Nat) : Option Reg :=
  let h := hportOf s p
  if off < 0x10000 then
    if off = 0 then some { base := 0, size := 4, fn := 0, val := 0x24011000, fields := fieldMask [(8, 24)] }
    else if off = 8 then
      some { base := 8, size := 4, fn := 0, val := 0x0101 + h.drvMax % 256 * 2 ^ 16 + h.settled % 256 * 2 ^ 24, fields := fieldMask [(0, 32)], opn := true
             put := some fun who g s => .ok (doDrvMax (writerPort who) (fld g.full 16 8) s) }
    else if off = 0x10 then
      some { base := 0x10, size := 4, fn := 0, fields := fieldMask [(12, 12)], opn := true
             val := flag h.genDisc 12 + p % 2 * 2 ^ 13 + s.img.applied.hostMode % 2 * 2 ^ 14 + h.width % 32 * 2 ^ 15 + h.rate % 16 * 2 ^ 20
             put := some fun who g s => .ok (if g.bits.testBit 12 then modHport (writerPort who) (fun h => { h with genDisc := false }) s else s) }
    else if off = 0x18 then
      some { base := 0x18, size := 4, fn := 0, val := h.aperErr, fields := fieldMask [(0, 32)]
             clear := some fun v s => modHport p (fun h => { h with aperErr := v }) s }
    else if off = 0x20 then some { base := 0x20, size := 4, fn := 0, val := s.img.applied.expert % 2 ^ 18, fields := fieldMask [(0, 18)] }
    else if 0x28 ≤ off ∧ off < 0x30 then
      some { base := 0x28, size := 8, fn := 0, val := writeErr h, fields := fieldMask [(0, 4), (8, 8), (32, 26)]
             clear := some fun v s => modHport p (fun h => { h with errReason := fld v 0 4, errCount := fld v 8 8, errOff := fld v 32 26 }) s }
    else if 0x100 ≤ off ∧ off < 0x108 then
      some { base := 0x100, size := 8, fn := 0, val := hfBoot s, fields := fieldMask [(0, 4), (8, 1), (12, 10), (32, 2), (48, 16)] }
    else if off = 0x200 then
      some { base := 0x200, size := 4, fn := 0, val := imageStatus s.img.slots, fields := fieldMask [(0, 3), (4, 3), (8, 5), (16, 16)] }
    else none
  else if off < 0x20000 then
    let v := (off - 0x10000) / 16
    some { base := 0x10000 + 16 * v, size := 16, fn := 0, val := tget (2 ^ 96) h.msix v, fields := fieldMask [(2, 95)], opn := true
           put := some fun who g s => .ok (msixPut (writerPort who) v (g.full % 2 ^ 97) s) }
  else (span off 0x20000 8 64 8).map fun i =>
    { base := 0x20000 + 8 * i, size := 8, fn := 0, val := pbaWord h i, fields := fieldMask [(0, 64)] }

/-- Regulation registers and barrier pages (R299). -/
def regRegulate (s : State) (off : Nat) : Option Reg :=
  if off < 0x40800 then (span off 0x40000 8 161 4).map fun m =>
    { base := 0x40000 + 8 * m, size := 4, fn := 7, val := (masterOf s m).min % 2 ^ 16 + (masterOf s m).depth % 2 ^ 10 * 2 ^ 16, fields := fieldMask [(0, 26)]
      put := putsIf (fun g => fld g.full 16 10 ≠ 0) fun g => modMaster m fun x => { x with min := fld g.full 0 16, depth := fld g.full 16 10 } }
  else if off = 0x40800 then some { base := off, size := 4, fn := 7, val := 0, fields := 1, put := puts fun g s => if g.bits.testBit 0 then regStart s else s }
  else if off = 0x40808 then
    some { base := off, size := 4, fn := 7, val := s.noc.regState % 4 + s.noc.regError % 2 ^ 16 * 2 ^ 16, fields := fieldMask [(0, 2), (16, 16)] }
  else if off < 0x41000 then (span off 0x40A00 4 64 4).map fun k =>
    { base := 0x40A00 + 4 * k, size := 4, fn := 7, val := weightOf s k % 256, fields := fieldMask [(0, 8)]
      put := putsIf (fun g => fld g.full 0 8 ≠ 0) fun g => modNoc fun n => { n with weights := tset 0 n.weights k (fld g.full 0 8) } }
  else (span off 0x41000 8 64 4).map fun i =>
    { base := 0x41000 + 8 * i, size := 4, fn := 6, val := flag (barPageOf s i).bound 0 + (barPageOf s i).lode % 128 * 2, fields := fieldMask [(0, 8)] }

/-! ### The lode map (R60) -/

/-- `LM_STATUS`. -/
def lmStatus (s : State) : Nat :=
  flag s.lm.mapReady 0 + flag s.lm.defaulted 1 + s.lm.imageSlot % 2 * 4 + flag (unlocked s 1) 3 + (lodes s).length * 2 ^ 8 + rebinds s * 2 ^ 16

/-- `LM_LODE_STATE` of a lode. -/
def lodeWord (s : State) (l : Nat) : Nat :=
  let d := lodeOf s l
  lodeState s l + flag (multichip s l) 4 + flag d.conf 5 + flag d.prevLive 6 + flag d.coord 7 + (blocksOf s l).length * 2 ^ 8 +
    (setsOf s l).length * 2 ^ 16 + (gransOf s l).length * 2 ^ 24 + (if d.home then d.pasid % 2 ^ 20 else 0) * 2 ^ 40

/-- `LM_BLOCK` of a block. -/
def blockWord (k : Block) : Nat := k.lode % 128 * 2 ^ 6 + k.slot % 128 * 2 ^ 13 + k.state % 8 * 2 ^ 20 + flag k.drain 23

/-- The lode-map registers (R60). -/
def regLm (s : State) (off : Nat) : Option Reg :=
  let m := s.lm
  if off = 0x100000 then some { base := off, size := 4, fn := 1, val := lmStatus s, fields := fieldMask [(0, 4), (8, 16)] }
  else if 0x100040 ≤ off ∧ off < 0x100048 then
    some { base := 0x100040, size := 8, fn := 1, fields := fieldMask [(0, 4), (16, 39)]
           val := m.stKind + m.stRes * 2 ^ 16 + m.stDonor * 2 ^ 32 + m.stRecv * 2 ^ 40 + m.stSlot * 2 ^ 48
           put := some fun _ g s => if 6 ≤ fld g.full 0 4 then .error 6 else .ok (modLm (fun m => { m with
             stKind := fld g.full 0 4, stRes := fld g.full 16 16, stDonor := fld g.full 32 8, stRecv := fld g.full 40 8, stSlot := fld g.full 48 7 }) s) }
  else if 0x100048 ≤ off ∧ off < 0x100050 then
    some { base := 0x100048, size := 8, fn := 1, val := m.stUnits + m.stRate * 2 ^ 8, fields := fieldMask [(0, 7), (8, 8)]
           put := putsIf (fun g => fld g.full 0 7 ≤ 64 && decide (1 ≤ fld g.full 8 8) && decide (fld g.full 8 8 ≤ 32)) fun g =>
             modLm fun m => { m with stUnits := fld g.full 0 7, stRate := fld g.full 8 8 } }
  else if off = 0x100050 then
    some { base := off, size := 4, fn := 1, val := 0, fields := 1, put := puts fun g s => if g.bits.testBit 0 then stageGo s.lm.stKind s else s }
  else if off = 0x100058 then some { base := off, size := 4, fn := 1, val := m.opState % 8 + m.opError % 2 ^ 16 * 2 ^ 16, fields := fieldMask [(0, 3), (16, 16)] }
  else if off < 0x102000 then (span off 0x101000 16 96 16).map fun l =>
    if (off - 0x101000) % 16 < 8 then
      { base := 0x101000 + 16 * l, size := 8, fn := 1, val := (lodeOf s l).epoch % 2 ^ 32 + (lodeOf s l).gid % 2 ^ 32 * 2 ^ 32, fields := fieldMask [(0, 64)], lode := some l }
    else
      { base := 0x101008 + 16 * l, size := 8, fn := 1, val := lodeWord s l, fields := fieldMask [(0, 15), (16, 21), (40, 20)], lode := some l }
  else (span off 0x102000 8 96 4).map fun b =>
    { base := 0x102000 + 8 * b, size := 4, fn := 1, val := blockWord (blockOf s b), fields := fieldMask [(6, 18)], put := puts fun g => drainWrite b g.full }

/-! ### Translation, scheduling, security (R242, R450, R456, R461, R489) -/

/-- The translation registers, read-only (R242). -/
def regXl (s : State) (off : Nat) : Option Reg :=
  if off = 0x200000 then
    some { base := off, size := 4, fn := 5, val := (262144 - descSlots s) / 16 % 2 ^ 15 + s.xl.invals.length % 256 * 2 ^ 16, fields := fieldMask [(0, 15), (16, 8)] }
  else if off < 0x208000 then (span off 0x201000 0x40 96 0x20).bind fun l =>
    let x := xlLodeOf s l
    let base := 0x201000 + 0x40 * l
    let o := off - base
    if o < 4 then some { base := base, size := 4, fn := 5, val := x.tblBase % 2 ^ 13 + x.tblCnt % 2 ^ 14 * 2 ^ 16, fields := fieldMask [(0, 13), (16, 14)], lode := some l }
    else if o = 8 then some { base := base + 8, size := 4, fn := 5, val := x.fqProd % 2 ^ 32, fields := fieldMask [(0, 32)], lode := some l }
    else if 0x10 ≤ o ∧ o < 0x18 then
      some { base := base + 0x10, size := 8, fn := 5, val := flag x.dlOn 0 + flag x.coarse 1 + x.dlProd % 2 ^ 32 * 2 ^ 32, fields := fieldMask [(0, 2), (32, 32)], lode := some l }
    else if o = 0x18 then
      some { base := base + 0x18, size := 4, fn := 5, val := flag x.fqReady 0 + flag (x.fqReady && fqFull x) 1 + flag x.fqOver 2, fields := fieldMask [(0, 3)], lode := some l }
    else none
  else (span off 0x208000 8 4096 8).map fun c =>
    let x := xlCtxOf s c
    { base := 0x208000 + 8 * c, size := 8, fn := 5, fields := fieldMask [(16, 25), (56, 8)], conf := x.valid && (lodeOf s x.lode).conf
      val := if x.valid then x.root % 2 ^ 25 * 2 ^ 16 + x.lode % 128 * 2 ^ 56 + 2 ^ 63 else 0 }

/-- The scheduling registers and the Tally (R450, R456). -/
def regSch (s : State) (off : Nat) : Option Reg :=
  if off < 0x310000 then (span off 0x300000 0x40 96 0x18).bind fun l =>
    let d := schedOf s l
    let base := 0x300000 + 0x40 * l
    let o := off - base
    if o < 8 then
      some { base := base, size := 8, fn := 10, val := d.slot % 2 ^ 9 * 2 ^ 16 + d.phase % 16 * 2 ^ 32 + d.running % 2 ^ 12 * 2 ^ 36, fields := fieldMask [(16, 9), (32, 16)], lode := some l }
    else if o = 8 then
      some { base := base + 8, size := 4, fn := 10, val := d.idle % 256 * 2 ^ 8 + d.quantum % 2 ^ 10 * 2 ^ 16, fields := fieldMask [(8, 18)], lode := some l
             put := putsIf (fun g => 10 ≤ fld g.full 16 10 && decide (fld g.full 16 10 ≤ 1000) && decide (fld g.full 8 8 ≠ 0)) fun g =>
               modSched l fun d => { d with quantum := fld g.full 16 10, idle := fld g.full 8 8 } }
    else if 0x10 ≤ o then some { base := base + 0x10, size := 8, fn := 10, val := d.lastNs % 2 ^ 32 + d.switches % 2 ^ 32 * 2 ^ 32, fields := fieldMask [(0, 64)], lode := some l }
    else none
  else if off < 0x360000 then (span off 0x310000 0x40 4096 0x40).map fun c =>
    { base := 0x310000 + 0x40 * c, size := 64, fn := 11, val := unle (tallyBytes (ctxOf s c).tally), fields := fieldMask [(0, 512)] }
  else (span off 0x360000 16 4096 16).map fun c =>
    let x := ctxOf s c
    { base := 0x360000 + 16 * c, size := 16, fn := 10, fields := fieldMask [(24, 4), (34, 30), (64, 64)]
      val := x.state % 16 * 2 ^ 24 + x.defcls % 64 * 2 ^ 34 + x.res % 256 * 2 ^ 40 + x.weight % 2 ^ 16 * 2 ^ 48 + x.mask % 2 ^ 64 * 2 ^ 64
      put := some fun _ g s =>
        if fld g.mask 48 16 = 0 then .ok s
        else if fld g.full 48 16 = 0 then .error 8 else .ok (modCtx c (fun x => { x with weight := fld g.full 48 16 }) s) }

/-- Whether a slot belongs to a confidential lode or a context of one. -/
def slotConf (s : State) (v : VSlot) : Bool :=
  v.valid && match v.owner with
    | 1 => (lodeOf s v.ownerId).conf
    | 2 => (lodeOf s (ctxOf s v.ownerId).lode).conf
    | _ => false

/-- The security registers (R489). -/
def regSec (s : State) (off : Nat) : Option Reg :=
  let c := s.sec
  let xmss (k : Xmss) : Nat := k.next % 2 ^ 40 + flag k.spent 40
  if off = 0x400000 then
    some { base := off, size := 4, fn := 12, fields := fieldMask [(0, 12), (16, 8)]
           val := ((List.range 240).filter fun i => !(vslotOf s (16 + i)).valid).length + c.identity % 4 * 2 ^ 8 + flag c.authSet 10 + flag c.locked 11 + c.enrol % 256 * 2 ^ 16 }
  else if off = 0x400008 then
    some { base := off, size := 4, fn := 12, val := c.seen % 32 + c.lock % 32 * 2 ^ 8 + c.boot % 256 * 2 ^ 16, fields := fieldMask [(0, 5), (8, 5), (16, 8)]
           put := puts fun g => modSec fun c => { c with seen := c.seen &&& (31 - g.bits % 32) } }
  else if 0x400010 ≤ off ∧ off < 0x400018 then some { base := 0x400010, size := 8, fn := 12, val := xmss c.idKey, fields := fieldMask [(0, 41)] }
  else if 0x400018 ≤ off ∧ off < 0x400020 then some { base := 0x400018, size := 8, fn := 12, val := xmss c.atKey, fields := fieldMask [(0, 41)] }
  else (span off 0x410000 8 256 8).map fun i =>
    { base := 0x410000 + 8 * i, size := 8, fn := 12, val := slotWord (vslotOf s i), fields := fieldMask [(0, 64)], conf := slotConf s (vslotOf s i) }

/-! ### Power and Lamp (R520, R600) -/

/-- `LAMP_PINS` (R600). -/
def lampPins (s : State) : Nat :=
  flag (bootDone s) 1 + flag s.chip.alarmOut 2 + flag s.chip.thermTrip 3 + flag s.chip.mReset 4 + flag s.chip.perst0 5 + flag s.chip.perst1 6 +
    flag s.chip.shieldOk 8 + s.chip.smbAddr % 8 * 2 ^ 9

/-- The power and Lamp registers. -/
def regPwr (s : State) (off : Nat) : Option Reg :=
  let p := s.pwr
  if off = 0x500000 then some { base := off, size := 4, fn := 13, val := pwrStatus s, fields := fieldMask [(0, 5), (12, 3), (16, 4), (24, 8)] }
  else if off = 0x500008 then
    some { base := off, size := 4, fn := 13, val := flag p.gov 0 + flag p.autoRestart 1 + p.autoDoze % 256 * 2 ^ 8 + p.blockIdle % 256 * 2 ^ 16, fields := fieldMask [(0, 2), (8, 16)]
           put := putsIf (fun g => fld g.full 16 8 ≠ 0) fun g s =>
             governAll (modPwr (fun p => { p with gov := g.full.testBit 0, autoRestart := g.full.testBit 1, autoDoze := fld g.full 8 8, blockIdle := fld g.full 16 8 }) s) }
  else if 0x500040 ≤ off ∧ off < 0x500060 then
    let k := (off - 0x500040) / 8
    some { base := 0x500040 + 8 * k, size := 8, fn := 13, val := pwrFrac s k, fields := fieldMask [(0, 64)] }
  else if 0x500080 ≤ off ∧ off < 0x500088 then some { base := 0x500080, size := 8, fn := 13, val := p.energy % 2 ^ 64, fields := fieldMask [(0, 64)] }
  else if 0x500088 ≤ off ∧ off < 0x5000A8 then
    let k := (off - 0x500088) / 8
    some { base := 0x500088 + 8 * k, size := 8, fn := 13, val := tget 0 p.energyF k % 2 ^ 64, fields := fieldMask [(0, 64)] }
  else if off = 0x500100 then
    some { base := off, size := 4, fn := 13, val := p.dvfsIdx % 128 + flag p.dvfsReg 15 + p.dvfsErr % 2 ^ 16 * 2 ^ 16, fields := fieldMask [(0, 7), (15, 17)]
           clear := some fun v s => modPwr (fun p => { p with dvfsIdx := fld v 0 7, dvfsReg := v.testBit 15, dvfsErr := fld v 16 16 }) s }
  else if off < 0x502000 then (span off 0x501000 16 8 4).map fun r =>
    { base := 0x501000 + 16 * r, size := 4, fn := 13, val := pwrRegion s r, fields := fieldMask [(0, 32)]
      put := some fun who g s => if topPoint s < fld g.full 0 3 then .error 8 else .ok (writeVreq who r (fld g.full 0 3) s) }
  else if off < 0x580000 then (span off 0x502000 8 96 4).map fun b =>
    { base := 0x502000 + 8 * b, size := 4, fn := 13, val := pwrBlock s b, fields := fieldMask [(0, 9), (10, 2), (15, 1)]
      put := some fun who g s => if topPoint s < fld g.full 0 3 then .error 8 else .ok (writeReq who b (fld g.full 0 3) s) }
  else if off < 0x580008 then some { base := 0x580000, size := 8, fn := 14, val := s.chip.tick % 2 ^ 64, fields := fieldMask [(0, 64)] }
  else if off = 0x580008 then
    some { base := off, size := 4, fn := 14, fields := fieldMask [(0, 5)]
           val := flag s.chip.stby 0 + flag s.chip.aux 1 + flag s.chip.main 2 + flag s.chip.xtalFall 3 + flag s.chip.mainLow 4 }
  else if off = 0x580010 then some { base := off, size := 4, fn := 14, val := lampPins s, fields := fieldMask [(1, 6), (8, 4)] }
  else none

/-! ### Reliability, Canary, event recorder (R552, R568) -/

/-- The reliability, Canary and event-recorder registers. -/
def regRas (s : State) (off : Nat) : Option Reg :=
  let r := s.ras
  if off = 0x600000 then
    some { base := off, size := 4, fn := 15, fields := fieldMask [(0, 2), (8, 24)]
           val := flag r.unserv 0 + flag r.mapLost 1 + min 255 r.blkRst * 2 ^ 8 + min 255 r.regRst * 2 ^ 16 + min 255 r.capDrop * 2 ^ 24
           clear := some fun v s => modRas (fun r => { r with capDrop := fld v 24 8 }) s }
  else if off = 0x600008 then
    some { base := off, size := 4, fn := 15, val := r.window % 2 ^ 16 + r.ceCell % 256 * 2 ^ 16, fields := fieldMask [(0, 24)]
           put := putsIf (fun g => fld g.full 0 16 ≠ 0 && decide (fld g.full 0 16 ≤ 1440)) fun g =>
             modRas fun r => { r with window := fld g.full 0 16, ceCell := fld g.full 16 8 } }
  else if off = 0x600010 then
    some { base := off, size := 4, fn := 15, val := r.capHead % 32 + flag r.capEn 5 + r.capLines % 32 * 2 ^ 8, fields := fieldMask [(0, 6), (8, 5)]
           put := putsIf (fun g => fld g.full 0 5 ≤ 16 && decide (fld g.full 8 5 ≤ 16)) fun g =>
             modRas fun r => { r with capHead := fld g.full 0 5, capEn := g.full.testBit 5, capLines := fld g.full 8 5 } }
  else if off = 0x640000 then
    some { base := off, size := 4, fn := 16, val := min 3 r.hf.misses + r.lastBlk % 128 * 2 ^ 8 + min 65535 r.hangs * 2 ^ 16, fields := fieldMask [(0, 2), (8, 7), (16, 16)] }
  else if off < 0x680000 then (span off 0x641000 8 96 4).map fun l =>
    { base := 0x641000 + 8 * l, size := 4, fn := 16, val := tget 100 r.canTime l % 2 ^ 16 + flag (tget false r.canHung l) 16, fields := fieldMask [(0, 17)], lode := some l
      put := puts fun g => modRas fun r => { r with
        canTime := tset 100 r.canTime l (fld g.full 0 16)
        canHung := if g.bits.testBit 16 then tset false r.canHung l false else r.canHung } }
  else
    let e := s.evr
    if off < 0x680008 then
      some { base := 0x680000, size := 8, fn := 17, fields := fieldMask [(0, 3), (8, 56)]
             val := flag e.ready 0 + flag (!e.clearing.isEmpty) 1 + flag e.pcycSat 2 + (254 - e.clears.length) * 2 ^ 8 + min 65535 e.dropped * 2 ^ 16 + e.nextSeq % 2 ^ 32 * 2 ^ 32 }
    else if off < 0x680010 then some { base := 0x680008, size := 8, fn := 17, val := e.opsec % 2 ^ 40, fields := fieldMask [(0, 40)] }
    else if off = 0x680010 then some { base := off, size := 4, fn := 17, val := e.pcycles % 2 ^ 32, fields := fieldMask [(0, 32)] }
    else none

/-! ### Drift and Utwelas (R341, R364) -/

/-- A write of `DR_PORT_CTL`, field by field: `LANE_OFF` of a port that is not down and `ENABLE` of a port that the image disables keep
their value. -/
def portCtlPut (who : Writer) (p : Nat) (g : Given) (s : State) : State :=
  let lanes := fld g.full 4 4
  let s := if (portOf s p).laneOff ≠ lanes ∧ (portUp s p || training s p) then discard who (portCtl p) 7 s else s
  let s := setLowrate p (g.full.testBit 2) (setLaneOff p lanes s)
  let on := g.full.testBit 0
  let s := if on ∧ !imagePort s p then discard who (portCtl p) 8 s
    else if (portOf s p).enable = on then s else setEnable p on s
  if g.bits.testBit 1 ∧ (portOf s p).enable ∧ imagePort s p then train p s else s

/-- The Drift and Utwelas registers. -/
def regDr (s : State) (off : Nat) : Option Reg :=
  let d := s.dr
  if off = 0x700000 then
    some { base := off, size := 4, fn := 8, val := (if d.assigned then d.devid % 2 ^ 14 else 0) + flag d.assigned 16, fields := fieldMask [(0, 14), (16, 1)] }
  else if off = 0x700010 then
    some { base := off, size := 4, fn := 8, val := flag d.combEn 0 + d.combHold % 256 * 2 ^ 8, fields := fieldMask [(0, 1), (8, 8)]
           put := puts fun g => modDr fun d => { d with combEn := g.full.testBit 0, combHold := fld g.full 8 8 } }
  else if off = 0x700018 then
    some { base := off, size := 4, fn := 8, val := d.timeout % 2 ^ 16 + d.escWait % 2 ^ 16 * 2 ^ 16, fields := fieldMask [(0, 32)]
           put := putsIf (fun g => fld g.full 0 16 ≠ 0 && decide (fld g.full 16 16 ≠ 0)) fun g =>
             modDr fun d => { d with timeout := fld g.full 0 16, escWait := fld g.full 16 16 } }
  else if off < 0x720000 then (span off 0x700100 0x20 32 0x18).bind fun p =>
    let base := 0x700100 + 0x20 * p
    let t := portOf s p
    let o := off - base
    if o < 4 then
      some { base := base, size := 4, fn := 8, val := flag t.enable 0 + flag t.lowrate 2 + t.laneOff % 16 * 2 ^ 4, fields := fieldMask [(0, 3), (4, 4)]
             put := some fun who g s => .ok (portCtlPut who p g s) }
    else if 8 ≤ o ∧ o < 0x10 then
      some { base := base + 8, size := 8, fn := 8, val := portStatus t, fields := fieldMask [(0, 21), (24, 21), (48, 16)]
             put := puts fun g s => if g.bits.testBit 20 then modPort p (fun t => { t with discard := false }) s else s }
    else if 0x10 ≤ o then
      some { base := base + 0x10, size := 8, fn := 8, val := laneErrWord t, fields := fieldMask [(0, 64)]
             clear := some fun v s => modPort p (fun t => { t with laneErr := (List.range 4).foldl (fun e l => tset 0 e l (fld v (16 * l) 16)) t.laneErr }) s }
    else none
  else if off < 0x740000 then (span off 0x720000 4 16384 4).map fun i =>
    { base := 0x720000 + 4 * i, size := 4, fn := 8, val := tget 0 d.routes i, fields := 0x9F9F9F9F
      put := puts fun g => modDr fun d => { d with routes := tset 0 d.routes i (g.full &&& 0x9F9F9F9F) } }
  else if off < 0x780000 then (span off 0x740000 0x20 4096 0x20).map fun w =>
    let e := rwinOf s w
    { base := 0x740000 + 0x20 * w, size := 32, fn := 8, val := rwtBits e, fields := fieldMask [(0, 256)], conf := e.valid && (lodeOf s e.lode).conf }
  else
    let u := s.ut
    if off < 0x780008 then
      some { base := 0x780000, size := 8, fn := 9, fields := fieldMask [(0, 13), (15, 49)]
             val := (u.records.filter fun r => decide (r.2.state ≠ 0)).length % 2 ^ 13 + flag u.poolCoord 15 + u.pool % 2 ^ 16 * 2 ^ 16 + u.poolEpoch % 2 ^ 32 * 2 ^ 32 }
    else if off = 0x780008 then
      some { base := off, size := 4, fn := 9, val := u.tick % 256, fields := fieldMask [(0, 8)]
             put := putsIf (fun g => 10 ≤ fld g.full 0 8) fun g => modUt fun u => { u with tick := fld g.full 0 8 } }
    else none

/-! ### Region and block windows (R124, R189, R212, R299, R617) -/

/-- Whether a chip physical address lies in a resource of a confidential lode. -/
def addrConf (s : State) (a : Nat) : Bool :=
  if a < 0x18000000000 then
    match s.lm.sets.find? fun t => decide (t.2.base ≤ a / 0x80000000) && decide (a / 0x80000000 < t.2.base + t.2.count) with
    | some t => decide (t.2.lode < 96) && (lodeOf s t.2.lode).conf
    | none => false
  else confBlock s ((a - 0x1C000000000) / 0x1000000)

/-- The set that holds a pseudo-channel, 0xFF for none. -/
def pcSet (s : State) (p : Nat) : Nat :=
  ((s.lm.sets.find? fun t => decide (t.2.state ≠ 0) && decide (t.2.base ≤ p) && decide (p < t.2.base + t.2.count)).map (·.1)).getD 0xFF

/-- The registers of region `r` at an offset of its window. -/
def regRegion (s : State) (r base o : Nat) : Option Reg :=
  let g := regionOf s r
  if o = 0x100 then some { base := base + o, size := 4, fn := 4, val := commonWays s r % 128 + waysOk s r * 2 ^ 8, fields := fieldMask [(0, 7), (8, 7)] }
  else if 0x108 ≤ o ∧ o < 0x110 then some { base := base + 0x108, size := 8, fn := 4, val := g.waysRet % 2 ^ 64, fields := fieldMask [(0, 64)] }
  else if o = 0x110 then
    some { base := base + o, size := 4, fn := 4, val := g.ceThresh % 2 ^ 16, fields := fieldMask [(0, 16)]
           put := puts fun v => modRegion r fun g => { g with ceThresh := fld v.full 0 16 } }
  else if o = 0x118 then
    some { base := base + o, size := 4, fn := 4, val := g.patrol % 256, fields := fieldMask [(0, 8)]
           put := puts fun v => modRegion r fun g => { g with patrol := fld v.full 0 8 } }
  else if 0x120 ≤ o ∧ o < 0x128 then
    some { base := base + 0x120, size := 8, fn := 4, val := g.errAddr % 2 ^ 44 + g.errStore % 256 * 2 ^ 56, fields := fieldMask [(0, 44), (56, 8)]
           conf := decide (g.errStore ≠ 0) && addrConf s g.errAddr
           clear := some fun v s => modRegion r (fun g => { g with errAddr := fld v 0 44, errStore := fld v 56 8 }) s }
  else if o < 0x1000 then (span o 0x200 4 64 4).map fun k =>
    { base := base + 0x200 + 4 * k, size := 4, fn := 4, val := (classWays s r).getD k 0 % 128, fields := fieldMask [(0, 7)] }
  else if o < 0x4000 then (span o 0x1000 8 96 8).map fun l =>
    let p := 96 * r + l
    { base := base + 0x1000 + 8 * l, size := 8, fn := 4, val := pcState s p % 16 + pcSet s p * 2 ^ 32 + min 65535 (pcOf s p).ceTotal * 2 ^ 48
      fields := fieldMask [(0, 4), (32, 8), (48, 16)] }
  else if o = 0x4000 then
    some { base := base + o, size := 4, fn := 6, val := flag g.combEn 0 + g.combHold % 256 * 2 ^ 8, fields := fieldMask [(0, 1), (8, 8)]
           put := puts fun v => modRegion r fun g => { g with combEn := v.full.testBit 0, combHold := fld v.full 8 8 } }
  else if o = 0x6000 then some { base := base + o, size := 4, fn := 6, val := waiters s r % 2 ^ 12, fields := fieldMask [(0, 12)] }
  else (span o 0x6100 8 64 4).map fun i =>
    let q := semPageOf s r i
    { base := base + 0x6100 + 8 * i, size := 4, fn := 6, val := flag q.bound 0 + flag q.ovf 1 + q.lode % 128 * 4, fields := fieldMask [(0, 9)]
      put := puts fun v s => if v.bits.testBit 1 then modSemPage r i (fun q => { q with ovf := false }) s else s }

/-- What a write does to an engine register of a block window. -/
def mePut (b o : Nat) : Option (Writer → Given → State → Except Nat State) :=
  match (o - 0x4000) % 64 with
  | 0 => puts fun g => writeMeReg b o g.full
  | 12 => puts fun g => writeMeReg b o g.bits
  | 24 => puts fun g => writeMeReg b o g.full
  | _ => none

/-- The bits of the fields of a register of the engines or cores of a block window. -/
def meFields (o : Nat) : Nat :=
  if o = 0x4100 then 15
  else if o = 0x5000 then 0x3F3F3F3F
  else if o = 0x5008 then 2 ^ 32 - 1
  else match (o - 0x4000) % 64 with
    | 0 => 3
    | 8 => fieldMask [(0, 4), (8, 4), (16, 16)]
    | 12 => 63
    | 16 => 2 ^ 32 - 1
    | _ => 2 ^ 64 - 1

/-- The registers of block `b` at an offset of its window. -/
def regBlock (s : State) (b base o : Nat) : Option Reg :=
  let c := cmaOf s b
  let conf := confBlock s b
  if o < 0x6000 then (blockReg s b o).map fun (at0, n, v) =>
    { base := base + at0, size := n, fn := if at0 < 0x5000 then 2 else 3, val := v, fields := meFields at0, conf := conf, rlock := true
      whole := decide (at0 < 0x4100) && decide (n = 8), put := if at0 < 0x4100 then mePut b at0 else none }
  else if o < 0x6004 then
    some { base := base + 0x6000, size := 4, fn := 4, val := c.shadow, fields := fieldMask [(0, 24)], conf := conf
           put := puts fun g => modCma b (Cma.share g.full) }
  else if o = 0x6008 then
    some { base := base + o, size := 4, fn := 4, val := flag (c.direct || c.pendingDirect) 1, fields := 3, conf := conf
           put := puts fun g => modCma b fun c =>
             let c := if g.bits.testBit 0 then c.go else c
             c.setDirect (g.full.testBit 1) }
  else if 0x6010 ≤ o ∧ o < 0x6018 then
    some { base := base + 0x6010, size := 8, fn := 4, val := c.live % 2 ^ 24 + c.state % 4 * 2 ^ 24 + c.error % 2 ^ 16 * 2 ^ 48
           fields := fieldMask [(0, 26), (48, 16)], conf := conf }
  else none

/-- The register that covers an offset of BAR0, as port `p` sees it (R619). -/
def regAt (s : State) (p off : Nat) : Option Reg :=
  if off < 0x40000 then regHf s p off
  else if off < 0x100000 then regRegulate s off
  else if off < 0x200000 then regLm s off
  else if off < 0x300000 then regXl s off
  else if off < 0x400000 then regSch s off
  else if off < 0x500000 then regSec s off
  else if off < 0x600000 then regPwr s off
  else if off < 0x700000 then regRas s off
  else if off < 0x800000 then regDr s off
  else if off < 0x1000000 then regRegion s (off / 0x100000 - 8) (off / 0x100000 * 0x100000) (off % 0x100000)
  else if off < 0x4000000 then regBlock s ((off - 0x1000000) / 0x80000) (off / 0x80000 * 0x80000) (off % 0x80000)
  else none

/-! ### Accesses (R601 to R607) -/

/-- A size and alignment of R601. -/
def accessOk (off size : Nat) : Bool := (size = 4 || size = 8) && decide (off % size = 0)

/-- The registers that BAR0 serves before ready, the power and Lamp range beside them (R574). -/
def earlyReg (off : Nat) : Bool :=
  [0, 8, 0x10, 0x100, 0x104, 0x200, 0x100000].contains off || (decide (0x500000 ≤ off) && decide (off < 0x600000))

/-- A lode's register on a port that does not hold its slice is not there in mode 1 (R371). -/
def deadReg (s : State) (p : Nat) (r : Reg) : Bool :=
  match r.lode with
  | some l => decide (s.img.applied.hostMode = 1) && (lodeOf s l).home && decide ((lodeOf s l).pasid ≠ 0) && decide ((lodeOf s l).port ≠ p)
  | none => false

/-- An access to a block's window wakes the block (R498). -/
def wakesBlock (off : Nat) (s : State) : State :=
  if 0x1000000 ≤ off ∧ off < 0x4000000 then wakeBlock ((off - 0x1000000) / 0x80000) s else s

/-- A write of one word of a register, or of a whole one. -/
def writePart (who : Writer) (off size v : Nat) (s : State) : State :=
  if isHost who ∧ !bootDone s ∧ !earlyReg off then s
  else match regAt s (writerPort who) off with
    | none => discard who off 2 s
    | some r =>
      let sh := 2 ^ (8 * (off - r.base))
      let m := (2 ^ (8 * size) - 1) * sh
      let bits := v % 2 ^ (8 * size) * sh
      if isHost who ∧ deadReg s (writerPort who) r then s
      else if bits ≠ 0 ∧ bits &&& r.fields = 0 then s
      else if r.whole ∧ size ≠ 8 then discard who off 1 s
      else match r.put with
        | none => discard who off 3 s
        | some put =>
          if isHost who ∧ r.conf then discard who off 4 s
          else if isHost who ∧ !unlocked s r.fn ∧ !r.opn then discard who off 5 s
          else match put who { full := r.val - (r.val &&& m) + bits, bits := bits, mask := m } (wakesBlock off s) with
            | .ok t => t
            | .error e => discard who off e s

/-- Whether a 64-bit access lies in one register. -/
def oneReg (s : State) (p off : Nat) : Bool :=
  match regAt s p off, regAt s p (off + 4) with
  | some a, some b => decide (a.base = b.base)
  | none, none => true
  | _, _ => false

/-- A write of BAR0 (R601). -/
def writeBar0 (who : Writer) (off size v : Nat) (s : State) : State :=
  if !accessOk off size then discard who off 1 s
  else if size = 8 ∧ !oneReg s (writerPort who) off then
    writePart who (off + 4) 4 (v / 2 ^ 32) (writePart who off 4 (v % 2 ^ 32) s)
  else writePart who off size v s

/-- A read of one word of a register, or of a whole one, and what it leaves. -/
def readPart (p off size : Nat) (s : State) : Nat × State :=
  if !bootDone s ∧ !earlyReg off then (0, s)
  else match regAt s p off with
    | none => (0, s)
    | some r =>
      let sh := 8 * (off - r.base)
      let m := (2 ^ (8 * size) - 1) * 2 ^ sh
      if r.conf ∨ deadReg s p r ∨ (r.rlock ∧ !unlocked s r.fn) then (0, s)
      else (fld r.val sh (8 * size), match r.clear with
        | some f => f (r.val - (r.val &&& m)) s
        | none => wakesBlock off s)

/-- A read of BAR0 (R601). -/
def readBar0 (p off size : Nat) (s : State) : Nat × State :=
  if !accessOk off size then (0, s)
  else if size = 8 ∧ !oneReg s p off then
    let (a, s) := readPart p off 4 s
    let (b, s) := readPart p (off + 4) 4 s
    (a + b * 2 ^ 32, s)
  else readPart p off size s

/-! ### BAR2 (R371, R378, R394, R243) -/

/-- Words of a lode's doorbell page as they read: offset, bytes, value. -/
def pageWords (s : State) (l : Nat) : List (Nat × Nat × Nat) :=
  let q := queueOf s l
  [(0x000, 8, q.sqTail), (0x008, 8, q.sqHead), (0x010, 8, q.cqTail), (0x018, 8, q.cqHead),
   (0x020, 4, q.state % 8 + flag q.badTail 5 + flag q.undeliv 6 + flag q.eqLost 7 + q.error % 2 ^ 16 * 2 ^ 16),
   (0x028, 8, q.undelPos), (0x030, 4, q.eqProd), (0x038, 4, q.eqCons), (0x800, 4, (xlLodeOf s l).fqCons), (0x810, 4, (xlLodeOf s l).dlCons)]

/-- Whether a lode's page reads on a port: the port holds its slice (R371). -/
def pageReads (s : State) (p l : Nat) : Bool :=
  bootDone s && (lodeOf s l).home && decide ((lodeOf s l).pasid ≠ 0) && decide ((lodeOf s l).port = p)

/-- Byte `i` of a mailbox slot as it reads (R378). -/
def slotByte (m : MbSlot) (i : Nat) : Byte :=
  let word (v o : Nat) : Byte := BitVec.ofNat 8 (v / 256 ^ (i - o))
  if i < 8 then word (m.verb + m.len * 2 ^ 16 + m.tag * 2 ^ 48) 0
  else if i < 0x10 then 0
  else if i < 0x18 then word (m.rstat + m.rlen * 2 ^ 16 + m.rtag * 2 ^ 48) 0x10
  else if i < 0x1C then word m.state 0x18
  else if 0x100 ≤ i ∧ i < 0x1200 then m.req.getD (i - 0x100) 0
  else if 0x2000 ≤ i ∧ i < 0x3000 then m.resp.getD (i - 0x2000) 0
  else 0

/-- A read of BAR2. -/
def readBar2 (s : State) (p x size : Nat) : Nat :=
  if !accessOk x size then 0
  else if x < 0x60000 then
    if !pageReads s p (x / 4096) then 0
    else (((pageWords s (x / 4096)).map fun (o, n, v) =>
      if o ≤ x % 4096 ∧ x % 4096 < o + n then fld v (8 * (x % 4096 - o)) (8 * size) else 0).sum)
  else if x < 0x80000 then unle ((List.range size).map fun i => slotByte (slotOf s p ((x - 0x60000) / 0x4000)) ((x - 0x60000) % 0x4000 + i))
  else 0

/-- A write of a doorbell page: the word it starts, with the bytes it does not give kept. -/
def writePage (p l o size v : Nat) (s : State) : State :=
  let word := o / 8 * 8
  let old := (((pageWords s l).find? fun w => w.1 = word).map (·.2.2)).getD 0
  let keep := if word = 0x020 ∨ word = 0x808 then 0 else old
  let full := if size = 8 then v % 2 ^ 64
    else if o = word then keep / 2 ^ 32 * 2 ^ 32 + v % 2 ^ 32 else keep % 2 ^ 32 + v % 2 ^ 32 * 2 ^ 32
  match word with
  | 0x000 => doTail p l full s
  | 0x808 => if full % 4 = 1 then doFaultReply p l (full / 2 ^ 32) true s else if full % 4 = 2 then doFaultReply p l (full / 2 ^ 32) false s else s
  | w => doConsumer p l w full s

/-- A write of a mailbox slot: its request words take nothing while it is busy. -/
def writeSlot (p n o size v : Nat) (s : State) : State :=
  let m := slotOf s p n
  if o = 8 then doMbGo p n v (padTo m.len m.req) s
  else if m.state = 1 then s
  else if o < 8 then
    let old := m.verb + m.len * 2 ^ 16 + m.tag * 2 ^ 48
    let w := if size = 8 then v else if o = 0 then old / 2 ^ 32 * 2 ^ 32 + v % 2 ^ 32 else old % 2 ^ 32 + v % 2 ^ 32 * 2 ^ 32
    modSlot p n (fun m => { m with verb := fld w 0 16, len := fld w 16 16, tag := fld w 48 16 }) s
  else if 0x100 ≤ o ∧ o < 0x1200 then
    let req := padTo (max m.req.length (o - 0x100 + size)) m.req
    modSlot p n (fun m => { m with req := req.take (o - 0x100) ++ le size v ++ req.drop (o - 0x100 + size) }) s
  else s

/-- A write of BAR2 (R378, R394). -/
def writeBar2 (p x size v : Nat) (s : State) : State :=
  if !accessOk x size then s
  else if x < 0x60000 then writePage p (x / 4096) (x % 4096) size v s
  else if x < 0x80000 then writeSlot p ((x - 0x60000) / 0x4000) ((x - 0x60000) % 0x4000) size v s
  else s

/-! ### The commands. An offset from 0x400_0000 on names the port's BAR2 -/

/-- Whether a host's access wakes the chip (R501): any of BAR0 outside the power and Lamp range; of BAR2 a write of `SQ_TAIL` or `MB_GO`. -/
def accessWakes (off : Nat) (write : Bool) : Bool :=
  if off < 0x4000000 then decide (off < 0x500000) || decide (0x600000 ≤ off)
  else
    let x := off - 0x4000000
    write && ((decide (x < 0x60000) && decide (x % 4096 < 8)) || (decide (0x60000 ≤ x) && decide (x < 0x80000) && decide (x % 0x4000 / 8 = 1)))

/-- A register write reaches the registers. -/
def doWrite (who : Writer) (off size v : Nat) (s : State) : State :=
  match who with
  | .host p =>
    if !funcPresent s p then s
    else if off < 0x4000000 then writeBar0 who off size v (headAccess size s) else writeBar2 p (off - 0x4000000) size v (headAccess size s)
  | .core b _ =>
    let base := 0x1000000 + b * 0x80000
    if base + 0x4000 ≤ off ∧ off < base + 0x4200 then blockRegStore b (off - base) (le size v) s else s
  | .blockAgent b => if off / 0x80000 = 0x20 + b then writeBar0 who off size v s else s
  | _ => writeBar0 who off size v s

/-- REGISTER_WRITE. -/
def execRegisterWrite (who : Writer) (off size v : Nat) (s : State) : Host.Outcome State Fault Refusal :=
  run s fun s =>
    if isHost who ∧ reaches s who ∧ accessWakes off true then wakeFirst (.registerWrite who off size v) (doWrite who off size v) s
    else doWrite who off size v s

/-- A host's read: its data goes back on the port. -/
def doRead (p off size : Nat) (s : State) : State :=
  if !funcPresent s p then s
  else
    let s := headAccess size s
    let (v, s) := if off < 0x4000000 then readBar0 p off size s else (readBar2 s p (off - 0x4000000) size, s)
    emit (.readData v) s

/-- RC_REGISTER_READ: a read of any register; read-clears fields are cleared in the same access. -/
def execRcRegisterRead (p off size : Nat) (s : State) : Host.Outcome State Fault Refusal :=
  run s fun s => if funcPresent s p ∧ accessWakes off false then wakeFirst (.rcRegisterRead p off size) (doRead p off size) s else doRead p off size s

end Sys2Proof.Machine
end

