-- ==== Sys2Proof/Machine/Wake.lean ====
section
/-! DEFINITION. Control packets of virtual channel 6 (R220, R224, R340, R434, R540), and the chip's way back to Run (R499, R501, R503). -/
namespace Sys2Proof.Machine
open Sys2Proof

/-! ### Forwarded verbs -/

/-- A verb of a lode of this chip that the packet names by global ID. -/
def forGid (via : Via) (gid : Nat) (f : Nat → State → Reply) (s : State) : State :=
  match findLive s via gid with
  | .error e => reject via e s
  | .ok l => finish via (f l s)

/-- A verb that another member chip forwards: carried out here, its reply goes back. -/
def forwardedVerb (via : Via) (code : Nat) (a : List Nat) (s : State) : State :=
  let x (i : Nat) : Nat := a.getD i 0
  match code with
  | 0x0200 => forGid via (x 0) (fun l => doTableRange l (x 1) (x 2)) s
  | 0x0201 => forGid via (x 0) (fun l => doMirror l (x 1) (x 2) (x 3) (a.drop 4)) s
  | 0x0204 => forGid via (x 0) (fun l => doDirtyStart l (x 1) (x 2)) s
  | 0x0205 => forGid via (x 0) (fun l => doDirtySync l (decide (x 1 ≠ 0))) s
  | 0x0206 => forGid via (x 0) doDirtyStop s
  | 0x0403 => forGid via (x 0) (fun l => doWinOpen l (a.drop 1)) s
  | 0x0404 => finish via (doWinClose (x 0) ⟨x 1, x 2⟩ s)
  | 0x0405 => finish via (doWinQuery (x 0) s)
  | 0x0301 => match findLive s via (x 0) with
    | .error e => reject via e s
    | .ok l => doDestroy via l s
  | 0x0502 => match findLive s via (x 0) with
    | .error e => reject via e s
    | .ok l => doExtend via l (x 1) (x 2) ((a.drop 4).take (x 3)) ((a.drop (5 + x 3)).take (x (4 + x 3))) s
  | 0x0503 => match findLive s via (x 0) with
    | .error e => reject via e s
    | .ok l => doShrink via l (x 1) s
  | 0x0601 => forGid via (x 0) (fun l => doRootSet l (x 1) (x 2)) s
  | 0x0603 => forGid via (x 0) (fun l => doSaveReserve l (x 1)) s
  | _ => reject via Err.reservedEncoding s

/-! ### Orders and reports -/

/-- An order of the home chip to run a context, or none (R434). A context that stands loaded goes on; another one is switched in. -/
def takeOrder (l : Nat) (c : Option Nat) (s : State) : State :=
  let d := schedOf s l
  match c with
  | none =>
    if d.phase = 3 ∨ d.phase = 2 then modSched l (fun d => { d with incoming := none }) s
    else if d.running = 0xFFF then s
    else modSched l (fun d => { d with phase := 2, incoming := none }) s
  | some c =>
    if (xlCtxOf s c).lode ≠ l ∨ ((ctxOf s c).state ≠ 1 ∧ (ctxOf s c).state ≠ 2) then s
    else if d.phase = 3 ∨ d.phase = 2 then modSched l (fun d => { d with incoming := some c }) s
    else if d.running = c ∨ d.running = 0xFFF ∨ d.phase = 0 then beginTurn l c s
    else preempt l c s

/-- An invalidation that the home chip asks for (R228): its context is the home chip's number. One that is not known here has nothing here. -/
def takeInval (l dev ctx dva len num : Nat) (s : State) : State :=
  offerInval { num := 0, lode := l, ctx := if ctx = 0xFFFF then none else some ((memberCtx s l dev ctx).getD 0xFFF), dva := dva, len := len, dev := num, fence := none } s

/-- A fault of a member chip (R232): it enters the lode's fault queue here, under this chip's number of the context of its record; with no
ring a resumable one is failed at once (R237). -/
def takeFault (l dev : Nat) (a : List Nat) (s : State) : State :=
  match a with
  | [num, k, b, c, reason, level, access, pos, va, pc] =>
    let ctx := ((recOf s l pos).map fun r => rCtx r.bits).getD 0
    let s := (newFault l (.member dev num k b c) reason level access ctx pos va pc s).2
    if resumable reason && !(xlLodeOf s l).fqReady then emit (.control dev 18 [(lodeOf s l).gid, num, 0]) s else s
  | _ => s

/-- The home chip's answer to a fault of this chip (R233). -/
def takeReply (l num : Nat) (retry : Bool) (s : State) : State :=
  match (xlLodeOf s l).faults.find? fun f => f.fseq = num with
  | some f => answerFault l f retry (dropFault l num s)
  | none => s

/-- A launch that the home chip forwards (R224, R431): translated by this chip's tables, under its own context number; fences stay with
the home chip. -/
def takeLaunch (l dev c pos bits : Nat) (s : State) : State :=
  let own := putFld (putFld (putFld (putFld bits 16 12 c) 64 64 0) 192 64 0) 320 64 0
  let s := modQueue l (fun q => { q with recs := q.recs ++ [{ pos := pos, bits := own, remote := some dev }] }) s
  if (ctxOf s c).lode ≠ l ∨ (ctxOf s c).state = 0 then finishRec l pos Err.xlContext s else fitRec l pos s

/-- The result of a launch on a member chip (R224): the record ends with it. -/
def takeResult (l pos : Nat) (a : List Nat) (s : State) : State :=
  let n := a.getD 2 0
  let rest := a.drop (3 + n)
  let units := (List.range (rest.length / 4)).map fun i => (rest.getD (4 * i) 0, rest.getD (4 * i + 1) 0, rest.getD (4 * i + 2) 0, rest.getD (4 * i + 3) 0)
  let s := modRec l pos (fun r => if r.stage = 3 then { r with remote := none } else { r with remote := none, wrote := r.wrote || decide (a.getD 1 0 ≠ 0), detail := (a.drop 3).take n }) (addFailed l pos units s)
  finishRec l pos (a.getD 0 0) s

/-- What a control packet from device `dev` does, by its kind. Kinds but 2 and 3 name a lode by global ID first. -/
def doControl (dev kind : Nat) (a : List Nat) (s : State) : State :=
  match kind with
  | 2 => forwardedVerb (.member dev (a.getD 1 0)) (a.getD 0 0) (a.drop 2) s
  | 3 => answer (viaOf (a.getD 0 0)) (a.getD 1 0) ((a.drop 2).map (BitVec.ofNat 8)) s
  | k => match findGid s (a.getD 0 0) with
    | none => s
    | some l =>
      let home := (lodeOf s l).home
      let x (i : Nat) : Nat := a.getD i 0
      match k with
      | 1 => if home then s else takeOrder l (if x 1 = 0xFFF then none else some (x 1)) s
      | 4 => if home then s else takeInval l dev (x 1) (x 2) (x 3) (x 4) s
      | 5 => modXl (fun v => { v with invals := v.invals.map fun i => if i.num = x 1 ∧ i.lode = l then { i with away := i.away.filter (· ≠ dev) } else i }) s
      | 6 => if home then signalFence l (some ⟨x 1, x 2⟩) s else s
      | 7 => if home then s else takeLaunch l dev (x 1) (x 2) (x 3) s
      | 8 => if home then takeResult l (x 1) (a.drop 2) s else s
      | 9 => if home then s else cancelRec l (x 1) 0 s
      | 10 => if home ∨ (xlCtxOf s (x 1)).lode ≠ l then s else startTeardown (x 1) 0 none s
      | 11 => if home then modCtx (x 1) (fun c => { c with members := tset 0xFFF c.members (x 2) (x 3) }) s else s
      | 12 => takeCtxRecord l (a.drop 1) s
      | 13 => takeHome l (a.drop 1) s
      | 15 => if (lodeOf s l).coord then commit l (.remote dev (x 1) (a.drop 2)) s else s
      | 16 => if (lodeOf s l).coord then s else resumeDrained l (modLode l (fun d => { d with undrained := [] }) s)
      | 17 => if home then takeFault l dev (a.drop 1) s else s
      | 18 => if home then s else takeReply l (x 1) (decide (x 2 ≠ 0)) s
      | 14 => if home then capPut (lodeOf s l).port ((a.drop 1).map (BitVec.ofNat 8)) s else s
      | _ => s

/-- CONTROL_PACKET_RECEIVE. It wakes the chip like any packet but a heartbeat, and is held until the chip is awake (R501). -/
def execControlPacketReceive (pkt : Packet) (kind : Nat) (args : List Nat) (s : State) : Host.Outcome State Fault Refusal :=
  run s fun s =>
    if asleep s then modPwr (fun p => { p with heldCtl := p.heldCtl ++ [(pkt, kind, args)], wakeHeld := true }) s
    else afterOps (doControl pkt.sdev kind args s)

/-! ### CHIP_WAKE -/

/-- The chip is back in Run: fabric on, ports at full width, every lode's next turn decided; blocks wake by R498. -/
def wakeChip (s : State) : State :=
  let s := modPwr (fun p => { p with chip := 0, target := 0, wakeAt := 0, pending := false, wakeHeld := false, heldWake := [], heldCtl := [], bridges := [] }) s
  let s := each (List.range 8) (fun r => modPreg r fun p => { p with fabric := 0 }) s
  let s := each (List.range 32) fitWidth s
  each (lodes s) (fun l s => if (schedOf s l).phase = 0 then decideTurn l s else s) s

/-- What an outcome leaves. -/
def outcomeState (s : State) (o : Host.Outcome State Fault Refusal) : State :=
  match o with
  | .next t => t
  | _ => s

/-- A held command is performed (R503). These are the commands that wake the chip. -/
def performHeld (s : State) (i : Instr) : State :=
  outcomeState s <| match i with
    | .registerWrite who off size v => execRegisterWrite who off size v s
    | .rcRegisterRead p off size => execRcRegisterRead p off size s
    | .sqTailWrite p l pos => execSqTailWrite p l pos s
    | .mbGo p n v payload => execMbGo p n v payload s
    | .sidebandRequest code tag len payload => execSidebandRequest code tag len payload s
    | .apertureAccess p off write len data => execApertureAccess p off write len data s
    | .drvMaxWrite p v => execDrvMaxWrite p v s
    | .drPortRetrain who p => execDrPortRetrain who p s
    | .drPortEnableWrite who p on => execDrPortEnableWrite who p on s
    | .drPortLowrateWrite who p on => execDrPortLowrateWrite who p on s
    | .regCommit who v => execRegCommit who v s
    | .lmBlockDrainWrite who b v => execLmBlockDrainWrite who b v s
    | .lmBlockDetach who => execLmBlockDetach who s
    | .lmBlockAttach who => execLmBlockAttach who s
    | .lmSetCutover who => execLmSetCutover who s
    | .lmSetAttach who => execLmSetAttach who s
    | .lmCreditMove who => execLmCreditMove who s
    | .packetForward p k => execPacketForward p k s
    | .windowPacketReceive p k => execWindowPacketReceive p k s
    | .windowResponse k => execWindowResponse k s
    | .switchCombineArrive k => execSwitchCombineArrive k s
    | .utPrepare m => execUtPrepare m s
    | .utPrepared m => execUtPrepared m s
    | .utCommit m => execUtCommit m s
    | .utCommitted m => execUtCommitted m s
    | .utAbort m => execUtAbort m s
    | .utTakeover m => execUtTakeover m s
    | .utOffer m => execUtOffer m s
    | .utAdopted m => execUtAdopted m s
    | .utRevoke m => execUtRevoke m s
    | .utJoin m => execUtJoin m s
    | .utPool m => execUtPool m s
    | _ => .next s

/-- A held control packet is performed. -/
def performControl (s : State) (c : Packet × Nat × List Nat) : State := outcomeState s (execControlPacketReceive c.1 c.2.1 c.2.2 s)

/-- CHIP_WAKE: a wake event stands and the chip has reached Doze or Rest. The held commands are performed in the order of their arrival,
the held control packets after them. -/
def execChipWake (s : State) : Host.Outcome State Fault Refusal :=
  if s.pwr.chip = 0 ∨ s.pwr.entering ∨ !s.pwr.wakeHeld then run s id
  else .next (s.pwr.heldCtl.foldl performControl (s.pwr.heldWake.foldl performHeld (perform s wakeChip)))

end Sys2Proof.Machine
end

