-- ==== Sys2Proof/Machine/Dispatch.lean ====
section
/-! DEFINITION. One arm for each command: its meaning. -/
namespace Sys2Proof.Machine
open Sys2Proof

/-- The effect of a command on everything but the queue. -/
def exec (i : Instr) (s : State) : Host.Outcome State Fault Refusal :=
  match i with
  | .registerWrite who offset size value => Sys2Proof.Machine.execRegisterWrite who offset size value s
  | .rcRegisterRead port offset size => Sys2Proof.Machine.execRcRegisterRead port offset size s
  | .lodeCreate via blocks sets credits pasid port conf => Sys2Proof.Machine.execLodeCreate via blocks sets credits pasid port conf s
  | .lodeDestroy via gid => Sys2Proof.Machine.execLodeDestroy via gid s
  | .lodeQuery via gid => Sys2Proof.Machine.execLodeQuery via gid s
  | .blockMove via blocks donor receiver deadline => Sys2Proof.Machine.execBlockMove via blocks donor receiver deadline s
  | .channelMove via set donor receiver rate => Sys2Proof.Machine.execChannelMove via set donor receiver rate s
  | .granuleMigrate via lode granules dest rate => Sys2Proof.Machine.execGranuleMigrate via lode granules dest rate s
  | .creditMove via port units donor receiver => Sys2Proof.Machine.execCreditMove via port units donor receiver s
  | .rebindAbort via op => Sys2Proof.Machine.execRebindAbort via op s
  | .blockDrained block => Sys2Proof.Machine.execBlockDrained block s
  | .rebindDrainTimeout op => Sys2Proof.Machine.execRebindDrainTimeout op s
  | .epochDrained lode => Sys2Proof.Machine.execEpochDrained lode s
  | .granuleCopyDone lode granule => Sys2Proof.Machine.execGranuleCopyDone lode granule s
  | .endOfForward lode granule => Sys2Proof.Machine.execEndOfForward lode granule s
  | .staleEpochRetry req => Sys2Proof.Machine.execStaleEpochRetry req s
  | .lmBlockDrainWrite who block value => Sys2Proof.Machine.execLmBlockDrainWrite who block value s
  | .lmBlockDetach who => Sys2Proof.Machine.execLmBlockDetach who s
  | .lmBlockAttach who => Sys2Proof.Machine.execLmBlockAttach who s
  | .lmSetCutover who => Sys2Proof.Machine.execLmSetCutover who s
  | .lmSetAttach who => Sys2Proof.Machine.execLmSetAttach who s
  | .lmCreditMove who => Sys2Proof.Machine.execLmCreditMove who s
  | .lmStageHoldExpiry => Sys2Proof.Machine.execLmStageHoldExpiry s
  | .imageBegin via slot len => Sys2Proof.Machine.execImageBegin via slot len s
  | .imageData via session offset bytes => Sys2Proof.Machine.execImageData via session offset bytes s
  | .imageCommit via session => Sys2Proof.Machine.execImageCommit via session s
  | .imageAbort via session => Sys2Proof.Machine.execImageAbort via session s
  | .imageSelect via slot trial => Sys2Proof.Machine.execImageSelect via slot trial s
  | .imageConfirm via => Sys2Proof.Machine.execImageConfirm via s
  | .imageStatus via => Sys2Proof.Machine.execImageStatus via s
  | .imagePolicySet via policy alg offset final chunk => Sys2Proof.Machine.execImagePolicySet via policy alg offset final chunk s
  | .imageSessionTimeout => Sys2Proof.Machine.execImageSessionTimeout s
  | .meIssue block core rd rs1 rs2 => Sys2Proof.Machine.execMeIssue block core rd rs1 rs2 s
  | .meLoad block engine => Sys2Proof.Machine.execMeLoad block engine s
  | .meMma block engine => Sys2Proof.Machine.execMeMma block engine s
  | .meAccRead block engine => Sys2Proof.Machine.execMeAccRead block engine s
  | .meStore block engine => Sys2Proof.Machine.execMeStore block engine s
  | .meTranspose block engine => Sys2Proof.Machine.execMeTranspose block engine s
  | .meReduceSend block engine => Sys2Proof.Machine.execMeReduceSend block engine s
  | .meAccLoad block engine => Sys2Proof.Machine.execMeAccLoad block engine s
  | .meCommandDone block engine => Sys2Proof.Machine.execMeCommandDone block engine s
  | .meBoundExpiry block engine => Sys2Proof.Machine.execMeBoundExpiry block engine s
  | .meClockGate block engine => Sys2Proof.Machine.execMeClockGate block engine s
  | .reduceAck id line status => Sys2Proof.Machine.execReduceAck id line status s
  | .dmaIssue block core rd rs1 => Sys2Proof.Machine.execDmaIssue block core rd rs1 s
  | .dmaCopy unit => Sys2Proof.Machine.execDmaCopy unit s
  | .dmaConvert unit => Sys2Proof.Machine.execDmaConvert unit s
  | .dmaFill unit => Sys2Proof.Machine.execDmaFill unit s
  | .windowPut unit => Sys2Proof.Machine.execWindowPut unit s
  | .windowGet unit => Sys2Proof.Machine.execWindowGet unit s
  | .dmaChunkDone unit ok => Sys2Proof.Machine.execDmaChunkDone unit ok s
  | .semWait block core rd rs1 rs2 scope => Sys2Proof.Machine.execSemWait block core rd rs1 rs2 scope s
  | .semPost block core rs1 rs2 scope => Sys2Proof.Machine.execSemPost block core rs1 rs2 scope s
  | .semTry block core rd rs1 rs2 scope => Sys2Proof.Machine.execSemTry block core rd rs1 rs2 scope s
  | .barArrive block core rs1 => Sys2Proof.Machine.execBarArrive block core rs1 s
  | .fenceS block core funct7 => Sys2Proof.Machine.execFenceS block core funct7 s
  | .spwSel block core rd rs1 rs2 => Sys2Proof.Machine.execSpwSel block core rd rs1 rs2 s
  | .vcvt block core vd rs1 vs2 => Sys2Proof.Machine.execVcvt block core vd rs1 vs2 s
  | .coreInstruction block core word => Sys2Proof.Machine.execCoreInstruction block core word s
  | .coreLoadStore block core word => Sys2Proof.Machine.execCoreLoadStore block core word s
  | .coreAmo block core word => Sys2Proof.Machine.execCoreAmo block core word s
  | .coreLr block core word => Sys2Proof.Machine.execCoreLr block core word s
  | .coreSc block core word => Sys2Proof.Machine.execCoreSc block core word s
  | .coreFence block core pred succ => Sys2Proof.Machine.execCoreFence block core pred succ s
  | .gcClassWrite block core value => Sys2Proof.Machine.execGcClassWrite block core value s
  | .gcDeadlineWrite block core value => Sys2Proof.Machine.execGcDeadlineWrite block core value s
  | .gcSrSeedWrite block core value => Sys2Proof.Machine.execGcSrSeedWrite block core value s
  | .svExit block core => Sys2Proof.Machine.execSvExit block core s
  | .svAbort block core => Sys2Proof.Machine.execSvAbort block core s
  | .svTrace block core => Sys2Proof.Machine.execSvTrace block core s
  | .coreException block core cause tval => Sys2Proof.Machine.execCoreException block core cause tval s
  | .tlbWalkDone block core => Sys2Proof.Machine.execTlbWalkDone block core s
  | .launchStart block => Sys2Proof.Machine.execLaunchStart block s
  | .launchComplete lode pos => Sys2Proof.Machine.execLaunchComplete lode pos s
  | .rowSpareRemap block row badLines => Sys2Proof.Machine.execRowSpareRemap block row badLines s
  | .memoryRequest req => Sys2Proof.Machine.execMemoryRequest req s
  | .arbiterServe arb => Sys2Proof.Machine.execArbiterServe arb s
  | .correctedError unit => Sys2Proof.Machine.execCorrectedError unit s
  | .uncorrectableError store => Sys2Proof.Machine.execUncorrectableError store s
  | .patrolScrubLine region pc line correctable => Sys2Proof.Machine.execPatrolScrubLine region pc line correctable s
  | .pseudoChannelFailure pc => Sys2Proof.Machine.execPseudoChannelFailure pc s
  | .evacuationStart set => Sys2Proof.Machine.execEvacuationStart set s
  | .evacuationResume set => Sys2Proof.Machine.execEvacuationResume set s
  | .xlTableRangeSet via lode dev first count => Sys2Proof.Machine.execXlTableRangeSet via lode dev first count s
  | .xlMirrorWrite via lode dev table level first entries => Sys2Proof.Machine.execXlMirrorWrite via lode dev table level first entries s
  | .xlInvalidate via lode ctx dva len dev fence => Sys2Proof.Machine.execXlInvalidate via lode ctx dva len dev fence s
  | .invalidationComplete num => Sys2Proof.Machine.execInvalidationComplete num s
  | .xlFqSetup via lode ring => Sys2Proof.Machine.execXlFqSetup via lode ring s
  | .xlDirtyStart via lode dev ring bitmap => Sys2Proof.Machine.execXlDirtyStart via lode dev ring bitmap s
  | .xlDirtySync via lode dev rearm => Sys2Proof.Machine.execXlDirtySync via lode dev rearm s
  | .xlDirtyStop via lode dev => Sys2Proof.Machine.execXlDirtyStop via lode dev s
  | .translationFault block core => Sys2Proof.Machine.execTranslationFault block core s
  | .faultRecordWrite lode hostOk => Sys2Proof.Machine.execFaultRecordWrite lode hostOk s
  | .faultqStallTimeout lode => Sys2Proof.Machine.execFaultqStallTimeout lode s
  | .faultRetry port lode fseq => Sys2Proof.Machine.execFaultRetry port lode fseq s
  | .faultFail port lode fseq => Sys2Proof.Machine.execFaultFail port lode fseq s
  | .deadlineTick cycles => Sys2Proof.Machine.execDeadlineTick cycles s
  | .bucketRefill => Sys2Proof.Machine.execBucketRefill s
  | .regCommit who value => Sys2Proof.Machine.execRegCommit who value s
  | .regCommitHoldExpiry => Sys2Proof.Machine.execRegCommitHoldExpiry s
  | .regMinSet via master min depth => Sys2Proof.Machine.execRegMinSet via master min depth s
  | .regWeightSet via cls weight => Sys2Proof.Machine.execRegWeightSet via cls weight s
  | .regLodeBucketSet via master lode rate => Sys2Proof.Machine.execRegLodeBucketSet via master lode rate s
  | .regQuery via isClass num => Sys2Proof.Machine.execRegQuery via isClass num s
  | .syncBind via lode region first count => Sys2Proof.Machine.execSyncBind via lode region first count s
  | .syncFree via lode region first count => Sys2Proof.Machine.execSyncFree via lode region first count s
  | .barArrivalsSet via lode group arrivals => Sys2Proof.Machine.execBarArrivalsSet via lode group arrivals s
  | .semPostApply sem => Sys2Proof.Machine.execSemPostApply sem s
  | .semWaitArrive sem => Sys2Proof.Machine.execSemWaitArrive sem s
  | .barArrivalApply group => Sys2Proof.Machine.execBarArrivalApply group s
  | .reductionPacketArrive router pkt => Sys2Proof.Machine.execReductionPacketArrive router pkt s
  | .combineHoldExpiry router => Sys2Proof.Machine.execCombineHoldExpiry router s
  | .reductionApply pkt => Sys2Proof.Machine.execReductionApply pkt s
  | .drPortTrain port locked => Sys2Proof.Machine.execDrPortTrain port locked s
  | .trainingStepTimeout port lanesOk => Sys2Proof.Machine.execTrainingStepTimeout port lanesOk s
  | .capabilityRecord port lo hi dev serial peerPort lanes => Sys2Proof.Machine.execCapabilityRecord port lo hi dev serial peerPort lanes s
  | .flitReceive port seq good corrected acked => Sys2Proof.Machine.execFlitReceive port seq good corrected acked s
  | .replayRequest port seq => Sys2Proof.Machine.execReplayRequest port seq s
  | .replayAckTimeout port => Sys2Proof.Machine.execReplayAckTimeout port s
  | .peerSilentTimeout port => Sys2Proof.Machine.execPeerSilentTimeout port s
  | .laneRetire port lane => Sys2Proof.Machine.execLaneRetire port lane s
  | .lowrateWakeEvent port => Sys2Proof.Machine.execLowrateWakeEvent port s
  | .packetForward port pkt => Sys2Proof.Machine.execPacketForward port pkt s
  | .escWaitExpiry port => Sys2Proof.Machine.execEscWaitExpiry port s
  | .creditReturn port vc slots lode => Sys2Proof.Machine.execCreditReturn port vc slots lode s
  | .windowPacketReceive port pkt => Sys2Proof.Machine.execWindowPacketReceive port pkt s
  | .switchCombineArrive pkt => Sys2Proof.Machine.execSwitchCombineArrive pkt s
  | .drCombHoldExpiry => Sys2Proof.Machine.execDrCombHoldExpiry s
  | .windowResponse pkt => Sys2Proof.Machine.execWindowResponse pkt s
  | .drTimeoutExpiry rtag => Sys2Proof.Machine.execDrTimeoutExpiry rtag s
  | .drPortSet via port enable lowrate laneMask => Sys2Proof.Machine.execDrPortSet via port enable lowrate laneMask s
  | .drPortQuery via port => Sys2Proof.Machine.execDrPortQuery via port s
  | .drRouteSet via first entries => Sys2Proof.Machine.execDrRouteSet via first entries s
  | .drWindowOpen via dev win lode ctx kind rights laddr len256 semBase allowLode allowDev devMask => Sys2Proof.Machine.execDrWindowOpen via dev win lode ctx kind rights laddr len256 semBase allowLode allowDev devMask s
  | .drWindowClose via dev win fence => Sys2Proof.Machine.execDrWindowClose via dev win fence s
  | .windowCloseDrained win => Sys2Proof.Machine.execWindowCloseDrained win s
  | .drWindowQuery via dev win => Sys2Proof.Machine.execDrWindowQuery via dev win s
  | .drTimingSet via timeout escWait hold enable => Sys2Proof.Machine.execDrTimingSet via timeout escWait hold enable s
  | .drPortRetrain who port => Sys2Proof.Machine.execDrPortRetrain who port s
  | .drPortEnableWrite who port enable => Sys2Proof.Machine.execDrPortEnableWrite who port enable s
  | .drPortLowrateWrite who port lowrate => Sys2Proof.Machine.execDrPortLowrateWrite who port lowrate s
  | .heartbeatSend => Sys2Proof.Machine.execHeartbeatSend s
  | .peerLost dev => Sys2Proof.Machine.execPeerLost dev s
  | .utHeartbeat m => Sys2Proof.Machine.execUtHeartbeat m s
  | .utPrepare m => Sys2Proof.Machine.execUtPrepare m s
  | .utPrepared m => Sys2Proof.Machine.execUtPrepared m s
  | .utPrepareTimeout txn => Sys2Proof.Machine.execUtPrepareTimeout txn s
  | .utCommit m => Sys2Proof.Machine.execUtCommit m s
  | .utCommitted m => Sys2Proof.Machine.execUtCommitted m s
  | .utAbort m => Sys2Proof.Machine.execUtAbort m s
  | .utTakeover m => Sys2Proof.Machine.execUtTakeover m s
  | .utOffer m => Sys2Proof.Machine.execUtOffer m s
  | .utAdopted m => Sys2Proof.Machine.execUtAdopted m s
  | .utRevoke m => Sys2Proof.Machine.execUtRevoke m s
  | .utJoin m => Sys2Proof.Machine.execUtJoin m s
  | .utPool m => Sys2Proof.Machine.execUtPool m s
  | .poolTick => Sys2Proof.Machine.execPoolTick s
  | .utDevidSet via dev => Sys2Proof.Machine.execUtDevidSet via dev s
  | .utPoolMove via dev fromPool toPool => Sys2Proof.Machine.execUtPoolMove via dev fromPool toPool s
  | .utLodeExtend via lode dev blocks sets credits => Sys2Proof.Machine.execUtLodeExtend via lode dev blocks sets credits s
  | .utLodeShrink via lode dev => Sys2Proof.Machine.execUtLodeShrink via lode dev s
  | .utHandoff via reqseq donor receiver extent ckpt fence => Sys2Proof.Machine.execUtHandoff via reqseq donor receiver extent ckpt fence s
  | .utNotice via dev kind => Sys2Proof.Machine.execUtNotice via dev kind s
  | .utRelease via lode => Sys2Proof.Machine.execUtRelease via lode s
  | .utQuery via isPool num => Sys2Proof.Machine.execUtQuery via isPool num s
  | .portReset port => Sys2Proof.Machine.execPortReset port s
  | .drvMaxWrite port value => Sys2Proof.Machine.execDrvMaxWrite port value s
  | .apertureAccess port offset write len data => Sys2Proof.Machine.execApertureAccess port offset write len data s
  | .mbGo port slot value payload => Sys2Proof.Machine.execMbGo port slot value payload s
  | .sidebandRequest verb tag len payload => Sys2Proof.Machine.execSidebandRequest verb tag len payload s
  | .inventory via => Sys2Proof.Machine.execInventory via s
  | .pasidBind via lode port pasid => Sys2Proof.Machine.execPasidBind via lode port pasid s
  | .pasidUnbind via lode => Sys2Proof.Machine.execPasidUnbind via lode s
  | .apertureMap via port offset size ctx dva => Sys2Proof.Machine.execApertureMap via port offset size ctx dva s
  | .apertureUnmap via port window => Sys2Proof.Machine.execApertureUnmap via port window s
  | .confKeySet via lode wrapped => Sys2Proof.Machine.execConfKeySet via lode wrapped s
  | .confRingSetup via lode kind addr => Sys2Proof.Machine.execConfRingSetup via lode kind addr s
  | .hostReadCompletion id ok data => Sys2Proof.Machine.execHostReadCompletion id ok data s
  | .sqTailWrite port lode pos => Sys2Proof.Machine.execSqTailWrite port lode pos s
  | .recordTake lode bits tagOk => Sys2Proof.Machine.execRecordTake lode bits tagOk s
  | .waitEvaluate lode pos => Sys2Proof.Machine.execWaitEvaluate lode pos s
  | .opLaunch lode pos => Sys2Proof.Machine.execOpLaunch lode pos s
  | .opCopy lode pos => Sys2Proof.Machine.execOpCopy lode pos s
  | .opConvert lode pos => Sys2Proof.Machine.execOpConvert lode pos s
  | .opFill lode pos => Sys2Proof.Machine.execOpFill lode pos s
  | .opReduce lode pos => Sys2Proof.Machine.execOpReduce lode pos s
  | .opMatmul lode pos => Sys2Proof.Machine.execOpMatmul lode pos s
  | .opSignal lode pos => Sys2Proof.Machine.execOpSignal lode pos s
  | .commandEnd lode pos hostOk => Sys2Proof.Machine.execCommandEnd lode pos hostOk s
  | .queueSetup via lode sq cq eq sqLog cqLog eqLog first => Sys2Proof.Machine.execQueueSetup via lode sq cq eq sqLog cqLog eqLog first s
  | .queueDestroy via lode fence => Sys2Proof.Machine.execQueueDestroy via lode fence s
  | .queueDestroyDrained lode => Sys2Proof.Machine.execQueueDestroyDrained lode s
  | .queueRestart via lode pos => Sys2Proof.Machine.execQueueRestart via lode pos s
  | .ctxTeardown via ctx fence => Sys2Proof.Machine.execCtxTeardown via ctx fence s
  | .ctxTeardownDrained ctx => Sys2Proof.Machine.execCtxTeardownDrained ctx s
  | .cqMirrorRead via lode pos => Sys2Proof.Machine.execCqMirrorRead via lode pos s
  | .scrubEnd id => Sys2Proof.Machine.execScrubEnd id s
  | .ctxCreate via lode root weight defTag mask res => Sys2Proof.Machine.execCtxCreate via lode root weight defTag mask res s
  | .ctxRootSet via ctx dev root => Sys2Proof.Machine.execCtxRootSet via ctx dev root s
  | .ctxSet via ctx weight defTag mask res => Sys2Proof.Machine.execCtxSet via ctx weight defTag mask res s
  | .schSaveReserve via lode dev slots => Sys2Proof.Machine.execSchSaveReserve via lode dev slots s
  | .schLodeSet via lode quantum idle => Sys2Proof.Machine.execSchLodeSet via lode quantum idle s
  | .tallyRead via closed num clear => Sys2Proof.Machine.execTallyRead via closed num clear s
  | .sliceQuiesce via lode deadline => Sys2Proof.Machine.execSliceQuiesce via lode deadline s
  | .quiesceTimeout lode => Sys2Proof.Machine.execQuiesceTimeout lode s
  | .sliceMove via lode dev port => Sys2Proof.Machine.execSliceMove via lode dev port s
  | .sliceResume via lode => Sys2Proof.Machine.execSliceResume via lode s
  | .quantumExpiry lode => Sys2Proof.Machine.execQuantumExpiry lode s
  | .idleExpiry lode => Sys2Proof.Machine.execIdleExpiry lode s
  | .cyclicGuard lode => Sys2Proof.Machine.execCyclicGuard lode s
  | .cyclicSlotStart lode => Sys2Proof.Machine.execCyclicSlotStart lode s
  | .contextStopped lode chargedNs overrunNs => Sys2Proof.Machine.execContextStopped lode chargedNs overrunNs s
  | .switchComplete lode ns => Sys2Proof.Machine.execSwitchComplete lode ns s
  | .overrunTeardown lode => Sys2Proof.Machine.execOverrunTeardown lode s
  | .assayQuote via lode nonce => Sys2Proof.Machine.execAssayQuote via lode nonce s
  | .assayRead via handle obj offset => Sys2Proof.Machine.execAssayRead via handle obj offset s
  | .assayHandleLapse source handle => Sys2Proof.Machine.execAssayHandleLapse source handle s
  | .xmssReservationWritten attestation => Sys2Proof.Machine.execXmssReservationWritten attestation s
  | .secEnrol via => Sys2Proof.Machine.execSecEnrol via s
  | .secImageAuthSet via key alg sig => Sys2Proof.Machine.execSecImageAuthSet via key alg sig s
  | .vaultQuery via slot => Sys2Proof.Machine.execVaultQuery via slot s
  | .vaultRevoke via slot => Sys2Proof.Machine.execVaultRevoke via slot s
  | .orphanZeroise slot => Sys2Proof.Machine.execOrphanZeroise slot s
  | .vaultRemask slot r => Sys2Proof.Machine.execVaultRemask slot r s
  | .fwBegin via slot len => Sys2Proof.Machine.execFwBegin via slot len s
  | .fwData via session offset bytes => Sys2Proof.Machine.execFwData via session offset bytes s
  | .fwCommit via session => Sys2Proof.Machine.execFwCommit via session s
  | .fwAbort via session => Sys2Proof.Machine.execFwAbort via session s
  | .fwSelect via slot trial => Sys2Proof.Machine.execFwSelect via slot trial s
  | .fwConfirm via => Sys2Proof.Machine.execFwConfirm via s
  | .fwStatus via => Sys2Proof.Machine.execFwStatus via s
  | .alarmRaise source => Sys2Proof.Machine.execAlarmRaise source s
  | .powerFailure written => Sys2Proof.Machine.execPowerFailure written s
  | .railsInRange => Sys2Proof.Machine.execRailsInRange s
  | .chipStartup training => Sys2Proof.Machine.execChipStartup training s
  | .hbmTrainingAttemptDone stack failed => Sys2Proof.Machine.execHbmTrainingAttemptDone stack failed s
  | .bootStepTimeout => Sys2Proof.Machine.execBootStepTimeout s
  | .startupAgentTimeout block => Sys2Proof.Machine.execStartupAgentTimeout block s
  | .xtalFail => Sys2Proof.Machine.execXtalFail s
  | .blockRetention block => Sys2Proof.Machine.execBlockRetention block s
  | .bridgeClockGate bridge => Sys2Proof.Machine.execBridgeClockGate bridge s
  | .domainWake kind num => Sys2Proof.Machine.execDomainWake kind num s
  | .pwrStateSet via state tick => Sys2Proof.Machine.execPwrStateSet via state tick s
  | .autoDozeExpiry => Sys2Proof.Machine.execAutoDozeExpiry s
  | .chipSleepEntry => Sys2Proof.Machine.execChipSleepEntry s
  | .chipWake => Sys2Proof.Machine.execChipWake s
  | .wakeTick => Sys2Proof.Machine.execWakeTick s
  | .pwrPolicySet via region policy point => Sys2Proof.Machine.execPwrPolicySet via region policy point s
  | .pwrQuery via => Sys2Proof.Machine.execPwrQuery via s
  | .pwrRestart via => Sys2Proof.Machine.execPwrRestart via s
  | .vreqWrite who region value => Sys2Proof.Machine.execVreqWrite who region value s
  | .reqWrite who block value => Sys2Proof.Machine.execReqWrite who block value s
  | .voltageSettled region => Sys2Proof.Machine.execVoltageSettled region s
  | .governorCapFollow block => Sys2Proof.Machine.execGovernorCapFollow block s
  | .powerSample watts inputUj => Sys2Proof.Machine.execPowerSample watts inputUj s
  | .computeLoopStep below1ms => Sys2Proof.Machine.execComputeLoopStep below1ms s
  | .memoryLoopStep => Sys2Proof.Machine.execMemoryLoopStep s
  | .linkLoopStep byteOrder => Sys2Proof.Machine.execLinkLoopStep byteOrder s
  | .thermalSample sensor celsius => Sys2Proof.Machine.execThermalSample sensor celsius s
  | .thermalTcapStep region => Sys2Proof.Machine.execThermalTcapStep region s
  | .thermalShutdown => Sys2Proof.Machine.execThermalShutdown s
  | .thermalPowerOff => Sys2Proof.Machine.execThermalPowerOff s
  | .thermalRestart => Sys2Proof.Machine.execThermalRestart s
  | .hbmTempReport stack celsius => Sys2Proof.Machine.execHbmTempReport stack celsius s
  | .canaryHeartbeat silent headframe => Sys2Proof.Machine.execCanaryHeartbeat silent headframe s
  | .canaryCheck => Sys2Proof.Machine.execCanaryCheck s
  | .queueWatchdogExpiry lode => Sys2Proof.Machine.execQueueWatchdogExpiry lode s
  | .watchdogDrainTimeout lode => Sys2Proof.Machine.execWatchdogDrainTimeout lode s
  | .fabricWatchdogExpiry region hub => Sys2Proof.Machine.execFabricWatchdogExpiry region hub s
  | .unitFault unit predicted detail => Sys2Proof.Machine.execUnitFault unit predicted detail s
  | .deferredRetirement unit => Sys2Proof.Machine.execDeferredRetirement unit s
  | .wireGroupFailure link => Sys2Proof.Machine.execWireGroupFailure link s
  | .cellReset block engine num => Sys2Proof.Machine.execCellReset block engine num s
  | .blockReset block cause => Sys2Proof.Machine.execBlockReset block cause s
  | .captureTimeout id => Sys2Proof.Machine.execCaptureTimeout id s
  | .blockAgentFirstHeartbeat block => Sys2Proof.Machine.execBlockAgentFirstHeartbeat block s
  | .regionReset region cause => Sys2Proof.Machine.execRegionReset region cause s
  | .chipReset cause => Sys2Proof.Machine.execChipReset cause s
  | .resetTimeout dom => Sys2Proof.Machine.execResetTimeout dom s
  | .rasQuery via kind num => Sys2Proof.Machine.execRasQuery via kind num s
  | .rasCaptureSetup via port addr len => Sys2Proof.Machine.execRasCaptureSetup via port addr len s
  | .canSet via lode timeout => Sys2Proof.Machine.execCanSet via lode timeout s
  | .rasReset via scope num => Sys2Proof.Machine.execRasReset via scope num s
  | .rasUnretire via port lanes => Sys2Proof.Machine.execRasUnretire via port lanes s
  | .eventRecordAccept typ sev code kind num detail gid => Sys2Proof.Machine.execEventRecordAccept typ sev code kind num detail gid s
  | .eventRecordProgrammed => Sys2Proof.Machine.execEventRecordProgrammed s
  | .opsecTick => Sys2Proof.Machine.execOpsecTick s
  | .evrRead via first offset => Sys2Proof.Machine.execEvrRead via first offset s
  | .evrChallenge via => Sys2Proof.Machine.execEvrChallenge via s
  | .evrChallengeLapse => Sys2Proof.Machine.execEvrChallengeLapse s
  | .evrClear via last alg offset final chunk => Sys2Proof.Machine.execEvrClear via last alg offset final chunk s
  | .moduleResetAssert perst => Sys2Proof.Machine.execModuleResetAssert perst s
  | .moduleResetRelease perst => Sys2Proof.Machine.execModuleResetRelease perst s
  | .perstAssert port => Sys2Proof.Machine.execPerstAssert port s
  | .perstRelease port => Sys2Proof.Machine.execPerstRelease port s
  | .cmaCommit who block => Sys2Proof.Machine.execCmaCommit who block s
  | .cmaDirectWrite who block value => Sys2Proof.Machine.execCmaDirectWrite who block value s
  | .cmaShareWrite who block value => Sys2Proof.Machine.execCmaShareWrite who block value s
  | .cmaSafePoint block => Sys2Proof.Machine.execCmaSafePoint block s
  | .cmaHoldExpiry block => Sys2Proof.Machine.execCmaHoldExpiry block s
  | .consumerPositionWrite port lode word value => Sys2Proof.Machine.execConsumerPositionWrite port lode word value s
  | .bar4Resize port size => Sys2Proof.Machine.execBar4Resize port size s
  | .fwSessionTimeout => Sys2Proof.Machine.execFwSessionTimeout s
  | .slotProgramDone firmware readBack => Sys2Proof.Machine.execSlotProgramDone firmware readBack s
  | .clearErasureDone => Sys2Proof.Machine.execClearErasureDone s
  | .lampRailChange stby aux => Sys2Proof.Machine.execLampRailChange stby aux s
  | .mainLowChange low => Sys2Proof.Machine.execMainLowChange low s
  | .coreCellClockGate block core => Sys2Proof.Machine.execCoreCellClockGate block core s
  | .cmaCommitHoldExpiry block => Sys2Proof.Machine.execCmaCommitHoldExpiry block s
  | .linkSignalDetect port lanes => Sys2Proof.Machine.execLinkSignalDetect port lanes s
  | .joinReply dev status => Sys2Proof.Machine.execJoinReply dev status s
  | .controlPacketReceive pkt kind args => Sys2Proof.Machine.execControlPacketReceive pkt kind args s
  | .dutyPhaseChange => Sys2Proof.Machine.execDutyPhaseChange s

end Sys2Proof.Machine
end

