-- ==== Sys2Proof/Safety.lean ====
section
/-! DEFINITION. What a sound state of the module is, and what a run is. -/
namespace Sys2Proof.Machine
open Sys2Proof

/-- The canonical form of memory: addresses strictly rising, no byte listed that an unlisted address would read as. -/
def Memory.wf (m : List Host.Cell) : Bool := twf 0 m

/-- Every listed byte lies at a populated address (R191). -/
def Memory.inMap (m : List Host.Cell) : Bool := m.all fun c => populated c.1

/-- What holds between commands: memory canonical and inside the address map, and no store waiting to be applied. -/
def State.sound (s : State) : Prop := Memory.wf s.mem.bytes = true ∧ Memory.inMap s.mem.bytes = true ∧ s.edits = []

/-- The state after `n` steps, none when one of them stops. -/
def steps : Nat → State → Option State
  | 0, s => some s
  | n + 1, s => match step s with
    | .next t => steps n t
    | _ => none

/-- The state that a command's effect starts from: nothing sent, nothing stored yet (`perform`). -/
abbrev State.start (s : State) : State := { s with out := [], edits := [] }

/-- An engine has performed the command at the head of its queue (R97). -/
def meRan (etag b e : Nat) : State → State := modEngine b e fun g => { g with busy := true, queue := match g.queue with
  | h :: rest => { h with ran := true, etag := etag } :: rest
  | [] => [] }

/-- A core executes instructions now: it runs, waits for nothing another agent delivers, is present, and its block issues (R166, R187, R516). -/
def executes (b c : Nat) (s : State) : Prop :=
  coreReady (coreOf s b c) = true ∧ corePresent s b c = true ∧ issueStopped s b = false

/-- A core's access has reached `ps`: its translation may have aged, and its own scratchpad lines are the core's latest (R227, R176). -/
def reachedAt (b c va n : Nat) (ps : List Part) (s : State) : State :=
  each (memOf ps) (fun p => wh (!p.1) (noteTouch b c p.2.1)) (ageTlb b c ((va + n - 1) % 2 ^ 64) (ageTlb b c va s))

/-- `n` bytes at `va` are the parts `ps` for a core's access, and nothing makes the access wait (R165, R249, R613). -/
def accessAt (b c access va n : Nat) (ps : List Part) (s : State) : Prop :=
  partsOf (ageTlb b c ((va + n - 1) % 2 ^ 64) (ageTlb b c va s)) b c access va n = .ok ps ∧
    accessWaits (ageTlb b c ((va + n - 1) % 2 ^ 64) (ageTlb b c va s)) b c (memOf ps) = false

/-- A unit of DMA starts a chunk of request `d`, of kind `kind`, now (R174): nothing holds the unit, the request, its turn at the region's cipher
or its earlier writes, and the request is neither stale nor cancelled. -/
def startsChunk (u kind : Nat) (d : Dma) (s : State) : Prop :=
  chunkReady s u kind = some d ∧ unitHeld s u = false ∧ reqHeld s d = false ∧
    sealedWaits s u d.lode ((chunkPieces d).map (·.2)).sum = false ∧ (3 < kind ∨ writeWaits s d = false) ∧ d.stale = false ∧ d.cancel = 0

/-- The state in which a chunk's data moves: the request has begun under its lode's present epoch (R36), the granules it meets are resolved and paid
for (R195, R287), and the bounce buffer holds what it left there (R383). -/
def chunkStart (u : Nat) (d : Dma) (s : State) : State :=
  modSec (fun k => { k with bounce := d.bufD })
    (resolveChunk u d (modReq u d (fun x => { x with started := true, epoch := epochTag s d.lode }) s))

/-- After a chunk's data has moved the request keeps what the bounce buffer holds. -/
def chunkKept (u : Nat) (d : Dma) (s : State) : State :=
  modReq u d (fun x => { x with bufN := s.sec.bounce }) (modSec (fun k => { k with bounce := [] }) s)

/-- A request after a chunk of it is done (R174). -/
def chunkPassed (d : Dma) : Dma := { d with
  pos := d.pos + d.chunk, moved := d.moved + d.chunkD, arr := max d.arr d.chunkA, flags := d.flags ||| d.chunkF
  gen := if d.kind = 2 then d.chunkG else d.gen, chunk := 0, chunkD := 0, chunkA := 0, chunkF := 0, retries := 0
  bufD := d.bufN, bufN := [] }

/-- A window packet that came in at port `q` waits for no share of the region's bandwidth (R292). -/
def windowEnters (q : Nat) (k : Packet) (s : State) : Prop :=
  sealedWaits s (128 + q) (rwinOf s k.winid).lode (packetCost k) = false ∧ ∀ w ∈ s.noc.ingress, w.1 = q → w.2.winid ≠ k.winid

/-- The state in which a window packet that came in at port `q` is performed: its bytes are paid for (R290) and it has crossed the mesh to its
pseudo-channel (R272, R275). -/
def windowEntered (q : Nat) (k : Packet) (s : State) : State :=
  let w := rwinOf s k.winid
  let s := payReq (128 + q) w.lode k.cls (packetCost k) s
  match if k.typ = 7 then none else resolve s w.lode (w.laddr + k.offset) with
  | some a => if a < 0x18000000000 then packetWay q k (.pc (a / 0x80000000)) s else s
  | none => s

/-- A verb's request stands where `via` says (R378, R381), and the chip is awake. -/
def requested (via : Via) (code : Nat) (s : State) : Prop := carries via code s = true ∧ asleep s = false

/-- A writer's register access to function `f` at `off` is not turned away: its host port has a function that answers, the chip is ready, the
function is unlocked, the chip is awake (R164, R574, R605, R501). -/
def admits (who : Writer) (f : Nat) (s : State) : Prop :=
  reaches s who = true ∧ (isHost who = true → asleep s = false ∧ bootDone s = true ∧ unlocked s f = true)

end Sys2Proof.Machine
end

