-- ==== Sys2Proof/Certificates/Slice0/Obligations.lean ====
section
/-! DEFINITION. The statements for the provers, in the order of OBLIGATIONS.json. -/
open Sys2Proof Sys2Proof.Machine

/-- O1: A host reads a register's value, writes a mailbox header, and a misaligned write is recorded. -/
def Obligations.RegistersReadAndWritten : Prop :=
  (∀ (p off size : Nat) (s : State) (r : Reg),
    funcPresent s p = true → (accessWakes off false = true → asleep s = false) → off < 0x1000000 → accessOk off size = true →
    (bootDone s = true ∨ earlyReg off = true) → regAt (headAccess size s) p off = some r → r.base = off → (size = 8 → oneReg (headAccess size s) p off = true) →
    r.conf = false → deadReg s p r = false → (r.rlock = true → unlocked s r.fn = true) → r.clear = none →
    exec (.rcRegisterRead p off size) s = .next (perform s fun u => emit (.readData (r.val % 2 ^ (8 * size))) (headAccess size u))) ∧
  (∀ (p n v : Nat) (s : State), funcPresent s p = true → n < 8 → (slotOf s p n).state ≠ 1 →
    exec (.registerWrite (.host p) (0x4060000 + n * 0x4000) 8 v) s =
      .next (perform s fun u => modSlot p n (fun m =>
        { m with verb := v % 2 ^ 16, len := v / 2 ^ 16 % 2 ^ 16, tag := v / 2 ^ 48 % 2 ^ 16 }) (headAccess 8 u))) ∧
  (∀ (p off size v : Nat) (s : State), funcPresent s p = true → (accessWakes off true = true → asleep s = false) → off < 0x4000000 →
    accessOk off size = false →
    exec (.registerWrite (.host p) off size v) s =
      .next (perform s fun u => modHport p (fun h => { h with errOff := off, errReason := 1, errCount := min 0xFF (h.errCount + 1) }) (headAccess size u)))

/-- O2: LODE_CREATE, LODE_QUERY, LODE_DESTROY and REBIND_ABORT: what each leaves in the lode map. -/
def Obligations.LodesFoundedReportedDestroyed : Prop :=
  (∀ (via : Via) (mask : Nat) (sets credits : List Nat) (pasid port : Nat) (conf : Bool) (s : State) (l n : Nat),
    requested via 0x0300 s → createErr s mask sets credits pasid port conf = 0 → freeIndex s = some l → nextSerial s = some n →
    ∃ t, exec (.lodeCreate via mask sets credits pasid port conf) s = .next t ∧
      lodeOf t l = {
        gid := foundDev s * 65536 + n, state := 1, pasid := pasid, port := port, coord := true, home := true
        homeDev := s.dr.devid, conf := conf, transport := if conf then freeVault s else none } ∧
      (∀ k, k ≠ l → lodeOf t k = lodeOf s k) ∧ t.lm.lastSerial = n ∧
      (∀ b ∈ bitsOf 96 mask, blockOf t b = { blockOf s b with state := 4 }) ∧ (∀ b, b ∉ bitsOf 96 mask → blockOf t b = blockOf s b) ∧
      (∀ m ∈ sets, setOf t m = { setOf s m with state := 4 }) ∧ (∀ m, m ∉ sets → setOf t m = setOf s m) ∧
      t.lm.ops = s.lm.ops ++ [{ num := opNumber s, kind := .create, slot := l, blocks := bitsOf 96 mask, sets := sets, added := credits, via := some via }] ∧
      t.lm.scrubs = s.lm.scrubs ++ [{ id := s.lm.scrubNext, micros := 60000, what := .op (opNumber s) }]) ∧
  (∀ (via : Via) (gid l : Nat) (s : State), requested via 0x0302 s → findVia s via gid = some l →
    exec (.lodeQuery via gid) s = .next (perform s (answer via 0 (lodeReport s l)))) ∧
  (∀ (via : Via) (gid l : Nat) (s : State), requested via 0x0301 s → findRun s via gid = some l → (lodeOf s l).frozen = false →
    (lodeOf s l).members = [] → ctxsOf s l = [] → lodeNamed s l = false →
    exec (.lodeDestroy via gid) s = .next (perform s fun u => afterOps (startDestroy l (some via) u))) ∧
  (∀ (via : Via) (gid l : Nat) (s : State), requested via 0x0301 s → findRun s via gid = some l → (lodeOf s l).frozen = false →
    (lodeOf s l).members ≠ [] → (lodeOf s l).coord = true → ctxsOf s l = [] → lodeNamed s l = false →
    exec (.lodeDestroy via gid) s = .next (perform s fun u => afterOps (commit l (.members [] (some via))
      (modLode l (fun d => { d with destroyVias := [] }) u)))) ∧
  (∀ (l : Nat) (v : Option Via) (s : State), lodeOf (startDestroy l v s) l = { lodeOf s l with state := 4, destroyVias := [] } ∧
    (∀ k, k ≠ l → lodeOf (startDestroy l v s) k = lodeOf s k) ∧
    (startDestroy l v s).lm.ops = s.lm.ops ++ [{
      num := opNumber s, kind := .destroy, donor := l, step := if (lodeOf s l).prevLive then 1 else 2, via := v, committed := true }]) ∧
  (∀ (via : Via) (op : Nat) (o : Op) (s : State), requested via 0x0314 s → getOp s op = some o → isRebind o.kind = true →
    o.committed = false → o.begun = false →
    exec (.rebindAbort via op) s = .next (perform s fun u => afterOps (answer via 0 [] (endOp op Err.cancelled u))))

/-- O3: The four rebinding verbs start their operation: claims, copies planned, commits asked for. -/
def Obligations.RebindingOperationsStart : Prop :=
  (∀ (via : Via) (mask donor receiver deadline d r : Nat) (s : State), requested via 0x0310 s → rebinds s < 8 →
    findRun s via donor = some d → findRun s via receiver = some r → blockMoveErr s mask d r deadline = 0 →
    ∃ t, exec (.blockMove via mask donor receiver deadline) s = .next t ∧
      t.lm.ops = s.lm.ops ++ [{
        num := opNumber s, kind := .blockMove, step := 3, donor := d, receiver := r, blocks := bitsOf 96 mask
        deadline := if deadline = 0 then 100 else deadline, via := some via }] ∧
      (∀ b ∈ bitsOf 96 mask, blockOf t b = { blockOf s b with state := 2, drain := true }) ∧
      (∀ b, b ∉ bitsOf 96 mask → blockOf t b = blockOf s b) ∧
      t = { s with lm := { s.lm with blocks := t.lm.blocks, ops := t.lm.ops, opNext := t.lm.opNext }, edits := [] }) ∧
  (∀ (via : Via) (n donor receiver rate d r : Nat) (s : State), requested via 0x0311 s → rebinds s < 8 →
    findRun s via donor = some d → findRun s via receiver = some r → channelMoveErr s n d r rate = 0 →
    exec (.channelMove via n donor receiver rate) s = .next (perform s fun u =>
      afterOps (copiesDone (opNumber s) (planCopies (opNumber s) d (onSet s d n) (freeElsewhere s d n) (addOp {
        num := 0, kind := .channelMove, step := 2, donor := d, receiver := r, sets := [n], granules := onSet s d n
        rate := theRate rate, via := some via } u))))) ∧
  (∀ (via : Via) (lode dest rate l : Nat) (gs : List Nat) (s : State), requested via 0x0312 s → rebinds s < 8 →
    findRun s via lode = some l → granuleErr s l gs dest rate = 0 →
    exec (.granuleMigrate via lode gs dest rate) s = .next (perform s fun u =>
      planCopies (opNumber s) l gs ((freeSlots s l dest).map fun x => (dest, x)) (addOp {
        num := 0, kind := .granuleMigrate, step := 2, donor := l, receiver := l, granules := gs, dest := dest
        rate := theRate rate, via := some via } u))) ∧
  (∀ (via : Via) (p units donor receiver d r : Nat) (s : State), requested via 0x0313 s → rebinds s < 8 →
    findRun s via donor = some d → findRun s via receiver = some r → creditErr s p units d r = 0 →
    exec (.creditMove via p units donor receiver) s = .next (perform s fun u =>
      afterOps (commit d (.credit (opNumber s)) (addOp {
        num := 0, kind := .creditMove, donor := d, receiver := r, port := p, units := units, via := some via } u))))

/-- O4: Drained blocks and epochs, finished copies, settled granules and retried requests advance rebinding. -/
def Obligations.RebindingStepsAdvance : Prop :=
  (∀ (b : Nat) (o : Op) (s : State), (blockOf s b).state = 2 → launchFree s b = true → (blockOf s b).resetting = false → s.pwr.shutdown = 0 →
    (s.lm.ops.find? fun o => o.kind = .blockMove ∧ o.step = 3 ∧ o.blocks.contains b) = some o → b ∉ o.drained →
    (o.blocks.all fun x => (o.drained ++ [b]).contains x) = false →
    exec (.blockDrained b) s = .next (perform s (modOp o.num fun p => { p with drained := o.drained ++ [b] }))) ∧
  (∀ (b : Nat) (o : Op) (s : State), (blockOf s b).state = 2 → launchFree s b = true → (blockOf s b).resetting = false → s.pwr.shutdown = 0 →
    (s.lm.ops.find? fun o => o.kind = .blockMove ∧ o.step = 3 ∧ o.blocks.contains b) = some o → b ∉ o.drained →
    (o.blocks.all fun x => (o.drained ++ [b]).contains x) = true →
    exec (.blockDrained b) s = .next (perform s fun u => commit o.donor (.detach o.num o.blocks)
      (modOp o.num (fun p => { p with step := 4 }) (modOp o.num (fun p => { p with drained := o.drained ++ [b] }) u)))) ∧
  (∀ (op : Nat) (o : Op) (s : State), getOp s op = some o → o.kind = .blockMove → o.step = 3 → lodeHeld s o.donor = false →
    exec (.rebindDrainTimeout op) s = .next (perform s fun u => afterOps (endOp op Err.rebindTimeout u))) ∧
  (∀ (l : Nat) (s : State), (lodeOf s l).state ≠ 0 → outstanding s l (drainTag s l) = false →
    exec (.epochDrained l) s = .next (perform s fun u => afterOps (epochDrainedEff l u))) ∧
  (∀ (l : Nat) (s : State), outstanding s l (drainTag s l) = true → exec (.epochDrained l) s = .next (perform s id)) ∧
  (∀ (l : Nat) (s : State), (lodeOf s l).state = 2 → outstanding s l (drainTag s l) = false → (s.lm.ops.filter fun o => o.donor = l) = [] →
    s.lm.waiting = [] → s.lm.opHeld = [] → s.pwr.shutdown = 0 → (∀ k, (lodeOf s k).destroyVias = []) → (lodeOf s l).members = [] →
    (∀ p, (pcOf s p).predicted = false) →
    ∃ t, exec (.epochDrained l) s = .next t ∧ (lodeOf t l).prevLive = false ∧ (lodeOf t l).epoch = (lodeOf s l).epoch ∧
      (∀ k, k ≠ l → lodeOf t k = lodeOf s k) ∧
      t = { s with lm := { s.lm with lodes := t.lm.lodes }, edits := [] }) ∧
  (∀ (l g n : Nat) (s : State), (granOf s l g).valid = true → (granOf s l g).mig = 1 → (granOf s l g).copied = false →
    (granOf s l g).op = some n → copyRuns s l g = true →
    exec (.granuleCopyDone l g) s = .next (perform s fun u => afterOps (copiesDone n (startCopies n
      (modGran l g (fun e => { e with copied := true }) (chargeHead s.img.applied.migClass (2 ^ 28) (dropCopy l g
        (copySlot (granOf s l g).set (granOf s l g).slot (granOf s l g).dset (granOf s l g).dslot u)))))))) ∧
  (∀ (l g n : Nat) (s : State), (granOf s l g).valid = true → (granOf s l g).mig = 2 → drained s l = true → (granOf s l g).op = some n →
    exec (.endOfForward l g) s = .next (perform s fun u => afterOps (settledAll n
      (each (granOf s l g).held serveReq (modGran l g (fun e => { e with mig := 0, dset := 0, dslot := 0, copied := false, op := none, held := [] })
        (dropSlotLines (granOf s l g).dset (granOf s l g).dslot u)))))) ∧
  (∀ (id n : Nat) (r : MemReq) (s : State), (s.mem.retries.find? fun t => t.1 = id) = some (n, r) →
    exec (.staleEpochRetry id) s = .next (perform s fun u => issue { r with etag := (lodeOf s r.lode).epoch % 256, retried := true }
      (modMem (fun m => { m with retries := m.retries.filter fun t => t.1 ≠ id }) u))) ∧
  (∀ (r : MemReq) (conf : Bool) (s : State), (lodeOf s r.lode).state = 0 ∨ tagLive s r.lode r.etag = false →
    arrive r conf s = if r.retried then failReq r Err.staleEpoch s
      else answerReq r Err.staleEpoch [] (modMem (fun m => { m with retries := tins m.retries r.id r }) s))

/-- O5: The expert registers mark a block draining and run a staged step whose group agrees. -/
def Obligations.ExpertLodeMapSteps : Prop :=
  (∀ (who : Writer) (b v : Nat) (s : State), admits who 1 s → b < 96 → v.testBit 23 = true → (blockOf s b).state = 1 →
    exec (.lmBlockDrainWrite who b v) s = .next (perform s fun u => modBlock b (fun k => { k with state := 2, drain := true }) (entered who u))) ∧
  (∀ (who : Writer) (s : State), admits who 1 s → s.lm.opState ≠ 1 → s.lm.opState ≠ 2 → stageAgrees s (stagedGroup s) = true →
    (s.lm.stKind = 1 → exec (.lmBlockDetach who) s =
      .next (perform s fun u => afterOps (stageRun (modLm (fun m => { m with live := stagedGroup s }) (entered who u))))) ∧
    (s.lm.stKind = 2 → exec (.lmBlockAttach who) s =
      .next (perform s fun u => afterOps (stageRun (modLm (fun m => { m with live := stagedGroup s }) (entered who u))))) ∧
    (s.lm.stKind = 3 → exec (.lmSetCutover who) s =
      .next (perform s fun u => afterOps (stageRun (modLm (fun m => { m with live := stagedGroup s }) (entered who u))))) ∧
    (s.lm.stKind = 4 → exec (.lmSetAttach who) s =
      .next (perform s fun u => afterOps (stageRun (modLm (fun m => { m with live := stagedGroup s }) (entered who u))))) ∧
    (s.lm.stKind = 5 → exec (.lmCreditMove who) s =
      .next (perform s fun u => afterOps (stageRun (modLm (fun m => { m with live := stagedGroup s }) (entered who u)))))) ∧
  (∀ (m : Stage) (s : State), s.lm.live = m → m.kind = 1 → multichip s m.donor = false → stageErr s m = 0 → rebinds s < 8 →
    stageRun s = commit m.donor (.detach (opNumber s) [m.res]) (addOp {
      num := 0, kind := .expert, donor := m.donor, receiver := 0x7F, slot := m.slot, units := m.units, port := m.res, rate := m.rate
      blocks := [m.res] } (stageHold .none s))) ∧
  (∀ (m : Stage) (s : State), s.lm.live = m → m.kind = 2 → multichip s m.recv = false → (blockOf s m.res).state ≠ 3 → (blockOf s m.res).state ≠ 4 → stageErr s m = 0 → rebinds s < 8 →
    stageRun s = commit m.recv (.attach (opNumber s) [m.res] (some m.slot)) (addOp {
      num := 0, kind := .expert, donor := 0x7F, receiver := m.recv, slot := m.slot, units := m.units, port := m.res, rate := m.rate
      blocks := [m.res] } (stageHold .none s))) ∧
  (∀ (m : Stage) (s : State), s.lm.live = m → m.kind = 3 → multichip s m.donor = false → stageErr s m = 0 → rebinds s < 8 →
    stageRun s = commit m.donor (.cutover (opNumber s)) (addOp {
      num := 0, kind := .expert, donor := m.donor, receiver := 0x7F, slot := m.slot, units := m.units, port := m.res, rate := m.rate
      sets := [m.res] } (stageHold .none s))) ∧
  (∀ (m : Stage) (s : State), s.lm.live = m → m.kind = 4 → multichip s m.recv = false → (setOf s m.res).state ≠ 4 → stageErr s m = 0 → rebinds s < 8 →
    stageRun s = commit m.recv (.attachSet (opNumber s) m.res) (addOp {
      num := 0, kind := .expert, donor := 0x7F, receiver := m.recv, slot := m.slot, units := m.units, port := m.res, rate := m.rate
      sets := [m.res] } (stageHold .none s))) ∧
  (∀ (m : Stage) (s : State), s.lm.live = m → m.kind = 5 → multichip s m.donor = false → multichip s m.recv = false → stageErr s m = 0 → rebinds s < 8 →
    stageRun s = commit m.donor (.credit (opNumber s)) (addOp {
      num := 0, kind := .creditMove, donor := m.donor, receiver := m.recv, slot := m.slot, units := m.units, port := m.res, rate := m.rate } (stageHold .none s))) ∧
  (∀ s : State, s.lm.opState = 1 → s.lm.stWait = .agreement → stageAgrees s s.lm.live = false →
    exec .lmStageHoldExpiry s = .next (perform s (modLm fun m => { m with opState := 4, opError := Err.lodeUnknown, stWait := .none })))

/-- O6: The image verbs open, fill, commit, abort, select and confirm a slot of the image store. -/
def Obligations.ImageSlotsWritten : Prop :=
  (∀ (via : Via) (slot len : Nat) (s : State), requested via 0x0020 s → s.sec.locked = false → beginErr s.img.slots slot len 4194304 = 0 →
    exec (.imageBegin via slot len) s = .next (perform s fun u => answer via 0 (enc [(2, s.img.slots.sessNext)])
      (modImg (fun i => { i with slots := i.slots.begin slot len }) u))) ∧
  (∀ (via : Via) (n off : Nat) (bs : List Byte) (s : State), requested via 0x0021 s → s.sec.locked = false →
    dataErr s.img.slots n off bs.length = 0 →
    exec (.imageData via n off bs) s = .next (perform s fun u => answer via 0 []
      (modImg (fun i => { i with slots := { i.slots with lastErr := 0, session := i.slots.session.map fun x => x.write off bs } }) u))) ∧
  (∀ (via : Via) (n : Nat) (x : Session) (bs : List Byte) (s : State), requested via 0x0022 s → s.sec.locked = false →
    s.img.slots.named n = some x → x.whole = some bs →
    exec (.imageCommit via n) s = .next (perform s fun u =>
      let u := wh (imageErr s bs).1 sigFailed u
      if (imageErr s bs).2 ≠ 0 then
        reject via (imageErr s bs).2 (modImg (fun i => { i with slots := { i.slots.abort with lastErr := (imageErr s bs).2 } }) u)
      else modImg (fun i => { i with slots := { i.slots with session := i.slots.session.map fun y => { y with commit := some via } } }) u)) ∧
  (∀ (via : Via) (n : Nat) (x : Session) (s : State), requested via 0x0023 s → s.sec.locked = false → s.img.slots.named n = some x →
    exec (.imageAbort via n) s = .next (perform s fun u => answer via 0 []
      (modImg (fun i => { i with slots := { i.slots with lastErr := 0 }.abort }) u))) ∧
  (∀ (via : Via) (slot : Nat) (trial : Bool) (s : State), requested via 0x0024 s → s.sec.locked = false → selectErr s.img.slots slot = 0 →
    exec (.imageSelect via slot trial) s = .next (perform s fun u => answer via 0 []
      (modImg (fun i => { i with slots := if trial then { i.slots with lastErr := 0, trial := true, trialSl := slot }
        else { i.slots with lastErr := 0, pref := slot } }) u))) ∧
  (∀ (via : Via) (s : State), requested via 0x0025 s → s.sec.locked = false → s.lm.defaulted = false →
    exec (.imageConfirm via) s = .next (perform s fun u => answer via 0 []
      (modImg (fun i => { i with slots := { i.slots with lastErr := 0, pref := i.slots.inUse, floor := newFloor i.slots } }) u))) ∧
  (∀ (via : Via) (s : State), requested via 0x0026 s → s.sec.locked = false →
    exec (.imageStatus via) s = .next (perform s (answer via 0 (enc (slotReport s.img.slots
      [(1, if s.lm.defaulted then 1 else 0)] ++ [(1, if s.img.policyReq then 0 else 1), (4, s.img.policyCnt)]))))) ∧
  (∀ (via : Via) (policy alg off : Nat) (chunk : List Byte) (s : State), requested via 0x0027 s → s.sec.locked = false →
    policyErr policy alg off chunk.length = 0 →
    exec (.imagePolicySet via policy alg off false chunk) s = .next (perform s fun u => answer via 0 []
      (modImg (fun i => { i with policySig := sigPut i.policySig off chunk, slots := { i.slots with lastErr := 0 } }) u))) ∧
  (∀ (via : Via) (policy alg off : Nat) (chunk sg : List Byte) (s : State), requested via 0x0027 s → s.sec.locked = false →
    policyErr policy alg off chunk.length = 0 → sigWhole (sigPut s.img.policySig off chunk) alg = some sg →
    exec (.imagePolicySet via policy alg off true chunk) s = .next (perform s fun u =>
      if Config.verifies alg s.sec.authKey (policyMsg s policy) sg then answer via 0 [] (modImg (fun i =>
        { i with policySig := [], policyReq := decide (policy = 0), policyCnt := i.policyCnt + 1, slots := { i.slots with lastErr := 0 } }) u)
      else sigFailed (modImg (fun i => { i with slots := { i.slots with lastErr := Err.imageSignature } }) (reject via Err.imageSignature
        (modImg (fun i => { i with policySig := [], slots := { i.slots with lastErr := 0 } }) u))))) ∧
  (∀ (x : Session) (s : State), s.img.slots.session = some x → x.commit = none →
    exec .imageSessionTimeout s = .next (perform s (modImg fun i => { i with slots := i.slots.abort })))

/-- O7: The firmware verbs and the end of programming write the firmware slots. -/
def Obligations.FirmwareSlotsWritten : Prop :=
  (∀ (via : Via) (slot len : Nat) (s : State), requested via 0x0730 s → s.sec.locked = false → beginErr s.sec.fw slot len 8388608 = 0 →
    exec (.fwBegin via slot len) s = .next (perform s fun u => answer via 0 (enc [(2, s.sec.fw.sessNext)])
      (modSec (fun k => { k with fw := k.fw.begin slot len }) u))) ∧
  (∀ (via : Via) (n off : Nat) (bs : List Byte) (s : State), requested via 0x0731 s → s.sec.locked = false →
    dataErr s.sec.fw n off bs.length = 0 →
    exec (.fwData via n off bs) s = .next (perform s fun u => answer via 0 []
      (modSec (fun k => { k with fw := { k.fw with lastErr := 0, session := k.fw.session.map fun x => x.write off bs } }) u))) ∧
  (∀ (via : Via) (n : Nat) (x : Session) (bs : List Byte) (s : State), requested via 0x0732 s → s.sec.locked = false →
    s.sec.fw.named n = some x → x.whole = some bs →
    exec (.fwCommit via n) s = .next (perform s fun u =>
      let u := wh (bundleErr s bs).1 sigFailed u
      if (bundleErr s bs).2 ≠ 0 then
        reject via (bundleErr s bs).2 (modSec (fun k => { k with fw := { k.fw.abort with lastErr := (bundleErr s bs).2 } }) u)
      else modSec (fun k => { k with fw := { k.fw with session := k.fw.session.map fun y => { y with commit := some via } } }) u)) ∧
  (∀ (via : Via) (n : Nat) (x : Session) (s : State), requested via 0x0733 s → s.sec.locked = false → s.sec.fw.named n = some x →
    exec (.fwAbort via n) s = .next (perform s fun u => answer via 0 []
      (modSec (fun k => { k with fw := { k.fw with lastErr := 0 }.abort }) u))) ∧
  (∀ (via : Via) (slot : Nat) (trial : Bool) (s : State), requested via 0x0734 s → s.sec.locked = false → selectErr s.sec.fw slot = 0 →
    exec (.fwSelect via slot trial) s = .next (perform s fun u => answer via 0 []
      (modSec (fun k => { k with fw := if trial then { k.fw with lastErr := 0, trial := true, trialSl := slot }
        else { k.fw with lastErr := 0, pref := slot } }) u))) ∧
  (∀ (via : Via) (s : State), requested via 0x0735 s → s.sec.locked = false → s.sec.fw.inUse ≠ 2 →
    exec (.fwConfirm via) s = .next (perform s fun u => answer via 0 []
      (modSec (fun k => { k with fw := { k.fw with lastErr := 0, pref := k.fw.inUse, floor := fwFloor k.fw } }) u))) ∧
  (∀ (via : Via) (s : State), requested via 0x0736 s → s.sec.locked = false →
    exec (.fwStatus via) s = .next (perform s (answer via 0 (enc (slotReport s.sec.fw []))))) ∧
  (∀ (x : Session) (s : State), s.sec.fw.session = some x → x.commit = none →
    exec .fwSessionTimeout s = .next (perform s (modSec fun k => { k with fw := k.fw.abort }))) ∧
  (∀ (x : Session) (via : Via) (bs : List Byte) (s : State), s.sec.fw.session = some x → x.commit = some via →
    exec (.slotProgramDone true bs) s = .next (perform s fun u =>
      (fun v => if (bundleErr s bs).2 = 0 then answer via 0 (enc [(2, slotSvn { data := bs })])
          (modSec (fun k => { k with fw := { k.fw.put x.slot { state := 1, data := bs } with session := none, lastErr := 0 } }) v)
        else reject via (bundleErr s bs).2 (modSec (fun k => { k with fw := { k.fw.abort with lastErr := (bundleErr s bs).2 } }) v))
      (wh (bundleErr s bs).1 sigFailed u))) ∧
  (∀ (x : Session) (via : Via) (bs : List Byte) (s : State), s.img.slots.session = some x → x.commit = some via →
    exec (.slotProgramDone false bs) s = .next (perform s fun u =>
      (fun v => if (imageErr s bs).2 = 0 then answer via 0 (imageResult bs)
          (modImg (fun i => { i with slots := { i.slots.put x.slot { state := 1, data := bs } with session := none, lastErr := 0 } }) v)
        else reject via (imageErr s bs).2 (modImg (fun i => { i with slots := { i.slots.abort with lastErr := (imageErr s bs).2 } }) v))
      (wh (imageErr s bs).1 sigFailed u)))

/-- O8: The vault, enrolment, quotes and alarms: what each security command leaves. -/
def Obligations.VaultIdentityAndQuotes : Prop :=
  (∀ (via : Via) (slot : Nat) (s : State), requested via 0x0704 s → slot < 256 →
    exec (.vaultQuery via slot) s = .next (perform s (answer via 0 (enc [(8, slotWord (vslotOf s slot))])))) ∧
  (∀ (via : Via) (slot : Nat) (s : State), requested via 0x0705 s → revokeErr s via slot = 0 → (vslotOf s slot).gen < 65535 →
    ∃ t, exec (.vaultRevoke via slot) s = .next t ∧ (vslotOf t slot).gen = (vslotOf s slot).gen + 1 ∧ (vslotOf t slot).valid = true ∧
      (∀ k, k ≠ slot → vslotOf t k = vslotOf s k) ∧
      t = { s with sec := { s.sec with slots := t.sec.slots }, hp := t.hp, out := t.out, free := t.free, edits := [] }) ∧
  (∀ (slot : Nat) (s : State), orphaned s slot = true →
    exec (.orphanZeroise slot) s = .next (perform s (modVslot slot fun v => { gen := v.gen }))) ∧
  (∀ (slot r : Nat) (s : State), (vslotOf s slot).valid = true →
    ∃ t, exec (.vaultRemask slot r) s = .next t ∧
      (vslotOf t slot).s1 ^^^ (vslotOf t slot).s2 = (vslotOf s slot).s1 ^^^ (vslotOf s slot).s2 ∧
      (vslotOf t slot).s1 = (vslotOf s slot).s1 ^^^ BitVec.ofNat 512 r ∧ (∀ k, k ≠ slot → vslotOf t k = vslotOf s k) ∧
      t = { s with sec := { s.sec with slots := t.sec.slots }, edits := [] }) ∧
  (∀ (via : Via) (key : List Byte) (alg : Nat) (sig : List Byte) (s : State), requested via 0x0703 s → fromManager via = true →
    key.length = 64 → s.sec.authSet = false →
    exec (.secImageAuthSet via key alg sig) s = .next (perform s fun u => answer via 0 []
      (putKey 3 (unle key) (modVslot 3 (fun v => { v with parent := 3, valid := true, typ := 3, uses := 8 })
        (modSec (fun k => { k with authSet := true, authKey := key }) u))))) ∧
  (∀ (via : Via) (s : State), requested via 0x0702 s → fromManager via = true → s.sec.locked = false → s.sec.identity ≠ 1 → s.sec.enrol ≠ 255 →
    ∃ f : State → State, exec (.secEnrol via) s = .next (perform s fun u => signOrWait false via 1 [] (f u)) ∧
      ∀ u, (∀ n, 3 ≤ n → vslotOf (f u) n = vslotOf u n) ∧ (vslotOf (f u) 0).valid = true ∧ (vslotOf (f u) 1).valid = true ∧
        (vslotOf (f u) 2).valid = true ∧ (f u).sec.enrol = u.sec.enrol + 1 ∧ (f u).sec.idKey = {} ∧ (f u).sec.atKey = {}) ∧
  (∀ (via : Via) (gid : Nat) (nonce : List Byte) (s : State), requested via 0x0700 s → quoteErr s via gid nonce = 0 →
    exec (.assayQuote via gid nonce) s = .next (perform s (fun u => signOrWait true via 0 (le 4 gid ++ quoteBody s (findGid s gid) nonce) u))) ∧
  (∀ (via : Via) (handle obj offset : Nat) (h : Nat × List Byte × Nat) (o : List Byte) (s : State), requested via 0x0701 s →
    ((handlesOf s (viaSource via)).find? fun h => h.1 = handle) = some h → assayObject s h obj = some o → offset < o.length →
    exec (.assayRead via handle obj offset) s = .next (perform s (answer via 0 ((o.drop offset).take 4096)))) ∧
  (∀ (source handle : Nat) (s : State), source < 3 →
    exec (.assayHandleLapse source handle) s =
      .next (perform s (setHandles source ((handlesOf s source).filter fun h => h.1 ≠ handle)))) ∧
  (∀ (att : Bool) (s : State), (keyOf s att).wait ≠ [] →
    exec (.xmssReservationWritten att) s = .next (perform s fun u =>
      each (keyOf s att).wait (fun _ u => if (keyOf u att).next < (keyOf u att).rend then signWaiting att u else u)
        (setKey att { keyOf s att with rend := (keyOf s att).rend + 1024 } u))) ∧
  (∀ (source : Nat) (s : State), source < 5 → source ≠ 3 → s.chip.phase ≠ 0 →
    exec (.alarmRaise source) s = .next (perform s fun u => afterOps (alarm source u))) ∧
  (∀ s : State, s.chip.phase ≠ 0 →
    exec (.alarmRaise 3) s = .next (perform s fun u => afterOps (alarm 3 (modChip (fun c => { c with shieldOk := false }) u))))

/-- O9: Matrix engine commands at the head of the queue are performed: what LOAD, MMA, ACC_READ, STORE, TRANSPOSE, REDUCE_SEND, ACC_LOAD do. -/
def Obligations.EngineCommandsPerformed : Prop :=
  (∀ (b e c : Nat) (rows : List (List Byte)) (s u : State), meHead s b e 1 = some c → issueStopped s b = false → ((cmaOf s b).hold = false ∨ usesCluster c = false) →
    rdRows s.start b e (loadSrc c) = .ok rows → fld c 20 4 = fld c 16 4 → c.testBit 45 = false →
    wrRows b e (loadDst c) (rows.map fun r => pack (fld c 16 4) (unpack (fld c 20 4) (fld c 24 14 + 1) r)) s.start = .ok u →
    exec (.meLoad b e) s = .next (perform s fun _ => meRan (epochTag s (blockOf s b).lode) b e u)) ∧
  (∀ (b e c : Nat) (ra rb : List (List Byte)) (s : State), meHead s b e 2 = some c → issueStopped s b = false →
    c.testBit 43 = true → c.testBit 44 = false → c.testBit 45 = false → (mmaPair (fld c 12 4) (fld c 8 4)).map (·.1) = some false →
    rdRows s.start b e (mmaA c) = .ok ra → rdRows s.start b e (mmaB c) = .ok rb → fld c 42 1 = 0 →
    ∃ t, exec (.meMma b e) s = .next t ∧
      (∀ i j ai bj, i < 128 → j < 128 → ra[i]? = some ai → rb[j]? = some bj → tileGet (engineOf t b e).tile0 i j =
        (mmaElem false false false (engineOf s b e).accSat (s.free * 16384 + i * 128 + j) (cK c / 32) [] [] []
          ((unpack (fld c 12 4) (cK c) ai).map fun v => decodeElem (fld c 12 4) v 0)
          ((unpack (fld c 8 4) (cK c) bj).map fun v => decodeElem (fld c 8 4) v 0) 0).1 % 2 ^ 32) ∧
      t = { s with cu := { s.cu with engines := t.cu.engines }, free := s.free + 1, edits := [] }) ∧
  (∀ (b e c : Nat) (s u : State), meHead s b e 3 = some c → issueStopped s b = false → ((cmaOf s b).hold = false ∨ usesCluster c = false) →
    doAccRead b e c s.start = .ok u → exec (.meAccRead b e) s = .next (perform s fun _ => meRan (epochTag s (blockOf s b).lode) b e u)) ∧
  (∀ (b e c : Nat) (rows : List (List Byte)) (s u : State), meHead s b e 4 = some c → issueStopped s b = false → ((cmaOf s b).hold = false ∨ usesCluster c = false) →
    rdRows s.start b e (storeSrc c) = .ok rows → wrRows b e (storeDst c) rows s.start = .ok u →
    exec (.meStore b e) s = .next (perform s fun _ => meRan (epochTag s (blockOf s b).lode) b e u)) ∧
  (∀ (b e c : Nat) (rows : List (List Byte)) (s u : State), meHead s b e 5 = some c → issueStopped s b = false → ((cmaOf s b).hold = false ∨ usesCluster c = false) →
    rdRows s.start b e (trSrc c) = .ok rows →
    wrRows b e (trDst c) ((flipRows [] (cCols c) (rows.map (chunks (trWidth c) (cCols c)))).map List.flatten) s.start = .ok u →
    exec (.meTranspose b e) s = .next (perform s fun _ => meRan (epochTag s (blockOf s b).lode) b e u)) ∧
  (∀ (b e c : Nat) (s u : State), meHead s b e 6 = some c → issueStopped s b = false → ((cmaOf s b).hold = false ∨ usesCluster c = false) →
    doReduceSend b e c s.start = .ok u → exec (.meReduceSend b e) s = .next (perform s fun _ => meRan (epochTag s (blockOf s b).lode) b e u)) ∧
  (∀ (b e c : Nat) (rows : List (List Byte)) (s : State), meHead s b e 7 = some c → issueStopped s b = false → ((cmaOf s b).hold = false ∨ usesCluster c = false) →
    rdRows s.start b e (alSrc c) = .ok rows →
    exec (.meAccLoad b e) s = .next (perform s fun u => meRan (epochTag s (blockOf s b).lode) b e (modEngine b e (setTile (fld c 42 1) {
      int := decide (fld c 24 2 = 2)
      cells := rows.zipIdx.foldl (fun t ri => (chunks (efBytes (fld c 24 2)) (cCols c) ri.1).zipIdx.foldl (fun t vj =>
        tset 0 t (ri.2 * 128 + vj.2) (BitVec.ofNat 32 (if fld c 24 2 = 1 then (encodeElem 0 0 0 false none (decodeElem 2 (unle vj.1) 0)).1 else unle vj.1))) t) [] }) u)))

/-- O10: ME.ISSUE queues a command; completion, the bound, gating and reduction acknowledgements act on the engine and its delivery. -/
def Obligations.EngineQueueAndCompletion : Prop :=
  (∀ (b c rd rs1 rs2 ph : Nat) (bytes : List Byte) (s : State), coreReady (coreOf s b c) = true → corePresent s b c = true →
    issueStopped s b = false → ownPad b c (xOf (coreOf s b c) rs1) 32 = some ph → xOf (coreOf s b c) rs1 % 32 = 0 → xOf (coreOf s b c) rs2 < 4 →
    rdPhys s.start ph 32 = .ok bytes → (engineOf s b (xOf (coreOf s b c) rs2)).errstop = false →
    meCheck s b (xOf (coreOf s b c) rs2) (unle bytes) = 0 → (engineOf s b (xOf (coreOf s b c) rs2)).queue.length < 8 →
    exec (.meIssue b c rd rs1 rs2) s = .next (perform s fun u =>
      modCore b c (fun k => { retireX rd 0 k with meOut := k.meOut + 1 })
        (modEngine b (xOf (coreOf s b c) rs2) (fun g => { g with queue := g.queue ++ [{ bits := unle bytes, issuer := c }], gated := false }) u))) ∧
  (∀ (b c rd rs1 rs2 ph : Nat) (bytes : List Byte) (s : State), coreReady (coreOf s b c) = true → corePresent s b c = true →
    issueStopped s b = false → ownPad b c (xOf (coreOf s b c) rs1) 32 = some ph → xOf (coreOf s b c) rs1 % 32 = 0 → xOf (coreOf s b c) rs2 < 4 →
    rdPhys s.start ph 32 = .ok bytes → (engineOf s b (xOf (coreOf s b c) rs2)).errstop = false →
    8 ≤ (engineOf s b (xOf (coreOf s b c) rs2)).queue.length →
    exec (.meIssue b c rd rs1 rs2) s = .next (perform s (modCore b c fun k => { k with wait := .meFull (xOf (coreOf s b c) rs2) }))) ∧
  (∀ (b e : Nat) (c : MeCmd) (rest : List MeCmd) (s : State), (engineOf s b e).queue = c :: rest → c.ran = true → cPost c.bits = false →
    exec (.meCommandDone b e) s = .next (perform s fun u =>
      wh (decide (c.issuer < 32)) (modCore b c.issuer fun k => { k with meOut := k.meOut - 1 })
        (wh rest.isEmpty (chargeMe (ctxOfBlock s b))
          (modEngine b e (fun g => { g with queue := rest, done := (g.done + 1) % 2 ^ 32, busy := false }) u)))) ∧
  (∀ (b e : Nat) (c : MeCmd) (rest : List MeCmd) (s : State), (engineOf s b e).queue = c :: rest → (cmaOf s b).hold = false →
    (pregOf s (b / 12)).held = false →
    exec (.meBoundExpiry b e) s = .next (perform s fun u => countFault ⟨2, b * 4 + e⟩ false Err.meBound (meAbandon b e Err.meBound u))) ∧
  (∀ (b e : Nat) (s : State), (engineOf s b e).queue = [] →
    exec (.meClockGate b e) s = .next (perform s (modEngine b e fun g => { g with gated := true }))) ∧
  (∀ (id line : Nat) (d : Delivery) (s : State), (s.cu.deliv.find? fun d => d.id = id) = some d → line ∈ d.lines →
    exec (.reduceAck id line 0) s = .next (perform s fun u => settleDeliv id (modDeliv id (fun x => { x with lines := x.lines.erase line }) u))) ∧
  (∀ (id line : Nat) (d : Delivery) (s : State), (s.cu.deliv.find? fun d => d.id = id) = some d → line ∈ d.lines → line ∉ d.retried →
    exec (.reduceAck id line Err.staleEpoch) s = .next (perform s fun u =>
      sendLine true line id (modDeliv id (fun x => { x with retried := line :: x.retried, lines := x.lines.erase line }) u))) ∧
  (∀ (id : Nat) (s : State), (∀ d ∈ s.cu.deliv, d.id = id → d.lines ≠ []) → settleDeliv id s = s)

/-- O11: DMA.ISSUE queues a request; copies, fills, conversions and window requests move a chunk; a chunk's end advances or ends the request. -/
def Obligations.DmaRequestsMoveData : Prop :=
  (∀ (b c rd rs1 ph l pos ctx u : Nat) (bytes cb : List Byte) (sp : DmaSpace × DmaSpace × DmaSpace × DmaSpace) (s : State), executes b c s →
    (coreOf s b c).dmaOut < 8 → ownPad b c (xOf (coreOf s b c) rs1) 64 = some ph → launchOf s b = some (l, pos, ctx) →
    xOf (coreOf s b c) rs1 % 64 = 0 → rdPhys s.start ph 64 = .ok bytes →
    rdPhys s.start (blockBase b + 0x400000 + c * 0x10000 + qConv (unle bytes) / 32 * 32) (if qKind (unle bytes) = 2 then 32 else 0) = .ok cb →
    reqReserved (unle bytes) = false → reqOk s b c (unle bytes) (unle cb) = true →
    (qKind (unle bytes) = 2 → cvCheck (unle cb) (qSrc (unle bytes)) (qLen (unle bytes)) (qDst (unle bytes)) = 0) →
    reqSpaces (draw s.start).2 b c (walkAs (draw s.start).2 b (draw s.start).1 ctx) (unle bytes) (unle cb) = .ok sp → overExtents sp = false →
    reqUnit s b (qTarget (unle bytes)) = some u →
    exec (.dmaIssue b c rd rs1) s = .next (perform s fun v =>
      modCore b c (fun k => { retireX rd 0 k with dmaOut := k.dmaOut + 1 }) (queueReq b c (unle bytes) (unle cb) u l ctx sp
        (each (reqNames (draw v).2 b c (unle bytes) (unle cb))
          (fun r => noteWalks b (coreOf s b c).tag (draw v).1 ctx r.1 r.2.1 r.2.2) (draw v).2)))) ∧
  (∀ (u : Nat) (d : Dma) (bs : List Byte) (s w : State), startsChunk u 1 d s →
    fetchHost d.lode d.src d.pos (min 4096 (d.len - d.pos)) (.dma u d.serial d.pos (min 4096 (d.len - d.pos))) (chunkStart u d s.start) = none →
    rdSpace (chunkStart u d s.start) d.lode d.src d.pos (min 4096 (d.len - d.pos)) = .ok bs →
    wrSpace d.lode d.cls d.dst d.pos bs (touchSpace d.lode d.cls d.src d.pos (min 4096 (d.len - d.pos)) (chunkStart u d s.start)) = .ok w →
    exec (.dmaCopy u) s = .next (perform s fun _ => chunkKept u d
      (modReq u d (fun x => { x with chunk := bs.length, chunkD := bs.length, waitIds := [] })
        (chargeSpace d.ctx d.dst bs.length (chargeSpace d.ctx d.src bs.length w))))) ∧
  (∀ (u : Nat) (d : Dma) (s w : State), startsChunk u 1 d s →
    fetchHost d.lode d.src d.pos (min 4096 (d.len - d.pos)) (.dma u d.serial d.pos (min 4096 (d.len - d.pos))) (chunkStart u d s.start) = some w →
    exec (.dmaCopy u) s = .next (perform s fun _ => chunkKept u d (modReq u d (fun x => { x with waitIds := [(chunkStart u d s.start).hp.readNext] }) w))) ∧
  (∀ (u : Nat) (d : Dma) (s w : State), startsChunk u 3 d s →
    wrSpace d.lode d.cls d.dst d.pos ((List.range (min 4096 (d.len - d.pos))).map fun i => (le 8 d.fill).getD (i % 8) 0)
      (chunkStart u d s.start) = .ok w →
    exec (.dmaFill u) s = .next (perform s fun _ => chunkKept u d
      (modReq u d (fun x => { x with chunk := min 4096 (d.len - d.pos), chunkD := min 4096 (d.len - d.pos) })
        (chargeSpace d.ctx d.dst (min 4096 (d.len - d.pos)) w)))) ∧
  (∀ (u : Nat) (d : Dma) (s w : State), startsChunk u 2 d s → doConvert u d (chunkStart u d s.start) = .ok w →
    exec (.dmaConvert u) s = .next (perform s fun _ => chunkKept u d w)) ∧
  (∀ (u : Nat) (d : Dma) (bs : List Byte) (s : State), startsChunk u 4 d s → d.kind = 4 →
    (d.pos = 0 → winRequestErr s d d.dstVa = 0) →
    rdSpace (chunkStart u d s.start) d.lode d.src d.pos (min 4096 (d.len - d.pos)) = .ok bs →
    exec (.windowPut u) s = .next (perform s fun v => chunkKept u d (each (winPieces 6 (d.dstVa + d.pos) (min 4096 (d.len - d.pos)))
      (sendPiece u d (d.dstVa + d.pos) bs)
      (modReq u d (fun x => { x with chunk := min 4096 (d.len - d.pos), chunkD := min 4096 (d.len - d.pos) })
        (chargeDrift d.ctx (min 4096 (d.len - d.pos)) (chargeSpace d.ctx d.src (min 4096 (d.len - d.pos))
          (touchSpace d.lode d.cls d.src d.pos (min 4096 (d.len - d.pos)) (chunkStart u d v)))))))) ∧
  (∀ (u : Nat) (d : Dma) (s : State), startsChunk u 5 d s → d.kind = 5 →
    (d.pos = 0 → winRequestErr s d d.srcVa = 0) →
    exec (.windowGet u) s = .next (perform s fun v => chunkKept u d (each (winPieces 6 (d.srcVa + d.pos) (min 4096 (d.len - d.pos)))
      (sendPiece u d (d.srcVa + d.pos) [])
      (modReq u d (fun x => { x with chunk := min 4096 (d.len - d.pos), chunkD := min 4096 (d.len - d.pos) })
        (chargeDrift d.ctx (min 4096 (d.len - d.pos)) (chargeSpace d.ctx d.dst (min 4096 (d.len - d.pos)) (chunkStart u d v))))))) ∧
  (∀ (u : Nat) (d : Dma) (s : State), ((dmaOf s u).find? fun d => d.chunk ≠ 0) = some d → d.kind ≤ 3 → d.pos + d.chunk ≠ d.len →
    d.stale = false → d.cancel = 0 →
    exec (.dmaChunkDone u true) s = .next (perform s (modReq u d fun _ => chunkPassed d))) ∧
  (∀ (u : Nat) (d : Dma) (s : State), ((dmaOf s u).find? fun d => d.chunk ≠ 0) = some d → d.kind ≤ 3 → d.pos + d.chunk = d.len →
    exec (.dmaChunkDone u true) s = .next (perform s fun v =>
      endDma (chunkPassed d) (dropReq u (chunkPassed d) (modReq u d (fun _ => chunkPassed d) v))))

/-- O12: Semaphore, barrier, fence, window and conversion instructions of a core. -/
def Obligations.CoreSynchronisation : Prop :=
  (∀ (b c rd rs1 rs2 scope n : Nat) (s : State), executes b c s → xOf (coreOf s b c) rs1 % 2 ^ 17 = n → holdsSem s (blockOf s b).lode n = true →
    exec (.semWait b c rd rs1 rs2 scope) s = .next (perform s fun u =>
      modCore b c (fun k => { k with wait := .sem n (countOf (xOf (coreOf s b c) rs2)) rd scope })
        (modSem n (fun m => { m with
          inflight := m.inflight ++ [(epochTag s (pageOf s (n / 256)).lode, .wait b c (countOf (xOf (coreOf s b c) rs2)) rd)] }) u))) ∧
  (∀ (b c rs1 rs2 scope n : Nat) (s : State), executes b c s → xOf (coreOf s b c) rs1 % 2 ^ 17 = n → holdsSem s (blockOf s b).lode n = true →
    (semOf s n).poisoned = false →
    exec (.semPost b c rs1 rs2 scope) s = .next (perform s fun u => modCore b c (retire 4)
      (modSem n (fun m => { m with
        inflight := m.inflight ++ [(epochTag s (pageOf s (n / 256)).lode, .post (countOf (xOf (coreOf s b c) rs2)))] }) u))) ∧
  (∀ (b c rd rs1 rs2 scope n : Nat) (s : State), executes b c s → xOf (coreOf s b c) rs1 % 2 ^ 17 = n → holdsSem s (blockOf s b).lode n = true →
    exec (.semTry b c rd rs1 rs2 scope) s = .next (perform s fun u =>
      modCore b c (fun k => { k with wait := .sem n (countOf (xOf (coreOf s b c) rs2)) rd scope })
        (modSem n (fun m => { m with
          inflight := m.inflight ++ [(epochTag s (pageOf s (n / 256)).lode, .try b c (countOf (xOf (coreOf s b c) rs2)) rd)] }) u))) ∧
  (∀ (b c rs1 g : Nat) (s : State), executes b c s → xOf (coreOf s b c) rs1 % 2 ^ 12 = g → holdsBar s (blockOf s b).lode g = true →
    exec (.barArrive b c rs1) s = .next (perform s fun u =>
      modCore b c (fun k => { k with wait := .barrier g })
        (modBar g (fun m => { m with inflight := m.inflight ++ [(epochTag s (blockOf s b).lode, b, c)] }) u))) ∧
  (∀ (b c f : Nat) (s : State), executes b c s → f < 64 → (f.testBit 2 = true → (coreOf s b c).dmaOut = 0) →
    (f.testBit 3 = true → (coreOf s b c).meOut = 0) →
    exec (.fenceS b c f) s = .next (perform s (modCore b c (retire 4)))) ∧
  (∀ (b c f : Nat) (s : State), executes b c s → f < 64 → f.testBit 2 = true → (coreOf s b c).dmaOut ≠ 0 →
    exec (.fenceS b c f) s = .next (perform s (modCore b c fun k => { k with wait := .fence true (f.testBit 3) }))) ∧
  (∀ (b c rd rs1 rs2 k : Nat) (s : State), executes b c s → xOf (coreOf s b c) rs2 < 2 ^ 10 → fld (xOf (coreOf s b c) rs2) 8 2 ≠ 3 →
    (xOf (coreOf s b c) rs2).testBit 7 = false → destBlock s b (xOf (coreOf s b c) rs2 % 128) = some k →
    exec (.spwSel b c rd rs1 rs2) s = .next (perform s (modCore b c fun r => retireX rd 0
      { r with wins := tset none r.wins (xOf (coreOf s b c) rs1 % 4) (some { kind := fld (xOf (coreOf s b c) rs2) 8 2, block := k }) }))) ∧
  (∀ (b c rd rs1 rs2 : Nat) (s : State), executes b c s → xOf (coreOf s b c) rs2 < 2 ^ 11 → (xOf (coreOf s b c) rs2).testBit 10 = true →
    exec (.spwSel b c rd rs1 rs2) s = .next (perform s (modCore b c fun r => retireX rd 0
      { r with wins := tset none r.wins (xOf (coreOf s b c) rs1 % 4) none }))) ∧
  (∀ (b c vd rs1 vs2 : Nat) (s : State), executes b c s → (vcvtConv (xOf (coreOf s b c) rs1)).check = 0 →
    vcvtRegsOk (coreOf s b c) (xOf (coreOf s b c) rs1) vd vs2 = true →
    exec (.vcvt b c vd rs1 vs2) s = .next (perform s (modCore b c fun k => retire 4 (vcvtCore (xOf (coreOf s b c) rs1) vd vs2 k))))

/-- O13: Standard core instructions, register writes of the device CSRs, and the supervisor services. -/
def Obligations.CoreInstructionsExecuted : Prop :=
  (∀ (b c rd rs1 imm : Nat) (s : State), executes b c s → rd < 32 → rs1 < 32 → imm < 4096 →
    exec (.coreInstruction b c (imm * 2 ^ 20 + rs1 * 2 ^ 15 + rd * 2 ^ 7 + 0x13)) s = .next (perform s (modCore b c fun k => retire 4
      (setX rd ((xOf k rs1 + (if imm < 2048 then imm else 2 ^ 64 - 4096 + imm)) % 2 ^ 64) k)))) ∧
  (∀ (b c w : Nat) (v : Word) (s : State), executes b c s → w < 2 ^ 32 → w % 4 = 3 →
    wOp w ∈ [0x37, 0x17, 0x13, 0x1B, 0x33, 0x3B] →
    intResult w (coreOf s b c).pc (BitVec.ofNat 64 (xOf (coreOf s b c) (wRs1 w))) (BitVec.ofNat 64 (xOf (coreOf s b c) (wRs2 w))) 4 = some (some v, none) →
    exec (.coreInstruction b c w) s = .next (perform s (modCore b c fun k => retire 4 (setX (wRd w) v.toNat k)))) ∧
  (∀ (b c pred succ : Nat) (s : State), executes b c s → exec (.coreFence b c pred succ) s = .next (perform s (modCore b c (retire 4)))) ∧
  (∀ (b c v : Nat) (s : State), executes b c s → (ctxOf s (ctxOfBlock s b)).mask.testBit (v % 64) = true →
    exec (.gcClassWrite b c v) s = .next (perform s fun u => modCore b c (retire 4) (modCore b c (fun k => { k with tag := v % 64 }) u))) ∧
  (∀ (b c v : Nat) (s : State), executes b c s → v < 65536 → v ≠ 0 →
    exec (.gcDeadlineWrite b c v) s = .next (perform s fun u =>
      modCore b c (retire 4) (modCore b c (fun k => { k with deadline := some (nowTick s + min v 63487) }) u))) ∧
  (∀ (b c : Nat) (s : State), executes b c s →
    exec (.gcDeadlineWrite b c 0) s = .next (perform s fun u => modCore b c (retire 4) (modCore b c (fun k => { k with deadline := none }) u))) ∧
  (∀ (b c v : Nat) (s : State), executes b c s →
    exec (.gcSrSeedWrite b c v) s = .next (perform s fun u => modCore b c (retire 4) (modCore b c (fun k => { k with gen := v % 2 ^ 64 }) u))) ∧
  (∀ (b c : Nat) (s : State), executes b c s → xOf (coreOf s b c) 17 = 0 →
    exec (.svExit b c) s = .next (perform s fun u => chargeGc (ctxOfBlock u b) (modCore b c (fun k =>
      { k with run := 2, status := xOf (coreOf s b c) 10 % 2 ^ 32, wait := .none, resv := none }) u))) ∧
  (∀ (b c : Nat) (s : State), executes b c s → xOf (coreOf s b c) 17 = 1 →
    exec (.svAbort b c) s = .next (perform s (endLaunch b Err.kernelError [xOf (coreOf s b c) 10 % 2 ^ 32, 0, 0, b + c * 256]))) ∧
  (∀ (b c : Nat) (s : State), executes b c s → xOf (coreOf s b c) 17 = 2 → (ctxOf s (ctxOfBlock s b)).profile = false →
    exec (.svTrace b c) s = .next (perform s (modCore b c fun k => { k with pc := k.pc + 4, resv := none }))) ∧
  (∀ (b c : Nat) (s : State), executes b c s → xOf (coreOf s b c) 17 = 2 → (ctxOf s (ctxOfBlock s b)).profile = true →
    (lodeOf s (blockOf s b).lode).conf = false →
    exec (.svTrace b c) s = .next (perform s fun u => modCore b c (fun k => { k with pc := k.pc + 4, resv := none })
      (modCtx (ctxOfBlock u b) (fun d => { d with trace := d.trace ++
        [[xOf (coreOf s b c) 10, xOf (coreOf s b c) 11, xOf (coreOf s b c) 12, xOf (coreOf s b c) 13]] }) u)))

/-- O14: Loads, stores and atomics of a core wherever their address leads. -/
def Obligations.CoreMemoryAccesses : Prop :=
  (∀ (b c w va : Nat) (ps : List Part) (bs : List Byte) (s u : State), executes b c s → w < 2 ^ 32 → w % 4 = 3 → wOp w = 0x03 → wF3 w ≠ 7 →
    effAddr (coreOf s b c) (wRs1 w) (immI w) = va → accessAt b c 0 va (2 ^ (wF3 w % 4)) ps s.start →
    rdParts b c ps (reachedAt b c va (2 ^ (wF3 w % 4)) ps s.start) = .ok (bs, u) →
    exec (.coreLoadStore b c w) s = .next (perform s fun _ => modCore b c (fun k => retire 4
      (setX (wRd w) (if wF3 w < 4 then wrap64 (sgn (8 * 2 ^ (wF3 w % 4)) (unle bs)) else unle bs) k))
        (touchParts b (coreOf u b c).tag (ctxOfBlock u b) false false ps u))) ∧
  (∀ (b c w va : Nat) (ps : List Part) (s u t : State), executes b c s → w < 2 ^ 32 → w % 4 = 3 → wOp w = 0x23 → wF3 w < 4 →
    effAddr (coreOf s b c) (wRs1 w) (immS w) = va → accessAt b c 1 va (2 ^ wF3 w) ps s.start → reachedAt b c va (2 ^ wF3 w) ps s.start = u →
    wrParts b c (coreOf u b c).tag ps (le (2 ^ wF3 w) (xOf (coreOf s b c) (wRs2 w))) u = .ok t →
    exec (.coreLoadStore b c w) s = .next (perform s fun _ => modCore b c (retire 4) (touchParts b (coreOf u b c).tag (ctxOfBlock u b) true false ps t))) ∧
  (∀ (b c w va v : Nat) (ps : List Part) (bs : List Byte) (s u t : State), executes b c s → isAtomic w = true → isLr w = false → isSc w = false →
    xOf (coreOf s b c) (wRs1 w) = va → va % atomBytes w = 0 → accessAt b c 2 va (atomBytes w) ps s.start → memOf ps ≠ [] →
    (∀ p ∈ memOf ps, p.1 = false → inOperandStore p.2.1 = false) →
    rdParts b c ps (reachedAt b c va (atomBytes w) ps s.start) = .ok (bs, u) →
    amoValue (8 * atomBytes w) (wRs3 w) (unle bs) (xOf (coreOf u b c) (wRs2 w) % 2 ^ (8 * atomBytes w)) = some v →
    wrParts b c (coreOf u b c).tag ps (le (atomBytes w) v) u = .ok t →
    exec (.coreAmo b c w) s = .next (perform s fun _ => modCore b c (retireX (wRd w) (atomOut (atomBytes w) (unle bs)))
      (touchParts b (coreOf u b c).tag (ctxOfBlock u b) true true ps t))) ∧
  (∀ (b c w va : Nat) (ps : List Part) (bs : List Byte) (s u : State), executes b c s → isLr w = true → wRs2 w = 0 →
    xOf (coreOf s b c) (wRs1 w) = va → va % atomBytes w = 0 → accessAt b c 2 va (atomBytes w) ps s.start → memOf ps ≠ [] →
    (∀ p ∈ memOf ps, p.1 = false → inOperandStore p.2.1 = false) →
    rdParts b c ps (reachedAt b c va (atomBytes w) ps s.start) = .ok (bs, u) →
    exec (.coreLr b c w) s = .next (perform s fun _ => modCore b c (fun k =>
        { retireX (wRd w) (atomOut (atomBytes w) (unle bs)) k with resv := physLine u (blockOf s b).lode ps })
      (touchParts b (coreOf u b c).tag (ctxOfBlock u b) false true ps u))) ∧
  (∀ (b c w va : Nat) (ps : List Part) (s u t : State), executes b c s → isSc w = true →
    xOf (coreOf s b c) (wRs1 w) = va → va % atomBytes w = 0 → accessAt b c 2 va (atomBytes w) ps s.start → memOf ps ≠ [] →
    (∀ p ∈ memOf ps, p.1 = false → inOperandStore p.2.1 = false) → reachedAt b c va (atomBytes w) ps s.start = u →
    (coreOf u b c).resv ≠ none → (coreOf u b c).resv = physLine u (blockOf s b).lode ps →
    wrParts b c (coreOf u b c).tag ps (le (atomBytes w) (xOf (coreOf u b c) (wRs2 w))) u = .ok t →
    exec (.coreSc b c w) s = .next (perform s fun _ => modCore b c (fun k => { retireX (wRd w) 0 k with resv := none })
      (touchParts b (coreOf u b c).tag (ctxOfBlock u b) true true ps t))) ∧
  (∀ (b c w va : Nat) (ps : List Part) (s u : State), executes b c s → isSc w = true →
    xOf (coreOf s b c) (wRs1 w) = va → va % atomBytes w = 0 → accessAt b c 2 va (atomBytes w) ps s.start → memOf ps ≠ [] →
    (∀ p ∈ memOf ps, p.1 = false → inOperandStore p.2.1 = false) → reachedAt b c va (atomBytes w) ps s.start = u →
    ((coreOf u b c).resv = none ∨ (coreOf u b c).resv ≠ physLine u (blockOf s b).lode ps) →
    exec (.coreSc b c w) s = .next (perform s fun _ => modCore b c (fun k => { retireX (wRd w) 1 k with resv := none }) u)) ∧
  (∀ (b c access va n a : Nat) (s : State), placeOf s b c va n = .phys a → va % 65536 + n ≤ 65536 →
    partsOf s b c access va n = .ok [.mem false a n]) ∧
  (∀ (b c a n : Nat) (bs : List Byte) (s : State), rdPhys s a n = .ok bs → areaOf a bs.length ≠ some b →
    rdParts b c [.mem false a n] s = .ok (bs, s)) ∧
  (∀ (b c cls a : Nat) (bs : List Byte) (s t : State), areaOf a bs.length ≠ some b → wrPhys a bs s = .ok t →
    wrParts b c cls [.mem false a bs.length] bs s = .ok t)

/-- O15: A launch starts and completes on its blocks; walks end; exceptions end the launch; a row's spare enters service. -/
def Obligations.LaunchesAndExceptions : Prop :=
  (∀ (b l pos ctx : Nat) (r : Rec) (s : State), nextLaunch s b = none → launchOf s b = some (l, pos, ctx) →
    ((blockOf s b).launch.bind fun p => recOf s p.1 p.2) = some r → launchWaits s b = true → (blockOf s b).resetting = false →
    remapWaits s b = false → tagLive s l (blockOf s b).etag = true →
    exec (.launchStart b) s = .next (perform s (launchBlock b ctx r.consts))) ∧
  (∀ (l pos : Nat) (s : State), launchBlocks s l pos ≠ [] → (launchBlocks s l pos).all (blockDone s) = true →
    firstStatus s (launchBlocks s l pos) = none →
    exec (.launchComplete l pos) s = .next (perform s fun u =>
      finishRec l pos 0 (each (launchBlocks s l pos) leaveBlock u))) ∧
  (∀ (b c va access : Nat) (e : TlbEntry) (s : State), (coreOf s b c).wait = .walk va access →
    ((walkAs s.start b (draw s.start).1 (ctxOfBlock s b) va).bind fun e => (useLeaf s.start e va access 1).map fun _ => e) = .ok e →
    exec (.tlbWalkDone b c) s = .next (perform s fun u => modCore b c (fun k => { k with wait := .none, tlb := (e :: k.tlb).take 64 })
      (noteWalk b (coreOf s b c).tag (draw u).1 (ctxOfBlock s b) va (draw u).2))) ∧
  (∀ (b c va access : Nat) (st : Stop) (s : State), (coreOf s b c).wait = .walk va access →
    ((walkAs s.start b (draw s.start).1 (ctxOfBlock s b) va).bind fun e => (useLeaf s.start e va access 1).map fun _ => e) = .error st →
    exec (.translationFault b c) s = .next (perform s fun u => coreFault b c false st access va
      (noteWalk b (coreOf s b c).tag (draw u).1 (ctxOfBlock s b) va (draw u).2))) ∧
  (∀ (b c cause tval : Nat) (s : State), executes b c s → cause ≠ 12 → cause ≠ 13 → cause ≠ 15 →
    exec (.coreException b c cause tval) s = .next (perform s fun u => endLaunch b Err.gcFault
      [cause, (coreOf s b c).pc.toNat, tval % 2 ^ 64, b + c * 256] (modCore b c (fun k => { k with cause := cause, resv := none }) u))) ∧
  (∀ (b c va : Nat) (st : Stop) (s : State), executes b c s →
    ((walk s.start (ctxOfBlock s b) va).bind fun e => useLeaf s.start e va 0 1) = .error st →
    exec (.coreException b c 13 va) s = .next (perform s (coreFault b c false st 0 va))) ∧
  (∀ (b row : Nat) (bad : List Nat) (s : State), (rowOf s b row).pendingRemap = true → (blockOf s b).launch = none →
    ∃ t, exec (.rowSpareRemap b row bad) s = .next t ∧ rowOf t b row = { rowOf s b row with pendingRemap := false, spent := true } ∧
      (∀ k, k ≠ b * 4 + row → tget {} t.cu.rows k = tget {} s.cu.rows k) ∧
      t = { s with cu := { s.cu with rows := t.cu.rows, cores := t.cu.cores }
                   mem := { s.mem with bytes := t.mem.bytes, poison := t.mem.poison }
                   evr := t.evr, hp := t.hp, out := t.out, edits := [] })

/-- O16: Memory requests, arbiters, corrected and uncorrectable errors, patrol and evacuation. -/
def Obligations.SharedMemoryServed : Prop :=
  (∀ (q r : MemReq) (s u v : State) (p : Nat) (own : Bool), routed q s.start = (r, u) → behind u r = false → regionClosed u r = false →
    bucketHas u r.master r.lode r.len = true → (lodeOf u r.lode).state ≠ 0 → tagLive u r.lode r.etag = true → waitsMarker u r = false →
    pcOfReq u r = some p → freeSlot u (arbOf u p) (effClass u r) = some own →
    countBytes r.master (effClass u r) r.len true (bucketTake r.master r.lode r.len u) = v →
    exec (.memoryRequest q) s = .next (perform s fun _ => enterQueue p own r true (serveReq { r with cls := effClass u r }
      (sendWay r.master r.id .request (requestWay v r.master p) v)))) ∧
  (∀ (n : Nat) (r : ArbReq) (a : Arb) (s : State), pickNext s (arbOf s n) (tier3On s n) = some (r, a) →
    exec (.arbiterServe n) s = .next (perform s fun u => letIn n (emit (.served n r.id) (modArb n (fun _ => a) u)))) ∧
  (∀ (p : Nat) (s : State), inReset s ⟨5, p⟩ = false → (fcOf s ⟨5, p⟩).retired = false →
    (cesNow s (pcOf s p).ces).length < (regionOf s (p / 96)).ceThresh →
    exec (.correctedError ⟨5, p⟩) s = .next (perform s (modPc p fun c =>
      { c with ces := cesNow s (pcOf s p).ces, ceTotal := min 0xFFFF (c.ceTotal + 1) }))) ∧
  (∀ (p addr : Nat) (req : Option MemReq) (s : State), (pcOf s p).failed = false → (pcOf s p).lastUe = none →
    exec (.uncorrectableError (.hbm p addr req)) s = .next (perform s fun u => afterOps (countFault ⟨5, p⟩ false
      ((p * 0x80000000 + addr % 0x80000000) / 64 * 64) (modPc p (fun c => { c with lastUe := some ((p * 0x80000000 + addr % 0x80000000) / 64) })
        (failHit req (memErr (p / 96) 1 (p * 0x80000000 + addr % 0x80000000) (setPoison ((p * 0x80000000 + addr % 0x80000000) / 64) true u))))))) ∧
  (∀ (r p line : Nat) (s : State), (patrolled s r).contains p = true → ((patrolled s r).head? = some p → line ≠ 0) → (regionOf s r).patrolNow ≠ 0 →
    exec (.patrolScrubLine r p line false) s = .next (perform s (modRegion r fun g =>
      { g with patrolAt := p % 96 * 2 ^ 25 + line % 2 ^ 25 }))) ∧
  (∀ (r p : Nat) (s : State), (patrolled s r).head? = some p → r < 4 → (regionOf s r).patrol = 0 →
    exec (.patrolScrubLine r p 0 false) s = .next (perform s (modRegion r fun g => { g with patrolNow := 0 }))) ∧
  (∀ (p : Nat) (s : State), exec (.pseudoChannelFailure p) s = .next (perform s fun u =>
    afterOps (classify ⟨5, p⟩ false (faultsNow s ⟨5, p⟩) u))) ∧
  (∀ (n : Nat) (s : State), ((setOf s n).state = 5 ∨ (setOf s n).state = 6) → (setOf s n).lode ≠ 0x7F → evacOf s n = none →
    ∃ k, exec (.evacuationStart n) s = .next (perform s fun u => afterOps (evacNext k (addOp {
        num := 0, kind := .evacuate, donor := (setOf s n).lode, sets := [n] } (endOpsOnSet n Err.unitRetired u)))) ∧
      k = opNumber (endOpsOnSet n Err.unitRetired s.start)) ∧
  (∀ (n : Nat) (o : Op) (s : State), evacOf s n = some o → o.step = 5 → freeElsewhere s o.donor n ≠ [] →
    exec (.evacuationResume n) s = .next (perform s fun u => afterOps (evacNext o.num u)))

/-- O17: The translation verbs set the table range, write entries, invalidate, and run the fault ring and dirty log. -/
def Obligations.TranslationVerbs : Prop :=
  (∀ (via : Via) (gid dev first count l : Nat) (s : State), requested via 0x0200 s → findLive s via gid = .ok l → dev = s.dr.devid →
    first + count ≤ 8192 → first < 8192 → ctxsOf s l = [] → (s.xl.ctxs.any fun t => t.2.valid && decide (t.2.lode = l)) = false →
    exec (.xlTableRangeSet via gid dev first count) s = .next (perform s fun u => answer via 0 []
      (modXlLode l (fun x => { x with tblBase := first, tblCnt := count }) u))) ∧
  (∀ (via : Via) (gid dev table level first l : Nat) (es : List Nat) (s t : State), requested via 0x0201 s → findLive s via gid = .ok l →
    dev = s.dr.devid → es ≠ [] → es.length ≤ 64 → level ≤ 2 → first + es.length ≤ 8192 → table % 65536 = 0 →
    insideTables s l table 65536 = true → es.all (entryOk s l level) = true →
    storeLode l (table + first * 8) 0 (es.flatMap (le 8)) s.start = .ok t →
    exec (.xlMirrorWrite via gid dev table level first es) s = .next (perform s fun _ => answer via 0 [] t)) ∧
  (∀ (via : Via) (gid : Nat) (ctx : Option Nat) (dva len dev l : Nat) (f : VFence) (s : State), requested via 0x0202 s →
    findLive s via gid = .ok l → (dev = 0xFFFF ∨ dev = s.dr.devid) → (∀ c, ctx = some c → (xlCtxOf s c).valid = true ∧ (xlCtxOf s c).lode = l) →
    len ≠ 0 → dva + len ≤ 2 ^ 55 → fenceFits s l f = true → s.xl.invals.length < 16 → s.xl.invHeld = [] →
    exec (.xlInvalidate via gid ctx dva len dev f) s = .next (perform s (acceptInval {
      num := 0, lode := l, ctx := ctx, dva := dva, len := len, dev := dev, fence := some f, via := some via }))) ∧
  (∀ (num : Nat) (i : Inval) (f : VFence) (s : State), (s.xl.invals.find? fun j => j.num = num) = some i → i.away = [] →
    usesLeft s i.lode = false → (s.xl.invals.find? fun j => j.lode = i.lode) = some i → i.fence = some f → s.xl.invHeld = [] →
    exec (.invalidationComplete num) s = .next (perform s fun u => signalFence i.lode (some f)
      (modXl (fun x => { x with invals := x.invals.filter fun j => j.num ≠ num }) u))) ∧
  (∀ (via : Via) (gid addr l : Nat) (s : State), requested via 0x0203 s → findLive s via gid = .ok l → (xlLodeOf s l).fqReady = false →
    (lodeOf s l).pasid ≠ 0 → addr % 4096 = 0 →
    exec (.xlFqSetup via gid addr) s = .next (perform s fun u => answer via 0 [] (modXlLode l (fun x =>
      { x with fqReady := true, fqAddr := addr, fqProd := 0, fqCons := 0, fqOver := false, fqPeriod := false }) u))) ∧
  (∀ (via : Via) (gid dev ring bitmap l : Nat) (s : State), requested via 0x0204 s → findLive s via gid = .ok l → dev = s.dr.devid →
    (xlLodeOf s l).dlOn = false → insideTables s l bitmap (2 ^ 22) = true →
    exec (.xlDirtyStart via gid dev ring bitmap) s = .next (perform s fun u => answer via 0 [] (modXlLode l (fun x =>
      { x with dlOn := true, dlAddr := ring, dlMap := bitmap, dlProd := 0, dlCons := 0, coarse := false }) (zeroLode l bitmap (2 ^ 22) u)))) ∧
  (∀ (via : Via) (gid dev l : Nat) (s : State), requested via 0x0205 s → findLive s via gid = .ok l → dev = s.dr.devid →
    (xlLodeOf s l).dlOn = true →
    exec (.xlDirtySync via gid dev false) s = .next (perform s fun u => answer via 0 (enc [(4, (xlLodeOf s l).dlProd)]) (raiseLode l 2 u))) ∧
  (∀ (via : Via) (gid dev l : Nat) (s : State), requested via 0x0206 s → findLive s via gid = .ok l → dev = s.dr.devid →
    (xlLodeOf s l).dlOn = true →
    exec (.xlDirtyStop via gid dev) s = .next (perform s fun u => answer via 0 [] (raiseLode l 2
      (modXlLode l (fun x => { x with dlOn := false }) u))))

/-- O18: The fault ring: a held fault is written, a stall overflows, and the driver's reply retries or fails the access. -/
def Obligations.TranslationFaultsAnswered : Prop :=
  (∀ (l : Nat) (f : FaultRec) (s : State), firstHeld (xlLodeOf s l) = some f → (xlLodeOf s l).fqReady = true → fqFull (xlLodeOf s l) = false →
    exec (.faultRecordWrite l true) s = .next (perform s fun u =>
      noteStall l (wh (decide ((xlLodeOf s l).fqProd = (xlLodeOf s l).fqCons)) (raiseLode l 1)
        (modXlLode l (fun x => { x with
          fqProd := (x.fqProd + 1) % 2 ^ 32
          faults := if resumable f.reason then x.faults.map fun g => if g.fseq = f.fseq then { g with written := true } else g
            else x.faults.filter fun g => g.fseq ≠ f.fseq })
        (modQueue l (fun q => { q with fqCount := (queueOf s l).fqCount + 1 })
        (sealWrite l 2 (queueOf s l).fqCount ((xlLodeOf s l).fqAddr + (xlLodeOf s l).fqProd % 1024 * 32) 1024 (faultBytes s f) u)))))) ∧
  (∀ (l : Nat) (f : FaultRec) (s : State), firstHeld (xlLodeOf s l) = some f → (xlLodeOf s l).fqReady = true → fqFull (xlLodeOf s l) = false →
    exec (.faultRecordWrite l false) s = .next (perform s fun u =>
      wh (resumable f.reason) (answerFault l f false) (event 0x202 3 10 l Err.xlFault f.fseq (some l) (dropFault l f.fseq u)))) ∧
  (∀ (l : Nat) (f : FaultRec) (s : State), ((xlLodeOf s l).faults.find? fun f => !f.written && agentStalls s l f) = some f →
    fqFull (xlLodeOf s l) = true →
    exec (.faultqStallTimeout l) s = .next (perform s fun u => startTeardown f.ctx 0 none (modXlLode l (fun x => { x with fqOver := true })
      (modRec l f.pos (fun r => if r.stage = 3 then r else { r with error := Err.faultqOverflow }) u)))) ∧
  (∀ (p l fseq : Nat) (f : FaultRec) (s : State), pageLive s p l = true →
    ((xlLodeOf s l).faults.find? fun f => f.written && decide (f.fseq = fseq)) = some f →
    exec (.faultRetry p l fseq) s = .next (perform s fun u => answerFault l f true (dropFault l fseq u))) ∧
  (∀ (p l fseq : Nat) (f : FaultRec) (s : State), pageLive s p l = true →
    ((xlLodeOf s l).faults.find? fun f => f.written && decide (f.fseq = fseq)) = some f →
    exec (.faultFail p l fseq) s = .next (perform s fun u => answerFault l f false (dropFault l fseq u)))

/-- O19: The deadline clock gains 25/96 tick a crystal cycle; buckets refill; the regulation group commits and its verbs set it. -/
def Obligations.DeadlineClockAndRegulation : Prop :=
  (∀ (n : Nat) (s : State), ∃ t, exec (.deadlineTick n) s = .next t ∧ t.chip.tick * 96 + t.chip.acc = s.chip.tick * 96 + s.chip.acc + 25 * n ∧
    t.chip.acc < 96 ∧ t = { s with chip := { s.chip with tick := t.chip.tick, acc := t.chip.acc }, edits := [] }) ∧
  (∀ s : State, s.noc.regGo = false → (s.noc.regState = 1 → regAgrees s = false) →
    exec .bucketRefill s = .next (perform s fun u => each s.noc.ingress (fun p => deliver (some p.1) p.2)
      (each s.noc.waiting issue (modNoc (fun n => { n with waiting := [], ingress := [] }) (refillAll u))))) ∧
  (∀ s : State, (s.noc.regGo = true ∨ (s.noc.regState = 1 ∧ regAgrees s = true)) →
    exec .bucketRefill s = .next (perform s fun u => each s.noc.ingress (fun p => deliver (some p.1) p.2)
      (each s.noc.waiting issue (modNoc (fun n => { n with waiting := [], ingress := [] }) (refillAll (regCopy u)))))) ∧
  (∀ (who : Writer) (v : Nat) (s : State), admits who 7 s → v.testBit 0 = true → s.noc.regState ≠ 1 → regAgrees s = true →
    exec (.regCommit who v) s = .next (perform s fun u => modNoc (fun n => { n with regGo := true }) (entered who u))) ∧
  (∀ (who : Writer) (v : Nat) (s : State), admits who 7 s → v.testBit 0 = true → s.noc.regState ≠ 1 → regAgrees s = false →
    exec (.regCommit who v) s = .next (perform s fun u => modNoc (fun n => { n with regState := 1 }) (entered who u))) ∧
  (∀ s : State, s.noc.regState = 1 → regAgrees s = false →
    exec .regCommitHoldExpiry s = .next (perform s (modNoc fun n => { n with regState := 3, regError := Err.regOversub }))) ∧
  (∀ (via : Via) (m mn depth : Nat) (s : State), requested via 0x0660 s → m < 161 → mn ≤ 65535 → depth ≠ 0 → depth ≤ 1023 →
    regAgrees (modMaster m (fun k => { k with min := mn, depth := depth }) s) = true →
    exec (.regMinSet via m mn depth) s = .next (perform s fun u => answer via 0 [] (modNoc (fun n => { n with regGo := true })
      (modMaster m (fun k => { k with min := mn, depth := depth }) u)))) ∧
  (∀ (via : Via) (k w : Nat) (s : State), requested via 0x0661 s → k < 64 → w ≠ 0 → w ≤ 255 →
    exec (.regWeightSet via k w) s = .next (perform s fun u => answer via 0 [] (modNoc (fun n => { n with weights := tset 0 n.weights k w }) u))) ∧
  (∀ (via : Via) (m gid rate l : Nat) (s : State), requested via 0x0662 s → 96 ≤ m → m < 160 → rate ≤ 65535 → findLive s via gid = .ok l →
    (tget 0 s.noc.buckets (lodeBucket m l) ≠ 0 ∨ rate = 0 ∨ (bucketsOf s m).length < 8) →
    lodeRates s m - tget 0 s.noc.buckets (lodeBucket m l) + rate ≤ (masterOf s m).minL →
    exec (.regLodeBucketSet via m gid rate) s = .next (perform s fun u => answer via 0 [] (modNoc (fun n => { n with
      buckets := tset 0 n.buckets (lodeBucket m l) rate
      bucketTok := tset 0 n.bucketTok (lodeBucket m l) (if rate = 0 then 0 else tget 0 n.bucketTok (lodeBucket m l)) }) u))) ∧
  (∀ (via : Via) (k : Nat) (s : State), requested via 0x0663 s → k < 64 →
    exec (.regQuery via true k) s = .next (perform s (answer via 0 (enc [(1, weightOf s k), (8, (tget (0, 0) s.noc.served k).1),
      (8, (tget (0, 0) s.noc.served k).2)]))))

/-- O20: Sync pages are bound and freed through a scrub; hubs apply posts, waits, tries and arrivals; reductions combine and apply. -/
def Obligations.SyncNetworkApplied : Prop :=
  (∀ (via : Via) (gid region first count l : Nat) (ps : List Nat) (s : State), requested via 0x0670 s → verbPages region first count = some ps →
    findLive s via gid = .ok l → (ps.any fun p => (pageOf s p).retired) = false → (ps.any fun p => (pageOf s p).bound || (pageOf s p).scrub) = false →
    exec (.syncBind via gid region first count) s = .next (perform s fun u => startScrub 1 8 (ps.headD 0) (.syncPages ps (some l) via)
      (each ps (fun p u => modPage p (fun k => { k with scrub := true }) (wipePage p u)) u))) ∧
  (∀ (via : Via) (gid region first count l : Nat) (ps : List Nat) (s : State), requested via 0x0671 s → verbPages region first count = some ps →
    findLive s via gid = .ok l → (ps.any fun p => !((pageOf s p).bound && decide ((pageOf s p).lode = l))) = false →
    exec (.syncFree via gid region first count) s = .next (perform s fun u => startScrub 1 8 (ps.headD 0) (.syncPages ps none via)
      (each ps (fun p u => modPage p (fun k => { k with bound := false, lode := 0x7F, scrub := true }) (wipePage p u)) u))) ∧
  (∀ (via : Via) (gid g n l : Nat) (s : State), requested via 0x0672 s → g < 4096 → n ≤ 65535 → findLive s via gid = .ok l → holdsBar s l g = true →
    exec (.barArrivalsSet via gid g n) s = .next (perform s fun u => answer via 0 []
      (modBar g (fun m => { m with next := n, target := if m.arrivals = 0 ∧ m.stalled.isEmpty then n else m.target }) u))) ∧
  (∀ (n k tag : Nat) (rest : List (Nat × SyncMsg)) (s : State), (semOf s n).inflight = (tag, .post k) :: rest →
    exec (.semPostApply n) s = .next (perform s fun u => applyPost n k (modSem n (fun m => { m with inflight := rest }) u))) ∧
  (∀ (n b c count rd tag : Nat) (rest : List (Nat × SyncMsg)) (s : State), (semOf s n).inflight = (tag, .wait b c count rd) :: rest → (semOf s n).poisoned = false →
    (semOf s n).waits = [] → count ≤ (semOf s n).value →
    exec (.semWaitArrive n) s = .next (perform s fun u => modCore b c (retireX rd ((semOf s n).value - count))
      (modSem n (fun m => { m with inflight := rest, value := m.value - count }) u))) ∧
  (∀ (n b c count rd tag : Nat) (rest : List (Nat × SyncMsg)) (s : State), (semOf s n).inflight = (tag, .wait b c count rd) :: rest → (semOf s n).poisoned = false →
    (semOf s n).value < count → waiters s (n / 16384) < 2048 →
    exec (.semWaitArrive n) s = .next (perform s (modSem n fun m =>
      { m with inflight := rest, waits := m.waits ++ [.wait b c count rd] }))) ∧
  (∀ (n b c count rd tag : Nat) (rest : List (Nat × SyncMsg)) (s : State), (semOf s n).inflight = (tag, .try b c count rd) :: rest → (semOf s n).poisoned = false →
    (semOf s n).value < count →
    exec (.semWaitArrive n) s = .next (perform s fun u => modCore b c (retireX rd 0) (modSem n (fun m => { m with inflight := rest }) u))) ∧
  (∀ (g b c tag : Nat) (rest : List (Nat × Nat × Nat)) (s : State), (barOf s g).inflight = (tag, b, c) :: rest → (barOf s g).poisoned = false →
    (barOf s g).target ≠ 0 → (barOf s g).target ≤ (barOf s g).arrivals + 1 →
    exec (.barArrivalApply g) s = .next (perform s fun u => each ((barOf s g).stalled ++ [(b, c)]) (fun p => modCore p.1 p.2 (retire 4))
      (modBar g (fun m => { m with arrivals := m.arrivals + 1 - (barOf s g).target, stalled := [], target := m.next })
        (modBar g (fun m => { m with inflight := rest }) u)))) ∧
  (∀ (router : Nat) (p : RedPkt) (s : State), (regionOf s (router / 12)).combEn = true → (regionOf s (router / 12)).noComb.contains router = false →
    (regionOf s (router / 12)).combHold ≠ 0 → p.alone = false → p.contribs.length < 8 → (tget [] s.noc.comb router).find? (combines p) = none →
    (tget [] s.noc.comb router).length < 64 →
    exec (.reductionPacketArrive router p) s = .next (perform s (setComb router (tget [] s.noc.comb router ++ [p])))) ∧
  (∀ (router : Nat) (p e : RedPkt) (s : State), (regionOf s (router / 12)).combEn = true → (regionOf s (router / 12)).noComb.contains router = false →
    (regionOf s (router / 12)).combHold ≠ 0 → p.alone = false → p.contribs.length < 8 → (tget [] s.noc.comb router).find? (combines p) = some e →
    (mergeRed e p).contribs.length < 8 →
    exec (.reductionPacketArrive router p) s = .next (perform s (setComb router
      ((tget [] s.noc.comb router).map fun x => if x = e then mergeRed e p else x)))) ∧
  (∀ (router : Nat) (p : RedPkt) (rest : List RedPkt) (s : State), tget [] s.noc.comb router = p :: rest →
    exec (.combineHoldExpiry router) s = .next (perform s fun u => forwardRed router p (setComb router rest u))) ∧
  (∀ (router : Nat) (p : RedPkt) (s : State), p.alone = true → exec (.reductionPacketArrive router p) s = .next (perform s (forwardRed router p))) ∧
  (∀ (p : RedPkt) (old : List Byte) (s t : State), (lodeOf s p.lode).state ≠ 0 → tagLive s p.lode p.etag = true → (blockOf s p.dblock).lode = p.lode →
    ((blockOf s p.dblock).state = 1 ∨ (blockOf s p.dblock).state = 2) → rdPhys s.start (blockBase p.dblock + p.dline * 64) p.data.length = .ok old →
    wrPhys (blockBase p.dblock + p.dline * 64) (mergeBytes p.rop p.efmt old p.data) (wakeAddr (blockBase p.dblock + p.dline * 64) s.start) = .ok t →
    exec (.reductionApply p) s = .next (perform s fun _ => each p.contribs (fun c => emit (.reduceAck c.1 c.2 0)) t))

/-- O21: Drift ports train, agree a version and a width, take flits, replay, recover and retire lanes. -/
def Obligations.DriftPortsTrainAndReplay : Prop :=
  (∀ (p locked : Nat) (s : State), (portOf s p).enable = true → imagePort s p = true → locked % 16 &&& trainable (portOf s p) ≠ trainable (portOf s p) →
    (portOf s p).state = 0 →
    exec (.drPortTrain p locked) s = .next (perform s (modPort p fun t => { t with state := 1, step := 1, lanes := 0, usable := trainable t }))) ∧
  (∀ (p locked : Nat) (s : State), (portOf s p).enable = true → imagePort s p = true → locked % 16 &&& trainable (portOf s p) = trainable (portOf s p) →
    (portOf s p).state = 0 →
    exec (.drPortTrain p locked) s = .next (perform s fun u => modPort p (fun t => { t with step := 2 })
      (modPort p (fun t => { t with state := 1, step := 1, lanes := 0, usable := trainable t }) u))) ∧
  (∀ (p ok : Nat) (s : State), training s p = true → (portOf s p).step = 1 ∨ (portOf s p).step = 2 →
    (portOf s p).usable &&& (ok % 16) ≠ 0 →
    exec (.trainingStepTimeout p ok) s = .next (perform s fun u =>
      modPort p (fun t => { t with usable := (portOf s p).usable &&& (ok % 16), step := t.step + 1 })
        (each ((lanesOf (portOf s p).usable).filter fun l => !((portOf s p).usable &&& (ok % 16)).testBit l) (laneMiss p) u))) ∧
  (∀ (p : Nat) (s : State), training s p = true → (portOf s p).step = 1 →
    exec (.trainingStepTimeout p 0) s = .next (perform s fun u => portDown p 7 Err.drLink
      (each (lanesOf (portOf s p).usable) (laneMiss p) u))) ∧
  (∀ (p lo hi dev serial peerPort lanes : Nat) (s : State), training s p = true → lo ≤ 1 → 1 ≤ hi →
    2 ≤ (lanesOf ((portOf s p).usable &&& (lanes % 16))).length →
    exec (.capabilityRecord p lo hi dev serial peerPort lanes) s = .next (perform s fun u => portRun p 1 ((portOf s p).usable &&& (lanes % 16))
      (modPort p (fun t => { t with peerDev := dev, peerPort := peerPort, peerLo := lo, peerHi := hi, peerSerial := serial }) u))) ∧
  (∀ (p lo hi dev serial peerPort lanes : Nat) (s : State), training s p = true → 1 < lo ∨ hi < 1 →
    exec (.capabilityRecord p lo hi dev serial peerPort lanes) s = .next (perform s fun u =>
      event 0x402 4 0 p 0 (1 + 1 * 2 ^ 8 + lo * 2 ^ 16 + hi * 2 ^ 24) none (portDown p 6 0
        (modPort p (fun t => { t with peerDev := dev, peerPort := peerPort, peerLo := lo, peerHi := hi, peerSerial := serial }) u)))) ∧
  (∀ (p seq acked : Nat) (corrected : List Nat) (s : State), portUp s p = true → seq = (portOf s p).rxSeq →
    exec (.flitReceive p seq true corrected acked) s = .next (perform s fun u => drain p (takenDown p (modPort p (fun t => { t with
      rxSeq := t.rxSeq + 1, asked := false, replayBuf := (portOf s p).replayBuf.filter fun q => acked ≤ q.1,
      replays := if ((portOf s p).replayBuf.filter fun q => acked ≤ q.1).length = (portOf s p).replayBuf.length then t.replays else 0 })
        (modPort p (fun t =>
        { t with laneErr := corrected.zipIdx.foldl (fun m c => if c.2 < 4 then tset 0 m c.2 (min 0xFFFF (tget 0 m c.2 + c.1)) else m) t.laneErr }) u))))) ∧
  (∀ (p seq acked : Nat) (good : Bool) (corrected : List Nat) (s : State), portUp s p = true → good = false ∨ seq ≠ (portOf s p).rxSeq →
    (portOf s p).asked = false →
    exec (.flitReceive p seq good corrected acked) s = .next (perform s fun u =>
      emit (.replayAsk p (portOf s p).rxSeq) (modPort p (fun t => { t with asked := true }) (modPort p (fun t =>
        { t with laneErr := corrected.zipIdx.foldl (fun m c => if c.2 < 4 then tset 0 m c.2 (min 0xFFFF (tget 0 m c.2 + c.1)) else m) t.laneErr }) u)))) ∧
  (∀ (p seq : Nat) (s : State), portUp s p = true → ((portOf s p).replayBuf.filter fun q => decide (seq ≤ q.1)) ≠ [] → (portOf s p).replays < 7 →
    ((portOf s p).replayBuf.filter fun q => decide (seq ≤ q.1)).length = (portOf s p).replayBuf.length →
    exec (.replayRequest p seq) s = .next (perform s fun u => emit (.replay p seq)
      (modPort p (fun t => { t with replays := (portOf s p).replays + 1 }) (modPort p (fun t => { t with
        replayBuf := (portOf s p).replayBuf.filter fun q => decide (seq ≤ q.1) }) u)))) ∧
  (∀ (p n : Nat) (k : Packet) (rest : List (Nat × Packet)) (s : State), portUp s p = true → (portOf s p).replayBuf = (n, k) :: rest →
    (portOf s p).replays < 7 →
    exec (.replayAckTimeout p) s = .next (perform s fun u => emit (.replay p n) (modPort p (fun t => { t with replays := (portOf s p).replays + 1 }) u))) ∧
  (∀ (p : Nat) (s : State), portUp s p = true →
    exec (.peerSilentTimeout p) s = .next (perform s (modPort p fun t => { t with state := 4, step := 1, lanes := 0, usable := trainable t }))) ∧
  (∀ (p lane : Nat) (s : State), (portOf s p).retired.testBit lane = false → portUp s p = false →
    exec (.laneRetire p lane) s = .next (perform s fun u => modPort p (fun t => { t with retired := t.retired ||| 2 ^ lane })
      (classify ⟨7, p * 4 + lane⟩ false (tget 0 (portOf s p).laneFail lane) u)))

/-- O22: Drift packets go on by route and credits, window packets are performed and answered, and packets combine. -/
def Obligations.DriftPacketsForwarded : Prop :=
  (∀ (p q : Nat) (k : Packet) (s : State), asleep s = false → s.dr.assigned = true → k.ddev ≠ s.dr.devid → k.hops ≠ 0 →
    routeOf s k = some q → canLeave s q { k with hops := k.hops - 1 } = true →
    exec (.packetForward p k) s = .next (perform s fun u =>
      emit (.credit p k.vc (pktSlots k)) (launchPkt q { k with hops := k.hops - 1 }
        (packetWay p k (.port q) (payReq (128 + p) ((findGid s k.slode).getD 0x7F) k.cls (packetCost k) u))))) ∧
  (∀ (p q : Nat) (k : Packet) (s : State), asleep s = false → s.dr.assigned = true → k.ddev ≠ s.dr.devid → k.hops ≠ 0 → k.dlrem = 0 →
    routeOf s k = some q → canLeave s q { k with hops := k.hops - 1 } = false →
    exec (.packetForward p k) s = .next (perform s fun u =>
      modPort q (fun t => { t with waiting := t.waiting ++ [(some p, { k with hops := k.hops - 1, dlrem := 0 })] })
        (packetWay p k (.port q) (payReq (128 + p) ((findGid s k.slode).getD 0x7F) k.cls (packetCost k) u)))) ∧
  (∀ (p : Nat) (w : Option Nat × Packet) (s : State), ((portOf s p).waiting.find? fun w => decide (w.2.vc < 2)) = some w →
    exec (.escWaitExpiry p) s = .next (perform s fun u => sendOn w.1 { unwait s w.2 with vc := 3 }
      (modPort p (fun t => { t with waiting := t.waiting.erase w }) u))) ∧
  (∀ (p vc n : Nat) (s : State), 2 ≤ vc → (s.lm.ops.filter fun o => decide (o.kind = .creditMove) && decide (o.step = 2) && decide (o.port = p)) = [] →
    exec (.creditReturn p vc n none) s = .next (perform s fun u => afterOps (drain p
      (modPort p (fun t => { t with vcUse := tset 0 t.vcUse vc (tget 0 t.vcUse vc - n) }) u)))) ∧
  (∀ (p vc n l : Nat) (s : State), vc < 2 → (s.lm.ops.filter fun o => decide (o.kind = .creditMove) && decide (o.step = 2) && decide (o.port = p)) = [] →
    exec (.creditReturn p vc n (some l)) s = .next (perform s fun u => afterOps (drain p
      (modLm (fun m => { m with creditUse := tset 0 m.creditUse (l * 32 + p) (tget 0 m.creditUse (l * 32 + p) - n) }) u)))) ∧
  (∀ (p : Nat) (k : Packet) (s : State), asleep s = false → k.typ = 1 ∨ k.typ = 2 ∨ k.typ = 6 ∨ k.typ = 7 →
    sealedWaits s (128 + p) (rwinOf s k.winid).lode (packetCost k) = true →
    exec (.windowPacketReceive p k) s = .next (perform s (modNoc fun n => { n with ingress := n.ingress ++ [(p, k)] }))) ∧
  (∀ (p : Nat) (k : Packet) (s u : State), asleep s = false → k.typ = 1 ∨ k.typ = 2 ∨ k.typ = 6 ∨ k.typ = 7 → windowEnters p k s →
    windowEntered p k s.start = u → winCheck u k ≠ 0 →
    exec (.windowPacketReceive p k) s = .next (perform s fun _ => emit (.credit p k.vc (pktSlots k))
      (each (responses u k 5 (winCheck u k) []) sendResponse u))) ∧
  (∀ (p : Nat) (k : Packet) (s u t : State), asleep s = false → k.typ = 1 → windowEnters p k s → windowEntered p k s.start = u → winCheck u k = 0 →
    storeLode (rwinOf s k.winid).lode ((rwinOf s k.winid).laddr + k.offset) k.cls k.data u = .ok t →
    exec (.windowPacketReceive p k) s = .next (perform s fun _ => emit (.credit p k.vc (pktSlots k))
      (each (responses t k 4 0 []) sendResponse t))) ∧
  (∀ (p : Nat) (k : Packet) (d : List Byte) (s u : State), asleep s = false → k.typ = 2 → windowEnters p k s → windowEntered p k s.start = u →
    winCheck u k = 0 → rdLode u (rwinOf s k.winid).lode ((rwinOf s k.winid).laddr + k.offset) k.len = .ok d →
    exec (.windowPacketReceive p k) s = .next (perform s fun _ => (fun v => emit (.credit p k.vc (pktSlots k)) (each (responses v k 3 0 d) sendResponse v))
      (touchLode (rwinOf s k.winid).lode ((rwinOf s k.winid).laddr + k.offset) k.len k.cls false u))) ∧
  (∀ (k : Packet) (w : WinReq) (d : Dma) (s : State), asleep s = false → k.typ = 4 → (s.dr.out.find? fun w => decide (w.rtag = k.rtag)) = some w →
    ((dmaOf s w.unit).find? fun d => d.waitIds.contains k.rtag) = some d →
    exec (.windowResponse k) s = .next (perform s fun u => settleDma w.unit
      (setDma w.unit (modFirst (fun d => d.waitIds.contains k.rtag) (fun d => { d with
        waitIds := d.waitIds.filter (· ≠ k.rtag) }) (dmaOf s w.unit))
        (modDr (fun d => { d with out := d.out.filter fun x => x.rtag ≠ k.rtag }) u)))) ∧
  (∀ (rtag : Nat) (w : WinReq) (d : Dma) (s : State), (s.dr.out.find? fun w => decide (w.rtag = rtag)) = some w →
    ((dmaOf s w.unit).find? fun d => d.waitIds.contains rtag) = some d →
    exec (.drTimeoutExpiry rtag) s = .next (perform s fun u => settleDma w.unit
      (setDma w.unit (modFirst (fun d => d.waitIds.contains rtag) (fun x => { x with
        waitIds := x.waitIds.filter (· ≠ rtag)
        failed := x.failed ++ [(Err.drTimeout, if d.kind = 4 then w.pkt.offset else d.dstVa + w.dstOff, w.pkt.len)]
        cancel := if x.cancel = 0 then Err.drTimeout else x.cancel }) (dmaOf s w.unit))
        (modDr (fun d => { d with out := d.out.filter fun x => x.rtag ≠ rtag }) u)))) ∧
  (∀ (k : Packet) (s : State), asleep s = false → k.typ = 6 → s.dr.combEn = true → s.dr.noComb = false → s.dr.combHold ≠ 0 → (contribsOf k).length < 8 →
    s.dr.store.find? (merges k) = none → s.dr.store.length < 1024 →
    exec (.switchCombineArrive k) s = .next (perform s (modDr fun d => { d with store := d.store ++ [k] }))) ∧
  (∀ (k e : Packet) (s : State), asleep s = false → k.typ = 6 → s.dr.combEn = true → s.dr.noComb = false → s.dr.combHold ≠ 0 → (contribsOf k).length < 8 →
    s.dr.store.find? (merges k) = some e → (mergePkt e k).contribs.length < 8 →
    exec (.switchCombineArrive k) s = .next (perform s
      (modDr fun d => { d with store := d.store.map fun x => if x = e then mergePkt e k else x }))) ∧
  (∀ (k : Packet) (rest : List Packet) (s : State), s.dr.store = k :: rest →
    exec .drCombHoldExpiry s = .next (perform s fun u => forward none k (modDr (fun d => { d with store := rest }) u)))

/-- O23: Drift verbs and port register writes set ports, routes, timing and windows, and a drained window closes. -/
def Obligations.DriftVerbsAndWindows : Prop :=
  (∀ (via : Via) (p m : Nat) (en low : Bool) (s : State), requested via 0x0400 s → p < 32 → (en = true → imagePort s p = true) →
    exec (.drPortSet via p en low m) s = .next (perform s fun u => answer via 0 [] (setEnable p en (setLowrate p low (setLaneOff p (m % 16) u))))) ∧
  (∀ (via : Via) (p m : Nat) (en low : Bool) (s : State), requested via 0x0400 s → 32 ≤ p ∨ (en = true ∧ imagePort s p = false) →
    exec (.drPortSet via p en low m) s = .next (perform s (answer via Err.cmdFormat []))) ∧
  (∀ (via : Via) (p : Nat) (s : State), requested via 0x0401 s → p < 32 →
    exec (.drPortQuery via p) s = .next (perform s (answer via 0 (enc [(8, portStatus (portOf s p)), (8, laneErrWord (portOf s p)), (1, (portOf s p).peerLo),
      (1, (portOf s p).peerHi), (2, (portOf s p).peerDev), (8, (portOf s p).peerSerial), (1, (portOf s p).peerPort), (1, (portOf s p).usable)])))) ∧
  (∀ (via : Via) (first : Nat) (es : List Nat) (s : State), requested via 0x0402 s → es ≠ [] → es.length ≤ 256 → first + es.length ≤ 16384 →
    exec (.drRouteSet via first es) s = .next (perform s fun u => answer via 0 []
      (modDr (fun d => { d with routes := es.zipIdx.foldl (fun r e => tset 0 r (first + e.2) (e.1 &&& 0x9F9F9F9F)) d.routes }) u))) ∧
  (∀ (via : Via) (tmo esc hold : Nat) (en : Bool) (s : State), requested via 0x0406 s → tmo ≠ 0 → tmo ≤ 65535 → esc ≠ 0 → esc ≤ 65535 → hold ≤ 255 →
    exec (.drTimingSet via tmo esc hold en) s = .next (perform s fun u => answer via 0 []
      (modDr (fun d => { d with timeout := tmo, escWait := esc, combHold := hold, combEn := en }) u))) ∧
  (∀ (who : Writer) (p : Nat) (s : State), admits who 8 s → p < 32 → (portOf s p).enable = true → imagePort s p = true →
    exec (.drPortRetrain who p) s = .next (perform s fun u => train p (entered who u))) ∧
  (∀ (who : Writer) (p : Nat) (s : State), admits who 8 s → p < 32 → imagePort s p = true →
    exec (.drPortEnableWrite who p true) s = .next (perform s fun u => setEnable p true (entered who u))) ∧
  (∀ (who : Writer) (p : Nat) (s : State), admits who 8 s → p < 32 →
    exec (.drPortEnableWrite who p false) s = .next (perform s fun u => setEnable p false (entered who u))) ∧
  (∀ (who : Writer) (p : Nat) (on : Bool) (s : State), admits who 8 s → p < 32 →
    exec (.drPortLowrateWrite who p on) s = .next (perform s fun u => fitWidth p (modPort p (fun t => { t with lowrate := on }) (entered who u)))) ∧
  (∀ (via : Via) (dev win gid ctx kind rights laddr len semBase al ad dm l : Nat) (s : State), requested via 0x0403 s → findLive s via gid = .ok l →
    dev = s.dr.devid → win < 0xF00 → kind = 0 → laddr % 256 = 0 → laddr + (len + 1) * 256 ≤ 2 ^ 41 → len < 2 ^ 32 → semBase < 2 ^ 17 → inTables s l laddr ((len + 1) * 256) = false →
    al < 2 ^ 32 → (xlCtxOf s ctx).valid = true → (xlCtxOf s ctx).lode = l → (rwinOf s win).valid = false →
    exec (.drWindowOpen via dev win gid ctx kind rights laddr len semBase al ad dm) s = .next (perform s fun u => answer via 0 []
      (modRwin win (fun _ => { valid := true, kind := 0, r := rights.testBit 0, w := rights.testBit 1, a := rights.testBit 2, len256 := len, laddr := laddr,
                               semBase := semBase, lode := l, ctx := ctx, devMask := dm % 2 ^ 14, allowDev := ad % 2 ^ 14, allowLode := al }) u))) ∧
  (∀ (via : Via) (win : Nat) (f : VFence) (s : State), requested via 0x0404 s → winSeen s via s.dr.devid win = true → win < 4096 → (rwinOf s win).valid = true →
    (rwinOf s win).closing = false → (lodeOf s (rwinOf s win).lode).home = true → fenceFits s (rwinOf s win).lode f = true →
    exec (.drWindowClose via s.dr.devid win f) s = .next (perform s fun u => answer via 0 [] (modRwin win (fun w => { w with closing := true, fence := some f }) u))) ∧
  (∀ (via : Via) (win : Nat) (s : State), requested via 0x0405 s → winSeen s via s.dr.devid win = true → win < 4096 →
    exec (.drWindowQuery via s.dr.devid win) s = .next (perform s
      (answer via 0 (le 32 (if (rwinOf s win).valid ∧ (lodeOf s (rwinOf s win).lode).conf then 0 else rwtBits (rwinOf s win)))))) ∧
  (∀ (win : Nat) (f : VFence) (s : State), (rwinOf s win).closing = true → (rwinOf s win).fence = some f → (lodeOf s (rwinOf s win).lode).home = true →
    exec (.windowCloseDrained win) s = .next (perform s fun u => signalFence (rwinOf s win).lode (some f) (modRwin win (fun _ => {}) u)))

/-- O24: Utwelas members prepare, commit and abort two-phase changes; coordinators collect answers; heartbeats, joins and pools follow. -/
def Obligations.UtwelasMessagesTaken : Prop :=
  (∀ (s : State), s.dr.assigned = true →
    exec .heartbeatSend s = .next (perform s fun u => each (peersOf s) (fun d v => sendUt [d]
      { msg := 1, fromDev := 0, subject := v.ut.pool, epoch := v.ut.poolEpoch, body := [v.ut.pool, v.ut.poolEpoch, (shared v d).length] } v) u)) ∧
  (∀ (m : UtMsg) (s : State), m.body.getD 0 0 ≠ s.ut.pool →
    exec (.utHeartbeat m) s = .next (perform s (modPeer m.fromDev fun p => { p with known := true, lost := false, pool := m.body.getD 0 0 }))) ∧
  (∀ (m : UtMsg) (s : State), m.body.getD 0 0 = s.ut.pool → later m.epoch s.ut.poolEpoch = true →
    exec (.utHeartbeat m) s = .next (perform s fun u => sweep (modUt (fun u => { u with poolEpoch := m.epoch })
      (modPeer m.fromDev (fun p => { p with known := true, lost := false, pool := m.body.getD 0 0 }) u)))) ∧
  (∀ (m : UtMsg) (l : Nat) (s : State), asleep s = false → m.body.headD 0 ≠ 11 → m.body.headD 0 ≠ 10 → m.body.headD 0 ≠ 13 → findGid s m.subject = some l →
    (lodeOf s l).frozen = false →
    exec (.utPrepare m) s = .next (perform s fun u => sendUt [m.fromDev]
      { msg := 3, fromDev := 0, txn := m.txn, subject := m.subject, epoch := m.epoch, status := 0, body := [0, l] }
      (modUt (fun x => { x with preps := x.preps ++ [{ coord := m.fromDev, txn := m.txn, lode := l, epoch := m.epoch, change := m.body }] }) u))) ∧
  (∀ (m : UtMsg) (l n : Nat) (tl : List Nat) (a : Nat × Nat × Change) (s : State), asleep s = false → m.body = 13 :: s.dr.devid :: n :: tl →
    findGid s m.subject = some l → (lodeOf s l).frozen = false → (s.ut.asked.find? fun a => decide (a.1 = n) && decide (a.2.1 = l)) = some a →
    exec (.utPrepare m) s = .next (perform s fun u => sendUt [m.fromDev]
      { msg := 3, fromDev := 0, txn := m.txn, subject := m.subject, epoch := m.epoch, status := 0, body := [0, l] } (setBegun true a.2.2
      (modUt (fun x => { x with preps := x.preps ++ [{ coord := m.fromDev, txn := m.txn, lode := l, epoch := m.epoch, change := m.body }] }) u)))) ∧
  (∀ (m : UtMsg) (p : Prep) (s : State), asleep s = false → prepOf s m = some p → ownExtend s p = none → p.change.headD 0 ≠ 10 →
    exec (.utCommit m) s = .next (perform s (commitPrep p))) ∧
  (∀ (p : Prep) (s : State), (memberCommit p s).ut.poolCoord = false → commitPrep p s = afterOps (sendUt [p.coord]
    { msg := 5, fromDev := 0, txn := p.txn, subject := if p.lode < 96 then (lodeOf s p.lode).gid else s.ut.pool, epoch := p.epoch
      body := [0, s.ut.poolEpoch] } (memberCommit p s))) ∧
  (∀ (m : UtMsg) (p : Prep) (mask : Nat) (sets : List Nat) (s : State), asleep s = false → prepOf s m = some p → ownExtend s p = some (mask, sets) →
    (s.lm.scrubs.any fun x => x.what = .extend p.coord p.txn) = false →
    exec (.utCommit m) s = .next (perform s fun u => startScrub (if sets.isEmpty then 200 else 60000) 10 p.lode (.extend p.coord p.txn)
      (each sets wipeSet (each (bitsOf 96 mask) wipeBlock u)))) ∧
  (∀ (m : UtMsg) (p : Prep) (s : State), asleep s = false → prepOf s m = some p →
    exec (.utAbort m) s = .next (perform s fun u => afterOps (memberAbort p (m.body.headD Err.utAborted) u))) ∧
  (∀ (m : UtMsg) (t : Txn) (s : State), asleep s = false →
    (s.ut.txns.find? fun t => decide (t.phase = 3) && decide ((lodeOf s t.lode).gid = m.subject)) = none →
    (s.ut.txns.find? fun t => decide (t.num = m.txn) && decide (t.phase = 2)) = some t → t.devs.contains m.fromDev = true → t.ready.contains m.fromDev = false →
    t.change.headD 0 ≠ 10 → m.status = 0 →
    exec (.utPrepared m) s = .next (perform s fun u => allPrepared t.num (modTxn t.num (fun _ => { t with ready := t.ready ++ [m.fromDev] }) u))) ∧
  (∀ (t : Txn) (s : State), (s.ut.txns.find? fun x => x.num = t.num) = some t → t.phase = 2 → t.twin = none → t.devs.all (t.ready.contains ·) = true →
    allPrepared t.num s = sendUt t.devs { msg := 4, fromDev := 0, txn := t.num, subject := (lodeOf s t.lode).gid, epoch := t.epoch, body := [t.epoch, t.info] }
      (modTxn t.num (fun x => { x with phase := 4 }) s)) ∧
  (∀ (t : Txn) (s : State), (s.ut.txns.find? fun x => x.num = t.num) = some t → t.devs.all (t.ready.contains ·) = false → allPrepared t.num s = s) ∧
  (∀ (m : UtMsg) (t : Txn) (s : State), asleep s = false →
    (s.ut.txns.find? fun t => decide (t.phase = 3) && decide ((lodeOf s t.lode).gid = m.subject)) = none →
    (s.ut.txns.find? fun t => decide (t.num = m.txn) && decide (t.phase = 2)) = some t → t.devs.contains m.fromDev = true → t.ready.contains m.fromDev = false →
    m.status ≠ 0 →
    exec (.utPrepared m) s = .next (perform s (abortTxn t m.status))) ∧
  (∀ (num : Nat) (t : Txn) (s : State), (s.ut.txns.find? fun t => decide (t.num = num) && decide (t.phase = 2)) = some t →
    exec (.utPrepareTimeout num) s = .next (perform s (abortTxn t Err.utAborted))) ∧
  (∀ (m : UtMsg) (t : Txn) (s : State), asleep s = false → m.body.headD 0 ≠ 1 →
    (s.ut.txns.find? fun t => decide (t.phase = 3) && decide ((lodeOf s t.lode).gid = m.subject)) = none →
    (s.ut.txns.find? fun t => decide (t.num = m.txn) && decide (t.phase = 4) && t.devs.contains m.fromDev) = some t →
    exec (.utCommitted m) s = .next (perform s fun u => settleTxn t.num (modTxn t.num (fun x => { x with
      done := x.done ++ [m.fromDev], info := if x.mine.isNone ∧ (m.fromDev ≠ x.change.getD 1 0 ∨ x.devs.length = 1) then m.body.getD 1 0 else x.info }) u))) ∧
  (∀ (m : UtMsg) (l : Nat) (s : State), asleep s = false → findGid s m.subject = some l → (s.ut.preps.find? fun p => decide (p.lode = l)) = none →
    exec (.utTakeover m) s = .next (perform s (sendUt [m.fromDev]
      { msg := 5, fromDev := 0, subject := m.subject, epoch := (lodeOf s l).epoch, body := [0] }))) ∧
  (∀ (dev : Nat) (s : State), (peerOf s dev).lost = false → dev ≠ s.dr.devid →
    exec (.peerLost dev) s = .next (perform s fun u => (fun v => afterOps (poolLoses dev (each (shared v dev) (lodeLoses dev) v)))
      (emit (.notice 0x502 dev Err.peerLost) (event 0x502 5 0 dev Err.peerLost 0 none (modPeer dev (fun p => { p with lost := true }) u))))) ∧
  (∀ (m : UtMsg) (l : Nat) (s : State), asleep s = false → findGid s m.subject = some l → lowest (membersOf s l) = s.dr.devid →
    (lodeOf s l).frozen = false → (lodeOf s l).state = 2 →
    exec (.utOffer m) s = .next (perform s fun u => afterOps (commit l (.adopt m.reqseq)
      (modUt (fun x => { x with adopts := x.adopts ++ [(m.fromDev, l, m.reqseq)] }) u)))) ∧
  (∀ (m : UtMsg) (n l : Nat) (r : URec) (s : State), asleep s = false →
    (s.ut.records.find? fun t => decide (t.2.reqseq = m.reqseq) && decide (t.2.receiver = m.subject)) = some (n, r) → r.state = 1 → findGid s r.donor = some l →
    exec (.utAdopted m) s = .next (perform s fun u => signalFence l (some r.fence)
      (modUrec n (fun x => { x with state := 2, acked := m.epoch }) u))) ∧
  (∀ (m : UtMsg) (s : State), asleep s = false → (s.ut.adopts.any fun a => decide (a.2.2 = m.reqseq)) = true → s.ut.txns = [] →
    exec (.utRevoke m) s = .next (perform s fun u => modUt (fun x => { x with adopts := x.adopts.filter fun a => a.2.2 ≠ m.reqseq })
      (modLm (fun k => { k with waiting := k.waiting.filter fun w => w.2 ≠ .adopt m.reqseq }) u))) ∧
  (∀ (m : UtMsg) (s : State), asleep s = false → m.fromDev ≠ s.dr.devid → (peerOf s m.fromDev).known = false →
    exec (.utJoin m) s = .next (perform s fun u => sendUt [m.fromDev] { msg := 11, fromDev := 0, status := 0, body := [s.chip.serialNo] }
      (modPeer m.fromDev (fun p => { p with known := true, serial := m.body.headD 0 }) u))) ∧
  (∀ (m : UtMsg) (s : State), asleep s = false → m.fromDev = s.dr.devid → s.dr.assigned = true → m.body.headD 0 ≠ s.chip.serialNo →
    exec (.utJoin m) s = .next (perform s (sendUt [m.fromDev] { msg := 11, fromDev := 0, status := Err.utDevid, body := [s.chip.serialNo] }))) ∧
  (∀ (m : UtMsg) (ms : List Nat) (s : State), asleep s = false → m.subject = s.ut.pool → m.body = 1 :: ms → later m.epoch s.ut.poolEpoch = true →
    exec (.utPool m) s = .next (perform s fun u => sweep (modUt (fun x => { x with poolEpoch := m.epoch })
      (modUt (fun x => { x with poolMembers := ms, poolCoord := ms.contains s.dr.devid && ms.all fun d => decide (s.dr.devid ≤ d) }) u)))) ∧
  (∀ (s : State), s.ut.poolCoord = true → exec .poolTick s = .next (perform s (raisePool [0]))) ∧
  (∀ (dev : Nat) (s : State), asleep s = false →
    exec (.joinReply dev Err.utDevid) s = .next (perform s fun u => emit (.notice 0x505 dev Err.utDevid)
      (modChip (fun c => { c with storedDev := none }) (modDr (fun d => { d with assigned := false, devid := 0 }) u)))) ∧
  (∀ (dev status : Nat) (s : State), asleep s = false → status ≠ Err.utDevid →
    exec (.joinReply dev status) s = .next (perform s (modPeer dev fun p => { p with known := true })))

/-- O25: The Utwelas verbs set the device ID, move pools, extend, shrink and release lodes, hand off and answer queries. -/
def Obligations.UtwelasVerbsCarriedOut : Prop :=
  (∀ (dev : Nat) (s : State), requested .sideband 0x0500 s → dev ≤ 16383 →
    exec (.utDevidSet .sideband dev) s = .next (perform s fun u => (fun v => answer .sideband 0 [] (sendUt
        (((List.range 32).filter fun p => portUp v p && decide ((portOf v p).peerDev ≠ 0xFFFF)).map fun p => (portOf v p).peerDev).dedup
        { msg := 11, fromDev := 0, body := [v.chip.serialNo] } v))
      (modChip (fun c => { c with storedDev := some dev }) (modDr (fun d => { d with devid := dev, assigned := true }) u)))) ∧
  (∀ (via : Via) (dev : Nat) (s : State), requested via 0x0500 s → via ≠ .sideband →
    exec (.utDevidSet via dev) s = .next (perform s (answer via Err.mbVerb []))) ∧
  (∀ (dev : Nat) (s : State), requested .sideband 0x0500 s → 16383 < dev →
    exec (.utDevidSet .sideband dev) s = .next (perform s (answer .sideband Err.utDevid []))) ∧
  (∀ (via : Via) (dev a b : Nat) (s : State), requested via 0x0501 s → dev ≤ 16383 → a ≤ 65535 → b ≤ 65535 → a ≠ b → s.ut.poolCoord = true →
    s.ut.pool = a ∨ s.ut.pool = b →
    exec (.utPoolMove via dev a b) s = .next (perform s fun u => sendUt (dev :: (poolHead s (if s.ut.pool = a then b else a)).filter (· ≠ dev))
      { msg := 2, fromDev := 0, txn := s.ut.txnNext, subject := a, epoch := s.ut.poolEpoch, body := [11, dev, a, b] }
      (modUt (fun x => { x with txnNext := s.ut.txnNext + 1, txns := x.txns ++ [{ num := s.ut.txnNext, lode := 0xFF, epoch := s.ut.poolEpoch + 1,
                                                                                  devs := dev :: (poolHead s (if s.ut.pool = a then b else a)).filter (· ≠ dev), change := [11, dev, a, b], via := some via }] }) u))) ∧
  (∀ (via : Via) (gid dev mask l : Nat) (sets credits : List Nat) (s : State), requested via 0x0502 s → findLive s via gid = .ok l →
    lowest (membersOf s l) = s.dr.devid → dev ≤ 16383 → dev ≠ s.dr.devid → credits.length ≤ 32 → s.dr.assigned = true →
    (lodeOf s l).gid / 65536 ≠ 0xFFFF →
    (membersOf s l).contains dev = false → (membersOf s l).length < 16384 →
    exec (.utLodeExtend via gid dev mask sets credits) s = .next (perform s fun u =>
      afterOps (commit l (.extend dev mask sets credits (membersOf s l ++ [dev]) (some via)) u))) ∧
  (∀ (via : Via) (gid dev mask l : Nat) (sets credits : List Nat) (s : State), requested via 0x0502 s → findLive s via gid = .ok l →
    lowest (membersOf s l) ≠ s.dr.devid →
    exec (.utLodeExtend via gid dev mask sets credits) s = .next (perform s (emit (.control (lowest (membersOf s l)) 2
      (0x0502 :: viaNum via :: ([gid, dev, mask, sets.length] ++ sets ++ [credits.length] ++ credits)))))) ∧
  (∀ (via : Via) (gid dev l : Nat) (s : State), requested via 0x0503 s → findLive s via gid = .ok l → lowest (membersOf s l) = s.dr.devid →
    (membersOf s l).contains dev = true → 2 ≤ (membersOf s l).length → dev ≠ (lodeOf s l).homeDev →
    exec (.utLodeShrink via gid dev) s = .next (perform s fun u =>
      afterOps (commit l (.members ((membersOf s l).filter (· ≠ dev)) (some via)) u))) ∧
  (∀ (via : Via) (gid dev l : Nat) (s : State), requested via 0x0503 s → findLive s via gid = .ok l → lowest (membersOf s l) ≠ s.dr.devid →
    exec (.utLodeShrink via gid dev) s = .next (perform s (emit (.control (lowest (membersOf s l)) 2 [0x0503, viaNum via, gid, dev])))) ∧
  (∀ (via : Via) (q donor recv ext ckpt l n : Nat) (f : VFence) (s : State), requested via 0x0504 s → findLive s via donor = .ok l → recv ≠ 0 →
    fenceFits s l f = true → ((List.range 4096).find? fun n => decide ((urecOf s n).state = 0)) = some n →
    exec (.utHandoff via q donor recv ext ckpt f) s = .next (perform s fun u => answer via 0 [] (sendUt [coordOf s recv]
      { msg := 8, fromDev := 0, subject := recv, reqseq := q, body := [recv, ext, ckpt] }
      (modUrec n (fun _ => { state := 1, dpool := s.ut.pool, rpool := if coordOf s recv = s.dr.devid then s.ut.pool else (peerOf s (coordOf s recv)).pool,
                             base := s.ut.poolEpoch, receiver := recv, donor := donor, reqseq := q, ckpt := ckpt, fence := f }) u)))) ∧
  (∀ (via : Via) (q donor recv ext ckpt l : Nat) (f : VFence) (s : State), requested via 0x0504 s → findLive s via donor = .ok l → recv ≠ 0 →
    fenceFits s l f = true → ((List.range 4096).find? fun n => decide ((urecOf s n).state = 0)) = none →
    exec (.utHandoff via q donor recv ext ckpt f) s = .next (perform s (answer via Err.utRecordsFull []))) ∧
  (∀ (via : Via) (dev kind : Nat) (s : State), requested via 0x0505 s → dev ≤ 16383 → kind = 1 ∨ kind = 2 →
    exec (.utNotice via dev kind) s = .next (perform s fun u => answer via 0 [] (losePeer dev u))) ∧
  (∀ (via : Via) (gid l : Nat) (s : State), requested via 0x0506 s → findRun s via gid = some l → (lodeOf s l).frozen = true →
    exec (.utRelease via gid) s = .next (perform s (leaveLode l ((membersOf s l).filter (· ≠ s.dr.devid)) (some via)))) ∧
  (∀ (via : Via) (n l : Nat) (s : State), requested via 0x0507 s → findRun s via n = some l →
    exec (.utQuery via false n) s = .next (perform s (answer via 0 (enc ([(2, (membersOf s l).length)] ++ (membersOf s l).map (fun d => (2, d)) ++
      [(2, lowest (membersOf s l)), (4, (lodeOf s l).epoch), (2, s.ut.records.length)]))))) ∧
  (∀ (via : Via) (s : State), requested via 0x0507 s → s.ut.poolMembers ≠ [] →
    exec (.utQuery via true s.ut.pool) s = .next (perform s (answer via 0 (enc ([(2, s.ut.poolMembers.length)] ++ s.ut.poolMembers.map (fun d => (2, d)) ++
      [(2, lowest s.ut.poolMembers), (4, s.ut.poolEpoch), (2, s.ut.records.length)])))))

/-- O26: Port resets, interface generation, mailbox, sideband, BAR4 windows, PASIDs, confidential keys and consumer words. -/
def Obligations.HostPortCommandsCarriedOut : Prop :=
  (∀ (p : Nat) (s : State), exec (.portReset p) s = .next (perform s fun u =>
      modHport p (fun h => { h with wins := [], msix := [], pba := [], slots := [], settled := 0 })
        (each ((slicesOf s p).flatMap (ctxsOf s)) (fun c => startTeardown c 0 none) u))) ∧
  (∀ (p v : Nat) (s : State), asleep s = false → bootDone s = true → ((slicesOf s p).any fun l => !(ctxsOf s l).isEmpty) = false →
    exec (.drvMaxWrite p v) s = .next (perform s (modHport p fun h => { h with drvMax := v % 256, settled := min (v % 256) 1 }))) ∧
  (∀ (p v : Nat) (s : State), asleep s = false → bootDone s = false ∨ ((slicesOf s p).any fun l => !(ctxsOf s l).isEmpty) = true →
    exec (.drvMaxWrite p v) s = .next (perform s fun u => modHport p (fun h => { h with genDisc := true }) (discard (.host p) 8 7 u))) ∧
  (∀ (p off : Nat) (w : Aper) (xs : List (Nat × Nat)) (bs : List Byte) (s u t : State), asleep s = false → bootDone s = true →
    aperOf s p off bs.length = some w → payReq 160 (xlCtxOf s w.ctx).lode 0 bs.length
      (noteWalks 96 0 (draw s.start).1 w.ctx (w.dva + (off - w.off)) bs.length 1 (draw s.start).2) = u →
    extents u (walkAs s.start 96 (draw s.start).1 w.ctx) (w.dva + (off - w.off)) bs.length 1 = .ok xs →
    wrExtents (xlCtxOf s w.ctx).lode 0 xs bs u = .ok t →
    exec (.apertureAccess p off true 0 bs) s = .next (perform s fun _ => t)) ∧
  (∀ (p off n : Nat) (w : Aper) (xs : List (Nat × Nat)) (bs : List Byte) (s u : State), asleep s = false → bootDone s = true →
    aperOf s p off n = some w → payReq 160 (xlCtxOf s w.ctx).lode 0 n
      (noteWalks 96 0 (draw s.start).1 w.ctx (w.dva + (off - w.off)) n 0 (draw s.start).2) = u →
    extents u (walkAs s.start 96 (draw s.start).1 w.ctx) (w.dva + (off - w.off)) n 0 = .ok xs → rdExtents u (xlCtxOf s w.ctx).lode xs = .ok bs →
    exec (.apertureAccess p off false n []) s = .next (perform s fun _ => emit (.apertureData bs)
      (each xs (fun x => touchLode (xlCtxOf s w.ctx).lode x.1 x.2 0 false) u))) ∧
  (∀ (p off n : Nat) (s : State), asleep s = false → aperOf s p off n = none →
    exec (.apertureAccess p off false n []) s = .next (perform s fun u => emit (.apertureData (List.replicate n 0xFF))
      (modHport p (fun h => { h with aperErr := min 0xFFFFFFFF (h.aperErr + 1) }) u))) ∧
  (∀ (p n v : Nat) (bs : List Byte) (s : State), asleep s = false → v % 2 = 1 → n < 8 → (slotOf s p n).state ≠ 1 →
    requestErr s false p (slotOf s p n).verb (slotOf s p n).len = 0 →
    ∃ t, exec (.mbGo p n v bs) s = .next t ∧
      slotOf t p n = { slotOf s p n with state := 1, irq := v.testBit 1, req := bs.take (slotOf s p n).len } ∧
      (∀ q, q ≠ p → hportOf t q = hportOf s q) ∧ (∀ k, k ≠ n → slotOf t p k = slotOf s p k) ∧
      t = { s with hp := { s.hp with ports := t.hp.ports }, edits := [] }) ∧
  (∀ (code tag len : Nat) (bs : List Byte) (s : State), asleep s = false → s.hp.side = none → requestErr s true 0 code len = 0 →
    exec (.sidebandRequest code tag len bs) s = .next (perform s (modHp fun h => { h with side := some (code, tag, bs) }))) ∧
  (∀ (via : Via) (s : State), requested via 0x0010 s → exec (.inventory via) s = .next (perform s (answer via 0 (inventoryReport s)))) ∧
  (∀ (via : Via) (gid port pasid l : Nat) (s : State), requested via 0x0011 s → findLive s via gid = .ok l → pasid ≠ 0 → pasid < 2 ^ 20 →
    port < (hostPorts s).length → (lodeOf s l).home = true → (lodeOf s l).pasid = 0 → pasidUsed s port pasid = false →
    exec (.pasidBind via gid port pasid) s = .next (perform s fun u => answer via 0 [] (modLode l (fun d => { d with pasid := pasid, port := port }) u))) ∧
  (∀ (via : Via) (gid l : Nat) (s : State), requested via 0x0012 s → findLive s via gid = .ok l → ctxsOf s l = [] →
    exec (.pasidUnbind via gid) s = .next (perform s fun u => answer via 0 [] (modLode l (fun d => { d with pasid := 0 }) u))) ∧
  (∀ (via : Via) (gid l : Nat) (s : State), requested via 0x0012 s → findLive s via gid = .ok l → ctxsOf s l ≠ [] →
    exec (.pasidUnbind via gid) s = .next (perform s (answer via Err.resourceBusy []))) ∧
  (∀ (via : Via) (port off size ctx dva l n : Nat) (s : State), requested via 0x0013 s → ctxLode s via ctx = .ok l → (lodeOf s l).conf = false →
    (ctxOf s ctx).state ≠ 3 → (lodeOf s l).port = aperPort via port → (lodeOf s l).pasid ≠ 0 → aperBad s (aperPort via port) off size = false →
    dva + size ≤ 2 ^ 55 → ((List.range 256).find? fun n => !(tget {} (hportOf s (aperPort via port)).wins n).opened) = some n →
    exec (.apertureMap via port off size ctx dva) s = .next (perform s fun u => answer via 0 (enc [(1, n)]) (modHport (aperPort via port) (fun h => { h with
      wins := tset {} h.wins n { opened := true, off := off, size := size, ctx := ctx, dva := dva } }) u))) ∧
  (∀ (via : Via) (port n : Nat) (s : State), requested via 0x0014 s → (tget {} (hportOf s (aperPort via port)).wins n).opened = true →
    exec (.apertureUnmap via port n) s = .next (perform s fun u => answer via 0 [] (modHport (aperPort via port) (fun h => { h with wins := tset {} h.wins n {} }) u))) ∧
  (∀ (via : Via) (gid l k : Nat) (wrapped : List Byte) (s : State), requested via 0x0015 s → confLode s via gid = .ok l → ctxsOf s l = [] →
    transportSeed s l = some k → wrapped.length = 1608 → (lodeOf s l).session ≠ none →
    exec (.confKeySet via gid wrapped) s = .next (perform s fun u => match Config.unwrapKey k wrapped with
      | none => answer via Err.confKey [] u
      | some key => answer via 0 (enc [(4, (queueOf (installKey l (key % 2 ^ 256) u) l).keyGen)]) (installKey l (key % 2 ^ 256) u))) ∧
  (∀ (via : Via) (gid kind a l : Nat) (s : State), requested via 0x0016 s → confLode s via gid = .ok l → kind ≤ 3 → a % 4096 = 0 →
    tget none (queueOf s l).tagRings kind = none →
    exec (.confRingSetup via gid kind a) s = .next (perform s fun u => answer via 0 []
      (modQueue l (fun q => { q with tagRings := tset none q.tagRings kind (some a) }) u))) ∧
  (∀ (id len l : Nat) (bs : List Byte) (s : State), tget none s.hp.reads id = some (len, .sqEntry l) → (queueOf s l).state = 1 →
    exec (.hostReadCompletion id false bs) s = .next (perform s fun u => raiseLode l 0 (modQueue l (fun q => { q with state := 2, error := Err.hostAccess })
      (modHp (fun h => { h with reads := tset none h.reads id none }) u)))) ∧
  (∀ (id len l : Nat) (bs : List Byte) (s : State), tget none s.hp.reads id = some (len, .sqEntry l) →
    exec (.hostReadCompletion id true bs) s = .next (perform s (modHp fun h => { h with reads := tset none h.reads id none }))) ∧
  (∀ (id len l pos : Nat) (bs : List Byte) (s : State), tget none s.hp.reads id = some (len, .reduceSrc l pos) →
    exec (.hostReadCompletion id true bs) s = .next (perform s fun u => reduceSrcData l pos ((padTo len bs).take len)
      (modHp (fun h => { h with reads := tset none h.reads id none }) u))) ∧
  (∀ (p k : Nat) (s : State), (hostPorts s).contains p = true → k < 14 →
    exec (.bar4Resize p (2 ^ (28 + k))) s = .next (perform s (modHport p fun h => { h with bar4 := 2 ^ (28 + k), wins := [] }))) ∧
  (∀ (p l v : Nat) (s : State), pageLive s p l = true →
    exec (.consumerPositionWrite p l 0x018 v) s = .next (perform s (modQueue l fun q => { q with cqHead := v % 2 ^ 64 })))

/-- O27: Doorbells fetch records, records are taken, checked, released, dispatched and completed. -/
def Obligations.RecordsTakenAndDispatched : Prop :=
  (∀ (p l pos : Nat) (s : State), asleep s = false → pageLive s p l = true → (queueOf s l).state = 1 → (queueOf s l).sqTail ≤ pos →
    pos ≤ (queueOf s l).sqHead + 2 ^ (queueOf s l).sqLog →
    exec (.sqTailWrite p l pos) s = .next (perform s fun u => readEntries l (queueOf s l).sqTail pos (modQueue l (fun q => { q with sqTail := pos }) (headAccess 8 u)))) ∧
  (∀ (p l pos : Nat) (s : State), asleep s = false → pageLive s p l = true → (queueOf s l).state = 1 →
    pos < (queueOf s l).sqTail ∨ (queueOf s l).sqHead + 2 ^ (queueOf s l).sqLog < pos →
    exec (.sqTailWrite p l pos) s = .next (perform s fun u => modQueue l (fun q => { q with badTail := true }) (headAccess 8 u))) ∧
  (∀ (l bits : Nat) (s u t : State), mayTake s l bits = true → (lodeOf s l).conf = false →
    modQueue l (fun q => { q with
      sqHead := q.sqHead + rEntries bits, recs := q.recs ++ [{ pos := (queueOf s l).sqHead, bits := bits }] }) s.start = u → recCheck u l bits = 0 →
    translateRec l (queueOf s l).sqHead (modXl (fun x => { x with storeWait := none }) u) = t → descSlots t ≤ 262144 →
    exec (.recordTake l bits true) s = .next (perform s fun _ => t)) ∧
  (∀ (l bits : Nat) (s u t : State), mayTake s l bits = true → (lodeOf s l).conf = false →
    modQueue l (fun q => { q with
      sqHead := q.sqHead + rEntries bits, recs := q.recs ++ [{ pos := (queueOf s l).sqHead, bits := bits }] }) s.start = u → recCheck u l bits = 0 →
    translateRec l (queueOf s l).sqHead (modXl (fun x => { x with storeWait := none }) u) = t → 262144 < descSlots t →
    exec (.recordTake l bits true) s = .next (perform s (modXl fun x => { x with storeWait := some l }))) ∧
  (∀ (l bits : Nat) (s u : State), mayTake s l bits = true → (lodeOf s l).conf = false →
    modQueue l (fun q => { q with
      sqHead := q.sqHead + rEntries bits, recs := q.recs ++ [{ pos := (queueOf s l).sqHead, bits := bits }] }) s.start = u → recCheck u l bits ≠ 0 →
    exec (.recordTake l bits true) s = .next (perform s fun _ => rejectRec l (queueOf s l).sqHead (recCheck u l bits) u)) ∧
  (∀ (l bits : Nat) (s : State), mayTake s l bits = true → (lodeOf s l).conf = true → sessionKey s l ≠ none →
    exec (.recordTake l bits false) s = .next (perform s fun u => modRec l (queueOf s l).sqHead (fun r => { r with stage := 3, error := Err.confTag })
      (modQueue l (fun q => { q with
        sqHead := q.sqHead + rEntries bits, recs := q.recs ++ [{ pos := (queueOf s l).sqHead, bits := bits }] }) u))) ∧
  (∀ (l pos : Nat) (r : Rec) (s : State), recOf s l pos = some r → r.stage = 0 →
    exec (.waitEvaluate l pos) s = .next (perform s (releaseCtx l (rCtx r.bits)))) ∧
  (∀ (l pos : Nat) (r : Rec) (s : State), dispatchable s l pos 1 = some r → r.stale = false → rDevid r.bits = s.dr.devid → emptySlot s l (rSlots r.bits) = false →
    launchParts s l (rSlots r.bits) ≠ [] → (launchParts s l (rSlots r.bits)).any (fun b => (blockOf s b).drain) = false → rConstLen r.bits ≤ 256 →
    exec (.opLaunch l pos) s = .next (perform s fun u =>
      (fun r' => each ((launchParts s l (rSlots r.bits)).filter fun b => (blockOf s b).launch.isNone && !(blockOf s b).resetting && !remapWaits s b) (placeLaunch l r')
        (modRec l r.pos (fun x => { x with parts := r'.parts, consts := r'.consts }) (modRec l pos (fun x => { x with stage := 2, ran := true }) u)))
      { r with parts := launchParts s l (rSlots r.bits), consts := le (min (rConstLen r.bits) 256) (r.bits / 2 ^ 1024) })) ∧
  (∀ (l pos : Nat) (r : Rec) (s : State), dispatchable s l pos 1 = some r → r.stale = false → rDevid r.bits ≠ s.dr.devid → r.remote = none →
    exec (.opLaunch l pos) s = .next (perform s fun u => emit (.control (rDevid r.bits) 7
        [(lodeOf s l).gid, tget 0 (ctxOf s (rCtx r.bits)).members (rDevid r.bits), pos, r.bits])
      (modRec l pos (fun x => { x with remote := some (rDevid r.bits) }) (modRec l pos (fun x => { x with stage := 2, ran := true }) u)))) ∧
  (∀ (l pos n : Nat) (r : Rec) (s : State), dispatchable s l pos 2 = some r → r.stale = false → opUnit s l r.pos = some n →
    rShost r.bits = false → rDhost r.bits = false →
    exec (.opCopy l pos) s = .next (perform s fun u => setDma n (dmaOf s n ++ [{
        owner := .record l r.pos, serial := s.cu.dmaNext, kind := 1, len := rLen r.bits, src := resSpace r 0, dst := resSpace r 1, srcVa := rSrc r.bits
        dstVa := rDst r.bits, dlen := rLen r.bits, ctx := rCtx r.bits, lode := l, epoch := epochTag s l, cls := rClass r.bits
        deadline := carried s (rClass r.bits) (if rDlrel r.bits = 0 then none else some (nowTick s + rDlrel r.bits)), fill := rPattern r.bits
        conv := 0, sscale := .nil, dscale := .nil, arrLen := 0, arrVa := 0, gen := 0 }])
      (modCu (fun k => { k with dmaNext := k.dmaNext + 1 }) (modRec l pos (fun x => { x with stage := 2, ran := true }) u)))) ∧
  (∀ (l pos n : Nat) (r : Rec) (s : State), dispatchable s l pos 4 = some r → r.stale = false → opUnit s l r.pos = some n → rDhost r.bits = false →
    exec (.opFill l pos) s = .next (perform s fun u => setDma n (dmaOf s n ++ [{
        owner := .record l r.pos, serial := s.cu.dmaNext, kind := 3, len := rLen r.bits, src := .nil, dst := resSpace r 0, srcVa := rSrc r.bits
        dstVa := rDst r.bits, dlen := rLen r.bits, ctx := rCtx r.bits, lode := l, epoch := epochTag s l, cls := rClass r.bits
        deadline := carried s (rClass r.bits) (if rDlrel r.bits = 0 then none else some (nowTick s + rDlrel r.bits)), fill := rPattern r.bits
        conv := 0, sscale := .nil, dscale := .nil, arrLen := 0, arrVa := 0, gen := 0 }])
      (modCu (fun k => { k with dmaNext := k.dmaNext + 1 }) (modRec l pos (fun x => { x with stage := 2, ran := true }) u)))) ∧
  (∀ (l pos n : Nat) (r : Rec) (s : State), dispatchable s l pos 3 = some r → r.stale = false → opUnit s l r.pos = some n → rShost r.bits = false →
    rDhost r.bits = false → (convOf (rConv r.bits)).ss = false → (convOf (rConv r.bits)).ds = 0 →
    exec (.opConvert l pos) s = .next (perform s fun u => setDma n (dmaOf s n ++ [{
        owner := .record l r.pos, serial := s.cu.dmaNext, kind := 2, len := rLen r.bits, src := resSpace r 0, dst := resSpace r 1, srcVa := rSrc r.bits
        dstVa := rDst r.bits, dlen := cvDlen (rConv r.bits) (rLen r.bits), ctx := rCtx r.bits, lode := l, epoch := epochTag s l, cls := rClass r.bits
        deadline := carried s (rClass r.bits) (if rDlrel r.bits = 0 then none else some (nowTick s + rDlrel r.bits)), fill := rPattern r.bits
        conv := rConv r.bits, sscale := .nil, dscale := .nil, arrLen := 0, arrVa := cvDva (rConv r.bits), gen := cvSeed (rConv r.bits) }])
      (modCu (fun k => { k with dmaNext := k.dmaNext + 1 }) (modRec l pos (fun x => { x with stage := 2, ran := true }) u)))) ∧
  (∀ (l pos : Nat) (r : Rec) (src : List Byte) (s s1 t : State), dispatchable s l pos 5 = some r → r.stale = false → rShost r.bits = false → rDhost r.bits = false →
    rLen r.bits ≠ 0 → rLen r.bits ≤ 4096 → modRec l pos (fun x => { x with stage := 2, ran := true }) s.start = s1 →
    recOf s1 l pos = some { r with stage := 2, ran := true, moved := 0 } → rdSpace s1 l (resSpace r 0) 0 (rLen r.bits) = .ok src →
    reduceInto l { r with stage := 2, ran := true, moved := 0 } (rLen r.bits) src s1 = .ok t →
    recOf t l pos = some { r with stage := 2, ran := true, moved := 0 } → r.pos = pos →
    exec (.opReduce l pos) s = .next (perform s fun _ => finishRec l pos 0
      (modRec l pos (fun x => { x with moved := x.moved + rLen r.bits, consts := [], wrote := true }) t))) ∧
  (∀ (l pos : Nat) (r r' : Rec) (s t : State), dispatchable s l pos 6 = some r → r.stale = false → rM r.bits ≤ 128 → rN r.bits ≤ 128 → hasEngine s l = true →
    mmTile l r 0 0 (chargeHbm (rCtx r.bits) ((r.res.map fun x => x.2.1).sum) (modRec l pos (fun x => { x with stage := 2, ran := true }) s.start)) = .ok t →
    recOf (modRec l pos (fun x => { x with wrote := true }) t) l pos = some r' → r'.failed = [] →
    exec (.opMatmul l pos) s = .next (perform s fun _ => finishRec l pos 0 (modRec l pos (fun x => { x with wrote := true }) t))) ∧
  (∀ (l pos : Nat) (r : Rec) (s : State), dispatchable s l pos 7 = some r → r.stale = false → (rArg0 r.bits).testBit 16 = false →
    exec (.opSignal l pos) s = .next (perform s fun u => finishRec l pos (fld (rArg0 r.bits) 0 16)
      (modRec l pos (fun x => { x with stage := 2, ran := true }) u))) ∧
  (∀ (l pos : Nat) (r : Rec) (s : State), r.stale = true →
    (dispatchable s l pos 1 = some r → exec (.opLaunch l pos) s = .next (perform s (finishRec l pos Err.objectFreed))) ∧
    (dispatchable s l pos 6 = some r → exec (.opMatmul l pos) s = .next (perform s (finishRec l pos Err.objectFreed)))) ∧
  (∀ (l pos : Nat) (ok : Bool) (r : Rec) (s : State), recOf s l pos = some r → r.stage = 3 → r.cancel = 0 → r.ran = false → (lodeOf s l).home = true → workDone s l pos = true →
    exec (.commandEnd l pos ok) s = .next (perform s fun u => afterEnd l (rCtx r.bits) (fitWaiting (complete l pos r.error r.error ok (leaveRec l pos u)))))

/-- O28: Queues are set up, destroyed and restarted; contexts are torn down; a scrub's end releases its resource. -/
def Obligations.QueuesAndContextsTornDown : Prop :=
  (∀ (via : Via) (gid sq cq eq a b c first l : Nat) (s : State), requested via 0x0100 s → findLive s via gid = .ok l → (lodeOf s l).home = true →
    (queueOf s l).state = 0 → (lodeOf s l).pasid ≠ 0 → sq % 4096 = 0 → cq % 4096 = 0 → eq % 4096 = 0 → 6 ≤ a → a ≤ 16 → 6 ≤ b → b ≤ 16 → 4 ≤ c → c ≤ 12 →
    exec (.queueSetup via gid sq cq eq a b c first) s = .next (perform s fun u => answer via 0 [] (modQueue l (fun q => { q with
      state := 1, error := 0, eqLost := false, undeliv := false, badTail := false, sqTail := first, sqHead := first
      cqTail := 0, cqHead := 0, undelPos := 0, eqProd := 0, eqCons := 0, sqAddr := sq, cqAddr := cq, eqAddr := eq
      sqLog := a, cqLog := b, eqLog := c, mirror := [], fence := none }) u))) ∧
  (∀ (via : Via) (gid sq cq eq a b c first l : Nat) (s : State), requested via 0x0100 s → findLive s via gid = .ok l → (lodeOf s l).home = true →
    (queueOf s l).state ≠ 0 ∨ (lodeOf s l).pasid = 0 →
    exec (.queueSetup via gid sq cq eq a b c first) s = .next (perform s (answer via Err.queueState []))) ∧
  (∀ (via : Via) (gid l : Nat) (f : VFence) (s : State), requested via 0x0101 s → findLive s via gid = .ok l → (queueOf s l).state = 1 ∨ (queueOf s l).state = 2 →
    fenceFits s l f = true →
    exec (.queueDestroy via gid f) s = .next (perform s fun u => answer via 0 [] (each ((queueOf s l).recs.map (·.pos)) (fun p => cancelRec l p 1)
      (modQueue l (fun q => { q with state := 3, fence := some f }) u)))) ∧
  (∀ (l : Nat) (s : State), (queueOf s l).state = 3 → ((ctxsOf s l).any fun c => (ctxOf s c).draining) = false → (queueOf s l).recs = [] →
    exec (.queueDestroyDrained l) s = .next (perform s fun u => modQueue l (fun q => { q with
      state := 0, fence := none, recs := [], sqAddr := 0, cqAddr := 0, eqAddr := 0, tagRings := tset none (tset none q.tagRings 0 none) 1 none })
      (signalFence l (queueOf s l).fence u))) ∧
  (∀ (via : Via) (gid pos l : Nat) (s : State), requested via 0x0102 s → findLive s via gid = .ok l → (queueOf s l).state = 2 → (queueOf s l).sqHead ≤ pos →
    pos ≤ (queueOf s l).sqTail →
    exec (.queueRestart via gid pos) s = .next (perform s fun u => answer via 0 [] (readEntries l pos (queueOf s l).sqTail
      (modQueue l (fun q => { q with sqHead := pos, state := 1 }) u)))) ∧
  (∀ (via : Via) (gid pos l bits : Nat) (s : State), requested via 0x0104 s → findVia s via gid = some l →
    ((queueOf s l).mirror.find? fun m => decide (m.1 = pos)) = some (pos, bits) →
    exec (.cqMirrorRead via gid pos) s = .next (perform s (answer via 0 (le 32 bits)))) ∧
  (∀ (via : Via) (c l : Nat) (f : VFence) (s : State), requested via 0x0103 s → ctxLode s via c = .ok l → (lodeOf s l).home = true → fenceFits s l f = true →
    exec (.ctxTeardown via c f) s = .next (perform s fun u => answer via 0 [] (startTeardown c 0 (some f) u))) ∧
  (∀ (c : Nat) (s : State), (ctxOf s c).state = 3 → (ctxOf s c).draining = true →
    ((queueOf s (ctxOf s c).lode).recs.filter fun r => decide (rCtx r.bits = c)) = [] →
    exec (.ctxTeardownDrained c) s = .next (perform s fun u =>
      (fun v => quiesceNext (ctxOf s c).lode (if (schedOf v (ctxOf s c).lode).phase = 0 then decideTurn (ctxOf s c).lode v else v))
        (startScrub 200 11 c (.ctx c) (modCtx c (fun x => { x with draining := false, images := [], rdma := [], sems := [], bars := [] })
          (wipeCtx (ctxOf s c).lode c (invalidateRange (ctxOf s c).lode [c] 0 (2 ^ 55) (closeWindows c u))))))) ∧
  (∀ (id : Nat) (x : Scrub) (s : State), (s.lm.scrubs.find? fun x => decide (x.id = id)) = some x →
    exec (.scrubEnd id) s = .next (perform s fun u => startReady (afterOps (scrubRelease x.what
      (event 0x90A 1 (scrubUnit s x.what).1 (scrubUnit s x.what).2 0 0 none
        (modLm (fun m => { m with scrubs := m.scrubs.filter fun y => y.id ≠ id }) u))))))

/-- O29: Contexts are created and set, take turns, stop, switch and overrun; slices quiesce, move and resume. -/
def Obligations.ContextsScheduled : Prop :=
  (∀ (via : Via) (gid root w d m r l c : Nat) (s : State), requested via 0x0600 s → findLive s via gid = .ok l → (lodeOf s l).home = true →
    attrBad s l 4096 w d m r = false → root < 2 ^ 25 → (ctxsOf s l).length < 256 → freeCtxNo s = some c → savesShort s l 1 0 = false →
    exec (.ctxCreate via gid root w d m r) s = .next (perform s fun u => answer via 0 (enc [(2, c)])
      (modCtx c (fun _ => { state := 1, lode := l, weight := w, res := r, mask := m, defcls := d })
        (modXlCtx c (fun _ => { valid := true, lode := l, root := root }) u)))) ∧
  (∀ (via : Via) (gid root w d m r l : Nat) (s : State), requested via 0x0600 s → findLive s via gid = .ok l → (lodeOf s l).home = true →
    attrBad s l 4096 w d m r = false → root < 2 ^ 25 → 256 ≤ (ctxsOf s l).length →
    exec (.ctxCreate via gid root w d m r) s = .next (perform s (answer via Err.contextLimit []))) ∧
  (∀ (via : Via) (c dev root l : Nat) (s : State), requested via 0x0601 s → ctxLode s via c = .ok l → (ctxOf s c).state ≠ 3 → (lodeOf s l).home = true →
    dev ≠ s.dr.devid → (lodeOf s l).members.contains dev = true → root < 2 ^ 25 →
    exec (.ctxRootSet via c dev root) s = .next (perform s (emit (.control dev 2 [0x0601, viaNum via, (lodeOf s l).gid, c, root])))) ∧
  (∀ (via : Via) (c w d m r l : Nat) (s : State), requested via 0x0602 s → ctxLode s via c = .ok l → (ctxOf s c).state ≠ 3 → (lodeOf s l).home = true →
    attrBad s l c w d m r = false →
    exec (.ctxSet via c w d m r) s = .next (perform s fun u => answer via 0 [] (modCtx c (fun x => { x with newW := some (w, d, m, r) }) u))) ∧
  (∀ (via : Via) (gid n l : Nat) (more : List (Nat × Nat)) (s : State), requested via 0x0603 s → findLive s via gid = .ok l →
    s.lm.scrubs = [] → (tget [] s.lm.save l).length ≤ n →
    ((setsOf s l).flatMap fun k => (freeSlots s l k).map fun i => (k, i)).take (n - (tget [] s.lm.save l).length) = more →
    more.length = n - (tget [] s.lm.save l).length →
    exec (.schSaveReserve via gid s.dr.devid n) s = .next (perform s fun u => answer via 0 (enc [(2, n)])
      (modLm (fun m => { m with save := tset [] m.save l (tget [] s.lm.save l ++ more) }) u))) ∧
  (∀ (via : Via) (gid q i l : Nat) (s : State), requested via 0x0604 s → findLive s via gid = .ok l → 10 ≤ q → q ≤ 1000 → i ≠ 0 → i ≤ 255 →
    exec (.schLodeSet via gid q i) s = .next (perform s fun u => answer via 0 [] (modSched l (fun d => { d with quantum := q, idle := i }) u))) ∧
  (∀ (via : Via) (c l : Nat) (clear : Bool) (s : State), requested via 0x0605 s → ctxLode s via c = .ok l →
    exec (.tallyRead via false c clear) s = .next (perform s fun u => answer via 0 (tallyBytes (ctxOf s c).tally ++ le 8 (ctxOf s c).vtime)
      (if clear then modCtx c (fun x => { x with tally := {} }) u else u))) ∧
  (∀ (l c : Nat) (s : State), decides s l = true → (schedOf s l).phase = 1 → slotRes s l = none → lodeHeld s l = false →
    choose (chargeV (schedOf s l).running ((schedOf s l).quantum * 100000) s.start) l = some c → c ≠ (schedOf s l).running →
    exec (.quantumExpiry l) s = .next (perform s (preempt l c))) ∧
  (∀ (l : Nat) (s : State), decides s l = true → (schedOf s l).phase = 1 → slotRes s l = none → lodeHeld s l = false →
    choose (chargeV (schedOf s l).running ((schedOf s l).quantum * 100000) s.start) l = some (schedOf s l).running →
    exec (.quantumExpiry l) s = .next (perform s fun u => decideTurn l (chargeV (schedOf s l).running ((schedOf s l).quantum * 100000) u))) ∧
  (∀ (l c : Nat) (s : State), decides s l = true → (schedOf s l).phase = 1 → runnable s (schedOf s l).running = false →
    choose (modCtx (schedOf s l).running (fun x => { x with idle := true }) s.start) l = some c →
    exec (.idleExpiry l) s = .next (perform s fun u => preempt l c (modCtx (schedOf s l).running (fun x => { x with idle := true }) u))) ∧
  (∀ (l : Nat) (s : State), decides s l = true → hasTable s l = true → nextRes s l ≠ slotRes s l → (schedOf s l).phase = 1 →
    exec (.cyclicGuard l) s = .next (perform s (modSched l fun d => { d with phase := 2, incoming := none, guard := true }))) ∧
  (∀ (l id : Nat) (slots : List CycSlot) (s : State), (s.img.applied.cyclic.find? fun t => decide (t.1 = (lodeOf s l).cyclic)) = some (id, slots) →
    decides s l = true → (schedOf s l).phase = 2 →
    exec (.cyclicSlotStart l) s = .next (perform s (modSched l fun d => { d with
      slot := if slots.length ≤ (schedOf s l).slot + 1 then 0 else (schedOf s l).slot + 1, guard := false }))) ∧
  (∀ (l ns over' : Nat) (s : State), (schedOf s l).phase = 2 → (ctxOf s (schedOf s l).running).state ≠ 3 → stopped s l (schedOf s l).running = true →
    exec (.contextStopped l ns over') s = .next (perform s fun u => giveWay l (chargeTurn l (schedOf s l).running ns over' u))) ∧
  (∀ (l ns c : Nat) (s : State), (schedOf s l).phase = 3 → loadWaits s l = false → (schedOf s l).incoming = some c → (ctxOf s c).state = 1 → (ctxOf s c).rdma = [] →
    exec (.switchComplete l ns) s = .next (perform s fun u =>
      modCtx c (fun x => { x with state := 2, tally := { x.tally with turns := satAdd 32 x.tally.turns 1 } })
        (modSched l (fun d => { d with running := c, phase := 1 }) (applyAttrs c (modCtx c (fun x => { x with rdma := [] }) (loadCtx l c
          (modSched l (fun d => { d with switches := (d.switches + 1) % 2 ^ 32, lastNs := ns % 2 ^ 32, incoming := none, running := 0xFFF, phase := 0 }) u))))))) ∧
  (∀ (l : Nat) (s : State), (schedOf s l).phase = 2 → (schedOf s l).running ≠ 0xFFF → lodeHeld s l = false →
    exec (.overrunTeardown l) s = .next (perform s (startTeardown (schedOf s l).running Err.overrun none))) ∧
  (∀ (via : Via) (gid dl l : Nat) (s : State), requested via 0x0606 s → findLive s via gid = .ok l → (lodeOf s l).home = true → dl ≤ 10000 →
    (schedOf s l).quiesce = none → (schedOf s l).phase ≠ 4 → (schedOf s l).moving = false →
    exec (.sliceQuiesce via gid dl) s = .next (perform s fun u => quiesceNext l
      (modSched l (fun d => { d with quiesce := some (via, if dl = 0 then 100 else dl) }) u))) ∧
  (∀ (l dl : Nat) (via : Via) (s : State), (schedOf s l).quiesce = some (via, dl) → (schedOf s l).phase ≠ 0 →
    exec (.quiesceTimeout l) s = .next (perform s fun u => answer via Err.rebindTimeout [] (modSched l (fun d => { d with
      quiesce := none, phase := if d.phase = 2 ∧ d.incoming = none then 1 else d.phase }) u))) ∧
  (∀ (via : Via) (gid port l : Nat) (s : State), requested via 0x0607 s → findLive s via gid = .ok l → (lodeOf s l).home = true → port < 2 →
    port < (hostPorts s).length → (schedOf s l).phase = 4 →
    exec (.sliceMove via gid s.dr.devid port) s = .next (perform s fun u => answer via 0 [] (modSched l (fun d => { d with moving := true })
      (modLode l (fun d => { d with port := port })
        (each (ctxsOf s l) (fun c => modCtx c fun x => { x with state := if x.state = 3 then 3 else 4 }) (releaseSlice l u)))))) ∧
  (∀ (via : Via) (gid l : Nat) (s : State), requested via 0x0608 s → findLive s via gid = .ok l → (lodeOf s l).home = true → (schedOf s l).phase = 4 →
    (schedOf s l).moving = false → (queueOf s l).recs = [] → twf {} s.sch.lodes = true →
    exec (.sliceResume via gid) s = .next (perform s fun u => answer via 0 [] (decideTurn l (each (ctxsOf s l) (fun c => modCtx c fun x => { x with
      state := if x.state = 4 then 1 else x.state }) (modSched l (fun d => { d with phase := 0, moving := false }) u)))))

/-- O30: Rails come and go, chip start-up runs its sequence, HBM training ends, and timeouts restart it. -/
def Obligations.PowerComesAndChipStarts : Prop :=
  (∀ (s : State), s.chip.phase < 2 →
    exec .railsInRange s = .next (perform s fun u => modChip (fun c => { c with main := true, aux := true, startCause := 0 }) (coldState true (lampOn u)))) ∧
  (∀ (n : Nat) (s : State), 2 ≤ s.chip.phase →
    exec (.powerFailure n) s = .next (perform s fun u => modChip (fun c => { c with phase := 1, main := false, mainLow := false }) (linksDown (coldState true
      (modSec (fun k => { k with idKey := k.idKey.finishWrite, atKey := k.atKey.finishWrite }) (saveStaged n u)))))) ∧
  (∀ (a b : Bool) (s : State), 2 ≤ s.chip.phase → exec (.lampRailChange a b) s = .next (perform s (modChip fun c => { c with stby := a }))) ∧
  (∀ (a b : Bool) (s : State), s.chip.phase < 2 → a = true ∨ b = true →
    exec (.lampRailChange a b) s = .next (perform s fun u => modChip (fun c => { c with stby := a, aux := b, phase := 1 }) (lampOn u))) ∧
  (∀ (s : State), s.chip.phase < 2 →
    exec (.lampRailChange false false) s = .next (perform s fun u => modEvr (fun r => { r with staging := [], dropRun := 0 })
      (modChip (fun c => { c with stby := false, aux := false, phase := 0, alarmOut := false, thermTrip := false }) u))) ∧
  (∀ (b : Bool) (s : State), 2 ≤ s.chip.phase → exec (.mainLowChange b) s = .next (perform s (modChip fun c => { c with mainLow := b }))) ∧
  (∀ (tr : List Nat) (r : Option Nat) (s t : State), stillAt 1 s = true → s.chip.main = true → s.chip.aux = true → s.pwr.shutdown = 0 →
    bootBundle (bootFirst s.start) = (r, t) → stillAt 2 t = true →
    exec (.chipStartup tr) s = .next (perform s fun _ => match r with
      | none => bootNotice t.chip.bootErr (each (hostPorts t) linkUp (modChip (fun c => { c with phase := 4, stage := 8 }) t))
      | some n => bootOn n tr t)) ∧
  (∀ (k : Nat) (s : State), stillAt 5 s = true → s.chip.training.contains k = true → tget 0 s.chip.stackTry k = 0 →
    exec (.hbmTrainingAttemptDone k []) s = .next (perform s fun u =>
      trained (modChip (fun c => { c with training := c.training.filter (· ≠ k) }) u))) ∧
  (∀ (k i : Nat) (s : State), stillAt 5 s = true → s.chip.training.contains k = true → tget 0 s.chip.stackTry k = 0 → i < 32 →
    (pcOf s (32 * k + i)).retired = false →
    exec (.hbmTrainingAttemptDone k [i]) s = .next (perform s fun u =>
      modChip (fun c => { c with stackTry := tset 0 c.stackTry k 1, hbmTodo := tset [] c.hbmTodo k [i] }) (countFault ⟨5, 32 * k + i⟩ false 0 u))) ∧
  (∀ (k i : Nat) (s : State), stillAt 5 s = true → s.chip.training.contains k = true → tget 0 s.chip.stackTry k ≠ 0 → i < 32 →
    (pcOf s (32 * k + i)).retired = false → (tget [] s.chip.hbmTodo k).contains i = true →
    exec (.hbmTrainingAttemptDone k [i]) s = .next (perform s fun u =>
      trained (modChip (fun c => { c with training := c.training.filter (· ≠ k) }) (bootNotice 0
        (modChip (fun c => { c with pcRet := c.pcRet + 1 }) (classify ⟨5, 32 * k + i⟩ false 2 u)))))) ∧
  (∀ (s : State), s.chip.phase = 2 →
    exec .bootStepTimeout s = .next (perform s fun u => resetChip Err.hang (bootNotice Err.hang (modChip (fun c => { c with bootErr := Err.hang }) u)))) ∧
  (∀ (b : Nat) (s : State), s.chip.phase = 2 → 3 ≤ s.chip.stage → s.chip.stage ≤ 5 → (blockOf s b).state ≠ 6 →
    exec (.startupAgentTimeout b) s = .next (perform s fun u => bootNotice 0 (blockRetire b (modRas (fun r => { r with hbs := tset {} r.hbs b {} }) u)))) ∧
  (∀ (s : State), s.chip.phase ≠ 0 → s.chip.xtalFall = false →
    exec .xtalFail s = .next (perform s fun u => (fun v => if v.chip.phase = 2 then bootNotice 0 v else v)
      (modChip (fun c => { c with xtalFall := true }) (alarm 1 u))))

/-- O31: Domains gate and wake, Doze and Rest are entered and left, and the power verbs are answered. -/
def Obligations.ChipSleepsAndWakes : Prop :=
  (∀ (b : Nat) (s : State), (pblkOf s b).domain = 0 → (blockOf s b).launch = none → (blockOf s b).resetting = false → dmaOf s b = [] → (blockOf s b).lode ≠ 0x7F →
    exec (.blockRetention b) s = .next (perform s (setDomain b 2))) ∧
  (∀ (b : Nat) (s : State), (pblkOf s b).domain = 0 → (blockOf s b).launch = none → (blockOf s b).resetting = false → dmaOf s b = [] → (blockOf s b).lode = 0x7F →
    (blockOf s b).state = 0 → exec (.blockRetention b) s = .next (perform s (setDomain b 3))) ∧
  (∀ (n : Nat) (s : State), tget 0 s.pwr.bridges n = 0 →
    exec (.bridgeClockGate n) s = .next (perform s (modPwr fun p => { p with bridges := tset 0 p.bridges n 1 }))) ∧
  (∀ (b c : Nat) (s : State), (coreOf s b c).run ≠ 1 ∨ (coreOf s b c).wait ≠ .none →
    exec (.coreCellClockGate b c) s = .next (perform s (modCore b c fun k => { k with gated := true }))) ∧
  (∀ (n : Nat) (s : State), asleep s = false → n < 96 → (pblkOf s n).domain ≠ 0 → (blockOf s n).state ≠ 6 →
    exec (.domainWake 1 n) s = .next (perform s (modPblk n fun p => { p with domain := 0 }))) ∧
  (∀ (n : Nat) (s : State), asleep s = false → n < 8 → exec (.domainWake 2 n) s = .next (perform s (modPreg n fun p => { p with fabric := 0 }))) ∧
  (∀ (b c : Nat) (s : State), asleep s = false → b < 96 → c < 32 →
    exec (.domainWake 0 (b * 32 + c)) s = .next (perform s (modCore b c fun k => { k with gated := false }))) ∧
  (∀ (n : Nat) (s : State), asleep s = false →
    exec (.domainWake 3 n) s = .next (perform s (modPwr fun p => { p with bridges := tset 0 p.bridges n 0 }))) ∧
  (∀ (b e : Nat) (s : State), asleep s = false → b < 96 → e < 4 →
    exec (.domainWake 4 (b * 4 + e)) s = .next (perform s (modEngine b e fun g => { g with gated := g.retired }))) ∧
  (∀ (via : Via) (st tick : Nat) (s : State), requested via 0x0800 s → st = 1 ∨ st = 2 →
    exec (.pwrStateSet via st tick) s = .next (perform s fun u => (fun v => modPwr (fun p => { p with
      target := st, wakeAt := tick, pending := sleepBusy v, entering := !sleepBusy v }) v) (answer via 0 [] u))) ∧
  (∀ (via : Via) (tick : Nat) (s : State), requested via 0x0800 s →
    exec (.pwrStateSet via 0 tick) s = .next (perform s fun u => modPwr (fun p => { p with target := 0, wakeAt := 0, pending := false }) (answer via 0 [] u))) ∧
  (∀ (s : State), s.pwr.autoDoze ≠ 0 → s.chip.phase = 3 → asleep s = false → idleChip s = true →
    exec .autoDozeExpiry s = .next (perform s (modPwr fun p => { p with target := 1, wakeAt := 0, pending := false, entering := true }))) ∧
  (∀ (s : State), s.pwr.entering = true → allStopped s = true →
    exec .chipSleepEntry s = .next (perform s fun u => each (List.range 32) fitWidth ((fun v => modPwr (fun p => { p with
        chip := p.target, entering := false, pending := false, bridges := (List.range 7).map fun n => (n, 3) })
          (if v.pwr.target = 2 then each (List.range 8) (fun r => modRegion r fun g => { g with cache := [] }) v else v))
      (each (List.range 8) (fun r w => modPreg r (fun p => { p with fabric := w.pwr.target + 1 }) w)
        (each (List.range 96) (fun b w => setDomain b 3 (wipeBlock b w)) (each (lodes s) parkLode u)))))) ∧
  (∀ (s : State), s.pwr.chip ≠ 0 → s.pwr.entering = false → s.pwr.wakeHeld = true → s.pwr.heldWake = [] → s.pwr.heldCtl = [] →
    exec .chipWake s = .next (perform s wakeChip)) ∧
  (∀ (w : Writer) (p : Nat) (s : State), s.pwr.chip ≠ 0 → s.pwr.entering = false → s.pwr.wakeHeld = true → s.pwr.heldWake = [.drPortRetrain w p] → s.pwr.heldCtl = [] →
    exec .chipWake s = exec (.drPortRetrain w p) (perform s wakeChip)) ∧
  (∀ (s : State), s.pwr.wakeAt ≠ 0 → s.pwr.wakeAt ≤ s.chip.tick → asleep s = true →
    exec .wakeTick s = .next (perform s (modPwr fun p => { p with wakeHeld := true }))) ∧
  (∀ (p : Nat) (s : State), (portOf s p).state = 3 → asleep s = true →
    exec (.lowrateWakeEvent p) s = .next (perform s (modPwr fun w => { w with wakeHeld := true }))) ∧
  (∀ (p : Nat) (s : State), (portOf s p).state = 3 → asleep s = false → (fullPorts s).length < budget s 2 / 11 →
    exec (.lowrateWakeEvent p) s = .next (perform s (modPort p fun t => { t with state := 2, capLow := false, lanes := t.usable }))) ∧
  (∀ (k : Packet) (kind : Nat) (a : List Nat) (s : State), asleep s = false →
    exec (.controlPacketReceive k kind a) s = .next (perform s fun u => afterOps (doControl k.sdev kind a u))) ∧
  (∀ (k : Packet) (kind : Nat) (a : List Nat) (s : State), asleep s = true →
    exec (.controlPacketReceive k kind a) s = .next (perform s (modPwr fun p => { p with heldCtl := p.heldCtl ++ [(k, kind, a)], wakeHeld := true }))) ∧
  (∀ (dev : Nat) (a : List Nat) (s : State), doControl dev 3 a s = answer (viaOf (a.getD 0 0)) (a.getD 1 0) ((a.drop 2).map (BitVec.ofNat 8)) s) ∧
  (∀ (via : Via) (r pol pt : Nat) (s : State), requested via 0x0801 s → r < 8 → pol ≤ 1 → pt ≤ topPoint s →
    exec (.pwrPolicySet via r pol pt) s = .next (perform s fun u => answer via 0 [] (governAll (modPreg r (fun p => { p with policy := pol, point := pt }) u)))) ∧
  (∀ (via : Via) (s : State), carries via 0x0802 s = true →
    ∃ data, exec (.pwrQuery via) s = .next (perform s (answer via 0 data)) ∧ data.take 4 = le 4 (pwrStatus s)) ∧
  (∀ (via : Via) (s : State), requested via 0x0803 s → s.pwr.shutdown = 2 → cooled s = true →
    exec (.pwrRestart via) s = .next (perform s fun u => restart 2 (answer via 0 [] u)))

/-- O32: Operating points follow writes and the governor; power loops throttle; temperatures cap, alarm and shut down. -/
def Obligations.PointsPowerAndHeatGoverned : Prop :=
  (∀ (who : Writer) (r v : Nat) (s : State), admits who 13 s → r < 8 → v % 8 ≤ topPoint s → (isHost who = true → s.pwr.gov = false) → floorOf s r ≤ v % 8 →
    exec (.vreqWrite who r v) s = .next (perform s fun u => setVreq r (v % 8) (entered who u))) ∧
  (∀ (r v : Nat) (s : State), (pregOf s r).vreq ≠ v → setVreq r v s = modPreg r (fun p => { p with vreq := v, ramp := true, vcur := min p.vcur v }) s) ∧
  (∀ (who : Writer) (r v : Nat) (s : State), admits who 13 s → r < 8 → v % 8 ≤ topPoint s → (isHost who = true → s.pwr.gov = false) → v % 8 < floorOf s r →
    exec (.vreqWrite who r v) s = .next (perform s fun u => modPwr (fun p => { p with dvfsErr := Err.dvfsOrder, dvfsReg := true, dvfsIdx := r }) (entered who u))) ∧
  (∀ (who : Writer) (b v : Nat) (s : State), admits who 13 s → b < 96 → v % 8 ≤ topPoint s → (isHost who = true → s.pwr.gov = false) →
    sealedBlock s b = false → v % 8 ≤ (pregOf s (b / 12)).vcur →
    exec (.reqWrite who b v) s = .next (perform s fun u => modPblk b (fun p => { p with req := v % 8 }) (entered who u))) ∧
  (∀ (who : Writer) (b v : Nat) (s : State), admits who 13 s → b < 96 → v % 8 ≤ topPoint s → (isHost who = true → s.pwr.gov = false) →
    sealedBlock s b = true ∨ (pregOf s (b / 12)).vcur < v % 8 →
    exec (.reqWrite who b v) s = .next (perform s fun u => modPwr (fun p => { p with dvfsErr := Err.dvfsOrder, dvfsReg := false, dvfsIdx := b }) (entered who u))) ∧
  (∀ (r : Nat) (s : State), (pregOf s r).ramp = true →
    exec (.voltageSettled r) s = .next (perform s fun u => governRegion r (modPreg r (fun p => { p with ramp := false, vcur := p.vreq }) u))) ∧
  (∀ (b : Nat) (s : State), s.pwr.gov = true → sealedBlock s b = false → (pregOf s (b / 12)).policy = 0 → capOf s b < reqOf s b →
    exec (.governorCapFollow b) s = .next (perform s fun u => governRegion (b / 12) (modPblk b (fun p => { p with follow := true }) u))) ∧
  (∀ (ws : List Nat) (uj : Nat) (s : State), s.pwr.gov = false →
    exec (.powerSample ws uj) s = .next (perform s (modPwr fun p => { p with
      samples := (p.samples ++ [(List.range 4).map fun k => ws.getD k 0]).drop (p.samples.length + 1 - 100), energy := p.energy + uj,
      energyF := (List.range 4).foldl (fun t k => tset 0 t k (tget 0 t k + 10 * ws.getD k 0)) p.energyF }))) ∧
  (∀ (b : Bool) (s : State), s.pwr.samples ≠ [] → computeBudget s < average s 10 0 → ((bulkBlocks s).filter fun b => decide (0 < effPoint s b)) ≠ [] →
    exec (.computeLoopStep b) s = .next (perform s fun u => setThrottle 0 true (countStep 0
      (each ((bulkBlocks s).filter fun b => decide (0 < effPoint s b)) (fun b => modPblk b fun p => { p with cap := p.cap - 1 }) u)))) ∧
  (∀ (b : Bool) (s : State), s.pwr.samples ≠ [] → computeBudget s < average s 10 0 → ((bulkBlocks s).filter fun b => decide (0 < effPoint s b)) = [] →
    s.pwr.duty = false →
    exec (.computeLoopStep b) s = .next (perform s fun u => setThrottle 0 true (event 0x801 3 0 0 0 0 none (countStep 0
      (modPwr (fun p => { p with duty := true, dutyStop := false }) u))))) ∧
  (∀ (s : State), s.pwr.duty = true → exec .dutyPhaseChange s = .next (perform s (modPwr fun p => { p with dutyStop := !p.dutyStop }))) ∧
  (∀ (s : State), s.pwr.samples ≠ [] → budget s 1 < average s 10 1 → 0 < (regionOf s 0).tier3 →
    exec .memoryLoopStep s = .next (perform s fun u => setThrottle 1 true (countStep 1
      (each (List.range 8) (fun r => modRegion r fun g => { g with tier3 := (regionOf s 0).tier3 - 1 }) u)))) ∧
  (∀ (order kept full : List Nat) (s u v : State), asleep s = false → ((List.range 32).filter (portUp s)).filter (sealedPort s) = kept →
    each kept (fun p w => fitWidth p (modPort p (fun t => { t with capLow := false }) w)) s.start = u →
    ((order ++ (List.range 32).filter fun p => !order.contains p).filter fun p => !kept.contains p && (fullPorts u).contains p) = full →
    each (full.take (full.length - (budget u 2 / 11 - kept.length)))
      (fun p w => countStep 2 (fitWidth p (modPort p (fun t => { t with capLow := true }) w))) u = v →
    exec (.linkLoopStep order) s = .next (perform s fun _ => setThrottle 2 ((List.range 32).any fun p => (portOf v p).capLow) v)) ∧
  (∀ (order : List Nat) (s : State), asleep s = true → exec (.linkLoopStep order) s = .next (perform s id)) ∧
  (∀ (n r : Nat) (c : Int) (s : State), sensorRegion n = some r → -25 < c → c < 115 →
    exec (.thermalSample n c) s = .next (perform s fun u => holdRegion r (modPwr (fun p => { p with sensors := tset 0 p.sensors n c }) u))) ∧
  (∀ (n r : Nat) (c : Int) (s : State), sensorRegion n = some r → 115 ≤ c → sensorOf s n < 115 →
    exec (.thermalSample n c) s = .next (perform s fun u => overheat (holdRegion r (modPwr (fun p => { p with sensors := tset 0 p.sensors n c }) u)))) ∧
  (∀ (r : Nat) (s : State), diesOn s = true → ((regionSensors r ++ headSensors).map (sensorOf s)).any (fun c => decide (100 ≤ c)) = true → (pregOf s r).tcap ≠ 0 →
    (pregOf s r).tcap ≠ 7 →
    exec (.thermalTcapStep r) s = .next (perform s fun u => recordThermal r (modPreg r (fun p => { p with tcap := (pregOf s r).tcap - 1 }) u))) ∧
  (∀ (r : Nat) (s : State), diesOn s = true → ((regionSensors r ++ headSensors).map (sensorOf s)).any (fun c => decide (100 ≤ c)) = false →
    ((regionSensors r ++ headSensors).map (sensorOf s)).all (fun c => decide (c ≤ 97)) = true → (pregOf s r).tcap < 6 → (pregOf s r).held = false →
    exec (.thermalTcapStep r) s = .next (perform s fun u => recordThermal r (modPreg r (fun p => { p with tcap := (pregOf s r).tcap + 1 }) u))) ∧
  (∀ (s : State), tooHot s = true → diesOn s = true → s.pwr.shutdown = 0 →
    exec .thermalShutdown s = .next (perform s fun u => (fun v => each (lodes v) (fun l w => each (((queueOf w l).recs.filter fun r => r.stage = 2).map (·.pos))
        (fun p => abortRec l p Err.thermalShutdown) w) v)
      (emit (.notice 0x802 0 Err.thermalShutdown) (raiseAll 3074 (modChip (fun c => { c with thermTrip := true }) (modPwr (fun p => { p with shutdown := 1 }) u)))))) ∧
  (∀ (s : State), s.pwr.shutdown = 1 →
    exec .thermalPowerOff s = .next (perform s fun u => (fun v => modChip (fun c => { c with phase := 8 }) (modPwr (fun p => { p with
        shutdown := 2, autoRestart := v.pwr.autoRestart }) (modImg (fun i => { i with everApplied := v.img.everApplied }) (linksDown (coldState true v)))))
      (event 0x802 7 0 0 Err.thermalShutdown 0 none u))) ∧
  (∀ (s : State), s.pwr.shutdown = 2 → s.pwr.autoRestart = true → cooled s = true → exec .thermalRestart s = .next (perform s (restart 2))) ∧
  (∀ (k : Nat) (c : Int) (s : State), c < 105 →
    exec (.hbmTempReport k c) s = .next (perform s fun u => each (List.range 32) (fun i => modPc (32 * k + i) fun p => { p with refresh2 := decide (85 ≤ c) })
      (modPwr (fun p => { p with
        hbmTemps := tset 0 p.hbmTemps k c,
        tier3off := tset false p.tier3off k (if 95 ≤ c then true else if c ≤ 92 then false else tget false p.tier3off k) }) u)))

/-- O33: Reset pins hold and release the chip, cluster-memory shares are committed at safe points, and a signal trains a port. -/
def Obligations.PinsAndMemorySharesFollowed : Prop :=
  (∀ (s : State), exec (.moduleResetAssert false) s = .next (perform s fun u => holdChip (modChip (fun c => { c with mReset := true }) u))) ∧
  (∀ (s : State), exec (.moduleResetRelease false) s = .next (perform s fun u => unholdChip (modChip (fun c => { c with mReset := false }) u))) ∧
  (∀ (s : State), s.img.applied.hostMode ≠ 1 → exec (.moduleResetAssert true) s = .next (perform s fun u => holdChip (modChip (fun c => { c with perst0 := true }) u))) ∧
  (∀ (p : Nat) (s : State), s.img.applied.hostMode = 1 →
    exec (.perstAssert p) s = .next (perform s fun u => modHport p (fun h => { h with rate := 0, width := 0 }) (portDownEff p (setPerst p true u)))) ∧
  (∀ (p : Nat) (s : State), s.img.applied.hostMode = 1 → s.chip.phase = 3 →
    exec (.perstRelease p) s = .next (perform s fun u => linkUp p (setPerst p false u))) ∧
  (∀ (s : State), s.img.applied.hostMode ≠ 1 → exec (.perstRelease 0) s = .next (perform s fun u => unholdChip (setPerst 0 false u))) ∧
  (∀ (who : Writer) (b : Nat) (s : State), admits who 4 s → (isHost who = true → confBlock s b = false) → (cmaOf s b).direct = false →
    (cmaOf s b).state ≠ 1 →
    exec (.cmaCommit who b) s = .next (perform s fun u => modCma b Cma.go (wakeBlock b (entered who u)))) ∧
  (∀ (c : Cma), c.direct = false → c.state ≠ 1 → Cma.go c = { c with going := true }) ∧
  (∀ (who : Writer) (b : Nat) (v : Bool) (s : State), admits who 4 s → (isHost who = true → confBlock s b = false) →
    exec (.cmaDirectWrite who b v) s = .next (perform s fun u => modCma b (Cma.setDirect v) (wakeBlock b (entered who u)))) ∧
  (∀ (c : Cma), c.direct = false → c.pendingDirect = false → c.going = false →
    Cma.setDirect true c = { c with direct := true, state := if c.state = 1 then 0 else c.state }) ∧
  (∀ (c : Cma), c.direct = true → c.pendingDirect = false → c.hold = false → cmaOk c.live = true → Cma.setDirect false c = { c with direct := false, hold := false }) ∧
  (∀ (who : Writer) (b v : Nat) (s : State), admits who 4 s → (isHost who = true → confBlock s b = false) →
    exec (.cmaShareWrite who b v) s = .next (perform s fun u => modCma b (fun c => { c with
      shadow := v % 2 ^ 24, live := if c.direct then v % 2 ^ 24 else c.live }) (wakeBlock b (entered who u)))) ∧
  (∀ (b : Nat) (s : State), (pblkOf s b).domain = 0 → exec (.cmaSafePoint b) s = .next (perform s (modCma b Cma.safePoint))) ∧
  (∀ (c : Cma), c.direct = false → c.going = true → c.pendingDirect = false →
    Cma.safePoint c = if cmaOk c.shadow then { c with live := c.shadow, good := c.shadow, state := 2, error := 0, going := false }
      else { c with going := false, state := 1 }) ∧
  (∀ (c : Cma), c.direct = true → Cma.safePoint c = if cmaOk c.live then { c with hold := false, state := 2, error := 0, good := c.live }
      else { c with hold := true, state := 1 }) ∧
  (∀ (b l pos ctx : Nat) (s : State), (cmaOf s b).hold = true → launchOf s b = some (l, pos, ctx) →
    exec (.cmaHoldExpiry b) s = .next (perform s fun u => afterOps (endLaunch b Err.regOversub [] (addFailed l pos [(6, Err.regOversub, b, 1)]
      (modCma b (fun c => { c with live := c.good, hold := false, state := 3, error := Err.regOversub }) u))))) ∧
  (∀ (b : Nat) (s : State), (cmaOf s b).direct = false → (cmaOf s b).state = 1 → cmaOk (cmaOf s b).shadow = false →
    exec (.cmaCommitHoldExpiry b) s = .next (perform s (modCma b fun c => { c with state := 3, error := Err.regOversub }))) ∧
  (∀ (p lanes : Nat) (s : State), (portOf s p).enable = true → imagePort s p = true → (portOf s p).state = 7 → lanes % 16 &&& trainable (portOf s p) ≠ 0 →
    exec (.linkSignalDetect p lanes) s = .next (perform s (train p)))

/-- O34: Heartbeats are checked, faults counted and classified, cells, blocks, regions and the chip reset, captures end. -/
def Obligations.HangsFaultsAndResetsHandled : Prop :=
  (∀ (s : State), s.chip.phase = 3 → ((List.range 96).filter fun b => decide ((blockOf s b).state ≠ 6) && !(blockOf s b).resetting && decide ((pblkOf s b).domain = 0)) = [] →
    exec (.canaryHeartbeat [] true) s = .next (perform s (modRas fun r => { r with hf := { r.hf with on := true, count := r.hf.count + 1 } }))) ∧
  (∀ (s : State), (List.range 96).filter (watched s) = [] → s.ras.hf.on = true → s.pwr.chip ≠ 2 → (s.ras.hf.check).misses < 3 →
    exec .canaryCheck s = .next (perform s fun u => afterOps (modRas (fun r => { r with hf := r.hf.check }) u))) ∧
  (∀ (s : State), (List.range 96).filter (watched s) = [] → s.ras.hf.on = true → s.pwr.chip ≠ 2 → 3 ≤ (s.ras.hf.check).misses →
    exec .canaryCheck s = .next (perform s fun u => headframeHang (modRas (fun r => { r with hf := r.hf.check }) u))) ∧
  (∀ (u : HwUnit) (d : Nat) (s : State), u.kind ≠ 5 → exec (.unitFault u true d) s = .next (perform s fun v => afterOps (classify u true (faultsNow s u) v))) ∧
  (∀ (n d : Nat) (s : State), exec (.unitFault ⟨5, n⟩ true d) s = .next (perform s fun v => afterOps (
      if (pcOf s n).predicted || (pcOf s n).failed then v else predictPc n v))) ∧
  (∀ (n d : Nat) (s : State), d ≠ 1 → d ≠ 2 → exec (.unitFault ⟨3, n⟩ false d) s = .next (perform s fun v =>
      (fun w => afterOps (startBlockReset n (blockCause w n) true w)) (countBlockFault n 0 d v))) ∧
  (∀ (n : Nat) (s : State), exec (.unitFault ⟨3, n⟩ false 1) s = .next (perform s fun v =>
      (fun w => afterOps (startRegionReset (n / 12) (blockCause w n) true w)) (countBlockFault n 0 1 v))) ∧
  (∀ (n : Nat) (s : State), exec (.unitFault ⟨3, n⟩ false 2) s = .next (perform s fun v => afterOps (dmaFault n 2 v))) ∧
  (∀ (n d : Nat) (s : State), exec (.unitFault ⟨4, n⟩ false d) s = .next (perform s fun v => afterOps (dmaFault (96 + n) d v))) ∧
  (∀ (n d : Nat) (s : State), exec (.unitFault ⟨8, n⟩ false d) s = .next (perform s fun v => afterOps (countFault ⟨8, n⟩ true d v))) ∧
  (∀ (u : HwUnit) (s : State), (fcOf s u).deferred = true → inReset s u = false → mustWait s u = false →
    exec (.deferredRetirement u) s = .next (perform s fun v => afterOps (retireUnit u v))) ∧
  (∀ (k : Nat) (s : State), 2 ≤ s.chip.phase → tget 0 s.ras.wires k < 2 →
    exec (.wireGroupFailure k) s = .next (perform s fun u => countFault ⟨9, k⟩ false (tget 0 s.ras.wires k)
      (modRas (fun r => { r with wires := tset 0 r.wires k (tget 0 s.ras.wires k + 1) }) u))) ∧
  (∀ (k : Nat) (s : State), 2 ≤ s.chip.phase → 2 ≤ tget 0 s.ras.wires k →
    exec (.wireGroupFailure k) s = .next (perform s fun u => resetChip Err.unitRetired (event 0x903 5 9 k Err.unitRetired (tget 0 s.ras.wires k + 1) none
      (modRas (fun r => { r with unserv := true }) u)))) ∧
  (∀ (b n : Nat) (s : State), (blockOf s b).launch = none →
    exec (.cellReset b true n) s = .next (perform s fun u => emit (.notice 0x910 (b * 64 + 32 + n) (Err.domainReset + s.evr.opsec * 2 ^ 16))
      (modEngine b n (fun g => { retired := g.retired }) u))) ∧
  (∀ (b n : Nat) (s : State), (blockOf s b).launch = none →
    exec (.cellReset b false n) s = .next (perform s fun u => emit (.notice 0x910 (b * 64 + n) (Err.domainReset + s.evr.opsec * 2 ^ 16)) (modCore b n (fun _ => {}) u))) ∧
  (∀ (b c : Nat) (s : State), s.chip.phase = 3 → exec (.blockReset b c) s = .next (perform s fun u => afterOps (startBlockReset b c true u))) ∧
  (∀ (r c : Nat) (s : State), s.chip.phase = 3 → exec (.regionReset r c) s = .next (perform s fun u => afterOps (startRegionReset r c true u))) ∧
  (∀ (c : Nat) (s : State), 2 ≤ s.chip.phase → s.chip.phase ≠ 8 → exec (.chipReset c) s = .next (perform s fun u =>
      restart 1 (linksDown (event 0x907 7 0 0 c 0 none (emit (.notice 0x913 0 (c + s.evr.opsec * 2 ^ 16)) u))))) ∧
  (∀ (r : Nat) (s : State), (regionOf s r).resetting = true → exec (.resetTimeout (.region r)) s = .next (perform s (resetChip Err.domainReset))) ∧
  (∀ (b : Nat) (s : State), (blockOf s b).state ≠ 6 → 2 ≤ s.chip.phase → (s.ras.caps.find? fun c => c.blocks.contains b) = none →
    (blockOf s b).resetting = true → (regionOf s (b / 12)).resetting = false → scrubsBlock s b = false →
    exec (.blockAgentFirstHeartbeat b) s = .next (perform s fun u => afterOps (agentOn b (startScrub 200 3 b (.blockReset b) u)))) ∧
  (∀ (id : Nat) (c : Cap) (s : State), (s.ras.caps.find? fun c => decide (c.id = id)) = some c →
    exec (.captureTimeout id) s = .next (perform s fun u => afterOps (afterCapture c
      (capFinish c (some (Config.freeNat s.free, Config.freeNat (s.free + 1))) { u with free := s.free + 2 })))) ∧
  (∀ (l : Nat) (s : State), watchdogRuns s l = true → s.ras.capEn = false →
    exec (.queueWatchdogExpiry l) s = .next (perform s fun u => afterOps (each (runningRecs s l) (fun r v =>
        cancelRec l r.pos 1 (modRec l r.pos (fun x => { x with error := if x.error = 0 then Err.hang else x.error }) v))
      (modRas (fun r => { r with canHung := tset false r.canHung l true }) u)))) ∧
  (∀ (l : Nat) (s : State), exec (.watchdogDrainTimeout l) s = .next (perform s fun u => afterOps (each ((blocksOf s l).filter fun b =>
      ((queueOf s l).recs.filter fun r => decide (r.stage = 3) && decide (r.cancel = 1) && decide (r.error = Err.hang)).any fun r => r.parts.contains b)
        (fun b => startBlockReset b Err.hang true) u))) ∧
  (∀ (r : Nat) (hub : Bool) (s : State), fabricBusy s r hub = true → (pregOf s r).held = false → (pregOf s r).fabric = 0 →
    exec (.fabricWatchdogExpiry r hub) s = .next (perform s fun u => afterOps (startRegionReset r Err.hang true u))) ∧
  (∀ (via : Via) (k n : Nat) (s : State), requested via 0x0900 s → n < unitCount k → (fcOf s ⟨k, n⟩).retired = true → (fcOf s ⟨k, n⟩).count = 0 →
    exec (.rasQuery via k n) s = .next (perform s (answer via 0 (enc [(1, 2), (2, 0), (8, (fcOf s ⟨k, n⟩).last), (1, 1)])))) ∧
  (∀ (via : Via) (p a n : Nat) (s : State), requested via 0x0901 s → (hostPorts s).contains p = true → 2 ^ 20 ≤ n → n ≤ 2 ^ 30 → a % 4096 = 0 →
    exec (.rasCaptureSetup via p a n) s = .next (perform s fun u => answer via 0 [] (modHport p (fun h => { h with capAddr := a, capLen := n, capUsed := 0 }) u))) ∧
  (∀ (via : Via) (gid t l : Nat) (s : State), requested via 0x0902 s → findLive s via gid = .ok l → t ≤ 65535 →
    exec (.canSet via gid t) s = .next (perform s fun u => answer via 0 [] (modRas (fun r => { r with canTime := tset 100 r.canTime l t }) u))) ∧
  (∀ (via : Via) (b : Nat) (s : State), requested via 0x0903 s → b < 96 → s.chip.phase = 3 →
    exec (.rasReset via 1 b) s = .next (perform s fun u => afterOps (startBlockReset b Err.domainReset false (answer via 0 [] u)))) ∧
  (∀ (via : Via) (p n : Nat) (s : State), requested via 0x0904 s → p < 32 → n < 4 → portUp s p = false → training s p = false →
    (portOf s p).retired.testBit n = true →
    exec (.rasUnretire via p (2 ^ n)) s = .next (perform s fun u => answer via 0 [] (event 0x90C 5 7 (4 * p + n) 0 0 none
      (modPort p (fun t => { t with laneFail := tset 0 t.laneFail n 0 }) (modFc ⟨7, 4 * p + n⟩ (fun _ => {})
        (modPort p (fun t => { t with retired := maskOf ((lanesOf t.retired).filter fun k => !([n].contains k)) }) u)))))) ∧
  (∀ (b c : Nat) (cap : Bool) (s : State), (blockOf s b).resetting = false → (regionOf s (b / 12)).resetting = false → (blockOf s b).state ≠ 6 → b < 96 →
    startBlockReset b c cap s = (fun v => if cap && v.ras.capEn then
        modRas (fun r => { r with caps := r.caps ++ [{ id := r.capNext, blocks := [b], region := none, cause := c }], capNext := r.capNext + 1 }) v
        else resetBlockNow b c v)
      (modRas (fun r => { r with blkRst := min 0xFF (r.blkRst + 1), hbs := tset {} r.hbs b {} })
        (endOpsOnBlock b Err.domainReset (modBlock b (fun k => { k with resetting := true, cause := c })
          (rasNotice 1 b c (event 0x906 6 3 b c 0 (lodeOfUnit s ⟨3, b⟩) s))))))

/-- O35: Records are staged, programmed into pages and read; seconds count; a clear needs an answered challenge and a signature. -/
def Obligations.EventRecorderWritesAndClears : Prop :=
  (∀ (typ sev code kind num d gid : Nat) (s : State), findGid s gid = none →
    exec (.eventRecordAccept typ sev code kind num d gid) s = .next (perform s (acceptEv
      { typ := typ, sev := sev, seq := 0, ops := 0, code := code, kind := kind, num := num, detail := d, gid := gid }))) ∧
  (∀ (typ sev code kind num d gid l : Nat) (s : State), findGid s gid = some l → (lodeOf s l).conf = true →
    exec (.eventRecordAccept typ sev code kind num d gid) s = .next (perform s (acceptEv
      { typ := typ, sev := sev, seq := 0, ops := 0, code := code, kind := kind, num := num, detail := 0, gid := gid }))) ∧
  (∀ (e : Ev) (rest : List Ev) (n : Nat) (r : Evr) (s : State), s.evr.staging = e :: rest → s.chip.phase ≠ 0 → s.evr.clearing = [] → s.evr.dropRun = 0 →
    pageFor { s.evr with staging := rest } e = some (n, r) → r.dropRun = 0 →
    ∃ t, exec .eventRecordProgrammed s = .next t ∧
      t = { s with evr := { r with pages := tmod {} r.pages n fun p => { p with recs := p.recs ++ [e] } }, edits := [] }) ∧
  (∀ (e : Ev) (rest : List Ev) (s : State), s.evr.staging = e :: rest → s.chip.phase ≠ 0 → s.evr.clearing = [] →
    pageFor { s.evr with staging := rest } e = none →
    exec .eventRecordProgrammed s = .next (perform s fun u => noteDrops (modEvr (fun r => { r with dropped := min 0xFFFF (r.dropped + 1), dropRun := r.dropRun + 1 })
      (modEvr (fun r => { r with staging := rest }) u)))) ∧
  (∀ (s : State), s.chip.phase ≠ 0 → exec .opsecTick s = .next { s with
    evr := { s.evr with opsec := s.evr.opsec + 1, resEnd := if s.evr.resEnd ≤ s.evr.opsec + 1 + 64 then s.evr.opsec + 1 + 256 else s.evr.resEnd }
    edits := [] }) ∧
  (∀ (via : Via) (first off : Nat) (rs : List (Nat × Ev)) (s : State), requested via 0x0930 s → readFrom s.evr first off = .ok rs →
    exec (.evrRead via first off) s = .next (perform s (answer via 0
      (le 8 (((placeRecords rs off 4088).2.getD (s.evr.nextSeq, 0)).1 % 2 ^ 32 + ((placeRecords rs off 4088).2.getD (s.evr.nextSeq, 0)).2 % 2 ^ 16 * 2 ^ 32) ++
        (placeRecords rs off 4088).1)))) ∧
  (∀ (via : Via) (c : List Byte) (s : State), requested via 0x0931 s →
    le 8 (moduleSerial s) ++ le 4 s.evr.nextSeq ++ le 4 s.evr.pcycles ++ padTo 48 (Config.drbg s.free) = c →
    exec (.evrChallenge via) s = .next (perform s fun u => answer via 0 c (modEvr (fun r => { r with chal := some c, sig := [] }) { u with free := s.free + 1 }))) ∧
  (∀ (s : State), exec .evrChallengeLapse s = .next { s with evr := { s.evr with chal := none, sig := [] }, edits := [] }) ∧
  (∀ (via : Via) (last alg off : Nat) (bs : List Byte) (s : State), requested via 0x0932 s → alg = 1 ∨ alg = 2 → bs.length ≤ 4096 →
    off + bs.length ≤ sigLen alg → s.evr.clears.length < 254 → s.evr.clearing = [] →
    exec (.evrClear via last alg off false bs) s = .next (perform s fun u => answer via 0 [] (modEvr (fun r => { r with sig := sigPut r.sig off bs }) u))) ∧
  (∀ (via : Via) (last alg off : Nat) (bs : List Byte) (s : State), requested via 0x0932 s → alg = 1 ∨ alg = 2 → bs.length ≤ 4096 →
    off + bs.length ≤ sigLen alg → s.evr.clears.length < 254 → s.evr.clearing = [] → s.evr.chal = none →
    exec (.evrClear via last alg off true bs) s = .next (perform s fun u => answer via Err.evrAuth [] (modEvr (fun r => { r with sig := [] })
      (modEvr (fun r => { r with sig := sigPut r.sig off bs }) u)))) ∧
  (∀ (via : Via) (last alg off : Nat) (bs c sg : List Byte) (s : State), requested via 0x0932 s → alg = 1 ∨ alg = 2 → bs.length ≤ 4096 →
    off + bs.length ≤ sigLen alg → s.evr.clears.length < 254 → s.evr.clearing = [] → s.evr.chal = some c →
    sigWhole (sigPut s.evr.sig off bs) alg = some sg →
    exec (.evrClear via last alg off true bs) s = .next (perform s fun u =>
      let u := modEvr (fun r => { r with sig := [] }) (modEvr (fun r => { r with sig := sigPut r.sig off bs }) u)
      if Config.verifies alg s.sec.authKey (c ++ le 4 last) sg then acceptClear via last c u
      else sigFailed (answer via Err.evrAuth [] u))) ∧
  (∀ (s : State), s.chip.phase ≠ 0 → exec .clearErasureDone s = .next { s with
    evr := { s.evr with pages := s.evr.pages.filter fun p => !s.evr.clearing.contains p.1, clearing := [] }, edits := [] })

/-- O36: A step performs the command at the front of the queue (model's convention, log 1). -/
def Obligations.StepRunsTheCommandInFront : Prop :=
  (∀ (c : Instr) (rest : List Instr) (s : State), step { s with pending := c :: rest } = exec c { s with pending := rest }) ∧
  (∀ s : State, s.pending = [] → step s = .next s)

/-- O37: Every command answers a next state, keeps the queue and takes back nothing it sent. -/
def Obligations.EveryCommandGoesOn : Prop :=
  ∀ (c : Instr) (s : State), ∃ t, exec c s = .next t ∧ t.pending = s.pending ∧ t.edits = [] ∧ ∃ u, t.out = s.out ++ u

/-- O38: Every step keeps memory canonical and inside the chip physical address map. -/
def Obligations.EveryStepKeepsStateSound : Prop :=
  (∀ s t : State, s.sound → step s = .next t → t.sound) ∧
  (∀ (n : Nat) (s t : State), s.sound → steps n s = some t → t.sound)

/-- O39: The state after reset is sound, its queue empty, chip start-up begun. -/
def Obligations.ResetStateIsSound : Prop :=
  State.reset.sound ∧ State.reset.pending = [] ∧ State.reset.out = [] ∧ State.reset.chip.phase = 2 ∧ State.reset.chip.stage = 1 ∧
    ∀ a, readByte State.reset a = 0

/-- O40: The table gives no row bits, so no word spells a command (log 5). -/
def Obligations.NoWordSpellsACommand : Prop :=
  ∀ nbits w : Nat, decodeTableWord nbits w = none ∧ ∀ s : State, s.withFetchWord nbits w = s

/-- O41: A stored byte reads back, and a store changes no other byte. -/
def Obligations.StoredBytesReadBack : Prop :=
  (∀ (s : State) (a : Nat) (b : Byte), s.sound → populated a = true → readByte (perform s (putByte a b)) a = b) ∧
  (∀ (s : State) (a a' : Nat) (b : Byte), s.sound → a' ≠ a → readByte (perform s (putByte a b)) a' = readByte s a') ∧
  (∀ (s : State) (a a' : Nat) (b : Byte), s.sound → populated a = false → readByte (perform s (putByte a b)) a' = readByte s a') ∧
  (∀ (s : State) (a i : Nat) (bs : List Byte), s.sound → (∀ j < bs.length, populated (a + j) = true) → i < bs.length →
    readByte (perform s (putBytes a bs)) (a + i) = bs.getD i 0) ∧
  (∀ (s : State) (a a' : Nat) (bs : List Byte), s.sound → (a' < a ∨ a + bs.length ≤ a') →
    readByte (perform s (putBytes a bs)) a' = readByte s a') ∧
  (∀ (s : State) (lo n a : Nat), s.sound → lo ≤ a → a < lo + n → readByte (perform s (zeroRange lo n)) a = 0) ∧
  (∀ (s : State) (lo n a : Nat), s.sound → (a < lo ∨ lo + n ≤ a) → readByte (perform s (zeroRange lo n)) a = readByte s a) ∧
  (∀ (s : State) (a a' : Nat) (b : Byte), populated a = true →
    readByte (putByte a b s) a' = if a' = a then b else readByte s a')

/-- O42: The error codes that the chapters' rules name have the values the rules give. R58, R125, R157, R186, R213, R244, R300, R342, R391. -/
def Obligations.ErrorCodesHaveTheirValues : Prop :=
  [Err.staleEpoch, Err.rebindTimeout, Err.lodeLimit, Err.resourceBusy, Err.lodeMinimum, Err.noCapacity, Err.migrationFailed, Err.expertLocked,
    Err.lodeUnknown] = [0x0301, 0x0302, 0x0303, 0x0304, 0x0305, 0x0306, 0x0307, 0x0308, 0x0309] ∧
  [Err.meBound, Err.meOperand, Err.meTileType, Err.meDest, Err.meAbsent, Err.meFormat] = [0x0120, 0x0121, 0x0122, 0x0123, 0x0124, 0x0A20] ∧
  [Err.convPair, Err.convOverlap, Err.convShape, Err.convScale, Err.meFormat] = [0x0A01, 0x0A02, 0x0A03, 0x0A04, 0x0A20] ∧
  [Err.gcFault, Err.gcSem, Err.gcDma, Err.gcWindow, Err.kernelError, Err.extentLimit] = [0x0130, 0x0131, 0x0132, 0x0133, 0x0134, 0x0203] ∧
  [Err.memUncorrected, Err.memPoisoned] = [0x0910, 0x0911] ∧
  [Err.objectFreed, Err.faultqOverflow, Err.extentLimit, Err.xlFault, Err.xlGranule, Err.xlTable, Err.xlContext] =
    [0x0201, 0x0202, 0x0203, 0x0204, 0x0205, 0x0206, 0x0207] ∧
  [Err.regOversub, Err.reduceLost] = [0x0620, 0x0920] ∧
  [Err.winUnknown, Err.winDenied, Err.winRange, Err.drUnreachable, Err.drTimeout, Err.drLink, Err.drNoDevid] =
    [0x0401, 0x0402, 0x0403, 0x0404, 0x0405, 0x0406, 0x0407] ∧
  [Err.mbVerb, Err.mbLength, Err.genUnsettled, Err.pasidBusy, Err.aperture, Err.hostAccess, Err.confTag, Err.confKey, Err.confDenied, Err.confReplay] =
    [0x0002, 0x0003, 0x0004, 0x0005, 0x0006, 0x0007, 0x0720, 0x0721, 0x0722, 0x0723]

/-- O43: A lode memory address resolves through its granule entry to a stripe of a pseudo-channel. R193. -/
def Obligations.LodeAddressesResolve : Prop :=
  (∀ (s : State) (l a : Nat), a < 2 ^ 41 → (granOf s l (a / 2 ^ 28)).valid = false →
    resolve s l a = none ∧ ∀ m, 0 < m → rdLode s l a m = .error Err.xlGranule) ∧
  (∀ (s : State) (b l pos ctx access va : Nat), launchOf s b = some (l, pos, ctx) →
    memError b Err.xlGranule access va s = endLaunch b Err.xlGranule [] (newFault l (.memctl l) 3 0 access ctx pos va 0 s).2) ∧
  (∀ (s : State) (l a n base slot : Nat), a < 2 ^ 41 → (granOf s l (a / 2 ^ 28)).valid = true → (granOf s l (a / 2 ^ 28)).slot = slot →
    (setOf s (granOf s l (a / 2 ^ 28)).set).count = n → (setOf s (granOf s l (a / 2 ^ 28)).set).base = base →
    n = 4 ∨ n = 8 ∨ n = 16 ∨ n = 32 → slot < 8 * n →
    (∃ p, resolve s l a = some p ∧ p / 2 ^ 31 = base + (slot * 2 ^ 28 + a % 2 ^ 28) / 256 % n ∧
      p % 2 ^ 31 = (slot * 2 ^ 28 + a % 2 ^ 28) / 256 / n * 256 + (slot * 2 ^ 28 + a % 2 ^ 28) % 256) ∧
    (a % 2 ^ 28 + 256 < 2 ^ 28 → ∃ p q, resolve s l a = some p ∧ resolve s l (a + 256) = some q ∧
      q / 2 ^ 31 = base + (p / 2 ^ 31 - base + 1) % n) ∧
    (∀ i < n, ((List.range (2 ^ 20)).filter fun k =>
      decide ((resolve s l (a / 2 ^ 28 * 2 ^ 28 + 256 * k)).map (· / 2 ^ 31) = some (base + i))).length = 2 ^ 20 / n))

/-- O44: Faults of reasons 2, 3 and 4 end the launch or the record at once with the error of their reason. R234. -/
def Obligations.FaultsThatCannotResumeEndTheWork : Prop :=
  ∀ reason code : Nat, (reason = 2 ∧ code = 0x0206) ∨ (reason = 3 ∧ code = 0x0205) ∨ (reason = 4 ∧ code = 0x0204) →
  resumable reason = false ∧
  (∀ (b c : Nat) (dma : Bool) (level access va l pos : Nat) (r : Rec) (s : State), (blockOf s b).launch = some (l, pos) → recOf s l pos = some r →
    r.stage ≠ 3 → r.error = 0 →
    ∃ r', recOf (coreFault b c dma (reason, level) access va s) l pos = some r' ∧ r'.stage = 3 ∧ r'.error = code) ∧
  (∀ (l pos level va access : Nat) (r : Rec) (s : State), recOf s l pos = some r →
    translateAll s (walkAs s 96 (draw s).1 (rCtx r.bits)) (recNames s r.bits) = .error (((reason, level), va), access) →
    ∃ r', recOf (translateRec l pos s) l pos = some r' ∧ r'.stage = 3 ∧ r'.error = code)

/-- O45: One epoch is later than another by their difference modulo 2^32. R354. -/
def Obligations.EpochsComparedModulo32Bits : Prop :=
  (∀ a b : Nat, a < 2 ^ 32 → b < 2 ^ 32 → (later a b = true ↔ 1 ≤ ((a : Int) - b) % 2 ^ 32 ∧ ((a : Int) - b) % 2 ^ 32 ≤ 2 ^ 31 - 1)) ∧
  (∀ e : Nat, e < 2 ^ 32 → later ((e + 1) % 2 ^ 32) e = true ∧ later e ((e + 1) % 2 ^ 32) = false)

/-- O46: Integer elements are two's complement; an E8M0 scale is a power of two or NaN. R130, R131. -/
def Obligations.IntegerAndScaleValues : Prop :=
  (∀ (code w : Nat), (code = 10 ∧ w = 32) ∨ (code = 8 ∧ w = 8) ∨ (code = 9 ∧ w = 4) →
    (∀ (b o : Nat), b < 2 ^ w → ∃ n m, decodeElem code b o = .fin n m 0 ∧ (if n then -(m : Int) else m) = (BitVec.ofNat w b).toInt) ∧
    (∀ v : Int, -2 ^ (w - 1) ≤ v → v ≤ 2 ^ (w - 1) - 1 → ∃ b < 2 ^ w, ∀ o, decodeElem code b o = .fin (decide (v < 0)) v.natAbs 0) ∧
    (∀ (b o : Nat), b < 2 ^ w → -2 ^ (w - 1) ≤ toUnits 0 (decodeElem code b o) ∧ toUnits 0 (decodeElem code b o) ≤ 2 ^ (w - 1) - 1)) ∧
  (∀ (x o : Nat), x ≤ 0xFE → decodeElem 11 x o = .fin false 1 ((x : Int) - 127)) ∧
  (∀ o : Nat, decodeElem 11 0xFF o = .nan)

/-- O47: The value of a DLG8 element, and the table T of the eighth roots of two. R137. -/
def Obligations.Dlg8Values : Prop :=
  (∀ (c j : Nat) (q o : Int), 1 ≤ c → c ≤ 127 → j < 8 → (c : Int) - 127 = 8 * q + j →
    dlgDecode c o = .fin false (dlgT j) (q + o - 23) ∧ dlgDecode (128 + c) o = .fin true (dlgT j) (q + o - 23)) ∧
  (∀ j < 8, 2 ^ 23 ≤ dlgT j ∧ dlgT j < 2 ^ 24 ∧ (2 * dlgT j - 1) ^ 8 < 2 ^ (8 * 24 + j) ∧ 2 ^ (8 * 24 + j) < (2 * dlgT j + 1) ^ 8)

/-- O48: 4-bit elements lie two to a byte and 6-bit elements four to three bytes. R132. -/
def Obligations.NarrowElementsPacked : Prop :=
  (∀ (code n i : Nat) (bs : List Byte), code = 7 ∨ code = 9 → n ≤ 2 * bs.length →
    (2 * i < n → (unpack code n bs).getD (2 * i) 0 = (bs.getD i 0).toNat % 16) ∧
    (2 * i + 1 < n → (unpack code n bs).getD (2 * i + 1) 0 = (bs.getD i 0).toNat / 16)) ∧
  (∀ (code n i j : Nat) (bs : List Byte), code = 5 ∨ code = 6 → 3 * n ≤ 4 * bs.length → j < 4 → 4 * i + j < n →
    (unpack code n bs).getD (4 * i + j) 0 =
      ((bs.getD (3 * i) 0).toNat + (bs.getD (3 * i + 1) 0).toNat * 2 ^ 8 + (bs.getD (3 * i + 2) 0).toNat * 2 ^ 16) / 2 ^ (6 * j) % 2 ^ 6) ∧
  (∀ (code : Nat) (es : List Nat), code = 5 ∨ code = 6 ∨ code = 7 ∨ code = 9 → (∀ e ∈ es, e < 2 ^ fmtBits code) →
    unpack code es.length (pack code es) = es) ∧
  (∀ (code b o : Nat), code = 5 ∨ code = 6 ∨ code = 7 ∨ code = 9 → b < 2 ^ fmtBits code →
    (b.testBit (fmtBits code - 1) = true → (decodeElem code b o).neg = true) ∧
    (b.testBit (fmtBits code - 1) = false → (decodeElem code b o).neg = false))

/-- O49: The stochastic-rounding generator and its one draw per element. R143. -/
def Obligations.StochasticGeneratorStepsOncePerElement : Prop :=
  (∀ (n : Nat) (s0 s s1 s2 s3 : BitVec 64), s0 = BitVec.ofNat 64 n → s = (if s0 = 0 then 1 else s0) → s1 = s ^^^ (s <<< 13) →
    s2 = s1 ^^^ (s1 >>> 7) → s3 = s2 ^^^ (s2 <<< 17) → srDraw n = ((s3 >>> 48).toNat, s3.toNat)) ∧
  (∀ (code : Nat) (sat : Bool) (blk : Option Nat) (xs : List Sys2Proof.Machine.Num) (gen : Nat),
    (encodeList code 1 sat blk xs gen).2.2 = (fun g => (srDraw g).2)^[xs.length] gen ∧
    (∀ rnd, rnd ≠ 1 → (encodeList code rnd sat blk xs gen).2.2 = gen) ∧
    (∀ i < xs.length, (encodeList code 1 sat blk xs gen).1.getD i 0 =
      (encodeElem code 1 (srDraw ((fun g => (srDraw g).2)^[i] gen)).1 sat blk (xs.getD i .nan)).1))

/-- O50: A Drift port accepts the next flit in sequence and asks for a replay from the first one it has not accepted. R308. -/
def Obligations.FlitsAcceptedInSequence : Prop :=
  (∀ (p seq acked : Nat) (corrected : List Nat) (s : State), portUp s p = true → seq = (portOf s p).rxSeq →
    ∃ f : Port → Port, (∀ t : Port, (f t).rxSeq = t.rxSeq + 1 ∧ (f t).asked = false) ∧
      exec (.flitReceive p seq true corrected acked) s = .next (perform s fun u => drain p (takenDown p (modPort p f u)))) ∧
  (∀ (p seq acked : Nat) (good : Bool) (corrected : List Nat) (s : State), portUp s p = true → good = false ∨ seq ≠ (portOf s p).rxSeq →
    ∃ t, exec (.flitReceive p seq good corrected acked) s = .next t ∧
      portOf t p = { portOf s p with asked := true, laneErr := (portOf t p).laneErr } ∧
      (∀ p' ≠ p, portOf t p' = portOf s p') ∧
      t.out = s.out ++ (if (portOf s p).asked then [] else [.replayAsk p (portOf s p).rxSeq]) ∧
      t.lm = s.lm ∧ t.xl = s.xl ∧ t.noc = s.noc ∧ t.q = s.q ∧ t.evr = s.evr ∧ t.dr.rwt = s.dr.rwt)

/-- O51: A Drift link runs at version 1 when both ends support it; otherwise the port stays down with state 6 and an event. R305. -/
def Obligations.DriftVersionSettled : Prop :=
  (∀ (p lo hi dev serial peerPort lanes : Nat) (s : State), training s p = true → lo ≤ 1 → 1 ≤ hi →
    2 ≤ (lanesOf ((portOf s p).usable &&& (lanes % 16))).length →
    exec (.capabilityRecord p lo hi dev serial peerPort lanes) s = .next (perform s fun u => portRun p 1 ((portOf s p).usable &&& (lanes % 16))
      (modPort p (fun t => { t with peerDev := dev, peerPort := peerPort, peerLo := lo, peerHi := hi, peerSerial := serial }) u))) ∧
  (∀ (p lo hi dev serial peerPort lanes : Nat) (s : State), training s p = true → 1 < lo ∨ hi < 1 →
    ∃ d : Nat, d % 2 ^ 8 = 1 ∧ (lo < 2 ^ 8 → hi < 2 ^ 8 → d / 2 ^ 8 % 2 ^ 8 = 1 ∧ d / 2 ^ 16 % 2 ^ 8 = lo ∧ d / 2 ^ 24 = hi) ∧
    exec (.capabilityRecord p lo hi dev serial peerPort lanes) s = .next (perform s fun u => event 0x402 4 0 p 0 d none (portDown p 6 0
      (modPort p (fun t => { t with peerDev := dev, peerPort := peerPort, peerLo := lo, peerHi := hi, peerSerial := serial }) u)))) ∧
  (∀ (p mask : Nat) (s : State), (portOf (portRun p 1 mask s) p).version = 1) ∧
  (∀ (p err : Nat) (s : State), (portOf s p).replayBuf = [] → (portOf s p).waiting = [] → (portOf (portDown p 6 err s) p).state = 6)

/-- O52: A write of SQ_TAIL that goes back or past the ring is discarded with BAD_TAIL, one to a stopped queue without a flag. R395. -/
def Obligations.SubmissionTailGuarded : Prop :=
  (∀ (p l pos : Nat) (s : State), asleep s = false → pageLive s p l = true → (queueOf s l).state = 1 → (queueOf s l).sqTail ≤ pos →
    pos ≤ (queueOf s l).sqHead + 2 ^ (queueOf s l).sqLog →
    exec (.sqTailWrite p l pos) s = .next (perform s fun u => readEntries l (queueOf s l).sqTail pos (modQueue l (fun q => { q with sqTail := pos }) u))) ∧
  (∀ (p l pos : Nat) (s : State), asleep s = false → pageLive s p l = true → (queueOf s l).state = 1 → s.edits = [] →
    pos < (queueOf s l).sqTail ∨ (queueOf s l).sqHead + 2 ^ (queueOf s l).sqLog < pos →
    exec (.sqTailWrite p l pos) s = .next { s with q := tmod {} s.q l (fun q => { q with badTail := true }) } ∧
      queueOf { s with q := tmod {} s.q l (fun q => { q with badTail := true }) } l = { queueOf s l with badTail := true }) ∧
  (∀ (p l pos : Nat) (s : State), asleep s = false → (queueOf s l).state ≠ 1 → s.edits = [] → exec (.sqTailWrite p l pos) s = .next s)

/-- O53: A wait is met by the fence's value, or released with its error, which the record's fence and completion then carry as inherited. R408. -/
def Obligations.FenceWaitsReleaseRecords : Prop :=
  (∀ (s : State) (l a v : Nat) (bs : List Byte), a ≠ 0 → rdLode s l a 16 = .ok bs →
    (v ≤ unle bs % 2 ^ 64 → waitOne s l a v = some (0, false)) ∧
    (unle bs % 2 ^ 64 < v → unle bs / 2 ^ 64 % 2 ^ 16 ≠ 0 → (unle bs).testBit 81 = false →
      waitOne s l a v = some (unle bs / 2 ^ 64 % 2 ^ 16, true)) ∧
    (unle bs % 2 ^ 64 < v → unle bs / 2 ^ 64 % 2 ^ 16 = 0 ∨ (unle bs).testBit 81 = true → waitOne s l a v = none)) ∧
  (∀ (s : State) (l c p e : Nat) (own : Bool) (r : Rec), recOf s l p = some r → r.stage = 0 → waitsOf s l r = some (e, own) → e ≠ 0 →
    letGo l c [p] s = modRec l p (fun r => { r with stage := 3, error := e, inherited := own })
      (if e = Err.xlGranule ∧ own = false then granFault l c p (fenceRanges r) s else s)) ∧
  (∀ (q : Queue) (r : Rec) (e seq : Nat) (wrote : Bool), r.inherited = true → r.pos < 2 ^ 64 → e < 2 ^ 16 →
    completionBits q r e wrote seq / 2 ^ 48 % 2 ^ 16 = e ∧ (completionBits q r e wrote seq).testBit 5 = true) ∧
  (∀ (s : State) (l e seq : Nat) (wrote : Bool) (r : Rec), r.silent = false → r.inherited = true → e ≠ 0 → e < 2 ^ 16 →
    ∃ w, signalRec l r e e wrote seq s = fenceErr l (r.fences.getD 0 0) w
      (if r.fences.getD 0 0 = 0 then s else granFault l (rCtx r.bits) r.pos [(rSigVa r.bits, [(r.fences.getD 0 0, 16)], 4)] s) ∧ w % 2 ^ 16 = e ∧ w.testBit 19 = true ∧ w.testBit 17 = false)

/-- O54: A post raises a semaphore up to 0xFFFF_FFFF; one that would pass it sets OVF and writes one record. R279. -/
def Obligations.SemaphorePostsSaturate : Prop :=
  (∀ (p n : Nat) (s : State), n / 256 = p → p < 512 → semOf (wipePage p s) n = {} ∧ (semOf (wipePage p s) n).value = 0) ∧
  (∀ (n k tag : Nat) (rest : List (Nat × SyncMsg)) (s : State), twf {} s.noc.sems = true → (semOf s n).inflight = (tag, .post k) :: rest → (semOf s n).poisoned = false → (semOf s n).waits = [] →
    (semOf s n).value + k < 2 ^ 32 →
    exec (.semPostApply n) s = .next (perform s fun u => modSem n (fun m => { m with value := (semOf s n).value + k })
      (modSem n (fun m => { m with inflight := rest }) u))) ∧
  (∀ (n k tag : Nat) (rest : List (Nat × SyncMsg)) (s : State), twf {} s.noc.sems = true → (semOf s n).inflight = (tag, .post k) :: rest → (semOf s n).poisoned = false → (semOf s n).waits = [] →
    2 ^ 32 ≤ (semOf s n).value + k →
    exec (.semPostApply n) s = .next (perform s fun u => modSem n (fun m => { m with value := 0xFFFFFFFF })
      (event 0x90B 3 8 (n / 256) 0 (n % 256) (if (pageOf s (n / 256)).bound then some (pageOf s (n / 256)).lode else none)
        (modPage (n / 256) (fun p => { p with ovf := true }) (modSem n (fun m => { m with inflight := rest }) u)))))

/-- O55: An arbiter reads a carried deadline as the one tick of its window that agrees with it modulo 2^16. -/
def Obligations.DeadlinesReadInTheirWindow : Prop :=
  (∀ (now d : Nat), 2048 ≤ now → 0 < d → d < 2 ^ 16 →
    readDeadline now d % 2 ^ 16 = d ∧ now - 2048 ≤ readDeadline now d ∧ readDeadline now d ≤ now + 63487 ∧
    ∀ t, t % 2 ^ 16 = d → now - 2048 ≤ t → t ≤ now + 63487 → t = readDeadline now d) ∧
  (∀ now : Nat, readDeadline now 0 = 0) ∧
  (∀ (a b : ArbReq), a.dl ≠ 0 → (dueBefore a b = true ↔ b.dl = 0 ∨ a.dl < b.dl)) ∧
  (∀ (a b : ArbReq), a.dl = 0 → dueBefore a b = false)

/-- O56: A request is accepted under the two live epochs of its lode; any other tag is rejected without effect. -/
def Obligations.StaleRequestsRejected : Prop :=
  (∀ (s : State) (l tag : Nat), tag < 2 ^ 8 → (s.ut.preps.all fun p => decide (p.lode ≠ l)) = true → (s.ut.txns.all fun t => decide (t.lode ≠ l)) = true →
    (tagLive s l tag = true ↔ tag = (lodeOf s l).epoch % 2 ^ 8 ∨ ((lodeOf s l).prevLive = true ∧ tag = ((lodeOf s l).epoch + 2 ^ 32 - 1) % 2 ^ 8))) ∧
  (∀ (r : MemReq) (s : State), s.edits = [] → behind s r = false → regionClosed s r = false →
    tget 0 s.noc.buckets (lodeBucket r.master r.lode) = 0 → r.len ≤ (masterOf s r.master).tokens →
    (lodeOf s r.lode).state = 0 ∨ tagLive s r.lode r.etag = false →
    (r.retried = true → r.cmd = none) →
    ∃ t ways, exec (.memoryRequest r) s = .next t ∧ t.out = s.out ++ ways ++ [.memResp r.id Err.staleEpoch []] ∧
      (∀ o ∈ ways, ∃ vc h hs, o = .way r.master r.id vc h hs) ∧
      (r.retried = false → ∃ h, (r.id, { r with route := some h }) ∈ t.mem.retries) ∧ (r.retried = true → t.mem = s.mem) ∧
      (∀ a, readByte t a = readByte s a) ∧ t.mem = { s.mem with retries := t.mem.retries } ∧
      t.noc = { s.noc with masters := t.noc.masters, served := t.noc.served, grans := t.noc.grans } ∧
      t.lm = s.lm ∧ t.img = s.img ∧ t.cu = s.cu ∧ t.xl = s.xl ∧ t.dr = s.dr ∧ t.ut = s.ut ∧ t.hp = s.hp ∧ t.q = s.q ∧ t.sch = s.sch ∧ t.sec = s.sec ∧
      t.pwr = s.pwr ∧ t.ras = s.ras ∧ t.evr = s.evr ∧ t.chip = s.chip)

/-- O57: A verb's answer goes to the slot, the sideband, the relay or the member that issued it, and changes nothing else. -/
def Obligations.AnswersReachTheirIssuer : Prop :=
  (∀ (p n status : Nat) (data : List Byte) (s : State), (slotOf s p n).state = 1 →
    slotOf (answer (.mailbox p n) status data s) p n = { slotOf s p n with
      state := 2, rtag := (slotOf s p n).tag, rlen := data.length, rstat := status, resp := data } ∧
    ((slotOf s p n).irq = false → (answer (.mailbox p n) status data s).out = s.out) ∧
    ((slotOf s p n).irq = true → (tget (2 ^ 96) (hportOf s p).msix 3072).testBit 96 = false →
      (answer (.mailbox p n) status data s).out = s.out ++ [.msix p 3072])) ∧
  (∀ (p n status : Nat) (data : List Byte) (s : State), (slotOf s p n).state ≠ 1 → answer (.mailbox p n) status data s = s) ∧
  (∀ (status code tag : Nat) (req data : List Byte) (s : State), s.hp.side = some (code, tag, req) →
    answer .sideband status data s = { s with out := s.out ++ [.sidebandResp tag status data], hp := { s.hp with side := none } }) ∧
  (∀ (status : Nat) (data : List Byte) (s : State), answer .relay status data s = { s with out := s.out ++ [.relayResp status data] }) ∧
  (∀ (dev n status : Nat) (data : List Byte) (s : State),
    answer (.member dev n) status data s = { s with out := s.out ++ [.control dev 3 (n :: status :: data.map (·.toNat))] }) ∧
  (∀ (via : Via) (status : Nat) (data : List Byte) (s t : State), answer via status data s = t →
    t = { s with out := t.out, hp := t.hp })

/-- O58: A masked vector is kept pending, an unmasked one is sent; a lode's vectors go to the port of its slice alone. -/
def Obligations.VectorsRaised : Prop :=
  (∀ (p v : Nat) (s : State), (tget (2 ^ 96) (hportOf s p).msix v).testBit 96 = true →
    (raise p v s).out = s.out ∧ tget false (hportOf (raise p v s) p).pba v = true ∧ (∀ p' ≠ p, hportOf (raise p v s) p' = hportOf s p') ∧
    (∀ v' ≠ v, tget false (hportOf (raise p v s) p).pba v' = tget false (hportOf s p).pba v') ∧
    raise p v s = { s with hp := (raise p v s).hp }) ∧
  (∀ (p v : Nat) (s : State), (tget (2 ^ 96) (hportOf s p).msix v).testBit 96 = false → raise p v s = { s with out := s.out ++ [.msix p v] }) ∧
  (∀ (l k : Nat) (s : State), (lodeOf s l).home = true → (lodeOf s l).pasid ≠ 0 → raiseLode l k s = raise (lodeOf s l).port (32 * l + k) s) ∧
  (∀ (l k : Nat) (s : State), (lodeOf s l).home = false ∨ (lodeOf s l).pasid = 0 → raiseLode l k s = s) ∧
  (∀ (v : Nat) (s : State), s.img.applied.hostMode ≠ 1 → raiseAll v s = raise 0 v s) ∧
  (∀ (v : Nat) (s : State), s.img.applied.hostMode = 1 → raiseAll v s = raise 1 v (raise 0 v s))

/-- O59: What a core's store changes: the stored bytes, the program counter, reservations of the line, and nothing else. -/
def Obligations.CoreStoreFrame : Prop :=
  ∀ (b c w a n : Nat) (s : State), s.sound → executes b c s → w < 2 ^ 32 → w % 4 = 3 → wOp w = 0x23 → wF3 w < 4 → n = 2 ^ wF3 w → (pblkOf s b).domain = 0 →
    placeOf s b c (effAddr (coreOf s b c) (wRs1 w) (immS w)) n = .phys a → blockBase b ≤ a → a + n ≤ blockBase b + 0x1000000 → (∀ i < n, populated (a + i) = true) →
    meetsDma s b c [(false, a, n)] = false → floorHeld s a = false → ((segs a n).all fun p => !poisoned s p.1) = true →
    ∃ t, exec (.coreLoadStore b c w) s = .next t ∧
      (∀ i < n, readByte t (a + i) = (le n (xOf (coreOf s b c) (wRs2 w))).getD i 0) ∧
      (∀ a', a' < a ∨ a + n ≤ a' → readByte t a' = readByte s a') ∧
      (twf {} s.cu.cores = true →
        coreOf t b c = { coreOf s b c with
          pc := (coreOf s b c).pc + 4, instret := ((coreOf s b c).instret + 1) % 2 ^ 64, wait := .none, gated := false, resv := (coreOf t b c).resv, recent := (coreOf t b c).recent, tlb := (coreOf t b c).tlb } ∧
        ∀ b' c', b' * 32 + c' ≠ b * 32 + c → coreOf t b' c' = { coreOf s b' c' with resv := (coreOf t b' c').resv }) ∧
      t.lm = s.lm ∧ t.xl = s.xl ∧ t.noc = s.noc ∧ t.dr = s.dr ∧ t.ut = s.ut ∧ t.hp = s.hp ∧ t.q = s.q ∧ t.sch = s.sch ∧ t.sec = s.sec ∧ t.pwr = s.pwr ∧
      t.ras = s.ras ∧ t.evr = s.evr ∧ t.img = s.img ∧ t.chip = s.chip

/-- O60: The query verbs change nothing but the answer that they give. -/
def Obligations.QueriesChangeNothing : Prop :=
  ∀ (c : Instr) (s t : State), s.edits = [] →
    (∃ via, (∃ g, c = .lodeQuery via g) ∨ c = .inventory via ∨ c = .imageStatus via ∨ c = .fwStatus via ∨ (∃ k n, c = .regQuery via k n) ∨
      (∃ p, c = .drPortQuery via p) ∨ (∃ k n, c = .utQuery via k n) ∨ (∃ g p, c = .cqMirrorRead via g p) ∨ c = .pwrQuery via ∨
      (∃ k n, c = .rasQuery via k n) ∨ (∃ n, c = .vaultQuery via n) ∨ (∃ h o n, c = .assayRead via h o n) ∨ (∃ f o, c = .evrRead via f o)) →
    exec c s = .next t → t = { s with out := t.out, hp := t.hp } ∧ ∀ a, readByte t a = readByte s a
end

