-- ==== Sys2Proof/Laws/Table.lean ====
section
/-! SUPPORT. What the operations on sparse tables do: an entry written is read back, every other entry stays, and the
canonical form is kept. -/
namespace Sys2Proof.Machine
open Sys2Proof

variable {α : Type}

@[simp] theorem tget_nil (d : α) (k : Nat) : tget d [] k = d := rfl

@[simp] theorem tget_tins_same (d : α) (t : List (Nat × α)) (k : Nat) (v : α) : tget d (tins t k v) k = v := by
  induction t with
  | nil => simp [tins, tget]
  | cons h t ih =>
    obtain ⟨k', v'⟩ := h
    unfold tins
    split
    · simp [tget]
    · split
      · simp [tget]
      · simp [tget, *]

theorem tget_tins_other (d : α) (t : List (Nat × α)) {k j : Nat} (v : α) (h : j ≠ k) :
    tget d (tins t k v) j = tget d t j := by
  induction t with
  | nil => simp [tins, tget, Ne.symm h]
  | cons e t ih =>
    obtain ⟨k', v'⟩ := e
    unfold tins
    split
    · subst_vars; simp [tget, Ne.symm h]
    · split
      · simp [tget, Ne.symm h]
      · simp [tget, ih]

theorem tget_tdel_other (d : α) (t : List (Nat × α)) {k j : Nat} (h : j ≠ k) : tget d (tdel t k) j = tget d t j := by
  induction t with
  | nil => rfl
  | cons e t ih =>
    obtain ⟨k', v'⟩ := e
    unfold tdel
    split
    · subst_vars; simp [tget, Ne.symm h]
    · split
      · rfl
      · simp [tget, ih]

theorem tget_above (d : α) {k j : Nat} (t : List (Nat × α)) (h : tabove k t = true) (hj : j ≤ k) : tget d t j = d := by
  induction t with
  | nil => rfl
  | cons e t ih =>
    obtain ⟨k', v'⟩ := e
    simp only [tabove, Bool.and_eq_true, decide_eq_true_eq] at h
    simp [tget, show k' ≠ j by omega, ih h.2]

theorem tabove_mono {k j : Nat} (h : j ≤ k) (t : List (Nat × α)) (ht : tabove k t = true) : tabove j t = true := by
  induction t with
  | nil => rfl
  | cons e t ih =>
    simp only [tabove, Bool.and_eq_true, decide_eq_true_eq] at ht ⊢
    exact ⟨by omega, ih ht.2⟩

section
variable [DecidableEq α]

/-- An entry written is read back, when it is not the default. -/
theorem tget_tset_same (d : α) (t : List (Nat × α)) (k : Nat) {v : α} (h : v ≠ d) : tget d (tset d t k v) k = v := by
  simp [tset, h]

/-- The other entries stay. -/
theorem tget_tset_other (d : α) (t : List (Nat × α)) {k j : Nat} (v : α) (h : j ≠ k) : tget d (tset d t k v) j = tget d t j := by
  unfold tset
  split
  · exact tget_tdel_other d t h
  · exact tget_tins_other d t v h

theorem tget_tdel_same (d : α) (t : List (Nat × α)) (k : Nat) (h : twf d t = true) : tget d (tdel t k) k = d := by
  induction t with
  | nil => rfl
  | cons e t ih =>
    obtain ⟨k', v'⟩ := e
    simp only [twf, Bool.and_eq_true] at h
    unfold tdel
    split
    · subst_vars; exact tget_above d t h.1.2 (Nat.le_refl _)
    · split
      · simp [tget, *]; exact tget_above d t (tabove_mono (by omega) t h.1.2) (Nat.le_refl _)
      · simp [tget, *]

/-- In a table in canonical form any entry written is read back. -/
theorem tget_tset_wf (d : α) (t : List (Nat × α)) (k : Nat) (v : α) (h : twf d t = true) : tget d (tset d t k v) k = v := by
  by_cases hv : v = d
  · subst hv; simp [tset, tget_tdel_same, h]
  · exact tget_tset_same d t k hv

theorem tget_tmod_other (d : α) (t : List (Nat × α)) {k j : Nat} (f : α → α) (h : j ≠ k) : tget d (tmod d t k f) j = tget d t j :=
  tget_tset_other d t _ h

theorem tget_tmod_wf (d : α) (t : List (Nat × α)) (k : Nat) (f : α → α) (h : twf d t = true) :
    tget d (tmod d t k f) k = f (tget d t k) := tget_tset_wf d t k _ h

theorem tget_tmod_same (d : α) (t : List (Nat × α)) (k : Nat) (f : α → α) (h : f (tget d t k) ≠ d) :
    tget d (tmod d t k f) k = f (tget d t k) := tget_tset_same d t k h

omit [DecidableEq α] in
theorem tabove_tdel {k j : Nat} (t : List (Nat × α)) (h : tabove k t = true) : tabove k (tdel t j) = true := by
  induction t with
  | nil => rfl
  | cons e t ih =>
    simp only [tabove, Bool.and_eq_true, decide_eq_true_eq] at h
    unfold tdel
    split
    · exact h.2
    · split
      · simp [tabove, h]
      · simp [tabove, h, ih h.2]

omit [DecidableEq α] in
theorem tabove_tins {k j : Nat} (t : List (Nat × α)) (v : α) (h : tabove k t = true) (hj : k < j) : tabove k (tins t j v) = true := by
  induction t with
  | nil => simp [tins, tabove, hj]
  | cons e t ih =>
    simp only [tabove, Bool.and_eq_true, decide_eq_true_eq] at h
    unfold tins
    split
    · simp [tabove, hj, h]
    · split
      · simp [tabove, h, hj]
      · simp [tabove, h, ih h.2]

theorem twf_tdel (d : α) (t : List (Nat × α)) (k : Nat) (h : twf d t = true) : twf d (tdel t k) = true := by
  induction t with
  | nil => rfl
  | cons e t ih =>
    simp only [twf, Bool.and_eq_true] at h
    unfold tdel
    split
    · exact h.2
    · split
      · simp only [twf, Bool.and_eq_true]; exact h
      · simp only [twf, Bool.and_eq_true]; exact ⟨⟨h.1.1, tabove_tdel t h.1.2⟩, ih h.2⟩

theorem twf_tins (d : α) (t : List (Nat × α)) (k : Nat) {v : α} (hv : v ≠ d) (h : twf d t = true) : twf d (tins t k v) = true := by
  induction t with
  | nil => simp [tins, twf, tabove, hv]
  | cons e t ih =>
    obtain ⟨k', v'⟩ := e
    simp only [twf, Bool.and_eq_true] at h
    unfold tins
    split
    · subst_vars; simp [twf, hv, h]
    · split
      · simp only [twf, tabove, Bool.and_eq_true, decide_eq_true_eq]
        exact ⟨⟨by simp [hv], ⟨by omega, tabove_mono (by omega) t h.1.2⟩⟩, h⟩
      · simp only [twf, Bool.and_eq_true]
        exact ⟨⟨h.1.1, tabove_tins t v h.1.2 (by omega)⟩, ih h.2⟩

/-- A write keeps the canonical form. -/
theorem twf_tset (d : α) (t : List (Nat × α)) (k : Nat) (v : α) (h : twf d t = true) : twf d (tset d t k v) = true := by
  unfold tset
  split
  · exact twf_tdel d t k h
  · exact twf_tins d t k (by assumption) h

omit [DecidableEq α] in
/-- Leaving entries out keeps keys above. -/
theorem tabove_filter {k : Nat} (p : Nat × α → Bool) (t : List (Nat × α)) (h : tabove k t = true) : tabove k (t.filter p) = true := by
  induction t with
  | nil => rfl
  | cons e t ih =>
    simp only [tabove, Bool.and_eq_true, decide_eq_true_eq] at h
    by_cases he : p e = true <;> simp [List.filter, he, tabove, h, ih h.2]

/-- Leaving entries out keeps the canonical form. -/
theorem twf_filter (d : α) (p : Nat × α → Bool) (t : List (Nat × α)) (h : twf d t = true) : twf d (t.filter p) = true := by
  induction t with
  | nil => rfl
  | cons e t ih =>
    obtain ⟨k, v⟩ := e
    simp only [twf, Bool.and_eq_true] at h
    by_cases he : p (k, v) = true
    · simp only [List.filter, he, twf, Bool.and_eq_true]; exact ⟨⟨h.1.1, tabove_filter p t h.1.2⟩, ih h.2⟩
    · simp only [List.filter, he]; exact ih h.2

end

end Sys2Proof.Machine
end

