-- ==== Sys2Proof/Laws/Ops.lean ====
section
/-! SUPPORT. What the shared operations can do: a command's run, the memory it leaves, the verbs' guard. -/
namespace Sys2Proof.Machine
open Sys2Proof

/-! ### Memory -/

theorem all_tdel {α : Type} (p : Nat × α → Bool) (t : List (Nat × α)) (k : Nat) (h : t.all p = true) : (tdel t k).all p = true := by
  induction t with
  | nil => rfl
  | cons e t ih =>
    simp only [List.all_cons, Bool.and_eq_true] at h
    unfold tdel
    split
    · exact h.2
    · split
      · simp only [List.all_cons, Bool.and_eq_true]; exact h
      · simp only [List.all_cons, Bool.and_eq_true]; exact ⟨h.1, ih h.2⟩

theorem all_tins {α : Type} (p : Nat × α → Bool) (t : List (Nat × α)) (k : Nat) (v : α) (h : t.all p = true) (hv : p (k, v) = true) :
    (tins t k v).all p = true := by
  induction t with
  | nil => simp [tins, hv]
  | cons e t ih =>
    simp only [List.all_cons, Bool.and_eq_true] at h
    unfold tins
    split
    · simp [hv, h.2]
    · split
      · simp only [List.all_cons, Bool.and_eq_true]; exact ⟨hv, h⟩
      · simp only [List.all_cons, Bool.and_eq_true]; exact ⟨h.1, ih h.2⟩

theorem all_tset {α : Type} [DecidableEq α] (p : Nat × α → Bool) (d : α) (t : List (Nat × α)) (k : Nat) (v : α)
    (h : t.all p = true) (hv : p (k, v) = true) : (tset d t k v).all p = true := by
  unfold tset
  split
  · exact all_tdel p t k h
  · exact all_tins p t k v h hv

theorem all_filter {α : Type} (p q : α → Bool) (t : List α) (h : t.all p = true) : (t.filter q).all p = true := by
  simp only [List.all_eq_true, List.mem_filter] at h ⊢
  exact fun x hx => h x hx.1

/-- One change of memory keeps the canonical form. -/
theorem applyEdit_wf (e : Edit) (m : List Host.Cell) (h : Memory.wf m = true) : Memory.wf (applyEdit e m) = true := by
  cases e with
  | put a b =>
    simp only [applyEdit]
    split
    · exact twf_tset 0 m a b h
    · exact h
  | zero lo n => exact twf_filter 0 _ m h

/-- One change of memory keeps every listed byte at a populated address. -/
theorem applyEdit_inMap (e : Edit) (m : List Host.Cell) (h : Memory.inMap m = true) : Memory.inMap (applyEdit e m) = true := by
  cases e with
  | put a b =>
    simp only [applyEdit]
    split
    · exact all_tset _ 0 m a b h (by assumption)
    · exact h
  | zero lo n => exact all_filter _ _ m h

theorem applyEdits_wf (es : List Edit) (m : List Host.Cell) (h : Memory.wf m = true) : Memory.wf (applyEdits es m) = true := by
  induction es with
  | nil => exact h
  | cons e es ih => exact applyEdit_wf e _ ih

theorem applyEdits_inMap (es : List Edit) (m : List Host.Cell) (h : Memory.inMap m = true) : Memory.inMap (applyEdits es m) = true := by
  induction es with
  | nil => exact h
  | cons e es ih => exact applyEdit_inMap e _ ih

/-! ### A command's run -/

@[simp] theorem run_eq (s : State) (f : State → State) : run s f = .next (perform s f) := rfl
@[simp] theorem perform_pending (s : State) (f : State → State) : (perform s f).pending = s.pending := rfl
@[simp] theorem perform_edits (s : State) (f : State → State) : (perform s f).edits = [] := rfl

/-- What was sent before stays sent. -/
theorem perform_out (s : State) (f : State → State) : ∃ u, (perform s f).out = s.out ++ u := ⟨_, rfl⟩

/-- Two effects that agree on the state a command starts from give the same state. -/
theorem perform_congr {s : State} {f g : State → State}
    (h : f { s with out := [], edits := [] } = g { s with out := [], edits := [] }) : perform s f = perform s g := by
  unfold perform; rw [h]

/-- A command keeps memory in its canonical form and inside the address map, and leaves no store waiting. -/
theorem perform_sound {s : State} (f : State → State) (h : s.sound) : (perform s f).sound :=
  ⟨applyEdits_wf _ _ h.1, applyEdits_inMap _ _ h.2.1, rfl⟩

@[simp] theorem breakResv_nil (c : Tbl Core) : breakResv [] c = c := rfl
@[simp] theorem applyEdits_nil (m : List Host.Cell) : applyEdits [] m = m := rfl

/-- A command that stores nothing leaves every byte, and every reservation, as its effect leaves it. -/
theorem perform_quiet {s t : State} {f : State → State} (h : f { s with out := [], edits := [] } = t) (he : t.edits = []) :
    perform s f = { t with pending := s.pending, out := s.out ++ t.out, mem := { t.mem with bytes := s.mem.bytes } } := by
  subst h; unfold perform; simp [he]

/-- A verb whose request stands is carried out by a chip that is awake. -/
theorem verb_next {via : Via} {code : Nat} {s : State} (h : carries via code s = true) (ha : asleep s = false) (f : State → State) :
    verb via code s f = .next (perform s f) := by
  unfold verb
  rw [run_eq]
  congr 1
  refine perform_congr ?_
  have h' : carries via code { s with out := [], edits := [] } = true := h
  have ha' : asleep { s with out := [], edits := [] } = false := ha
  simp [h', ha']

end Sys2Proof.Machine
end

