-- ==== Sys2Proof/Laws/Regulate.lean ====
section
/-! SUPPORT. What paying for a request changes: the regulation state alone (R290, R273). -/
namespace Sys2Proof.Machine
open Sys2Proof

/-- Taking tokens changes the regulation state alone. -/
theorem bucketTake_eq (m l n : Nat) (s : State) : bucketTake m l n s = { s with noc := (bucketTake m l n s).noc } := by
  unfold bucketTake
  dsimp only
  split <;> rfl

/-- Paying for a request changes the regulation state alone. -/
theorem payReq_eq (m l cls n : Nat) (s : State) : payReq m l cls n s = { s with noc := (payReq m l cls n s).noc } := by
  unfold payReq
  dsimp only
  split
  · rw [bucketTake_eq]; rfl
  · rfl

/-- A host's access to a register changes the regulation state alone. -/
theorem entered_eq (who : Writer) (s : State) : entered who s = { s with noc := (entered who s).noc } := by
  unfold entered headAccess
  split
  · exact payReq_eq _ _ _ _ _
  · rfl

@[simp] theorem payReq_pending (m l cls n : Nat) (s : State) : (payReq m l cls n s).pending = s.pending := by rw [payReq_eq]
@[simp] theorem payReq_free (m l cls n : Nat) (s : State) : (payReq m l cls n s).free = s.free := by rw [payReq_eq]
@[simp] theorem payReq_out (m l cls n : Nat) (s : State) : (payReq m l cls n s).out = s.out := by rw [payReq_eq]
@[simp] theorem payReq_edits (m l cls n : Nat) (s : State) : (payReq m l cls n s).edits = s.edits := by rw [payReq_eq]
@[simp] theorem payReq_chip (m l cls n : Nat) (s : State) : (payReq m l cls n s).chip = s.chip := by rw [payReq_eq]
@[simp] theorem payReq_lm (m l cls n : Nat) (s : State) : (payReq m l cls n s).lm = s.lm := by rw [payReq_eq]
@[simp] theorem payReq_img (m l cls n : Nat) (s : State) : (payReq m l cls n s).img = s.img := by rw [payReq_eq]
@[simp] theorem payReq_cu (m l cls n : Nat) (s : State) : (payReq m l cls n s).cu = s.cu := by rw [payReq_eq]
@[simp] theorem payReq_mem (m l cls n : Nat) (s : State) : (payReq m l cls n s).mem = s.mem := by rw [payReq_eq]
@[simp] theorem payReq_xl (m l cls n : Nat) (s : State) : (payReq m l cls n s).xl = s.xl := by rw [payReq_eq]
@[simp] theorem payReq_dr (m l cls n : Nat) (s : State) : (payReq m l cls n s).dr = s.dr := by rw [payReq_eq]
@[simp] theorem payReq_ut (m l cls n : Nat) (s : State) : (payReq m l cls n s).ut = s.ut := by rw [payReq_eq]
@[simp] theorem payReq_hp (m l cls n : Nat) (s : State) : (payReq m l cls n s).hp = s.hp := by rw [payReq_eq]
@[simp] theorem payReq_q (m l cls n : Nat) (s : State) : (payReq m l cls n s).q = s.q := by rw [payReq_eq]
@[simp] theorem payReq_sch (m l cls n : Nat) (s : State) : (payReq m l cls n s).sch = s.sch := by rw [payReq_eq]
@[simp] theorem payReq_sec (m l cls n : Nat) (s : State) : (payReq m l cls n s).sec = s.sec := by rw [payReq_eq]
@[simp] theorem payReq_pwr (m l cls n : Nat) (s : State) : (payReq m l cls n s).pwr = s.pwr := by rw [payReq_eq]
@[simp] theorem payReq_ras (m l cls n : Nat) (s : State) : (payReq m l cls n s).ras = s.ras := by rw [payReq_eq]
@[simp] theorem payReq_evr (m l cls n : Nat) (s : State) : (payReq m l cls n s).evr = s.evr := by rw [payReq_eq]
@[simp] theorem headAccess_pending (n : Nat) (s : State) : (headAccess n s).pending = s.pending := by unfold headAccess; simp
@[simp] theorem headAccess_free (n : Nat) (s : State) : (headAccess n s).free = s.free := by unfold headAccess; simp
@[simp] theorem headAccess_out (n : Nat) (s : State) : (headAccess n s).out = s.out := by unfold headAccess; simp
@[simp] theorem headAccess_edits (n : Nat) (s : State) : (headAccess n s).edits = s.edits := by unfold headAccess; simp
@[simp] theorem headAccess_chip (n : Nat) (s : State) : (headAccess n s).chip = s.chip := by unfold headAccess; simp
@[simp] theorem headAccess_lm (n : Nat) (s : State) : (headAccess n s).lm = s.lm := by unfold headAccess; simp
@[simp] theorem headAccess_img (n : Nat) (s : State) : (headAccess n s).img = s.img := by unfold headAccess; simp
@[simp] theorem headAccess_cu (n : Nat) (s : State) : (headAccess n s).cu = s.cu := by unfold headAccess; simp
@[simp] theorem headAccess_mem (n : Nat) (s : State) : (headAccess n s).mem = s.mem := by unfold headAccess; simp
@[simp] theorem headAccess_xl (n : Nat) (s : State) : (headAccess n s).xl = s.xl := by unfold headAccess; simp
@[simp] theorem headAccess_dr (n : Nat) (s : State) : (headAccess n s).dr = s.dr := by unfold headAccess; simp
@[simp] theorem headAccess_ut (n : Nat) (s : State) : (headAccess n s).ut = s.ut := by unfold headAccess; simp
@[simp] theorem headAccess_hp (n : Nat) (s : State) : (headAccess n s).hp = s.hp := by unfold headAccess; simp
@[simp] theorem headAccess_q (n : Nat) (s : State) : (headAccess n s).q = s.q := by unfold headAccess; simp
@[simp] theorem headAccess_sch (n : Nat) (s : State) : (headAccess n s).sch = s.sch := by unfold headAccess; simp
@[simp] theorem headAccess_sec (n : Nat) (s : State) : (headAccess n s).sec = s.sec := by unfold headAccess; simp
@[simp] theorem headAccess_pwr (n : Nat) (s : State) : (headAccess n s).pwr = s.pwr := by unfold headAccess; simp
@[simp] theorem headAccess_ras (n : Nat) (s : State) : (headAccess n s).ras = s.ras := by unfold headAccess; simp
@[simp] theorem headAccess_evr (n : Nat) (s : State) : (headAccess n s).evr = s.evr := by unfold headAccess; simp
@[simp] theorem entered_pending (who : Writer) (s : State) : (entered who s).pending = s.pending := by rw [entered_eq]
@[simp] theorem entered_free (who : Writer) (s : State) : (entered who s).free = s.free := by rw [entered_eq]
@[simp] theorem entered_out (who : Writer) (s : State) : (entered who s).out = s.out := by rw [entered_eq]
@[simp] theorem entered_edits (who : Writer) (s : State) : (entered who s).edits = s.edits := by rw [entered_eq]
@[simp] theorem entered_chip (who : Writer) (s : State) : (entered who s).chip = s.chip := by rw [entered_eq]
@[simp] theorem entered_lm (who : Writer) (s : State) : (entered who s).lm = s.lm := by rw [entered_eq]
@[simp] theorem entered_img (who : Writer) (s : State) : (entered who s).img = s.img := by rw [entered_eq]
@[simp] theorem entered_cu (who : Writer) (s : State) : (entered who s).cu = s.cu := by rw [entered_eq]
@[simp] theorem entered_mem (who : Writer) (s : State) : (entered who s).mem = s.mem := by rw [entered_eq]
@[simp] theorem entered_xl (who : Writer) (s : State) : (entered who s).xl = s.xl := by rw [entered_eq]
@[simp] theorem entered_dr (who : Writer) (s : State) : (entered who s).dr = s.dr := by rw [entered_eq]
@[simp] theorem entered_ut (who : Writer) (s : State) : (entered who s).ut = s.ut := by rw [entered_eq]
@[simp] theorem entered_hp (who : Writer) (s : State) : (entered who s).hp = s.hp := by rw [entered_eq]
@[simp] theorem entered_q (who : Writer) (s : State) : (entered who s).q = s.q := by rw [entered_eq]
@[simp] theorem entered_sch (who : Writer) (s : State) : (entered who s).sch = s.sch := by rw [entered_eq]
@[simp] theorem entered_sec (who : Writer) (s : State) : (entered who s).sec = s.sec := by rw [entered_eq]
@[simp] theorem entered_pwr (who : Writer) (s : State) : (entered who s).pwr = s.pwr := by rw [entered_eq]
@[simp] theorem entered_ras (who : Writer) (s : State) : (entered who s).ras = s.ras := by rw [entered_eq]
@[simp] theorem entered_evr (who : Writer) (s : State) : (entered who s).evr = s.evr := by rw [entered_eq]

/-- What an access takes does not depend on what the command has sent or stored so far. -/
theorem headAccess_start (n : Nat) (s : State) : headAccess n s.start = (headAccess n s).start := by
  unfold headAccess payReq bucketTake
  dsimp only
  have h : bucketHas s.start 160 0x7F n = bucketHas s 160 0x7F n := rfl
  have h2 : tget 0 s.start.noc.buckets (lodeBucket 160 0x7F) = tget 0 s.noc.buckets (lodeBucket 160 0x7F) := rfl
  rw [h, h2]
  split
  · split <;> rfl
  · rfl

/-- Firmware, Lamp and the blocks reach the registers without a request. -/
theorem entered_of_not_host {who : Writer} (h : isHost who = false) (s : State) : entered who s = s := by simp [entered, h]

end Sys2Proof.Machine
end

