-- ==== Sys2Proof/Laws/State.lean ====
section
/-! SUPPORT. One lemma per field and update: what each named update of the state leaves as it was. -/
namespace Sys2Proof.Machine
open Sys2Proof

@[simp] theorem modLode_pending (l : Nat) (f : Lode → Lode) (s : State) : (modLode l f s).pending = s.pending := rfl
@[simp] theorem modLode_free (l : Nat) (f : Lode → Lode) (s : State) : (modLode l f s).free = s.free := rfl
@[simp] theorem modLode_out (l : Nat) (f : Lode → Lode) (s : State) : (modLode l f s).out = s.out := rfl
@[simp] theorem modLode_edits (l : Nat) (f : Lode → Lode) (s : State) : (modLode l f s).edits = s.edits := rfl
@[simp] theorem modLode_chip (l : Nat) (f : Lode → Lode) (s : State) : (modLode l f s).chip = s.chip := rfl
@[simp] theorem modLode_img (l : Nat) (f : Lode → Lode) (s : State) : (modLode l f s).img = s.img := rfl
@[simp] theorem modLode_cu (l : Nat) (f : Lode → Lode) (s : State) : (modLode l f s).cu = s.cu := rfl
@[simp] theorem modLode_mem (l : Nat) (f : Lode → Lode) (s : State) : (modLode l f s).mem = s.mem := rfl
@[simp] theorem modLode_xl (l : Nat) (f : Lode → Lode) (s : State) : (modLode l f s).xl = s.xl := rfl
@[simp] theorem modLode_noc (l : Nat) (f : Lode → Lode) (s : State) : (modLode l f s).noc = s.noc := rfl
@[simp] theorem modLode_dr (l : Nat) (f : Lode → Lode) (s : State) : (modLode l f s).dr = s.dr := rfl
@[simp] theorem modLode_ut (l : Nat) (f : Lode → Lode) (s : State) : (modLode l f s).ut = s.ut := rfl
@[simp] theorem modLode_hp (l : Nat) (f : Lode → Lode) (s : State) : (modLode l f s).hp = s.hp := rfl
@[simp] theorem modLode_q (l : Nat) (f : Lode → Lode) (s : State) : (modLode l f s).q = s.q := rfl
@[simp] theorem modLode_sch (l : Nat) (f : Lode → Lode) (s : State) : (modLode l f s).sch = s.sch := rfl
@[simp] theorem modLode_sec (l : Nat) (f : Lode → Lode) (s : State) : (modLode l f s).sec = s.sec := rfl
@[simp] theorem modLode_pwr (l : Nat) (f : Lode → Lode) (s : State) : (modLode l f s).pwr = s.pwr := rfl
@[simp] theorem modLode_ras (l : Nat) (f : Lode → Lode) (s : State) : (modLode l f s).ras = s.ras := rfl
@[simp] theorem modLode_evr (l : Nat) (f : Lode → Lode) (s : State) : (modLode l f s).evr = s.evr := rfl
@[simp] theorem modBlock_pending (b : Nat) (f : Block → Block) (s : State) : (modBlock b f s).pending = s.pending := rfl
@[simp] theorem modBlock_free (b : Nat) (f : Block → Block) (s : State) : (modBlock b f s).free = s.free := rfl
@[simp] theorem modBlock_out (b : Nat) (f : Block → Block) (s : State) : (modBlock b f s).out = s.out := rfl
@[simp] theorem modBlock_edits (b : Nat) (f : Block → Block) (s : State) : (modBlock b f s).edits = s.edits := rfl
@[simp] theorem modBlock_chip (b : Nat) (f : Block → Block) (s : State) : (modBlock b f s).chip = s.chip := rfl
@[simp] theorem modBlock_img (b : Nat) (f : Block → Block) (s : State) : (modBlock b f s).img = s.img := rfl
@[simp] theorem modBlock_cu (b : Nat) (f : Block → Block) (s : State) : (modBlock b f s).cu = s.cu := rfl
@[simp] theorem modBlock_mem (b : Nat) (f : Block → Block) (s : State) : (modBlock b f s).mem = s.mem := rfl
@[simp] theorem modBlock_xl (b : Nat) (f : Block → Block) (s : State) : (modBlock b f s).xl = s.xl := rfl
@[simp] theorem modBlock_noc (b : Nat) (f : Block → Block) (s : State) : (modBlock b f s).noc = s.noc := rfl
@[simp] theorem modBlock_dr (b : Nat) (f : Block → Block) (s : State) : (modBlock b f s).dr = s.dr := rfl
@[simp] theorem modBlock_ut (b : Nat) (f : Block → Block) (s : State) : (modBlock b f s).ut = s.ut := rfl
@[simp] theorem modBlock_hp (b : Nat) (f : Block → Block) (s : State) : (modBlock b f s).hp = s.hp := rfl
@[simp] theorem modBlock_q (b : Nat) (f : Block → Block) (s : State) : (modBlock b f s).q = s.q := rfl
@[simp] theorem modBlock_sch (b : Nat) (f : Block → Block) (s : State) : (modBlock b f s).sch = s.sch := rfl
@[simp] theorem modBlock_sec (b : Nat) (f : Block → Block) (s : State) : (modBlock b f s).sec = s.sec := rfl
@[simp] theorem modBlock_pwr (b : Nat) (f : Block → Block) (s : State) : (modBlock b f s).pwr = s.pwr := rfl
@[simp] theorem modBlock_ras (b : Nat) (f : Block → Block) (s : State) : (modBlock b f s).ras = s.ras := rfl
@[simp] theorem modBlock_evr (b : Nat) (f : Block → Block) (s : State) : (modBlock b f s).evr = s.evr := rfl
@[simp] theorem modSet_pending (n : Nat) (f : ISet → ISet) (s : State) : (modSet n f s).pending = s.pending := rfl
@[simp] theorem modSet_free (n : Nat) (f : ISet → ISet) (s : State) : (modSet n f s).free = s.free := rfl
@[simp] theorem modSet_out (n : Nat) (f : ISet → ISet) (s : State) : (modSet n f s).out = s.out := rfl
@[simp] theorem modSet_edits (n : Nat) (f : ISet → ISet) (s : State) : (modSet n f s).edits = s.edits := rfl
@[simp] theorem modSet_chip (n : Nat) (f : ISet → ISet) (s : State) : (modSet n f s).chip = s.chip := rfl
@[simp] theorem modSet_img (n : Nat) (f : ISet → ISet) (s : State) : (modSet n f s).img = s.img := rfl
@[simp] theorem modSet_cu (n : Nat) (f : ISet → ISet) (s : State) : (modSet n f s).cu = s.cu := rfl
@[simp] theorem modSet_mem (n : Nat) (f : ISet → ISet) (s : State) : (modSet n f s).mem = s.mem := rfl
@[simp] theorem modSet_xl (n : Nat) (f : ISet → ISet) (s : State) : (modSet n f s).xl = s.xl := rfl
@[simp] theorem modSet_noc (n : Nat) (f : ISet → ISet) (s : State) : (modSet n f s).noc = s.noc := rfl
@[simp] theorem modSet_dr (n : Nat) (f : ISet → ISet) (s : State) : (modSet n f s).dr = s.dr := rfl
@[simp] theorem modSet_ut (n : Nat) (f : ISet → ISet) (s : State) : (modSet n f s).ut = s.ut := rfl
@[simp] theorem modSet_hp (n : Nat) (f : ISet → ISet) (s : State) : (modSet n f s).hp = s.hp := rfl
@[simp] theorem modSet_q (n : Nat) (f : ISet → ISet) (s : State) : (modSet n f s).q = s.q := rfl
@[simp] theorem modSet_sch (n : Nat) (f : ISet → ISet) (s : State) : (modSet n f s).sch = s.sch := rfl
@[simp] theorem modSet_sec (n : Nat) (f : ISet → ISet) (s : State) : (modSet n f s).sec = s.sec := rfl
@[simp] theorem modSet_pwr (n : Nat) (f : ISet → ISet) (s : State) : (modSet n f s).pwr = s.pwr := rfl
@[simp] theorem modSet_ras (n : Nat) (f : ISet → ISet) (s : State) : (modSet n f s).ras = s.ras := rfl
@[simp] theorem modSet_evr (n : Nat) (f : ISet → ISet) (s : State) : (modSet n f s).evr = s.evr := rfl
@[simp] theorem modGran_pending (l : Nat) (g : Nat) (f : Granule → Granule) (s : State) : (modGran l g f s).pending = s.pending := rfl
@[simp] theorem modGran_free (l : Nat) (g : Nat) (f : Granule → Granule) (s : State) : (modGran l g f s).free = s.free := rfl
@[simp] theorem modGran_out (l : Nat) (g : Nat) (f : Granule → Granule) (s : State) : (modGran l g f s).out = s.out := rfl
@[simp] theorem modGran_edits (l : Nat) (g : Nat) (f : Granule → Granule) (s : State) : (modGran l g f s).edits = s.edits := rfl
@[simp] theorem modGran_chip (l : Nat) (g : Nat) (f : Granule → Granule) (s : State) : (modGran l g f s).chip = s.chip := rfl
@[simp] theorem modGran_img (l : Nat) (g : Nat) (f : Granule → Granule) (s : State) : (modGran l g f s).img = s.img := rfl
@[simp] theorem modGran_cu (l : Nat) (g : Nat) (f : Granule → Granule) (s : State) : (modGran l g f s).cu = s.cu := rfl
@[simp] theorem modGran_mem (l : Nat) (g : Nat) (f : Granule → Granule) (s : State) : (modGran l g f s).mem = s.mem := rfl
@[simp] theorem modGran_xl (l : Nat) (g : Nat) (f : Granule → Granule) (s : State) : (modGran l g f s).xl = s.xl := rfl
@[simp] theorem modGran_noc (l : Nat) (g : Nat) (f : Granule → Granule) (s : State) : (modGran l g f s).noc = s.noc := rfl
@[simp] theorem modGran_dr (l : Nat) (g : Nat) (f : Granule → Granule) (s : State) : (modGran l g f s).dr = s.dr := rfl
@[simp] theorem modGran_ut (l : Nat) (g : Nat) (f : Granule → Granule) (s : State) : (modGran l g f s).ut = s.ut := rfl
@[simp] theorem modGran_hp (l : Nat) (g : Nat) (f : Granule → Granule) (s : State) : (modGran l g f s).hp = s.hp := rfl
@[simp] theorem modGran_q (l : Nat) (g : Nat) (f : Granule → Granule) (s : State) : (modGran l g f s).q = s.q := rfl
@[simp] theorem modGran_sch (l : Nat) (g : Nat) (f : Granule → Granule) (s : State) : (modGran l g f s).sch = s.sch := rfl
@[simp] theorem modGran_sec (l : Nat) (g : Nat) (f : Granule → Granule) (s : State) : (modGran l g f s).sec = s.sec := rfl
@[simp] theorem modGran_pwr (l : Nat) (g : Nat) (f : Granule → Granule) (s : State) : (modGran l g f s).pwr = s.pwr := rfl
@[simp] theorem modGran_ras (l : Nat) (g : Nat) (f : Granule → Granule) (s : State) : (modGran l g f s).ras = s.ras := rfl
@[simp] theorem modGran_evr (l : Nat) (g : Nat) (f : Granule → Granule) (s : State) : (modGran l g f s).evr = s.evr := rfl
@[simp] theorem setCredit_pending (l : Nat) (p : Nat) (v : Nat) (s : State) : (setCredit l p v s).pending = s.pending := rfl
@[simp] theorem setCredit_free (l : Nat) (p : Nat) (v : Nat) (s : State) : (setCredit l p v s).free = s.free := rfl
@[simp] theorem setCredit_out (l : Nat) (p : Nat) (v : Nat) (s : State) : (setCredit l p v s).out = s.out := rfl
@[simp] theorem setCredit_edits (l : Nat) (p : Nat) (v : Nat) (s : State) : (setCredit l p v s).edits = s.edits := rfl
@[simp] theorem setCredit_chip (l : Nat) (p : Nat) (v : Nat) (s : State) : (setCredit l p v s).chip = s.chip := rfl
@[simp] theorem setCredit_img (l : Nat) (p : Nat) (v : Nat) (s : State) : (setCredit l p v s).img = s.img := rfl
@[simp] theorem setCredit_cu (l : Nat) (p : Nat) (v : Nat) (s : State) : (setCredit l p v s).cu = s.cu := rfl
@[simp] theorem setCredit_mem (l : Nat) (p : Nat) (v : Nat) (s : State) : (setCredit l p v s).mem = s.mem := rfl
@[simp] theorem setCredit_xl (l : Nat) (p : Nat) (v : Nat) (s : State) : (setCredit l p v s).xl = s.xl := rfl
@[simp] theorem setCredit_noc (l : Nat) (p : Nat) (v : Nat) (s : State) : (setCredit l p v s).noc = s.noc := rfl
@[simp] theorem setCredit_dr (l : Nat) (p : Nat) (v : Nat) (s : State) : (setCredit l p v s).dr = s.dr := rfl
@[simp] theorem setCredit_ut (l : Nat) (p : Nat) (v : Nat) (s : State) : (setCredit l p v s).ut = s.ut := rfl
@[simp] theorem setCredit_hp (l : Nat) (p : Nat) (v : Nat) (s : State) : (setCredit l p v s).hp = s.hp := rfl
@[simp] theorem setCredit_q (l : Nat) (p : Nat) (v : Nat) (s : State) : (setCredit l p v s).q = s.q := rfl
@[simp] theorem setCredit_sch (l : Nat) (p : Nat) (v : Nat) (s : State) : (setCredit l p v s).sch = s.sch := rfl
@[simp] theorem setCredit_sec (l : Nat) (p : Nat) (v : Nat) (s : State) : (setCredit l p v s).sec = s.sec := rfl
@[simp] theorem setCredit_pwr (l : Nat) (p : Nat) (v : Nat) (s : State) : (setCredit l p v s).pwr = s.pwr := rfl
@[simp] theorem setCredit_ras (l : Nat) (p : Nat) (v : Nat) (s : State) : (setCredit l p v s).ras = s.ras := rfl
@[simp] theorem setCredit_evr (l : Nat) (p : Nat) (v : Nat) (s : State) : (setCredit l p v s).evr = s.evr := rfl
@[simp] theorem modLm_pending (f : LodeMap → LodeMap) (s : State) : (modLm f s).pending = s.pending := rfl
@[simp] theorem modLm_free (f : LodeMap → LodeMap) (s : State) : (modLm f s).free = s.free := rfl
@[simp] theorem modLm_out (f : LodeMap → LodeMap) (s : State) : (modLm f s).out = s.out := rfl
@[simp] theorem modLm_edits (f : LodeMap → LodeMap) (s : State) : (modLm f s).edits = s.edits := rfl
@[simp] theorem modLm_chip (f : LodeMap → LodeMap) (s : State) : (modLm f s).chip = s.chip := rfl
@[simp] theorem modLm_img (f : LodeMap → LodeMap) (s : State) : (modLm f s).img = s.img := rfl
@[simp] theorem modLm_cu (f : LodeMap → LodeMap) (s : State) : (modLm f s).cu = s.cu := rfl
@[simp] theorem modLm_mem (f : LodeMap → LodeMap) (s : State) : (modLm f s).mem = s.mem := rfl
@[simp] theorem modLm_xl (f : LodeMap → LodeMap) (s : State) : (modLm f s).xl = s.xl := rfl
@[simp] theorem modLm_noc (f : LodeMap → LodeMap) (s : State) : (modLm f s).noc = s.noc := rfl
@[simp] theorem modLm_dr (f : LodeMap → LodeMap) (s : State) : (modLm f s).dr = s.dr := rfl
@[simp] theorem modLm_ut (f : LodeMap → LodeMap) (s : State) : (modLm f s).ut = s.ut := rfl
@[simp] theorem modLm_hp (f : LodeMap → LodeMap) (s : State) : (modLm f s).hp = s.hp := rfl
@[simp] theorem modLm_q (f : LodeMap → LodeMap) (s : State) : (modLm f s).q = s.q := rfl
@[simp] theorem modLm_sch (f : LodeMap → LodeMap) (s : State) : (modLm f s).sch = s.sch := rfl
@[simp] theorem modLm_sec (f : LodeMap → LodeMap) (s : State) : (modLm f s).sec = s.sec := rfl
@[simp] theorem modLm_pwr (f : LodeMap → LodeMap) (s : State) : (modLm f s).pwr = s.pwr := rfl
@[simp] theorem modLm_ras (f : LodeMap → LodeMap) (s : State) : (modLm f s).ras = s.ras := rfl
@[simp] theorem modLm_evr (f : LodeMap → LodeMap) (s : State) : (modLm f s).evr = s.evr := rfl
@[simp] theorem modEngine_pending (b : Nat) (e : Nat) (f : Engine → Engine) (s : State) : (modEngine b e f s).pending = s.pending := rfl
@[simp] theorem modEngine_free (b : Nat) (e : Nat) (f : Engine → Engine) (s : State) : (modEngine b e f s).free = s.free := rfl
@[simp] theorem modEngine_out (b : Nat) (e : Nat) (f : Engine → Engine) (s : State) : (modEngine b e f s).out = s.out := rfl
@[simp] theorem modEngine_edits (b : Nat) (e : Nat) (f : Engine → Engine) (s : State) : (modEngine b e f s).edits = s.edits := rfl
@[simp] theorem modEngine_chip (b : Nat) (e : Nat) (f : Engine → Engine) (s : State) : (modEngine b e f s).chip = s.chip := rfl
@[simp] theorem modEngine_lm (b : Nat) (e : Nat) (f : Engine → Engine) (s : State) : (modEngine b e f s).lm = s.lm := rfl
@[simp] theorem modEngine_img (b : Nat) (e : Nat) (f : Engine → Engine) (s : State) : (modEngine b e f s).img = s.img := rfl
@[simp] theorem modEngine_mem (b : Nat) (e : Nat) (f : Engine → Engine) (s : State) : (modEngine b e f s).mem = s.mem := rfl
@[simp] theorem modEngine_xl (b : Nat) (e : Nat) (f : Engine → Engine) (s : State) : (modEngine b e f s).xl = s.xl := rfl
@[simp] theorem modEngine_noc (b : Nat) (e : Nat) (f : Engine → Engine) (s : State) : (modEngine b e f s).noc = s.noc := rfl
@[simp] theorem modEngine_dr (b : Nat) (e : Nat) (f : Engine → Engine) (s : State) : (modEngine b e f s).dr = s.dr := rfl
@[simp] theorem modEngine_ut (b : Nat) (e : Nat) (f : Engine → Engine) (s : State) : (modEngine b e f s).ut = s.ut := rfl
@[simp] theorem modEngine_hp (b : Nat) (e : Nat) (f : Engine → Engine) (s : State) : (modEngine b e f s).hp = s.hp := rfl
@[simp] theorem modEngine_q (b : Nat) (e : Nat) (f : Engine → Engine) (s : State) : (modEngine b e f s).q = s.q := rfl
@[simp] theorem modEngine_sch (b : Nat) (e : Nat) (f : Engine → Engine) (s : State) : (modEngine b e f s).sch = s.sch := rfl
@[simp] theorem modEngine_sec (b : Nat) (e : Nat) (f : Engine → Engine) (s : State) : (modEngine b e f s).sec = s.sec := rfl
@[simp] theorem modEngine_pwr (b : Nat) (e : Nat) (f : Engine → Engine) (s : State) : (modEngine b e f s).pwr = s.pwr := rfl
@[simp] theorem modEngine_ras (b : Nat) (e : Nat) (f : Engine → Engine) (s : State) : (modEngine b e f s).ras = s.ras := rfl
@[simp] theorem modEngine_evr (b : Nat) (e : Nat) (f : Engine → Engine) (s : State) : (modEngine b e f s).evr = s.evr := rfl
@[simp] theorem modCore_pending (b : Nat) (c : Nat) (f : Core → Core) (s : State) : (modCore b c f s).pending = s.pending := rfl
@[simp] theorem modCore_free (b : Nat) (c : Nat) (f : Core → Core) (s : State) : (modCore b c f s).free = s.free := rfl
@[simp] theorem modCore_out (b : Nat) (c : Nat) (f : Core → Core) (s : State) : (modCore b c f s).out = s.out := rfl
@[simp] theorem modCore_edits (b : Nat) (c : Nat) (f : Core → Core) (s : State) : (modCore b c f s).edits = s.edits := rfl
@[simp] theorem modCore_chip (b : Nat) (c : Nat) (f : Core → Core) (s : State) : (modCore b c f s).chip = s.chip := rfl
@[simp] theorem modCore_lm (b : Nat) (c : Nat) (f : Core → Core) (s : State) : (modCore b c f s).lm = s.lm := rfl
@[simp] theorem modCore_img (b : Nat) (c : Nat) (f : Core → Core) (s : State) : (modCore b c f s).img = s.img := rfl
@[simp] theorem modCore_mem (b : Nat) (c : Nat) (f : Core → Core) (s : State) : (modCore b c f s).mem = s.mem := rfl
@[simp] theorem modCore_xl (b : Nat) (c : Nat) (f : Core → Core) (s : State) : (modCore b c f s).xl = s.xl := rfl
@[simp] theorem modCore_noc (b : Nat) (c : Nat) (f : Core → Core) (s : State) : (modCore b c f s).noc = s.noc := rfl
@[simp] theorem modCore_dr (b : Nat) (c : Nat) (f : Core → Core) (s : State) : (modCore b c f s).dr = s.dr := rfl
@[simp] theorem modCore_ut (b : Nat) (c : Nat) (f : Core → Core) (s : State) : (modCore b c f s).ut = s.ut := rfl
@[simp] theorem modCore_hp (b : Nat) (c : Nat) (f : Core → Core) (s : State) : (modCore b c f s).hp = s.hp := rfl
@[simp] theorem modCore_q (b : Nat) (c : Nat) (f : Core → Core) (s : State) : (modCore b c f s).q = s.q := rfl
@[simp] theorem modCore_sch (b : Nat) (c : Nat) (f : Core → Core) (s : State) : (modCore b c f s).sch = s.sch := rfl
@[simp] theorem modCore_sec (b : Nat) (c : Nat) (f : Core → Core) (s : State) : (modCore b c f s).sec = s.sec := rfl
@[simp] theorem modCore_pwr (b : Nat) (c : Nat) (f : Core → Core) (s : State) : (modCore b c f s).pwr = s.pwr := rfl
@[simp] theorem modCore_ras (b : Nat) (c : Nat) (f : Core → Core) (s : State) : (modCore b c f s).ras = s.ras := rfl
@[simp] theorem modCore_evr (b : Nat) (c : Nat) (f : Core → Core) (s : State) : (modCore b c f s).evr = s.evr := rfl
@[simp] theorem modRow_pending (b : Nat) (r : Nat) (f : Row → Row) (s : State) : (modRow b r f s).pending = s.pending := rfl
@[simp] theorem modRow_free (b : Nat) (r : Nat) (f : Row → Row) (s : State) : (modRow b r f s).free = s.free := rfl
@[simp] theorem modRow_out (b : Nat) (r : Nat) (f : Row → Row) (s : State) : (modRow b r f s).out = s.out := rfl
@[simp] theorem modRow_edits (b : Nat) (r : Nat) (f : Row → Row) (s : State) : (modRow b r f s).edits = s.edits := rfl
@[simp] theorem modRow_chip (b : Nat) (r : Nat) (f : Row → Row) (s : State) : (modRow b r f s).chip = s.chip := rfl
@[simp] theorem modRow_lm (b : Nat) (r : Nat) (f : Row → Row) (s : State) : (modRow b r f s).lm = s.lm := rfl
@[simp] theorem modRow_img (b : Nat) (r : Nat) (f : Row → Row) (s : State) : (modRow b r f s).img = s.img := rfl
@[simp] theorem modRow_mem (b : Nat) (r : Nat) (f : Row → Row) (s : State) : (modRow b r f s).mem = s.mem := rfl
@[simp] theorem modRow_xl (b : Nat) (r : Nat) (f : Row → Row) (s : State) : (modRow b r f s).xl = s.xl := rfl
@[simp] theorem modRow_noc (b : Nat) (r : Nat) (f : Row → Row) (s : State) : (modRow b r f s).noc = s.noc := rfl
@[simp] theorem modRow_dr (b : Nat) (r : Nat) (f : Row → Row) (s : State) : (modRow b r f s).dr = s.dr := rfl
@[simp] theorem modRow_ut (b : Nat) (r : Nat) (f : Row → Row) (s : State) : (modRow b r f s).ut = s.ut := rfl
@[simp] theorem modRow_hp (b : Nat) (r : Nat) (f : Row → Row) (s : State) : (modRow b r f s).hp = s.hp := rfl
@[simp] theorem modRow_q (b : Nat) (r : Nat) (f : Row → Row) (s : State) : (modRow b r f s).q = s.q := rfl
@[simp] theorem modRow_sch (b : Nat) (r : Nat) (f : Row → Row) (s : State) : (modRow b r f s).sch = s.sch := rfl
@[simp] theorem modRow_sec (b : Nat) (r : Nat) (f : Row → Row) (s : State) : (modRow b r f s).sec = s.sec := rfl
@[simp] theorem modRow_pwr (b : Nat) (r : Nat) (f : Row → Row) (s : State) : (modRow b r f s).pwr = s.pwr := rfl
@[simp] theorem modRow_ras (b : Nat) (r : Nat) (f : Row → Row) (s : State) : (modRow b r f s).ras = s.ras := rfl
@[simp] theorem modRow_evr (b : Nat) (r : Nat) (f : Row → Row) (s : State) : (modRow b r f s).evr = s.evr := rfl
@[simp] theorem modCma_pending (b : Nat) (f : Cma → Cma) (s : State) : (modCma b f s).pending = s.pending := rfl
@[simp] theorem modCma_free (b : Nat) (f : Cma → Cma) (s : State) : (modCma b f s).free = s.free := rfl
@[simp] theorem modCma_out (b : Nat) (f : Cma → Cma) (s : State) : (modCma b f s).out = s.out := rfl
@[simp] theorem modCma_edits (b : Nat) (f : Cma → Cma) (s : State) : (modCma b f s).edits = s.edits := rfl
@[simp] theorem modCma_chip (b : Nat) (f : Cma → Cma) (s : State) : (modCma b f s).chip = s.chip := rfl
@[simp] theorem modCma_lm (b : Nat) (f : Cma → Cma) (s : State) : (modCma b f s).lm = s.lm := rfl
@[simp] theorem modCma_img (b : Nat) (f : Cma → Cma) (s : State) : (modCma b f s).img = s.img := rfl
@[simp] theorem modCma_mem (b : Nat) (f : Cma → Cma) (s : State) : (modCma b f s).mem = s.mem := rfl
@[simp] theorem modCma_xl (b : Nat) (f : Cma → Cma) (s : State) : (modCma b f s).xl = s.xl := rfl
@[simp] theorem modCma_noc (b : Nat) (f : Cma → Cma) (s : State) : (modCma b f s).noc = s.noc := rfl
@[simp] theorem modCma_dr (b : Nat) (f : Cma → Cma) (s : State) : (modCma b f s).dr = s.dr := rfl
@[simp] theorem modCma_ut (b : Nat) (f : Cma → Cma) (s : State) : (modCma b f s).ut = s.ut := rfl
@[simp] theorem modCma_hp (b : Nat) (f : Cma → Cma) (s : State) : (modCma b f s).hp = s.hp := rfl
@[simp] theorem modCma_q (b : Nat) (f : Cma → Cma) (s : State) : (modCma b f s).q = s.q := rfl
@[simp] theorem modCma_sch (b : Nat) (f : Cma → Cma) (s : State) : (modCma b f s).sch = s.sch := rfl
@[simp] theorem modCma_sec (b : Nat) (f : Cma → Cma) (s : State) : (modCma b f s).sec = s.sec := rfl
@[simp] theorem modCma_pwr (b : Nat) (f : Cma → Cma) (s : State) : (modCma b f s).pwr = s.pwr := rfl
@[simp] theorem modCma_ras (b : Nat) (f : Cma → Cma) (s : State) : (modCma b f s).ras = s.ras := rfl
@[simp] theorem modCma_evr (b : Nat) (f : Cma → Cma) (s : State) : (modCma b f s).evr = s.evr := rfl
@[simp] theorem setDma_pending (u : Nat) (q : List Dma) (s : State) : (setDma u q s).pending = s.pending := rfl
@[simp] theorem setDma_free (u : Nat) (q : List Dma) (s : State) : (setDma u q s).free = s.free := rfl
@[simp] theorem setDma_out (u : Nat) (q : List Dma) (s : State) : (setDma u q s).out = s.out := rfl
@[simp] theorem setDma_edits (u : Nat) (q : List Dma) (s : State) : (setDma u q s).edits = s.edits := rfl
@[simp] theorem setDma_chip (u : Nat) (q : List Dma) (s : State) : (setDma u q s).chip = s.chip := rfl
@[simp] theorem setDma_lm (u : Nat) (q : List Dma) (s : State) : (setDma u q s).lm = s.lm := rfl
@[simp] theorem setDma_img (u : Nat) (q : List Dma) (s : State) : (setDma u q s).img = s.img := rfl
@[simp] theorem setDma_mem (u : Nat) (q : List Dma) (s : State) : (setDma u q s).mem = s.mem := rfl
@[simp] theorem setDma_xl (u : Nat) (q : List Dma) (s : State) : (setDma u q s).xl = s.xl := rfl
@[simp] theorem setDma_noc (u : Nat) (q : List Dma) (s : State) : (setDma u q s).noc = s.noc := rfl
@[simp] theorem setDma_dr (u : Nat) (q : List Dma) (s : State) : (setDma u q s).dr = s.dr := rfl
@[simp] theorem setDma_ut (u : Nat) (q : List Dma) (s : State) : (setDma u q s).ut = s.ut := rfl
@[simp] theorem setDma_hp (u : Nat) (q : List Dma) (s : State) : (setDma u q s).hp = s.hp := rfl
@[simp] theorem setDma_q (u : Nat) (q : List Dma) (s : State) : (setDma u q s).q = s.q := rfl
@[simp] theorem setDma_sch (u : Nat) (q : List Dma) (s : State) : (setDma u q s).sch = s.sch := rfl
@[simp] theorem setDma_sec (u : Nat) (q : List Dma) (s : State) : (setDma u q s).sec = s.sec := rfl
@[simp] theorem setDma_pwr (u : Nat) (q : List Dma) (s : State) : (setDma u q s).pwr = s.pwr := rfl
@[simp] theorem setDma_ras (u : Nat) (q : List Dma) (s : State) : (setDma u q s).ras = s.ras := rfl
@[simp] theorem setDma_evr (u : Nat) (q : List Dma) (s : State) : (setDma u q s).evr = s.evr := rfl
@[simp] theorem modRegion_pending (r : Nat) (f : Region → Region) (s : State) : (modRegion r f s).pending = s.pending := rfl
@[simp] theorem modRegion_free (r : Nat) (f : Region → Region) (s : State) : (modRegion r f s).free = s.free := rfl
@[simp] theorem modRegion_out (r : Nat) (f : Region → Region) (s : State) : (modRegion r f s).out = s.out := rfl
@[simp] theorem modRegion_edits (r : Nat) (f : Region → Region) (s : State) : (modRegion r f s).edits = s.edits := rfl
@[simp] theorem modRegion_chip (r : Nat) (f : Region → Region) (s : State) : (modRegion r f s).chip = s.chip := rfl
@[simp] theorem modRegion_lm (r : Nat) (f : Region → Region) (s : State) : (modRegion r f s).lm = s.lm := rfl
@[simp] theorem modRegion_img (r : Nat) (f : Region → Region) (s : State) : (modRegion r f s).img = s.img := rfl
@[simp] theorem modRegion_cu (r : Nat) (f : Region → Region) (s : State) : (modRegion r f s).cu = s.cu := rfl
@[simp] theorem modRegion_xl (r : Nat) (f : Region → Region) (s : State) : (modRegion r f s).xl = s.xl := rfl
@[simp] theorem modRegion_noc (r : Nat) (f : Region → Region) (s : State) : (modRegion r f s).noc = s.noc := rfl
@[simp] theorem modRegion_dr (r : Nat) (f : Region → Region) (s : State) : (modRegion r f s).dr = s.dr := rfl
@[simp] theorem modRegion_ut (r : Nat) (f : Region → Region) (s : State) : (modRegion r f s).ut = s.ut := rfl
@[simp] theorem modRegion_hp (r : Nat) (f : Region → Region) (s : State) : (modRegion r f s).hp = s.hp := rfl
@[simp] theorem modRegion_q (r : Nat) (f : Region → Region) (s : State) : (modRegion r f s).q = s.q := rfl
@[simp] theorem modRegion_sch (r : Nat) (f : Region → Region) (s : State) : (modRegion r f s).sch = s.sch := rfl
@[simp] theorem modRegion_sec (r : Nat) (f : Region → Region) (s : State) : (modRegion r f s).sec = s.sec := rfl
@[simp] theorem modRegion_pwr (r : Nat) (f : Region → Region) (s : State) : (modRegion r f s).pwr = s.pwr := rfl
@[simp] theorem modRegion_ras (r : Nat) (f : Region → Region) (s : State) : (modRegion r f s).ras = s.ras := rfl
@[simp] theorem modRegion_evr (r : Nat) (f : Region → Region) (s : State) : (modRegion r f s).evr = s.evr := rfl
@[simp] theorem modPc_pending (p : Nat) (f : PChan → PChan) (s : State) : (modPc p f s).pending = s.pending := rfl
@[simp] theorem modPc_free (p : Nat) (f : PChan → PChan) (s : State) : (modPc p f s).free = s.free := rfl
@[simp] theorem modPc_out (p : Nat) (f : PChan → PChan) (s : State) : (modPc p f s).out = s.out := rfl
@[simp] theorem modPc_edits (p : Nat) (f : PChan → PChan) (s : State) : (modPc p f s).edits = s.edits := rfl
@[simp] theorem modPc_chip (p : Nat) (f : PChan → PChan) (s : State) : (modPc p f s).chip = s.chip := rfl
@[simp] theorem modPc_lm (p : Nat) (f : PChan → PChan) (s : State) : (modPc p f s).lm = s.lm := rfl
@[simp] theorem modPc_img (p : Nat) (f : PChan → PChan) (s : State) : (modPc p f s).img = s.img := rfl
@[simp] theorem modPc_cu (p : Nat) (f : PChan → PChan) (s : State) : (modPc p f s).cu = s.cu := rfl
@[simp] theorem modPc_xl (p : Nat) (f : PChan → PChan) (s : State) : (modPc p f s).xl = s.xl := rfl
@[simp] theorem modPc_noc (p : Nat) (f : PChan → PChan) (s : State) : (modPc p f s).noc = s.noc := rfl
@[simp] theorem modPc_dr (p : Nat) (f : PChan → PChan) (s : State) : (modPc p f s).dr = s.dr := rfl
@[simp] theorem modPc_ut (p : Nat) (f : PChan → PChan) (s : State) : (modPc p f s).ut = s.ut := rfl
@[simp] theorem modPc_hp (p : Nat) (f : PChan → PChan) (s : State) : (modPc p f s).hp = s.hp := rfl
@[simp] theorem modPc_q (p : Nat) (f : PChan → PChan) (s : State) : (modPc p f s).q = s.q := rfl
@[simp] theorem modPc_sch (p : Nat) (f : PChan → PChan) (s : State) : (modPc p f s).sch = s.sch := rfl
@[simp] theorem modPc_sec (p : Nat) (f : PChan → PChan) (s : State) : (modPc p f s).sec = s.sec := rfl
@[simp] theorem modPc_pwr (p : Nat) (f : PChan → PChan) (s : State) : (modPc p f s).pwr = s.pwr := rfl
@[simp] theorem modPc_ras (p : Nat) (f : PChan → PChan) (s : State) : (modPc p f s).ras = s.ras := rfl
@[simp] theorem modPc_evr (p : Nat) (f : PChan → PChan) (s : State) : (modPc p f s).evr = s.evr := rfl
@[simp] theorem modXlCtx_pending (c : Nat) (f : XlCtx → XlCtx) (s : State) : (modXlCtx c f s).pending = s.pending := rfl
@[simp] theorem modXlCtx_free (c : Nat) (f : XlCtx → XlCtx) (s : State) : (modXlCtx c f s).free = s.free := rfl
@[simp] theorem modXlCtx_out (c : Nat) (f : XlCtx → XlCtx) (s : State) : (modXlCtx c f s).out = s.out := rfl
@[simp] theorem modXlCtx_edits (c : Nat) (f : XlCtx → XlCtx) (s : State) : (modXlCtx c f s).edits = s.edits := rfl
@[simp] theorem modXlCtx_chip (c : Nat) (f : XlCtx → XlCtx) (s : State) : (modXlCtx c f s).chip = s.chip := rfl
@[simp] theorem modXlCtx_lm (c : Nat) (f : XlCtx → XlCtx) (s : State) : (modXlCtx c f s).lm = s.lm := rfl
@[simp] theorem modXlCtx_img (c : Nat) (f : XlCtx → XlCtx) (s : State) : (modXlCtx c f s).img = s.img := rfl
@[simp] theorem modXlCtx_cu (c : Nat) (f : XlCtx → XlCtx) (s : State) : (modXlCtx c f s).cu = s.cu := rfl
@[simp] theorem modXlCtx_mem (c : Nat) (f : XlCtx → XlCtx) (s : State) : (modXlCtx c f s).mem = s.mem := rfl
@[simp] theorem modXlCtx_noc (c : Nat) (f : XlCtx → XlCtx) (s : State) : (modXlCtx c f s).noc = s.noc := rfl
@[simp] theorem modXlCtx_dr (c : Nat) (f : XlCtx → XlCtx) (s : State) : (modXlCtx c f s).dr = s.dr := rfl
@[simp] theorem modXlCtx_ut (c : Nat) (f : XlCtx → XlCtx) (s : State) : (modXlCtx c f s).ut = s.ut := rfl
@[simp] theorem modXlCtx_hp (c : Nat) (f : XlCtx → XlCtx) (s : State) : (modXlCtx c f s).hp = s.hp := rfl
@[simp] theorem modXlCtx_q (c : Nat) (f : XlCtx → XlCtx) (s : State) : (modXlCtx c f s).q = s.q := rfl
@[simp] theorem modXlCtx_sch (c : Nat) (f : XlCtx → XlCtx) (s : State) : (modXlCtx c f s).sch = s.sch := rfl
@[simp] theorem modXlCtx_sec (c : Nat) (f : XlCtx → XlCtx) (s : State) : (modXlCtx c f s).sec = s.sec := rfl
@[simp] theorem modXlCtx_pwr (c : Nat) (f : XlCtx → XlCtx) (s : State) : (modXlCtx c f s).pwr = s.pwr := rfl
@[simp] theorem modXlCtx_ras (c : Nat) (f : XlCtx → XlCtx) (s : State) : (modXlCtx c f s).ras = s.ras := rfl
@[simp] theorem modXlCtx_evr (c : Nat) (f : XlCtx → XlCtx) (s : State) : (modXlCtx c f s).evr = s.evr := rfl
@[simp] theorem modXlLode_pending (l : Nat) (f : XlLode → XlLode) (s : State) : (modXlLode l f s).pending = s.pending := rfl
@[simp] theorem modXlLode_free (l : Nat) (f : XlLode → XlLode) (s : State) : (modXlLode l f s).free = s.free := rfl
@[simp] theorem modXlLode_out (l : Nat) (f : XlLode → XlLode) (s : State) : (modXlLode l f s).out = s.out := rfl
@[simp] theorem modXlLode_edits (l : Nat) (f : XlLode → XlLode) (s : State) : (modXlLode l f s).edits = s.edits := rfl
@[simp] theorem modXlLode_chip (l : Nat) (f : XlLode → XlLode) (s : State) : (modXlLode l f s).chip = s.chip := rfl
@[simp] theorem modXlLode_lm (l : Nat) (f : XlLode → XlLode) (s : State) : (modXlLode l f s).lm = s.lm := rfl
@[simp] theorem modXlLode_img (l : Nat) (f : XlLode → XlLode) (s : State) : (modXlLode l f s).img = s.img := rfl
@[simp] theorem modXlLode_cu (l : Nat) (f : XlLode → XlLode) (s : State) : (modXlLode l f s).cu = s.cu := rfl
@[simp] theorem modXlLode_mem (l : Nat) (f : XlLode → XlLode) (s : State) : (modXlLode l f s).mem = s.mem := rfl
@[simp] theorem modXlLode_noc (l : Nat) (f : XlLode → XlLode) (s : State) : (modXlLode l f s).noc = s.noc := rfl
@[simp] theorem modXlLode_dr (l : Nat) (f : XlLode → XlLode) (s : State) : (modXlLode l f s).dr = s.dr := rfl
@[simp] theorem modXlLode_ut (l : Nat) (f : XlLode → XlLode) (s : State) : (modXlLode l f s).ut = s.ut := rfl
@[simp] theorem modXlLode_hp (l : Nat) (f : XlLode → XlLode) (s : State) : (modXlLode l f s).hp = s.hp := rfl
@[simp] theorem modXlLode_q (l : Nat) (f : XlLode → XlLode) (s : State) : (modXlLode l f s).q = s.q := rfl
@[simp] theorem modXlLode_sch (l : Nat) (f : XlLode → XlLode) (s : State) : (modXlLode l f s).sch = s.sch := rfl
@[simp] theorem modXlLode_sec (l : Nat) (f : XlLode → XlLode) (s : State) : (modXlLode l f s).sec = s.sec := rfl
@[simp] theorem modXlLode_pwr (l : Nat) (f : XlLode → XlLode) (s : State) : (modXlLode l f s).pwr = s.pwr := rfl
@[simp] theorem modXlLode_ras (l : Nat) (f : XlLode → XlLode) (s : State) : (modXlLode l f s).ras = s.ras := rfl
@[simp] theorem modXlLode_evr (l : Nat) (f : XlLode → XlLode) (s : State) : (modXlLode l f s).evr = s.evr := rfl
@[simp] theorem modSemPage_pending (r : Nat) (p : Nat) (f : SyncPage → SyncPage) (s : State) : (modSemPage r p f s).pending = s.pending := rfl
@[simp] theorem modSemPage_free (r : Nat) (p : Nat) (f : SyncPage → SyncPage) (s : State) : (modSemPage r p f s).free = s.free := rfl
@[simp] theorem modSemPage_out (r : Nat) (p : Nat) (f : SyncPage → SyncPage) (s : State) : (modSemPage r p f s).out = s.out := rfl
@[simp] theorem modSemPage_edits (r : Nat) (p : Nat) (f : SyncPage → SyncPage) (s : State) : (modSemPage r p f s).edits = s.edits := rfl
@[simp] theorem modSemPage_chip (r : Nat) (p : Nat) (f : SyncPage → SyncPage) (s : State) : (modSemPage r p f s).chip = s.chip := rfl
@[simp] theorem modSemPage_lm (r : Nat) (p : Nat) (f : SyncPage → SyncPage) (s : State) : (modSemPage r p f s).lm = s.lm := rfl
@[simp] theorem modSemPage_img (r : Nat) (p : Nat) (f : SyncPage → SyncPage) (s : State) : (modSemPage r p f s).img = s.img := rfl
@[simp] theorem modSemPage_cu (r : Nat) (p : Nat) (f : SyncPage → SyncPage) (s : State) : (modSemPage r p f s).cu = s.cu := rfl
@[simp] theorem modSemPage_mem (r : Nat) (p : Nat) (f : SyncPage → SyncPage) (s : State) : (modSemPage r p f s).mem = s.mem := rfl
@[simp] theorem modSemPage_xl (r : Nat) (p : Nat) (f : SyncPage → SyncPage) (s : State) : (modSemPage r p f s).xl = s.xl := rfl
@[simp] theorem modSemPage_dr (r : Nat) (p : Nat) (f : SyncPage → SyncPage) (s : State) : (modSemPage r p f s).dr = s.dr := rfl
@[simp] theorem modSemPage_ut (r : Nat) (p : Nat) (f : SyncPage → SyncPage) (s : State) : (modSemPage r p f s).ut = s.ut := rfl
@[simp] theorem modSemPage_hp (r : Nat) (p : Nat) (f : SyncPage → SyncPage) (s : State) : (modSemPage r p f s).hp = s.hp := rfl
@[simp] theorem modSemPage_q (r : Nat) (p : Nat) (f : SyncPage → SyncPage) (s : State) : (modSemPage r p f s).q = s.q := rfl
@[simp] theorem modSemPage_sch (r : Nat) (p : Nat) (f : SyncPage → SyncPage) (s : State) : (modSemPage r p f s).sch = s.sch := rfl
@[simp] theorem modSemPage_sec (r : Nat) (p : Nat) (f : SyncPage → SyncPage) (s : State) : (modSemPage r p f s).sec = s.sec := rfl
@[simp] theorem modSemPage_pwr (r : Nat) (p : Nat) (f : SyncPage → SyncPage) (s : State) : (modSemPage r p f s).pwr = s.pwr := rfl
@[simp] theorem modSemPage_ras (r : Nat) (p : Nat) (f : SyncPage → SyncPage) (s : State) : (modSemPage r p f s).ras = s.ras := rfl
@[simp] theorem modSemPage_evr (r : Nat) (p : Nat) (f : SyncPage → SyncPage) (s : State) : (modSemPage r p f s).evr = s.evr := rfl
@[simp] theorem modBarPage_pending (p : Nat) (f : SyncPage → SyncPage) (s : State) : (modBarPage p f s).pending = s.pending := rfl
@[simp] theorem modBarPage_free (p : Nat) (f : SyncPage → SyncPage) (s : State) : (modBarPage p f s).free = s.free := rfl
@[simp] theorem modBarPage_out (p : Nat) (f : SyncPage → SyncPage) (s : State) : (modBarPage p f s).out = s.out := rfl
@[simp] theorem modBarPage_edits (p : Nat) (f : SyncPage → SyncPage) (s : State) : (modBarPage p f s).edits = s.edits := rfl
@[simp] theorem modBarPage_chip (p : Nat) (f : SyncPage → SyncPage) (s : State) : (modBarPage p f s).chip = s.chip := rfl
@[simp] theorem modBarPage_lm (p : Nat) (f : SyncPage → SyncPage) (s : State) : (modBarPage p f s).lm = s.lm := rfl
@[simp] theorem modBarPage_img (p : Nat) (f : SyncPage → SyncPage) (s : State) : (modBarPage p f s).img = s.img := rfl
@[simp] theorem modBarPage_cu (p : Nat) (f : SyncPage → SyncPage) (s : State) : (modBarPage p f s).cu = s.cu := rfl
@[simp] theorem modBarPage_mem (p : Nat) (f : SyncPage → SyncPage) (s : State) : (modBarPage p f s).mem = s.mem := rfl
@[simp] theorem modBarPage_xl (p : Nat) (f : SyncPage → SyncPage) (s : State) : (modBarPage p f s).xl = s.xl := rfl
@[simp] theorem modBarPage_dr (p : Nat) (f : SyncPage → SyncPage) (s : State) : (modBarPage p f s).dr = s.dr := rfl
@[simp] theorem modBarPage_ut (p : Nat) (f : SyncPage → SyncPage) (s : State) : (modBarPage p f s).ut = s.ut := rfl
@[simp] theorem modBarPage_hp (p : Nat) (f : SyncPage → SyncPage) (s : State) : (modBarPage p f s).hp = s.hp := rfl
@[simp] theorem modBarPage_q (p : Nat) (f : SyncPage → SyncPage) (s : State) : (modBarPage p f s).q = s.q := rfl
@[simp] theorem modBarPage_sch (p : Nat) (f : SyncPage → SyncPage) (s : State) : (modBarPage p f s).sch = s.sch := rfl
@[simp] theorem modBarPage_sec (p : Nat) (f : SyncPage → SyncPage) (s : State) : (modBarPage p f s).sec = s.sec := rfl
@[simp] theorem modBarPage_pwr (p : Nat) (f : SyncPage → SyncPage) (s : State) : (modBarPage p f s).pwr = s.pwr := rfl
@[simp] theorem modBarPage_ras (p : Nat) (f : SyncPage → SyncPage) (s : State) : (modBarPage p f s).ras = s.ras := rfl
@[simp] theorem modBarPage_evr (p : Nat) (f : SyncPage → SyncPage) (s : State) : (modBarPage p f s).evr = s.evr := rfl
@[simp] theorem modSem_pending (n : Nat) (f : Sem → Sem) (s : State) : (modSem n f s).pending = s.pending := rfl
@[simp] theorem modSem_free (n : Nat) (f : Sem → Sem) (s : State) : (modSem n f s).free = s.free := rfl
@[simp] theorem modSem_out (n : Nat) (f : Sem → Sem) (s : State) : (modSem n f s).out = s.out := rfl
@[simp] theorem modSem_edits (n : Nat) (f : Sem → Sem) (s : State) : (modSem n f s).edits = s.edits := rfl
@[simp] theorem modSem_chip (n : Nat) (f : Sem → Sem) (s : State) : (modSem n f s).chip = s.chip := rfl
@[simp] theorem modSem_lm (n : Nat) (f : Sem → Sem) (s : State) : (modSem n f s).lm = s.lm := rfl
@[simp] theorem modSem_img (n : Nat) (f : Sem → Sem) (s : State) : (modSem n f s).img = s.img := rfl
@[simp] theorem modSem_cu (n : Nat) (f : Sem → Sem) (s : State) : (modSem n f s).cu = s.cu := rfl
@[simp] theorem modSem_mem (n : Nat) (f : Sem → Sem) (s : State) : (modSem n f s).mem = s.mem := rfl
@[simp] theorem modSem_xl (n : Nat) (f : Sem → Sem) (s : State) : (modSem n f s).xl = s.xl := rfl
@[simp] theorem modSem_dr (n : Nat) (f : Sem → Sem) (s : State) : (modSem n f s).dr = s.dr := rfl
@[simp] theorem modSem_ut (n : Nat) (f : Sem → Sem) (s : State) : (modSem n f s).ut = s.ut := rfl
@[simp] theorem modSem_hp (n : Nat) (f : Sem → Sem) (s : State) : (modSem n f s).hp = s.hp := rfl
@[simp] theorem modSem_q (n : Nat) (f : Sem → Sem) (s : State) : (modSem n f s).q = s.q := rfl
@[simp] theorem modSem_sch (n : Nat) (f : Sem → Sem) (s : State) : (modSem n f s).sch = s.sch := rfl
@[simp] theorem modSem_sec (n : Nat) (f : Sem → Sem) (s : State) : (modSem n f s).sec = s.sec := rfl
@[simp] theorem modSem_pwr (n : Nat) (f : Sem → Sem) (s : State) : (modSem n f s).pwr = s.pwr := rfl
@[simp] theorem modSem_ras (n : Nat) (f : Sem → Sem) (s : State) : (modSem n f s).ras = s.ras := rfl
@[simp] theorem modSem_evr (n : Nat) (f : Sem → Sem) (s : State) : (modSem n f s).evr = s.evr := rfl
@[simp] theorem modBar_pending (n : Nat) (f : Barrier → Barrier) (s : State) : (modBar n f s).pending = s.pending := rfl
@[simp] theorem modBar_free (n : Nat) (f : Barrier → Barrier) (s : State) : (modBar n f s).free = s.free := rfl
@[simp] theorem modBar_out (n : Nat) (f : Barrier → Barrier) (s : State) : (modBar n f s).out = s.out := rfl
@[simp] theorem modBar_edits (n : Nat) (f : Barrier → Barrier) (s : State) : (modBar n f s).edits = s.edits := rfl
@[simp] theorem modBar_chip (n : Nat) (f : Barrier → Barrier) (s : State) : (modBar n f s).chip = s.chip := rfl
@[simp] theorem modBar_lm (n : Nat) (f : Barrier → Barrier) (s : State) : (modBar n f s).lm = s.lm := rfl
@[simp] theorem modBar_img (n : Nat) (f : Barrier → Barrier) (s : State) : (modBar n f s).img = s.img := rfl
@[simp] theorem modBar_cu (n : Nat) (f : Barrier → Barrier) (s : State) : (modBar n f s).cu = s.cu := rfl
@[simp] theorem modBar_mem (n : Nat) (f : Barrier → Barrier) (s : State) : (modBar n f s).mem = s.mem := rfl
@[simp] theorem modBar_xl (n : Nat) (f : Barrier → Barrier) (s : State) : (modBar n f s).xl = s.xl := rfl
@[simp] theorem modBar_dr (n : Nat) (f : Barrier → Barrier) (s : State) : (modBar n f s).dr = s.dr := rfl
@[simp] theorem modBar_ut (n : Nat) (f : Barrier → Barrier) (s : State) : (modBar n f s).ut = s.ut := rfl
@[simp] theorem modBar_hp (n : Nat) (f : Barrier → Barrier) (s : State) : (modBar n f s).hp = s.hp := rfl
@[simp] theorem modBar_q (n : Nat) (f : Barrier → Barrier) (s : State) : (modBar n f s).q = s.q := rfl
@[simp] theorem modBar_sch (n : Nat) (f : Barrier → Barrier) (s : State) : (modBar n f s).sch = s.sch := rfl
@[simp] theorem modBar_sec (n : Nat) (f : Barrier → Barrier) (s : State) : (modBar n f s).sec = s.sec := rfl
@[simp] theorem modBar_pwr (n : Nat) (f : Barrier → Barrier) (s : State) : (modBar n f s).pwr = s.pwr := rfl
@[simp] theorem modBar_ras (n : Nat) (f : Barrier → Barrier) (s : State) : (modBar n f s).ras = s.ras := rfl
@[simp] theorem modBar_evr (n : Nat) (f : Barrier → Barrier) (s : State) : (modBar n f s).evr = s.evr := rfl
@[simp] theorem modMaster_pending (m : Nat) (f : Master → Master) (s : State) : (modMaster m f s).pending = s.pending := rfl
@[simp] theorem modMaster_free (m : Nat) (f : Master → Master) (s : State) : (modMaster m f s).free = s.free := rfl
@[simp] theorem modMaster_out (m : Nat) (f : Master → Master) (s : State) : (modMaster m f s).out = s.out := rfl
@[simp] theorem modMaster_edits (m : Nat) (f : Master → Master) (s : State) : (modMaster m f s).edits = s.edits := rfl
@[simp] theorem modMaster_chip (m : Nat) (f : Master → Master) (s : State) : (modMaster m f s).chip = s.chip := rfl
@[simp] theorem modMaster_lm (m : Nat) (f : Master → Master) (s : State) : (modMaster m f s).lm = s.lm := rfl
@[simp] theorem modMaster_img (m : Nat) (f : Master → Master) (s : State) : (modMaster m f s).img = s.img := rfl
@[simp] theorem modMaster_cu (m : Nat) (f : Master → Master) (s : State) : (modMaster m f s).cu = s.cu := rfl
@[simp] theorem modMaster_mem (m : Nat) (f : Master → Master) (s : State) : (modMaster m f s).mem = s.mem := rfl
@[simp] theorem modMaster_xl (m : Nat) (f : Master → Master) (s : State) : (modMaster m f s).xl = s.xl := rfl
@[simp] theorem modMaster_dr (m : Nat) (f : Master → Master) (s : State) : (modMaster m f s).dr = s.dr := rfl
@[simp] theorem modMaster_ut (m : Nat) (f : Master → Master) (s : State) : (modMaster m f s).ut = s.ut := rfl
@[simp] theorem modMaster_hp (m : Nat) (f : Master → Master) (s : State) : (modMaster m f s).hp = s.hp := rfl
@[simp] theorem modMaster_q (m : Nat) (f : Master → Master) (s : State) : (modMaster m f s).q = s.q := rfl
@[simp] theorem modMaster_sch (m : Nat) (f : Master → Master) (s : State) : (modMaster m f s).sch = s.sch := rfl
@[simp] theorem modMaster_sec (m : Nat) (f : Master → Master) (s : State) : (modMaster m f s).sec = s.sec := rfl
@[simp] theorem modMaster_pwr (m : Nat) (f : Master → Master) (s : State) : (modMaster m f s).pwr = s.pwr := rfl
@[simp] theorem modMaster_ras (m : Nat) (f : Master → Master) (s : State) : (modMaster m f s).ras = s.ras := rfl
@[simp] theorem modMaster_evr (m : Nat) (f : Master → Master) (s : State) : (modMaster m f s).evr = s.evr := rfl
@[simp] theorem modArb_pending (a : Nat) (f : Arb → Arb) (s : State) : (modArb a f s).pending = s.pending := rfl
@[simp] theorem modArb_free (a : Nat) (f : Arb → Arb) (s : State) : (modArb a f s).free = s.free := rfl
@[simp] theorem modArb_out (a : Nat) (f : Arb → Arb) (s : State) : (modArb a f s).out = s.out := rfl
@[simp] theorem modArb_edits (a : Nat) (f : Arb → Arb) (s : State) : (modArb a f s).edits = s.edits := rfl
@[simp] theorem modArb_chip (a : Nat) (f : Arb → Arb) (s : State) : (modArb a f s).chip = s.chip := rfl
@[simp] theorem modArb_lm (a : Nat) (f : Arb → Arb) (s : State) : (modArb a f s).lm = s.lm := rfl
@[simp] theorem modArb_img (a : Nat) (f : Arb → Arb) (s : State) : (modArb a f s).img = s.img := rfl
@[simp] theorem modArb_cu (a : Nat) (f : Arb → Arb) (s : State) : (modArb a f s).cu = s.cu := rfl
@[simp] theorem modArb_mem (a : Nat) (f : Arb → Arb) (s : State) : (modArb a f s).mem = s.mem := rfl
@[simp] theorem modArb_xl (a : Nat) (f : Arb → Arb) (s : State) : (modArb a f s).xl = s.xl := rfl
@[simp] theorem modArb_dr (a : Nat) (f : Arb → Arb) (s : State) : (modArb a f s).dr = s.dr := rfl
@[simp] theorem modArb_ut (a : Nat) (f : Arb → Arb) (s : State) : (modArb a f s).ut = s.ut := rfl
@[simp] theorem modArb_hp (a : Nat) (f : Arb → Arb) (s : State) : (modArb a f s).hp = s.hp := rfl
@[simp] theorem modArb_q (a : Nat) (f : Arb → Arb) (s : State) : (modArb a f s).q = s.q := rfl
@[simp] theorem modArb_sch (a : Nat) (f : Arb → Arb) (s : State) : (modArb a f s).sch = s.sch := rfl
@[simp] theorem modArb_sec (a : Nat) (f : Arb → Arb) (s : State) : (modArb a f s).sec = s.sec := rfl
@[simp] theorem modArb_pwr (a : Nat) (f : Arb → Arb) (s : State) : (modArb a f s).pwr = s.pwr := rfl
@[simp] theorem modArb_ras (a : Nat) (f : Arb → Arb) (s : State) : (modArb a f s).ras = s.ras := rfl
@[simp] theorem modArb_evr (a : Nat) (f : Arb → Arb) (s : State) : (modArb a f s).evr = s.evr := rfl
@[simp] theorem modPort_pending (p : Nat) (f : Port → Port) (s : State) : (modPort p f s).pending = s.pending := rfl
@[simp] theorem modPort_free (p : Nat) (f : Port → Port) (s : State) : (modPort p f s).free = s.free := rfl
@[simp] theorem modPort_out (p : Nat) (f : Port → Port) (s : State) : (modPort p f s).out = s.out := rfl
@[simp] theorem modPort_edits (p : Nat) (f : Port → Port) (s : State) : (modPort p f s).edits = s.edits := rfl
@[simp] theorem modPort_chip (p : Nat) (f : Port → Port) (s : State) : (modPort p f s).chip = s.chip := rfl
@[simp] theorem modPort_lm (p : Nat) (f : Port → Port) (s : State) : (modPort p f s).lm = s.lm := rfl
@[simp] theorem modPort_img (p : Nat) (f : Port → Port) (s : State) : (modPort p f s).img = s.img := rfl
@[simp] theorem modPort_cu (p : Nat) (f : Port → Port) (s : State) : (modPort p f s).cu = s.cu := rfl
@[simp] theorem modPort_mem (p : Nat) (f : Port → Port) (s : State) : (modPort p f s).mem = s.mem := rfl
@[simp] theorem modPort_xl (p : Nat) (f : Port → Port) (s : State) : (modPort p f s).xl = s.xl := rfl
@[simp] theorem modPort_noc (p : Nat) (f : Port → Port) (s : State) : (modPort p f s).noc = s.noc := rfl
@[simp] theorem modPort_ut (p : Nat) (f : Port → Port) (s : State) : (modPort p f s).ut = s.ut := rfl
@[simp] theorem modPort_hp (p : Nat) (f : Port → Port) (s : State) : (modPort p f s).hp = s.hp := rfl
@[simp] theorem modPort_q (p : Nat) (f : Port → Port) (s : State) : (modPort p f s).q = s.q := rfl
@[simp] theorem modPort_sch (p : Nat) (f : Port → Port) (s : State) : (modPort p f s).sch = s.sch := rfl
@[simp] theorem modPort_sec (p : Nat) (f : Port → Port) (s : State) : (modPort p f s).sec = s.sec := rfl
@[simp] theorem modPort_pwr (p : Nat) (f : Port → Port) (s : State) : (modPort p f s).pwr = s.pwr := rfl
@[simp] theorem modPort_ras (p : Nat) (f : Port → Port) (s : State) : (modPort p f s).ras = s.ras := rfl
@[simp] theorem modPort_evr (p : Nat) (f : Port → Port) (s : State) : (modPort p f s).evr = s.evr := rfl
@[simp] theorem modRwin_pending (w : Nat) (f : RWin → RWin) (s : State) : (modRwin w f s).pending = s.pending := rfl
@[simp] theorem modRwin_free (w : Nat) (f : RWin → RWin) (s : State) : (modRwin w f s).free = s.free := rfl
@[simp] theorem modRwin_out (w : Nat) (f : RWin → RWin) (s : State) : (modRwin w f s).out = s.out := rfl
@[simp] theorem modRwin_edits (w : Nat) (f : RWin → RWin) (s : State) : (modRwin w f s).edits = s.edits := rfl
@[simp] theorem modRwin_chip (w : Nat) (f : RWin → RWin) (s : State) : (modRwin w f s).chip = s.chip := rfl
@[simp] theorem modRwin_lm (w : Nat) (f : RWin → RWin) (s : State) : (modRwin w f s).lm = s.lm := rfl
@[simp] theorem modRwin_img (w : Nat) (f : RWin → RWin) (s : State) : (modRwin w f s).img = s.img := rfl
@[simp] theorem modRwin_cu (w : Nat) (f : RWin → RWin) (s : State) : (modRwin w f s).cu = s.cu := rfl
@[simp] theorem modRwin_mem (w : Nat) (f : RWin → RWin) (s : State) : (modRwin w f s).mem = s.mem := rfl
@[simp] theorem modRwin_xl (w : Nat) (f : RWin → RWin) (s : State) : (modRwin w f s).xl = s.xl := rfl
@[simp] theorem modRwin_noc (w : Nat) (f : RWin → RWin) (s : State) : (modRwin w f s).noc = s.noc := rfl
@[simp] theorem modRwin_ut (w : Nat) (f : RWin → RWin) (s : State) : (modRwin w f s).ut = s.ut := rfl
@[simp] theorem modRwin_hp (w : Nat) (f : RWin → RWin) (s : State) : (modRwin w f s).hp = s.hp := rfl
@[simp] theorem modRwin_q (w : Nat) (f : RWin → RWin) (s : State) : (modRwin w f s).q = s.q := rfl
@[simp] theorem modRwin_sch (w : Nat) (f : RWin → RWin) (s : State) : (modRwin w f s).sch = s.sch := rfl
@[simp] theorem modRwin_sec (w : Nat) (f : RWin → RWin) (s : State) : (modRwin w f s).sec = s.sec := rfl
@[simp] theorem modRwin_pwr (w : Nat) (f : RWin → RWin) (s : State) : (modRwin w f s).pwr = s.pwr := rfl
@[simp] theorem modRwin_ras (w : Nat) (f : RWin → RWin) (s : State) : (modRwin w f s).ras = s.ras := rfl
@[simp] theorem modRwin_evr (w : Nat) (f : RWin → RWin) (s : State) : (modRwin w f s).evr = s.evr := rfl
@[simp] theorem modDr_pending (f : Drift → Drift) (s : State) : (modDr f s).pending = s.pending := rfl
@[simp] theorem modDr_free (f : Drift → Drift) (s : State) : (modDr f s).free = s.free := rfl
@[simp] theorem modDr_out (f : Drift → Drift) (s : State) : (modDr f s).out = s.out := rfl
@[simp] theorem modDr_edits (f : Drift → Drift) (s : State) : (modDr f s).edits = s.edits := rfl
@[simp] theorem modDr_chip (f : Drift → Drift) (s : State) : (modDr f s).chip = s.chip := rfl
@[simp] theorem modDr_lm (f : Drift → Drift) (s : State) : (modDr f s).lm = s.lm := rfl
@[simp] theorem modDr_img (f : Drift → Drift) (s : State) : (modDr f s).img = s.img := rfl
@[simp] theorem modDr_cu (f : Drift → Drift) (s : State) : (modDr f s).cu = s.cu := rfl
@[simp] theorem modDr_mem (f : Drift → Drift) (s : State) : (modDr f s).mem = s.mem := rfl
@[simp] theorem modDr_xl (f : Drift → Drift) (s : State) : (modDr f s).xl = s.xl := rfl
@[simp] theorem modDr_noc (f : Drift → Drift) (s : State) : (modDr f s).noc = s.noc := rfl
@[simp] theorem modDr_ut (f : Drift → Drift) (s : State) : (modDr f s).ut = s.ut := rfl
@[simp] theorem modDr_hp (f : Drift → Drift) (s : State) : (modDr f s).hp = s.hp := rfl
@[simp] theorem modDr_q (f : Drift → Drift) (s : State) : (modDr f s).q = s.q := rfl
@[simp] theorem modDr_sch (f : Drift → Drift) (s : State) : (modDr f s).sch = s.sch := rfl
@[simp] theorem modDr_sec (f : Drift → Drift) (s : State) : (modDr f s).sec = s.sec := rfl
@[simp] theorem modDr_pwr (f : Drift → Drift) (s : State) : (modDr f s).pwr = s.pwr := rfl
@[simp] theorem modDr_ras (f : Drift → Drift) (s : State) : (modDr f s).ras = s.ras := rfl
@[simp] theorem modDr_evr (f : Drift → Drift) (s : State) : (modDr f s).evr = s.evr := rfl
@[simp] theorem modUrec_pending (n : Nat) (f : URec → URec) (s : State) : (modUrec n f s).pending = s.pending := rfl
@[simp] theorem modUrec_free (n : Nat) (f : URec → URec) (s : State) : (modUrec n f s).free = s.free := rfl
@[simp] theorem modUrec_out (n : Nat) (f : URec → URec) (s : State) : (modUrec n f s).out = s.out := rfl
@[simp] theorem modUrec_edits (n : Nat) (f : URec → URec) (s : State) : (modUrec n f s).edits = s.edits := rfl
@[simp] theorem modUrec_chip (n : Nat) (f : URec → URec) (s : State) : (modUrec n f s).chip = s.chip := rfl
@[simp] theorem modUrec_lm (n : Nat) (f : URec → URec) (s : State) : (modUrec n f s).lm = s.lm := rfl
@[simp] theorem modUrec_img (n : Nat) (f : URec → URec) (s : State) : (modUrec n f s).img = s.img := rfl
@[simp] theorem modUrec_cu (n : Nat) (f : URec → URec) (s : State) : (modUrec n f s).cu = s.cu := rfl
@[simp] theorem modUrec_mem (n : Nat) (f : URec → URec) (s : State) : (modUrec n f s).mem = s.mem := rfl
@[simp] theorem modUrec_xl (n : Nat) (f : URec → URec) (s : State) : (modUrec n f s).xl = s.xl := rfl
@[simp] theorem modUrec_noc (n : Nat) (f : URec → URec) (s : State) : (modUrec n f s).noc = s.noc := rfl
@[simp] theorem modUrec_dr (n : Nat) (f : URec → URec) (s : State) : (modUrec n f s).dr = s.dr := rfl
@[simp] theorem modUrec_hp (n : Nat) (f : URec → URec) (s : State) : (modUrec n f s).hp = s.hp := rfl
@[simp] theorem modUrec_q (n : Nat) (f : URec → URec) (s : State) : (modUrec n f s).q = s.q := rfl
@[simp] theorem modUrec_sch (n : Nat) (f : URec → URec) (s : State) : (modUrec n f s).sch = s.sch := rfl
@[simp] theorem modUrec_sec (n : Nat) (f : URec → URec) (s : State) : (modUrec n f s).sec = s.sec := rfl
@[simp] theorem modUrec_pwr (n : Nat) (f : URec → URec) (s : State) : (modUrec n f s).pwr = s.pwr := rfl
@[simp] theorem modUrec_ras (n : Nat) (f : URec → URec) (s : State) : (modUrec n f s).ras = s.ras := rfl
@[simp] theorem modUrec_evr (n : Nat) (f : URec → URec) (s : State) : (modUrec n f s).evr = s.evr := rfl
@[simp] theorem modPeer_pending (d : Nat) (f : Peer → Peer) (s : State) : (modPeer d f s).pending = s.pending := rfl
@[simp] theorem modPeer_free (d : Nat) (f : Peer → Peer) (s : State) : (modPeer d f s).free = s.free := rfl
@[simp] theorem modPeer_out (d : Nat) (f : Peer → Peer) (s : State) : (modPeer d f s).out = s.out := rfl
@[simp] theorem modPeer_edits (d : Nat) (f : Peer → Peer) (s : State) : (modPeer d f s).edits = s.edits := rfl
@[simp] theorem modPeer_chip (d : Nat) (f : Peer → Peer) (s : State) : (modPeer d f s).chip = s.chip := rfl
@[simp] theorem modPeer_lm (d : Nat) (f : Peer → Peer) (s : State) : (modPeer d f s).lm = s.lm := rfl
@[simp] theorem modPeer_img (d : Nat) (f : Peer → Peer) (s : State) : (modPeer d f s).img = s.img := rfl
@[simp] theorem modPeer_cu (d : Nat) (f : Peer → Peer) (s : State) : (modPeer d f s).cu = s.cu := rfl
@[simp] theorem modPeer_mem (d : Nat) (f : Peer → Peer) (s : State) : (modPeer d f s).mem = s.mem := rfl
@[simp] theorem modPeer_xl (d : Nat) (f : Peer → Peer) (s : State) : (modPeer d f s).xl = s.xl := rfl
@[simp] theorem modPeer_noc (d : Nat) (f : Peer → Peer) (s : State) : (modPeer d f s).noc = s.noc := rfl
@[simp] theorem modPeer_dr (d : Nat) (f : Peer → Peer) (s : State) : (modPeer d f s).dr = s.dr := rfl
@[simp] theorem modPeer_hp (d : Nat) (f : Peer → Peer) (s : State) : (modPeer d f s).hp = s.hp := rfl
@[simp] theorem modPeer_q (d : Nat) (f : Peer → Peer) (s : State) : (modPeer d f s).q = s.q := rfl
@[simp] theorem modPeer_sch (d : Nat) (f : Peer → Peer) (s : State) : (modPeer d f s).sch = s.sch := rfl
@[simp] theorem modPeer_sec (d : Nat) (f : Peer → Peer) (s : State) : (modPeer d f s).sec = s.sec := rfl
@[simp] theorem modPeer_pwr (d : Nat) (f : Peer → Peer) (s : State) : (modPeer d f s).pwr = s.pwr := rfl
@[simp] theorem modPeer_ras (d : Nat) (f : Peer → Peer) (s : State) : (modPeer d f s).ras = s.ras := rfl
@[simp] theorem modPeer_evr (d : Nat) (f : Peer → Peer) (s : State) : (modPeer d f s).evr = s.evr := rfl
@[simp] theorem modUt_pending (f : Ut → Ut) (s : State) : (modUt f s).pending = s.pending := rfl
@[simp] theorem modUt_free (f : Ut → Ut) (s : State) : (modUt f s).free = s.free := rfl
@[simp] theorem modUt_out (f : Ut → Ut) (s : State) : (modUt f s).out = s.out := rfl
@[simp] theorem modUt_edits (f : Ut → Ut) (s : State) : (modUt f s).edits = s.edits := rfl
@[simp] theorem modUt_chip (f : Ut → Ut) (s : State) : (modUt f s).chip = s.chip := rfl
@[simp] theorem modUt_lm (f : Ut → Ut) (s : State) : (modUt f s).lm = s.lm := rfl
@[simp] theorem modUt_img (f : Ut → Ut) (s : State) : (modUt f s).img = s.img := rfl
@[simp] theorem modUt_cu (f : Ut → Ut) (s : State) : (modUt f s).cu = s.cu := rfl
@[simp] theorem modUt_mem (f : Ut → Ut) (s : State) : (modUt f s).mem = s.mem := rfl
@[simp] theorem modUt_xl (f : Ut → Ut) (s : State) : (modUt f s).xl = s.xl := rfl
@[simp] theorem modUt_noc (f : Ut → Ut) (s : State) : (modUt f s).noc = s.noc := rfl
@[simp] theorem modUt_dr (f : Ut → Ut) (s : State) : (modUt f s).dr = s.dr := rfl
@[simp] theorem modUt_hp (f : Ut → Ut) (s : State) : (modUt f s).hp = s.hp := rfl
@[simp] theorem modUt_q (f : Ut → Ut) (s : State) : (modUt f s).q = s.q := rfl
@[simp] theorem modUt_sch (f : Ut → Ut) (s : State) : (modUt f s).sch = s.sch := rfl
@[simp] theorem modUt_sec (f : Ut → Ut) (s : State) : (modUt f s).sec = s.sec := rfl
@[simp] theorem modUt_pwr (f : Ut → Ut) (s : State) : (modUt f s).pwr = s.pwr := rfl
@[simp] theorem modUt_ras (f : Ut → Ut) (s : State) : (modUt f s).ras = s.ras := rfl
@[simp] theorem modUt_evr (f : Ut → Ut) (s : State) : (modUt f s).evr = s.evr := rfl
@[simp] theorem modHport_pending (p : Nat) (f : HPort → HPort) (s : State) : (modHport p f s).pending = s.pending := rfl
@[simp] theorem modHport_free (p : Nat) (f : HPort → HPort) (s : State) : (modHport p f s).free = s.free := rfl
@[simp] theorem modHport_out (p : Nat) (f : HPort → HPort) (s : State) : (modHport p f s).out = s.out := rfl
@[simp] theorem modHport_edits (p : Nat) (f : HPort → HPort) (s : State) : (modHport p f s).edits = s.edits := rfl
@[simp] theorem modHport_chip (p : Nat) (f : HPort → HPort) (s : State) : (modHport p f s).chip = s.chip := rfl
@[simp] theorem modHport_lm (p : Nat) (f : HPort → HPort) (s : State) : (modHport p f s).lm = s.lm := rfl
@[simp] theorem modHport_img (p : Nat) (f : HPort → HPort) (s : State) : (modHport p f s).img = s.img := rfl
@[simp] theorem modHport_cu (p : Nat) (f : HPort → HPort) (s : State) : (modHport p f s).cu = s.cu := rfl
@[simp] theorem modHport_mem (p : Nat) (f : HPort → HPort) (s : State) : (modHport p f s).mem = s.mem := rfl
@[simp] theorem modHport_xl (p : Nat) (f : HPort → HPort) (s : State) : (modHport p f s).xl = s.xl := rfl
@[simp] theorem modHport_noc (p : Nat) (f : HPort → HPort) (s : State) : (modHport p f s).noc = s.noc := rfl
@[simp] theorem modHport_dr (p : Nat) (f : HPort → HPort) (s : State) : (modHport p f s).dr = s.dr := rfl
@[simp] theorem modHport_ut (p : Nat) (f : HPort → HPort) (s : State) : (modHport p f s).ut = s.ut := rfl
@[simp] theorem modHport_q (p : Nat) (f : HPort → HPort) (s : State) : (modHport p f s).q = s.q := rfl
@[simp] theorem modHport_sch (p : Nat) (f : HPort → HPort) (s : State) : (modHport p f s).sch = s.sch := rfl
@[simp] theorem modHport_sec (p : Nat) (f : HPort → HPort) (s : State) : (modHport p f s).sec = s.sec := rfl
@[simp] theorem modHport_pwr (p : Nat) (f : HPort → HPort) (s : State) : (modHport p f s).pwr = s.pwr := rfl
@[simp] theorem modHport_ras (p : Nat) (f : HPort → HPort) (s : State) : (modHport p f s).ras = s.ras := rfl
@[simp] theorem modHport_evr (p : Nat) (f : HPort → HPort) (s : State) : (modHport p f s).evr = s.evr := rfl
@[simp] theorem modSlot_pending (p : Nat) (n : Nat) (f : MbSlot → MbSlot) (s : State) : (modSlot p n f s).pending = s.pending := rfl
@[simp] theorem modSlot_free (p : Nat) (n : Nat) (f : MbSlot → MbSlot) (s : State) : (modSlot p n f s).free = s.free := rfl
@[simp] theorem modSlot_out (p : Nat) (n : Nat) (f : MbSlot → MbSlot) (s : State) : (modSlot p n f s).out = s.out := rfl
@[simp] theorem modSlot_edits (p : Nat) (n : Nat) (f : MbSlot → MbSlot) (s : State) : (modSlot p n f s).edits = s.edits := rfl
@[simp] theorem modSlot_chip (p : Nat) (n : Nat) (f : MbSlot → MbSlot) (s : State) : (modSlot p n f s).chip = s.chip := rfl
@[simp] theorem modSlot_lm (p : Nat) (n : Nat) (f : MbSlot → MbSlot) (s : State) : (modSlot p n f s).lm = s.lm := rfl
@[simp] theorem modSlot_img (p : Nat) (n : Nat) (f : MbSlot → MbSlot) (s : State) : (modSlot p n f s).img = s.img := rfl
@[simp] theorem modSlot_cu (p : Nat) (n : Nat) (f : MbSlot → MbSlot) (s : State) : (modSlot p n f s).cu = s.cu := rfl
@[simp] theorem modSlot_mem (p : Nat) (n : Nat) (f : MbSlot → MbSlot) (s : State) : (modSlot p n f s).mem = s.mem := rfl
@[simp] theorem modSlot_xl (p : Nat) (n : Nat) (f : MbSlot → MbSlot) (s : State) : (modSlot p n f s).xl = s.xl := rfl
@[simp] theorem modSlot_noc (p : Nat) (n : Nat) (f : MbSlot → MbSlot) (s : State) : (modSlot p n f s).noc = s.noc := rfl
@[simp] theorem modSlot_dr (p : Nat) (n : Nat) (f : MbSlot → MbSlot) (s : State) : (modSlot p n f s).dr = s.dr := rfl
@[simp] theorem modSlot_ut (p : Nat) (n : Nat) (f : MbSlot → MbSlot) (s : State) : (modSlot p n f s).ut = s.ut := rfl
@[simp] theorem modSlot_q (p : Nat) (n : Nat) (f : MbSlot → MbSlot) (s : State) : (modSlot p n f s).q = s.q := rfl
@[simp] theorem modSlot_sch (p : Nat) (n : Nat) (f : MbSlot → MbSlot) (s : State) : (modSlot p n f s).sch = s.sch := rfl
@[simp] theorem modSlot_sec (p : Nat) (n : Nat) (f : MbSlot → MbSlot) (s : State) : (modSlot p n f s).sec = s.sec := rfl
@[simp] theorem modSlot_pwr (p : Nat) (n : Nat) (f : MbSlot → MbSlot) (s : State) : (modSlot p n f s).pwr = s.pwr := rfl
@[simp] theorem modSlot_ras (p : Nat) (n : Nat) (f : MbSlot → MbSlot) (s : State) : (modSlot p n f s).ras = s.ras := rfl
@[simp] theorem modSlot_evr (p : Nat) (n : Nat) (f : MbSlot → MbSlot) (s : State) : (modSlot p n f s).evr = s.evr := rfl
@[simp] theorem modQueue_pending (l : Nat) (f : Queue → Queue) (s : State) : (modQueue l f s).pending = s.pending := rfl
@[simp] theorem modQueue_free (l : Nat) (f : Queue → Queue) (s : State) : (modQueue l f s).free = s.free := rfl
@[simp] theorem modQueue_out (l : Nat) (f : Queue → Queue) (s : State) : (modQueue l f s).out = s.out := rfl
@[simp] theorem modQueue_edits (l : Nat) (f : Queue → Queue) (s : State) : (modQueue l f s).edits = s.edits := rfl
@[simp] theorem modQueue_chip (l : Nat) (f : Queue → Queue) (s : State) : (modQueue l f s).chip = s.chip := rfl
@[simp] theorem modQueue_lm (l : Nat) (f : Queue → Queue) (s : State) : (modQueue l f s).lm = s.lm := rfl
@[simp] theorem modQueue_img (l : Nat) (f : Queue → Queue) (s : State) : (modQueue l f s).img = s.img := rfl
@[simp] theorem modQueue_cu (l : Nat) (f : Queue → Queue) (s : State) : (modQueue l f s).cu = s.cu := rfl
@[simp] theorem modQueue_mem (l : Nat) (f : Queue → Queue) (s : State) : (modQueue l f s).mem = s.mem := rfl
@[simp] theorem modQueue_xl (l : Nat) (f : Queue → Queue) (s : State) : (modQueue l f s).xl = s.xl := rfl
@[simp] theorem modQueue_noc (l : Nat) (f : Queue → Queue) (s : State) : (modQueue l f s).noc = s.noc := rfl
@[simp] theorem modQueue_dr (l : Nat) (f : Queue → Queue) (s : State) : (modQueue l f s).dr = s.dr := rfl
@[simp] theorem modQueue_ut (l : Nat) (f : Queue → Queue) (s : State) : (modQueue l f s).ut = s.ut := rfl
@[simp] theorem modQueue_hp (l : Nat) (f : Queue → Queue) (s : State) : (modQueue l f s).hp = s.hp := rfl
@[simp] theorem modQueue_sch (l : Nat) (f : Queue → Queue) (s : State) : (modQueue l f s).sch = s.sch := rfl
@[simp] theorem modQueue_sec (l : Nat) (f : Queue → Queue) (s : State) : (modQueue l f s).sec = s.sec := rfl
@[simp] theorem modQueue_pwr (l : Nat) (f : Queue → Queue) (s : State) : (modQueue l f s).pwr = s.pwr := rfl
@[simp] theorem modQueue_ras (l : Nat) (f : Queue → Queue) (s : State) : (modQueue l f s).ras = s.ras := rfl
@[simp] theorem modQueue_evr (l : Nat) (f : Queue → Queue) (s : State) : (modQueue l f s).evr = s.evr := rfl
@[simp] theorem modCtx_pending (c : Nat) (f : Ctx → Ctx) (s : State) : (modCtx c f s).pending = s.pending := rfl
@[simp] theorem modCtx_free (c : Nat) (f : Ctx → Ctx) (s : State) : (modCtx c f s).free = s.free := rfl
@[simp] theorem modCtx_out (c : Nat) (f : Ctx → Ctx) (s : State) : (modCtx c f s).out = s.out := rfl
@[simp] theorem modCtx_edits (c : Nat) (f : Ctx → Ctx) (s : State) : (modCtx c f s).edits = s.edits := rfl
@[simp] theorem modCtx_chip (c : Nat) (f : Ctx → Ctx) (s : State) : (modCtx c f s).chip = s.chip := rfl
@[simp] theorem modCtx_lm (c : Nat) (f : Ctx → Ctx) (s : State) : (modCtx c f s).lm = s.lm := rfl
@[simp] theorem modCtx_img (c : Nat) (f : Ctx → Ctx) (s : State) : (modCtx c f s).img = s.img := rfl
@[simp] theorem modCtx_cu (c : Nat) (f : Ctx → Ctx) (s : State) : (modCtx c f s).cu = s.cu := rfl
@[simp] theorem modCtx_mem (c : Nat) (f : Ctx → Ctx) (s : State) : (modCtx c f s).mem = s.mem := rfl
@[simp] theorem modCtx_xl (c : Nat) (f : Ctx → Ctx) (s : State) : (modCtx c f s).xl = s.xl := rfl
@[simp] theorem modCtx_noc (c : Nat) (f : Ctx → Ctx) (s : State) : (modCtx c f s).noc = s.noc := rfl
@[simp] theorem modCtx_dr (c : Nat) (f : Ctx → Ctx) (s : State) : (modCtx c f s).dr = s.dr := rfl
@[simp] theorem modCtx_ut (c : Nat) (f : Ctx → Ctx) (s : State) : (modCtx c f s).ut = s.ut := rfl
@[simp] theorem modCtx_hp (c : Nat) (f : Ctx → Ctx) (s : State) : (modCtx c f s).hp = s.hp := rfl
@[simp] theorem modCtx_q (c : Nat) (f : Ctx → Ctx) (s : State) : (modCtx c f s).q = s.q := rfl
@[simp] theorem modCtx_sec (c : Nat) (f : Ctx → Ctx) (s : State) : (modCtx c f s).sec = s.sec := rfl
@[simp] theorem modCtx_pwr (c : Nat) (f : Ctx → Ctx) (s : State) : (modCtx c f s).pwr = s.pwr := rfl
@[simp] theorem modCtx_ras (c : Nat) (f : Ctx → Ctx) (s : State) : (modCtx c f s).ras = s.ras := rfl
@[simp] theorem modCtx_evr (c : Nat) (f : Ctx → Ctx) (s : State) : (modCtx c f s).evr = s.evr := rfl
@[simp] theorem modSched_pending (l : Nat) (f : Sched → Sched) (s : State) : (modSched l f s).pending = s.pending := rfl
@[simp] theorem modSched_free (l : Nat) (f : Sched → Sched) (s : State) : (modSched l f s).free = s.free := rfl
@[simp] theorem modSched_out (l : Nat) (f : Sched → Sched) (s : State) : (modSched l f s).out = s.out := rfl
@[simp] theorem modSched_edits (l : Nat) (f : Sched → Sched) (s : State) : (modSched l f s).edits = s.edits := rfl
@[simp] theorem modSched_chip (l : Nat) (f : Sched → Sched) (s : State) : (modSched l f s).chip = s.chip := rfl
@[simp] theorem modSched_lm (l : Nat) (f : Sched → Sched) (s : State) : (modSched l f s).lm = s.lm := rfl
@[simp] theorem modSched_img (l : Nat) (f : Sched → Sched) (s : State) : (modSched l f s).img = s.img := rfl
@[simp] theorem modSched_cu (l : Nat) (f : Sched → Sched) (s : State) : (modSched l f s).cu = s.cu := rfl
@[simp] theorem modSched_mem (l : Nat) (f : Sched → Sched) (s : State) : (modSched l f s).mem = s.mem := rfl
@[simp] theorem modSched_xl (l : Nat) (f : Sched → Sched) (s : State) : (modSched l f s).xl = s.xl := rfl
@[simp] theorem modSched_noc (l : Nat) (f : Sched → Sched) (s : State) : (modSched l f s).noc = s.noc := rfl
@[simp] theorem modSched_dr (l : Nat) (f : Sched → Sched) (s : State) : (modSched l f s).dr = s.dr := rfl
@[simp] theorem modSched_ut (l : Nat) (f : Sched → Sched) (s : State) : (modSched l f s).ut = s.ut := rfl
@[simp] theorem modSched_hp (l : Nat) (f : Sched → Sched) (s : State) : (modSched l f s).hp = s.hp := rfl
@[simp] theorem modSched_q (l : Nat) (f : Sched → Sched) (s : State) : (modSched l f s).q = s.q := rfl
@[simp] theorem modSched_sec (l : Nat) (f : Sched → Sched) (s : State) : (modSched l f s).sec = s.sec := rfl
@[simp] theorem modSched_pwr (l : Nat) (f : Sched → Sched) (s : State) : (modSched l f s).pwr = s.pwr := rfl
@[simp] theorem modSched_ras (l : Nat) (f : Sched → Sched) (s : State) : (modSched l f s).ras = s.ras := rfl
@[simp] theorem modSched_evr (l : Nat) (f : Sched → Sched) (s : State) : (modSched l f s).evr = s.evr := rfl
@[simp] theorem modVslot_pending (n : Nat) (f : VSlot → VSlot) (s : State) : (modVslot n f s).pending = s.pending := rfl
@[simp] theorem modVslot_free (n : Nat) (f : VSlot → VSlot) (s : State) : (modVslot n f s).free = s.free := rfl
@[simp] theorem modVslot_out (n : Nat) (f : VSlot → VSlot) (s : State) : (modVslot n f s).out = s.out := rfl
@[simp] theorem modVslot_edits (n : Nat) (f : VSlot → VSlot) (s : State) : (modVslot n f s).edits = s.edits := rfl
@[simp] theorem modVslot_chip (n : Nat) (f : VSlot → VSlot) (s : State) : (modVslot n f s).chip = s.chip := rfl
@[simp] theorem modVslot_lm (n : Nat) (f : VSlot → VSlot) (s : State) : (modVslot n f s).lm = s.lm := rfl
@[simp] theorem modVslot_img (n : Nat) (f : VSlot → VSlot) (s : State) : (modVslot n f s).img = s.img := rfl
@[simp] theorem modVslot_cu (n : Nat) (f : VSlot → VSlot) (s : State) : (modVslot n f s).cu = s.cu := rfl
@[simp] theorem modVslot_mem (n : Nat) (f : VSlot → VSlot) (s : State) : (modVslot n f s).mem = s.mem := rfl
@[simp] theorem modVslot_xl (n : Nat) (f : VSlot → VSlot) (s : State) : (modVslot n f s).xl = s.xl := rfl
@[simp] theorem modVslot_noc (n : Nat) (f : VSlot → VSlot) (s : State) : (modVslot n f s).noc = s.noc := rfl
@[simp] theorem modVslot_dr (n : Nat) (f : VSlot → VSlot) (s : State) : (modVslot n f s).dr = s.dr := rfl
@[simp] theorem modVslot_ut (n : Nat) (f : VSlot → VSlot) (s : State) : (modVslot n f s).ut = s.ut := rfl
@[simp] theorem modVslot_hp (n : Nat) (f : VSlot → VSlot) (s : State) : (modVslot n f s).hp = s.hp := rfl
@[simp] theorem modVslot_q (n : Nat) (f : VSlot → VSlot) (s : State) : (modVslot n f s).q = s.q := rfl
@[simp] theorem modVslot_sch (n : Nat) (f : VSlot → VSlot) (s : State) : (modVslot n f s).sch = s.sch := rfl
@[simp] theorem modVslot_pwr (n : Nat) (f : VSlot → VSlot) (s : State) : (modVslot n f s).pwr = s.pwr := rfl
@[simp] theorem modVslot_ras (n : Nat) (f : VSlot → VSlot) (s : State) : (modVslot n f s).ras = s.ras := rfl
@[simp] theorem modVslot_evr (n : Nat) (f : VSlot → VSlot) (s : State) : (modVslot n f s).evr = s.evr := rfl
@[simp] theorem modSec_pending (f : Sec → Sec) (s : State) : (modSec f s).pending = s.pending := rfl
@[simp] theorem modSec_free (f : Sec → Sec) (s : State) : (modSec f s).free = s.free := rfl
@[simp] theorem modSec_out (f : Sec → Sec) (s : State) : (modSec f s).out = s.out := rfl
@[simp] theorem modSec_edits (f : Sec → Sec) (s : State) : (modSec f s).edits = s.edits := rfl
@[simp] theorem modSec_chip (f : Sec → Sec) (s : State) : (modSec f s).chip = s.chip := rfl
@[simp] theorem modSec_lm (f : Sec → Sec) (s : State) : (modSec f s).lm = s.lm := rfl
@[simp] theorem modSec_img (f : Sec → Sec) (s : State) : (modSec f s).img = s.img := rfl
@[simp] theorem modSec_cu (f : Sec → Sec) (s : State) : (modSec f s).cu = s.cu := rfl
@[simp] theorem modSec_mem (f : Sec → Sec) (s : State) : (modSec f s).mem = s.mem := rfl
@[simp] theorem modSec_xl (f : Sec → Sec) (s : State) : (modSec f s).xl = s.xl := rfl
@[simp] theorem modSec_noc (f : Sec → Sec) (s : State) : (modSec f s).noc = s.noc := rfl
@[simp] theorem modSec_dr (f : Sec → Sec) (s : State) : (modSec f s).dr = s.dr := rfl
@[simp] theorem modSec_ut (f : Sec → Sec) (s : State) : (modSec f s).ut = s.ut := rfl
@[simp] theorem modSec_hp (f : Sec → Sec) (s : State) : (modSec f s).hp = s.hp := rfl
@[simp] theorem modSec_q (f : Sec → Sec) (s : State) : (modSec f s).q = s.q := rfl
@[simp] theorem modSec_sch (f : Sec → Sec) (s : State) : (modSec f s).sch = s.sch := rfl
@[simp] theorem modSec_pwr (f : Sec → Sec) (s : State) : (modSec f s).pwr = s.pwr := rfl
@[simp] theorem modSec_ras (f : Sec → Sec) (s : State) : (modSec f s).ras = s.ras := rfl
@[simp] theorem modSec_evr (f : Sec → Sec) (s : State) : (modSec f s).evr = s.evr := rfl
@[simp] theorem modPreg_pending (r : Nat) (f : PRegion → PRegion) (s : State) : (modPreg r f s).pending = s.pending := rfl
@[simp] theorem modPreg_free (r : Nat) (f : PRegion → PRegion) (s : State) : (modPreg r f s).free = s.free := rfl
@[simp] theorem modPreg_out (r : Nat) (f : PRegion → PRegion) (s : State) : (modPreg r f s).out = s.out := rfl
@[simp] theorem modPreg_edits (r : Nat) (f : PRegion → PRegion) (s : State) : (modPreg r f s).edits = s.edits := rfl
@[simp] theorem modPreg_chip (r : Nat) (f : PRegion → PRegion) (s : State) : (modPreg r f s).chip = s.chip := rfl
@[simp] theorem modPreg_lm (r : Nat) (f : PRegion → PRegion) (s : State) : (modPreg r f s).lm = s.lm := rfl
@[simp] theorem modPreg_img (r : Nat) (f : PRegion → PRegion) (s : State) : (modPreg r f s).img = s.img := rfl
@[simp] theorem modPreg_cu (r : Nat) (f : PRegion → PRegion) (s : State) : (modPreg r f s).cu = s.cu := rfl
@[simp] theorem modPreg_mem (r : Nat) (f : PRegion → PRegion) (s : State) : (modPreg r f s).mem = s.mem := rfl
@[simp] theorem modPreg_xl (r : Nat) (f : PRegion → PRegion) (s : State) : (modPreg r f s).xl = s.xl := rfl
@[simp] theorem modPreg_noc (r : Nat) (f : PRegion → PRegion) (s : State) : (modPreg r f s).noc = s.noc := rfl
@[simp] theorem modPreg_dr (r : Nat) (f : PRegion → PRegion) (s : State) : (modPreg r f s).dr = s.dr := rfl
@[simp] theorem modPreg_ut (r : Nat) (f : PRegion → PRegion) (s : State) : (modPreg r f s).ut = s.ut := rfl
@[simp] theorem modPreg_hp (r : Nat) (f : PRegion → PRegion) (s : State) : (modPreg r f s).hp = s.hp := rfl
@[simp] theorem modPreg_q (r : Nat) (f : PRegion → PRegion) (s : State) : (modPreg r f s).q = s.q := rfl
@[simp] theorem modPreg_sch (r : Nat) (f : PRegion → PRegion) (s : State) : (modPreg r f s).sch = s.sch := rfl
@[simp] theorem modPreg_sec (r : Nat) (f : PRegion → PRegion) (s : State) : (modPreg r f s).sec = s.sec := rfl
@[simp] theorem modPreg_ras (r : Nat) (f : PRegion → PRegion) (s : State) : (modPreg r f s).ras = s.ras := rfl
@[simp] theorem modPreg_evr (r : Nat) (f : PRegion → PRegion) (s : State) : (modPreg r f s).evr = s.evr := rfl
@[simp] theorem modPblk_pending (b : Nat) (f : PBlock → PBlock) (s : State) : (modPblk b f s).pending = s.pending := rfl
@[simp] theorem modPblk_free (b : Nat) (f : PBlock → PBlock) (s : State) : (modPblk b f s).free = s.free := rfl
@[simp] theorem modPblk_out (b : Nat) (f : PBlock → PBlock) (s : State) : (modPblk b f s).out = s.out := rfl
@[simp] theorem modPblk_edits (b : Nat) (f : PBlock → PBlock) (s : State) : (modPblk b f s).edits = s.edits := rfl
@[simp] theorem modPblk_chip (b : Nat) (f : PBlock → PBlock) (s : State) : (modPblk b f s).chip = s.chip := rfl
@[simp] theorem modPblk_lm (b : Nat) (f : PBlock → PBlock) (s : State) : (modPblk b f s).lm = s.lm := rfl
@[simp] theorem modPblk_img (b : Nat) (f : PBlock → PBlock) (s : State) : (modPblk b f s).img = s.img := rfl
@[simp] theorem modPblk_cu (b : Nat) (f : PBlock → PBlock) (s : State) : (modPblk b f s).cu = s.cu := rfl
@[simp] theorem modPblk_mem (b : Nat) (f : PBlock → PBlock) (s : State) : (modPblk b f s).mem = s.mem := rfl
@[simp] theorem modPblk_xl (b : Nat) (f : PBlock → PBlock) (s : State) : (modPblk b f s).xl = s.xl := rfl
@[simp] theorem modPblk_noc (b : Nat) (f : PBlock → PBlock) (s : State) : (modPblk b f s).noc = s.noc := rfl
@[simp] theorem modPblk_dr (b : Nat) (f : PBlock → PBlock) (s : State) : (modPblk b f s).dr = s.dr := rfl
@[simp] theorem modPblk_ut (b : Nat) (f : PBlock → PBlock) (s : State) : (modPblk b f s).ut = s.ut := rfl
@[simp] theorem modPblk_hp (b : Nat) (f : PBlock → PBlock) (s : State) : (modPblk b f s).hp = s.hp := rfl
@[simp] theorem modPblk_q (b : Nat) (f : PBlock → PBlock) (s : State) : (modPblk b f s).q = s.q := rfl
@[simp] theorem modPblk_sch (b : Nat) (f : PBlock → PBlock) (s : State) : (modPblk b f s).sch = s.sch := rfl
@[simp] theorem modPblk_sec (b : Nat) (f : PBlock → PBlock) (s : State) : (modPblk b f s).sec = s.sec := rfl
@[simp] theorem modPblk_ras (b : Nat) (f : PBlock → PBlock) (s : State) : (modPblk b f s).ras = s.ras := rfl
@[simp] theorem modPblk_evr (b : Nat) (f : PBlock → PBlock) (s : State) : (modPblk b f s).evr = s.evr := rfl
@[simp] theorem modPwr_pending (f : Pwr → Pwr) (s : State) : (modPwr f s).pending = s.pending := rfl
@[simp] theorem modPwr_free (f : Pwr → Pwr) (s : State) : (modPwr f s).free = s.free := rfl
@[simp] theorem modPwr_out (f : Pwr → Pwr) (s : State) : (modPwr f s).out = s.out := rfl
@[simp] theorem modPwr_edits (f : Pwr → Pwr) (s : State) : (modPwr f s).edits = s.edits := rfl
@[simp] theorem modPwr_chip (f : Pwr → Pwr) (s : State) : (modPwr f s).chip = s.chip := rfl
@[simp] theorem modPwr_lm (f : Pwr → Pwr) (s : State) : (modPwr f s).lm = s.lm := rfl
@[simp] theorem modPwr_img (f : Pwr → Pwr) (s : State) : (modPwr f s).img = s.img := rfl
@[simp] theorem modPwr_cu (f : Pwr → Pwr) (s : State) : (modPwr f s).cu = s.cu := rfl
@[simp] theorem modPwr_mem (f : Pwr → Pwr) (s : State) : (modPwr f s).mem = s.mem := rfl
@[simp] theorem modPwr_xl (f : Pwr → Pwr) (s : State) : (modPwr f s).xl = s.xl := rfl
@[simp] theorem modPwr_noc (f : Pwr → Pwr) (s : State) : (modPwr f s).noc = s.noc := rfl
@[simp] theorem modPwr_dr (f : Pwr → Pwr) (s : State) : (modPwr f s).dr = s.dr := rfl
@[simp] theorem modPwr_ut (f : Pwr → Pwr) (s : State) : (modPwr f s).ut = s.ut := rfl
@[simp] theorem modPwr_hp (f : Pwr → Pwr) (s : State) : (modPwr f s).hp = s.hp := rfl
@[simp] theorem modPwr_q (f : Pwr → Pwr) (s : State) : (modPwr f s).q = s.q := rfl
@[simp] theorem modPwr_sch (f : Pwr → Pwr) (s : State) : (modPwr f s).sch = s.sch := rfl
@[simp] theorem modPwr_sec (f : Pwr → Pwr) (s : State) : (modPwr f s).sec = s.sec := rfl
@[simp] theorem modPwr_ras (f : Pwr → Pwr) (s : State) : (modPwr f s).ras = s.ras := rfl
@[simp] theorem modPwr_evr (f : Pwr → Pwr) (s : State) : (modPwr f s).evr = s.evr := rfl
@[simp] theorem modFc_pending (u : HwUnit) (f : Fc → Fc) (s : State) : (modFc u f s).pending = s.pending := rfl
@[simp] theorem modFc_free (u : HwUnit) (f : Fc → Fc) (s : State) : (modFc u f s).free = s.free := rfl
@[simp] theorem modFc_out (u : HwUnit) (f : Fc → Fc) (s : State) : (modFc u f s).out = s.out := rfl
@[simp] theorem modFc_edits (u : HwUnit) (f : Fc → Fc) (s : State) : (modFc u f s).edits = s.edits := rfl
@[simp] theorem modFc_chip (u : HwUnit) (f : Fc → Fc) (s : State) : (modFc u f s).chip = s.chip := rfl
@[simp] theorem modFc_lm (u : HwUnit) (f : Fc → Fc) (s : State) : (modFc u f s).lm = s.lm := rfl
@[simp] theorem modFc_img (u : HwUnit) (f : Fc → Fc) (s : State) : (modFc u f s).img = s.img := rfl
@[simp] theorem modFc_cu (u : HwUnit) (f : Fc → Fc) (s : State) : (modFc u f s).cu = s.cu := rfl
@[simp] theorem modFc_mem (u : HwUnit) (f : Fc → Fc) (s : State) : (modFc u f s).mem = s.mem := rfl
@[simp] theorem modFc_xl (u : HwUnit) (f : Fc → Fc) (s : State) : (modFc u f s).xl = s.xl := rfl
@[simp] theorem modFc_noc (u : HwUnit) (f : Fc → Fc) (s : State) : (modFc u f s).noc = s.noc := rfl
@[simp] theorem modFc_dr (u : HwUnit) (f : Fc → Fc) (s : State) : (modFc u f s).dr = s.dr := rfl
@[simp] theorem modFc_ut (u : HwUnit) (f : Fc → Fc) (s : State) : (modFc u f s).ut = s.ut := rfl
@[simp] theorem modFc_hp (u : HwUnit) (f : Fc → Fc) (s : State) : (modFc u f s).hp = s.hp := rfl
@[simp] theorem modFc_q (u : HwUnit) (f : Fc → Fc) (s : State) : (modFc u f s).q = s.q := rfl
@[simp] theorem modFc_sch (u : HwUnit) (f : Fc → Fc) (s : State) : (modFc u f s).sch = s.sch := rfl
@[simp] theorem modFc_sec (u : HwUnit) (f : Fc → Fc) (s : State) : (modFc u f s).sec = s.sec := rfl
@[simp] theorem modFc_pwr (u : HwUnit) (f : Fc → Fc) (s : State) : (modFc u f s).pwr = s.pwr := rfl
@[simp] theorem modFc_evr (u : HwUnit) (f : Fc → Fc) (s : State) : (modFc u f s).evr = s.evr := rfl
@[simp] theorem modRas_pending (f : Ras → Ras) (s : State) : (modRas f s).pending = s.pending := rfl
@[simp] theorem modRas_free (f : Ras → Ras) (s : State) : (modRas f s).free = s.free := rfl
@[simp] theorem modRas_out (f : Ras → Ras) (s : State) : (modRas f s).out = s.out := rfl
@[simp] theorem modRas_edits (f : Ras → Ras) (s : State) : (modRas f s).edits = s.edits := rfl
@[simp] theorem modRas_chip (f : Ras → Ras) (s : State) : (modRas f s).chip = s.chip := rfl
@[simp] theorem modRas_lm (f : Ras → Ras) (s : State) : (modRas f s).lm = s.lm := rfl
@[simp] theorem modRas_img (f : Ras → Ras) (s : State) : (modRas f s).img = s.img := rfl
@[simp] theorem modRas_cu (f : Ras → Ras) (s : State) : (modRas f s).cu = s.cu := rfl
@[simp] theorem modRas_mem (f : Ras → Ras) (s : State) : (modRas f s).mem = s.mem := rfl
@[simp] theorem modRas_xl (f : Ras → Ras) (s : State) : (modRas f s).xl = s.xl := rfl
@[simp] theorem modRas_noc (f : Ras → Ras) (s : State) : (modRas f s).noc = s.noc := rfl
@[simp] theorem modRas_dr (f : Ras → Ras) (s : State) : (modRas f s).dr = s.dr := rfl
@[simp] theorem modRas_ut (f : Ras → Ras) (s : State) : (modRas f s).ut = s.ut := rfl
@[simp] theorem modRas_hp (f : Ras → Ras) (s : State) : (modRas f s).hp = s.hp := rfl
@[simp] theorem modRas_q (f : Ras → Ras) (s : State) : (modRas f s).q = s.q := rfl
@[simp] theorem modRas_sch (f : Ras → Ras) (s : State) : (modRas f s).sch = s.sch := rfl
@[simp] theorem modRas_sec (f : Ras → Ras) (s : State) : (modRas f s).sec = s.sec := rfl
@[simp] theorem modRas_pwr (f : Ras → Ras) (s : State) : (modRas f s).pwr = s.pwr := rfl
@[simp] theorem modRas_evr (f : Ras → Ras) (s : State) : (modRas f s).evr = s.evr := rfl
@[simp] theorem modEvr_pending (f : Evr → Evr) (s : State) : (modEvr f s).pending = s.pending := rfl
@[simp] theorem modEvr_free (f : Evr → Evr) (s : State) : (modEvr f s).free = s.free := rfl
@[simp] theorem modEvr_out (f : Evr → Evr) (s : State) : (modEvr f s).out = s.out := rfl
@[simp] theorem modEvr_edits (f : Evr → Evr) (s : State) : (modEvr f s).edits = s.edits := rfl
@[simp] theorem modEvr_chip (f : Evr → Evr) (s : State) : (modEvr f s).chip = s.chip := rfl
@[simp] theorem modEvr_lm (f : Evr → Evr) (s : State) : (modEvr f s).lm = s.lm := rfl
@[simp] theorem modEvr_img (f : Evr → Evr) (s : State) : (modEvr f s).img = s.img := rfl
@[simp] theorem modEvr_cu (f : Evr → Evr) (s : State) : (modEvr f s).cu = s.cu := rfl
@[simp] theorem modEvr_mem (f : Evr → Evr) (s : State) : (modEvr f s).mem = s.mem := rfl
@[simp] theorem modEvr_xl (f : Evr → Evr) (s : State) : (modEvr f s).xl = s.xl := rfl
@[simp] theorem modEvr_noc (f : Evr → Evr) (s : State) : (modEvr f s).noc = s.noc := rfl
@[simp] theorem modEvr_dr (f : Evr → Evr) (s : State) : (modEvr f s).dr = s.dr := rfl
@[simp] theorem modEvr_ut (f : Evr → Evr) (s : State) : (modEvr f s).ut = s.ut := rfl
@[simp] theorem modEvr_hp (f : Evr → Evr) (s : State) : (modEvr f s).hp = s.hp := rfl
@[simp] theorem modEvr_q (f : Evr → Evr) (s : State) : (modEvr f s).q = s.q := rfl
@[simp] theorem modEvr_sch (f : Evr → Evr) (s : State) : (modEvr f s).sch = s.sch := rfl
@[simp] theorem modEvr_sec (f : Evr → Evr) (s : State) : (modEvr f s).sec = s.sec := rfl
@[simp] theorem modEvr_pwr (f : Evr → Evr) (s : State) : (modEvr f s).pwr = s.pwr := rfl
@[simp] theorem modEvr_ras (f : Evr → Evr) (s : State) : (modEvr f s).ras = s.ras := rfl
@[simp] theorem modChip_pending (f : Chip → Chip) (s : State) : (modChip f s).pending = s.pending := rfl
@[simp] theorem modChip_free (f : Chip → Chip) (s : State) : (modChip f s).free = s.free := rfl
@[simp] theorem modChip_out (f : Chip → Chip) (s : State) : (modChip f s).out = s.out := rfl
@[simp] theorem modChip_edits (f : Chip → Chip) (s : State) : (modChip f s).edits = s.edits := rfl
@[simp] theorem modChip_lm (f : Chip → Chip) (s : State) : (modChip f s).lm = s.lm := rfl
@[simp] theorem modChip_img (f : Chip → Chip) (s : State) : (modChip f s).img = s.img := rfl
@[simp] theorem modChip_cu (f : Chip → Chip) (s : State) : (modChip f s).cu = s.cu := rfl
@[simp] theorem modChip_mem (f : Chip → Chip) (s : State) : (modChip f s).mem = s.mem := rfl
@[simp] theorem modChip_xl (f : Chip → Chip) (s : State) : (modChip f s).xl = s.xl := rfl
@[simp] theorem modChip_noc (f : Chip → Chip) (s : State) : (modChip f s).noc = s.noc := rfl
@[simp] theorem modChip_dr (f : Chip → Chip) (s : State) : (modChip f s).dr = s.dr := rfl
@[simp] theorem modChip_ut (f : Chip → Chip) (s : State) : (modChip f s).ut = s.ut := rfl
@[simp] theorem modChip_hp (f : Chip → Chip) (s : State) : (modChip f s).hp = s.hp := rfl
@[simp] theorem modChip_q (f : Chip → Chip) (s : State) : (modChip f s).q = s.q := rfl
@[simp] theorem modChip_sch (f : Chip → Chip) (s : State) : (modChip f s).sch = s.sch := rfl
@[simp] theorem modChip_sec (f : Chip → Chip) (s : State) : (modChip f s).sec = s.sec := rfl
@[simp] theorem modChip_pwr (f : Chip → Chip) (s : State) : (modChip f s).pwr = s.pwr := rfl
@[simp] theorem modChip_ras (f : Chip → Chip) (s : State) : (modChip f s).ras = s.ras := rfl
@[simp] theorem modChip_evr (f : Chip → Chip) (s : State) : (modChip f s).evr = s.evr := rfl
@[simp] theorem modImg_pending (f : ImageStore → ImageStore) (s : State) : (modImg f s).pending = s.pending := rfl
@[simp] theorem modImg_free (f : ImageStore → ImageStore) (s : State) : (modImg f s).free = s.free := rfl
@[simp] theorem modImg_out (f : ImageStore → ImageStore) (s : State) : (modImg f s).out = s.out := rfl
@[simp] theorem modImg_edits (f : ImageStore → ImageStore) (s : State) : (modImg f s).edits = s.edits := rfl
@[simp] theorem modImg_chip (f : ImageStore → ImageStore) (s : State) : (modImg f s).chip = s.chip := rfl
@[simp] theorem modImg_lm (f : ImageStore → ImageStore) (s : State) : (modImg f s).lm = s.lm := rfl
@[simp] theorem modImg_cu (f : ImageStore → ImageStore) (s : State) : (modImg f s).cu = s.cu := rfl
@[simp] theorem modImg_mem (f : ImageStore → ImageStore) (s : State) : (modImg f s).mem = s.mem := rfl
@[simp] theorem modImg_xl (f : ImageStore → ImageStore) (s : State) : (modImg f s).xl = s.xl := rfl
@[simp] theorem modImg_noc (f : ImageStore → ImageStore) (s : State) : (modImg f s).noc = s.noc := rfl
@[simp] theorem modImg_dr (f : ImageStore → ImageStore) (s : State) : (modImg f s).dr = s.dr := rfl
@[simp] theorem modImg_ut (f : ImageStore → ImageStore) (s : State) : (modImg f s).ut = s.ut := rfl
@[simp] theorem modImg_hp (f : ImageStore → ImageStore) (s : State) : (modImg f s).hp = s.hp := rfl
@[simp] theorem modImg_q (f : ImageStore → ImageStore) (s : State) : (modImg f s).q = s.q := rfl
@[simp] theorem modImg_sch (f : ImageStore → ImageStore) (s : State) : (modImg f s).sch = s.sch := rfl
@[simp] theorem modImg_sec (f : ImageStore → ImageStore) (s : State) : (modImg f s).sec = s.sec := rfl
@[simp] theorem modImg_pwr (f : ImageStore → ImageStore) (s : State) : (modImg f s).pwr = s.pwr := rfl
@[simp] theorem modImg_ras (f : ImageStore → ImageStore) (s : State) : (modImg f s).ras = s.ras := rfl
@[simp] theorem modImg_evr (f : ImageStore → ImageStore) (s : State) : (modImg f s).evr = s.evr := rfl
@[simp] theorem modNoc_pending (f : Noc → Noc) (s : State) : (modNoc f s).pending = s.pending := rfl
@[simp] theorem modNoc_free (f : Noc → Noc) (s : State) : (modNoc f s).free = s.free := rfl
@[simp] theorem modNoc_out (f : Noc → Noc) (s : State) : (modNoc f s).out = s.out := rfl
@[simp] theorem modNoc_edits (f : Noc → Noc) (s : State) : (modNoc f s).edits = s.edits := rfl
@[simp] theorem modNoc_chip (f : Noc → Noc) (s : State) : (modNoc f s).chip = s.chip := rfl
@[simp] theorem modNoc_lm (f : Noc → Noc) (s : State) : (modNoc f s).lm = s.lm := rfl
@[simp] theorem modNoc_img (f : Noc → Noc) (s : State) : (modNoc f s).img = s.img := rfl
@[simp] theorem modNoc_cu (f : Noc → Noc) (s : State) : (modNoc f s).cu = s.cu := rfl
@[simp] theorem modNoc_mem (f : Noc → Noc) (s : State) : (modNoc f s).mem = s.mem := rfl
@[simp] theorem modNoc_xl (f : Noc → Noc) (s : State) : (modNoc f s).xl = s.xl := rfl
@[simp] theorem modNoc_dr (f : Noc → Noc) (s : State) : (modNoc f s).dr = s.dr := rfl
@[simp] theorem modNoc_ut (f : Noc → Noc) (s : State) : (modNoc f s).ut = s.ut := rfl
@[simp] theorem modNoc_hp (f : Noc → Noc) (s : State) : (modNoc f s).hp = s.hp := rfl
@[simp] theorem modNoc_q (f : Noc → Noc) (s : State) : (modNoc f s).q = s.q := rfl
@[simp] theorem modNoc_sch (f : Noc → Noc) (s : State) : (modNoc f s).sch = s.sch := rfl
@[simp] theorem modNoc_sec (f : Noc → Noc) (s : State) : (modNoc f s).sec = s.sec := rfl
@[simp] theorem modNoc_pwr (f : Noc → Noc) (s : State) : (modNoc f s).pwr = s.pwr := rfl
@[simp] theorem modNoc_ras (f : Noc → Noc) (s : State) : (modNoc f s).ras = s.ras := rfl
@[simp] theorem modNoc_evr (f : Noc → Noc) (s : State) : (modNoc f s).evr = s.evr := rfl
@[simp] theorem modMem_pending (f : Mem → Mem) (s : State) : (modMem f s).pending = s.pending := rfl
@[simp] theorem modMem_free (f : Mem → Mem) (s : State) : (modMem f s).free = s.free := rfl
@[simp] theorem modMem_out (f : Mem → Mem) (s : State) : (modMem f s).out = s.out := rfl
@[simp] theorem modMem_edits (f : Mem → Mem) (s : State) : (modMem f s).edits = s.edits := rfl
@[simp] theorem modMem_chip (f : Mem → Mem) (s : State) : (modMem f s).chip = s.chip := rfl
@[simp] theorem modMem_lm (f : Mem → Mem) (s : State) : (modMem f s).lm = s.lm := rfl
@[simp] theorem modMem_img (f : Mem → Mem) (s : State) : (modMem f s).img = s.img := rfl
@[simp] theorem modMem_cu (f : Mem → Mem) (s : State) : (modMem f s).cu = s.cu := rfl
@[simp] theorem modMem_xl (f : Mem → Mem) (s : State) : (modMem f s).xl = s.xl := rfl
@[simp] theorem modMem_noc (f : Mem → Mem) (s : State) : (modMem f s).noc = s.noc := rfl
@[simp] theorem modMem_dr (f : Mem → Mem) (s : State) : (modMem f s).dr = s.dr := rfl
@[simp] theorem modMem_ut (f : Mem → Mem) (s : State) : (modMem f s).ut = s.ut := rfl
@[simp] theorem modMem_hp (f : Mem → Mem) (s : State) : (modMem f s).hp = s.hp := rfl
@[simp] theorem modMem_q (f : Mem → Mem) (s : State) : (modMem f s).q = s.q := rfl
@[simp] theorem modMem_sch (f : Mem → Mem) (s : State) : (modMem f s).sch = s.sch := rfl
@[simp] theorem modMem_sec (f : Mem → Mem) (s : State) : (modMem f s).sec = s.sec := rfl
@[simp] theorem modMem_pwr (f : Mem → Mem) (s : State) : (modMem f s).pwr = s.pwr := rfl
@[simp] theorem modMem_ras (f : Mem → Mem) (s : State) : (modMem f s).ras = s.ras := rfl
@[simp] theorem modMem_evr (f : Mem → Mem) (s : State) : (modMem f s).evr = s.evr := rfl
@[simp] theorem modHp_pending (f : HostIf → HostIf) (s : State) : (modHp f s).pending = s.pending := rfl
@[simp] theorem modHp_free (f : HostIf → HostIf) (s : State) : (modHp f s).free = s.free := rfl
@[simp] theorem modHp_out (f : HostIf → HostIf) (s : State) : (modHp f s).out = s.out := rfl
@[simp] theorem modHp_edits (f : HostIf → HostIf) (s : State) : (modHp f s).edits = s.edits := rfl
@[simp] theorem modHp_chip (f : HostIf → HostIf) (s : State) : (modHp f s).chip = s.chip := rfl
@[simp] theorem modHp_lm (f : HostIf → HostIf) (s : State) : (modHp f s).lm = s.lm := rfl
@[simp] theorem modHp_img (f : HostIf → HostIf) (s : State) : (modHp f s).img = s.img := rfl
@[simp] theorem modHp_cu (f : HostIf → HostIf) (s : State) : (modHp f s).cu = s.cu := rfl
@[simp] theorem modHp_mem (f : HostIf → HostIf) (s : State) : (modHp f s).mem = s.mem := rfl
@[simp] theorem modHp_xl (f : HostIf → HostIf) (s : State) : (modHp f s).xl = s.xl := rfl
@[simp] theorem modHp_noc (f : HostIf → HostIf) (s : State) : (modHp f s).noc = s.noc := rfl
@[simp] theorem modHp_dr (f : HostIf → HostIf) (s : State) : (modHp f s).dr = s.dr := rfl
@[simp] theorem modHp_ut (f : HostIf → HostIf) (s : State) : (modHp f s).ut = s.ut := rfl
@[simp] theorem modHp_q (f : HostIf → HostIf) (s : State) : (modHp f s).q = s.q := rfl
@[simp] theorem modHp_sch (f : HostIf → HostIf) (s : State) : (modHp f s).sch = s.sch := rfl
@[simp] theorem modHp_sec (f : HostIf → HostIf) (s : State) : (modHp f s).sec = s.sec := rfl
@[simp] theorem modHp_pwr (f : HostIf → HostIf) (s : State) : (modHp f s).pwr = s.pwr := rfl
@[simp] theorem modHp_ras (f : HostIf → HostIf) (s : State) : (modHp f s).ras = s.ras := rfl
@[simp] theorem modHp_evr (f : HostIf → HostIf) (s : State) : (modHp f s).evr = s.evr := rfl
@[simp] theorem modXl_pending (f : Xlate → Xlate) (s : State) : (modXl f s).pending = s.pending := rfl
@[simp] theorem modXl_free (f : Xlate → Xlate) (s : State) : (modXl f s).free = s.free := rfl
@[simp] theorem modXl_out (f : Xlate → Xlate) (s : State) : (modXl f s).out = s.out := rfl
@[simp] theorem modXl_edits (f : Xlate → Xlate) (s : State) : (modXl f s).edits = s.edits := rfl
@[simp] theorem modXl_chip (f : Xlate → Xlate) (s : State) : (modXl f s).chip = s.chip := rfl
@[simp] theorem modXl_lm (f : Xlate → Xlate) (s : State) : (modXl f s).lm = s.lm := rfl
@[simp] theorem modXl_img (f : Xlate → Xlate) (s : State) : (modXl f s).img = s.img := rfl
@[simp] theorem modXl_cu (f : Xlate → Xlate) (s : State) : (modXl f s).cu = s.cu := rfl
@[simp] theorem modXl_mem (f : Xlate → Xlate) (s : State) : (modXl f s).mem = s.mem := rfl
@[simp] theorem modXl_noc (f : Xlate → Xlate) (s : State) : (modXl f s).noc = s.noc := rfl
@[simp] theorem modXl_dr (f : Xlate → Xlate) (s : State) : (modXl f s).dr = s.dr := rfl
@[simp] theorem modXl_ut (f : Xlate → Xlate) (s : State) : (modXl f s).ut = s.ut := rfl
@[simp] theorem modXl_hp (f : Xlate → Xlate) (s : State) : (modXl f s).hp = s.hp := rfl
@[simp] theorem modXl_q (f : Xlate → Xlate) (s : State) : (modXl f s).q = s.q := rfl
@[simp] theorem modXl_sch (f : Xlate → Xlate) (s : State) : (modXl f s).sch = s.sch := rfl
@[simp] theorem modXl_sec (f : Xlate → Xlate) (s : State) : (modXl f s).sec = s.sec := rfl
@[simp] theorem modXl_pwr (f : Xlate → Xlate) (s : State) : (modXl f s).pwr = s.pwr := rfl
@[simp] theorem modXl_ras (f : Xlate → Xlate) (s : State) : (modXl f s).ras = s.ras := rfl
@[simp] theorem modXl_evr (f : Xlate → Xlate) (s : State) : (modXl f s).evr = s.evr := rfl
@[simp] theorem modCu_pending (f : Compute → Compute) (s : State) : (modCu f s).pending = s.pending := rfl
@[simp] theorem modCu_free (f : Compute → Compute) (s : State) : (modCu f s).free = s.free := rfl
@[simp] theorem modCu_out (f : Compute → Compute) (s : State) : (modCu f s).out = s.out := rfl
@[simp] theorem modCu_edits (f : Compute → Compute) (s : State) : (modCu f s).edits = s.edits := rfl
@[simp] theorem modCu_chip (f : Compute → Compute) (s : State) : (modCu f s).chip = s.chip := rfl
@[simp] theorem modCu_lm (f : Compute → Compute) (s : State) : (modCu f s).lm = s.lm := rfl
@[simp] theorem modCu_img (f : Compute → Compute) (s : State) : (modCu f s).img = s.img := rfl
@[simp] theorem modCu_mem (f : Compute → Compute) (s : State) : (modCu f s).mem = s.mem := rfl
@[simp] theorem modCu_xl (f : Compute → Compute) (s : State) : (modCu f s).xl = s.xl := rfl
@[simp] theorem modCu_noc (f : Compute → Compute) (s : State) : (modCu f s).noc = s.noc := rfl
@[simp] theorem modCu_dr (f : Compute → Compute) (s : State) : (modCu f s).dr = s.dr := rfl
@[simp] theorem modCu_ut (f : Compute → Compute) (s : State) : (modCu f s).ut = s.ut := rfl
@[simp] theorem modCu_hp (f : Compute → Compute) (s : State) : (modCu f s).hp = s.hp := rfl
@[simp] theorem modCu_q (f : Compute → Compute) (s : State) : (modCu f s).q = s.q := rfl
@[simp] theorem modCu_sch (f : Compute → Compute) (s : State) : (modCu f s).sch = s.sch := rfl
@[simp] theorem modCu_sec (f : Compute → Compute) (s : State) : (modCu f s).sec = s.sec := rfl
@[simp] theorem modCu_pwr (f : Compute → Compute) (s : State) : (modCu f s).pwr = s.pwr := rfl
@[simp] theorem modCu_ras (f : Compute → Compute) (s : State) : (modCu f s).ras = s.ras := rfl
@[simp] theorem modCu_evr (f : Compute → Compute) (s : State) : (modCu f s).evr = s.evr := rfl

/-! ### Sending, drawing, storing -/

@[simp] theorem emit_pending (o : Out) (s : State) : (emit o s).pending = s.pending := rfl
@[simp] theorem emit_free (o : Out) (s : State) : (emit o s).free = s.free := rfl
@[simp] theorem emit_edits (o : Out) (s : State) : (emit o s).edits = s.edits := rfl
@[simp] theorem emit_chip (o : Out) (s : State) : (emit o s).chip = s.chip := rfl
@[simp] theorem emit_lm (o : Out) (s : State) : (emit o s).lm = s.lm := rfl
@[simp] theorem emit_img (o : Out) (s : State) : (emit o s).img = s.img := rfl
@[simp] theorem emit_cu (o : Out) (s : State) : (emit o s).cu = s.cu := rfl
@[simp] theorem emit_mem (o : Out) (s : State) : (emit o s).mem = s.mem := rfl
@[simp] theorem emit_xl (o : Out) (s : State) : (emit o s).xl = s.xl := rfl
@[simp] theorem emit_noc (o : Out) (s : State) : (emit o s).noc = s.noc := rfl
@[simp] theorem emit_dr (o : Out) (s : State) : (emit o s).dr = s.dr := rfl
@[simp] theorem emit_ut (o : Out) (s : State) : (emit o s).ut = s.ut := rfl
@[simp] theorem emit_hp (o : Out) (s : State) : (emit o s).hp = s.hp := rfl
@[simp] theorem emit_q (o : Out) (s : State) : (emit o s).q = s.q := rfl
@[simp] theorem emit_sch (o : Out) (s : State) : (emit o s).sch = s.sch := rfl
@[simp] theorem emit_sec (o : Out) (s : State) : (emit o s).sec = s.sec := rfl
@[simp] theorem emit_pwr (o : Out) (s : State) : (emit o s).pwr = s.pwr := rfl
@[simp] theorem emit_ras (o : Out) (s : State) : (emit o s).ras = s.ras := rfl
@[simp] theorem emit_evr (o : Out) (s : State) : (emit o s).evr = s.evr := rfl
@[simp] theorem emit_out (o : Out) (s : State) : (emit o s).out = s.out ++ [o] := rfl
@[simp] theorem putByte_pending (a : Nat) (b : Byte) (s : State) : (putByte a b s).pending = s.pending := rfl
@[simp] theorem putByte_free (a : Nat) (b : Byte) (s : State) : (putByte a b s).free = s.free := rfl
@[simp] theorem putByte_out (a : Nat) (b : Byte) (s : State) : (putByte a b s).out = s.out := rfl
@[simp] theorem putByte_chip (a : Nat) (b : Byte) (s : State) : (putByte a b s).chip = s.chip := rfl
@[simp] theorem putByte_lm (a : Nat) (b : Byte) (s : State) : (putByte a b s).lm = s.lm := rfl
@[simp] theorem putByte_img (a : Nat) (b : Byte) (s : State) : (putByte a b s).img = s.img := rfl
@[simp] theorem putByte_cu (a : Nat) (b : Byte) (s : State) : (putByte a b s).cu = s.cu := rfl
@[simp] theorem putByte_mem (a : Nat) (b : Byte) (s : State) : (putByte a b s).mem = s.mem := rfl
@[simp] theorem putByte_xl (a : Nat) (b : Byte) (s : State) : (putByte a b s).xl = s.xl := rfl
@[simp] theorem putByte_noc (a : Nat) (b : Byte) (s : State) : (putByte a b s).noc = s.noc := rfl
@[simp] theorem putByte_dr (a : Nat) (b : Byte) (s : State) : (putByte a b s).dr = s.dr := rfl
@[simp] theorem putByte_ut (a : Nat) (b : Byte) (s : State) : (putByte a b s).ut = s.ut := rfl
@[simp] theorem putByte_hp (a : Nat) (b : Byte) (s : State) : (putByte a b s).hp = s.hp := rfl
@[simp] theorem putByte_q (a : Nat) (b : Byte) (s : State) : (putByte a b s).q = s.q := rfl
@[simp] theorem putByte_sch (a : Nat) (b : Byte) (s : State) : (putByte a b s).sch = s.sch := rfl
@[simp] theorem putByte_sec (a : Nat) (b : Byte) (s : State) : (putByte a b s).sec = s.sec := rfl
@[simp] theorem putByte_pwr (a : Nat) (b : Byte) (s : State) : (putByte a b s).pwr = s.pwr := rfl
@[simp] theorem putByte_ras (a : Nat) (b : Byte) (s : State) : (putByte a b s).ras = s.ras := rfl
@[simp] theorem putByte_evr (a : Nat) (b : Byte) (s : State) : (putByte a b s).evr = s.evr := rfl
@[simp] theorem draw_pending (s : State) : (draw s).2.pending = s.pending := rfl
@[simp] theorem draw_out (s : State) : (draw s).2.out = s.out := rfl
@[simp] theorem draw_edits (s : State) : (draw s).2.edits = s.edits := rfl
@[simp] theorem draw_chip (s : State) : (draw s).2.chip = s.chip := rfl
@[simp] theorem draw_lm (s : State) : (draw s).2.lm = s.lm := rfl
@[simp] theorem draw_img (s : State) : (draw s).2.img = s.img := rfl
@[simp] theorem draw_cu (s : State) : (draw s).2.cu = s.cu := rfl
@[simp] theorem draw_mem (s : State) : (draw s).2.mem = s.mem := rfl
@[simp] theorem draw_xl (s : State) : (draw s).2.xl = s.xl := rfl
@[simp] theorem draw_noc (s : State) : (draw s).2.noc = s.noc := rfl
@[simp] theorem draw_dr (s : State) : (draw s).2.dr = s.dr := rfl
@[simp] theorem draw_ut (s : State) : (draw s).2.ut = s.ut := rfl
@[simp] theorem draw_hp (s : State) : (draw s).2.hp = s.hp := rfl
@[simp] theorem draw_q (s : State) : (draw s).2.q = s.q := rfl
@[simp] theorem draw_sch (s : State) : (draw s).2.sch = s.sch := rfl
@[simp] theorem draw_sec (s : State) : (draw s).2.sec = s.sec := rfl
@[simp] theorem draw_pwr (s : State) : (draw s).2.pwr = s.pwr := rfl
@[simp] theorem draw_ras (s : State) : (draw s).2.ras = s.ras := rfl
@[simp] theorem draw_evr (s : State) : (draw s).2.evr = s.evr := rfl

end Sys2Proof.Machine
end

