-- ==== Sys2Proof/WellFormed.lean ====
section
/-! DEFINITION. Well-formed commands: every number names a unit that the module has (R16, R74, R158, R299, R301, R329). -/
namespace Sys2Proof

/-- A verb's way in: port 0 or 1, slot 0 to 7 (R366, R378). -/
def Via.wf : Via → Bool
  | .mailbox port slot => decide (port < 2) && decide (slot < 8)
  | .sideband => true
  | .relay => true
  | .member _ _ => false

/-- A writer of a register: port 0 or 1, block 0 to 95, core 0 to 31. -/
def Writer.wf : Writer → Bool
  | .host port => decide (port < 2)
  | .blockAgent block => decide (block < 96)
  | .core b c => decide (b < 96) && decide (c < 32)
  | .firmware => true
  | .lamp => true

/-- A unit that the device classifies: its kind is one of R557's hardware kinds, or the combining entries of a router (20) or of the Drift switch
(21), and its number one the kind has. -/
def HwUnit.wf (u : HwUnit) : Bool :=
  match u.kind with
  | 1 => decide (u.num < 3456)
  | 2 => decide (u.num < 384)
  | 3 => decide (u.num < 96)
  | 4 => decide (u.num < 32)
  | 5 => decide (u.num < 768)
  | 6 => decide (u.num < 512)
  | 7 => decide (u.num < 128)
  | 8 => decide (u.num < 576)
  | 9 => true
  | 20 => decide (u.num < 96)
  | 21 => decide (u.num = 0)
  | _ => false

/-- A packet: virtual channel 0 to 7, device IDs of 14 bits, class tag of 6 bits (R317, R321). -/
def Packet.wf (p : Packet) : Bool :=
  decide (p.vc < 8) && decide (p.ddev < 16384) && decide (p.sdev < 16384) && decide (p.cls < 64)

/-- A reset domain: a core or an engine of a block, a block, a region or the chip. -/
def Domain.wf : Domain → Bool
  | .cell b engine num => decide (b < 96) && decide (num < if engine then 4 else 32)
  | .block b => decide (b < 96)
  | .region r => decide (r < 8)
  | .chip => true

/-- Whether every operand of a command names something the module has. -/
def Instr.wf : Instr → Bool
  | .registerWrite who _ _ _ => who.wf
  | .rcRegisterRead port _ _ => decide (port < 2)
  | .lodeCreate via _ _ _ _ port _ => via.wf && decide (port < 2)
  | .lodeDestroy via _ => via.wf
  | .lodeQuery via _ => via.wf
  | .blockMove via _ _ _ _ => via.wf
  | .channelMove via _ _ _ _ => via.wf
  | .granuleMigrate via lode _ _ _ => via.wf && decide (lode < 4294967296)
  | .creditMove via port _ _ _ => via.wf && decide (port < 32)
  | .rebindAbort via _ => via.wf
  | .blockDrained block => decide (block < 96)
  | .rebindDrainTimeout _ => true
  | .epochDrained lode => decide (lode < 96)
  | .granuleCopyDone lode granule => decide (lode < 96) && decide (granule < 8192)
  | .endOfForward lode granule => decide (lode < 96) && decide (granule < 8192)
  | .staleEpochRetry _ => true
  | .lmBlockDrainWrite who block _ => who.wf && decide (block < 96)
  | .lmBlockDetach who => who.wf
  | .lmBlockAttach who => who.wf
  | .lmSetCutover who => who.wf
  | .lmSetAttach who => who.wf
  | .lmCreditMove who => who.wf
  | .lmStageHoldExpiry => true
  | .imageBegin via _ _ => via.wf
  | .imageData via _ _ _ => via.wf
  | .imageCommit via _ => via.wf
  | .imageAbort via _ => via.wf
  | .imageSelect via _ _ => via.wf
  | .imageConfirm via => via.wf
  | .imageStatus via => via.wf
  | .imagePolicySet via _ _ _ _ _ => via.wf
  | .imageSessionTimeout => true
  | .meIssue block core rd rs1 rs2 => decide (block < 96) && decide (core < 32) && decide (rd < 32) && decide (rs1 < 32) && decide (rs2 < 32)
  | .meLoad block engine => decide (block < 96) && decide (engine < 4)
  | .meMma block engine => decide (block < 96) && decide (engine < 4)
  | .meAccRead block engine => decide (block < 96) && decide (engine < 4)
  | .meStore block engine => decide (block < 96) && decide (engine < 4)
  | .meTranspose block engine => decide (block < 96) && decide (engine < 4)
  | .meReduceSend block engine => decide (block < 96) && decide (engine < 4)
  | .meAccLoad block engine => decide (block < 96) && decide (engine < 4)
  | .meCommandDone block engine => decide (block < 96) && decide (engine < 4)
  | .meBoundExpiry block engine => decide (block < 96) && decide (engine < 4)
  | .meClockGate block engine => decide (block < 96) && decide (engine < 4)
  | .reduceAck _ _ _ => true
  | .dmaIssue block core rd rs1 => decide (block < 96) && decide (core < 32) && decide (rd < 32) && decide (rs1 < 32)
  | .dmaCopy unit => decide (unit < 128)
  | .dmaConvert unit => decide (unit < 128)
  | .dmaFill unit => decide (unit < 128)
  | .windowPut unit => decide (unit < 128)
  | .windowGet unit => decide (unit < 128)
  | .dmaChunkDone unit _ => decide (unit < 128)
  | .semWait block core rd rs1 rs2 scope => decide (block < 96) && decide (core < 32) && decide (rd < 32) && decide (rs1 < 32) && decide (rs2 < 32) && decide (scope < 4)
  | .semPost block core rs1 rs2 scope => decide (block < 96) && decide (core < 32) && decide (rs1 < 32) && decide (rs2 < 32) && decide (scope < 4)
  | .semTry block core rd rs1 rs2 scope => decide (block < 96) && decide (core < 32) && decide (rd < 32) && decide (rs1 < 32) && decide (rs2 < 32) && decide (scope < 4)
  | .barArrive block core rs1 => decide (block < 96) && decide (core < 32) && decide (rs1 < 32)
  | .fenceS block core funct7 => decide (block < 96) && decide (core < 32) && decide (funct7 < 128)
  | .spwSel block core rd rs1 rs2 => decide (block < 96) && decide (core < 32) && decide (rd < 32) && decide (rs1 < 32) && decide (rs2 < 32)
  | .vcvt block core vd rs1 vs2 => decide (block < 96) && decide (core < 32) && decide (vd < 32) && decide (rs1 < 32) && decide (vs2 < 32)
  | .coreInstruction block core word => decide (block < 96) && decide (core < 32) && decide (word < 4294967296)
  | .coreLoadStore block core word => decide (block < 96) && decide (core < 32) && decide (word < 4294967296)
  | .coreAmo block core word => decide (block < 96) && decide (core < 32) && decide (word < 4294967296)
  | .coreLr block core word => decide (block < 96) && decide (core < 32) && decide (word < 4294967296)
  | .coreSc block core word => decide (block < 96) && decide (core < 32) && decide (word < 4294967296)
  | .coreFence block core pred succ => decide (block < 96) && decide (core < 32) && decide (pred < 16) && decide (succ < 16)
  | .gcClassWrite block core _ => decide (block < 96) && decide (core < 32)
  | .gcDeadlineWrite block core _ => decide (block < 96) && decide (core < 32)
  | .gcSrSeedWrite block core _ => decide (block < 96) && decide (core < 32)
  | .svExit block core => decide (block < 96) && decide (core < 32)
  | .svAbort block core => decide (block < 96) && decide (core < 32)
  | .svTrace block core => decide (block < 96) && decide (core < 32)
  | .coreException block core _ _ => decide (block < 96) && decide (core < 32)
  | .tlbWalkDone block core => decide (block < 96) && decide (core < 32)
  | .launchStart block => decide (block < 96)
  | .launchComplete lode _ => decide (lode < 96)
  | .rowSpareRemap block row _ => decide (block < 96) && decide (row < 4)
  | .memoryRequest _ => true
  | .arbiterServe _ => true
  | .correctedError unit => unit.wf
  | .uncorrectableError _ => true
  | .patrolScrubLine region pc _ _ => decide (region < 8) && decide (pc < 768)
  | .pseudoChannelFailure pc => decide (pc < 768)
  | .evacuationStart set => decide (set < 192)
  | .evacuationResume set => decide (set < 192)
  | .xlTableRangeSet via lode _ _ _ => via.wf && decide (lode < 4294967296)
  | .xlMirrorWrite via lode _ _ _ _ _ => via.wf && decide (lode < 4294967296)
  | .xlInvalidate via lode _ _ _ _ _ => via.wf && decide (lode < 4294967296)
  | .invalidationComplete num => decide (num < 4294967296)
  | .xlFqSetup via lode _ => via.wf && decide (lode < 4294967296)
  | .xlDirtyStart via lode _ _ _ => via.wf && decide (lode < 4294967296)
  | .xlDirtySync via lode _ _ => via.wf && decide (lode < 4294967296)
  | .xlDirtyStop via lode _ => via.wf && decide (lode < 4294967296)
  | .translationFault block core => decide (block < 96) && decide (core < 32)
  | .faultRecordWrite lode _ => decide (lode < 96)
  | .faultqStallTimeout lode => decide (lode < 96)
  | .faultRetry port lode _ => decide (port < 2) && decide (lode < 96)
  | .faultFail port lode _ => decide (port < 2) && decide (lode < 96)
  | .deadlineTick _ => true
  | .bucketRefill => true
  | .regCommit who _ => who.wf
  | .regCommitHoldExpiry => true
  | .regMinSet via _ _ _ => via.wf
  | .regWeightSet via _ _ => via.wf
  | .regLodeBucketSet via _ lode _ => via.wf && decide (lode < 4294967296)
  | .regQuery via _ _ => via.wf
  | .syncBind via lode _ _ _ => via.wf && decide (lode < 4294967296)
  | .syncFree via lode _ _ _ => via.wf && decide (lode < 4294967296)
  | .barArrivalsSet via lode group _ => via.wf && decide (lode < 4294967296) && decide (group < 4096)
  | .semPostApply sem => decide (sem < 131072)
  | .semWaitArrive sem => decide (sem < 131072)
  | .barArrivalApply group => decide (group < 4096)
  | .reductionPacketArrive router _ => decide (router < 97)
  | .combineHoldExpiry router => decide (router < 97)
  | .reductionApply _ => true
  | .drPortTrain port _ => decide (port < 32)
  | .trainingStepTimeout port _ => decide (port < 32)
  | .capabilityRecord port _ _ dev serial _ _ => decide (port < 32) && decide (dev < 16384) && decide (serial < 18446744073709551616)
  | .flitReceive port _ _ _ _ => decide (port < 32)
  | .replayRequest port _ => decide (port < 32)
  | .replayAckTimeout port => decide (port < 32)
  | .peerSilentTimeout port => decide (port < 32)
  | .laneRetire port lane => decide (port < 32) && decide (lane < 4)
  | .lowrateWakeEvent port => decide (port < 32)
  | .packetForward port pkt => decide (port < 32) && pkt.wf
  | .escWaitExpiry port => decide (port < 32)
  | .creditReturn port vc _ _ => decide (port < 32) && decide (vc < 8)
  | .windowPacketReceive port pkt => decide (port < 32) && pkt.wf
  | .switchCombineArrive pkt => pkt.wf
  | .drCombHoldExpiry => true
  | .windowResponse pkt => pkt.wf
  | .drTimeoutExpiry _ => true
  | .drPortSet via port _ _ _ => via.wf && decide (port < 32)
  | .drPortQuery via port => via.wf && decide (port < 32)
  | .drRouteSet via _ _ => via.wf
  | .drWindowOpen via _ _ lode _ _ _ _ _ _ _ _ _ => via.wf && decide (lode < 4294967296)
  | .drWindowClose via _ _ _ => via.wf
  | .windowCloseDrained win => decide (win < 4096)
  | .drWindowQuery via _ _ => via.wf
  | .drTimingSet via _ _ _ _ => via.wf
  | .drPortRetrain who port => who.wf && decide (port < 32)
  | .drPortEnableWrite who port _ => who.wf && decide (port < 32)
  | .drPortLowrateWrite who port _ => who.wf && decide (port < 32)
  | .heartbeatSend => true
  | .peerLost dev => decide (dev < 16384)
  | .utHeartbeat _ => true
  | .utPrepare _ => true
  | .utPrepared _ => true
  | .utPrepareTimeout _ => true
  | .utCommit _ => true
  | .utCommitted _ => true
  | .utAbort _ => true
  | .utTakeover _ => true
  | .utOffer _ => true
  | .utAdopted _ => true
  | .utRevoke _ => true
  | .utJoin _ => true
  | .utPool _ => true
  | .poolTick => true
  | .utDevidSet via _ => via.wf
  | .utPoolMove via _ _ _ => via.wf
  | .utLodeExtend via lode _ _ _ _ => via.wf && decide (lode < 4294967296)
  | .utLodeShrink via lode _ => via.wf && decide (lode < 4294967296)
  | .utHandoff via _ _ _ _ _ _ => via.wf
  | .utNotice via _ _ => via.wf
  | .utRelease via lode => via.wf && decide (lode < 4294967296)
  | .utQuery via _ _ => via.wf
  | .portReset port => decide (port < 2)
  | .drvMaxWrite port _ => decide (port < 2)
  | .apertureAccess port _ _ _ _ => decide (port < 2)
  | .mbGo port slot _ _ => decide (port < 2) && decide (slot < 8)
  | .sidebandRequest _ _ _ _ => true
  | .inventory via => via.wf
  | .pasidBind via lode port _ => via.wf && decide (lode < 4294967296) && decide (port < 2)
  | .pasidUnbind via lode => via.wf && decide (lode < 4294967296)
  | .apertureMap via port _ _ _ _ => via.wf && decide (port < 2)
  | .apertureUnmap via port _ => via.wf && decide (port < 2)
  | .confKeySet via lode _ => via.wf && decide (lode < 4294967296)
  | .confRingSetup via lode _ _ => via.wf && decide (lode < 4294967296)
  | .hostReadCompletion _ _ _ => true
  | .sqTailWrite port lode _ => decide (port < 2) && decide (lode < 96)
  | .recordTake lode _ _ => decide (lode < 96)
  | .waitEvaluate lode _ => decide (lode < 96)
  | .opLaunch lode _ => decide (lode < 96)
  | .opCopy lode _ => decide (lode < 96)
  | .opConvert lode _ => decide (lode < 96)
  | .opFill lode _ => decide (lode < 96)
  | .opReduce lode _ => decide (lode < 96)
  | .opMatmul lode _ => decide (lode < 96)
  | .opSignal lode _ => decide (lode < 96)
  | .commandEnd lode _ _ => decide (lode < 96)
  | .queueSetup via lode _ _ _ _ _ _ _ => via.wf && decide (lode < 4294967296)
  | .queueDestroy via lode _ => via.wf && decide (lode < 4294967296)
  | .queueDestroyDrained lode => decide (lode < 96)
  | .queueRestart via lode _ => via.wf && decide (lode < 4294967296)
  | .ctxTeardown via _ _ => via.wf
  | .ctxTeardownDrained ctx => decide (ctx < 4096)
  | .cqMirrorRead via lode _ => via.wf && decide (lode < 4294967296)
  | .scrubEnd _ => true
  | .ctxCreate via lode _ _ _ _ _ => via.wf && decide (lode < 4294967296)
  | .ctxRootSet via _ _ _ => via.wf
  | .ctxSet via _ _ _ _ _ => via.wf
  | .schSaveReserve via lode _ _ => via.wf && decide (lode < 4294967296)
  | .schLodeSet via lode _ _ => via.wf && decide (lode < 4294967296)
  | .tallyRead via _ _ _ => via.wf
  | .sliceQuiesce via lode _ => via.wf && decide (lode < 4294967296)
  | .quiesceTimeout lode => decide (lode < 96)
  | .sliceMove via lode _ port => via.wf && decide (lode < 4294967296) && decide (port < 2)
  | .sliceResume via lode => via.wf && decide (lode < 4294967296)
  | .quantumExpiry lode => decide (lode < 96)
  | .idleExpiry lode => decide (lode < 96)
  | .cyclicGuard lode => decide (lode < 96)
  | .cyclicSlotStart lode => decide (lode < 96)
  | .contextStopped lode _ _ => decide (lode < 96)
  | .switchComplete lode _ => decide (lode < 96)
  | .overrunTeardown lode => decide (lode < 96)
  | .assayQuote via lode _ => via.wf && decide (lode < 4294967296)
  | .assayRead via _ _ _ => via.wf
  | .assayHandleLapse _ _ => true
  | .xmssReservationWritten _ => true
  | .secEnrol via => via.wf
  | .secImageAuthSet via _ _ _ => via.wf
  | .vaultQuery via _ => via.wf
  | .vaultRevoke via _ => via.wf
  | .orphanZeroise _ => true
  | .vaultRemask _ _ => true
  | .fwBegin via _ _ => via.wf
  | .fwData via _ _ _ => via.wf
  | .fwCommit via _ => via.wf
  | .fwAbort via _ => via.wf
  | .fwSelect via _ _ => via.wf
  | .fwConfirm via => via.wf
  | .fwStatus via => via.wf
  | .alarmRaise _ => true
  | .powerFailure _ => true
  | .railsInRange => true
  | .chipStartup _ => true
  | .hbmTrainingAttemptDone stack _ => decide (stack < 24)
  | .bootStepTimeout => true
  | .startupAgentTimeout block => decide (block < 96)
  | .xtalFail => true
  | .blockRetention block => decide (block < 96)
  | .bridgeClockGate _ => true
  | .domainWake _ num => decide (num < 4294967296)
  | .pwrStateSet via _ _ => via.wf
  | .autoDozeExpiry => true
  | .chipSleepEntry => true
  | .chipWake => true
  | .wakeTick => true
  | .pwrPolicySet via _ _ _ => via.wf
  | .pwrQuery via => via.wf
  | .pwrRestart via => via.wf
  | .vreqWrite who region _ => who.wf && decide (region < 8)
  | .reqWrite who block _ => who.wf && decide (block < 96)
  | .voltageSettled region => decide (region < 8)
  | .governorCapFollow block => decide (block < 96)
  | .powerSample _ _ => true
  | .computeLoopStep _ => true
  | .memoryLoopStep => true
  | .linkLoopStep _ => true
  | .thermalSample sensor _ => decide (sensor < 130)
  | .thermalTcapStep region => decide (region < 8)
  | .thermalShutdown => true
  | .thermalPowerOff => true
  | .thermalRestart => true
  | .hbmTempReport stack _ => decide (stack < 24)
  | .canaryHeartbeat _ _ => true
  | .canaryCheck => true
  | .queueWatchdogExpiry lode => decide (lode < 96)
  | .watchdogDrainTimeout lode => decide (lode < 96)
  | .fabricWatchdogExpiry region _ => decide (region < 8)
  | .unitFault unit _ _ => unit.wf
  | .deferredRetirement unit => unit.wf
  | .wireGroupFailure _ => true
  | .cellReset block engine num => decide (block < 96) && decide (num < if engine then 4 else 32)
  | .blockReset block _ => decide (block < 96)
  | .captureTimeout _ => true
  | .blockAgentFirstHeartbeat block => decide (block < 96)
  | .regionReset region _ => decide (region < 8)
  | .chipReset _ => true
  | .resetTimeout dom => dom.wf
  | .rasQuery via _ _ => via.wf
  | .rasCaptureSetup via port _ _ => via.wf && decide (port < 2)
  | .canSet via lode _ => via.wf && decide (lode < 4294967296)
  | .rasReset via scope _ => via.wf && decide (scope < 4)
  | .rasUnretire via port _ => via.wf && decide (port < 32)
  | .eventRecordAccept _ _ _ _ num _ _ => decide (num < 4294967296)
  | .eventRecordProgrammed => true
  | .opsecTick => true
  | .evrRead via _ _ => via.wf
  | .evrChallenge via => via.wf
  | .evrChallengeLapse => true
  | .evrClear via _ _ _ _ _ => via.wf
  | .moduleResetAssert _ => true
  | .moduleResetRelease _ => true
  | .perstAssert port => decide (port < 2)
  | .perstRelease port => decide (port < 2)
  | .cmaCommit who block => who.wf && decide (block < 96)
  | .cmaDirectWrite who block _ => who.wf && decide (block < 96)
  | .cmaShareWrite who block _ => who.wf && decide (block < 96)
  | .cmaSafePoint block => decide (block < 96)
  | .cmaHoldExpiry block => decide (block < 96)
  | .consumerPositionWrite port lode word _ => decide (port < 2) && decide (lode < 96) && [0x018, 0x020, 0x038, 0x800, 0x810].contains word
  | .bar4Resize port _ => decide (port < 2)
  | .fwSessionTimeout => true
  | .slotProgramDone _ _ => true
  | .clearErasureDone => true
  | .lampRailChange _ _ => true
  | .mainLowChange _ => true
  | .coreCellClockGate block core => decide (block < 96) && decide (core < 32)
  | .cmaCommitHoldExpiry block => decide (block < 96)
  | .linkSignalDetect port _ => decide (port < 32)
  | .joinReply dev _ => decide (dev < 16384)
  | .controlPacketReceive pkt _ _ => pkt.wf
  | .dutyPhaseChange => true

end Sys2Proof
end

