-- ==== Sys2Proof/Tests/Slice0.lean ====
section
/-! SUPPORT. Tests: terms that `WellFormed` refuses, and for each statement of Certificates/Slice0 states and operands that meet the
hypotheses of each of its clauses together. -/
namespace Sys2Proof.Tests
set_option Elab.async false
open Sys2Proof Sys2Proof.Machine

/-! ### What an `.ok` and a `some` hold -/

def okGet {ε α : Type} : (x : Except ε α) → x.isOk = true → α
  | .ok a, _ => a

theorem ok_get {ε α : Type} (x : Except ε α) (h : x.isOk = true) : x = .ok (okGet x h) := by
  cases x with
  | ok a => rfl
  | error e => simp [Except.isOk, Except.toBool] at h

def errGet {ε α : Type} : (x : Except ε α) → x.isOk = false → ε
  | .error e, _ => e

theorem err_get {ε α : Type} (x : Except ε α) (h : x.isOk = false) : x = .error (errGet x h) := by
  cases x with
  | ok a => simp [Except.isOk, Except.toBool] at h
  | error e => rfl

theorem some_get {α : Type} (x : Option α) (h : x.isSome = true) : x = some (x.get h) := by
  cases x with
  | some a => rfl
  | none => simp at h

theorem some_pair {α β : Type} (x : Option (α × β)) (h : x.isSome = true) : x = some ((x.get h).1, (x.get h).2) := by
  cases x with
  | some a => rfl
  | none => simp at h

theorem none_of {α : Type} (x : Option α) (h : x.isNone = true) : x = none := by
  cases x with
  | some a => simp at h
  | none => rfl

theorem ok_of_some {ε α : Type} (x : Except ε α) (y : α) (h : (match x with | .ok a => some a | .error _ => none) = some y) : x = .ok y := by
  cases x with
  | ok a => simpa using h
  | error e => simp at h

theorem pair_get {α β : Type} (x : α × β) (a : α) (h : x.1 = a) : x = (a, x.2) := by
  cases h; rfl

/-! ### Small states -/

/-- A module that runs. -/
def w0 : State := { chip := { phase := 3, stage := 7 } }

/-- A module that runs with two lodes of two blocks and two sets each, and free blocks and sets. -/
def wl : State := { w0 with
  lm := {
    lodes := [(0, { gid := 5, state := 2, epoch := 1, home := true, coord := true }), (1, { gid := 6, state := 2, epoch := 1, home := true, coord := true })]
    blocks := [(0, { state := 1, slot := 0, lode := 0 }), (1, { state := 1, slot := 1, lode := 0 }),
      (2, { state := 1, slot := 0, lode := 1 }), (3, { state := 1, slot := 1, lode := 1 })]
    sets := [(0, ⟨2, 0, 32, 0⟩), (1, ⟨2, 32, 32, 0⟩), (2, ⟨2, 64, 32, 1⟩), (3, ⟨2, 96, 32, 1⟩), (4, ⟨1, 128, 32, 0x7F⟩)]
    chan := [(0, { valid := true })]
    credits := [(0, 8)] } }

theorem witness_RegistersReadAndWritten :
    (∃ (p off size : Nat) (s : State) (r : Reg), funcPresent s p = true ∧ (accessWakes off false = true → asleep s = false) ∧ off < 0x1000000 ∧ accessOk off size = true ∧ (bootDone s = true ∨ earlyReg off = true) ∧ regAt (headAccess size s) p off = some r ∧ r.base = off ∧ (size = 8 → oneReg (headAccess size s) p off = true) ∧ r.conf = false ∧ deadReg s p r = false ∧ (r.rlock = true → unlocked s r.fn = true) ∧ r.clear = none) ∧
    (∃ (p n : Nat) (s : State), funcPresent s p = true ∧ n < 8 ∧ (slotOf s p n).state ≠ 1) ∧
    (∃ (p off size : Nat) (s : State), funcPresent s p = true ∧ (accessWakes off true = true → asleep s = false) ∧ off < 0x4000000 ∧ accessOk off size = false) := by
  refine ⟨⟨0, 0, 4, w0, _, by decide +kernel, by decide +kernel, by decide +kernel, by decide +kernel, by decide +kernel, some_get _ (by decide +kernel), by decide +kernel, by decide +kernel, by decide +kernel, by decide +kernel, by decide +kernel, (none_of _ (by decide +kernel))⟩,
    ⟨0, 7, w0, by decide +kernel⟩,
    ⟨0, 2, 4, w0, by decide +kernel⟩⟩

theorem witness_LodesFoundedReportedDestroyed :
    (∃ (via : Via) (mask : Nat) (sets credits : List Nat) (pasid port : Nat) (conf : Bool) (s : State) (l n : Nat), requested via 0x0300 s ∧ createErr s mask sets credits pasid port conf = 0 ∧ freeIndex s = some l ∧ nextSerial s = some n) ∧
    (∃ (via : Via) (gid l : Nat) (s : State), requested via 0x0302 s ∧ findVia s via gid = some l) ∧
    (∃ (via : Via) (gid l : Nat) (s : State), requested via 0x0301 s ∧ findRun s via gid = some l ∧ (lodeOf s l).frozen = false ∧ (lodeOf s l).members = [] ∧ ctxsOf s l = [] ∧ lodeNamed s l = false) ∧
    (∃ (via : Via) (gid l : Nat) (s : State), requested via 0x0301 s ∧ findRun s via gid = some l ∧ (lodeOf s l).frozen = false ∧ (lodeOf s l).members ≠ [] ∧ (lodeOf s l).coord = true ∧ ctxsOf s l = [] ∧ lodeNamed s l = false) ∧
    (∃ (via : Via) (op : Nat) (o : Op) (s : State), requested via 0x0314 s ∧ getOp s op = some o ∧ isRebind o.kind = true ∧ o.committed = false ∧ o.begun = false) := by
  refine ⟨⟨.relay, 0x20, [4], [], 0, 0, false, wl, _, _, ⟨rfl, rfl⟩, by decide +kernel, some_get _ (by decide +kernel), some_get _ (by decide +kernel)⟩,
    ⟨.relay, 6, _, wl, ⟨rfl, rfl⟩, some_get _ (by decide +kernel)⟩,
    ⟨.relay, 6, _, wl, ⟨rfl, rfl⟩, some_get _ (by decide +kernel), by decide +kernel⟩,
    ⟨.relay, 6, _, { wl with lm := { wl.lm with lodes := [(1, { gid := 6, state := 2, epoch := 1, home := true, coord := true, members := [3] })] } }, ⟨rfl, rfl⟩, some_get _ (by decide +kernel), by decide +kernel⟩,
    ⟨.relay, 1, _, { wl with lm := { wl.lm with ops := [{ num := 1, kind := .channelMove, step := 2, donor := 0, receiver := 1 }] } }, ⟨rfl, rfl⟩, some_get _ (by decide +kernel), by decide +kernel⟩⟩

theorem witness_RebindingOperationsStart :
    (∃ (via : Via) (mask donor receiver deadline d r : Nat) (s : State), requested via 0x0310 s ∧ rebinds s < 8 ∧ findRun s via donor = some d ∧ findRun s via receiver = some r ∧ blockMoveErr s mask d r deadline = 0) ∧
    (∃ (via : Via) (n donor receiver rate d r : Nat) (s : State), requested via 0x0311 s ∧ rebinds s < 8 ∧ findRun s via donor = some d ∧ findRun s via receiver = some r ∧ channelMoveErr s n d r rate = 0) ∧
    (∃ (via : Via) (lode dest rate l : Nat) (gs : List Nat) (s : State), requested via 0x0312 s ∧ rebinds s < 8 ∧ findRun s via lode = some l ∧ granuleErr s l gs dest rate = 0) ∧
    (∃ (via : Via) (p units donor receiver d r : Nat) (s : State), requested via 0x0313 s ∧ rebinds s < 8 ∧ findRun s via donor = some d ∧ findRun s via receiver = some r ∧ creditErr s p units d r = 0) := by
  refine ⟨⟨.relay, 2, 5, 6, 10000, _, _, wl, ⟨rfl, rfl⟩, by decide +kernel, some_get _ (by decide +kernel), some_get _ (by decide +kernel), by decide +kernel⟩,
    ⟨.relay, 1, 5, 6, 32, _, _, wl, ⟨rfl, rfl⟩, by decide +kernel, some_get _ (by decide +kernel), some_get _ (by decide +kernel), by decide +kernel⟩,
    ⟨.relay, 5, 1, 0, _, [0], wl, ⟨rfl, rfl⟩, by decide +kernel, some_get _ (by decide +kernel), by decide +kernel⟩,
    ⟨.relay, 0, 8, 5, 6, _, _, wl, ⟨rfl, rfl⟩, by decide +kernel, some_get _ (by decide +kernel), some_get _ (by decide +kernel), by decide +kernel⟩⟩

def wDrain (bs : List Nat) : State := { wl with lm := { wl.lm with
  blocks := [(0, { state := 2, slot := 0, lode := 0, drain := true }), (1, { state := 2, slot := 1, lode := 0, drain := true })]
  ops := [{ num := 1, kind := .blockMove, step := 3, donor := 0, receiver := 1, blocks := bs }] } }

def wGran (mig : Nat) : State := { wl with lm := { wl.lm with chan := [(0, { valid := true, mig := mig })] } }

def wReq : MemReq := { id := 3, master := 0, lode := 0, etag := 1, laddr := 0, len := 128, write := false }

theorem witness_RebindingStepsAdvance :
    (∃ (b : Nat) (o : Op) (s : State), (blockOf s b).state = 2 ∧ launchFree s b = true ∧ (blockOf s b).resetting = false ∧ s.pwr.shutdown = 0 ∧ (s.lm.ops.find? fun o => o.kind = .blockMove ∧ o.step = 3 ∧ o.blocks.contains b) = some o ∧ b ∉ o.drained ∧ (o.blocks.all fun x => (o.drained ++ [b]).contains x) = false) ∧
    (∃ (b : Nat) (o : Op) (s : State), (blockOf s b).state = 2 ∧ launchFree s b = true ∧ (blockOf s b).resetting = false ∧ s.pwr.shutdown = 0 ∧ (s.lm.ops.find? fun o => o.kind = .blockMove ∧ o.step = 3 ∧ o.blocks.contains b) = some o ∧ b ∉ o.drained ∧ (o.blocks.all fun x => (o.drained ++ [b]).contains x) = true) ∧
    (∃ (op : Nat) (o : Op) (s : State), getOp s op = some o ∧ o.kind = .blockMove ∧ o.step = 3 ∧ lodeHeld s o.donor = false) ∧
    (∃ (l : Nat) (s : State), (lodeOf s l).state ≠ 0 ∧ outstanding s l (drainTag s l) = false) ∧
    (∃ (l : Nat) (s : State), outstanding s l (drainTag s l) = true) ∧
    (∃ (l : Nat) (s : State), (lodeOf s l).state = 2 ∧ outstanding s l (drainTag s l) = false ∧ (s.lm.ops.filter fun o => o.donor = l) = [] ∧ s.lm.waiting = [] ∧ s.lm.opHeld = [] ∧ s.pwr.shutdown = 0 ∧ (∀ k, (lodeOf s k).destroyVias = []) ∧ (lodeOf s l).members = [] ∧ (∀ p, (pcOf s p).predicted = false)) ∧
    (∃ (l g n : Nat) (s : State), (granOf s l g).valid = true ∧ (granOf s l g).mig = 1 ∧ (granOf s l g).copied = false ∧ (granOf s l g).op = some n ∧ copyRuns s l g = true) ∧
    (∃ (l g n : Nat) (s : State), (granOf s l g).valid = true ∧ (granOf s l g).mig = 2 ∧ drained s l = true ∧ (granOf s l g).op = some n) ∧
    (∃ (id n : Nat) (r : MemReq) (s : State), (s.mem.retries.find? fun t => t.1 = id) = some (n, r)) ∧
    (∃ (r : MemReq) (s : State), ((lodeOf s r.lode).state = 0 ∨ tagLive s r.lode r.etag = false)) := by
  refine ⟨⟨0, _, wDrain [0, 1], by decide +kernel, by decide +kernel, by decide +kernel, by decide +kernel, some_get _ (by decide +kernel), by decide +kernel⟩,
    ⟨1, _, wDrain [1], by decide +kernel, by decide +kernel, by decide +kernel, by decide +kernel, some_get _ (by decide +kernel), by decide +kernel⟩,
    ⟨1, _, wDrain [0, 1], some_get _ (by decide +kernel), by decide +kernel⟩,
    ⟨0, wl, by decide +kernel⟩,
    ⟨0, { wl with noc := { waiting := [{ wReq with etag := 1 }] } }, by decide +kernel⟩,
    ⟨0, wl, by decide +kernel, by decide +kernel, by decide +kernel, by decide +kernel, by decide +kernel, by decide +kernel, ((fun k => by by_cases h0 : 0 = k <;> by_cases h1 : 1 = k <;> simp [lodeOf, wl, tget, h0, h1])), by decide +kernel, ((fun _ => rfl))⟩,
    ⟨0, 3, _, { wl with lm := { wl.lm with chan := [(3, { valid := true, mig := 1, op := some 1 })] }, cu := { dma := [(96, [{ owner := .firmware 0, kind := 6, len := 0, lode := 0, srcVa := 3 }])] } }, by decide +kernel, by decide +kernel, by decide +kernel, some_get _ (by decide +kernel), by decide +kernel⟩,
    ⟨0, 3, _, { wl with lm := { wl.lm with chan := [(3, { valid := true, mig := 2, op := some 1 })] } }, by decide +kernel, by decide +kernel, by decide +kernel, some_get _ (by decide +kernel)⟩,
    ⟨3, 3, wReq, { wl with mem := { retries := [(3, wReq)] } }, by decide +kernel⟩,
    ⟨wReq, w0, ((.inl (by decide +kernel)))⟩⟩

def wStage (kind d r x slot units : Nat) : State := { wl with lm := { wl.lm with
  stKind := kind, stDonor := d, stRecv := r, stRes := x, stSlot := slot, stUnits := units } }

def wLive (m : Stage) : State := { wl with lm := { wl.lm with live := m } }
theorem witness_ExpertLodeMapSteps :
    (∃ (who : Writer) (b v : Nat) (s : State), admits who 1 s ∧ b < 96 ∧ v.testBit 23 = true ∧ (blockOf s b).state = 1) ∧
    (∃ (who : Writer) (s : State), admits who 1 s ∧ s.lm.opState ≠ 1 ∧ s.lm.opState ≠ 2 ∧ stageAgrees s (stagedGroup s) = true) ∧
    (∃ (m : Stage) (s : State), s.lm.live = m ∧ m.kind = 1 ∧ multichip s m.donor = false ∧ stageErr s m = 0 ∧ rebinds s < 8) ∧
    (∃ (m : Stage) (s : State), s.lm.live = m ∧ m.kind = 2 ∧ multichip s m.recv = false ∧ (blockOf s m.res).state ≠ 3 ∧ (blockOf s m.res).state ≠ 4 ∧ stageErr s m = 0 ∧ rebinds s < 8) ∧
    (∃ (m : Stage) (s : State), s.lm.live = m ∧ m.kind = 3 ∧ multichip s m.donor = false ∧ stageErr s m = 0 ∧ rebinds s < 8) ∧
    (∃ (m : Stage) (s : State), s.lm.live = m ∧ m.kind = 4 ∧ multichip s m.recv = false ∧ (setOf s m.res).state ≠ 4 ∧ stageErr s m = 0 ∧ rebinds s < 8) ∧
    (∃ (m : Stage) (s : State), s.lm.live = m ∧ m.kind = 5 ∧ multichip s m.donor = false ∧ multichip s m.recv = false ∧ stageErr s m = 0 ∧ rebinds s < 8) ∧
    (∃ (s : State), s.lm.opState = 1 ∧ s.lm.stWait = .agreement ∧ stageAgrees s s.lm.live = false) := by
  refine ⟨⟨.firmware, 0, 0x800000, wl, ⟨by decide +kernel, by intro h; cases h⟩, by decide +kernel⟩,
    ⟨.firmware, wStage 1 0 0x7F 1 0 0, ⟨by decide +kernel, by intro h; cases h⟩, by decide +kernel⟩,
    ⟨{ kind := 1, res := 1, donor := 0 }, wLive { kind := 1, res := 1, donor := 0 }, by decide +kernel⟩,
    ⟨{ kind := 2, res := 95, recv := 0, slot := 95 }, wLive { kind := 2, res := 95, recv := 0, slot := 95 }, by decide +kernel⟩,
    ⟨{ kind := 3, res := 1, donor := 0 }, wLive { kind := 3, res := 1, donor := 0 }, by decide +kernel⟩,
    ⟨{ kind := 4, res := 4, recv := 0 }, wLive { kind := 4, res := 4, recv := 0 }, by decide +kernel⟩,
    ⟨{ kind := 5, res := 0, donor := 0, recv := 1, units := 8 }, wLive { kind := 5, res := 0, donor := 0, recv := 1, units := 8 }, by decide +kernel⟩,
    ⟨{ wl with lm := { wl.lm with opState := 1, stWait := .agreement } }, by decide +kernel⟩⟩

def wSess (x : Session) : State := { w0 with img := { slots := { session := some x } } }

def aSess : Session := { num := 1, slot := 1, len := 1, map := [(0, some 7)] }

theorem witness_ImageSlotsWritten :
    (∃ (via : Via) (slot len : Nat) (s : State), requested via 0x0020 s ∧ s.sec.locked = false ∧ beginErr s.img.slots slot len 4194304 = 0) ∧
    (∃ (via : Via) (n off : Nat) (bs : List Byte) (s : State), requested via 0x0021 s ∧ s.sec.locked = false ∧ dataErr s.img.slots n off bs.length = 0) ∧
    (∃ (via : Via) (n : Nat) (x : Session) (bs : List Byte) (s : State), requested via 0x0022 s ∧ s.sec.locked = false ∧ s.img.slots.named n = some x ∧ x.whole = some bs) ∧
    (∃ (via : Via) (n : Nat) (x : Session) (s : State), requested via 0x0023 s ∧ s.sec.locked = false ∧ s.img.slots.named n = some x) ∧
    (∃ (via : Via) (slot : Nat) (s : State), requested via 0x0024 s ∧ s.sec.locked = false ∧ selectErr s.img.slots slot = 0) ∧
    (∃ (via : Via) (s : State), requested via 0x0025 s ∧ s.sec.locked = false ∧ s.lm.defaulted = false) ∧
    (∃ (via : Via) (s : State), requested via 0x0026 s ∧ s.sec.locked = false) ∧
    (∃ (via : Via) (policy alg off : Nat) (chunk : List Byte) (s : State), requested via 0x0027 s ∧ s.sec.locked = false ∧ policyErr policy alg off chunk.length = 0) ∧
    (∃ (via : Via) (policy alg off : Nat) (chunk sg : List Byte) (s : State), requested via 0x0027 s ∧ s.sec.locked = false ∧ policyErr policy alg off chunk.length = 0 ∧ sigWhole (sigPut s.img.policySig off chunk) alg = some sg) ∧
    (∃ (x : Session) (s : State), s.img.slots.session = some x ∧ x.commit = none) := by
  refine ⟨⟨.relay, 1, 4194304, w0, ⟨rfl, rfl⟩, by decide +kernel⟩,
    ⟨.relay, 1, 0, [7], wSess aSess, ⟨rfl, rfl⟩, by decide +kernel⟩,
    ⟨.relay, 1, _, _, wSess aSess, ⟨rfl, rfl⟩, by decide +kernel, some_get _ (by decide +kernel), some_get _ (by decide +kernel)⟩,
    ⟨.relay, 1, aSess, wSess aSess, ⟨rfl, rfl⟩, by decide +kernel⟩,
    ⟨.relay, 1, { w0 with img := { slots := { b := { state := 1 } } } }, ⟨rfl, rfl⟩, by decide +kernel⟩,
    ⟨.relay, w0, ⟨rfl, rfl⟩, by decide +kernel⟩,
    ⟨.relay, w0, ⟨rfl, rfl⟩, by decide +kernel⟩,
    ⟨.relay, 1, 2, 5797, List.replicate 4096 0, w0, ⟨rfl, rfl⟩, by decide +kernel⟩,
    ⟨.relay, 0, 1, 0, [0], _, { w0 with img := { policySig := (List.range 4963).map fun i => (i, some 0) } }, ⟨rfl, rfl⟩, by decide +kernel, by decide +kernel, some_get _ (by decide +kernel)⟩,
    ⟨aSess, wSess aSess, by decide +kernel⟩⟩

def wFw (x : Session) : State := { w0 with sec := { fw := { session := some x, inUse := 0 } } }

def cSess : Session := { aSess with commit := some .relay }

theorem witness_FirmwareSlotsWritten :
    (∃ (via : Via) (slot len : Nat) (s : State), requested via 0x0730 s ∧ s.sec.locked = false ∧ beginErr s.sec.fw slot len 8388608 = 0) ∧
    (∃ (via : Via) (n off : Nat) (bs : List Byte) (s : State), requested via 0x0731 s ∧ s.sec.locked = false ∧ dataErr s.sec.fw n off bs.length = 0) ∧
    (∃ (via : Via) (n : Nat) (x : Session) (bs : List Byte) (s : State), requested via 0x0732 s ∧ s.sec.locked = false ∧ s.sec.fw.named n = some x ∧ x.whole = some bs) ∧
    (∃ (via : Via) (n : Nat) (x : Session) (s : State), requested via 0x0733 s ∧ s.sec.locked = false ∧ s.sec.fw.named n = some x) ∧
    (∃ (via : Via) (slot : Nat) (s : State), requested via 0x0734 s ∧ s.sec.locked = false ∧ selectErr s.sec.fw slot = 0) ∧
    (∃ (via : Via) (s : State), requested via 0x0735 s ∧ s.sec.locked = false ∧ s.sec.fw.inUse ≠ 2) ∧
    (∃ (via : Via) (s : State), requested via 0x0736 s ∧ s.sec.locked = false) ∧
    (∃ (x : Session) (s : State), s.sec.fw.session = some x ∧ x.commit = none) ∧
    (∃ (x : Session) (via : Via) (s : State), s.sec.fw.session = some x ∧ x.commit = some via) ∧
    (∃ (x : Session) (via : Via) (s : State), s.img.slots.session = some x ∧ x.commit = some via) := by
  refine ⟨⟨.relay, 1, 8388608, w0, ⟨rfl, rfl⟩, by decide +kernel⟩,
    ⟨.relay, 1, 0, [7], wFw aSess, ⟨rfl, rfl⟩, by decide +kernel⟩,
    ⟨.relay, 1, _, _, wFw aSess, ⟨rfl, rfl⟩, by decide +kernel, some_get _ (by decide +kernel), some_get _ (by decide +kernel)⟩,
    ⟨.relay, 1, aSess, wFw aSess, ⟨rfl, rfl⟩, by decide +kernel⟩,
    ⟨.relay, 1, { w0 with sec := { fw := { b := { state := 1 } } } }, ⟨rfl, rfl⟩, by decide +kernel⟩,
    ⟨.relay, wFw aSess, ⟨rfl, rfl⟩, by decide +kernel⟩,
    ⟨.relay, w0, ⟨rfl, rfl⟩, by decide +kernel⟩,
    ⟨aSess, wFw aSess, by decide +kernel⟩,
    ⟨cSess, .relay, wFw cSess, by decide +kernel⟩,
    ⟨cSess, .relay, wSess cSess, by decide +kernel⟩⟩

def wVault (pgen : Nat) : State := { w0 with sec := { identity := 1, slots := [(0, { gen := 1, valid := true }), (16, { pgen := pgen, valid := true })] } }

theorem witness_VaultIdentityAndQuotes :
    (∃ (via : Via) (slot : Nat) (s : State), requested via 0x0704 s ∧ slot < 256) ∧
    (∃ (via : Via) (slot : Nat) (s : State), requested via 0x0705 s ∧ revokeErr s via slot = 0 ∧ (vslotOf s slot).gen < 65535) ∧
    (∃ (slot : Nat) (s : State), orphaned s slot = true) ∧
    (∃ (slot : Nat) (s : State), (vslotOf s slot).valid = true) ∧
    (∃ (via : Via) (key : List Byte) (s : State), requested via 0x0703 s ∧ fromManager via = true ∧ key.length = 64 ∧ s.sec.authSet = false) ∧
    (∃ (via : Via) (s : State), requested via 0x0702 s ∧ fromManager via = true ∧ s.sec.locked = false ∧ s.sec.identity ≠ 1 ∧ s.sec.enrol ≠ 255) ∧
    (∃ (via : Via) (gid : Nat) (nonce : List Byte) (s : State), requested via 0x0700 s ∧ quoteErr s via gid nonce = 0) ∧
    (∃ (via : Via) (handle obj offset : Nat) (h : Nat × List Byte × Nat) (o : List Byte) (s : State), requested via 0x0701 s ∧ ((handlesOf s (viaSource via)).find? fun h => h.1 = handle) = some h ∧ assayObject s h obj = some o ∧ offset < o.length) ∧
    (∃ (source : Nat), source < 3) ∧
    (∃ (att : Bool) (s : State), (keyOf s att).wait ≠ []) ∧
    (∃ (source : Nat) (s : State), source < 5 ∧ source ≠ 3 ∧ s.chip.phase ≠ 0) ∧
    (∃ (s : State), s.chip.phase ≠ 0) := by
  refine ⟨⟨.relay, 255, w0, ⟨rfl, rfl⟩, by decide +kernel⟩,
    ⟨.relay, 16, wVault 1, ⟨rfl, rfl⟩, by decide +kernel⟩,
    ⟨16, wVault 0, by decide +kernel⟩,
    ⟨16, wVault 1, by decide +kernel⟩,
    ⟨.relay, List.replicate 64 1, w0, ⟨rfl, rfl⟩, by decide +kernel⟩,
    ⟨.relay, w0, ⟨rfl, rfl⟩, by decide +kernel⟩,
    ⟨.relay, 0, List.replicate 32 0, wVault 1, ⟨rfl, rfl⟩, by decide +kernel⟩,
    ⟨.relay, 0, 0, 0, _, _, { w0 with hp := { sideHandles := [(0, [1], 0)] } }, ⟨rfl, rfl⟩, some_get _ (by decide +kernel), some_get _ (by decide +kernel), by decide +kernel⟩,
    ⟨2, by decide +kernel⟩,
    ⟨true, { w0 with sec := { atKey := { wait := [(.relay, 0, [])] } } }, by decide +kernel⟩,
    ⟨4, w0, by decide +kernel⟩,
    ⟨w0, by decide +kernel⟩⟩

def wEng (c : Nat) : State := { w0 with cu := { engines := [(0, { queue := [{ bits := c }] })] } }

theorem witness_EngineCommandsPerformed :
    (∃ (b e c : Nat) (rows : List (List Byte)) (s u : State), meHead s b e 1 = some c ∧ issueStopped s b = false ∧ ((cmaOf s b).hold = false ∨ usesCluster c = false) ∧ rdRows s.start b e (loadSrc c) = .ok rows ∧ fld c 20 4 = fld c 16 4 ∧ c.testBit 45 = false ∧ wrRows b e (loadDst c) (rows.map fun r => pack (fld c 16 4) (unpack (fld c 20 4) (fld c 24 14 + 1) r)) s.start = .ok u) ∧
    (∃ (b e c : Nat) (ra rb : List (List Byte)) (s : State), meHead s b e 2 = some c ∧ issueStopped s b = false ∧ c.testBit 43 = true ∧ c.testBit 44 = false ∧ c.testBit 45 = false ∧ (mmaPair (fld c 12 4) (fld c 8 4)).map (·.1) = some false ∧ rdRows s.start b e (mmaA c) = .ok ra ∧ rdRows s.start b e (mmaB c) = .ok rb ∧ fld c 42 1 = 0) ∧
    (∃ (b e c : Nat) (s u : State), meHead s b e 3 = some c ∧ issueStopped s b = false ∧ ((cmaOf s b).hold = false ∨ usesCluster c = false) ∧ doAccRead b e c s.start = .ok u) ∧
    (∃ (b e c : Nat) (rows : List (List Byte)) (s u : State), meHead s b e 4 = some c ∧ issueStopped s b = false ∧ ((cmaOf s b).hold = false ∨ usesCluster c = false) ∧ rdRows s.start b e (storeSrc c) = .ok rows ∧ wrRows b e (storeDst c) rows s.start = .ok u) ∧
    (∃ (b e c : Nat) (rows : List (List Byte)) (s u : State), meHead s b e 5 = some c ∧ issueStopped s b = false ∧ ((cmaOf s b).hold = false ∨ usesCluster c = false) ∧ rdRows s.start b e (trSrc c) = .ok rows ∧ wrRows b e (trDst c) ((flipRows [] (cCols c) (rows.map (chunks (trWidth c) (cCols c)))).map List.flatten) s.start = .ok u) ∧
    (∃ (b e c : Nat) (s u : State), meHead s b e 6 = some c ∧ issueStopped s b = false ∧ ((cmaOf s b).hold = false ∨ usesCluster c = false) ∧ doReduceSend b e c s.start = .ok u) ∧
    (∃ (b e c : Nat) (rows : List (List Byte)) (s : State), meHead s b e 7 = some c ∧ issueStopped s b = false ∧ ((cmaOf s b).hold = false ∨ usesCluster c = false) ∧ rdRows s.start b e (alSrc c) = .ok rows) := by
  refine ⟨⟨0, 0, 1, _, wEng 1, _, by decide +kernel, by decide +kernel, by decide +kernel, ok_get _ (by decide +kernel), by decide +kernel, by decide +kernel, ok_get _ (by decide +kernel)⟩,
    ⟨0, 0, 0x80000000002, _, _, wEng 0x80000000002, by decide +kernel, by decide +kernel, by decide +kernel, by decide +kernel, by decide +kernel, by decide +kernel, ok_get _ (by decide +kernel), ok_get _ (by decide +kernel), by decide +kernel⟩,
    ⟨0, 0, 3, wEng 3, _, by decide +kernel, by decide +kernel, by decide +kernel, ok_get _ (by decide +kernel)⟩,
    ⟨0, 0, 4, _, wEng 4, _, by decide +kernel, by decide +kernel, by decide +kernel, ok_get _ (by decide +kernel), ok_get _ (by decide +kernel)⟩,
    ⟨0, 0, 5, _, wEng 5, _, by decide +kernel, by decide +kernel, by decide +kernel, ok_get _ (by decide +kernel), ok_get _ (by decide +kernel)⟩,
    ⟨0, 0, 0x100000000000000000000000006, { wEng 0x100000000000000000000000006 with lm := { wl.lm with blocks := [(0, { state := 1, slot := 0, lode := 0, slots := [1] }), (1, { state := 1, slot := 1, lode := 0 })] } }, _, by decide +kernel, by decide +kernel, by decide +kernel, ok_get _ (by decide +kernel)⟩,
    ⟨0, 0, 7, _, wEng 7, by decide +kernel, by decide +kernel, by decide +kernel, ok_get _ (by decide +kernel)⟩⟩

def pad0 : Nat := 0xFFFFFFFFFE400000

def wCore (k : Core) (bs : List Host.Cell) : State := { w0 with cu := { cores := [(0, k)] }, mem := { bytes := bs } }

def wEngs (q : List MeCmd) : State := { w0 with cu := { engines := [(0, { queue := q })] } }

def wDeliv (lines : List Nat) : State := { w0 with cu := { deliv := [{ id := 0, block := 0, engine := 0, lode := 0, dblock := 1, bits := 6, lines := lines }] } }

theorem witness_EngineQueueAndCompletion :
    (∃ (b c rs1 rs2 ph : Nat) (bytes : List Byte) (s : State), coreReady (coreOf s b c) = true ∧ corePresent s b c = true ∧ issueStopped s b = false ∧ ownPad b c (xOf (coreOf s b c) rs1) 32 = some ph ∧ xOf (coreOf s b c) rs1 % 32 = 0 ∧ xOf (coreOf s b c) rs2 < 4 ∧ rdPhys s.start ph 32 = .ok bytes ∧ (engineOf s b (xOf (coreOf s b c) rs2)).errstop = false ∧ meCheck s b (xOf (coreOf s b c) rs2) (unle bytes) = 0 ∧ (engineOf s b (xOf (coreOf s b c) rs2)).queue.length < 8) ∧
    (∃ (b c rs1 rs2 ph : Nat) (bytes : List Byte) (s : State), coreReady (coreOf s b c) = true ∧ corePresent s b c = true ∧ issueStopped s b = false ∧ ownPad b c (xOf (coreOf s b c) rs1) 32 = some ph ∧ xOf (coreOf s b c) rs1 % 32 = 0 ∧ xOf (coreOf s b c) rs2 < 4 ∧ rdPhys s.start ph 32 = .ok bytes ∧ (engineOf s b (xOf (coreOf s b c) rs2)).errstop = false ∧ 8 ≤ (engineOf s b (xOf (coreOf s b c) rs2)).queue.length) ∧
    (∃ (b e : Nat) (c : MeCmd) (rest : List MeCmd) (s : State), (engineOf s b e).queue = c :: rest ∧ c.ran = true ∧ cPost c.bits = false) ∧
    (∃ (b e : Nat) (c : MeCmd) (rest : List MeCmd) (s : State), (engineOf s b e).queue = c :: rest ∧ (cmaOf s b).hold = false ∧ (pregOf s (b / 12)).held = false) ∧
    (∃ (b e : Nat) (s : State), (engineOf s b e).queue = []) ∧
    (∃ (id line : Nat) (d : Delivery) (s : State), (s.cu.deliv.find? fun d => d.id = id) = some d ∧ line ∈ d.lines) ∧
    (∃ (id line : Nat) (d : Delivery) (s : State), (s.cu.deliv.find? fun d => d.id = id) = some d ∧ line ∈ d.lines ∧ line ∉ d.retried) ∧
    (∃ (id : Nat) (s : State), (∀ d ∈ s.cu.deliv, d.id = id → d.lines ≠ [])) := by
  refine ⟨⟨0, 0, 1, 0, _, _, wCore { run := 1, x := [(1, 0xFFFFFFFFFE400000)] } [(0x1C000400000, 1)], by decide +kernel, by decide +kernel, by decide +kernel, some_get _ (by decide +kernel), by decide +kernel, by decide +kernel, ok_get _ (by decide +kernel), by decide +kernel⟩,
    ⟨0, 0, 1, 0, _, _, { wCore { run := 1, x := [(1, 0xFFFFFFFFFE400000)] } [(0x1C000400000, 1)] with cu := { (wCore { run := 1, x := [(1, 0xFFFFFFFFFE400000)] } []).cu with engines := [(0, { queue := List.replicate 8 { bits := 7, issuer := 32 } })] } }, by decide +kernel, by decide +kernel, by decide +kernel, some_get _ (by decide +kernel), by decide +kernel, by decide +kernel, ok_get _ (by decide +kernel), by decide +kernel⟩,
    ⟨0, 0, { bits := 7, issuer := 32, ran := true }, [], wEngs [{ bits := 7, issuer := 32, ran := true }], by decide +kernel⟩,
    ⟨0, 0, { bits := 7, issuer := 32 }, [], wEngs [{ bits := 7, issuer := 32 }], by decide +kernel⟩,
    ⟨0, 0, wEngs [], by decide +kernel⟩,
    ⟨0, 127, _, wDeliv [0, 127], some_get _ (by decide +kernel), by decide +kernel⟩,
    ⟨0, 127, _, wDeliv [127], some_get _ (by decide +kernel), by decide +kernel⟩,
    ⟨0, wDeliv [127], by decide +kernel⟩⟩

def wLaunch (k : Core) (bs : List Host.Cell) : State := { w0 with
  lm := { lodes := [(0, { gid := 5, state := 2, home := true })], blocks := [(0, { state := 1, slot := 0, lode := 0, launch := some (0, 0) })] }
  q := [(0, { recs := [{ pos := 0, bits := 0 }] })]
  cu := { cores := [(0, k)] }, mem := { bytes := bs } }

def fillReq : List Host.Cell := [(0x1C000400000, 3), (0x1C000400019, 1), (0x1C00040001A, 0x40), (0x1C00040001B, 0xFE), (0x1C00040001C, 0xFF),
  (0x1C00040001D, 0xFF), (0x1C00040001E, 0xFF), (0x1C00040001F, 0xFF), (0x1C000400020, 8)]

def wDma (d : Dma) : State := { w0 with cu := { dma := [(0, [d])] }, dr := { assigned := true } }

def aCopy : Dma := { owner := .core 0 0, kind := 1, len := 64, src := .phys 0x1C000400000, dst := .phys 0x1C000401000 }

theorem witness_DmaRequestsMoveData :
    (∃ (b c rs1 ph l pos ctx u : Nat) (bytes cb : List Byte) (sp : DmaSpace × DmaSpace × DmaSpace × DmaSpace) (s : State), executes b c s ∧ (coreOf s b c).dmaOut < 8 ∧ ownPad b c (xOf (coreOf s b c) rs1) 64 = some ph ∧ launchOf s b = some (l, pos, ctx) ∧ xOf (coreOf s b c) rs1 % 64 = 0 ∧ rdPhys s.start ph 64 = .ok bytes ∧ rdPhys s.start (blockBase b + 0x400000 + c * 0x10000 + qConv (unle bytes) / 32 * 32) (if qKind (unle bytes) = 2 then 32 else 0) = .ok cb ∧ reqReserved (unle bytes) = false ∧ reqOk s b c (unle bytes) (unle cb) = true ∧ (qKind (unle bytes) = 2 → cvCheck (unle cb) (qSrc (unle bytes)) (qLen (unle bytes)) (qDst (unle bytes)) = 0) ∧ reqSpaces (draw s.start).2 b c (walkAs (draw s.start).2 b (draw s.start).1 ctx) (unle bytes) (unle cb) = .ok sp ∧ overExtents sp = false ∧ reqUnit s b (qTarget (unle bytes)) = some u) ∧
    (∃ (u : Nat) (d : Dma) (bs : List Byte) (s w : State), startsChunk u 1 d s ∧ fetchHost d.lode d.src d.pos (min 4096 (d.len - d.pos)) (.dma u d.serial d.pos (min 4096 (d.len - d.pos))) (chunkStart u d s.start) = none ∧ rdSpace (chunkStart u d s.start) d.lode d.src d.pos (min 4096 (d.len - d.pos)) = .ok bs ∧ wrSpace d.lode d.cls d.dst d.pos bs (touchSpace d.lode d.cls d.src d.pos (min 4096 (d.len - d.pos)) (chunkStart u d s.start)) = .ok w) ∧
    (∃ (u : Nat) (d : Dma) (s w : State), startsChunk u 1 d s ∧ fetchHost d.lode d.src d.pos (min 4096 (d.len - d.pos)) (.dma u d.serial d.pos (min 4096 (d.len - d.pos))) (chunkStart u d s.start) = some w) ∧
    (∃ (u : Nat) (d : Dma) (s w : State), startsChunk u 3 d s ∧ wrSpace d.lode d.cls d.dst d.pos ((List.range (min 4096 (d.len - d.pos))).map fun i => (le 8 d.fill).getD (i % 8) 0) (chunkStart u d s.start) = .ok w) ∧
    (∃ (u : Nat) (d : Dma) (s w : State), startsChunk u 2 d s ∧ doConvert u d (chunkStart u d s.start) = .ok w) ∧
    (∃ (u : Nat) (d : Dma) (bs : List Byte) (s : State), startsChunk u 4 d s ∧ d.kind = 4 ∧ (d.pos = 0 → winRequestErr s d d.dstVa = 0) ∧ rdSpace (chunkStart u d s.start) d.lode d.src d.pos (min 4096 (d.len - d.pos)) = .ok bs) ∧
    (∃ (u : Nat) (d : Dma) (s : State), startsChunk u 5 d s ∧ d.kind = 5 ∧ (d.pos = 0 → winRequestErr s d d.srcVa = 0)) ∧
    (∃ (u : Nat) (d : Dma) (s : State), ((dmaOf s u).find? fun d => d.chunk ≠ 0) = some d ∧ d.kind ≤ 3 ∧ d.pos + d.chunk ≠ d.len ∧ d.stale = false ∧ d.cancel = 0) ∧
    (∃ (u : Nat) (d : Dma) (s : State), ((dmaOf s u).find? fun d => d.chunk ≠ 0) = some d ∧ d.kind ≤ 3 ∧ d.pos + d.chunk = d.len) := by
  refine ⟨⟨0, 0, 1, _, 0, 0, 0, _, _, _, _, wLaunch { run := 1, x := [(1, 0xFFFFFFFFFE400000)] } fillReq, ⟨by decide +kernel, by decide +kernel, by decide +kernel⟩, by decide +kernel, some_get _ (by decide +kernel), by decide +kernel, by decide +kernel, ok_get _ (by decide +kernel), ok_get _ (by decide +kernel), by decide +kernel, by decide +kernel, by decide +kernel, ok_get _ (by decide +kernel), by decide +kernel, some_get _ (by decide +kernel)⟩,
    ⟨0, aCopy, _, wDma aCopy, _, ⟨by decide +kernel, by decide +kernel, by decide +kernel, by decide +kernel⟩, by decide +kernel, ok_get _ (by decide +kernel), ok_get _ (by decide +kernel)⟩,
    ⟨0, { aCopy with src := .host 0 0 }, wDma { aCopy with src := .host 0 0 }, _, ⟨by decide +kernel, by decide +kernel, by decide +kernel, by decide +kernel⟩, some_get _ (by decide +kernel)⟩,
    ⟨0, { aCopy with kind := 3 }, wDma { aCopy with kind := 3 }, _, ⟨by decide +kernel, by decide +kernel, by decide +kernel, by decide +kernel⟩, ok_get _ (by decide +kernel)⟩,
    ⟨0, { aCopy with kind := 2 }, wDma { aCopy with kind := 2 }, _, ⟨by decide +kernel, by decide +kernel, by decide +kernel, by decide +kernel⟩, ok_get _ (by decide +kernel)⟩,
    ⟨0, { aCopy with kind := 4 }, _, wDma { aCopy with kind := 4 }, ⟨by decide +kernel, by decide +kernel, by decide +kernel, by decide +kernel⟩, by decide +kernel, by decide +kernel, ok_get _ (by decide +kernel)⟩,
    ⟨0, { aCopy with kind := 5 }, wDma { aCopy with kind := 5 }, ⟨by decide +kernel, by decide +kernel, by decide +kernel, by decide +kernel⟩, by decide +kernel⟩,
    ⟨0, _, wDma { aCopy with chunk := 32 }, some_get _ (by decide +kernel), by decide +kernel⟩,
    ⟨0, _, wDma { aCopy with chunk := 64 }, some_get _ (by decide +kernel), by decide +kernel⟩⟩

def wSync (k : Core) : State := { w0 with
  lm := { lodes := [(0, { gid := 5, state := 2, home := true })], blocks := [(0, { state := 1, slot := 0, lode := 0, slots := [1] }), (1, { state := 1, slot := 1, lode := 0 })] }
  noc := { semPages := [(511, { bound := true, lode := 0 })], barPages := [(63, { bound := true, lode := 0 })] }
  cu := { cores := [(0, k)] } }

theorem witness_CoreSynchronisation :
    (∃ (b c rs1 n : Nat) (s : State), executes b c s ∧ xOf (coreOf s b c) rs1 % 2 ^ 17 = n ∧ holdsSem s (blockOf s b).lode n = true) ∧
    (∃ (b c rs1 n : Nat) (s : State), executes b c s ∧ xOf (coreOf s b c) rs1 % 2 ^ 17 = n ∧ holdsSem s (blockOf s b).lode n = true ∧ (semOf s n).poisoned = false) ∧
    (∃ (b c rs1 n : Nat) (s : State), executes b c s ∧ xOf (coreOf s b c) rs1 % 2 ^ 17 = n ∧ holdsSem s (blockOf s b).lode n = true) ∧
    (∃ (b c rs1 g : Nat) (s : State), executes b c s ∧ xOf (coreOf s b c) rs1 % 2 ^ 12 = g ∧ holdsBar s (blockOf s b).lode g = true) ∧
    (∃ (b c f : Nat) (s : State), executes b c s ∧ f < 64 ∧ (f.testBit 2 = true → (coreOf s b c).dmaOut = 0) ∧ (f.testBit 3 = true → (coreOf s b c).meOut = 0)) ∧
    (∃ (b c f : Nat) (s : State), executes b c s ∧ f < 64 ∧ f.testBit 2 = true ∧ (coreOf s b c).dmaOut ≠ 0) ∧
    (∃ (b c rs2 k : Nat) (s : State), executes b c s ∧ xOf (coreOf s b c) rs2 < 2 ^ 10 ∧ fld (xOf (coreOf s b c) rs2) 8 2 ≠ 3 ∧ (xOf (coreOf s b c) rs2).testBit 7 = false ∧ destBlock s b (xOf (coreOf s b c) rs2 % 128) = some k) ∧
    (∃ (b c rs2 : Nat) (s : State), executes b c s ∧ xOf (coreOf s b c) rs2 < 2 ^ 11 ∧ (xOf (coreOf s b c) rs2).testBit 10 = true) ∧
    (∃ (b c vd rs1 vs2 : Nat) (s : State), executes b c s ∧ (vcvtConv (xOf (coreOf s b c) rs1)).check = 0 ∧ vcvtRegsOk (coreOf s b c) (xOf (coreOf s b c) rs1) vd vs2 = true) := by
  refine ⟨⟨0, 0, 1, 131071, wSync { run := 1, x := [(1, 131071)] }, ⟨by decide +kernel, by decide +kernel, by decide +kernel⟩, by decide +kernel⟩,
    ⟨0, 0, 1, 131071, wSync { run := 1, x := [(1, 131071)] }, ⟨by decide +kernel, by decide +kernel, by decide +kernel⟩, by decide +kernel⟩,
    ⟨0, 0, 1, 131071, wSync { run := 1, x := [(1, 131071)] }, ⟨by decide +kernel, by decide +kernel, by decide +kernel⟩, by decide +kernel⟩,
    ⟨0, 0, 1, 4095, wSync { run := 1, x := [(1, 4095)] }, ⟨by decide +kernel, by decide +kernel, by decide +kernel⟩, by decide +kernel⟩,
    ⟨0, 0, 63, wSync { run := 1 }, ⟨by decide +kernel, by decide +kernel, by decide +kernel⟩, by decide +kernel⟩,
    ⟨0, 0, 63, wSync { run := 1, dmaOut := 1 }, ⟨by decide +kernel, by decide +kernel, by decide +kernel⟩, by decide +kernel⟩,
    ⟨0, 0, 2, _, wSync { run := 1, x := [(2, 1)] }, ⟨by decide +kernel, by decide +kernel, by decide +kernel⟩, by decide +kernel, by decide +kernel, by decide +kernel, some_get _ (by decide +kernel)⟩,
    ⟨0, 0, 2, wSync { run := 1, x := [(2, 2047)] }, ⟨by decide +kernel, by decide +kernel, by decide +kernel⟩, by decide +kernel⟩,
    ⟨0, 0, 16, 0, 8, wSync { run := 1 }, ⟨by decide +kernel, by decide +kernel, by decide +kernel⟩, by decide +kernel⟩⟩

def wEcall (n : Word) (profile conf : Bool) : State := { w0 with
  lm := { lodes := [(0, { gid := 5, state := 2, conf := conf })], blocks := [(0, { state := 1, slot := 0, lode := 0 })] }
  sch := { ctxs := [(0xFFF, { mask := 2 ^ 63, profile := profile })] }
  cu := { cores := [(0, { run := 1, x := [(17, n)] })] } }

theorem witness_CoreInstructionsExecuted :
    (∃ (b c rd rs1 imm : Nat) (s : State), executes b c s ∧ rd < 32 ∧ rs1 < 32 ∧ imm < 4096) ∧
    (∃ (b c w : Nat) (v : Word) (s : State), executes b c s ∧ w < 2 ^ 32 ∧ w % 4 = 3 ∧ wOp w ∈ [0x37, 0x17, 0x13, 0x1B, 0x33, 0x3B] ∧ intResult w (coreOf s b c).pc (BitVec.ofNat 64 (xOf (coreOf s b c) (wRs1 w))) (BitVec.ofNat 64 (xOf (coreOf s b c) (wRs2 w))) 4 = some (some v, none)) ∧
    (∃ (b c : Nat) (s : State), executes b c s) ∧
    (∃ (b c v : Nat) (s : State), executes b c s ∧ (ctxOf s (ctxOfBlock s b)).mask.testBit (v % 64) = true) ∧
    (∃ (b c v : Nat) (s : State), executes b c s ∧ v < 65536 ∧ v ≠ 0) ∧
    (∃ (b c : Nat) (s : State), executes b c s) ∧
    (∃ (b c : Nat) (s : State), executes b c s) ∧
    (∃ (b c : Nat) (s : State), executes b c s ∧ xOf (coreOf s b c) 17 = 0) ∧
    (∃ (b c : Nat) (s : State), executes b c s ∧ xOf (coreOf s b c) 17 = 1) ∧
    (∃ (b c : Nat) (s : State), executes b c s ∧ xOf (coreOf s b c) 17 = 2 ∧ (ctxOf s (ctxOfBlock s b)).profile = false) ∧
    (∃ (b c : Nat) (s : State), executes b c s ∧ xOf (coreOf s b c) 17 = 2 ∧ (ctxOf s (ctxOfBlock s b)).profile = true ∧ (lodeOf s (blockOf s b).lode).conf = false) := by
  refine ⟨⟨0, 0, 31, 31, 4095, wEcall 0 false false, ⟨by decide +kernel, by decide +kernel, by decide +kernel⟩, by decide +kernel⟩,
    ⟨0, 0, 0x00500093, 5, wEcall 0 false false, ⟨by decide +kernel, by decide +kernel, by decide +kernel⟩, by decide +kernel⟩,
    ⟨0, 0, wEcall 0 false false, ⟨by decide +kernel, by decide +kernel, by decide +kernel⟩⟩,
    ⟨0, 0, 63, wEcall 0 false false, ⟨by decide +kernel, by decide +kernel, by decide +kernel⟩, by decide +kernel⟩,
    ⟨0, 0, 65535, wEcall 0 false false, ⟨by decide +kernel, by decide +kernel, by decide +kernel⟩, by decide +kernel⟩,
    ⟨0, 0, wEcall 0 false false, ⟨by decide +kernel, by decide +kernel, by decide +kernel⟩⟩,
    ⟨0, 0, wEcall 0 false false, ⟨by decide +kernel, by decide +kernel, by decide +kernel⟩⟩,
    ⟨0, 0, wEcall 0 false false, ⟨by decide +kernel, by decide +kernel, by decide +kernel⟩, by decide +kernel⟩,
    ⟨0, 0, wEcall 1 false false, ⟨by decide +kernel, by decide +kernel, by decide +kernel⟩, by decide +kernel⟩,
    ⟨0, 0, wEcall 2 false false, ⟨by decide +kernel, by decide +kernel, by decide +kernel⟩, by decide +kernel⟩,
    ⟨0, 0, wEcall 2 true false, ⟨by decide +kernel, by decide +kernel, by decide +kernel⟩, by decide +kernel⟩⟩

def wPad (resv : Option Nat) : State := wCore { run := 1, x := [(1, 0xFFFFFFFFFE400000)], resv := resv } []

theorem load_get (x : Except Nat (List Byte × State)) (h : x.isOk = true) : x = .ok ((okGet x h).1, (okGet x h).2) := by
  cases x with
  | ok a => rfl
  | error e => simp [Except.isOk, Except.toBool] at h
theorem witness_CoreMemoryAccesses :
    (∃ (b c w va : Nat) (ps : List Part) (bs : List Byte) (s u : State), executes b c s ∧ w < 2 ^ 32 ∧ w % 4 = 3 ∧ wOp w = 0x03 ∧ wF3 w ≠ 7 ∧ effAddr (coreOf s b c) (wRs1 w) (immI w) = va ∧ accessAt b c 0 va (2 ^ (wF3 w % 4)) ps s.start ∧ rdParts b c ps (reachedAt b c va (2 ^ (wF3 w % 4)) ps s.start) = .ok (bs, u)) ∧
    (∃ (b c w va : Nat) (ps : List Part) (s u t : State), executes b c s ∧ w < 2 ^ 32 ∧ w % 4 = 3 ∧ wOp w = 0x23 ∧ wF3 w < 4 ∧ effAddr (coreOf s b c) (wRs1 w) (immS w) = va ∧ accessAt b c 1 va (2 ^ wF3 w) ps s.start ∧ reachedAt b c va (2 ^ wF3 w) ps s.start = u ∧ wrParts b c (coreOf u b c).tag ps (le (2 ^ wF3 w) (xOf (coreOf s b c) (wRs2 w))) u = .ok t) ∧
    (∃ (b c w va v : Nat) (ps : List Part) (bs : List Byte) (s u t : State), executes b c s ∧ isAtomic w = true ∧ isLr w = false ∧ isSc w = false ∧ xOf (coreOf s b c) (wRs1 w) = va ∧ va % atomBytes w = 0 ∧ accessAt b c 2 va (atomBytes w) ps s.start ∧ memOf ps ≠ [] ∧ (∀ p ∈ memOf ps, p.1 = false → inOperandStore p.2.1 = false) ∧ rdParts b c ps (reachedAt b c va (atomBytes w) ps s.start) = .ok (bs, u) ∧ amoValue (8 * atomBytes w) (wRs3 w) (unle bs) (xOf (coreOf u b c) (wRs2 w) % 2 ^ (8 * atomBytes w)) = some v ∧ wrParts b c (coreOf u b c).tag ps (le (atomBytes w) v) u = .ok t) ∧
    (∃ (b c w va : Nat) (ps : List Part) (bs : List Byte) (s u : State), executes b c s ∧ isLr w = true ∧ wRs2 w = 0 ∧ xOf (coreOf s b c) (wRs1 w) = va ∧ va % atomBytes w = 0 ∧ accessAt b c 2 va (atomBytes w) ps s.start ∧ memOf ps ≠ [] ∧ (∀ p ∈ memOf ps, p.1 = false → inOperandStore p.2.1 = false) ∧ rdParts b c ps (reachedAt b c va (atomBytes w) ps s.start) = .ok (bs, u)) ∧
    (∃ (b c w va : Nat) (ps : List Part) (s u t : State), executes b c s ∧ isSc w = true ∧ xOf (coreOf s b c) (wRs1 w) = va ∧ va % atomBytes w = 0 ∧ accessAt b c 2 va (atomBytes w) ps s.start ∧ memOf ps ≠ [] ∧ (∀ p ∈ memOf ps, p.1 = false → inOperandStore p.2.1 = false) ∧ reachedAt b c va (atomBytes w) ps s.start = u ∧ (coreOf u b c).resv ≠ none ∧ (coreOf u b c).resv = physLine u (blockOf s b).lode ps ∧ wrParts b c (coreOf u b c).tag ps (le (atomBytes w) (xOf (coreOf u b c) (wRs2 w))) u = .ok t) ∧
    (∃ (b c w va : Nat) (ps : List Part) (s u : State), executes b c s ∧ isSc w = true ∧ xOf (coreOf s b c) (wRs1 w) = va ∧ va % atomBytes w = 0 ∧ accessAt b c 2 va (atomBytes w) ps s.start ∧ memOf ps ≠ [] ∧ (∀ p ∈ memOf ps, p.1 = false → inOperandStore p.2.1 = false) ∧ reachedAt b c va (atomBytes w) ps s.start = u ∧ ((coreOf u b c).resv = none ∨ (coreOf u b c).resv ≠ physLine u (blockOf s b).lode ps)) ∧
    (∃ (b c va n a : Nat) (s : State), placeOf s b c va n = .phys a ∧ va % 65536 + n ≤ 65536) ∧
    (∃ (b a n : Nat) (bs : List Byte) (s : State), rdPhys s a n = .ok bs ∧ areaOf a bs.length ≠ some b) ∧
    (∃ (b a : Nat) (bs : List Byte) (s t : State), areaOf a bs.length ≠ some b ∧ wrPhys a bs s = .ok t) := by
  refine ⟨⟨0, 0, 0x00008083, 0xFFFFFFFFFE400000, [.mem false 0x1C000400000 1], _, wPad none, _, ⟨by decide +kernel, by decide +kernel, by decide +kernel⟩, by decide +kernel, by decide +kernel, by decide +kernel, by decide +kernel, by decide +kernel, (⟨by decide +kernel, by decide +kernel⟩), (load_get _ (by decide +kernel))⟩,
    ⟨0, 0, 0x00008023, 0xFFFFFFFFFE400000, [.mem false 0x1C000400000 1], wPad none, _, _, ⟨by decide +kernel, by decide +kernel, by decide +kernel⟩, by decide +kernel, by decide +kernel, by decide +kernel, by decide +kernel, by decide +kernel, (⟨by decide +kernel, by decide +kernel⟩), (rfl), ok_get _ (by decide +kernel)⟩,
    ⟨0, 0, 0x0000A12F, 0xFFFFFFFFFE400000, _, [.mem false 0x1C000400000 4], _, wPad none, _, _, ⟨by decide +kernel, by decide +kernel, by decide +kernel⟩, by decide +kernel, by decide +kernel, by decide +kernel, by decide +kernel, by decide +kernel, (⟨by decide +kernel, by decide +kernel⟩), by decide +kernel, ((by decide +kernel)), (load_get _ (by decide +kernel)), some_get _ (by decide +kernel), ok_get _ (by decide +kernel)⟩,
    ⟨0, 0, 0x1000A12F, 0xFFFFFFFFFE400000, [.mem false 0x1C000400000 4], _, wPad none, _, ⟨by decide +kernel, by decide +kernel, by decide +kernel⟩, by decide +kernel, by decide +kernel, by decide +kernel, by decide +kernel, (⟨by decide +kernel, by decide +kernel⟩), by decide +kernel, by decide +kernel, (load_get _ (by decide +kernel))⟩,
    ⟨0, 0, 0x1800A12F, 0xFFFFFFFFFE400000, [.mem false 0x1C000400000 4], wPad (some 0x700010000), _, _, ⟨by decide +kernel, by decide +kernel, by decide +kernel⟩, by decide +kernel, by decide +kernel, by decide +kernel, (⟨by decide +kernel, by decide +kernel⟩), by decide +kernel, by decide +kernel, (rfl), by decide +kernel, by decide +kernel, ok_get _ (by decide +kernel)⟩,
    ⟨0, 0, 0x1800A12F, 0xFFFFFFFFFE400000, [.mem false 0x1C000400000 4], wPad none, _, ⟨by decide +kernel, by decide +kernel, by decide +kernel⟩, by decide +kernel, by decide +kernel, by decide +kernel, (⟨by decide +kernel, by decide +kernel⟩), by decide +kernel, by decide +kernel, (rfl), (.inl (by decide +kernel))⟩,
    ⟨0, 0, 0xFFFFFFFFFE400000, 4, _, wPad none, (rfl), by decide +kernel⟩,
    ⟨0, 0x1C000400000, 4, _, wPad none, ok_get _ (by decide +kernel), by decide +kernel⟩,
    ⟨0, 0x1C000400000, [7], wPad none, _, by decide +kernel, ok_get _ (by decide +kernel)⟩⟩

def wWalk (wait : CoreWait) (byte : Nat) : State := { wl with
  cu := { cores := [(0, { run := 1, wait := wait })] }
  mem := { bytes := [(0, BitVec.ofNat 8 byte)] }
  xl := { ctxs := [(0xFFF, { valid := true, lode := 0 })], lodes := [(0, { tblCnt := 1 })] } }

theorem walkAs_bind {s : State} {w v c va : Nat} {f : TlbEntry → Except Stop TlbEntry} (h : cachedStart s w c va = rootOf s c) :
    (walkAs s w v c va).bind f = (walk s c va).bind f := by
  simp [walkAs, walkStart, h, walk]

theorem ok_via {ε α : Type} {x y : Except ε α} (h : x = y) (k : y.isOk = true) : x = .ok (okGet y k) := h.trans (ok_get y k)

theorem err_via {ε α : Type} {x y : Except ε α} (h : x = y) (k : y.isOk = false) : x = .error (errGet y k) := h.trans (err_get y k)
theorem witness_LaunchesAndExceptions :
    (∃ (b l pos ctx : Nat) (r : Rec) (s : State), nextLaunch s b = none ∧ launchOf s b = some (l, pos, ctx) ∧ ((blockOf s b).launch.bind fun p => recOf s p.1 p.2) = some r ∧ launchWaits s b = true ∧ (blockOf s b).resetting = false ∧ remapWaits s b = false ∧ tagLive s l (blockOf s b).etag = true) ∧
    (∃ (l pos : Nat) (s : State), launchBlocks s l pos ≠ [] ∧ (launchBlocks s l pos).all (blockDone s) = true ∧ firstStatus s (launchBlocks s l pos) = none) ∧
    (∃ (b c va access : Nat) (e : TlbEntry) (s : State), (coreOf s b c).wait = .walk va access ∧ ((walkAs s.start b (draw s.start).1 (ctxOfBlock s b) va).bind fun e => (useLeaf s.start e va access 1).map fun _ => e) = .ok e) ∧
    (∃ (b c va access : Nat) (st : Stop) (s : State), (coreOf s b c).wait = .walk va access ∧ ((walkAs s.start b (draw s.start).1 (ctxOfBlock s b) va).bind fun e => (useLeaf s.start e va access 1).map fun _ => e) = .error st) ∧
    (∃ (b c cause : Nat) (s : State), executes b c s ∧ cause ≠ 12 ∧ cause ≠ 13 ∧ cause ≠ 15) ∧
    (∃ (b c va : Nat) (st : Stop) (s : State), executes b c s ∧ ((walk s.start (ctxOfBlock s b) va).bind fun e => useLeaf s.start e va 0 1) = .error st) ∧
    (∃ (b row : Nat) (s : State), (rowOf s b row).pendingRemap = true ∧ (blockOf s b).launch = none) := by
  refine ⟨⟨0, 0, 0, 0, { pos := 0, bits := 0 }, wLaunch {} [], by decide +kernel⟩,
    ⟨0, 0, { wLaunch { run := 2 } [] with q := [(0, { recs := [{ pos := 0, bits := 0, parts := [0] }] })], cu := { cores := [(0, { run := 2 })], rows := [(0, { absent := 0xFE }), (1, { absent := 0xFF }), (2, { absent := 0xFF }), (3, { absent := 0xFF })] } }, by decide +kernel⟩,
    ⟨0, 0, 2 ^ 41 - 1, 0, _, wWalk (.walk (2 ^ 41 - 1) 0) 0x1B, by decide +kernel, (ok_via (walkAs_bind (by decide +kernel)) (by decide +kernel))⟩,
    ⟨0, 0, 0, 0, _, wWalk (.walk 0 0) 0, by decide +kernel, (err_via (walkAs_bind (by decide +kernel)) (by decide +kernel))⟩,
    ⟨0, 0, 2, wWalk .none 0, ⟨by decide +kernel, by decide +kernel, by decide +kernel⟩, by decide +kernel⟩,
    ⟨0, 0, 0, _, wWalk .none 0, ⟨by decide +kernel, by decide +kernel, by decide +kernel⟩, err_get _ (by decide +kernel)⟩,
    ⟨0, 3, { w0 with cu := { rows := [(3, { pendingRemap := true })] } }, by decide +kernel⟩⟩

def wSet (n : Nat) (st : Nat) : State := { w0 with lm := { sets := [(n, ⟨st, 32 * n, 32, 0⟩)] } }

def wAsk : State := { wl with noc := { masters := [(0, { tokens := 128 })] } }
def aAsk : ArbReq := { id := 1, cls := 0, conform := true, dl := 0, bytes := 64 }
theorem witness_SharedMemoryServed :
    (∃ (q r : MemReq) (s u v : State) (p : Nat) (own : Bool), routed q s.start = (r, u) ∧ behind u r = false ∧ regionClosed u r = false ∧ bucketHas u r.master r.lode r.len = true ∧ (lodeOf u r.lode).state ≠ 0 ∧ tagLive u r.lode r.etag = true ∧ waitsMarker u r = false ∧ pcOfReq u r = some p ∧ freeSlot u (arbOf u p) (effClass u r) = some own ∧ countBytes r.master (effClass u r) r.len true (bucketTake r.master r.lode r.len u) = v) ∧
    (∃ (n : Nat) (r : ArbReq) (a : Arb) (s : State), pickNext s (arbOf s n) (tier3On s n) = some (r, a)) ∧
    (∃ (p : Nat) (s : State), inReset s ⟨5, p⟩ = false ∧ (fcOf s ⟨5, p⟩).retired = false ∧ (cesNow s (pcOf s p).ces).length < (regionOf s (p / 96)).ceThresh) ∧
    (∃ (p : Nat) (s : State), (pcOf s p).failed = false ∧ (pcOf s p).lastUe = none) ∧
    (∃ (r p line : Nat) (s : State), (patrolled s r).contains p = true ∧ ((patrolled s r).head? = some p → line ≠ 0) ∧ (regionOf s r).patrolNow ≠ 0) ∧
    (∃ (r p : Nat) (s : State), (patrolled s r).head? = some p ∧ r < 4 ∧ (regionOf s r).patrol = 0) ∧
    (∃ (n : Nat) (s : State), ((setOf s n).state = 5 ∨ (setOf s n).state = 6) ∧ (setOf s n).lode ≠ 0x7F ∧ evacOf s n = none) ∧
    (∃ (n : Nat) (o : Op) (s : State), evacOf s n = some o ∧ o.step = 5 ∧ freeElsewhere s o.donor n ≠ []) := by
  refine ⟨⟨wReq, (routed wReq wAsk.start).1, wAsk, (routed wReq wAsk.start).2, _, _, _, (rfl), by decide +kernel, by decide +kernel, by decide +kernel, by decide +kernel, by decide +kernel, by decide +kernel, some_get _ (by decide +kernel), some_get _ (by decide +kernel), (rfl)⟩,
    ⟨0, aAsk, {}, { w0 with noc := { arbs := [(0, { queue := [aAsk] })] } }, by decide +kernel⟩,
    ⟨767, w0, by decide +kernel⟩,
    ⟨767, w0, by decide +kernel⟩,
    ⟨7, 767, 0, wSet 23 2, by decide +kernel⟩,
    ⟨0, 0, { wSet 0 2 with mem := { regions := [(0, { patrol := 0 })] } }, by decide +kernel⟩,
    ⟨23, wSet 23 6, (.inr (by decide +kernel)), by decide +kernel⟩,
    ⟨0, _, { wl with lm := { wl.lm with ops := [{ num := 1, kind := .evacuate, step := 5, donor := 0, sets := [0] }] } }, some_get _ (by decide +kernel), by decide +kernel⟩⟩

def wXl (x : XlLode) : State := { wl with
  lm := { wl.lm with lodes := [(0, { gid := 5, state := 2, epoch := 1, home := true, coord := true, pasid := 1 })] }
  xl := { lodes := [(0, x)] } }

def aInval : Inval := { num := 7, lode := 0, ctx := none, dva := 0, len := 1, dev := 0xFFFF, fence := some ⟨0, 1⟩ }

theorem witness_TranslationVerbs :
    (∃ (via : Via) (gid dev first count l : Nat) (s : State), requested via 0x0200 s ∧ findLive s via gid = .ok l ∧ dev = s.dr.devid ∧ first + count ≤ 8192 ∧ first < 8192 ∧ ctxsOf s l = [] ∧ (s.xl.ctxs.any fun t => t.2.valid && decide (t.2.lode = l)) = false) ∧
    (∃ (via : Via) (gid dev table level first l : Nat) (es : List Nat) (s t : State), requested via 0x0201 s ∧ findLive s via gid = .ok l ∧ dev = s.dr.devid ∧ es ≠ [] ∧ es.length ≤ 64 ∧ level ≤ 2 ∧ first + es.length ≤ 8192 ∧ table % 65536 = 0 ∧ insideTables s l table 65536 = true ∧ es.all (entryOk s l level) = true ∧ storeLode l (table + first * 8) 0 (es.flatMap (le 8)) s.start = .ok t) ∧
    (∃ (via : Via) (gid : Nat) (ctx : Option Nat) (dva len dev l : Nat) (f : VFence) (s : State), requested via 0x0202 s ∧ findLive s via gid = .ok l ∧ (dev = 0xFFFF ∨ dev = s.dr.devid) ∧ (∀ c, ctx = some c → (xlCtxOf s c).valid = true ∧ (xlCtxOf s c).lode = l) ∧ len ≠ 0 ∧ dva + len ≤ 2 ^ 55 ∧ fenceFits s l f = true ∧ s.xl.invals.length < 16 ∧ s.xl.invHeld = []) ∧
    (∃ (num : Nat) (i : Inval) (f : VFence) (s : State), (s.xl.invals.find? fun j => j.num = num) = some i ∧ i.away = [] ∧ usesLeft s i.lode = false ∧ (s.xl.invals.find? fun j => j.lode = i.lode) = some i ∧ i.fence = some f ∧ s.xl.invHeld = []) ∧
    (∃ (via : Via) (gid addr l : Nat) (s : State), requested via 0x0203 s ∧ findLive s via gid = .ok l ∧ (xlLodeOf s l).fqReady = false ∧ (lodeOf s l).pasid ≠ 0 ∧ addr % 4096 = 0) ∧
    (∃ (via : Via) (gid dev bitmap l : Nat) (s : State), requested via 0x0204 s ∧ findLive s via gid = .ok l ∧ dev = s.dr.devid ∧ (xlLodeOf s l).dlOn = false ∧ insideTables s l bitmap (2 ^ 22) = true) ∧
    (∃ (via : Via) (gid dev l : Nat) (s : State), requested via 0x0205 s ∧ findLive s via gid = .ok l ∧ dev = s.dr.devid ∧ (xlLodeOf s l).dlOn = true) ∧
    (∃ (via : Via) (gid dev l : Nat) (s : State), requested via 0x0206 s ∧ findLive s via gid = .ok l ∧ dev = s.dr.devid ∧ (xlLodeOf s l).dlOn = true) := by
  refine ⟨⟨.relay, 5, 0, 8191, 1, _, wl, ⟨rfl, rfl⟩, ok_get _ (by decide +kernel), by decide +kernel⟩,
    ⟨.relay, 5, 0, 0, 2, 8191, _, [0], wXl { tblCnt := 1 }, _, ⟨rfl, rfl⟩, ok_get _ (by decide +kernel), by decide +kernel, by decide +kernel, by decide +kernel, by decide +kernel, by decide +kernel, by decide +kernel, by decide +kernel, by decide +kernel, ok_get _ (by decide +kernel)⟩,
    ⟨.relay, 5, none, 0, 2 ^ 55, 0xFFFF, _, ⟨0, 1⟩, wl, ⟨rfl, rfl⟩, ok_get _ (by decide +kernel), by decide +kernel, (fun c h => by cases h), by decide +kernel⟩,
    ⟨7, aInval, ⟨0, 1⟩, { wl with xl := { invals := [aInval] } }, by decide +kernel⟩,
    ⟨.relay, 5, 4096, _, wXl {}, ⟨rfl, rfl⟩, ok_get _ (by decide +kernel), by decide +kernel⟩,
    ⟨.relay, 5, 0, 0, _, wXl { tblCnt := 1 }, ⟨rfl, rfl⟩, ok_get _ (by decide +kernel), by decide +kernel⟩,
    ⟨.relay, 5, 0, _, wXl { dlOn := true }, ⟨rfl, rfl⟩, ok_get _ (by decide +kernel), by decide +kernel⟩,
    ⟨.relay, 5, 0, _, wXl { dlOn := true }, ⟨rfl, rfl⟩, ok_get _ (by decide +kernel), by decide +kernel⟩⟩

def aFault (written : Bool) : FaultRec := { fseq := 7, agent := .memctl 0, reason := 0, level := 0, access := 0, ctx := 0, pos := 0, va := 0, written := written }

def wFault (full written : Bool) : State := { wXl { fqReady := true, fqProd := if full then 1024 else 1023, faults := [aFault written] } with
  hp := { ports := [(0, { settled := 1 })] } }

theorem witness_TranslationFaultsAnswered :
    (∃ (l : Nat) (f : FaultRec) (s : State), firstHeld (xlLodeOf s l) = some f ∧ (xlLodeOf s l).fqReady = true ∧ fqFull (xlLodeOf s l) = false) ∧
    (∃ (l : Nat) (f : FaultRec) (s : State), firstHeld (xlLodeOf s l) = some f ∧ (xlLodeOf s l).fqReady = true ∧ fqFull (xlLodeOf s l) = false) ∧
    (∃ (l : Nat) (f : FaultRec) (s : State), ((xlLodeOf s l).faults.find? fun f => !f.written && agentStalls s l f) = some f ∧ fqFull (xlLodeOf s l) = true) ∧
    (∃ (p l fseq : Nat) (f : FaultRec) (s : State), pageLive s p l = true ∧ ((xlLodeOf s l).faults.find? fun f => f.written && decide (f.fseq = fseq)) = some f) ∧
    (∃ (p l fseq : Nat) (f : FaultRec) (s : State), pageLive s p l = true ∧ ((xlLodeOf s l).faults.find? fun f => f.written && decide (f.fseq = fseq)) = some f) := by
  refine ⟨⟨0, _, wFault false false, some_get _ (by decide +kernel), by decide +kernel⟩,
    ⟨0, _, wFault false false, some_get _ (by decide +kernel), by decide +kernel⟩,
    ⟨0, _, { wXl { fqReady := true, fqProd := 1024, faults := [{ aFault false with agent := .coreAccess 0 0 }] } with cu := { cores := [(0, { wait := .fault 7 })] } }, some_get _ (by decide +kernel), by decide +kernel⟩,
    ⟨0, 0, 7, _, wFault false true, by decide +kernel, some_get _ (by decide +kernel)⟩,
    ⟨0, 0, 7, _, wFault false true, by decide +kernel, some_get _ (by decide +kernel)⟩⟩

def wReg (m : Nat) (k : Master) : State := { wl with noc := { masters := [(m, k)] } }

theorem witness_DeadlineClockAndRegulation :
    (∃ (s : State), s.noc.regGo = false ∧ (s.noc.regState = 1 → regAgrees s = false)) ∧
    (∃ (s : State), (s.noc.regGo = true ∨ (s.noc.regState = 1 ∧ regAgrees s = true))) ∧
    (∃ (who : Writer) (v : Nat) (s : State), admits who 7 s ∧ v.testBit 0 = true ∧ s.noc.regState ≠ 1 ∧ regAgrees s = true) ∧
    (∃ (who : Writer) (v : Nat) (s : State), admits who 7 s ∧ v.testBit 0 = true ∧ s.noc.regState ≠ 1 ∧ regAgrees s = false) ∧
    (∃ (s : State), s.noc.regState = 1 ∧ regAgrees s = false) ∧
    (∃ (via : Via) (m mn depth : Nat) (s : State), requested via 0x0660 s ∧ m < 161 ∧ mn ≤ 65535 ∧ depth ≠ 0 ∧ depth ≤ 1023 ∧ regAgrees (modMaster m (fun k => { k with min := mn, depth := depth }) s) = true) ∧
    (∃ (via : Via) (k w : Nat) (s : State), requested via 0x0661 s ∧ k < 64 ∧ w ≠ 0 ∧ w ≤ 255) ∧
    (∃ (via : Via) (m gid rate l : Nat) (s : State), requested via 0x0662 s ∧ 96 ≤ m ∧ m < 160 ∧ rate ≤ 65535 ∧ findLive s via gid = .ok l ∧ (tget 0 s.noc.buckets (lodeBucket m l) ≠ 0 ∨ rate = 0 ∨ (bucketsOf s m).length < 8) ∧ lodeRates s m - tget 0 s.noc.buckets (lodeBucket m l) + rate ≤ (masterOf s m).minL) ∧
    (∃ (via : Via) (k : Nat) (s : State), requested via 0x0663 s ∧ k < 64) := by
  refine ⟨⟨w0, by decide +kernel⟩,
    ⟨{ w0 with noc := { regGo := true } }, by decide +kernel⟩,
    ⟨.firmware, 1, wReg 160 { min := 32 }, ⟨by decide +kernel, by intro h; cases h⟩, by decide +kernel⟩,
    ⟨.firmware, 1, w0, ⟨by decide +kernel, by intro h; cases h⟩, by decide +kernel⟩,
    ⟨{ w0 with noc := { regState := 1 } }, by decide +kernel⟩,
    ⟨.relay, 160, 65535, 1023, w0, ⟨rfl, rfl⟩, by decide +kernel⟩,
    ⟨.relay, 63, 255, w0, ⟨rfl, rfl⟩, by decide +kernel⟩,
    ⟨.relay, 159, 5, 65535, _, wReg 159 { minL := 65535 }, ⟨rfl, rfl⟩, by decide +kernel, by decide +kernel, by decide +kernel, ok_get _ (by decide +kernel), by decide +kernel⟩,
    ⟨.relay, 63, w0, ⟨rfl, rfl⟩, by decide +kernel⟩⟩

def wSem (value : Nat) (m : SyncMsg) : State := { w0 with noc := { sems := [(131071, { value := value, inflight := [(1, m)] })] } }

def aRed (core : Nat) : RedPkt := { lode := 0, etag := 1, dblock := 0, dline := 0, rop := 0, efmt := 0, contribs := [(0, core)], data := [0, 0, 0, 0] }

def wPage (bound : Bool) : State := { wl with noc := { barPages := if bound then [(63, { bound := true, lode := 0 })] else [] } }

theorem witness_SyncNetworkApplied :
    (∃ (via : Via) (gid region first count l : Nat) (ps : List Nat) (s : State), requested via 0x0670 s ∧ verbPages region first count = some ps ∧ findLive s via gid = .ok l ∧ (ps.any fun p => (pageOf s p).retired) = false ∧ (ps.any fun p => (pageOf s p).bound || (pageOf s p).scrub) = false) ∧
    (∃ (via : Via) (gid region first count l : Nat) (ps : List Nat) (s : State), requested via 0x0671 s ∧ verbPages region first count = some ps ∧ findLive s via gid = .ok l ∧ (ps.any fun p => !((pageOf s p).bound && decide ((pageOf s p).lode = l))) = false) ∧
    (∃ (via : Via) (gid g n l : Nat) (s : State), requested via 0x0672 s ∧ g < 4096 ∧ n ≤ 65535 ∧ findLive s via gid = .ok l ∧ holdsBar s l g = true) ∧
    (∃ (n k tag : Nat) (rest : List (Nat × SyncMsg)) (s : State), (semOf s n).inflight = (tag, .post k) :: rest) ∧
    (∃ (n b c count rd tag : Nat) (rest : List (Nat × SyncMsg)) (s : State), (semOf s n).inflight = (tag, .wait b c count rd) :: rest ∧ (semOf s n).poisoned = false ∧ (semOf s n).waits = [] ∧ count ≤ (semOf s n).value) ∧
    (∃ (n b c count rd tag : Nat) (rest : List (Nat × SyncMsg)) (s : State), (semOf s n).inflight = (tag, .wait b c count rd) :: rest ∧ (semOf s n).poisoned = false ∧ (semOf s n).value < count ∧ waiters s (n / 16384) < 2048) ∧
    (∃ (n b c count rd tag : Nat) (rest : List (Nat × SyncMsg)) (s : State), (semOf s n).inflight = (tag, .try b c count rd) :: rest ∧ (semOf s n).poisoned = false ∧ (semOf s n).value < count) ∧
    (∃ (g b c tag : Nat) (rest : List (Nat × Nat × Nat)) (s : State), (barOf s g).inflight = (tag, b, c) :: rest ∧ (barOf s g).poisoned = false ∧ (barOf s g).target ≠ 0 ∧ (barOf s g).target ≤ (barOf s g).arrivals + 1) ∧
    (∃ (router : Nat) (p : RedPkt) (s : State), (regionOf s (router / 12)).combEn = true ∧ (regionOf s (router / 12)).noComb.contains router = false ∧ (regionOf s (router / 12)).combHold ≠ 0 ∧ p.alone = false ∧ p.contribs.length < 8 ∧ (tget [] s.noc.comb router).find? (combines p) = none ∧ (tget [] s.noc.comb router).length < 64) ∧
    (∃ (router : Nat) (p e : RedPkt) (s : State), (regionOf s (router / 12)).combEn = true ∧ (regionOf s (router / 12)).noComb.contains router = false ∧ (regionOf s (router / 12)).combHold ≠ 0 ∧ p.alone = false ∧ p.contribs.length < 8 ∧ (tget [] s.noc.comb router).find? (combines p) = some e ∧ (mergeRed e p).contribs.length < 8) ∧
    (∃ (router : Nat) (p : RedPkt) (rest : List RedPkt) (s : State), tget [] s.noc.comb router = p :: rest) ∧
    (∃ (p : RedPkt), p.alone = true) ∧
    (∃ (p : RedPkt) (old : List Byte) (s t : State), (lodeOf s p.lode).state ≠ 0 ∧ tagLive s p.lode p.etag = true ∧ (blockOf s p.dblock).lode = p.lode ∧ ((blockOf s p.dblock).state = 1 ∨ (blockOf s p.dblock).state = 2) ∧ rdPhys s.start (blockBase p.dblock + p.dline * 64) p.data.length = .ok old ∧ wrPhys (blockBase p.dblock + p.dline * 64) (mergeBytes p.rop p.efmt old p.data) (wakeAddr (blockBase p.dblock + p.dline * 64) s.start) = .ok t) := by
  refine ⟨⟨.relay, 5, 0xFF, 63, 1, _, _, wPage false, ⟨rfl, rfl⟩, some_get _ (by decide +kernel), ok_get _ (by decide +kernel), by decide +kernel⟩,
    ⟨.relay, 5, 0xFF, 63, 1, _, _, wPage true, ⟨rfl, rfl⟩, some_get _ (by decide +kernel), ok_get _ (by decide +kernel), by decide +kernel⟩,
    ⟨.relay, 5, 4095, 65535, _, wPage true, ⟨rfl, rfl⟩, by decide +kernel, by decide +kernel, ok_get _ (by decide +kernel), by decide +kernel⟩,
    ⟨131071, 5, 1, [], wSem 0 (.post 5), by decide +kernel⟩,
    ⟨131071, 0, 0, 1, 1, 1, [], wSem 1 (.wait 0 0 1 1), by decide +kernel⟩,
    ⟨131071, 0, 0, 2, 1, 1, [], wSem 1 (.wait 0 0 2 1), by decide +kernel⟩,
    ⟨131071, 0, 0, 2, 1, 1, [], wSem 1 (.try 0 0 2 1), by decide +kernel⟩,
    ⟨4095, 0, 0, 1, [], { w0 with noc := { bars := [(4095, { target := 1, inflight := [(1, 0, 0)] })] } }, by decide +kernel⟩,
    ⟨95, aRed 0, w0, by decide +kernel⟩,
    ⟨95, aRed 0, aRed 1, { w0 with noc := { comb := [(95, [aRed 1])] } }, by decide +kernel⟩,
    ⟨95, aRed 0, [], { w0 with noc := { comb := [(95, [aRed 0])] } }, by decide +kernel⟩,
    ⟨{ aRed 0 with alone := true }, by decide +kernel⟩,
    ⟨aRed 0, _, wl, _, by decide +kernel, by decide +kernel, by decide +kernel, (.inl (by decide +kernel)), ok_get _ (by decide +kernel), ok_get _ (by decide +kernel)⟩⟩

def wPort (t : Port) : State := { w0 with dr := { assigned := true, ports := [(31, t)] } }

def aPkt : Packet := { typ := 1, vc := 0, ddev := 5, sdev := 0, slode := 0, etag := 0, hops := 1 }

theorem witness_DriftPortsTrainAndReplay :
    (∃ (p locked : Nat) (s : State), (portOf s p).enable = true ∧ imagePort s p = true ∧ locked % 16 &&& trainable (portOf s p) ≠ trainable (portOf s p) ∧ (portOf s p).state = 0) ∧
    (∃ (p locked : Nat) (s : State), (portOf s p).enable = true ∧ imagePort s p = true ∧ locked % 16 &&& trainable (portOf s p) = trainable (portOf s p) ∧ (portOf s p).state = 0) ∧
    (∃ (p ok : Nat) (s : State), training s p = true ∧ ((portOf s p).step = 1 ∨ (portOf s p).step = 2) ∧ (portOf s p).usable &&& (ok % 16) ≠ 0) ∧
    (∃ (p : Nat) (s : State), training s p = true ∧ (portOf s p).step = 1) ∧
    (∃ (p lo hi lanes : Nat) (s : State), training s p = true ∧ lo ≤ 1 ∧ 1 ≤ hi ∧ 2 ≤ (lanesOf ((portOf s p).usable &&& (lanes % 16))).length) ∧
    (∃ (p lo hi : Nat) (s : State), training s p = true ∧ (1 < lo ∨ hi < 1)) ∧
    (∃ (p seq : Nat) (s : State), portUp s p = true ∧ seq = (portOf s p).rxSeq) ∧
    (∃ (p seq : Nat) (good : Bool) (s : State), portUp s p = true ∧ (good = false ∨ seq ≠ (portOf s p).rxSeq) ∧ (portOf s p).asked = false) ∧
    (∃ (p seq : Nat) (s : State), portUp s p = true ∧ ((portOf s p).replayBuf.filter fun q => decide (seq ≤ q.1)) ≠ [] ∧ (portOf s p).replays < 7 ∧ ((portOf s p).replayBuf.filter fun q => decide (seq ≤ q.1)).length = (portOf s p).replayBuf.length) ∧
    (∃ (p n : Nat) (k : Packet) (rest : List (Nat × Packet)) (s : State), portUp s p = true ∧ (portOf s p).replayBuf = (n, k) :: rest ∧ (portOf s p).replays < 7) ∧
    (∃ (p : Nat) (s : State), portUp s p = true) ∧
    (∃ (p lane : Nat) (s : State), (portOf s p).retired.testBit lane = false ∧ portUp s p = false) := by
  refine ⟨⟨31, 14, wPort { enable := true }, by decide +kernel⟩,
    ⟨31, 15, wPort { enable := true }, by decide +kernel⟩,
    ⟨31, 8, wPort { state := 1, step := 2, usable := 15 }, by decide +kernel⟩,
    ⟨31, wPort { state := 4, step := 1 }, by decide +kernel⟩,
    ⟨31, 1, 1, 3, wPort { state := 1, usable := 3 }, by decide +kernel⟩,
    ⟨31, 2, 2, wPort { state := 1, usable := 3 }, by decide +kernel⟩,
    ⟨31, 65535, wPort { state := 3, rxSeq := 65535 }, by decide +kernel⟩,
    ⟨31, 1, true, wPort { state := 2 }, by decide +kernel⟩,
    ⟨31, 5, wPort { state := 2, replayBuf := [(5, aPkt)], replays := 6 }, by decide +kernel⟩,
    ⟨31, 5, aPkt, [], wPort { state := 2, replayBuf := [(5, aPkt)], replays := 6 }, by decide +kernel⟩,
    ⟨31, wPort { state := 2 }, by decide +kernel⟩,
    ⟨31, 3, wPort {}, by decide +kernel⟩⟩

def wRoute (t : Port) : State := { w0 with dr := { assigned := true, routes := [(5, 0x80)], ports := [(0, t)] } }

def wWin (w : RWin) : State := { wl with dr := { assigned := true, rwt := [(0, w)] } }

def aWin : RWin := { valid := true, r := true, w := true, a := true, lode := 0, allowLode := 7 }

def aPut (typ : Nat) : Packet := { typ := typ, vc := 0, ddev := 0, sdev := 1, slode := 7, etag := 0, len := 256, data := List.replicate 256 0 }

def aRedPkt (rtag : Nat) : Packet := { typ := 6, vc := 0, ddev := 5, sdev := 1, slode := 7, etag := 0, rtag := rtag, len := 4, data := [0, 0, 0, 0] }

def wOut : State := { w0 with dr := { out := [⟨7, 0, aPut 2, 0, false⟩] }, cu := { dma := [(0, [{ aCopy with kind := 5, waitIds := [7] }])] } }

theorem witness_DriftPacketsForwarded :
    (∃ (q : Nat) (k : Packet) (s : State), asleep s = false ∧ s.dr.assigned = true ∧ k.ddev ≠ s.dr.devid ∧ k.hops ≠ 0 ∧ routeOf s k = some q ∧ canLeave s q { k with hops := k.hops - 1 } = true) ∧
    (∃ (q : Nat) (k : Packet) (s : State), asleep s = false ∧ s.dr.assigned = true ∧ k.ddev ≠ s.dr.devid ∧ k.hops ≠ 0 ∧ k.dlrem = 0 ∧ routeOf s k = some q ∧ canLeave s q { k with hops := k.hops - 1 } = false) ∧
    (∃ (p : Nat) (w : Option Nat × Packet) (s : State), ((portOf s p).waiting.find? fun w => decide (w.2.vc < 2)) = some w) ∧
    (∃ (p vc : Nat) (s : State), 2 ≤ vc ∧ (s.lm.ops.filter fun o => decide (o.kind = .creditMove) && decide (o.step = 2) && decide (o.port = p)) = []) ∧
    (∃ (p vc : Nat) (s : State), vc < 2 ∧ (s.lm.ops.filter fun o => decide (o.kind = .creditMove) && decide (o.step = 2) && decide (o.port = p)) = []) ∧
    (∃ (p : Nat) (k : Packet) (s : State), asleep s = false ∧ (k.typ = 1 ∨ k.typ = 2 ∨ k.typ = 6 ∨ k.typ = 7) ∧ sealedWaits s (128 + p) (rwinOf s k.winid).lode (packetCost k) = true) ∧
    (∃ (p : Nat) (k : Packet) (s u : State), asleep s = false ∧ (k.typ = 1 ∨ k.typ = 2 ∨ k.typ = 6 ∨ k.typ = 7) ∧ windowEnters p k s ∧ windowEntered p k s.start = u ∧ winCheck u k ≠ 0) ∧
    (∃ (p : Nat) (k : Packet) (s u t : State), asleep s = false ∧ k.typ = 1 ∧ windowEnters p k s ∧ windowEntered p k s.start = u ∧ winCheck u k = 0 ∧ storeLode (rwinOf s k.winid).lode ((rwinOf s k.winid).laddr + k.offset) k.cls k.data u = .ok t) ∧
    (∃ (p : Nat) (k : Packet) (d : List Byte) (s u : State), asleep s = false ∧ k.typ = 2 ∧ windowEnters p k s ∧ windowEntered p k s.start = u ∧ winCheck u k = 0 ∧ rdLode u (rwinOf s k.winid).lode ((rwinOf s k.winid).laddr + k.offset) k.len = .ok d) ∧
    (∃ (k : Packet) (w : WinReq) (d : Dma) (s : State), asleep s = false ∧ k.typ = 4 ∧ (s.dr.out.find? fun w => decide (w.rtag = k.rtag)) = some w ∧ ((dmaOf s w.unit).find? fun d => d.waitIds.contains k.rtag) = some d) ∧
    (∃ (rtag : Nat) (w : WinReq) (d : Dma) (s : State), (s.dr.out.find? fun w => decide (w.rtag = rtag)) = some w ∧ ((dmaOf s w.unit).find? fun d => d.waitIds.contains rtag) = some d) ∧
    (∃ (k : Packet) (s : State), asleep s = false ∧ k.typ = 6 ∧ s.dr.combEn = true ∧ s.dr.noComb = false ∧ s.dr.combHold ≠ 0 ∧ (contribsOf k).length < 8 ∧ s.dr.store.find? (merges k) = none ∧ s.dr.store.length < 1024) ∧
    (∃ (k e : Packet) (s : State), asleep s = false ∧ k.typ = 6 ∧ s.dr.combEn = true ∧ s.dr.noComb = false ∧ s.dr.combHold ≠ 0 ∧ (contribsOf k).length < 8 ∧ s.dr.store.find? (merges k) = some e ∧ (mergePkt e k).contribs.length < 8) ∧
    (∃ (k : Packet) (rest : List Packet) (s : State), s.dr.store = k :: rest) := by
  refine ⟨⟨_, aPkt, wRoute { state := 2 }, by decide +kernel, by decide +kernel, by decide +kernel, by decide +kernel, some_get _ (by decide +kernel), by decide +kernel⟩,
    ⟨_, aPkt, wRoute { state := 2, poolUse := 8192 }, by decide +kernel, by decide +kernel, by decide +kernel, by decide +kernel, by decide +kernel, some_get _ (by decide +kernel), by decide +kernel⟩,
    ⟨0, _, wRoute { state := 2, waiting := [(none, aPkt)] }, some_get _ (by decide +kernel)⟩,
    ⟨31, 2, w0, by decide +kernel⟩,
    ⟨31, 1, w0, by decide +kernel⟩,
    ⟨31, aPut 1, { wWin aWin with lm := { wl.lm with lodes := [(0, { gid := 5, state := 2, sealed := true })] }, noc := { masters := [(159, { depthL := 1 })] } }, by decide +kernel, (.inl rfl), by decide +kernel⟩,
    ⟨31, aPut 7, w0, _, by decide +kernel, (.inr (.inr (.inr rfl))), (⟨by decide +kernel, by decide +kernel⟩), (rfl), by decide +kernel⟩,
    ⟨31, { aPut 1 with len := 64, data := List.replicate 64 0 }, wWin aWin, _, _, by decide +kernel, by decide +kernel, (⟨by decide +kernel, by decide +kernel⟩), (rfl), by decide +kernel, ok_get _ (by decide +kernel)⟩,
    ⟨31, aPut 2, _, wWin aWin, _, by decide +kernel, by decide +kernel, (⟨by decide +kernel, by decide +kernel⟩), (rfl), by decide +kernel, ok_get _ (by decide +kernel)⟩,
    ⟨{ aPut 4 with rtag := 7 }, _, _, wOut, by decide +kernel, by decide +kernel, some_get _ (by decide +kernel), some_get _ (by decide +kernel)⟩,
    ⟨7, _, _, wOut, some_get _ (by decide +kernel), some_get _ (by decide +kernel)⟩,
    ⟨aRedPkt 1, w0, by decide +kernel⟩,
    ⟨aRedPkt 1, _, { w0 with dr := { store := [aRedPkt 2] } }, by decide +kernel, by decide +kernel, by decide +kernel, by decide +kernel, by decide +kernel, by decide +kernel, some_get _ (by decide +kernel), by decide +kernel⟩,
    ⟨aRedPkt 1, [], { w0 with dr := { store := [aRedPkt 1] } }, by decide +kernel⟩⟩

def wVerbWin (w : RWin) : State := { wl with xl := { ctxs := [(4095, { valid := true, lode := 0 })] }, dr := { assigned := true, rwt := [(0xEFF, w)] } }

theorem witness_DriftVerbsAndWindows :
    (∃ (via : Via) (p : Nat) (en : Bool) (s : State), requested via 0x0400 s ∧ p < 32 ∧ (en = true → imagePort s p = true)) ∧
    (∃ (via : Via) (p : Nat) (en : Bool) (s : State), requested via 0x0400 s ∧ (32 ≤ p ∨ (en = true ∧ imagePort s p = false))) ∧
    (∃ (via : Via) (p : Nat) (s : State), requested via 0x0401 s ∧ p < 32) ∧
    (∃ (via : Via) (first : Nat) (es : List Nat) (s : State), requested via 0x0402 s ∧ es ≠ [] ∧ es.length ≤ 256 ∧ first + es.length ≤ 16384) ∧
    (∃ (via : Via) (tmo esc hold : Nat) (s : State), requested via 0x0406 s ∧ tmo ≠ 0 ∧ tmo ≤ 65535 ∧ esc ≠ 0 ∧ esc ≤ 65535 ∧ hold ≤ 255) ∧
    (∃ (who : Writer) (p : Nat) (s : State), admits who 8 s ∧ p < 32 ∧ (portOf s p).enable = true ∧ imagePort s p = true) ∧
    (∃ (who : Writer) (p : Nat) (s : State), admits who 8 s ∧ p < 32 ∧ imagePort s p = true) ∧
    (∃ (who : Writer) (p : Nat) (s : State), admits who 8 s ∧ p < 32) ∧
    (∃ (who : Writer) (p : Nat) (s : State), admits who 8 s ∧ p < 32) ∧
    (∃ (via : Via) (dev win gid ctx kind laddr len semBase al l : Nat) (s : State), requested via 0x0403 s ∧ findLive s via gid = .ok l ∧ dev = s.dr.devid ∧ win < 0xF00 ∧ kind = 0 ∧ laddr % 256 = 0 ∧ laddr + (len + 1) * 256 ≤ 2 ^ 41 ∧ len < 2 ^ 32 ∧ semBase < 2 ^ 17 ∧ inTables s l laddr ((len + 1) * 256) = false ∧ al < 2 ^ 32 ∧ (xlCtxOf s ctx).valid = true ∧ (xlCtxOf s ctx).lode = l ∧ (rwinOf s win).valid = false) ∧
    (∃ (via : Via) (win : Nat) (f : VFence) (s : State), requested via 0x0404 s ∧ winSeen s via s.dr.devid win = true ∧ win < 4096 ∧ (rwinOf s win).valid = true ∧ (rwinOf s win).closing = false ∧ (lodeOf s (rwinOf s win).lode).home = true ∧ fenceFits s (rwinOf s win).lode f = true) ∧
    (∃ (via : Via) (win : Nat) (s : State), requested via 0x0405 s ∧ winSeen s via s.dr.devid win = true ∧ win < 4096) ∧
    (∃ (win : Nat) (f : VFence) (s : State), (rwinOf s win).closing = true ∧ (rwinOf s win).fence = some f ∧ (lodeOf s (rwinOf s win).lode).home = true) := by
  refine ⟨⟨.relay, 31, true, w0, ⟨rfl, rfl⟩, by decide +kernel⟩,
    ⟨.relay, 32, false, w0, ⟨rfl, rfl⟩, by decide +kernel⟩,
    ⟨.relay, 31, w0, ⟨rfl, rfl⟩, by decide +kernel⟩,
    ⟨.relay, 16383, [0x80], w0, ⟨rfl, rfl⟩, by decide +kernel⟩,
    ⟨.relay, 65535, 65535, 255, w0, ⟨rfl, rfl⟩, by decide +kernel⟩,
    ⟨.firmware, 31, wPort { enable := true }, ⟨by decide +kernel, by intro h; cases h⟩, by decide +kernel⟩,
    ⟨.firmware, 31, w0, ⟨by decide +kernel, by intro h; cases h⟩, by decide +kernel⟩,
    ⟨.firmware, 31, w0, ⟨by decide +kernel, by intro h; cases h⟩, by decide +kernel⟩,
    ⟨.firmware, 31, w0, ⟨by decide +kernel, by intro h; cases h⟩, by decide +kernel⟩,
    ⟨.relay, 0, 0xEFF, 5, 4095, 0, 2 ^ 40, 2 ^ 32 - 1, 131071, 2 ^ 32 - 1, _, wVerbWin {}, ⟨rfl, rfl⟩, ok_get _ (by decide +kernel), by decide +kernel⟩,
    ⟨.relay, 0xEFF, ⟨0, 1⟩, wVerbWin { valid := true, lode := 0 }, ⟨rfl, rfl⟩, by decide +kernel⟩,
    ⟨.relay, 4095, wVerbWin {}, ⟨rfl, rfl⟩, by decide +kernel⟩,
    ⟨0xEFF, ⟨0, 1⟩, wVerbWin { valid := true, closing := true, lode := 0, fence := some ⟨0, 1⟩ }, by decide +kernel⟩⟩

def wUt (u : Ut) : State := { wl with dr := { assigned := true }, ut := u }

def aMsg (subject : Nat) (body : List Nat) : UtMsg := { msg := 1, fromDev := 1, txn := 9, subject := subject, epoch := 1, reqseq := 7, body := body }

def aTxn (phase : Nat) : Txn := { num := 9, lode := 0, epoch := 2, devs := [1], change := [1], phase := phase }

theorem witness_UtwelasMessagesTaken :
    (∃ (s : State), s.dr.assigned = true) ∧
    (∃ (m : UtMsg) (s : State), m.body.getD 0 0 ≠ s.ut.pool) ∧
    (∃ (m : UtMsg) (s : State), m.body.getD 0 0 = s.ut.pool ∧ later m.epoch s.ut.poolEpoch = true) ∧
    (∃ (m : UtMsg) (l : Nat) (s : State), asleep s = false ∧ m.body.headD 0 ≠ 11 ∧ m.body.headD 0 ≠ 10 ∧ m.body.headD 0 ≠ 13 ∧ findGid s m.subject = some l ∧ (lodeOf s l).frozen = false) ∧
    (∃ (m : UtMsg) (l n : Nat) (tl : List Nat) (a : Nat × Nat × Change) (s : State), asleep s = false ∧ m.body = 13 :: s.dr.devid :: n :: tl ∧ findGid s m.subject = some l ∧ (lodeOf s l).frozen = false ∧ (s.ut.asked.find? fun a => decide (a.1 = n) && decide (a.2.1 = l)) = some a) ∧
    (∃ (m : UtMsg) (p : Prep) (s : State), asleep s = false ∧ prepOf s m = some p ∧ ownExtend s p = none ∧ p.change.headD 0 ≠ 10) ∧
    (∃ (p : Prep) (s : State), (memberCommit p s).ut.poolCoord = false) ∧
    (∃ (m : UtMsg) (p : Prep) (mask : Nat) (sets : List Nat) (s : State), asleep s = false ∧ prepOf s m = some p ∧ ownExtend s p = some (mask, sets) ∧ (s.lm.scrubs.any fun x => x.what = .extend p.coord p.txn) = false) ∧
    (∃ (m : UtMsg) (p : Prep) (s : State), asleep s = false ∧ prepOf s m = some p) ∧
    (∃ (m : UtMsg) (t : Txn) (s : State), asleep s = false ∧ (s.ut.txns.find? fun t => decide (t.phase = 3) && decide ((lodeOf s t.lode).gid = m.subject)) = none ∧ (s.ut.txns.find? fun t => decide (t.num = m.txn) && decide (t.phase = 2)) = some t ∧ t.devs.contains m.fromDev = true ∧ t.ready.contains m.fromDev = false ∧ t.change.headD 0 ≠ 10 ∧ m.status = 0) ∧
    (∃ (t : Txn) (s : State), (s.ut.txns.find? fun x => x.num = t.num) = some t ∧ t.phase = 2 ∧ t.twin = none ∧ t.devs.all (t.ready.contains ·) = true) ∧
    (∃ (t : Txn) (s : State), (s.ut.txns.find? fun x => x.num = t.num) = some t ∧ t.devs.all (t.ready.contains ·) = false) ∧
    (∃ (m : UtMsg) (t : Txn) (s : State), asleep s = false ∧ (s.ut.txns.find? fun t => decide (t.phase = 3) && decide ((lodeOf s t.lode).gid = m.subject)) = none ∧ (s.ut.txns.find? fun t => decide (t.num = m.txn) && decide (t.phase = 2)) = some t ∧ t.devs.contains m.fromDev = true ∧ t.ready.contains m.fromDev = false ∧ m.status ≠ 0) ∧
    (∃ (num : Nat) (t : Txn) (s : State), (s.ut.txns.find? fun t => decide (t.num = num) && decide (t.phase = 2)) = some t) ∧
    (∃ (m : UtMsg) (t : Txn) (s : State), asleep s = false ∧ m.body.headD 0 ≠ 1 ∧ (s.ut.txns.find? fun t => decide (t.phase = 3) && decide ((lodeOf s t.lode).gid = m.subject)) = none ∧ (s.ut.txns.find? fun t => decide (t.num = m.txn) && decide (t.phase = 4) && t.devs.contains m.fromDev) = some t) ∧
    (∃ (m : UtMsg) (l : Nat) (s : State), asleep s = false ∧ findGid s m.subject = some l ∧ (s.ut.preps.find? fun p => decide (p.lode = l)) = none) ∧
    (∃ (dev : Nat) (s : State), (peerOf s dev).lost = false ∧ dev ≠ s.dr.devid) ∧
    (∃ (m : UtMsg) (l : Nat) (s : State), asleep s = false ∧ findGid s m.subject = some l ∧ lowest (membersOf s l) = s.dr.devid ∧ (lodeOf s l).frozen = false ∧ (lodeOf s l).state = 2) ∧
    (∃ (m : UtMsg) (n l : Nat) (r : URec) (s : State), asleep s = false ∧ (s.ut.records.find? fun t => decide (t.2.reqseq = m.reqseq) && decide (t.2.receiver = m.subject)) = some (n, r) ∧ r.state = 1 ∧ findGid s r.donor = some l) ∧
    (∃ (m : UtMsg) (s : State), asleep s = false ∧ (s.ut.adopts.any fun a => decide (a.2.2 = m.reqseq)) = true ∧ s.ut.txns = []) ∧
    (∃ (m : UtMsg) (s : State), asleep s = false ∧ m.fromDev ≠ s.dr.devid ∧ (peerOf s m.fromDev).known = false) ∧
    (∃ (m : UtMsg) (s : State), asleep s = false ∧ m.fromDev = s.dr.devid ∧ s.dr.assigned = true ∧ m.body.headD 0 ≠ s.chip.serialNo) ∧
    (∃ (m : UtMsg) (ms : List Nat) (s : State), asleep s = false ∧ m.subject = s.ut.pool ∧ m.body = 1 :: ms ∧ later m.epoch s.ut.poolEpoch = true) ∧
    (∃ (s : State), s.ut.poolCoord = true) ∧
    (∃ (s : State), asleep s = false) ∧
    (∃ (status : Nat) (s : State), asleep s = false ∧ status ≠ Err.utDevid) := by
  refine ⟨⟨wUt {}, by decide +kernel⟩,
    ⟨aMsg 0 [1], wUt {}, by decide +kernel⟩,
    ⟨aMsg 0 [0], wUt {}, by decide +kernel⟩,
    ⟨aMsg 5 [1], _, wUt {}, by decide +kernel, by decide +kernel, by decide +kernel, by decide +kernel, some_get _ (by decide +kernel), by decide +kernel⟩,
    ⟨aMsg 5 [13, 0, 3], 0, 3, [], _, wUt { asked := [(3, 0, .credit 0)] }, by decide +kernel, by decide +kernel, by decide +kernel, by decide +kernel, some_get _ (by decide +kernel)⟩,
    ⟨aMsg 5 [1], _, wUt { preps := [⟨1, 9, 0, 2, [1]⟩] }, by decide +kernel, some_get _ (by decide +kernel), by decide +kernel⟩,
    ⟨⟨1, 9, 0, 2, [1]⟩, wUt { preps := [⟨1, 9, 0, 2, [1]⟩] }, by decide +kernel⟩,
    ⟨aMsg 5 [1], _, _, _, wUt { preps := [⟨1, 9, 0, 2, [10, 0, 0, 0, 0, 0, 0, 0, 0, 0, 0]⟩] }, by decide +kernel, some_get _ (by decide +kernel), (some_pair _ (by decide +kernel)), by decide +kernel⟩,
    ⟨aMsg 5 [1], _, wUt { preps := [⟨1, 9, 0, 2, [1]⟩] }, by decide +kernel, some_get _ (by decide +kernel)⟩,
    ⟨aMsg 5 [1], _, wUt { txns := [aTxn 2] }, by decide +kernel, by decide +kernel, some_get _ (by decide +kernel), by decide +kernel⟩,
    ⟨{ aTxn 2 with ready := [1] }, wUt { txns := [{ aTxn 2 with ready := [1] }] }, by decide +kernel⟩,
    ⟨aTxn 2, wUt { txns := [aTxn 2] }, by decide +kernel⟩,
    ⟨{ aMsg 5 [1] with status := 1 }, _, wUt { txns := [aTxn 2] }, by decide +kernel, by decide +kernel, some_get _ (by decide +kernel), by decide +kernel⟩,
    ⟨9, _, wUt { txns := [aTxn 2] }, some_get _ (by decide +kernel)⟩,
    ⟨aMsg 5 [2], _, wUt { txns := [aTxn 4] }, by decide +kernel, by decide +kernel, by decide +kernel, some_get _ (by decide +kernel)⟩,
    ⟨aMsg 5 [1], _, wUt {}, by decide +kernel, some_get _ (by decide +kernel), by decide +kernel⟩,
    ⟨1, wUt {}, by decide +kernel⟩,
    ⟨aMsg 5 [1], _, wUt {}, by decide +kernel, some_get _ (by decide +kernel), by decide +kernel⟩,
    ⟨aMsg 6 [1], 0, _, { state := 1, reqseq := 7, receiver := 6, donor := 5 }, wUt { records := [(0, { state := 1, reqseq := 7, receiver := 6, donor := 5 })] }, by decide +kernel, by decide +kernel, by decide +kernel, some_get _ (by decide +kernel)⟩,
    ⟨aMsg 6 [1], wUt { adopts := [(0, 0, 7)] }, by decide +kernel⟩,
    ⟨aMsg 0 [1], wUt {}, by decide +kernel⟩,
    ⟨{ aMsg 0 [1] with fromDev := 0 }, wUt {}, by decide +kernel⟩,
    ⟨aMsg 0 [1, 0], [0], wUt {}, by decide +kernel⟩,
    ⟨wUt { poolCoord := true }, by decide +kernel⟩,
    ⟨wUt {}, by decide +kernel⟩,
    ⟨0, wUt {}, by decide +kernel⟩⟩

theorem tget_used (t : List (Nat × URec)) (h : ∀ p ∈ t, p.2.state ≠ 0) (k : Nat) (hk : k ∈ t.map (·.1)) : (tget {} t k).state ≠ 0 := by
  induction t with
  | nil => simp at hk
  | cons p t ih =>
    simp only [tget]
    split
    · exact h p (by simp)
    · exact ih (fun q hq => h q (by simp [hq])) (by simp at hk ⊢; rcases hk with hk | hk <;> simp_all)

def fullRecords : List (Nat × URec) := (List.range 4096).map fun n => (n, { state := 1 })

theorem fullRecords_full (s : State) (h : s.ut.records = fullRecords) :
    ((List.range 4096).find? fun n => decide ((urecOf s n).state = 0)) = none := by
  rw [List.find?_eq_none]
  intro n hn
  simp only [urecOf, h, decide_eq_true_eq]
  exact tget_used _ (by simp [fullRecords]) n (by simp [fullRecords]; simpa using hn)

def wMembers (f : Lode → Lode) : State := modLode 0 f (wUt {})

theorem witness_UtwelasVerbsCarriedOut :
    (∃ (dev : Nat) (s : State), requested .sideband 0x0500 s ∧ dev ≤ 16383) ∧
    (∃ (via : Via) (s : State), requested via 0x0500 s ∧ via ≠ .sideband) ∧
    (∃ (dev : Nat) (s : State), requested .sideband 0x0500 s ∧ 16383 < dev) ∧
    (∃ (via : Via) (dev a b : Nat) (s : State), requested via 0x0501 s ∧ dev ≤ 16383 ∧ a ≤ 65535 ∧ b ≤ 65535 ∧ a ≠ b ∧ s.ut.poolCoord = true ∧ (s.ut.pool = a ∨ s.ut.pool = b)) ∧
    (∃ (via : Via) (gid dev l : Nat) (credits : List Nat) (s : State), requested via 0x0502 s ∧ findLive s via gid = .ok l ∧ lowest (membersOf s l) = s.dr.devid ∧ dev ≤ 16383 ∧ dev ≠ s.dr.devid ∧ credits.length ≤ 32 ∧ s.dr.assigned = true ∧ (lodeOf s l).gid / 65536 ≠ 0xFFFF ∧ (membersOf s l).contains dev = false ∧ (membersOf s l).length < 16384) ∧
    (∃ (via : Via) (gid l : Nat) (s : State), requested via 0x0502 s ∧ findLive s via gid = .ok l ∧ lowest (membersOf s l) ≠ s.dr.devid) ∧
    (∃ (via : Via) (gid dev l : Nat) (s : State), requested via 0x0503 s ∧ findLive s via gid = .ok l ∧ lowest (membersOf s l) = s.dr.devid ∧ (membersOf s l).contains dev = true ∧ 2 ≤ (membersOf s l).length ∧ dev ≠ (lodeOf s l).homeDev) ∧
    (∃ (via : Via) (gid l : Nat) (s : State), requested via 0x0503 s ∧ findLive s via gid = .ok l ∧ lowest (membersOf s l) ≠ s.dr.devid) ∧
    (∃ (via : Via) (donor recv l n : Nat) (f : VFence) (s : State), requested via 0x0504 s ∧ findLive s via donor = .ok l ∧ recv ≠ 0 ∧ fenceFits s l f = true ∧ ((List.range 4096).find? fun n => decide ((urecOf s n).state = 0)) = some n) ∧
    (∃ (via : Via) (donor recv l : Nat) (f : VFence) (s : State), requested via 0x0504 s ∧ findLive s via donor = .ok l ∧ recv ≠ 0 ∧ fenceFits s l f = true ∧ ((List.range 4096).find? fun n => decide ((urecOf s n).state = 0)) = none) ∧
    (∃ (via : Via) (dev kind : Nat) (s : State), requested via 0x0505 s ∧ dev ≤ 16383 ∧ (kind = 1 ∨ kind = 2)) ∧
    (∃ (via : Via) (gid l : Nat) (s : State), requested via 0x0506 s ∧ findRun s via gid = some l ∧ (lodeOf s l).frozen = true) ∧
    (∃ (via : Via) (n l : Nat) (s : State), requested via 0x0507 s ∧ findRun s via n = some l) ∧
    (∃ (via : Via) (s : State), requested via 0x0507 s ∧ s.ut.poolMembers ≠ []) := by
  refine ⟨⟨16383, { w0 with hp := { side := some (0x0500, 0, []) } }, ⟨rfl, rfl⟩, by decide +kernel⟩,
    ⟨.relay, w0, ⟨rfl, rfl⟩, by decide +kernel⟩,
    ⟨16384, { w0 with hp := { side := some (0x0500, 0, []) } }, ⟨rfl, rfl⟩, by decide +kernel⟩,
    ⟨.relay, 16383, 65535, 0, wUt { pool := 65535, poolCoord := true }, ⟨rfl, rfl⟩, by decide +kernel⟩,
    ⟨.relay, 5, 16383, _, List.replicate 32 0, wUt {}, ⟨rfl, rfl⟩, ok_get _ (by decide +kernel), by decide +kernel⟩,
    ⟨.relay, 5, _, wMembers fun d => { d with members := [1] }, ⟨rfl, rfl⟩, ok_get _ (by decide +kernel), by decide +kernel⟩,
    ⟨.relay, 5, 1, _, wMembers fun d => { d with members := [0, 1] }, ⟨rfl, rfl⟩, ok_get _ (by decide +kernel), by decide +kernel⟩,
    ⟨.relay, 5, _, wMembers fun d => { d with members := [1] }, ⟨rfl, rfl⟩, ok_get _ (by decide +kernel), by decide +kernel⟩,
    ⟨.relay, 5, 6, _, _, ⟨0, 1⟩, wUt {}, ⟨rfl, rfl⟩, ok_get _ (by decide +kernel), by decide +kernel, by decide +kernel, some_get _ (by decide +kernel)⟩,
    ⟨.relay, 5, 6, _, ⟨0, 1⟩, wUt { records := fullRecords }, ⟨rfl, rfl⟩, ok_get _ (by decide +kernel), by decide +kernel, by decide +kernel, (fullRecords_full _ (by simp only [wUt]))⟩,
    ⟨.relay, 16383, 2, wUt {}, ⟨rfl, rfl⟩, by decide +kernel⟩,
    ⟨.relay, 5, _, wMembers fun d => { d with frozen := true }, ⟨rfl, rfl⟩, some_get _ (by decide +kernel), by decide +kernel⟩,
    ⟨.relay, 5, _, wUt {}, ⟨rfl, rfl⟩, some_get _ (by decide +kernel)⟩,
    ⟨.relay, wUt { poolMembers := [0] }, ⟨rfl, rfl⟩, by decide +kernel⟩⟩

def wHost (h : HPort) : State := { wXl {} with hp := { ports := [(0, h)] } }

def wAper : State := { wWalk .none 0x1B with lm := { wl.lm with chan := [(0, { valid := true }), (2, { valid := true })] }, mem := { bytes := [(0, 0x1B)], regions := [(0, { cache := [⟨0, 0, 0, false, 0, false⟩, ⟨0, 1, 520093711, false, 0, false⟩] })] }, hp := { ports := [(0, { wins := [(0, { opened := true, off := 0, size := 65536, ctx := 0xFFF, dva := 536870912 })] })] } }

def wRead (next : HostReadFor) : State := { wl with q := [(0, { state := 1 })], hp := { reads := [(7, some (64, next))] } }

def wCtx (c : Nat) (x : Ctx) : State := { wXl {} with sch := { ctxs := [(c, x)] } }

def wConf (code : Nat) : State := { w0 with
  lm := { lodes := [(0, { gid := 5, state := 2, home := true, pasid := 1, conf := true, transport := some 16, session := some 17 })] }
  sec := { slots := [(16, { valid := true }), (17, { valid := true, parent := 16 })] }
  hp := { ports := [(0, { slots := [(7, { state := 1, verb := code })] })] } }

theorem walkAs_none {s : State} {w v c : Nat} (h : tget [] s.xl.walkers w = []) : walkAs s w v c = walk s c := by
  funext va
  simp [walkAs, walkStart, cachedStart, cachedTab, h, walk]

theorem extents_walk {s u : State} {w v c va n a : Nat} (h : tget [] s.xl.walkers w = []) :
    extents u (walkAs s w v c) va n a = extents u (walk s c) va n a := by
  rw [walkAs_none h]

theorem noteWalks_one {s : State} {w cls v c va n a x : Nat} (h : tget [] s.xl.walkers w = [])
    (k : (extentsGo s (walk s c) a (n / 65536 + 2) va n [] []).1.reverse = [x]) :
    noteWalks w cls v c va n a s = noteWalk w cls 0 c x s := by
  have e : walkStart s w v c x = walkStart s w 0 c x := by
    have : walkFrom s c x (cachedStart s w c x).1 (cachedStart s w c x).2 = walk s c x := by
      rw [show cachedStart s w c x = rootOf s c by simp only [cachedStart, cachedTab, h, List.find?_nil, Option.map_none]]; rfl
    simp only [walkStart, this, ne_eq, not_true_eq_false, and_false, if_false]
  rw [noteWalks, walkAs_none h, k]
  simp only [each, List.foldl_cons, List.foldl_nil, noteWalk, e]
theorem witness_HostPortCommandsCarriedOut :
    (∃ (p : Nat) (s : State), asleep s = false ∧ bootDone s = true ∧ ((slicesOf s p).any fun l => !(ctxsOf s l).isEmpty) = false) ∧
    (∃ (p : Nat) (s : State), asleep s = false ∧ (bootDone s = false ∨ ((slicesOf s p).any fun l => !(ctxsOf s l).isEmpty) = true)) ∧
    (∃ (p off : Nat) (w : Aper) (xs : List (Nat × Nat)) (bs : List Byte) (s u t : State), asleep s = false ∧ bootDone s = true ∧ aperOf s p off bs.length = some w ∧ payReq 160 (xlCtxOf s w.ctx).lode 0 bs.length (noteWalks 96 0 (draw s.start).1 w.ctx (w.dva + (off - w.off)) bs.length 1 (draw s.start).2) = u ∧ extents u (walkAs s.start 96 (draw s.start).1 w.ctx) (w.dva + (off - w.off)) bs.length 1 = .ok xs ∧ wrExtents (xlCtxOf s w.ctx).lode 0 xs bs u = .ok t) ∧
    (∃ (p off n : Nat) (w : Aper) (xs : List (Nat × Nat)) (bs : List Byte) (s u : State), asleep s = false ∧ bootDone s = true ∧ aperOf s p off n = some w ∧ payReq 160 (xlCtxOf s w.ctx).lode 0 n (noteWalks 96 0 (draw s.start).1 w.ctx (w.dva + (off - w.off)) n 0 (draw s.start).2) = u ∧ extents u (walkAs s.start 96 (draw s.start).1 w.ctx) (w.dva + (off - w.off)) n 0 = .ok xs ∧ rdExtents u (xlCtxOf s w.ctx).lode xs = .ok bs) ∧
    (∃ (p off n : Nat) (s : State), asleep s = false ∧ aperOf s p off n = none) ∧
    (∃ (p n v : Nat) (s : State), asleep s = false ∧ v % 2 = 1 ∧ n < 8 ∧ (slotOf s p n).state ≠ 1 ∧ requestErr s false p (slotOf s p n).verb (slotOf s p n).len = 0) ∧
    (∃ (code len : Nat) (s : State), asleep s = false ∧ s.hp.side = none ∧ requestErr s true 0 code len = 0) ∧
    (∃ (via : Via) (s : State), requested via 0x0010 s) ∧
    (∃ (via : Via) (gid port pasid l : Nat) (s : State), requested via 0x0011 s ∧ findLive s via gid = .ok l ∧ pasid ≠ 0 ∧ pasid < 2 ^ 20 ∧ port < (hostPorts s).length ∧ (lodeOf s l).home = true ∧ (lodeOf s l).pasid = 0 ∧ pasidUsed s port pasid = false) ∧
    (∃ (via : Via) (gid l : Nat) (s : State), requested via 0x0012 s ∧ findLive s via gid = .ok l ∧ ctxsOf s l = []) ∧
    (∃ (via : Via) (gid l : Nat) (s : State), requested via 0x0012 s ∧ findLive s via gid = .ok l ∧ ctxsOf s l ≠ []) ∧
    (∃ (via : Via) (port off size ctx dva l n : Nat) (s : State), requested via 0x0013 s ∧ ctxLode s via ctx = .ok l ∧ (lodeOf s l).conf = false ∧ (ctxOf s ctx).state ≠ 3 ∧ (lodeOf s l).port = aperPort via port ∧ (lodeOf s l).pasid ≠ 0 ∧ aperBad s (aperPort via port) off size = false ∧ dva + size ≤ 2 ^ 55 ∧ ((List.range 256).find? fun n => !(tget {} (hportOf s (aperPort via port)).wins n).opened) = some n) ∧
    (∃ (via : Via) (port n : Nat) (s : State), requested via 0x0014 s ∧ (tget {} (hportOf s (aperPort via port)).wins n).opened = true) ∧
    (∃ (via : Via) (gid l k : Nat) (wrapped : List Byte) (s : State), requested via 0x0015 s ∧ confLode s via gid = .ok l ∧ ctxsOf s l = [] ∧ transportSeed s l = some k ∧ wrapped.length = 1608 ∧ (lodeOf s l).session ≠ none) ∧
    (∃ (via : Via) (gid kind a l : Nat) (s : State), requested via 0x0016 s ∧ confLode s via gid = .ok l ∧ kind ≤ 3 ∧ a % 4096 = 0 ∧ tget none (queueOf s l).tagRings kind = none) ∧
    (∃ (id len l : Nat) (s : State), tget none s.hp.reads id = some (len, .sqEntry l) ∧ (queueOf s l).state = 1) ∧
    (∃ (id len l : Nat) (s : State), tget none s.hp.reads id = some (len, .sqEntry l)) ∧
    (∃ (id len l pos : Nat) (s : State), tget none s.hp.reads id = some (len, .reduceSrc l pos)) ∧
    (∃ (p k : Nat) (s : State), (hostPorts s).contains p = true ∧ k < 14) ∧
    (∃ (p l : Nat) (s : State), pageLive s p l = true) := by
  refine ⟨⟨0, w0, by decide +kernel⟩,
    ⟨0, {}, by decide +kernel⟩,
    ⟨0, 65532, { opened := true, off := 0, size := 65536, ctx := 0xFFF, dva := 536870912 }, _, [1, 2, 3, 4], wAper, (payReq 160 0 0 4 (noteWalk 96 0 0 0xFFF 536936444 (draw wAper.start).2)), _, by decide +kernel, by decide +kernel, by decide +kernel, (congrArg (payReq 160 0 0 4) (noteWalks_one (by decide +kernel) (by decide +kernel))), (ok_via (extents_walk (by decide +kernel)) (by decide +kernel)), ok_get _ (by decide +kernel)⟩,
    ⟨0, 65532, 4, { opened := true, off := 0, size := 65536, ctx := 0xFFF, dva := 536870912 }, _, _, wAper, (payReq 160 0 0 4 (noteWalk 96 0 0 0xFFF 536936444 (draw wAper.start).2)), by decide +kernel, by decide +kernel, by decide +kernel, (congrArg (payReq 160 0 0 4) (noteWalks_one (by decide +kernel) (by decide +kernel))), (ok_via (extents_walk (by decide +kernel)) (by decide +kernel)), ok_get _ (by decide +kernel)⟩,
    ⟨0, 65533, 4, wAper, by decide +kernel⟩,
    ⟨0, 7, 3, wHost { slots := [(7, { verb := 0x10 })] }, by decide +kernel⟩,
    ⟨0x10, 0, w0, by decide +kernel⟩,
    ⟨.relay, w0, ⟨rfl, rfl⟩⟩,
    ⟨.relay, 5, 0, 2 ^ 20 - 1, _, wl, ⟨rfl, rfl⟩, ok_get _ (by decide +kernel), by decide +kernel⟩,
    ⟨.relay, 5, _, wl, ⟨rfl, rfl⟩, ok_get _ (by decide +kernel), by decide +kernel⟩,
    ⟨.relay, 5, _, wCtx 3 { state := 1 }, ⟨rfl, rfl⟩, ok_get _ (by decide +kernel), by decide +kernel⟩,
    ⟨.relay, 0, 0, 2 ^ 28, 3, 2 ^ 55 - 2 ^ 28, _, _, wCtx 3 { state := 1 }, ⟨rfl, rfl⟩, ok_get _ (by decide +kernel), by decide +kernel, by decide +kernel, by decide +kernel, by decide +kernel, by decide +kernel, by decide +kernel, some_get _ (by decide +kernel)⟩,
    ⟨.relay, 0, 255, wHost { wins := [(255, { opened := true })] }, ⟨rfl, rfl⟩, by decide +kernel⟩,
    ⟨.mailbox 0 7, 5, _, _, List.replicate 1608 0, wConf 0x15, ⟨rfl, rfl⟩, ok_get _ (by decide +kernel), by decide +kernel, some_get _ (by decide +kernel), by decide +kernel⟩,
    ⟨.mailbox 0 7, 5, 3, 4096, _, wConf 0x16, ⟨rfl, rfl⟩, ok_get _ (by decide +kernel), by decide +kernel⟩,
    ⟨7, _, _, wRead (.sqEntry 0), ((by exact rfl)), by decide +kernel⟩,
    ⟨7, _, _, wRead (.sqEntry 0), ((by exact rfl))⟩,
    ⟨7, _, _, _, wRead (.reduceSrc 0 5), ((by exact rfl))⟩,
    ⟨0, 13, w0, by decide +kernel⟩,
    ⟨0, 0, wHost { settled := 1 }, by decide +kernel⟩⟩

def wQueue (q : Queue) : State := { wHost { settled := 1 } with
  q := [(0, q)], xl := { ctxs := [(0, { valid := true, lode := 0 })] }
  sch := { ctxs := [(0, { state := 2, lode := 0, mask := 1 })], lodes := [(0, { running := 0, phase := 1 })] } }

def wRec (r : Rec) : State := wQueue { state := 1, recs := [r] }

def redBits : Nat := 5 + 64 * 2 ^ 640

def redRec : Rec := { pos := 0, bits := redBits, stage := 1, res := [(0, 64, [(0, 64)]), (64, 64, [(64, 64)])] }

def redRun : Rec := { redRec with stage := 2, ran := true, moved := 0 }

def mmRec : Rec := { pos := 0, bits := 6, stage := 1, res := [(0, 64, [(0, 64)]), (64, 64, [(64, 64)]), (128, 64, [(128, 64)]), (192, 64, [(192, 64)])] }

def wBulk : State := { wQueue {} with q := [(0, { state := 1, sqTail := 1 }),
  (1, { recs := [{ pos := 0, bits := 0, res := List.replicate 512 (0, 0, List.replicate 513 (0, 0)) }] })] }
theorem witness_RecordsTakenAndDispatched :
    (∃ (p l pos : Nat) (s : State), asleep s = false ∧ pageLive s p l = true ∧ (queueOf s l).state = 1 ∧ (queueOf s l).sqTail ≤ pos ∧ pos ≤ (queueOf s l).sqHead + 2 ^ (queueOf s l).sqLog) ∧
    (∃ (p l pos : Nat) (s : State), asleep s = false ∧ pageLive s p l = true ∧ (queueOf s l).state = 1 ∧ (pos < (queueOf s l).sqTail ∨ (queueOf s l).sqHead + 2 ^ (queueOf s l).sqLog < pos)) ∧
    (∃ (l bits : Nat) (s u t : State), mayTake s l bits = true ∧ (lodeOf s l).conf = false ∧ modQueue l (fun q => { q with sqHead := q.sqHead + rEntries bits, recs := q.recs ++ [{ pos := (queueOf s l).sqHead, bits := bits }] }) s.start = u ∧ recCheck u l bits = 0 ∧ translateRec l (queueOf s l).sqHead (modXl (fun x => { x with storeWait := none }) u) = t ∧ descSlots t ≤ 262144) ∧
    (∃ (l bits : Nat) (s u t : State), mayTake s l bits = true ∧ (lodeOf s l).conf = false ∧ modQueue l (fun q => { q with sqHead := q.sqHead + rEntries bits, recs := q.recs ++ [{ pos := (queueOf s l).sqHead, bits := bits }] }) s.start = u ∧ recCheck u l bits = 0 ∧ translateRec l (queueOf s l).sqHead (modXl (fun x => { x with storeWait := none }) u) = t ∧ 262144 < descSlots t) ∧
    (∃ (l bits : Nat) (s u : State), mayTake s l bits = true ∧ (lodeOf s l).conf = false ∧ modQueue l (fun q => { q with sqHead := q.sqHead + rEntries bits, recs := q.recs ++ [{ pos := (queueOf s l).sqHead, bits := bits }] }) s.start = u ∧ recCheck u l bits ≠ 0) ∧
    (∃ (l bits : Nat) (s : State), mayTake s l bits = true ∧ (lodeOf s l).conf = true ∧ sessionKey s l ≠ none) ∧
    (∃ (l pos : Nat) (r : Rec) (s : State), recOf s l pos = some r ∧ r.stage = 0) ∧
    (∃ (l pos : Nat) (r : Rec) (s : State), dispatchable s l pos 1 = some r ∧ r.stale = false ∧ rDevid r.bits = s.dr.devid ∧ emptySlot s l (rSlots r.bits) = false ∧ launchParts s l (rSlots r.bits) ≠ [] ∧ (launchParts s l (rSlots r.bits)).any (fun b => (blockOf s b).drain) = false ∧ rConstLen r.bits ≤ 256) ∧
    (∃ (l pos : Nat) (r : Rec) (s : State), dispatchable s l pos 1 = some r ∧ r.stale = false ∧ rDevid r.bits ≠ s.dr.devid ∧ r.remote = none) ∧
    (∃ (l pos n : Nat) (r : Rec) (s : State), dispatchable s l pos 2 = some r ∧ r.stale = false ∧ opUnit s l r.pos = some n ∧ rShost r.bits = false ∧ rDhost r.bits = false) ∧
    (∃ (l pos n : Nat) (r : Rec) (s : State), dispatchable s l pos 4 = some r ∧ r.stale = false ∧ opUnit s l r.pos = some n ∧ rDhost r.bits = false) ∧
    (∃ (l pos n : Nat) (r : Rec) (s : State), dispatchable s l pos 3 = some r ∧ r.stale = false ∧ opUnit s l r.pos = some n ∧ rShost r.bits = false ∧ rDhost r.bits = false ∧ (convOf (rConv r.bits)).ss = false ∧ (convOf (rConv r.bits)).ds = 0) ∧
    (∃ (l pos : Nat) (r : Rec) (src : List Byte) (s s1 t : State), dispatchable s l pos 5 = some r ∧ r.stale = false ∧ rShost r.bits = false ∧ rDhost r.bits = false ∧ rLen r.bits ≠ 0 ∧ rLen r.bits ≤ 4096 ∧ modRec l pos (fun x => { x with stage := 2, ran := true }) s.start = s1 ∧ recOf s1 l pos = some { r with stage := 2, ran := true, moved := 0 } ∧ rdSpace s1 l (resSpace r 0) 0 (rLen r.bits) = .ok src ∧ reduceInto l { r with stage := 2, ran := true, moved := 0 } (rLen r.bits) src s1 = .ok t ∧ recOf t l pos = some { r with stage := 2, ran := true, moved := 0 } ∧ r.pos = pos) ∧
    (∃ (l pos : Nat) (r r' : Rec) (s t : State), dispatchable s l pos 6 = some r ∧ r.stale = false ∧ rM r.bits ≤ 128 ∧ rN r.bits ≤ 128 ∧ hasEngine s l = true ∧ mmTile l r 0 0 (chargeHbm (rCtx r.bits) ((r.res.map fun x => x.2.1).sum) (modRec l pos (fun x => { x with stage := 2, ran := true }) s.start)) = .ok t ∧ recOf (modRec l pos (fun x => { x with wrote := true }) t) l pos = some r' ∧ r'.failed = []) ∧
    (∃ (l pos : Nat) (r : Rec) (s : State), dispatchable s l pos 7 = some r ∧ r.stale = false ∧ (rArg0 r.bits).testBit 16 = false) ∧
    (∃ (r : Rec), r.stale = true) ∧
    (∃ (l pos : Nat) (r : Rec) (s : State), recOf s l pos = some r ∧ r.stage = 3 ∧ r.cancel = 0 ∧ r.ran = false ∧ (lodeOf s l).home = true ∧ workDone s l pos = true) := by
  refine ⟨⟨0, 0, 64, wQueue { state := 1, sqLog := 6 }, by decide +kernel⟩,
    ⟨0, 0, 65, wQueue { state := 1, sqLog := 6 }, by decide +kernel⟩,
    ⟨0, 7, wQueue { state := 1, sqTail := 1 }, _, _, by decide +kernel, by decide +kernel, (rfl), by decide +kernel, (rfl), by decide +kernel⟩,
    ⟨0, 7, wBulk, _, _, by decide +kernel, by decide +kernel, (rfl), by decide +kernel, (rfl), by decide +kernel⟩,
    ⟨0, 0, wQueue { state := 1, sqTail := 1 }, _, by decide +kernel, by decide +kernel, (rfl), by decide +kernel⟩,
    ⟨0, 7, { wConf 0x15 with q := [(0, { state := 1, sqTail := 1 })] }, by decide +kernel⟩,
    ⟨0, 0, _, wRec { pos := 0, bits := 7 }, some_get _ (by decide +kernel), by decide +kernel⟩,
    ⟨0, 0, _, wRec { pos := 0, bits := 1, stage := 1 }, some_get _ (by decide +kernel), by decide +kernel⟩,
    ⟨0, 0, _, wRec { pos := 0, bits := 1 + 2 ^ 704, stage := 1 }, some_get _ (by decide +kernel), by decide +kernel⟩,
    ⟨0, 0, _, _, wRec { pos := 0, bits := 2, stage := 1 }, some_get _ (by decide +kernel), by decide +kernel, some_get _ (by decide +kernel), by decide +kernel⟩,
    ⟨0, 0, _, _, wRec { pos := 0, bits := 4, stage := 1 }, some_get _ (by decide +kernel), by decide +kernel, some_get _ (by decide +kernel), by decide +kernel⟩,
    ⟨0, 0, _, _, wRec { pos := 0, bits := 3, stage := 1 }, some_get _ (by decide +kernel), by decide +kernel, some_get _ (by decide +kernel), by decide +kernel⟩,
    ⟨0, 0, redRec, _, wRec redRec, _, _, by decide +kernel, by decide +kernel, by decide +kernel, by decide +kernel, by decide +kernel, by decide +kernel, (rfl), by decide +kernel, ok_get _ (by decide +kernel), ok_get _ (by decide +kernel), by decide +kernel⟩,
    ⟨0, 0, mmRec, _, wRec mmRec, _, by decide +kernel, by decide +kernel, by decide +kernel, by decide +kernel, by decide +kernel, ok_get _ (by decide +kernel), some_get _ (by decide +kernel), by decide +kernel⟩,
    ⟨0, 0, _, wRec { pos := 0, bits := 7, stage := 1 }, some_get _ (by decide +kernel), by decide +kernel⟩,
    ⟨{ pos := 0, bits := 7, stale := true }, by decide +kernel⟩,
    ⟨0, 0, _, wRec { pos := 0, bits := 7, stage := 3 }, some_get _ (by decide +kernel), by decide +kernel⟩⟩

theorem witness_QueuesAndContextsTornDown :
    (∃ (via : Via) (gid sq cq eq a b c l : Nat) (s : State), requested via 0x0100 s ∧ findLive s via gid = .ok l ∧ (lodeOf s l).home = true ∧ (queueOf s l).state = 0 ∧ (lodeOf s l).pasid ≠ 0 ∧ sq % 4096 = 0 ∧ cq % 4096 = 0 ∧ eq % 4096 = 0 ∧ 6 ≤ a ∧ a ≤ 16 ∧ 6 ≤ b ∧ b ≤ 16 ∧ 4 ≤ c ∧ c ≤ 12) ∧
    (∃ (via : Via) (gid l : Nat) (s : State), requested via 0x0100 s ∧ findLive s via gid = .ok l ∧ (lodeOf s l).home = true ∧ ((queueOf s l).state ≠ 0 ∨ (lodeOf s l).pasid = 0)) ∧
    (∃ (via : Via) (gid l : Nat) (f : VFence) (s : State), requested via 0x0101 s ∧ findLive s via gid = .ok l ∧ ((queueOf s l).state = 1 ∨ (queueOf s l).state = 2) ∧ fenceFits s l f = true) ∧
    (∃ (l : Nat) (s : State), (queueOf s l).state = 3 ∧ ((ctxsOf s l).any fun c => (ctxOf s c).draining) = false ∧ (queueOf s l).recs = []) ∧
    (∃ (via : Via) (gid pos l : Nat) (s : State), requested via 0x0102 s ∧ findLive s via gid = .ok l ∧ (queueOf s l).state = 2 ∧ (queueOf s l).sqHead ≤ pos ∧ pos ≤ (queueOf s l).sqTail) ∧
    (∃ (via : Via) (gid pos l bits : Nat) (s : State), requested via 0x0104 s ∧ findVia s via gid = some l ∧ ((queueOf s l).mirror.find? fun m => decide (m.1 = pos)) = some (pos, bits)) ∧
    (∃ (via : Via) (c l : Nat) (f : VFence) (s : State), requested via 0x0103 s ∧ ctxLode s via c = .ok l ∧ (lodeOf s l).home = true ∧ fenceFits s l f = true) ∧
    (∃ (c : Nat) (s : State), (ctxOf s c).state = 3 ∧ (ctxOf s c).draining = true ∧ ((queueOf s (ctxOf s c).lode).recs.filter fun r => decide (rCtx r.bits = c)) = []) ∧
    (∃ (id : Nat) (x : Scrub) (s : State), (s.lm.scrubs.find? fun x => decide (x.id = id)) = some x) := by
  refine ⟨⟨.relay, 5, 4096, 0, 0, 16, 6, 12, _, wXl {}, ⟨rfl, rfl⟩, ok_get _ (by decide +kernel), by decide +kernel⟩,
    ⟨.relay, 5, _, wl, ⟨rfl, rfl⟩, ok_get _ (by decide +kernel), by decide +kernel⟩,
    ⟨.relay, 5, _, ⟨0, 1⟩, wQueue { state := 2 }, ⟨rfl, rfl⟩, ok_get _ (by decide +kernel), by decide +kernel⟩,
    ⟨0, wQueue { state := 3 }, by decide +kernel⟩,
    ⟨.relay, 5, 7, _, wQueue { state := 2, sqHead := 5, sqTail := 7 }, ⟨rfl, rfl⟩, ok_get _ (by decide +kernel), by decide +kernel⟩,
    ⟨.relay, 5, 7, 0, 9, wQueue { mirror := [(7, 9)] }, ⟨rfl, rfl⟩, by decide +kernel⟩,
    ⟨.relay, 0, _, ⟨0, 1⟩, wQueue {}, ⟨rfl, rfl⟩, ok_get _ (by decide +kernel), by decide +kernel⟩,
    ⟨3, wCtx 3 { state := 3, draining := true }, by decide +kernel⟩,
    ⟨7, _, { w0 with lm := { scrubs := [⟨7, 60000, .op 1⟩] } }, some_get _ (by decide +kernel)⟩⟩

def wSched (d : Sched) (recs : List Rec) (idle : Bool) : State := { wXl {} with
  q := [(0, { state := 1, recs := recs })]
  sch := { ctxs := [(3, { state := 2, lode := 0, weight := 1, vtime := 0, idle := false }), (4, { state := 1, lode := 0, weight := 1, vtime := 0, idle := idle })], lodes := [(0, d)] } }

def wTable (d : Sched) : State := { wSched d [] true with
  lm := { wl.lm with lodes := [(0, { gid := 5, state := 2, epoch := 1, home := true, coord := true, pasid := 1, cyclic := 0 })] }
  img := { applied := { cyclic := [(0, [{ share := false, res := 1, len := 1 }, { share := true, len := 1 }])] } } }

def ctxRec (c : Nat) : Rec := { pos := c, bits := 7 + c * 65536, stage := 1 }

theorem witness_ContextsScheduled :
    (∃ (via : Via) (gid root w d m r l c : Nat) (s : State), requested via 0x0600 s ∧ findLive s via gid = .ok l ∧ (lodeOf s l).home = true ∧ attrBad s l 4096 w d m r = false ∧ root < 2 ^ 25 ∧ (ctxsOf s l).length < 256 ∧ freeCtxNo s = some c ∧ savesShort s l 1 0 = false) ∧
    (∃ (via : Via) (gid root w d m r l : Nat) (s : State), requested via 0x0600 s ∧ findLive s via gid = .ok l ∧ (lodeOf s l).home = true ∧ attrBad s l 4096 w d m r = false ∧ root < 2 ^ 25 ∧ 256 ≤ (ctxsOf s l).length) ∧
    (∃ (via : Via) (c dev root l : Nat) (s : State), requested via 0x0601 s ∧ ctxLode s via c = .ok l ∧ (ctxOf s c).state ≠ 3 ∧ (lodeOf s l).home = true ∧ dev ≠ s.dr.devid ∧ (lodeOf s l).members.contains dev = true ∧ root < 2 ^ 25) ∧
    (∃ (via : Via) (c w d m r l : Nat) (s : State), requested via 0x0602 s ∧ ctxLode s via c = .ok l ∧ (ctxOf s c).state ≠ 3 ∧ (lodeOf s l).home = true ∧ attrBad s l c w d m r = false) ∧
    (∃ (via : Via) (gid n l : Nat) (more : List (Nat × Nat)) (s : State), requested via 0x0603 s ∧ findLive s via gid = .ok l ∧ s.lm.scrubs = [] ∧ (tget [] s.lm.save l).length ≤ n ∧ ((setsOf s l).flatMap fun k => (freeSlots s l k).map fun i => (k, i)).take (n - (tget [] s.lm.save l).length) = more ∧ more.length = n - (tget [] s.lm.save l).length) ∧
    (∃ (via : Via) (gid q i l : Nat) (s : State), requested via 0x0604 s ∧ findLive s via gid = .ok l ∧ 10 ≤ q ∧ q ≤ 1000 ∧ i ≠ 0 ∧ i ≤ 255) ∧
    (∃ (via : Via) (c l : Nat) (s : State), requested via 0x0605 s ∧ ctxLode s via c = .ok l) ∧
    (∃ (l c : Nat) (s : State), decides s l = true ∧ (schedOf s l).phase = 1 ∧ slotRes s l = none ∧ lodeHeld s l = false ∧ choose (chargeV (schedOf s l).running ((schedOf s l).quantum * 100000) s.start) l = some c ∧ c ≠ (schedOf s l).running) ∧
    (∃ (l : Nat) (s : State), decides s l = true ∧ (schedOf s l).phase = 1 ∧ slotRes s l = none ∧ lodeHeld s l = false ∧ choose (chargeV (schedOf s l).running ((schedOf s l).quantum * 100000) s.start) l = some (schedOf s l).running) ∧
    (∃ (l c : Nat) (s : State), decides s l = true ∧ (schedOf s l).phase = 1 ∧ runnable s (schedOf s l).running = false ∧ choose (modCtx (schedOf s l).running (fun x => { x with idle := true }) s.start) l = some c) ∧
    (∃ (l : Nat) (s : State), decides s l = true ∧ hasTable s l = true ∧ nextRes s l ≠ slotRes s l ∧ (schedOf s l).phase = 1) ∧
    (∃ (l id : Nat) (slots : List CycSlot) (s : State), (s.img.applied.cyclic.find? fun t => decide (t.1 = (lodeOf s l).cyclic)) = some (id, slots) ∧ decides s l = true ∧ (schedOf s l).phase = 2) ∧
    (∃ (l : Nat) (s : State), (schedOf s l).phase = 2 ∧ (ctxOf s (schedOf s l).running).state ≠ 3 ∧ stopped s l (schedOf s l).running = true) ∧
    (∃ (l c : Nat) (s : State), (schedOf s l).phase = 3 ∧ loadWaits s l = false ∧ (schedOf s l).incoming = some c ∧ (ctxOf s c).state = 1 ∧ (ctxOf s c).rdma = []) ∧
    (∃ (l : Nat) (s : State), (schedOf s l).phase = 2 ∧ (schedOf s l).running ≠ 0xFFF ∧ lodeHeld s l = false) ∧
    (∃ (via : Via) (gid dl l : Nat) (s : State), requested via 0x0606 s ∧ findLive s via gid = .ok l ∧ (lodeOf s l).home = true ∧ dl ≤ 10000 ∧ (schedOf s l).quiesce = none ∧ (schedOf s l).phase ≠ 4 ∧ (schedOf s l).moving = false) ∧
    (∃ (l dl : Nat) (via : Via) (s : State), (schedOf s l).quiesce = some (via, dl) ∧ (schedOf s l).phase ≠ 0) ∧
    (∃ (via : Via) (gid port l : Nat) (s : State), requested via 0x0607 s ∧ findLive s via gid = .ok l ∧ (lodeOf s l).home = true ∧ port < 2 ∧ port < (hostPorts s).length ∧ (schedOf s l).phase = 4) ∧
    (∃ (via : Via) (gid l : Nat) (s : State), requested via 0x0608 s ∧ findLive s via gid = .ok l ∧ (lodeOf s l).home = true ∧ (schedOf s l).phase = 4 ∧ (schedOf s l).moving = false ∧ (queueOf s l).recs = [] ∧ twf {} s.sch.lodes = true) := by
  refine ⟨⟨.relay, 5, 2 ^ 25 - 1, 65535, 63, 2 ^ 63, 255, _, _, { wl with lm := { wl.lm with save := [(0, [(0, 255)])] } }, ⟨rfl, rfl⟩, ok_get _ (by decide +kernel), by decide +kernel, by decide +kernel, by decide +kernel, by decide +kernel, some_get _ (by decide +kernel), by decide +kernel⟩,
    ⟨.relay, 5, 0, 1, 0, 1, 255, _, { wl with sch := { ctxs := (List.range 256).map fun n => (n, { state := 1, lode := 0 }) } }, ⟨rfl, rfl⟩, ok_get _ (by decide +kernel), by decide +kernel⟩,
    ⟨.relay, 3, 1, 2 ^ 25 - 1, _, { wCtx 3 { state := 1 } with lm := { wl.lm with lodes := [(0, { gid := 5, state := 2, home := true, members := [0, 1] })] } }, ⟨rfl, rfl⟩, ok_get _ (by decide +kernel), by decide +kernel⟩,
    ⟨.relay, 3, 65535, 63, 2 ^ 63, 255, _, wCtx 3 { state := 1 }, ⟨rfl, rfl⟩, ok_get _ (by decide +kernel), by decide +kernel⟩,
    ⟨.relay, 5, 1, _, _, wl, ⟨rfl, rfl⟩, ok_get _ (by decide +kernel), by decide +kernel, by decide +kernel, (rfl), by decide +kernel⟩,
    ⟨.relay, 5, 1000, 255, _, wl, ⟨rfl, rfl⟩, ok_get _ (by decide +kernel), by decide +kernel⟩,
    ⟨.relay, 3, _, wCtx 3 { state := 1 }, ⟨rfl, rfl⟩, ok_get _ (by decide +kernel)⟩,
    ⟨0, _, wSched { running := 3, phase := 1 } [ctxRec 3, ctxRec 4] false, by decide +kernel, by decide +kernel, by decide +kernel, by decide +kernel, some_get _ (by decide +kernel), by decide +kernel⟩,
    ⟨0, wSched { running := 3, phase := 1 } [ctxRec 3] true, by decide +kernel⟩,
    ⟨0, _, wSched { running := 3, phase := 1 } [ctxRec 4] true, by decide +kernel, by decide +kernel, by decide +kernel, some_get _ (by decide +kernel)⟩,
    ⟨0, wTable { running := 3, phase := 1, slot := 0 }, by decide +kernel⟩,
    ⟨0, _, _, wTable { running := 3, phase := 2, slot := 1 }, (some_get _ (by decide +kernel)), by decide +kernel⟩,
    ⟨0, wSched { running := 3, phase := 2 } [] true, by decide +kernel⟩,
    ⟨0, 4, wSched { running := 3, phase := 3, incoming := some 4 } [] true, by decide +kernel⟩,
    ⟨0, wSched { running := 3, phase := 2 } [] true, by decide +kernel⟩,
    ⟨.relay, 5, 10000, _, wl, ⟨rfl, rfl⟩, ok_get _ (by decide +kernel), by decide +kernel⟩,
    ⟨0, 5, .relay, wSched { running := 3, phase := 1, quiesce := some (.relay, 5) } [] true, by decide +kernel⟩,
    ⟨.relay, 5, 0, _, wSched { running := 3, phase := 4 } [] true, ⟨rfl, rfl⟩, ok_get _ (by decide +kernel), by decide +kernel⟩,
    ⟨.relay, 5, _, wSched { running := 3, phase := 4 } [] true, ⟨rfl, rfl⟩, ok_get _ (by decide +kernel), by decide +kernel⟩⟩

def wBoot (c : Chip) : State := { chip := c }

theorem witness_PowerComesAndChipStarts :
    (∃ (s : State), s.chip.phase < 2) ∧
    (∃ (s : State), 2 ≤ s.chip.phase) ∧
    (∃ (s : State), 2 ≤ s.chip.phase) ∧
    (∃ (a b : Bool) (s : State), s.chip.phase < 2 ∧ (a = true ∨ b = true)) ∧
    (∃ (s : State), s.chip.phase < 2) ∧
    (∃ (s : State), 2 ≤ s.chip.phase) ∧
    (∃ (r : Option Nat) (s t : State), stillAt 1 s = true ∧ s.chip.main = true ∧ s.chip.aux = true ∧ s.pwr.shutdown = 0 ∧ bootBundle (bootFirst s.start) = (r, t) ∧ stillAt 2 t = true) ∧
    (∃ (k : Nat) (s : State), stillAt 5 s = true ∧ s.chip.training.contains k = true ∧ tget 0 s.chip.stackTry k = 0) ∧
    (∃ (k i : Nat) (s : State), stillAt 5 s = true ∧ s.chip.training.contains k = true ∧ tget 0 s.chip.stackTry k = 0 ∧ i < 32 ∧ (pcOf s (32 * k + i)).retired = false) ∧
    (∃ (k i : Nat) (s : State), stillAt 5 s = true ∧ s.chip.training.contains k = true ∧ tget 0 s.chip.stackTry k ≠ 0 ∧ i < 32 ∧ (pcOf s (32 * k + i)).retired = false ∧ (tget [] s.chip.hbmTodo k).contains i = true) ∧
    (∃ (s : State), s.chip.phase = 2) ∧
    (∃ (b : Nat) (s : State), s.chip.phase = 2 ∧ 3 ≤ s.chip.stage ∧ s.chip.stage ≤ 5 ∧ (blockOf s b).state ≠ 6) ∧
    (∃ (s : State), s.chip.phase ≠ 0 ∧ s.chip.xtalFall = false) := by
  refine ⟨⟨wBoot { phase := 1 }, by decide +kernel⟩,
    ⟨w0, by decide +kernel⟩,
    ⟨w0, by decide +kernel⟩,
    ⟨true, false, wBoot { phase := 0 }, by decide +kernel⟩,
    ⟨wBoot { phase := 1 }, by decide +kernel⟩,
    ⟨w0, by decide +kernel⟩,
    ⟨none, {}, _, by decide +kernel, by decide +kernel, by decide +kernel, by decide +kernel, (pair_get _ _ (by decide +kernel)), by decide +kernel⟩,
    ⟨23, wBoot { stage := 5, training := [23] }, by decide +kernel⟩,
    ⟨23, 31, wBoot { stage := 5, training := [23] }, by decide +kernel⟩,
    ⟨23, 31, wBoot { stage := 5, training := [23], stackTry := [(23, 1)], hbmTodo := [(23, [31])] }, by decide +kernel⟩,
    ⟨{}, by decide +kernel⟩,
    ⟨95, wBoot { stage := 5 }, by decide +kernel⟩,
    ⟨w0, by decide +kernel⟩⟩

def wPwr (p : Pwr) : State := { w0 with pwr := p }

theorem witness_ChipSleepsAndWakes :
    (∃ (b : Nat) (s : State), (pblkOf s b).domain = 0 ∧ (blockOf s b).launch = none ∧ (blockOf s b).resetting = false ∧ dmaOf s b = [] ∧ (blockOf s b).lode ≠ 0x7F) ∧
    (∃ (b : Nat) (s : State), (pblkOf s b).domain = 0 ∧ (blockOf s b).launch = none ∧ (blockOf s b).resetting = false ∧ dmaOf s b = [] ∧ (blockOf s b).lode = 0x7F ∧ (blockOf s b).state = 0) ∧
    (∃ (n : Nat) (s : State), tget 0 s.pwr.bridges n = 0) ∧
    (∃ (b c : Nat) (s : State), ((coreOf s b c).run ≠ 1 ∨ (coreOf s b c).wait ≠ .none)) ∧
    (∃ (n : Nat) (s : State), asleep s = false ∧ n < 96 ∧ (pblkOf s n).domain ≠ 0 ∧ (blockOf s n).state ≠ 6) ∧
    (∃ (n : Nat) (s : State), asleep s = false ∧ n < 8) ∧
    (∃ (b c : Nat) (s : State), asleep s = false ∧ b < 96 ∧ c < 32) ∧
    (∃ (s : State), asleep s = false) ∧
    (∃ (b e : Nat) (s : State), asleep s = false ∧ b < 96 ∧ e < 4) ∧
    (∃ (via : Via) (st : Nat) (s : State), requested via 0x0800 s ∧ (st = 1 ∨ st = 2)) ∧
    (∃ (via : Via) (s : State), requested via 0x0800 s) ∧
    (∃ (s : State), s.pwr.autoDoze ≠ 0 ∧ s.chip.phase = 3 ∧ asleep s = false ∧ idleChip s = true) ∧
    (∃ (s : State), s.pwr.entering = true ∧ allStopped s = true) ∧
    (∃ (s : State), s.pwr.chip ≠ 0 ∧ s.pwr.entering = false ∧ s.pwr.wakeHeld = true ∧ s.pwr.heldWake = [] ∧ s.pwr.heldCtl = []) ∧
    (∃ (w : Writer) (p : Nat) (s : State), s.pwr.chip ≠ 0 ∧ s.pwr.entering = false ∧ s.pwr.wakeHeld = true ∧ s.pwr.heldWake = [.drPortRetrain w p] ∧ s.pwr.heldCtl = []) ∧
    (∃ (s : State), s.pwr.wakeAt ≠ 0 ∧ s.pwr.wakeAt ≤ s.chip.tick ∧ asleep s = true) ∧
    (∃ (p : Nat) (s : State), (portOf s p).state = 3 ∧ asleep s = true) ∧
    (∃ (p : Nat) (s : State), (portOf s p).state = 3 ∧ asleep s = false ∧ (fullPorts s).length < budget s 2 / 11) ∧
    (∃ (s : State), asleep s = false) ∧
    (∃ (s : State), asleep s = true) ∧
    (∃ (via : Via) (r pol pt : Nat) (s : State), requested via 0x0801 s ∧ r < 8 ∧ pol ≤ 1 ∧ pt ≤ topPoint s) ∧
    (∃ (via : Via) (s : State), carries via 0x0802 s = true) ∧
    (∃ (via : Via) (s : State), requested via 0x0803 s ∧ s.pwr.shutdown = 2 ∧ cooled s = true) := by
  refine ⟨⟨0, wl, by decide +kernel⟩,
    ⟨95, w0, by decide +kernel⟩,
    ⟨7, w0, by decide +kernel⟩,
    ⟨95, 31, w0, by decide +kernel⟩,
    ⟨95, wPwr { blocks := [(95, { domain := 1 })] }, by decide +kernel⟩,
    ⟨7, w0, by decide +kernel⟩,
    ⟨95, 31, w0, by decide +kernel⟩,
    ⟨w0, by decide +kernel⟩,
    ⟨95, 3, w0, by decide +kernel⟩,
    ⟨.relay, 2, w0, ⟨rfl, rfl⟩, by decide +kernel⟩,
    ⟨.relay, w0, ⟨rfl, rfl⟩⟩,
    ⟨wPwr { autoDoze := 1 }, by decide +kernel⟩,
    ⟨wPwr { entering := true }, by decide +kernel⟩,
    ⟨wPwr { chip := 1, wakeHeld := true }, by decide +kernel⟩,
    ⟨.firmware, 31, wPwr { chip := 2, wakeHeld := true, heldWake := [.drPortRetrain .firmware 31] }, by decide +kernel⟩,
    ⟨{ wPwr { chip := 1, wakeAt := 1 } with chip := { phase := 3, stage := 7, tick := 1 } }, by decide +kernel⟩,
    ⟨31, { wPort { state := 3 } with pwr := { chip := 1 } }, by decide +kernel⟩,
    ⟨31, wPort { state := 3 }, by decide +kernel⟩,
    ⟨w0, by decide +kernel⟩,
    ⟨wPwr { chip := 1 }, by decide +kernel⟩,
    ⟨.relay, 7, 1, 7, w0, ⟨rfl, rfl⟩, by decide +kernel⟩,
    ⟨.relay, wPwr { chip := 1 }, by decide +kernel⟩,
    ⟨.relay, wPwr { shutdown := 2 }, ⟨rfl, rfl⟩, by decide +kernel⟩⟩

theorem witness_PointsPowerAndHeatGoverned :
    (∃ (who : Writer) (r v : Nat) (s : State), admits who 13 s ∧ r < 8 ∧ v % 8 ≤ topPoint s ∧ (isHost who = true → s.pwr.gov = false) ∧ floorOf s r ≤ v % 8) ∧
    (∃ (r v : Nat) (s : State), (pregOf s r).vreq ≠ v) ∧
    (∃ (who : Writer) (r v : Nat) (s : State), admits who 13 s ∧ r < 8 ∧ v % 8 ≤ topPoint s ∧ (isHost who = true → s.pwr.gov = false) ∧ v % 8 < floorOf s r) ∧
    (∃ (who : Writer) (b v : Nat) (s : State), admits who 13 s ∧ b < 96 ∧ v % 8 ≤ topPoint s ∧ (isHost who = true → s.pwr.gov = false) ∧ sealedBlock s b = false ∧ v % 8 ≤ (pregOf s (b / 12)).vcur) ∧
    (∃ (who : Writer) (b v : Nat) (s : State), admits who 13 s ∧ b < 96 ∧ v % 8 ≤ topPoint s ∧ (isHost who = true → s.pwr.gov = false) ∧ (sealedBlock s b = true ∨ (pregOf s (b / 12)).vcur < v % 8)) ∧
    (∃ (r : Nat) (s : State), (pregOf s r).ramp = true) ∧
    (∃ (b : Nat) (s : State), s.pwr.gov = true ∧ sealedBlock s b = false ∧ (pregOf s (b / 12)).policy = 0 ∧ capOf s b < reqOf s b) ∧
    (∃ (s : State), s.pwr.gov = false) ∧
    (∃ (s : State), s.pwr.samples ≠ [] ∧ computeBudget s < average s 10 0 ∧ ((bulkBlocks s).filter fun b => decide (0 < effPoint s b)) ≠ []) ∧
    (∃ (s : State), s.pwr.samples ≠ [] ∧ computeBudget s < average s 10 0 ∧ ((bulkBlocks s).filter fun b => decide (0 < effPoint s b)) = [] ∧ s.pwr.duty = false) ∧
    (∃ (s : State), s.pwr.duty = true) ∧
    (∃ (s : State), s.pwr.samples ≠ [] ∧ budget s 1 < average s 10 1 ∧ 0 < (regionOf s 0).tier3) ∧
    (∃ (order kept full : List Nat) (s u v : State), asleep s = false ∧ ((List.range 32).filter (portUp s)).filter (sealedPort s) = kept ∧ each kept (fun p w => fitWidth p (modPort p (fun t => { t with capLow := false }) w)) s.start = u ∧ ((order ++ (List.range 32).filter fun p => !order.contains p).filter fun p => !kept.contains p && (fullPorts u).contains p) = full ∧ each (full.take (full.length - (budget u 2 / 11 - kept.length))) (fun p w => countStep 2 (fitWidth p (modPort p (fun t => { t with capLow := true }) w))) u = v) ∧
    (∃ (s : State), asleep s = true) ∧
    (∃ (n r : Nat) (c : Int), sensorRegion n = some r ∧ -25 < c ∧ c < 115) ∧
    (∃ (n r : Nat) (c : Int) (s : State), sensorRegion n = some r ∧ 115 ≤ c ∧ sensorOf s n < 115) ∧
    (∃ (r : Nat) (s : State), diesOn s = true ∧ ((regionSensors r ++ headSensors).map (sensorOf s)).any (fun c => decide (100 ≤ c)) = true ∧ (pregOf s r).tcap ≠ 0 ∧ (pregOf s r).tcap ≠ 7) ∧
    (∃ (r : Nat) (s : State), diesOn s = true ∧ ((regionSensors r ++ headSensors).map (sensorOf s)).any (fun c => decide (100 ≤ c)) = false ∧ ((regionSensors r ++ headSensors).map (sensorOf s)).all (fun c => decide (c ≤ 97)) = true ∧ (pregOf s r).tcap < 6 ∧ (pregOf s r).held = false) ∧
    (∃ (s : State), tooHot s = true ∧ diesOn s = true ∧ s.pwr.shutdown = 0) ∧
    (∃ (s : State), s.pwr.shutdown = 1) ∧
    (∃ (s : State), s.pwr.shutdown = 2 ∧ s.pwr.autoRestart = true ∧ cooled s = true) ∧
    (∃ (c : Int), c < 105) := by
  refine ⟨⟨.firmware, 7, 7, w0, ⟨by decide +kernel, by intro h; cases h⟩, by decide +kernel⟩,
    ⟨7, 1, w0, by decide +kernel⟩,
    ⟨.firmware, 7, 0, wPwr { blocks := [(95, { req := 1 })] }, ⟨by decide +kernel, by intro h; cases h⟩, by decide +kernel⟩,
    ⟨.firmware, 95, 7, wPwr { regions := [(7, { vcur := 7 })] }, ⟨by decide +kernel, by intro h; cases h⟩, by decide +kernel⟩,
    ⟨.firmware, 95, 1, w0, ⟨by decide +kernel, by intro h; cases h⟩, by decide +kernel⟩,
    ⟨7, wPwr { regions := [(7, { ramp := true })] }, by decide +kernel⟩,
    ⟨95, wPwr { blocks := [(95, { cap := 0, req := 1 })] }, by decide +kernel⟩,
    ⟨wPwr { gov := false }, by decide +kernel⟩,
    ⟨wPwr { samples := [[1921, 0, 0, 0]], regions := [(0, { vcur := 1 })], blocks := [(0, { req := 1 })] }, by decide +kernel⟩,
    ⟨wPwr { samples := [[1921, 0, 0, 0]] }, by decide +kernel⟩,
    ⟨wPwr { duty := true }, by decide +kernel⟩,
    ⟨wPwr { samples := [[0, 705, 0, 0]] }, by decide +kernel⟩,
    ⟨[0], _, _, w0, _, _, by decide +kernel, (rfl), (rfl), (rfl), (rfl)⟩,
    ⟨wPwr { chip := 1 }, by decide +kernel⟩,
    ⟨127, _, 114, some_get _ (by decide +kernel), by decide +kernel⟩,
    ⟨127, _, 115, w0, some_get _ (by decide +kernel), by decide +kernel⟩,
    ⟨0, wPwr { sensors := [(129, 100)], regions := [(0, { tcap := 1 })] }, by decide +kernel⟩,
    ⟨7, wPwr { sensors := [(129, 97)], regions := [(7, { tcap := 5 })] }, by decide +kernel⟩,
    ⟨wPwr { sensors := [(129, 115)] }, by decide +kernel⟩,
    ⟨wPwr { shutdown := 1 }, by decide +kernel⟩,
    ⟨wPwr { shutdown := 2, autoRestart := true }, by decide +kernel⟩,
    ⟨104, by decide +kernel⟩⟩

def wTwo : State := { w0 with img := { applied := { hostMode := 1 } } }

theorem witness_PinsAndMemorySharesFollowed :
    (∃ (s : State), s.img.applied.hostMode ≠ 1) ∧
    (∃ (s : State), s.img.applied.hostMode = 1) ∧
    (∃ (s : State), s.img.applied.hostMode = 1 ∧ s.chip.phase = 3) ∧
    (∃ (s : State), s.img.applied.hostMode ≠ 1) ∧
    (∃ (who : Writer) (b : Nat) (s : State), admits who 4 s ∧ (isHost who = true → confBlock s b = false) ∧ (cmaOf s b).direct = false ∧ (cmaOf s b).state ≠ 1) ∧
    (∃ (c : Cma), c.direct = false ∧ c.state ≠ 1) ∧
    (∃ (who : Writer) (b : Nat) (s : State), admits who 4 s ∧ (isHost who = true → confBlock s b = false)) ∧
    (∃ (c : Cma), c.direct = false ∧ c.pendingDirect = false ∧ c.going = false) ∧
    (∃ (c : Cma), c.direct = true ∧ c.pendingDirect = false ∧ c.hold = false ∧ cmaOk c.live = true) ∧
    (∃ (who : Writer) (b : Nat) (s : State), admits who 4 s ∧ (isHost who = true → confBlock s b = false)) ∧
    (∃ (b : Nat) (s : State), (pblkOf s b).domain = 0) ∧
    (∃ (c : Cma), c.direct = false ∧ c.going = true ∧ c.pendingDirect = false) ∧
    (∃ (c : Cma), c.direct = true) ∧
    (∃ (b l pos ctx : Nat) (s : State), (cmaOf s b).hold = true ∧ launchOf s b = some (l, pos, ctx)) ∧
    (∃ (b : Nat) (s : State), (cmaOf s b).direct = false ∧ (cmaOf s b).state = 1 ∧ cmaOk (cmaOf s b).shadow = false) ∧
    (∃ (p lanes : Nat) (s : State), (portOf s p).enable = true ∧ imagePort s p = true ∧ (portOf s p).state = 7 ∧ lanes % 16 &&& trainable (portOf s p) ≠ 0) := by
  refine ⟨⟨w0, by decide +kernel⟩,
    ⟨wTwo, by decide +kernel⟩,
    ⟨wTwo, by decide +kernel⟩,
    ⟨w0, by decide +kernel⟩,
    ⟨.firmware, 95, w0, ⟨by decide +kernel, by intro h; cases h⟩, by decide +kernel⟩,
    ⟨{}, by decide +kernel⟩,
    ⟨.firmware, 95, w0, ⟨by decide +kernel, by intro h; cases h⟩, by decide +kernel⟩,
    ⟨{}, by decide +kernel⟩,
    ⟨{ direct := true }, by decide +kernel⟩,
    ⟨.firmware, 95, w0, ⟨by decide +kernel, by intro h; cases h⟩, by decide +kernel⟩,
    ⟨95, w0, by decide +kernel⟩,
    ⟨{ going := true }, by decide +kernel⟩,
    ⟨{ direct := true }, by decide +kernel⟩,
    ⟨0, 0, 0, 0, { wLaunch {} [] with cu := { cma := [(0, { hold := true })] } }, by decide +kernel⟩,
    ⟨95, { w0 with cu := { cma := [(95, { state := 1, shadow := 3 })] } }, by decide +kernel⟩,
    ⟨31, 1, wPort { enable := true, state := 7 }, by decide +kernel⟩⟩

def wRas (r : Ras) : State := { w0 with ras := r }

theorem witness_HangsFaultsAndResetsHandled :
    (∃ (s : State), s.chip.phase = 3 ∧ ((List.range 96).filter fun b => decide ((blockOf s b).state ≠ 6) && !(blockOf s b).resetting && decide ((pblkOf s b).domain = 0)) = []) ∧
    (∃ (s : State), (List.range 96).filter (watched s) = [] ∧ s.ras.hf.on = true ∧ s.pwr.chip ≠ 2 ∧ (s.ras.hf.check).misses < 3) ∧
    (∃ (s : State), (List.range 96).filter (watched s) = [] ∧ s.ras.hf.on = true ∧ s.pwr.chip ≠ 2 ∧ 3 ≤ (s.ras.hf.check).misses) ∧
    (∃ (u : HwUnit), u.kind ≠ 5) ∧
    (∃ (d : Nat), d ≠ 1 ∧ d ≠ 2) ∧
    (∃ (u : HwUnit) (s : State), (fcOf s u).deferred = true ∧ inReset s u = false ∧ mustWait s u = false) ∧
    (∃ (k : Nat) (s : State), 2 ≤ s.chip.phase ∧ tget 0 s.ras.wires k < 2) ∧
    (∃ (k : Nat) (s : State), 2 ≤ s.chip.phase ∧ 2 ≤ tget 0 s.ras.wires k) ∧
    (∃ (b : Nat) (s : State), (blockOf s b).launch = none) ∧
    (∃ (b : Nat) (s : State), (blockOf s b).launch = none) ∧
    (∃ (s : State), s.chip.phase = 3) ∧
    (∃ (s : State), s.chip.phase = 3) ∧
    (∃ (s : State), 2 ≤ s.chip.phase ∧ s.chip.phase ≠ 8) ∧
    (∃ (r : Nat) (s : State), (regionOf s r).resetting = true) ∧
    (∃ (b : Nat) (s : State), (blockOf s b).state ≠ 6 ∧ 2 ≤ s.chip.phase ∧ (s.ras.caps.find? fun c => c.blocks.contains b) = none ∧ (blockOf s b).resetting = true ∧ (regionOf s (b / 12)).resetting = false ∧ scrubsBlock s b = false) ∧
    (∃ (id : Nat) (c : Cap) (s : State), (s.ras.caps.find? fun c => decide (c.id = id)) = some c) ∧
    (∃ (l : Nat) (s : State), watchdogRuns s l = true ∧ s.ras.capEn = false) ∧
    (∃ (r : Nat) (hub : Bool) (s : State), fabricBusy s r hub = true ∧ (pregOf s r).held = false ∧ (pregOf s r).fabric = 0) ∧
    (∃ (via : Via) (k n : Nat) (s : State), requested via 0x0900 s ∧ n < unitCount k ∧ (fcOf s ⟨k, n⟩).retired = true ∧ (fcOf s ⟨k, n⟩).count = 0) ∧
    (∃ (via : Via) (p a n : Nat) (s : State), requested via 0x0901 s ∧ (hostPorts s).contains p = true ∧ 2 ^ 20 ≤ n ∧ n ≤ 2 ^ 30 ∧ a % 4096 = 0) ∧
    (∃ (via : Via) (gid t l : Nat) (s : State), requested via 0x0902 s ∧ findLive s via gid = .ok l ∧ t ≤ 65535) ∧
    (∃ (via : Via) (b : Nat) (s : State), requested via 0x0903 s ∧ b < 96 ∧ s.chip.phase = 3) ∧
    (∃ (via : Via) (p n : Nat) (s : State), requested via 0x0904 s ∧ p < 32 ∧ n < 4 ∧ portUp s p = false ∧ training s p = false ∧ (portOf s p).retired.testBit n = true) ∧
    (∃ (b : Nat) (s : State), (blockOf s b).resetting = false ∧ (regionOf s (b / 12)).resetting = false ∧ (blockOf s b).state ≠ 6 ∧ b < 96) := by
  refine ⟨⟨wPwr { blocks := (List.range 96).map fun b => (b, { domain := 3 }) }, by decide +kernel⟩,
    ⟨wRas { hf := { on := true, misses := 1 } }, by decide +kernel⟩,
    ⟨wRas { hf := { on := true, misses := 2 } }, by decide +kernel⟩,
    ⟨⟨7, 0⟩, by decide +kernel⟩,
    ⟨0, by decide +kernel⟩,
    ⟨⟨5, 0⟩, wRas { units := [(327680, { deferred := true })] }, by decide +kernel⟩,
    ⟨31, wRas { wires := [(31, 1)] }, by decide +kernel⟩,
    ⟨31, wRas { wires := [(31, 2)] }, by decide +kernel⟩,
    ⟨95, w0, by decide +kernel⟩,
    ⟨95, w0, by decide +kernel⟩,
    ⟨w0, by decide +kernel⟩,
    ⟨w0, by decide +kernel⟩,
    ⟨w0, by decide +kernel⟩,
    ⟨7, { w0 with mem := { regions := [(7, { resetting := true })] } }, by decide +kernel⟩,
    ⟨95, { w0 with lm := { blocks := [(95, { resetting := true })] } }, by decide +kernel⟩,
    ⟨7, _, wRas { caps := [⟨7, [0], none, 1⟩] }, some_get _ (by decide +kernel)⟩,
    ⟨0, { wRec { pos := 0, bits := 7, stage := 2 } with ras := { capEn := false } }, by decide +kernel⟩,
    ⟨7, true, wSem 0 (.post 1), by decide +kernel⟩,
    ⟨.relay, 9, 65535, wRas { units := [(655359, { retired := true })] }, ⟨rfl, rfl⟩, by decide +kernel⟩,
    ⟨.relay, 0, 4096, 2 ^ 30, w0, ⟨rfl, rfl⟩, by decide +kernel⟩,
    ⟨.relay, 5, 65535, _, wl, ⟨rfl, rfl⟩, ok_get _ (by decide +kernel), by decide +kernel⟩,
    ⟨.relay, 95, w0, ⟨rfl, rfl⟩, by decide +kernel⟩,
    ⟨.relay, 31, 3, wPort { retired := 8 }, ⟨rfl, rfl⟩, by decide +kernel⟩,
    ⟨95, w0, by decide +kernel⟩⟩

def aEv (sev : Nat) : Ev := { typ := 0x100, sev := sev, seq := 0, ops := 0 }

def wEvr (r : Evr) : State := { w0 with evr := r }

theorem witness_EventRecorderWritesAndClears :
    (∃ (gid : Nat) (s : State), findGid s gid = none) ∧
    (∃ (gid l : Nat) (s : State), findGid s gid = some l ∧ (lodeOf s l).conf = true) ∧
    (∃ (e : Ev) (rest : List Ev) (n : Nat) (r : Evr) (s : State), s.evr.staging = e :: rest ∧ s.chip.phase ≠ 0 ∧ s.evr.clearing = [] ∧ s.evr.dropRun = 0 ∧ pageFor { s.evr with staging := rest } e = some (n, r) ∧ r.dropRun = 0) ∧
    (∃ (e : Ev) (rest : List Ev) (s : State), s.evr.staging = e :: rest ∧ s.chip.phase ≠ 0 ∧ s.evr.clearing = [] ∧ pageFor { s.evr with staging := rest } e = none) ∧
    (∃ (s : State), s.chip.phase ≠ 0) ∧
    (∃ (via : Via) (first off : Nat) (rs : List (Nat × Ev)) (s : State), requested via 0x0930 s ∧ readFrom s.evr first off = .ok rs) ∧
    (∃ (via : Via) (c : List Byte) (s : State), requested via 0x0931 s ∧ le 8 (moduleSerial s) ++ le 4 s.evr.nextSeq ++ le 4 s.evr.pcycles ++ padTo 48 (Config.drbg s.free) = c) ∧
    (∃ (via : Via) (alg off : Nat) (bs : List Byte) (s : State), requested via 0x0932 s ∧ (alg = 1 ∨ alg = 2) ∧ bs.length ≤ 4096 ∧ off + bs.length ≤ sigLen alg ∧ s.evr.clears.length < 254 ∧ s.evr.clearing = []) ∧
    (∃ (via : Via) (alg off : Nat) (bs : List Byte) (s : State), requested via 0x0932 s ∧ (alg = 1 ∨ alg = 2) ∧ bs.length ≤ 4096 ∧ off + bs.length ≤ sigLen alg ∧ s.evr.clears.length < 254 ∧ s.evr.clearing = [] ∧ s.evr.chal = none) ∧
    (∃ (via : Via) (alg off : Nat) (bs c sg : List Byte) (s : State), requested via 0x0932 s ∧ (alg = 1 ∨ alg = 2) ∧ bs.length ≤ 4096 ∧ off + bs.length ≤ sigLen alg ∧ s.evr.clears.length < 254 ∧ s.evr.clearing = [] ∧ s.evr.chal = some c ∧ sigWhole (sigPut s.evr.sig off bs) alg = some sg) ∧
    (∃ (s : State), s.chip.phase ≠ 0) := by
  refine ⟨⟨5, w0, by decide +kernel⟩,
    ⟨5, _, wConf 0, some_get _ (by decide +kernel), by decide +kernel⟩,
    ⟨aEv 7, [], _, _, wEvr { staging := [aEv 7] }, by decide +kernel, by decide +kernel, by decide +kernel, by decide +kernel, (some_pair _ (by decide +kernel)), by decide +kernel⟩,
    ⟨aEv 4, [], wEvr { staging := [aEv 4], pages := (List.range 896).map fun n => (n, { band := 2 }) }, by decide +kernel⟩,
    ⟨w0, by decide +kernel⟩,
    ⟨.relay, 0, 0, _, w0, ⟨rfl, rfl⟩, ok_get _ (by decide +kernel)⟩,
    ⟨.relay, _, w0, ⟨rfl, rfl⟩, (rfl)⟩,
    ⟨.relay, 2, 5797, List.replicate 4096 0, w0, ⟨rfl, rfl⟩, by decide +kernel⟩,
    ⟨.relay, 1, 867, List.replicate 4096 0, w0, ⟨rfl, rfl⟩, by decide +kernel⟩,
    ⟨.relay, 1, 0, [0], [1], _, wEvr { chal := some [1], sig := (List.range 4963).map fun i => (i, some 0) }, ⟨rfl, rfl⟩, by decide +kernel, by decide +kernel, by decide +kernel, by decide +kernel, by decide +kernel, by decide +kernel, some_get _ (by decide +kernel)⟩,
    ⟨w0, by decide +kernel⟩⟩

theorem witness_StepRunsTheCommandInFront : ∃ (s : State), s.pending = [] := by
  refine ⟨w0, by decide +kernel⟩

theorem witness_EveryStepKeepsStateSound :
    (∃ (s t : State), s.sound ∧ step s = .next t) ∧
    (∃ (n : Nat) (s t : State), s.sound ∧ steps n s = some t) := by
  refine ⟨⟨{ w0 with pending := [.xtalFail] }, _, ⟨by decide +kernel, by decide +kernel, rfl⟩, (rfl)⟩,
    ⟨1, { w0 with pending := [.xtalFail] }, _, ⟨by decide +kernel, by decide +kernel, rfl⟩, (rfl)⟩⟩

theorem witness_StoredBytesReadBack :
    (∃ (s : State) (a : Nat), s.sound ∧ populated a = true) ∧
    (∃ (s : State) (a a' : Nat), s.sound ∧ a' ≠ a) ∧
    (∃ (s : State) (a : Nat), s.sound ∧ populated a = false) ∧
    (∃ (s : State) (a i : Nat) (bs : List Byte), s.sound ∧ (∀ j < bs.length, populated (a + j) = true) ∧ i < bs.length) ∧
    (∃ (s : State) (a a' : Nat) (bs : List Byte), s.sound ∧ (a' < a ∨ a + bs.length ≤ a')) ∧
    (∃ (s : State) (lo n a : Nat), s.sound ∧ lo ≤ a ∧ a < lo + n) ∧
    (∃ (s : State) (lo n a : Nat), s.sound ∧ (a < lo ∨ lo + n ≤ a)) ∧
    (∃ (a : Nat), populated a = true) := by
  refine ⟨⟨w0, 0x17FFFFFFFFF, ⟨by decide +kernel, by decide +kernel, rfl⟩, by decide +kernel⟩,
    ⟨w0, 0, 1, ⟨by decide +kernel, by decide +kernel, rfl⟩, by decide +kernel⟩,
    ⟨w0, 0x18000000000, ⟨by decide +kernel, by decide +kernel, rfl⟩, by decide +kernel⟩,
    ⟨w0, 0x17FFFFFFFFE, 1, [1, 2], ⟨by decide +kernel, by decide +kernel, rfl⟩, by decide +kernel⟩,
    ⟨w0, 0x17FFFFFFFFE, 0x18000000000, [1, 2], ⟨by decide +kernel, by decide +kernel, rfl⟩, by decide +kernel⟩,
    ⟨w0, 0, 64, 63, ⟨by decide +kernel, by decide +kernel, rfl⟩, by decide +kernel⟩,
    ⟨w0, 0, 64, 64, ⟨by decide +kernel, by decide +kernel, rfl⟩, by decide +kernel⟩,
    ⟨0x1C05FA0FFFF, by decide +kernel⟩⟩

theorem witness_LodeAddressesResolve :
    (∃ (s : State) (l a : Nat), a < 2 ^ 41 ∧ (granOf s l (a / 2 ^ 28)).valid = false) ∧
    (∃ (s : State) (b l pos ctx : Nat), launchOf s b = some (l, pos, ctx)) ∧
    (∃ (s : State) (l a n base slot : Nat), a < 2 ^ 41 ∧ (granOf s l (a / 2 ^ 28)).valid = true ∧ (granOf s l (a / 2 ^ 28)).slot = slot ∧ (setOf s (granOf s l (a / 2 ^ 28)).set).count = n ∧ (setOf s (granOf s l (a / 2 ^ 28)).set).base = base ∧ (n = 4 ∨ n = 8 ∨ n = 16 ∨ n = 32) ∧ slot < 8 * n) := by
  refine ⟨⟨w0, 0, 2 ^ 41 - 1, by decide +kernel⟩,
    ⟨wLaunch {} [], 0, 0, 0, 0, by decide +kernel⟩,
    ⟨{ w0 with lm := { sets := [(23, ⟨2, 736, 32, 0⟩)], chan := [(8191, { valid := true, set := 23, slot := 255 })] } }, 0, 2 ^ 41 - 1, 32, 736, 255, by decide +kernel⟩⟩

theorem witness_FaultsThatCannotResumeEndTheWork : ∃ (reason code : Nat), ((reason = 2 ∧ code = 0x0206) ∨ (reason = 3 ∧ code = 0x0205) ∨ (reason = 4 ∧ code = 0x0204)) := by
  refine ⟨4, 0x0204, by decide +kernel⟩

theorem witness_EpochsComparedModulo32Bits :
    (∃ (a b : Nat), a < 2 ^ 32 ∧ b < 2 ^ 32) ∧
    (∃ (e : Nat), e < 2 ^ 32) := by
  refine ⟨⟨2 ^ 32 - 1, 0, by decide +kernel⟩,
    ⟨2 ^ 32 - 1, by decide +kernel⟩⟩

theorem witness_IntegerAndScaleValues :
    (∃ (code w : Nat), ((code = 10 ∧ w = 32) ∨ (code = 8 ∧ w = 8) ∨ (code = 9 ∧ w = 4))) ∧
    (∃ (x : Nat), x ≤ 0xFE) := by
  refine ⟨⟨9, 4, by decide +kernel⟩,
    ⟨0xFE, by decide +kernel⟩⟩

theorem witness_Dlg8Values : ∃ (c j : Nat) (q : Int), 1 ≤ c ∧ c ≤ 127 ∧ j < 8 ∧ (c : Int) - 127 = 8 * q + j := by
  refine ⟨127, 0, 0, by decide +kernel⟩

theorem witness_NarrowElementsPacked :
    (∃ (code n : Nat) (bs : List Byte), (code = 7 ∨ code = 9) ∧ n ≤ 2 * bs.length) ∧
    (∃ (code n i j : Nat) (bs : List Byte), (code = 5 ∨ code = 6) ∧ 3 * n ≤ 4 * bs.length ∧ j < 4 ∧ 4 * i + j < n) ∧
    (∃ (code : Nat) (es : List Nat), (code = 5 ∨ code = 6 ∨ code = 7 ∨ code = 9) ∧ (∀ e ∈ es, e < 2 ^ fmtBits code)) ∧
    (∃ (code b : Nat), (code = 5 ∨ code = 6 ∨ code = 7 ∨ code = 9) ∧ b < 2 ^ fmtBits code) := by
  refine ⟨⟨9, 2, [1], by decide +kernel⟩,
    ⟨6, 4, 0, 3, [1, 2, 3], by decide +kernel⟩,
    ⟨9, [15], by decide +kernel⟩,
    ⟨9, 15, by decide +kernel⟩⟩

theorem witness_StochasticGeneratorStepsOncePerElement : ∃ (n : Nat) (s0 s s1 s2 s3 : BitVec 64), s0 = BitVec.ofNat 64 n ∧ s = (if s0 = 0 then 1 else s0) ∧ s1 = s ^^^ (s <<< 13) ∧ s2 = s1 ^^^ (s1 >>> 7) ∧ s3 = s2 ^^^ (s2 <<< 17) := by
  refine ⟨0, _, _, _, _, _, (rfl), (rfl), (rfl), (rfl), (rfl)⟩

theorem witness_FlitsAcceptedInSequence :
    (∃ (p seq : Nat) (s : State), portUp s p = true ∧ seq = (portOf s p).rxSeq) ∧
    (∃ (p seq : Nat) (good : Bool) (s : State), portUp s p = true ∧ (good = false ∨ seq ≠ (portOf s p).rxSeq)) := by
  refine ⟨⟨31, 65535, wPort { state := 3, rxSeq := 65535 }, by decide +kernel⟩,
    ⟨31, 65535, false, wPort { state := 2, rxSeq := 65535 }, by decide +kernel⟩⟩

theorem witness_DriftVersionSettled :
    (∃ (p lo hi lanes : Nat) (s : State), training s p = true ∧ lo ≤ 1 ∧ 1 ≤ hi ∧ 2 ≤ (lanesOf ((portOf s p).usable &&& (lanes % 16))).length) ∧
    (∃ (p lo hi : Nat) (s : State), training s p = true ∧ (1 < lo ∨ hi < 1)) ∧
    (∃ (p : Nat) (s : State), (portOf s p).replayBuf = [] ∧ (portOf s p).waiting = []) := by
  refine ⟨⟨31, 1, 1, 3, wPort { state := 1, usable := 3 }, by decide +kernel⟩,
    ⟨31, 2, 2, wPort { state := 1, usable := 3 }, by decide +kernel⟩,
    ⟨31, wPort {}, by decide +kernel⟩⟩

theorem witness_SubmissionTailGuarded :
    (∃ (p l pos : Nat) (s : State), asleep s = false ∧ pageLive s p l = true ∧ (queueOf s l).state = 1 ∧ (queueOf s l).sqTail ≤ pos ∧ pos ≤ (queueOf s l).sqHead + 2 ^ (queueOf s l).sqLog) ∧
    (∃ (p l pos : Nat) (s : State), asleep s = false ∧ pageLive s p l = true ∧ (queueOf s l).state = 1 ∧ s.edits = [] ∧ (pos < (queueOf s l).sqTail ∨ (queueOf s l).sqHead + 2 ^ (queueOf s l).sqLog < pos)) ∧
    (∃ (l : Nat) (s : State), asleep s = false ∧ (queueOf s l).state ≠ 1 ∧ s.edits = []) := by
  refine ⟨⟨0, 0, 64, wQueue { state := 1, sqLog := 6 }, by decide +kernel⟩,
    ⟨0, 0, 65, wQueue { state := 1, sqLog := 6 }, by decide +kernel⟩,
    ⟨0, w0, by decide +kernel⟩⟩

theorem witness_FenceWaitsReleaseRecords :
    (∃ (s : State) (l a : Nat) (bs : List Byte), a ≠ 0 ∧ rdLode s l a 16 = .ok bs) ∧
    (∃ (s : State) (l p e : Nat) (own : Bool) (r : Rec), recOf s l p = some r ∧ r.stage = 0 ∧ waitsOf s l r = some (e, own) ∧ e ≠ 0) ∧
    (∃ (r : Rec) (e : Nat), r.inherited = true ∧ r.pos < 2 ^ 64 ∧ e < 2 ^ 16) ∧
    (∃ (e : Nat) (r : Rec), r.silent = false ∧ r.inherited = true ∧ e ≠ 0 ∧ e < 2 ^ 16) := by
  refine ⟨⟨wl, 0, 16, _, by decide +kernel, ok_get _ (by decide +kernel)⟩,
    ⟨wRec { pos := 0, bits := 7, fences := [0, 2 ^ 28, 0] }, 0, 0, _, _, _, some_get _ (by decide +kernel), by decide +kernel, (some_get _ (by decide +kernel)), by decide +kernel⟩,
    ⟨{ pos := 2 ^ 64 - 1, bits := 0, inherited := true }, 65535, by decide +kernel⟩,
    ⟨65535, { pos := 0, bits := 0, inherited := true }, by decide +kernel⟩⟩

theorem witness_SemaphorePostsSaturate :
    (∃ (p n : Nat), n / 256 = p ∧ p < 512) ∧
    (∃ (n k tag : Nat) (rest : List (Nat × SyncMsg)) (s : State), twf {} s.noc.sems = true ∧ (semOf s n).inflight = (tag, .post k) :: rest ∧ (semOf s n).poisoned = false ∧ (semOf s n).waits = [] ∧ (semOf s n).value + k < 2 ^ 32) ∧
    (∃ (n k tag : Nat) (rest : List (Nat × SyncMsg)) (s : State), twf {} s.noc.sems = true ∧ (semOf s n).inflight = (tag, .post k) :: rest ∧ (semOf s n).poisoned = false ∧ (semOf s n).waits = [] ∧ 2 ^ 32 ≤ (semOf s n).value + k) := by
  refine ⟨⟨511, 131071, by decide +kernel⟩,
    ⟨131071, 1, 1, [], wSem (2 ^ 32 - 2) (.post 1), by decide +kernel⟩,
    ⟨131071, 1, 1, [], wSem (2 ^ 32 - 1) (.post 1), by decide +kernel⟩⟩

theorem witness_DeadlinesReadInTheirWindow :
    (∃ (now d : Nat), 2048 ≤ now ∧ 0 < d ∧ d < 2 ^ 16) ∧
    (∃ (a : ArbReq), a.dl ≠ 0) ∧
    (∃ (a : ArbReq), a.dl = 0) := by
  refine ⟨⟨2048, 65535, by decide +kernel⟩,
    ⟨{ id := 1, cls := 0, conform := true, dl := 1, bytes := 64 }, by decide +kernel⟩,
    ⟨{ id := 1, cls := 0, conform := true, dl := 0, bytes := 64 }, by decide +kernel⟩⟩

theorem witness_StaleRequestsRejected :
    (∃ (s : State) (l tag : Nat), tag < 2 ^ 8 ∧ (s.ut.preps.all fun p => decide (p.lode ≠ l)) = true ∧ (s.ut.txns.all fun t => decide (t.lode ≠ l)) = true) ∧
    (∃ (r : MemReq) (s : State), s.edits = [] ∧ behind s r = false ∧ regionClosed s r = false ∧ tget 0 s.noc.buckets (lodeBucket r.master r.lode) = 0 ∧ r.len ≤ (masterOf s r.master).tokens ∧ ((lodeOf s r.lode).state = 0 ∨ tagLive s r.lode r.etag = false) ∧ (r.retried = true → r.cmd = none)) := by
  refine ⟨⟨w0, 0, 255, by decide +kernel⟩,
    ⟨wReq, { w0 with noc := { masters := [(0, { tokens := 128 })] } }, by decide +kernel⟩⟩

theorem witness_AnswersReachTheirIssuer :
    (∃ (p n : Nat) (s : State), (slotOf s p n).state = 1) ∧
    (∃ (p n : Nat) (s : State), (slotOf s p n).state ≠ 1) ∧
    (∃ (code tag : Nat) (req : List Byte) (s : State), s.hp.side = some (code, tag, req)) ∧
    (∃ (via : Via) (status : Nat) (data : List Byte) (s t : State), answer via status data s = t) := by
  refine ⟨⟨0, 7, wConf 0x15, by decide +kernel⟩,
    ⟨0, 7, w0, by decide +kernel⟩,
    ⟨_, _, _, { w0 with hp := { side := some (0x10, 1, []) } }, (rfl)⟩,
    ⟨.relay, 0, [], w0, _, (rfl)⟩⟩

theorem witness_VectorsRaised :
    (∃ (p v : Nat) (s : State), (tget (2 ^ 96) (hportOf s p).msix v).testBit 96 = true) ∧
    (∃ (p v : Nat) (s : State), (tget (2 ^ 96) (hportOf s p).msix v).testBit 96 = false) ∧
    (∃ (l : Nat) (s : State), (lodeOf s l).home = true ∧ (lodeOf s l).pasid ≠ 0) ∧
    (∃ (l : Nat) (s : State), ((lodeOf s l).home = false ∨ (lodeOf s l).pasid = 0)) ∧
    (∃ (s : State), s.img.applied.hostMode ≠ 1) ∧
    (∃ (s : State), s.img.applied.hostMode = 1) := by
  refine ⟨⟨0, 3072, w0, by decide +kernel⟩,
    ⟨0, 3072, wHost { msix := [(3072, 0)] }, by decide +kernel⟩,
    ⟨0, wXl {}, by decide +kernel⟩,
    ⟨95, w0, by decide +kernel⟩,
    ⟨w0, by decide +kernel⟩,
    ⟨wTwo, by decide +kernel⟩⟩

theorem witness_CoreStoreFrame : ∃ (b c w a n : Nat) (s : State), s.sound ∧ executes b c s ∧ w < 2 ^ 32 ∧ w % 4 = 3 ∧ wOp w = 0x23 ∧ wF3 w < 4 ∧ n = 2 ^ wF3 w ∧ (pblkOf s b).domain = 0 ∧ placeOf s b c (effAddr (coreOf s b c) (wRs1 w) (immS w)) n = .phys a ∧ blockBase b ≤ a ∧ a + n ≤ blockBase b + 0x1000000 ∧ (∀ i < n, populated (a + i) = true) ∧ meetsDma s b c [(false, a, n)] = false ∧ floorHeld s a = false ∧ ((segs a n).all fun p => !poisoned s p.1) = true := by
  refine ⟨0, 0, 0x00008023, 0x1C000400000, 1, wPad none, ⟨by decide +kernel, by decide +kernel, rfl⟩, ⟨by decide +kernel, by decide +kernel, by decide +kernel⟩, by decide +kernel⟩

theorem witness_QueriesChangeNothing : ∃ (c : Instr) (s t : State), s.edits = [] ∧ (∃ via, (∃ g, c = .lodeQuery via g) ∨ c = .inventory via ∨ c = .imageStatus via ∨ c = .fwStatus via ∨ (∃ k n, c = .regQuery via k n) ∨ (∃ p, c = .drPortQuery via p) ∨ (∃ k n, c = .utQuery via k n) ∨ (∃ g p, c = .cqMirrorRead via g p) ∨ c = .pwrQuery via ∨ (∃ k n, c = .rasQuery via k n) ∨ (∃ n, c = .vaultQuery via n) ∨ (∃ h o n, c = .assayRead via h o n) ∨ (∃ f o, c = .evrRead via f o)) ∧ exec c s = .next t := by
  refine ⟨.inventory .relay, w0, _, by decide +kernel, (⟨.relay, Or.inr (Or.inl rfl)⟩), (rfl)⟩

/-! ### Ill-formed commands, one for each check -/

theorem test_ill_formed_1 : [.registerWrite (.host 2) 0 0 0, .rcRegisterRead 2 0 0, .lodeCreate .relay 0 [] [] 0 2 false, .lodeCreate (.member 0 0) 0 [] [] 0 0 false, .lodeDestroy (.member 0 0) 0, .lodeQuery (.member 0 0) 0, .blockMove (.member 0 0) 0 0 0 0, .channelMove (.member 0 0) 0 0 0 0, .granuleMigrate .relay 4294967296 [] 0 0, .granuleMigrate (.member 0 0) 0 [] 0 0, .creditMove .relay 32 0 0 0, .creditMove (.member 0 0) 0 0 0 0, .rebindAbort (.member 0 0) 0, .blockDrained 96, .epochDrained 96, .granuleCopyDone 96 0, .granuleCopyDone 0 8192, .endOfForward 96 0, .endOfForward 0 8192, .lmBlockDrainWrite .firmware 96 0, .lmBlockDrainWrite (.host 2) 0 0, .lmBlockDetach (.host 2), .lmBlockAttach (.host 2), .lmSetCutover (.host 2), .lmSetAttach (.host 2), .lmCreditMove (.host 2), .imageBegin (.member 0 0) 0 0, .imageData (.member 0 0) 0 0 [], .imageCommit (.member 0 0) 0, .imageAbort (.member 0 0) 0, .imageSelect (.member 0 0) 0 false, .imageConfirm (.member 0 0), .imageStatus (.member 0 0), .imagePolicySet (.member 0 0) 0 0 0 false [], .meIssue 96 0 0 0 0, .meIssue 0 32 0 0 0, .meIssue 0 0 32 0 0, .meIssue 0 0 0 32 0, .meIssue 0 0 0 0 32, .meLoad 96 0, .meLoad 0 4, .meMma 96 0, .meMma 0 4, .meAccRead 96 0, .meAccRead 0 4, .meStore 96 0, .meStore 0 4, .meTranspose 96 0, .meTranspose 0 4, .meReduceSend 96 0, .meReduceSend 0 4, .meAccLoad 96 0, .meAccLoad 0 4, .meCommandDone 96 0, .meCommandDone 0 4, .meBoundExpiry 96 0, .meBoundExpiry 0 4, .meClockGate 96 0, .meClockGate 0 4, .dmaIssue 96 0 0 0].all (fun i : Instr => !i.wf) = true := by decide +kernel

theorem test_ill_formed_2 : [.dmaIssue 0 32 0 0, .dmaIssue 0 0 32 0, .dmaIssue 0 0 0 32, .dmaCopy 128, .dmaConvert 128, .dmaFill 128, .windowPut 128, .windowGet 128, .dmaChunkDone 128 false, .semWait 96 0 0 0 0 0, .semWait 0 32 0 0 0 0, .semWait 0 0 32 0 0 0, .semWait 0 0 0 32 0 0, .semWait 0 0 0 0 32 0, .semWait 0 0 0 0 0 4, .semPost 96 0 0 0 0, .semPost 0 32 0 0 0, .semPost 0 0 32 0 0, .semPost 0 0 0 32 0, .semPost 0 0 0 0 4, .semTry 96 0 0 0 0 0, .semTry 0 32 0 0 0 0, .semTry 0 0 32 0 0 0, .semTry 0 0 0 32 0 0, .semTry 0 0 0 0 32 0, .semTry 0 0 0 0 0 4, .barArrive 96 0 0, .barArrive 0 32 0, .barArrive 0 0 32, .fenceS 96 0 0, .fenceS 0 32 0, .fenceS 0 0 128, .spwSel 96 0 0 0 0, .spwSel 0 32 0 0 0, .spwSel 0 0 32 0 0, .spwSel 0 0 0 32 0, .spwSel 0 0 0 0 32, .vcvt 96 0 0 0 0, .vcvt 0 32 0 0 0, .vcvt 0 0 32 0 0, .vcvt 0 0 0 32 0, .vcvt 0 0 0 0 32, .coreInstruction 96 0 0, .coreInstruction 0 32 0, .coreInstruction 0 0 4294967296, .coreLoadStore 96 0 0, .coreLoadStore 0 32 0, .coreLoadStore 0 0 4294967296, .coreAmo 96 0 0, .coreAmo 0 32 0, .coreAmo 0 0 4294967296, .coreLr 96 0 0, .coreLr 0 32 0, .coreLr 0 0 4294967296, .coreSc 96 0 0, .coreSc 0 32 0, .coreSc 0 0 4294967296, .coreFence 96 0 0 0, .coreFence 0 32 0 0, .coreFence 0 0 16 0].all (fun i : Instr => !i.wf) = true := by decide +kernel

theorem test_ill_formed_3 : [.coreFence 0 0 0 16, .gcClassWrite 96 0 0, .gcClassWrite 0 32 0, .gcDeadlineWrite 96 0 0, .gcDeadlineWrite 0 32 0, .gcSrSeedWrite 96 0 0, .gcSrSeedWrite 0 32 0, .svExit 96 0, .svExit 0 32, .svAbort 96 0, .svAbort 0 32, .svTrace 96 0, .svTrace 0 32, .coreException 96 0 0 0, .coreException 0 32 0 0, .tlbWalkDone 96 0, .tlbWalkDone 0 32, .launchStart 96, .launchComplete 96 0, .rowSpareRemap 96 0 [], .rowSpareRemap 0 4 [], .correctedError ⟨0, 0⟩, .patrolScrubLine 8 0 0 false, .patrolScrubLine 0 768 0 false, .pseudoChannelFailure 768, .evacuationStart 192, .evacuationResume 192, .xlTableRangeSet .relay 4294967296 0 0 0, .xlTableRangeSet (.member 0 0) 0 0 0 0, .xlMirrorWrite .relay 4294967296 0 0 0 0 [], .xlMirrorWrite (.member 0 0) 0 0 0 0 0 [], .xlInvalidate .relay 4294967296 none 0 0 0 ⟨0, 0⟩, .xlInvalidate (.member 0 0) 0 none 0 0 0 ⟨0, 0⟩, .invalidationComplete 4294967296, .xlFqSetup .relay 4294967296 0, .xlFqSetup (.member 0 0) 0 0, .xlDirtyStart .relay 4294967296 0 0 0, .xlDirtyStart (.member 0 0) 0 0 0 0, .xlDirtySync .relay 4294967296 0 false, .xlDirtySync (.member 0 0) 0 0 false, .xlDirtyStop .relay 4294967296 0, .xlDirtyStop (.member 0 0) 0 0, .translationFault 96 0, .translationFault 0 32, .faultRecordWrite 96 false, .faultqStallTimeout 96, .faultRetry 2 0 0, .faultRetry 0 96 0, .faultFail 2 0 0, .faultFail 0 96 0, .regCommit (.host 2) 0, .regMinSet (.member 0 0) 0 0 0, .regWeightSet (.member 0 0) 0 0, .regLodeBucketSet .relay 0 4294967296 0, .regLodeBucketSet (.member 0 0) 0 0 0, .regQuery (.member 0 0) false 0, .syncBind .relay 4294967296 0 0 0, .syncBind (.member 0 0) 0 0 0 0, .syncFree .relay 4294967296 0 0 0, .syncFree (.member 0 0) 0 0 0 0].all (fun i : Instr => !i.wf) = true := by decide +kernel

theorem test_ill_formed_4 : [.barArrivalsSet .relay 4294967296 0 0, .barArrivalsSet .relay 0 4096 0, .barArrivalsSet (.member 0 0) 0 0 0, .semPostApply 131072, .semWaitArrive 131072, .barArrivalApply 4096, .reductionPacketArrive 97 (aRed 0), .combineHoldExpiry 97, .drPortTrain 32 0, .trainingStepTimeout 32 0, .capabilityRecord 32 0 0 0 0 0 0, .capabilityRecord 0 0 0 16384 0 0 0, .capabilityRecord 0 0 0 0 18446744073709551616 0 0, .flitReceive 32 0 false [] 0, .replayRequest 32 0, .replayAckTimeout 32, .peerSilentTimeout 32, .laneRetire 32 0, .laneRetire 0 4, .lowrateWakeEvent 32, .packetForward 32 aPkt, .packetForward 0 { aPkt with vc := 8 }, .escWaitExpiry 32, .creditReturn 32 0 0 none, .creditReturn 0 8 0 none, .windowPacketReceive 32 aPkt, .windowPacketReceive 0 { aPkt with vc := 8 }, .switchCombineArrive { aPkt with vc := 8 }, .windowResponse { aPkt with vc := 8 }, .drPortSet .relay 32 false false 0, .drPortSet (.member 0 0) 0 false false 0, .drPortQuery .relay 32, .drPortQuery (.member 0 0) 0, .drRouteSet (.member 0 0) 0 [], .drWindowOpen .relay 0 0 4294967296 0 0 0 0 0 0 0 0 0, .drWindowOpen (.member 0 0) 0 0 0 0 0 0 0 0 0 0 0 0, .drWindowClose (.member 0 0) 0 0 ⟨0, 0⟩, .windowCloseDrained 4096, .drWindowQuery (.member 0 0) 0 0, .drTimingSet (.member 0 0) 0 0 0 false, .drPortRetrain .firmware 32, .drPortRetrain (.host 2) 0, .drPortEnableWrite .firmware 32 false, .drPortEnableWrite (.host 2) 0 false, .drPortLowrateWrite .firmware 32 false, .drPortLowrateWrite (.host 2) 0 false, .peerLost 16384, .utDevidSet (.member 0 0) 0, .utPoolMove (.member 0 0) 0 0 0, .utLodeExtend .relay 4294967296 0 0 [] [], .utLodeExtend (.member 0 0) 0 0 0 [] [], .utLodeShrink .relay 4294967296 0, .utLodeShrink (.member 0 0) 0 0, .utHandoff (.member 0 0) 0 0 0 0 0 ⟨0, 0⟩, .utNotice (.member 0 0) 0 0, .utRelease .relay 4294967296, .utRelease (.member 0 0) 0, .utQuery (.member 0 0) false 0, .portReset 2, .drvMaxWrite 2 0].all (fun i : Instr => !i.wf) = true := by decide +kernel

theorem test_ill_formed_5 : [.apertureAccess 2 0 false 0 [], .mbGo 2 0 0 [], .mbGo 0 8 0 [], .inventory (.member 0 0), .pasidBind .relay 4294967296 0 0, .pasidBind .relay 0 2 0, .pasidBind (.member 0 0) 0 0 0, .pasidUnbind .relay 4294967296, .pasidUnbind (.member 0 0) 0, .apertureMap .relay 2 0 0 0 0, .apertureMap (.member 0 0) 0 0 0 0 0, .apertureUnmap .relay 2 0, .apertureUnmap (.member 0 0) 0 0, .confKeySet .relay 4294967296 [], .confKeySet (.member 0 0) 0 [], .confRingSetup .relay 4294967296 0 0, .confRingSetup (.member 0 0) 0 0 0, .sqTailWrite 2 0 0, .sqTailWrite 0 96 0, .recordTake 96 0 false, .waitEvaluate 96 0, .opLaunch 96 0, .opCopy 96 0, .opConvert 96 0, .opFill 96 0, .opReduce 96 0, .opMatmul 96 0, .opSignal 96 0, .commandEnd 96 0 false, .queueSetup .relay 4294967296 0 0 0 0 0 0 0, .queueSetup (.member 0 0) 0 0 0 0 0 0 0 0, .queueDestroy .relay 4294967296 ⟨0, 0⟩, .queueDestroy (.member 0 0) 0 ⟨0, 0⟩, .queueDestroyDrained 96, .queueRestart .relay 4294967296 0, .queueRestart (.member 0 0) 0 0, .ctxTeardown (.member 0 0) 0 ⟨0, 0⟩, .ctxTeardownDrained 4096, .cqMirrorRead .relay 4294967296 0, .cqMirrorRead (.member 0 0) 0 0, .ctxCreate .relay 4294967296 0 0 0 0 0, .ctxCreate (.member 0 0) 0 0 0 0 0 0, .ctxRootSet (.member 0 0) 0 0 0, .ctxSet (.member 0 0) 0 0 0 0 0, .schSaveReserve .relay 4294967296 0 0, .schSaveReserve (.member 0 0) 0 0 0, .schLodeSet .relay 4294967296 0 0, .schLodeSet (.member 0 0) 0 0 0, .tallyRead (.member 0 0) false 0 false, .sliceQuiesce .relay 4294967296 0, .sliceQuiesce (.member 0 0) 0 0, .quiesceTimeout 96, .sliceMove .relay 4294967296 0 0, .sliceMove .relay 0 0 2, .sliceMove (.member 0 0) 0 0 0, .sliceResume .relay 4294967296, .sliceResume (.member 0 0) 0, .quantumExpiry 96, .idleExpiry 96, .cyclicGuard 96].all (fun i : Instr => !i.wf) = true := by decide +kernel

theorem test_ill_formed_6 : [.cyclicSlotStart 96, .contextStopped 96 0 0, .switchComplete 96 0, .overrunTeardown 96, .assayQuote .relay 4294967296 [], .assayQuote (.member 0 0) 0 [], .assayRead (.member 0 0) 0 0 0, .secEnrol (.member 0 0), .secImageAuthSet (.member 0 0) [] 0 [], .vaultQuery (.member 0 0) 0, .vaultRevoke (.member 0 0) 0, .fwBegin (.member 0 0) 0 0, .fwData (.member 0 0) 0 0 [], .fwCommit (.member 0 0) 0, .fwAbort (.member 0 0) 0, .fwSelect (.member 0 0) 0 false, .fwConfirm (.member 0 0), .fwStatus (.member 0 0), .hbmTrainingAttemptDone 24 [], .startupAgentTimeout 96, .blockRetention 96, .domainWake 0 4294967296, .pwrStateSet (.member 0 0) 0 0, .pwrPolicySet (.member 0 0) 0 0 0, .pwrQuery (.member 0 0), .pwrRestart (.member 0 0), .vreqWrite .firmware 8 0, .vreqWrite (.host 2) 0 0, .reqWrite .firmware 96 0, .reqWrite (.host 2) 0 0, .voltageSettled 8, .governorCapFollow 96, .thermalSample 130 0, .thermalTcapStep 8, .hbmTempReport 24 0, .queueWatchdogExpiry 96, .watchdogDrainTimeout 96, .fabricWatchdogExpiry 8 false, .unitFault ⟨0, 0⟩ false 0, .deferredRetirement ⟨0, 0⟩, .cellReset 96 false 0, .cellReset 0 false 32, .blockReset 96 0, .blockAgentFirstHeartbeat 96, .regionReset 8 0, .resetTimeout (.region 8), .rasQuery (.member 0 0) 0 0, .rasCaptureSetup .relay 2 0 0, .rasCaptureSetup (.member 0 0) 0 0 0, .canSet .relay 4294967296 0, .canSet (.member 0 0) 0 0, .rasReset .relay 4 0, .rasReset (.member 0 0) 0 0, .rasUnretire .relay 32 0, .rasUnretire (.member 0 0) 0 0, .eventRecordAccept 0 0 0 0 4294967296 0 0, .evrRead (.member 0 0) 0 0, .evrChallenge (.member 0 0), .evrClear (.member 0 0) 0 0 0 false [], .perstAssert 2].all (fun i : Instr => !i.wf) = true := by decide +kernel

theorem test_ill_formed_7 : [.perstRelease 2, .cmaCommit .firmware 96, .cmaCommit (.host 2) 0, .cmaDirectWrite .firmware 96 false, .cmaDirectWrite (.host 2) 0 false, .cmaShareWrite .firmware 96 0, .cmaShareWrite (.host 2) 0 0, .cmaSafePoint 96, .cmaHoldExpiry 96, .consumerPositionWrite 2 0 0x018 0, .consumerPositionWrite 0 96 0x018 0, .consumerPositionWrite 0 0 0 0, .bar4Resize 2 0, .coreCellClockGate 96 0, .coreCellClockGate 0 32, .cmaCommitHoldExpiry 96, .linkSignalDetect 32 0, .joinReply 16384 0, .controlPacketReceive { aPkt with vc := 8 } 0 []].all (fun i : Instr => !i.wf) = true := by decide +kernel

/-- Each of the terms above is ill-formed in one operand alone: with that operand at its lowest number the term is well-formed. -/
theorem test_well_formed : [.registerWrite .firmware 0 0 0, .rcRegisterRead 0 0 0, .lodeCreate .relay 0 [] [] 0 0 false, .lodeDestroy .relay 0, .lodeQuery .relay 0, .blockMove .relay 0 0 0 0, .channelMove .relay 0 0 0 0, .granuleMigrate .relay 0 [] 0 0, .creditMove .relay 0 0 0 0, .rebindAbort .relay 0, .blockDrained 0, .rebindDrainTimeout 0, .epochDrained 0, .granuleCopyDone 0 0, .endOfForward 0 0, .staleEpochRetry 0, .lmBlockDrainWrite .firmware 0 0, .lmBlockDetach .firmware, .lmBlockAttach .firmware, .lmSetCutover .firmware, .lmSetAttach .firmware, .lmCreditMove .firmware, .lmStageHoldExpiry, .imageBegin .relay 0 0, .imageData .relay 0 0 [], .imageCommit .relay 0, .imageAbort .relay 0, .imageSelect .relay 0 false, .imageConfirm .relay, .imageStatus .relay, .imagePolicySet .relay 0 0 0 false [], .imageSessionTimeout, .meIssue 0 0 0 0 0, .meLoad 0 0, .meMma 0 0, .meAccRead 0 0, .meStore 0 0, .meTranspose 0 0, .meReduceSend 0 0, .meAccLoad 0 0, .meCommandDone 0 0, .meBoundExpiry 0 0, .meClockGate 0 0, .reduceAck 0 0 0, .dmaIssue 0 0 0 0, .dmaCopy 0, .dmaConvert 0, .dmaFill 0, .windowPut 0, .windowGet 0, .dmaChunkDone 0 false, .semWait 0 0 0 0 0 0, .semPost 0 0 0 0 0, .semTry 0 0 0 0 0 0, .barArrive 0 0 0, .fenceS 0 0 0, .spwSel 0 0 0 0 0, .vcvt 0 0 0 0 0, .coreInstruction 0 0 0, .coreLoadStore 0 0 0, .coreAmo 0 0 0, .coreLr 0 0 0, .coreSc 0 0 0, .coreFence 0 0 0 0, .gcClassWrite 0 0 0, .gcDeadlineWrite 0 0 0, .gcSrSeedWrite 0 0 0, .svExit 0 0, .svAbort 0 0, .svTrace 0 0, .coreException 0 0 0 0, .tlbWalkDone 0 0, .launchStart 0, .launchComplete 0 0, .rowSpareRemap 0 0 [], .memoryRequest wReq, .arbiterServe 0, .correctedError ⟨5, 0⟩, .uncorrectableError (.hbm 0 0 none), .patrolScrubLine 0 0 0 false].all Instr.wf = true ∧
    [.pseudoChannelFailure 0, .evacuationStart 0, .evacuationResume 0, .xlTableRangeSet .relay 0 0 0 0, .xlMirrorWrite .relay 0 0 0 0 0 [], .xlInvalidate .relay 0 none 0 0 0 ⟨0, 0⟩, .invalidationComplete 0, .xlFqSetup .relay 0 0, .xlDirtyStart .relay 0 0 0 0, .xlDirtySync .relay 0 0 false, .xlDirtyStop .relay 0 0, .translationFault 0 0, .faultRecordWrite 0 false, .faultqStallTimeout 0, .faultRetry 0 0 0, .faultFail 0 0 0, .deadlineTick 0, .bucketRefill, .regCommit .firmware 0, .regCommitHoldExpiry, .regMinSet .relay 0 0 0, .regWeightSet .relay 0 0, .regLodeBucketSet .relay 0 0 0, .regQuery .relay false 0, .syncBind .relay 0 0 0 0, .syncFree .relay 0 0 0 0, .barArrivalsSet .relay 0 0 0, .semPostApply 0, .semWaitArrive 0, .barArrivalApply 0, .reductionPacketArrive 0 (aRed 0), .combineHoldExpiry 0, .reductionApply (aRed 0), .drPortTrain 0 0, .trainingStepTimeout 0 0, .capabilityRecord 0 0 0 0 0 0 0, .flitReceive 0 0 false [] 0, .replayRequest 0 0, .replayAckTimeout 0, .peerSilentTimeout 0, .laneRetire 0 0, .lowrateWakeEvent 0, .packetForward 0 aPkt, .escWaitExpiry 0, .creditReturn 0 0 0 none, .windowPacketReceive 0 aPkt, .switchCombineArrive aPkt, .drCombHoldExpiry, .windowResponse aPkt, .drTimeoutExpiry 0, .drPortSet .relay 0 false false 0, .drPortQuery .relay 0, .drRouteSet .relay 0 [], .drWindowOpen .relay 0 0 0 0 0 0 0 0 0 0 0 0, .drWindowClose .relay 0 0 ⟨0, 0⟩, .windowCloseDrained 0, .drWindowQuery .relay 0 0, .drTimingSet .relay 0 0 0 false, .drPortRetrain .firmware 0, .drPortEnableWrite .firmware 0 false, .drPortLowrateWrite .firmware 0 false, .heartbeatSend, .peerLost 0, .utHeartbeat (aMsg 0 []), .utPrepare (aMsg 0 []), .utPrepared (aMsg 0 []), .utPrepareTimeout 0, .utCommit (aMsg 0 []), .utCommitted (aMsg 0 []), .utAbort (aMsg 0 []), .utTakeover (aMsg 0 []), .utOffer (aMsg 0 []), .utAdopted (aMsg 0 []), .utRevoke (aMsg 0 []), .utJoin (aMsg 0 []), .utPool (aMsg 0 []), .poolTick, .utDevidSet .relay 0, .utPoolMove .relay 0 0 0, .utLodeExtend .relay 0 0 0 [] []].all Instr.wf = true ∧
    [.utLodeShrink .relay 0 0, .utHandoff .relay 0 0 0 0 0 ⟨0, 0⟩, .utNotice .relay 0 0, .utRelease .relay 0, .utQuery .relay false 0, .portReset 0, .drvMaxWrite 0 0, .apertureAccess 0 0 false 0 [], .mbGo 0 0 0 [], .sidebandRequest 0 0 0 [], .inventory .relay, .pasidBind .relay 0 0 0, .pasidUnbind .relay 0, .apertureMap .relay 0 0 0 0 0, .apertureUnmap .relay 0 0, .confKeySet .relay 0 [], .confRingSetup .relay 0 0 0, .hostReadCompletion 0 false [], .sqTailWrite 0 0 0, .recordTake 0 0 false, .waitEvaluate 0 0, .opLaunch 0 0, .opCopy 0 0, .opConvert 0 0, .opFill 0 0, .opReduce 0 0, .opMatmul 0 0, .opSignal 0 0, .commandEnd 0 0 false, .queueSetup .relay 0 0 0 0 0 0 0 0, .queueDestroy .relay 0 ⟨0, 0⟩, .queueDestroyDrained 0, .queueRestart .relay 0 0, .ctxTeardown .relay 0 ⟨0, 0⟩, .ctxTeardownDrained 0, .cqMirrorRead .relay 0 0, .scrubEnd 0, .ctxCreate .relay 0 0 0 0 0 0, .ctxRootSet .relay 0 0 0, .ctxSet .relay 0 0 0 0 0, .schSaveReserve .relay 0 0 0, .schLodeSet .relay 0 0 0, .tallyRead .relay false 0 false, .sliceQuiesce .relay 0 0, .quiesceTimeout 0, .sliceMove .relay 0 0 0, .sliceResume .relay 0, .quantumExpiry 0, .idleExpiry 0, .cyclicGuard 0, .cyclicSlotStart 0, .contextStopped 0 0 0, .switchComplete 0 0, .overrunTeardown 0, .assayQuote .relay 0 [], .assayRead .relay 0 0 0, .assayHandleLapse 0 0, .xmssReservationWritten false, .secEnrol .relay, .secImageAuthSet .relay [] 0 [], .vaultQuery .relay 0, .vaultRevoke .relay 0, .orphanZeroise 0, .vaultRemask 0 0, .fwBegin .relay 0 0, .fwData .relay 0 0 [], .fwCommit .relay 0, .fwAbort .relay 0, .fwSelect .relay 0 false, .fwConfirm .relay, .fwStatus .relay, .alarmRaise 0, .powerFailure 0, .railsInRange, .chipStartup [], .hbmTrainingAttemptDone 0 [], .bootStepTimeout, .startupAgentTimeout 0, .xtalFail, .blockRetention 0].all Instr.wf = true ∧
    [.bridgeClockGate 0, .domainWake 0 0, .pwrStateSet .relay 0 0, .autoDozeExpiry, .chipSleepEntry, .chipWake, .wakeTick, .pwrPolicySet .relay 0 0 0, .pwrQuery .relay, .pwrRestart .relay, .vreqWrite .firmware 0 0, .reqWrite .firmware 0 0, .voltageSettled 0, .governorCapFollow 0, .powerSample [] 0, .computeLoopStep false, .memoryLoopStep, .linkLoopStep [], .thermalSample 0 0, .thermalTcapStep 0, .thermalShutdown, .thermalPowerOff, .thermalRestart, .hbmTempReport 0 0, .canaryHeartbeat [] false, .canaryCheck, .queueWatchdogExpiry 0, .watchdogDrainTimeout 0, .fabricWatchdogExpiry 0 false, .unitFault ⟨5, 0⟩ false 0, .deferredRetirement ⟨5, 0⟩, .wireGroupFailure 0, .cellReset 0 false 0, .blockReset 0 0, .captureTimeout 0, .blockAgentFirstHeartbeat 0, .regionReset 0 0, .chipReset 0, .resetTimeout .chip, .rasQuery .relay 0 0, .rasCaptureSetup .relay 0 0 0, .canSet .relay 0 0, .rasReset .relay 0 0, .rasUnretire .relay 0 0, .eventRecordAccept 0 0 0 0 0 0 0, .eventRecordProgrammed, .opsecTick, .evrRead .relay 0 0, .evrChallenge .relay, .evrChallengeLapse, .evrClear .relay 0 0 0 false [], .moduleResetAssert false, .moduleResetRelease false, .perstAssert 0, .perstRelease 0, .cmaCommit .firmware 0, .cmaDirectWrite .firmware 0 false, .cmaShareWrite .firmware 0 0, .cmaSafePoint 0, .cmaHoldExpiry 0, .consumerPositionWrite 0 0 0x018 0, .bar4Resize 0 0, .fwSessionTimeout, .slotProgramDone false [], .clearErasureDone, .lampRailChange false false, .mainLowChange false, .coreCellClockGate 0 0, .cmaCommitHoldExpiry 0, .linkSignalDetect 0 0, .joinReply 0 0, .controlPacketReceive aPkt 0 [], .dutyPhaseChange].all Instr.wf = true := by decide +kernel

theorem test_ill_formed_via : [Via.mailbox 2 0, .mailbox 0 8, .member 0 0].all (fun v => !v.wf) = true := by decide
theorem test_ill_formed_writer : [Writer.host 2, .blockAgent 96, .core 96 0, .core 0 32].all (fun w => !w.wf) = true := by decide
theorem test_ill_formed_unit : [HwUnit.mk 0 0, ⟨1, 3456⟩, ⟨2, 384⟩, ⟨3, 96⟩, ⟨4, 32⟩, ⟨5, 768⟩, ⟨6, 512⟩, ⟨7, 128⟩, ⟨8, 576⟩, ⟨10, 0⟩].all (fun u => !u.wf) = true := by
  decide
theorem test_ill_formed_packet : [{ aPkt with vc := 8 }, { aPkt with ddev := 16384 }, { aPkt with sdev := 16384 }, { aPkt with cls := 64 }].all
    (fun p => !p.wf) = true := by decide
theorem test_ill_formed_domain : [Domain.cell 96 true 0, .cell 0 true 4, .cell 0 false 32, .block 96, .region 8].all (fun d => !d.wf) = true := by decide
/-! ### The worked examples of the spec -/

/-- Chapter 7: lode memory address 0x9_1003_4A80 of a lode whose granule 145 is slot 9 of set 17. -/
theorem test_lode_address : resolve { w0 with lm := { sets := [(17, ⟨2, 544, 16, 0⟩)], chan := [(145, { valid := true, set := 17, slot := 9 })] } } 0
    0x910034A80 = some 0x11509003480 := by decide +kernel

/-- Chapter 5: the row's offset byte, its five elements in DLG8 (13.7, 2.5, −0.42, 0.0031, 0.00001) and read back as BF16. -/
theorem test_dlg8_row : dlgOffset ([0x415B3333, 0x40200000, 0xBED70A3D, 0x3B4B295F, 0x3727C5AC].map fun v => decodeElem 0 v 0) = 4 ∧
    [0x415B3333, 0x40200000, 0xBED70A3D, 0x3B4B295F, 0x3727C5AC].map (fun v => (encodeElem 13 0 0 false (some 4) (decodeElem 0 v 0)).1) =
      [0x7D, 0x6A, 0xD5, 0x1C, 0x00] ∧
    [0x7D, 0x6A, 0xD5, 0x1C, 0x00].map (fun v => (encodeElem 2 0 0 false none (decodeElem 13 v 4)).1) = [0x4157, 0x4026, 0xBED7, 0x3B45, 0] := by
  decide +kernel

/-- Chapter 5: neither descriptor fails a check of R151. -/
theorem test_descriptors : cvCheck (0x00000000000400D0 + 0x000007FC00000000 * 2 ^ 64 + 0x0010000040000000 * 2 ^ 192) 0x10000 2048 0x20000 = 0 ∧
    cvCheck (0x000000000001002D + 0x000007FC00000000 * 2 ^ 64 + 0x0002000008000000 * 2 ^ 128) 0x10000 512 0x20000 = 0 := by decide +kernel

/-- Chapter 4: the first MMA of a panel. -/
theorem test_mma_command : (fun c => [cOp c, cRows c, cCols c, cK c, fld c 12 4, fld c 8 4, (mmaA c).start, (mmaA c).stride, (mmaB c).start, (mmaB c).stride,
      (mmaAS c).start, (mmaBS c).start, (mmaAS c).stride, (mmaBS c).stride, fld c 42 1, meCheck w0 0 0 c])
      (0x00001BFFF1E03302 + 0x8800020000010000 * 2 ^ 64 + 0xA800030000040000 * 2 ^ 128) =
    [2, 128, 128, 512, 3, 3, 0x1100 * 64, 512, 0, 1024, 0x1500 * 64, 0x1000 * 64, 16, 16, 0, 0] := by decide +kernel

/-- Chapter 6: the first eight bytes of the DMA request. -/
theorem test_dma_request : (fun q => (qKind q, qTarget q, qPost q, qSem q)) 0x900A000000000001 = (1, 0, true, 0x4028) := by decide +kernel

/-- Chapter 23: the block's floors before the change, with the first write alone, and after both. -/
theorem test_floors : cmaOk 0x403004 = true ∧ cmaOk 0x403008 = false ∧ cmaOk 0x303008 = true := by decide +kernel

/-- Chapter 17: S's pinned point is 7, where 20 W a block stand beside a rated 19.5 W, and a compute average of 1,860 W exceeds 60 % of 2,800 W. -/
theorem test_power : pinnedPoint { w0 with
      lm := { lodes := [(0, { gid := 5, state := 2, sealed := true })], blocks := (List.range 16).map fun b => (b, { state := 1, slot := b, lode := 0 }) }
      img := { applied := { capW := 2800, sealedW := 320 } }
      pwr := { vtable := [(7, { mhz := 1050, mv := 840, pblock := 195 })] } } 0 = 7 ∧
    computeBudget { w0 with img := { applied := { capW := 2800 } } } = 1680 := by decide +kernel

/-- Chapter 19: the record of a pseudo-channel classified permanent, and the band of its severity. -/
theorem test_record : (fun b => [unle (slice b 0 8), unle (slice b 8 4), unle (slice b 16 8), unle (slice b 24 8), b.length])
      (rawRecord { typ := 0x903, sev := 5, seq := 0x00012A4F, ops := 0x05123C80, gid := 0x00070012, detail := 2, dev := 7, num := 554, kind := 5, code := 0x0901 }) =
    [0x8000012A4F903A01, 0x0005123C, 0x0007022A00050901, 0x0007001200000002, 32] ∧ bandOf 5 = 1 := by decide +kernel


/-- V 1.0: a saturating sum sets `vxsat`; a gather reads elements by index and gives 0 beyond the group; a reciprocal estimate of 1. -/
theorem test_vector : (vecArith { vtype := 0x10, vl := 2, v := [(2, 0x7FFFFFFF00000001), (3, 0x000000020000000A)] } 0x862181D7 |>.map fun k =>
      ((tget 0 k.v 3).toNat, k.vcsr)) = some (0x7FFFFFFF0000000B, 1) ∧
    (vecArith { vtype := 0x10, vl := 2, v := [(2, 0x7FFFFFFF00000001), (3, 0x0000000100000010)] } 0x32218257 |>.map fun k =>
      (tget 0 k.v 4).toNat) = some 0x7FFFFFFF00000000 ∧
    (vecArith { vtype := 0x10, vl := 1, v := [(2, 0x3F800000)] } 0x4E229257 |>.map fun k => (tget 0 k.v 4).toNat) = some 0x3F7F0000 := by
  decide +kernel
end Sys2Proof.Tests
end

namespace Sys2Proof.Proofs

/-- Settles O42: the codes are constants, so each rule's list of codes evaluates to the rule's list of numbers. -/
theorem errorCodesHaveTheirValues : Obligations.ErrorCodesHaveTheirValues := by
  unfold Obligations.ErrorCodesHaveTheirValues
  refine ⟨?lodesAndEpochs, ?matrixEngines, ?conversions, ?cores, ?memory, ?translation, ?mesh, ?drift, ?hostPort⟩
  case lodesAndEpochs => rfl -- R58
  case matrixEngines => rfl -- R125
  case conversions => rfl -- R157
  case cores => rfl -- R186
  case memory => rfl -- R213
  case translation => rfl -- R244
  case mesh => rfl -- R300
  case drift => rfl -- R342
  case hostPort => rfl -- R391

end Sys2Proof.Proofs

/-! ### Integer elements and E8M0 scales (R130, R131) -/

namespace Sys2Proof.Proofs
open Sys2Proof.Machine

/-- The model's signed reading of the low `w` bits is the library's two's complement reading. -/
theorem sgn_eq_toInt (w b : Nat) : sgn w b = (BitVec.ofNat w b).toInt := by
  have hpow : b % 2 ^ w < 2 ^ (w - 1) ↔ 2 * (b % 2 ^ w) < 2 ^ w := by
    cases w with
    | zero => simp [Nat.mod_one]
    | succ k => rw [Nat.add_sub_cancel, Nat.pow_succ]; omega
  simp only [sgn, BitVec.toInt_eq_toNat_cond, BitVec.toNat_ofNat, hpow]
  push_cast
  rfl

theorem sgn_lower (w b : Nat) : -2 ^ (w - 1) ≤ sgn w b := by
  rw [sgn_eq_toInt]
  exact BitVec.le_toInt _

theorem sgn_upper (w b : Nat) : sgn w b ≤ 2 ^ (w - 1) - 1 := by
  rw [sgn_eq_toInt]
  exact Int.le_sub_one_of_lt BitVec.toInt_lt

theorem wrapInt_lt (w : Nat) (v : Int) : wrapInt w v < 2 ^ w :=
  (BitVec.ofInt w v).isLt

/-- A signed number of `w` bits is read back from its low `w` bits. -/
theorem sgn_wrapInt {w : Nat} {v : Int} (hw : 0 < w) (hlo : -2 ^ (w - 1) ≤ v) (hhi : v ≤ 2 ^ (w - 1) - 1) :
    sgn w (wrapInt w v) = v := by
  have hof : BitVec.ofNat w (wrapInt w v) = BitVec.ofInt w v :=
    BitVec.eq_of_toNat_eq (Nat.mod_eq_of_lt (wrapInt_lt w v))
  rw [sgn_eq_toInt, hof]
  exact BitVec.toInt_ofInt_eq_self hw hlo (by omega)

/-- An element of an integer format is its bits read as a signed number, whatever the offset byte. -/
theorem decodeElem_int {code w : Nat} (hflt : fltOf code = none) (hint : intOf code = some w) (b o : Nat) :
    decodeElem code b o = .fin (decide (sgn w b < 0)) (sgn w b).natAbs 0 := by
  simp only [decodeElem, hflt, hint]

/-- A sign and a magnitude taken from an integer give the integer back. -/
theorem signed_natAbs (v : Int) : (if decide (v < 0) = true then -(v.natAbs : Int) else v.natAbs) = v := by
  by_cases hneg : v < 0
  · rw [if_pos (decide_eq_true hneg)]
    omega
  · rw [if_neg (mt of_decide_eq_true hneg)]
    omega

theorem toUnits_zero_fin (n : Bool) (m : Nat) : Machine.toUnits 0 (.fin n m 0) = if n = true then -(m : Int) else m := by
  cases n <;> simp [Machine.toUnits]

theorem toUnits_decodeElem_int {code w : Nat} (hflt : fltOf code = none) (hint : intOf code = some w) (b o : Nat) :
    Machine.toUnits 0 (decodeElem code b o) = sgn w b := by
  rw [decodeElem_int hflt hint, toUnits_zero_fin, signed_natAbs]

/-- The three integer codes of R131 and their widths. -/
theorem intOf_of_code {code w : Nat} (h : (code = 10 ∧ w = 32) ∨ (code = 8 ∧ w = 8) ∨ (code = 9 ∧ w = 4)) :
    fltOf code = none ∧ intOf code = some w ∧ 0 < w := by
  rcases h with ⟨rfl, rfl⟩ | ⟨rfl, rfl⟩ | ⟨rfl, rfl⟩ <;> exact ⟨rfl, rfl, by decide⟩

/-- The value of an E8M0 byte (R130). -/
theorem decodeElem_e8m0 (x o : Nat) :
    decodeElem 11 x o = if x % 256 = 255 then .nan else .fin false 1 ((x % 256 : Nat) - 127) := rfl

/-- Settles O46: an integer element is the two's complement reading of its bits, and `wrapInt` gives a code for every
value of the range; the E8M0 clauses are R130's two cases. -/
theorem integerAndScaleValues : Obligations.IntegerAndScaleValues := by
  unfold Obligations.IntegerAndScaleValues
  refine ⟨fun code w hcode => ?integers, fun x o hx => ?power, fun o => ?nan⟩
  case integers =>
    obtain ⟨hflt, hint, hw⟩ := intOf_of_code hcode
    refine ⟨fun b o _ => ?value, fun v hlo hhi => ?reached, fun b o _ => ?range⟩
    case value => exact ⟨_, _, decodeElem_int hflt hint b o, by rw [signed_natAbs, sgn_eq_toInt]⟩
    case reached =>
      refine ⟨wrapInt w v, wrapInt_lt w v, fun o => ?_⟩
      rw [decodeElem_int hflt hint, sgn_wrapInt hw hlo hhi]
    case range =>
      rw [toUnits_decodeElem_int hflt hint]
      exact ⟨sgn_lower w b, sgn_upper w b⟩
  case power =>
    have hmod : x % 256 = x := by omega
    rw [decodeElem_e8m0, hmod, if_neg (by omega)]
  case nan => rw [decodeElem_e8m0, if_pos rfl]

end Sys2Proof.Proofs

/-! ### DLG8 elements (R137) -/

namespace Sys2Proof.Proofs
open Sys2Proof.Machine

/-- The value of a DLG8 byte that is neither zero nor NaN: R137 with c − 127 = 8q + j. -/
theorem dlgDecode_finite {b c j : Nat} {q : Int} (o : Int) (hb : b % 128 = c) (hc : 1 ≤ c) (hj : j < 8)
    (hq : (c : Int) - 127 = 8 * q + j) : dlgDecode b o = .fin (b.testBit 7) (dlgT j) (q + o - 23) := by
  have hindex : (c + 1) % 8 = j := by omega
  have hfloor : ((c : Int) + 1) / 8 - 16 = q := by omega
  simp only [dlgDecode, hb, hindex, hfloor]
  rw [if_neg (by omega), if_neg (by omega)]

/-- The entries of T are the binary32 numbers nearest to the eighth roots of two: in units of 2^−23, 2^(j/8) lies within
half a unit of T[j], compared after raising both sides to the eighth power. -/
theorem dlgT_nearest {j : Nat} (hj : j < 8) :
    2 ^ 23 ≤ dlgT j ∧ dlgT j < 2 ^ 24 ∧ (2 * dlgT j - 1) ^ 8 < 2 ^ (8 * 24 + j) ∧ 2 ^ (8 * 24 + j) < (2 * dlgT j + 1) ^ 8 := by
  decide +revert

/-- Settles O47: the decoder's table index and exponent are the remainder and the quotient of c − 127 by 8, and the eight
entries of T are checked one by one. -/
theorem dlg8Values : Obligations.Dlg8Values := by
  unfold Obligations.Dlg8Values
  refine ⟨fun c j q o hc hle hj hq => ⟨?positive, ?negative⟩, fun j hj => dlgT_nearest hj⟩
  case positive =>
    have hsign : c.testBit 7 = false := Nat.testBit_lt_two_pow (by omega)
    rw [dlgDecode_finite o (by omega) hc hj hq, hsign]
  case negative =>
    have hsign : (128 + c).testBit 7 = true := by
      rw [show 128 = 2 ^ 7 from rfl, Nat.testBit_two_pow_add_eq, Nat.testBit_lt_two_pow (by omega)]
      rfl
    rw [dlgDecode_finite o (by omega) hc hj hq, hsign]

end Sys2Proof.Proofs

/-! ### Packed elements (R5, R132) -/

namespace Sys2Proof.Proofs
open Sys2Proof.Machine

/-- The bytes from `k` on are byte `k` and 256 times the rest; a byte beyond the end counts as 0. -/
theorem unle_drop (bs : List Byte) (k : Nat) : unle (bs.drop k) = (bs.getD k 0).toNat + 256 * unle (bs.drop (k + 1)) := by
  induction bs generalizing k with
  | nil => simp [unle]
  | cons b bs ih =>
    cases k with
    | zero => rfl
    | succ k => exact ih k

theorem unle_div_two_pow (bs : List Byte) (k : Nat) : unle bs / 2 ^ (8 * k) = unle (bs.drop k) := by
  induction k with
  | zero => simp
  | succ k ih =>
    have hbyte : (bs.getD k 0).toNat < 256 := BitVec.isLt _
    rw [Nat.mul_succ, Nat.pow_add, ← Nat.div_div_eq_div_mul, ih, unle_drop]
    omega

/-- The number in the low bytes of a number is the number, cut to those bytes. -/
theorem unle_le (n v : Nat) : unle (le n v) = v % 2 ^ (8 * n) := by
  induction n generalizing v with
  | zero => simp [le, unle, Nat.mod_one]
  | succ n ih =>
    have hhead : unle (le (n + 1) v) = v % 256 + 256 * (v / 256 % 2 ^ (8 * n)) := by
      rw [← ih]
      rfl
    rw [hhead, Nat.mul_succ, Nat.add_comm (8 * n), Nat.pow_add, Nat.mod_mul]

/-- A field of a little-endian number that begins past byte `k` is a field of the bytes from `k` on. -/
theorem fld_unle_drop (bs : List Byte) (k lo w : Nat) : fld (unle bs) (8 * k + lo) w = fld (unle (bs.drop k)) lo w := by
  rw [fld, fld, Nat.pow_add, ← Nat.div_div_eq_div_mul, unle_div_two_pow]

/-- A field does not see what is added above its top bit. -/
theorem fld_add_high {v lo w t : Nat} (h : lo + w ≤ t) (rest : Nat) : fld (v + rest * 2 ^ t) lo w = fld v lo w := by
  have hsplit : rest * 2 ^ t = rest * 2 ^ (t - (lo + w)) * 2 ^ w * 2 ^ lo := by
    rw [Nat.mul_assoc, Nat.mul_assoc, ← Nat.pow_add, ← Nat.pow_add]
    congr 2
    omega
  rw [fld, fld, hsplit, Nat.add_mul_div_right _ _ (Nat.two_pow_pos lo), Nat.add_mul_mod_self_right]

/-- Element `i` of a packed string is the field at bit `i` times the element's width. -/
theorem unpack_getD {code n i : Nat} (bs : List Byte) (hi : i < n) :
    (unpack code n bs).getD i 0 = fld (unle bs) (fmtBits code * i) (fmtBits code) := by
  simp [unpack, hi]

/-- R132: 4-bit elements lie two to a byte, the lower half first. -/
theorem unpack_getD_four_bits {code n : Nat} (bs : List Byte) (hcode : fmtBits code = 4) (i : Nat) :
    (2 * i < n → (unpack code n bs).getD (2 * i) 0 = (bs.getD i 0).toNat % 16) ∧
    (2 * i + 1 < n → (unpack code n bs).getD (2 * i + 1) 0 = (bs.getD i 0).toNat / 16) := by
  have hbyte : (bs.getD i 0).toNat < 256 := BitVec.isLt _
  refine ⟨fun h => ?low, fun h => ?high⟩
  case low =>
    rw [unpack_getD bs h, hcode, show 4 * (2 * i) = 8 * i + 0 by omega, fld_unle_drop, fld, unle_drop]
    omega
  case high =>
    rw [unpack_getD bs h, hcode, show 4 * (2 * i + 1) = 8 * i + 4 by omega, fld_unle_drop, fld, unle_drop]
    omega

/-- R132: 6-bit elements lie four to a little-endian word of three bytes. -/
theorem unpack_getD_six_bits {code n i j : Nat} (bs : List Byte) (hcode : fmtBits code = 6) (hj : j < 4) (h : 4 * i + j < n) :
    (unpack code n bs).getD (4 * i + j) 0 =
      fld ((bs.getD (3 * i) 0).toNat + (bs.getD (3 * i + 1) 0).toNat * 2 ^ 8 + (bs.getD (3 * i + 2) 0).toNat * 2 ^ 16) (6 * j) 6 := by
  have hword : unle (bs.drop (3 * i)) = (bs.getD (3 * i) 0).toNat + (bs.getD (3 * i + 1) 0).toNat * 2 ^ 8 +
      (bs.getD (3 * i + 2) 0).toNat * 2 ^ 16 + unle (bs.drop (3 * i + 2 + 1)) * 2 ^ 24 := by
    rw [unle_drop bs (3 * i), unle_drop bs (3 * i + 1), unle_drop bs (3 * i + 2)]
    omega
  rw [unpack_getD bs h, hcode, show 6 * (4 * i + j) = 8 * (3 * i) + 6 * j by omega, fld_unle_drop, hword]
  exact fld_add_high (by omega) _

/-- The number that elements of `w` bits form, the first lowest. -/
def packNat (w : Nat) (es : List Nat) : Nat := es.foldr (fun e v => e % 2 ^ w + v * 2 ^ w) 0

theorem packNat_cons (w e : Nat) (es : List Nat) : packNat w (e :: es) = e % 2 ^ w + packNat w es * 2 ^ w := rfl

theorem pack_eq (code : Nat) (es : List Nat) :
    pack code es = le ((fmtBits code * es.length + 7) / 8) (packNat (fmtBits code) es) := rfl

theorem packNat_lt (w : Nat) (es : List Nat) : packNat w es < 2 ^ (w * es.length) := by
  induction es with
  | nil => exact Nat.one_pos
  | cons e es ih =>
    have he : e % 2 ^ w < 2 ^ w := Nat.mod_lt _ (Nat.two_pow_pos w)
    calc packNat w (e :: es) < (packNat w es + 1) * 2 ^ w := by rw [packNat_cons, Nat.succ_mul]; omega
      _ ≤ 2 ^ (w * es.length) * 2 ^ w := Nat.mul_le_mul_right _ ih
      _ = 2 ^ (w * (e :: es).length) := by rw [← Nat.pow_add, List.length_cons, Nat.mul_succ]

theorem fld_packNat (w : Nat) (es : List Nat) (i : Nat) : fld (packNat w es) (w * i) w = es.getD i 0 % 2 ^ w := by
  induction es generalizing i with
  | nil => simp [packNat, fld]
  | cons e es ih =>
    cases i with
    | zero => simp [packNat_cons, fld]
    | succ i =>
      have hrest : packNat w (e :: es) / 2 ^ w = packNat w es := by
        rw [packNat_cons, Nat.add_mul_div_right _ _ (Nat.two_pow_pos w), Nat.div_eq_of_lt (Nat.mod_lt _ (Nat.two_pow_pos w)),
          Nat.zero_add]
      rw [List.getD_cons_succ, ← ih i, fld, fld, Nat.mul_succ, Nat.add_comm, Nat.pow_add, ← Nat.div_div_eq_div_mul, hrest]

/-- The bytes of a packed string hold the whole number. -/
theorem unle_pack (code : Nat) (es : List Nat) : unle (pack code es) = packNat (fmtBits code) es := by
  have hroom : fmtBits code * es.length ≤ 8 * ((fmtBits code * es.length + 7) / 8) := by omega
  rw [pack_eq, unle_le]
  exact Nat.mod_eq_of_lt ((packNat_lt _ es).trans_le (Nat.pow_le_pow_right Nat.two_pos hroom))

/-- Elements that fit their format are read back from their packed bytes. -/
theorem unpack_pack (code : Nat) (es : List Nat) (h : ∀ e ∈ es, e < 2 ^ fmtBits code) :
    unpack code es.length (pack code es) = es := by
  refine List.ext_getElem (by simp [unpack]) fun i hi hes => ?_
  rw [← List.getD_eq_getElem _ 0 hi, unpack_getD _ hes, unle_pack, fld_packNat, List.getD_eq_getElem _ 0 hes]
  exact Nat.mod_eq_of_lt (h _ (List.getElem_mem hes))

/-- A format without infinity and NaN gives every element the sign of its top bit. -/
theorem decode_neg_of_finite_top {f : Flt} (hf : f.top = 2) (b : Nat) : (f.decode b).neg = b.testBit (f.eb + f.mb) := by
  have hnoInf : ¬ (fld b f.mb f.eb = 2 ^ f.eb - 1 ∧ f.top = 0) := by omega
  have hnoNan : ¬ (f.top = 1 ∧ b % 2 ^ (f.eb + f.mb) = 2 ^ (f.eb + f.mb) - 1) := by omega
  simp only [Flt.decode, if_neg hnoInf, if_neg hnoNan]
  split <;> rfl

theorem decodeElem_finite_top_neg {code b : Nat} {f : Flt} (hflt : fltOf code = some f) (htop : f.top = 2)
    (hb : b < 2 ^ fmtBits code) (o : Nat) : (decodeElem code b o).neg = b.testBit (f.eb + f.mb) := by
  simp only [decodeElem, hflt, Nat.mod_eq_of_lt hb, decode_neg_of_finite_top htop]

/-- An integer element has the sign of its top bit. -/
theorem decodeElem_int_neg {code w : Nat} (hflt : fltOf code = none) (hint : intOf code = some w) (hw : 0 < w) (b o : Nat) :
    (decodeElem code b o).neg = b.testBit (w - 1) := by
  rw [decodeElem_int hflt hint, sgn_eq_toInt, Num.neg, ← BitVec.msb_eq_toInt, BitVec.msb_eq_getLsbD_last, BitVec.getLsbD_ofNat]
  simp [hw]

/-- The sign of a 4-bit or 6-bit element is its top bit. -/
theorem decodeElem_narrow_neg {code b : Nat} (o : Nat) (hcode : code = 5 ∨ code = 6 ∨ code = 7 ∨ code = 9)
    (hb : b < 2 ^ fmtBits code) : (decodeElem code b o).neg = b.testBit (fmtBits code - 1) := by
  obtain rfl | rfl | rfl | rfl := hcode
  · exact decodeElem_finite_top_neg rfl rfl hb o
  · exact decodeElem_finite_top_neg rfl rfl hb o
  · exact decodeElem_finite_top_neg rfl rfl hb o
  · exact decodeElem_int_neg rfl rfl (by decide) b o

/-- Settles O48: an element is a field of the string's little-endian number, so its place in a byte or in three bytes is
arithmetic on that number, and packing writes the same fields. -/
theorem narrowElementsPacked : Obligations.NarrowElementsPacked := by
  unfold Obligations.NarrowElementsPacked
  refine ⟨fun code n i bs hcode _ => ?four, fun code n i j bs hcode _ hj hi => ?six,
    fun code es _ hes => unpack_pack code es hes, fun code b o hcode hb => ?sign⟩
  case four => exact unpack_getD_four_bits bs (by rcases hcode with rfl | rfl <;> rfl) i
  case six => exact unpack_getD_six_bits bs (by rcases hcode with rfl | rfl <;> rfl) hj hi
  case sign =>
    rw [decodeElem_narrow_neg o hcode hb]
    exact ⟨id, id⟩

end Sys2Proof.Proofs

/-! ### Stochastic rounding (R143) -/

namespace Sys2Proof.Proofs
open Sys2Proof.Machine

/-- One draw on 64-bit words: the three shifts of R143, and bits [63:48] of the result. -/
theorem srDraw_eq {n : Nat} {s s1 s2 s3 : BitVec 64} (hs : s = if BitVec.ofNat 64 n = 0 then 1 else BitVec.ofNat 64 n)
    (h1 : s1 = s ^^^ (s <<< 13)) (h2 : s2 = s1 ^^^ (s1 >>> 7)) (h3 : s3 = s2 ^^^ (s2 <<< 17)) :
    srDraw n = ((s3 >>> 48).toNat, s3.toNat) := by
  have hseed : s.toNat = if n % 2 ^ 64 = 0 then 1 else n % 2 ^ 64 := by
    rw [hs, apply_ite BitVec.toNat]
    exact if_congr (by rw [BitVec.toNat_eq]; rfl) rfl rfl
  have hleft1 : s1.toNat = s.toNat ^^^ s.toNat * 2 ^ 13 % 2 ^ 64 := by
    rw [h1, BitVec.toNat_xor, BitVec.toNat_shiftLeft, Nat.shiftLeft_eq]
  have hright : s2.toNat = s1.toNat ^^^ s1.toNat / 2 ^ 7 := by
    rw [h2, BitVec.toNat_xor, BitVec.toNat_ushiftRight, Nat.shiftRight_eq_div_pow]
  have hleft2 : s3.toNat = s2.toNat ^^^ s2.toNat * 2 ^ 17 % 2 ^ 64 := by
    rw [h3, BitVec.toNat_xor, BitVec.toNat_shiftLeft, Nat.shiftLeft_eq]
  rw [BitVec.toNat_ushiftRight, Nat.shiftRight_eq_div_pow, hleft2, hright, hleft1, hseed]
  rfl

/-- The generator's state after the elements before place `i`. -/
def genAt (rnd i gen : Nat) : Nat := (fun g => (drawFor rnd g).2)^[i] gen

theorem genAt_zero (rnd gen : Nat) : genAt rnd 0 gen = gen := rfl

theorem genAt_succ (rnd i gen : Nat) : genAt rnd (i + 1) gen = genAt rnd i (drawFor rnd gen).2 := rfl

theorem drawFor_stochastic (gen : Nat) : drawFor 1 gen = srDraw gen := rfl

theorem genAt_stochastic (i gen : Nat) : genAt 1 i gen = (fun g => (srDraw g).2)^[i] gen := rfl

/-- Under the other rounding modes the generator stands still. -/
theorem genAt_not_stochastic {rnd : Nat} (h : rnd ≠ 1) (i gen : Nat) : genAt rnd i gen = gen := by
  induction i with
  | zero => rfl
  | succ i ih => rw [genAt_succ, drawFor, if_neg h, ih]

section
variable (code rnd : Nat) (sat : Bool) (blk : Option Nat)

theorem encodeList_cons_gen (x : Machine.Num) (xs : List Machine.Num) (gen : Nat) :
    (encodeList code rnd sat blk (x :: xs) gen).2.2 = (encodeList code rnd sat blk xs (drawFor rnd gen).2).2.2 := rfl

theorem encodeList_cons_codes (x : Machine.Num) (xs : List Machine.Num) (gen : Nat) :
    (encodeList code rnd sat blk (x :: xs) gen).1 =
      (encodeElem code rnd (drawFor rnd gen).1 sat blk x).1 :: (encodeList code rnd sat blk xs (drawFor rnd gen).2).1 := rfl

/-- Encoding a list leaves the generator where one draw for each element leaves it. -/
theorem encodeList_gen (xs : List Machine.Num) (gen : Nat) :
    (encodeList code rnd sat blk xs gen).2.2 = genAt rnd xs.length gen := by
  induction xs generalizing gen with
  | nil => rfl
  | cons x xs ih => rw [encodeList_cons_gen, ih, List.length_cons, genAt_succ]

/-- The element of place `i` is encoded with the draw of place `i`. -/
theorem encodeList_getD (xs : List Machine.Num) (gen i : Nat) (hi : i < xs.length) :
    (encodeList code rnd sat blk xs gen).1.getD i 0 =
      (encodeElem code rnd (drawFor rnd (genAt rnd i gen)).1 sat blk (xs.getD i .nan)).1 := by
  induction xs generalizing gen i with
  | nil => simp at hi
  | cons x xs ih =>
    rw [encodeList_cons_codes]
    cases i with
    | zero => rfl
    | succ i =>
      rw [List.getD_cons_succ, List.getD_cons_succ, genAt_succ]
      exact ih _ i (by simpa using hi)

end

/-- Settles O49: a draw is R143's three shifts on 64-bit words, and `encodeList` draws once at each place of the list,
before it encodes the element there. -/
theorem stochasticGeneratorStepsOncePerElement : Obligations.StochasticGeneratorStepsOncePerElement := by
  unfold Obligations.StochasticGeneratorStepsOncePerElement
  refine ⟨fun n s0 s s1 s2 s3 h0 hs h1 h2 h3 => ?draw, fun code sat blk xs gen => ⟨?stochastic, fun rnd hrnd => ?other, fun i hi => ?place⟩⟩
  case draw => exact srDraw_eq (h0 ▸ hs) h1 h2 h3
  case stochastic => rw [encodeList_gen, genAt_stochastic]
  case other => rw [encodeList_gen, genAt_not_stochastic hrnd]
  case place => rw [encodeList_getD _ _ _ _ _ _ _ hi, drawFor_stochastic, genAt_stochastic]

end Sys2Proof.Proofs

/-! ### From a lode memory address to a pseudo-channel (R193) -/

namespace Sys2Proof.Proofs
open Sys2Proof.Machine

/-- R193: an invalid granule entry resolves to nothing. -/
theorem resolve_of_invalid {s : State} {l a : Nat} (hinv : (granOf s l (a / 2 ^ 28)).valid = false) : resolve s l a = none :=
  if_neg fun ⟨_, hval, _⟩ => Bool.false_ne_true (hinv.symm.trans hval)

/-- R193: a valid entry that names a set with pseudo-channels resolves to its slot of the set. -/
theorem resolve_of_valid {s : State} {l a g off : Nat} (ha : a < 2 ^ 41) (hg : a / 2 ^ 28 = g) (ho : a % 2 ^ 28 = off)
    (hval : (granOf s l g).valid = true) (hpos : 0 < (setOf s (granOf s l g).set).count) :
    resolve s l a = some (slotAddr s (granOf s l g).set (granOf s l g).slot off) := by
  subst hg ho
  exact if_pos ⟨ha, hval, hpos.ne'⟩

/-- The first piece of a range that is not empty begins where the range begins. -/
theorem segs_eq_cons {m : Nat} (a : Nat) (hm : 0 < m) : ∃ k rest, segs a m = (a, k) :: rest := by
  obtain ⟨m, rfl⟩ := Nat.exists_eq_succ_of_ne_zero hm.ne'
  exact ⟨_, _, rfl⟩

/-- A fold of steps that stop at an error answers the error it begins with. -/
theorem foldl_bind_error {ε α β : Type} (f : α → β → Except ε α) (e : ε) (xs : List β) :
    xs.foldl (fun (r : Except ε α) x => r.bind fun acc => f acc x) (.error e) = .error e := by
  induction xs with
  | nil => rfl
  | cons x xs ih => exact ih

/-- A read fails when its first byte resolves to nothing (R31). -/
theorem rdLode_of_unresolved {s : State} {l a m : Nat} (hm : 0 < m) (hres : resolve s l a = none) :
    rdLode s l a m = .error Err.xlGranule := by
  obtain ⟨k, rest, hsegs⟩ := segs_eq_cons a hm
  simp only [rdLode, hsegs, List.foldl_cons, Except.bind, hres]
  exact foldl_bind_error _ _ rest

/-- An access of a launch that meets an invalid granule is a fault of the memory controller with reason 3 (R232). -/
theorem memError_granule {s : State} {b l pos ctx : Nat} (access va : Nat) (hlaunch : launchOf s b = some (l, pos, ctx)) :
    memError b Err.xlGranule access va s =
      endLaunch b Err.xlGranule [] (newFault l (.memctl l) 3 0 access ctx pos va 0 s).2 := by
  simp [memError, hlaunch]

/-- The address within the pseudo-channel stays below its 2 GiB. -/
theorem channelOffset_lt {n slot off : Nat} (hn : 0 < n) (hslot : slot < 8 * n) (hoff : off < 2 ^ 28) :
    (slot * 2 ^ 28 + off) / 256 / n * 256 + (slot * 2 ^ 28 + off) % 256 < 2 ^ 31 := by
  have hrow : (slot * 2 ^ 28 + off) / 256 / n < 2 ^ 23 := by
    rw [Nat.div_lt_iff_lt_mul hn]
    omega
  omega

section
variable {s : State} {set slot off n base : Nat} (hcount : (setOf s set).count = n) (hbase : (setOf s set).base = base)
  (hn : 0 < n) (hslot : slot < 8 * n) (hoff : off < 2 ^ 28)
include hcount hbase hn hslot hoff

/-- R193, step 3: the stripe's number names the pseudo-channel. -/
theorem slotAddr_channel : slotAddr s set slot off / 2 ^ 31 = base + (slot * 2 ^ 28 + off) / 256 % n := by
  have hlt := channelOffset_lt hn hslot hoff
  simp only [slotAddr, hcount, hbase]
  omega

/-- R193, step 4: the address within the pseudo-channel. -/
theorem slotAddr_channelOffset :
    slotAddr s set slot off % 2 ^ 31 = (slot * 2 ^ 28 + off) / 256 / n * 256 + (slot * 2 ^ 28 + off) % 256 := by
  have hlt := channelOffset_lt hn hslot hoff
  simp only [slotAddr, hcount, hbase]
  omega

/-- The next stripe lies on the next pseudo-channel of the set, in rotation. -/
theorem slotAddr_next_channel (hnext : off + 256 < 2 ^ 28) :
    slotAddr s set slot (off + 256) / 2 ^ 31 = base + (slotAddr s set slot off / 2 ^ 31 - base + 1) % n := by
  have hstripe : (slot * 2 ^ 28 + (off + 256)) / 256 = (slot * 2 ^ 28 + off) / 256 + 1 := by omega
  rw [slotAddr_channel hcount hbase hn hslot hnext, slotAddr_channel hcount hbase hn hslot hoff, hstripe, Nat.add_sub_cancel_left,
    Nat.mod_add_mod]

end

/-- A slot begins on the first pseudo-channel, so stripe `k` of a granule lies on pseudo-channel `k` modulo `n` of the set. -/
theorem slotAddr_stripe_channel {s : State} {set slot n base k : Nat} (hcount : (setOf s set).count = n)
    (hbase : (setOf s set).base = base) (hn : 0 < n) (hdvd : n ∣ 2 ^ 20) (hslot : slot < 8 * n) (hk : k < 2 ^ 20) :
    slotAddr s set slot (256 * k) / 2 ^ 31 = base + k % n := by
  have hstripe : (slot * 2 ^ 28 + 256 * k) / 256 = slot * 2 ^ 20 + k := by omega
  obtain ⟨c, hc⟩ := hdvd.mul_left slot
  rw [slotAddr_channel hcount hbase hn hslot (by omega), hstripe, hc, Nat.mul_add_mod]

/-- Every residue below a divisor `n` of `m` occurs `m / n` times below `m`. -/
theorem length_filter_range_mod {m n i : Nat} (hn : 0 < n) (hdvd : n ∣ m) (hi : i < n) :
    ((List.range m).filter fun k => decide (k % n = i)).length = m / n := by
  have hcount : ((List.range m).filter fun k => decide (k ≡ i [MOD n])).length = m.count (· ≡ i [MOD n]) := by
    rw [Nat.count_eq_card_filter_range]
    rfl
  rw [Nat.count_modEq_card _ hn, Nat.mod_eq_zero_of_dvd hdvd, if_neg (Nat.not_lt_zero _), Nat.add_zero] at hcount
  simpa only [Nat.ModEq, Nat.mod_eq_of_lt hi] using hcount

/-- Each pseudo-channel of the set holds the same number of a granule's stripes. -/
theorem resolve_stripes_equal {s : State} {l g n base i : Nat} (hg : g < 2 ^ 13) (hval : (granOf s l g).valid = true)
    (hcount : (setOf s (granOf s l g).set).count = n) (hbase : (setOf s (granOf s l g).set).base = base) (hn : 0 < n)
    (hdvd : n ∣ 2 ^ 20) (hslot : (granOf s l g).slot < 8 * n) (hi : i < n) :
    ((List.range (2 ^ 20)).filter fun k =>
      decide ((resolve s l (g * 2 ^ 28 + 256 * k)).map (· / 2 ^ 31) = some (base + i))).length = 2 ^ 20 / n := by
  rw [← length_filter_range_mod hn hdvd hi]
  refine congrArg List.length (List.filter_congr fun k hk => decide_eq_decide.mpr ?_)
  have hk : k < 2 ^ 20 := List.mem_range.mp hk
  have hres : resolve s l (g * 2 ^ 28 + 256 * k) = some (slotAddr s (granOf s l g).set (granOf s l g).slot (256 * k)) :=
    resolve_of_valid (by omega) (by omega) (by omega) hval (hcount ▸ hn)
  rw [hres, Option.map_some, slotAddr_stripe_channel hcount hbase hn hdvd hslot hk, Option.some_inj, Nat.add_left_cancel_iff]

/-- The sizes of a set are powers of two, so they divide a granule's number of stripes. -/
theorem setSize_dvd_stripes {n : Nat} (hn : n = 4 ∨ n = 8 ∨ n = 16 ∨ n = 32) : 0 < n ∧ n ∣ 2 ^ 20 := by
  obtain rfl | rfl | rfl | rfl := hn <;> decide

/-- Settles O43: the offset within a pseudo-channel stays below 2^31, so the resolved address splits into R193's pseudo-channel and
offset; a slot begins at a stripe that `n` divides, so a granule's stripes go round the set a whole number of times. -/
theorem lodeAddressesResolve : Obligations.LodeAddressesResolve := by
  unfold Obligations.LodeAddressesResolve
  refine ⟨fun s l a _ hinv => ?invalid, fun s b l pos ctx access va hlaunch => ?fault,
    fun s l a n base slot ha hval hslotEq hcount hbase hsize hslot => ?valid⟩
  case invalid => exact ⟨resolve_of_invalid hinv, fun m hm => rdLode_of_unresolved hm (resolve_of_invalid hinv)⟩
  case fault => exact memError_granule access va hlaunch
  case valid =>
    subst hslotEq
    obtain ⟨hn, hdvd⟩ := setSize_dvd_stripes hsize
    have hoff : a % 2 ^ 28 < 2 ^ 28 := Nat.mod_lt _ (by decide)
    have hres := resolve_of_valid ha rfl rfl hval (hcount ▸ hn)
    refine ⟨⟨_, hres, slotAddr_channel hcount hbase hn hslot hoff, slotAddr_channelOffset hcount hbase hn hslot hoff⟩,
      fun hnext => ?next, fun i hi => ?share⟩
    case next =>
      exact ⟨_, _, hres, resolve_of_valid (by omega) (by omega) (by omega) hval (hcount ▸ hn),
        slotAddr_next_channel hcount hbase hn hslot hoff hnext⟩
    case share => exact resolve_stripes_equal (by omega) hval hcount hbase hn hdvd hslot hi

end Sys2Proof.Proofs

/-! ### What leaves the records of the queues alone -/

namespace Sys2Proof.Proofs
open Sys2Proof.Machine

/-- What every step of `each` keeps, the whole keeps. -/
theorem each_preserves {α σ : Type} {P : σ → Prop} {f : α → σ → σ} (hf : ∀ a s, P s → P (f a s)) (xs : List α) {s : σ} (hs : P s) :
    P (each xs f s) := by
  induction xs generalizing s with
  | nil => exact hs
  | cons x xs ih => exact ih (hf x s hs)

/-- A part of the state that no step of `each` changes stays. -/
theorem each_proj {α σ β : Type} (g : σ → β) {f : α → σ → σ} (hf : ∀ a s, g (f a s) = g s) (xs : List α) (s : σ) :
    g (each xs f s) = g s :=
  each_preserves (P := fun t => g t = g s) (fun a t ht => (hf a t).trans ht) xs rfl

/-- What each step that succeeds keeps, a fold of steps that stop at an error keeps when it succeeds. -/
theorem foldl_bind_preserves {ε α β : Type} {P : α → Prop} {f : α → β → Except ε α} (hf : ∀ a b a', f a b = .ok a' → P a → P a')
    (xs : List β) {a a' : α} (ha : P a) (h : xs.foldl (fun (r : Except ε α) x => r.bind fun acc => f acc x) (.ok a) = .ok a') : P a' := by
  induction xs generalizing a with
  | nil => exact Except.ok.inj h ▸ ha
  | cons x xs ih =>
    rw [List.foldl_cons, Except.bind] at h
    cases hx : f a x with
    | error e => rw [hx, foldl_bind_error] at h; cases h
    | ok b => rw [hx] at h; exact ih (hf a x b hx ha) h

/-! #### Events and faults: neither the records of the queues nor the lode map change -/

@[simp] theorem raise_q_lm (p v : Nat) (s : State) : (raise p v s).q = s.q ∧ (raise p v s).lm = s.lm := by
  unfold raise; split <;> simp

@[simp] theorem raiseAll_q_lm (v : Nat) (s : State) : (raiseAll v s).q = s.q ∧ (raiseAll v s).lm = s.lm :=
  each_preserves (P := fun t : State => t.q = s.q ∧ t.lm = s.lm) (fun p t ht => by simpa using ht) _ ⟨rfl, rfl⟩

@[simp] theorem bumpSeq_q_lm (s : State) : (bumpSeq s).q = s.q ∧ (bumpSeq s).lm = s.lm := by
  unfold bumpSeq; split <;> simp

@[simp] theorem acceptEv_q_lm (e : Ev) (s : State) : (acceptEv e s).q = s.q ∧ (acceptEv e s).lm = s.lm := by
  unfold acceptEv
  split
  · exact ⟨rfl, rfl⟩
  · split
    · simp
    · dsimp only; split <;> simp

@[simp] theorem event_q_lm (typ sev kind num code detail : Nat) (l : Option Nat) (s : State) :
    (event typ sev kind num code detail l s).q = s.q ∧ (event typ sev kind num code detail l s).lm = s.lm := by
  simp only [event, acceptEv_q_lm, and_self]

@[simp] theorem noteStall_q_lm (l : Nat) (s : State) : (noteStall l s).q = s.q ∧ (noteStall l s).lm = s.lm := by
  unfold noteStall; extract_lets x; split <;> simp

section
variable (l : Nat) (agent : FaultAgent) (access ctx pos va pc : Nat) (s : State)

/-- A fault goes to the home chip, into the fault ring or into an event record. -/
@[simp] theorem newFault_q_lm (reason level : Nat) :
    (newFault l agent reason level access ctx pos va pc s).2.q = s.q ∧ (newFault l agent reason level access ctx pos va pc s).2.lm = s.lm := by
  unfold newFault; dsimp only; split
  · simp
  · split <;> simp

@[simp] theorem stopFault_q_lm (stop : Stop) :
    (stopFault l agent stop access ctx pos va pc s).2.q = s.q ∧ (stopFault l agent stop access ctx pos va pc s).2.lm = s.lm := by
  unfold stopFault; split
  · exact ⟨rfl, rfl⟩
  · split <;> simp

end

/-! #### Walks -/

@[simp] theorem touchLine_q (a cls : Nat) (write : Bool) (s : State) : (touchLine a cls write s).q = s.q := by
  unfold touchLine; dsimp only; split
  · rfl
  · split
    · simp
    · split <;> simp

@[simp] theorem touchLode_q (l a n cls : Nat) (write : Bool) (s : State) : (touchLode l a n cls write s).q = s.q := by
  refine each_proj State.q (fun p t => ?_) _ s
  split <;> simp

@[simp] theorem granHit_q (m l g : Nat) (s : State) : (granHit m l g s).2.q = s.q := by
  unfold granHit; split
  · rfl
  · dsimp only; split <;> simp

@[simp] theorem resolveGrans_q (m l a n : Nat) (s : State) : (resolveGrans m l a n s).q = s.q := by
  unfold resolveGrans; split
  · rfl
  · exact each_proj State.q (fun g t => granHit_q m l g t) _ s

@[simp] theorem noteWalk_q (w cls v c va : Nat) (s : State) : (noteWalk w cls v c va s).q = s.q := by
  refine each_proj State.q (fun r t => ?_) _ s
  dsimp only; rw [apply_ite State.q]; simp

@[simp] theorem noteWalks_q (w cls v c va len access : Nat) (s : State) : (noteWalks w cls v c va len access s).q = s.q :=
  each_proj State.q (fun a t => noteWalk_q w cls v c a t) _ s

/-! #### Stores, and ranges that become undefined -/

@[simp] theorem putBytes_q (a : Nat) (bs : List Byte) (s : State) : (putBytes a bs s).q = s.q := by
  induction bs generalizing a s with
  | nil => rfl
  | cons b bs ih => exact ih _ _

@[simp] theorem setPoison_q (line : Nat) (v : Bool) (s : State) : (setPoison line v s).q = s.q := rfl

@[simp] theorem noteArea_q (who a n : Nat) (s : State) : (noteArea who a n s).q = s.q := by
  unfold noteArea; split
  · split <;> simp
  · rfl

@[simp] theorem forwardWrite_q (a : Nat) (bs : List Byte) (s : State) : (forwardWrite a bs s).q = s.q := by
  rw [forwardWrite, putBytes_q]; unfold wh; split <;> simp

theorem wrPiece_q {a : Nat} {bs : List Byte} {s t : State} (h : wrPiece a bs s = .ok t) : t.q = s.q := by
  revert h; unfold wrPiece
  split
  · simp
  · split
    · split
      · rintro ⟨⟩; simp
      · simp
    · rintro ⟨⟩; simp

theorem exists_of_map_eq_ok {ε α β : Type} {x : Except ε α} {f : α → β} {b : β} (h : x.map f = .ok b) : ∃ a, x = .ok a ∧ f a = b := by
  cases x with
  | error e => cases h
  | ok a => exact ⟨a, rfl, Except.ok.inj h⟩

theorem wrPhysBy_q {who a : Nat} {bs : List Byte} {s t : State} (h : wrPhysBy who a bs s = .ok t) : t.q = s.q := by
  obtain ⟨u, hu, rfl⟩ := exists_of_map_eq_ok h
  rw [noteArea_q]
  exact foldl_bind_preserves (P := fun t => t.q = s.q) (fun _ _ _ hw ht => (wrPiece_q hw).trans ht) _ rfl hu

theorem wrLodePiece_q {l a : Nat} {bs : List Byte} {s t : State} (h : wrLodePiece l a bs s = .ok t) : t.q = s.q := by
  revert h; unfold wrLodePiece
  split
  · intro h
    obtain ⟨u, hu, rfl⟩ := exists_of_map_eq_ok h
    rw [← wrPiece_q hu]; split <;> simp
  · simp

theorem wrLode_q {l a : Nat} {bs : List Byte} {s t : State} (h : wrLode l a bs s = .ok t) : t.q = s.q :=
  foldl_bind_preserves (P := fun t => t.q = s.q) (fun _ _ _ hw ht => (wrLodePiece_q hw).trans ht) _ rfl h

/-- A write that may fail leaves the queues alone when it does so where it succeeds. -/
theorem settle_q {s : State} {r : Except Nat State} (h : ∀ t, r = .ok t → t.q = s.q) : (settle s r).2.q = s.q := by
  cases r with
  | error e => rfl
  | ok t => exact h t rfl

@[simp] theorem scrambleSpace_q (l : Nat) (sp : DmaSpace) (off n : Nat) (s : State) : (scrambleSpace l sp off n s).q = s.q := by
  unfold scrambleSpace; dsimp only; split
  · exact each_proj State.q (fun (x : Nat × Nat) t => settle_q (s := { t with free := t.free + x.2 }) fun _ => wrLode_q) _ s
  · exact settle_q (s := { s with free := s.free + n }) fun _ => wrPhysBy_q
  · rfl

@[simp] theorem scrambleRest_q (d : Dma) (s : State) : (scrambleRest d s).q = s.q := by
  unfold scrambleRest; dsimp only; split
  · rfl
  · split <;> simp

@[simp] theorem scramble_q (a n : Nat) (s : State) : (scramble a n s).q = s.q :=
  settle_q (s := { s with free := s.free + n }) fun _ => wrPhysBy_q

@[simp] theorem loseRows_q (d : Delivery) (s : State) : (loseRows d s).q = s.q := by
  unfold loseRows; split
  · rfl
  · exact each_proj State.q (fun r t => scramble_q _ _ t) _ s

/-! #### What a block's stop charges and drops -/

@[simp] theorem charge_q (c : Nat) (f : Tally → Tally) (s : State) : (charge c f s).q = s.q := by unfold charge; split <;> simp

@[simp] theorem chargeBlock_q (b : Nat) (me : Engine → Bool) (s : State) : (chargeBlock b me s).q = s.q := by
  unfold chargeBlock; split
  · rfl
  · dsimp only; split <;> split <;> simp [chargeGc, chargeMe]

@[simp] theorem dropBlockWaits_q (b : Nat) (s : State) : (dropBlockWaits b s).q = s.q := rfl

end Sys2Proof.Proofs

/-! ### The stage and the error of a record (R412, R419) -/

namespace Sys2Proof.Proofs
open Sys2Proof.Machine

/-- A lode's queue holds a record at a position, in a stage and with an error. -/
def RecStands (l pos stage error : Nat) (s : State) : Prop := ∃ r, recOf s l pos = some r ∧ r.stage = stage ∧ r.error = error

/-- A change of a queue that keeps a record in it is read back. -/
theorem queueOf_modQueue {l : Nat} {f : Queue → Queue} {s : State} (h : (f (queueOf s l)).recs ≠ []) :
    queueOf (modQueue l f s) l = f (queueOf s l) :=
  tget_tmod_same ({} : Queue) s.q l f fun hf => h (congrArg Queue.recs hf)

theorem queueOf_modQueue_other {l l' : Nat} (f : Queue → Queue) (s : State) (h : l ≠ l') : queueOf (modQueue l' f s) l = queueOf s l :=
  tget_tmod_other ({} : Queue) s.q f h

/-- A change of records that keeps their positions changes the record that it names, and no other. -/
theorem recOf_modRec {l pos l' pos' : Nat} {f : Rec → Rec} {s : State} {r : Rec} (hpos : ∀ r, (f r).pos = r.pos)
    (hr : recOf s l pos = some r) : recOf (modRec l' pos' f s) l pos = some (if l = l' ∧ pos = pos' then f r else r) := by
  by_cases hl : l = l'
  · subst hl
    have hne : (queueOf s l).recs ≠ [] := fun hnil => by simp [recOf, hnil] at hr
    have hkeeps : ((fun x : Rec => decide (x.pos = pos)) ∘ fun x => if x.pos = pos' then f x else x) = fun x => decide (x.pos = pos) := by
      funext x
      by_cases hx : x.pos = pos' <;> simp [hx, hpos]
    have hrpos : r.pos = pos := by simpa using List.find?_some hr
    rw [recOf] at hr
    rw [recOf, modRec, queueOf_modQueue (by simpa using hne), List.find?_map, hkeeps, hr]
    simp [hrpos]
  · rw [recOf, modRec, queueOf_modQueue_other _ _ hl, if_neg fun h => hl h.1]
    exact hr

section
variable {l pos stage error : Nat} {s t : State}

/-- A record stands as long as the queues do not change. -/
theorem RecStands.of_q (h : RecStands l pos stage error s) (hq : t.q = s.q) : RecStands l pos stage error t := by
  simpa only [RecStands, recOf, queueOf, hq] using h

/-- A change of some record that keeps positions, stages and errors. -/
theorem RecStands.modRec (h : RecStands l pos stage error s) (l' pos' : Nat) {f : Rec → Rec}
    (hf : ∀ r, (f r).pos = r.pos ∧ (f r).stage = r.stage ∧ (f r).error = r.error) : RecStands l pos stage error (modRec l' pos' f s) := by
  obtain ⟨r, hr, hstage, herror⟩ := h
  refine ⟨_, recOf_modRec (fun r => (hf r).1) hr, ?_⟩
  split
  · exact ⟨(hf r).2.1.trans hstage, (hf r).2.2.trans herror⟩
  · exact ⟨hstage, herror⟩

/-- A change of the record itself sets its stage and its error. -/
theorem RecStands.set (h : RecStands l pos stage error s) {f : Rec → Rec} {stage' error' : Nat} (hpos : ∀ r, (f r).pos = r.pos)
    (hf : ∀ r, r.stage = stage → r.error = error → (f r).stage = stage' ∧ (f r).error = error') :
    RecStands l pos stage' error' (Machine.modRec l pos f s) := by
  obtain ⟨r, hr, hstage, herror⟩ := h
  refine ⟨f r, ?_, hf r hstage herror⟩
  rw [recOf_modRec hpos hr, if_pos ⟨rfl, rfl⟩]

/-! #### Ends of requests and deliveries add failed ranges to records and end none (R418) -/

theorem RecStands.addFailed (h : RecStands l pos stage error s) (l' pos' : Nat) (fs : List (Nat × Nat × Nat × Nat)) :
    RecStands l pos stage error (addFailed l' pos' fs s) := h.modRec l' pos' fun _ => ⟨rfl, rfl, rfl⟩

theorem RecStands.loseRest (h : RecStands l pos stage error s) (d : Dma) (err : Nat) : RecStands l pos stage error (loseRest d err s) := by
  unfold Machine.loseRest
  have hrest : RecStands l pos stage error (scrambleRest d s) := h.of_q (scrambleRest_q d s)
  split
  · exact hrest
  · refine RecStands.addFailed ?_ _ _ _
    exact hrest.modRec _ _ fun _ => ⟨rfl, rfl, rfl⟩

theorem RecStands.loseReduce (h : RecStands l pos stage error s) (l' pos' err : Nat) :
    RecStands l pos stage error (loseReduce l' pos' err s) := by
  unfold Machine.loseReduce
  split
  · exact h
  · extract_lets n t
    have ht : RecStands l pos stage error t := by
      unfold t
      split
      · exact h
      · exact h.of_q (scrambleSpace_q _ _ _ _ s)
    refine RecStands.addFailed ?_ _ _ _
    exact ht.modRec _ _ fun _ => ⟨rfl, rfl, rfl⟩

theorem RecStands.closeDeliv (h : RecStands l pos stage error s) (d : Delivery) : RecStands l pos stage error (closeDeliv d s) := by
  unfold Machine.closeDeliv
  extract_lets t
  have ht : RecStands l pos stage error t := h.of_q (loseRows_q _ _)
  split
  · exact ht
  · refine RecStands.addFailed ?_ _ _ _
    exact ht.modRec _ _ fun _ => ⟨rfl, rfl, rfl⟩

theorem RecStands.cutDeliv (h : RecStands l pos stage error s) (id err : Nat) : RecStands l pos stage error (cutDeliv id err s) := by
  unfold Machine.cutDeliv
  split
  · exact h
  · extract_lets d
    split
    · exact h.closeDeliv d
    · exact h.of_q rfl

theorem RecStands.cancelDma (h : RecStands l pos stage error s) (d : Dma) (err : Nat) : RecStands l pos stage error (cancelDma err d s) := by
  unfold Machine.cancelDma
  split
  · exact h
  · split
    · exact h.cutDeliv _ err
    · split
      · exact h.loseRest d err
      · exact h

theorem RecStands.cancelDmas (h : RecStands l pos stage error s) (mine : Dma → Bool) (err : Nat) :
    RecStands l pos stage error (cancelDmas mine err s) :=
  each_preserves (fun d _ ht => ht.cancelDma d err) _ (h.of_q rfl)

/-! #### Stopping a record's work leaves it to be ended (R120, R419) -/

theorem RecStands.stopBlock (h : RecStands l pos stage error s) (b : Nat) : RecStands l pos stage error (stopBlock b s) := by
  unfold Machine.stopBlock
  refine RecStands.cancelDmas (RecStands.of_q ?_ (dropBlockWaits_q b _)) _ _
  refine each_preserves (fun e _ ht => ht.of_q (modEngine_q b e _ _)) _ ?_
  exact each_preserves (fun c _ ht => ht.of_q (modCore_q b c _ _)) _ (h.of_q (chargeBlock_q b _ s))

theorem RecStands.stopWork (h : RecStands l pos stage error s) (l' pos' err : Nat) :
    RecStands l pos stage error (stopWork l' pos' err s) := by
  unfold Machine.stopWork
  extract_lets told saved lost reduced ended
  have htold : RecStands l pos stage error told := by
    unfold told
    split
    · exact h.of_q (emit_q _ s)
    · exact h
  have hlost : RecStands l pos stage error lost := each_preserves (fun d _ ht => ht.loseRest d err) _ htold
  have hreduced : RecStands l pos stage error reduced := by
    unfold reduced
    split
    · split
      · exact hlost.loseReduce l' pos' err
      · exact hlost
    · exact hlost
  have hended : RecStands l pos stage error ended := (each_preserves (fun b _ ht => ht.stopBlock b) _ hreduced).cancelDmas _ err
  exact each_preserves (fun c _ ht => ht.of_q (modCtx_q c _ _)) _ hended

/-! #### A record ends (R184, R403, R419) -/

/-- The command of a record that has not ended takes the error, unless an earlier one stands. -/
theorem RecStands.finishRec (h : RecStands l pos stage 0 s) (hstage : stage ≠ 3) (err : Nat) : RecStands l pos 3 err (finishRec l pos err s) := by
  refine h.set (fun r => ?_) fun r hr he => ?_
  · split <;> rfl
  · rw [if_neg (hr ▸ hstage), if_pos he]
    exact ⟨rfl, rfl⟩

theorem RecStands.abortRec (h : RecStands l pos stage 0 s) (hstage : stage ≠ 3) (err : Nat) : RecStands l pos 3 err (abortRec l pos err s) := by
  have ⟨r, hr, hrstage, _⟩ := h
  simp only [Machine.abortRec, hr]
  rw [if_neg (hrstage ▸ hstage)]
  exact (h.stopWork l pos err).finishRec hstage err

/-- The launch that a block runs ends with the error (R184). -/
theorem RecStands.endLaunch (h : RecStands l pos stage 0 s) (hstage : stage ≠ 3) {b : Nat} (hb : (blockOf s b).launch = some (l, pos))
    (err : Nat) (detail : List Nat) : RecStands l pos 3 err (endLaunch b err detail s) := by
  simp only [Machine.endLaunch, hb]
  refine RecStands.abortRec (h.modRec l pos fun r => ?_) hstage err
  split <;> exact ⟨rfl, rfl, rfl⟩

/-- A record that fails a check has ended with the error of the check (R403). -/
theorem RecStands.rejectRec (h : RecStands l pos stage error s) (err : Nat) : RecStands l pos 3 err (rejectRec l pos err s) := by
  have ⟨r, hr, _⟩ := h
  simp only [Machine.rejectRec, hr]
  exact h.set (fun _ => rfl) fun _ _ _ => ⟨rfl, rfl⟩

end

end Sys2Proof.Proofs

/-! ### Faults that are not resumable (R234) -/

namespace Sys2Proof.Proofs
open Sys2Proof.Machine

/-- Reasons 2, 3 and 4 are not resumable, and each has its error code (R234). -/
theorem not_resumable_stopCode {reason code : Nat}
    (h : (reason = 2 ∧ code = 0x0206) ∨ (reason = 3 ∧ code = 0x0205) ∨ (reason = 4 ∧ code = 0x0204)) :
    resumable reason = false ∧ stopCode reason = code ∧ reason ≠ 16 := by
  obtain ⟨rfl, rfl⟩ | ⟨rfl, rfl⟩ | ⟨rfl, rfl⟩ := h <;> decide

/-- A block with a launch whose record stands runs that record's launch. -/
theorem launchOf_eq {s : State} {b l pos : Nat} {r : Rec} (hb : (blockOf s b).launch = some (l, pos)) (hr : recOf s l pos = some r) :
    launchOf s b = some (l, pos, rCtx r.bits) := by
  simp [launchOf, hb, hr]

/-- A launch whose core meets a fault that is not resumable has ended (R234). -/
theorem RecStands.coreFault {s : State} {l pos stage b : Nat} (h : RecStands l pos stage 0 s) (hstage : stage ≠ 3)
    (hb : (blockOf s b).launch = some (l, pos)) {stop : Stop} (hstop : resumable stop.1 = false) (c : Nat) (dma : Bool) (access va : Nat) :
    RecStands l pos 3 (stopCode stop.1) (coreFault b c dma stop access va s) := by
  have ⟨r, hr, _⟩ := h
  simp only [Machine.coreFault, launchOf_eq hb hr, hstop, Bool.not_false, if_true]
  refine RecStands.endLaunch (h.of_q (by simp)) hstage ?_ _ _
  rw [← hb]
  simp [blockOf]

/-- A record whose translation stops at a fault that is not resumable is rejected (R234, R403). -/
theorem RecStands.translateRec {s : State} {l pos va access : Nat} {r : Rec} {stop : Stop} (hr : recOf s l pos = some r)
    (hstop : resumable stop.1 = false) (hlimit : stop.1 ≠ 16)
    (herr : translateAll s (walkAs s 96 (draw s).1 (rCtx r.bits)) (recNames s r.bits) = .error ((stop, va), access)) :
    RecStands l pos 3 (stopCode stop.1) (translateRec l pos s) := by
  have h : RecStands l pos r.stage r.error s := ⟨r, hr, rfl, rfl⟩
  simp only [Machine.translateRec, hr, herr]
  split
  case h_1 heq => cases heq
  case h_2 heq => cases heq; exact absurd rfl hlimit
  case h_3 heq =>
    cases heq
    rw [if_neg fun hwaits => Bool.false_ne_true (hstop.symm.trans hwaits.1)]
    have hwalked : RecStands l pos r.stage r.error (each (recNames s r.bits)
        (fun x => noteWalks 96 (rClass r.bits) (draw s).1 (rCtx r.bits) x.1 x.2.1 x.2.2) (draw s).2) :=
      h.of_q (each_proj State.q (fun x t => noteWalks_q _ _ _ _ _ _ _ t) _ _)
    exact (hwalked.of_q (stopFault_q_lm ..).1).rejectRec _

/-- Settles O44: recording the fault and stopping the launch's work keep the record's stage and error, so the end finds the record with no
error and gives it the one of the reason; a record under translation is rejected with it. -/
theorem faultsThatCannotResumeEndTheWork : Obligations.FaultsThatCannotResumeEndTheWork := by
  unfold Obligations.FaultsThatCannotResumeEndTheWork
  intro reason code hreason
  obtain ⟨hres, rfl, hlimit⟩ := not_resumable_stopCode hreason
  refine ⟨hres, fun b c dma level access va l pos r s hb hr hstage herror => ?launch, fun l pos level va access r s hr herr => ?record⟩
  case launch =>
    have h : RecStands l pos r.stage 0 s := ⟨r, hr, rfl, herror⟩
    exact h.coreFault (stop := (reason, level)) hstage hb hres c dma access va
  case record => exact RecStands.translateRec (stop := (reason, level)) hr hres hlimit herr

end Sys2Proof.Proofs

/-! ### Posts at a semaphore's hub (R279) -/

namespace Sys2Proof.Proofs
open Sys2Proof.Machine

/-! #### Events: the sync network does not change -/

@[simp] theorem raise_noc (p v : Nat) (s : State) : (raise p v s).noc = s.noc := by
  unfold raise; split <;> simp

@[simp] theorem raiseAll_noc (v : Nat) (s : State) : (raiseAll v s).noc = s.noc :=
  each_proj State.noc (fun p t => raise_noc p v t) _ s

@[simp] theorem bumpSeq_noc (s : State) : (bumpSeq s).noc = s.noc := by
  unfold bumpSeq; split <;> simp

@[simp] theorem acceptEv_noc (e : Ev) (s : State) : (acceptEv e s).noc = s.noc := by
  unfold acceptEv
  split
  case isTrue => rfl
  case isFalse =>
    split
    · simp
    · dsimp only; split <;> simp

@[simp] theorem event_noc (typ sev kind num code detail : Nat) (l : Option Nat) (s : State) :
    (event typ sev kind num code detail l s).noc = s.noc := by
  unfold event; exact acceptEv_noc _ s

/-! #### Pages and semaphores -/

@[simp] theorem modPage_sems (p : Nat) (f : SyncPage → SyncPage) (s : State) : (modPage p f s).noc.sems = s.noc.sems := by
  unfold modPage; split <;> rfl

theorem semOf_modSem {s : State} (hwf : twf {} s.noc.sems = true) (n : Nat) (f : Sem → Sem) :
    semOf (modSem n f s) n = f (semOf s n) :=
  tget_tmod_wf _ _ n f hwf

/-- A key whose entries a filter all drops reads as the default. -/
theorem tget_filter_of_dropped {α : Type} (d : α) {q : Nat × α → Bool} {k : Nat} (hdrop : ∀ v, q (k, v) = false)
    (t : List (Nat × α)) : tget d (t.filter q) k = d := by
  induction t with
  | nil => rfl
  | cons e t ih =>
    obtain ⟨k', v⟩ := e
    by_cases hq : q (k', v) = true
    · have hne : k' ≠ k := fun heq => by simp [heq, hdrop] at hq
      simp [hq, tget, hne, ih]
    · simpa [hq] using ih

/-- A semaphore of a page that is cleared has no value, message, wait or poison left (R279, R482). -/
theorem semOf_wipePage {p n : Nat} (s : State) (hpage : n / 256 = p) (hp : p < 512) : semOf (wipePage p s) n = {} := by
  unfold wipePage
  rw [if_pos hp]
  refine tget_filter_of_dropped _ (fun v => ?_) s.noc.sems
  simp [hpage]

/-! #### A post -/

theorem grantWaits_of_no_waits {s : State} {n : Nat} (hwaits : (semOf s n).waits = []) (fuel : Nat) : grantWaits fuel n s = s := by
  cases fuel with
  | zero => rfl
  | succ fuel => simp only [grantWaits, hwaits]

/-- Semaphore `n` of a canonical table is not poisoned, has no wait queued and holds `v`. -/
structure NoWaits (n v : Nat) (s : State) : Prop where
  wf : twf {} s.noc.sems = true
  poisoned : (semOf s n).poisoned = false
  waits : (semOf s n).waits = []
  value : (semOf s n).value = v

section
variable {n v k : Nat} {s t : State}

theorem NoWaits.of_sems (h : NoWaits n v s) (hsems : t.noc.sems = s.noc.sems) : NoWaits n v t := by
  have hsem : semOf t n = semOf s n := congrArg (tget ({} : Sem) · n) hsems
  exact ⟨hsems ▸ h.wf, hsem ▸ h.poisoned, hsem ▸ h.waits, hsem ▸ h.value⟩

/-- A change that keeps poison and waits keeps the semaphore without waits. -/
theorem NoWaits.of_modSem (h : NoWaits n v s) (f : Sem → Sem) (hpoisoned : ∀ m, (f m).poisoned = m.poisoned)
    (hwaits : ∀ m, (f m).waits = m.waits) : NoWaits n (f (semOf s n)).value (modSem n f s) := by
  refine ⟨twf_tset _ _ n _ h.wf, ?_, ?_, ?_⟩ <;> rw [semOf_modSem h.wf]
  · rw [hpoisoned, h.poisoned]
  · rw [hwaits, h.waits]

/-- Taking a message off those under way leaves the value. -/
theorem NoWaits.modSem_inflight (h : NoWaits n v s) (rest : List (Nat × SyncMsg)) :
    NoWaits n v (modSem n (fun m => { m with inflight := rest }) s) :=
  h.value ▸ h.of_modSem (fun m => { m with inflight := rest }) (fun _ => rfl) fun _ => rfl

/-- The value that a post leaves grants nothing while no wait is queued. -/
theorem NoWaits.grantWaits_modSem_value (h : NoWaits n v s) (w fuel : Nat) :
    grantWaits fuel n (modSem n (fun m => { m with value := w }) s) = modSem n (fun m => { m with value := w }) s :=
  grantWaits_of_no_waits (h.of_modSem (fun m => { m with value := w }) (fun _ => rfl) fun _ => rfl).waits fuel

/-- A post that fits adds to the value and does nothing else. -/
theorem NoWaits.applyPost_of_fits (h : NoWaits n v s) (hfits : v + k < 2 ^ 32) :
    applyPost n k s = modSem n (fun m => { m with value := v + k }) s := by
  have hmin : min 0xFFFFFFFF (v + k) = v + k := by omega
  simp only [applyPost, h.poisoned, h.value, hmin, Bool.false_eq_true, if_false, if_neg (Nat.not_le_of_lt hfits)]
  exact h.grantWaits_modSem_value _ _

/-- A post that would pass 32 bits leaves the greatest value, sets `OVF` of the page and writes one record. -/
theorem NoWaits.applyPost_of_passes (h : NoWaits n v s) (hpasses : 2 ^ 32 ≤ v + k) :
    applyPost n k s = modSem n (fun m => { m with value := 0xFFFFFFFF })
      (event 0x90B 3 8 (n / 256) 0 (n % 256) (if (pageOf s (n / 256)).bound then some (pageOf s (n / 256)).lode else none)
        (modPage (n / 256) (fun p => { p with ovf := true }) s)) := by
  have hmin : min 0xFFFFFFFF (v + k) = 0xFFFFFFFF := by omega
  simp only [applyPost, h.poisoned, h.value, hmin, Bool.false_eq_true, if_false, if_pos hpasses]
  exact (h.of_sems (by simp)).grantWaits_modSem_value _ _

end

/-- A post at the head of the messages under way is the one that reaches the hub. -/
theorem exec_semPostApply {n k tag : Nat} {rest : List (Nat × SyncMsg)} {s : State} (hhead : (semOf s n).inflight = (tag, .post k) :: rest) :
    exec (.semPostApply n) s = .next (perform s fun u => applyPost n k (modSem n (fun m => { m with inflight := rest }) u)) := by
  refine congrArg _ (perform_congr ?_)
  have hfirst : takeFirst isPost (semOf { s with out := [], edits := [] } n).inflight = some (.post k, rest) :=
    congrArg (takeFirst isPost) hhead
  simp only [hfirst]

/-- Settles O54: taking the post off the messages under way leaves value, poison and waits as they were, so the post is applied
to the value that the hub held; no wait is queued, so nothing is granted after it. -/
theorem semaphorePostsSaturate : Obligations.SemaphorePostsSaturate := by
  unfold Obligations.SemaphorePostsSaturate
  refine ⟨fun p n s hpage hp => ?cleared, fun n k tag rest s hwf hhead hpoison hwaits hfits => ?fits,
    fun n k tag rest s hwf hhead hpoison hwaits hpasses => ?passes⟩
  case cleared =>
    have hsem : semOf (wipePage p s) n = {} := semOf_wipePage s hpage hp
    exact ⟨hsem, congrArg Sem.value hsem⟩
  case fits =>
    have hhub : NoWaits n (semOf s n).value { s with out := [], edits := [] } := ⟨hwf, hpoison, hwaits, rfl⟩
    rw [exec_semPostApply hhead]
    exact congrArg _ (perform_congr ((hhub.modSem_inflight rest).applyPost_of_fits hfits))
  case passes =>
    have hhub : NoWaits n (semOf s n).value { s with out := [], edits := [] } := ⟨hwf, hpoison, hwaits, rfl⟩
    rw [exec_semPostApply hhead]
    exact congrArg _ (perform_congr ((hhub.modSem_inflight rest).applyPost_of_passes hpasses))

end Sys2Proof.Proofs

/-! ### Ports of Drift: what a change of a port's entry leaves -/

namespace Sys2Proof.Proofs
open Sys2Proof.Machine

/-- A second entry at one key replaces the first. -/
theorem tins_tins_same {α : Type} (t : List (Nat × α)) (k : Nat) (v w : α) : tins (tins t k v) k w = tins t k w := by
  induction t with
  | nil => simp [tins]
  | cons e t ih =>
    obtain ⟨k', v'⟩ := e
    rcases Nat.lt_trichotomy k k' with hlt | rfl | hgt
    · simp [tins, hlt, hlt.ne']
    · simp [tins]
    · simp [tins, hgt.ne, Nat.lt_asymm hgt, ih]

/-- Two changes of one entry that list it are one change. -/
theorem tmod_tmod_same {α : Type} [DecidableEq α] (d : α) (t : List (Nat × α)) (k : Nat) {f g : α → α} (hf : f (tget d t k) ≠ d)
    (hg : g (f (tget d t k)) ≠ d) : tmod d (tmod d t k f) k g = tmod d t k (g ∘ f) := by
  have hread : tget d (tmod d t k f) k = f (tget d t k) := tget_tmod_same d t k f hf
  rw [tmod, hread, tmod, tmod, tset, tset, tset, if_neg hf, if_neg hg, Function.comp_apply, if_neg hg, tins_tins_same]

section
variable {p p' : Nat} {s : State} {f g : Port → Port}

theorem portOf_modPort (h : f (portOf s p) ≠ {}) : portOf (modPort p f s) p = f (portOf s p) :=
  tget_tmod_same ({} : Port) s.dr.ports p f h

theorem portOf_modPort_other (f : Port → Port) (s : State) (h : p' ≠ p) : portOf (modPort p f s) p' = portOf s p' :=
  tget_tmod_other ({} : Port) s.dr.ports f h

theorem modPort_modPort (hf : f (portOf s p) ≠ {}) (hg : g (f (portOf s p)) ≠ {}) :
    modPort p g (modPort p f s) = modPort p (g ∘ f) s :=
  congrArg (fun ports => { s with dr := { s.dr with ports := ports } }) (tmod_tmod_same ({} : Port) s.dr.ports p hf hg)

end

/-- The entry of a port with a state other than 0 is listed. -/
theorem port_ne_default_of_state {t : Port} (h : t.state ≠ 0) : t ≠ {} :=
  fun hd => h (congrArg Port.state hd)

/-- A command's effect begins with the ports as they stand. -/
theorem perform_congr_of_port {s : State} (p : Nat) {f g : State → State} (h : ∀ u, portOf u p = portOf s p → f u = g u) :
    perform s f = perform s g :=
  perform_congr (h _ rfl)

theorem portOf_perform (s : State) (f : State → State) (p : Nat) :
    portOf (perform s f) p = portOf (f { s with out := [], edits := [] }) p := rfl

theorem state_ne_zero_of_portUp {s : State} {p : Nat} (h : portUp s p = true) : (portOf s p).state ≠ 0 := by
  simp only [portUp, Bool.or_eq_true, decide_eq_true_eq] at h
  omega

theorem state_ne_zero_of_training {s : State} {p : Nat} (h : training s p = true) : (portOf s p).state ≠ 0 := by
  simp only [training, Bool.or_eq_true, decide_eq_true_eq] at h
  omega

end Sys2Proof.Proofs

/-! ### Flits in sequence (R308) -/

namespace Sys2Proof.Proofs
open Sys2Proof.Machine

/-- The corrected symbols of a flit, counted by lane (R311). -/
def noteCorrected (corrected : List Nat) (t : Port) : Port :=
  { t with laneErr := corrected.zipIdx.foldl (fun m c => if c.2 < 4 then tset 0 m c.2 (min 0xFFFF (tget 0 m c.2 + c.1)) else m) t.laneErr }

/-- What an accepted flit changes of its port: the number expected, the request for a replay and what it acknowledges (R308, R309). -/
def acceptFlit (acked : Nat) (t : Port) : Port :=
  { t with
    rxSeq := t.rxSeq + 1, asked := false, replayBuf := t.replayBuf.filter fun q => acked ≤ q.1
    replays := if (t.replayBuf.filter fun q => acked ≤ q.1).length = t.replayBuf.length then t.replays else 0 }

/-- A request for a replay stands. -/
def setAsked (t : Port) : Port := { t with asked := true }

theorem setAsked_of_asked {t : Port} (h : t.asked = true) : setAsked t = t := by rw [setAsked, ← h]

/-- What a flit that is not accepted does (R308): its corrected symbols are noted, and a replay is asked for unless a request stands. -/
def discardFlit (p : Nat) (corrected : List Nat) (s : State) : State :=
  if (portOf (modPort p (noteCorrected corrected) s) p).asked then modPort p (noteCorrected corrected) s
  else emit (.replayAsk p (portOf (modPort p (noteCorrected corrected) s) p).rxSeq)
    (modPort p setAsked (modPort p (noteCorrected corrected) s))

section
variable {p seq : Nat} {s : State}

theorem portOf_noteCorrected (hstate : (portOf s p).state ≠ 0) (corrected : List Nat) :
    portOf (modPort p (noteCorrected corrected) s) p = noteCorrected corrected (portOf s p) :=
  portOf_modPort (port_ne_default_of_state hstate)

/-- A flit on a port that is up is accepted when it is good and next in sequence; any other is discarded. -/
theorem exec_flitReceive (hup : portUp s p = true) (good : Bool) (corrected : List Nat) (acked : Nat) :
    exec (.flitReceive p seq good corrected acked) s = .next (perform s fun u =>
      if !good ∨ seq ≠ (portOf s p).rxSeq then discardFlit p corrected u
      else drain p (takenDown p (modPort p (acceptFlit acked) (modPort p (noteCorrected corrected) u)))) := by
  refine congrArg _ (perform_congr_of_port p fun u hport => ?_)
  have hupNow : portUp u p = true := by rwa [portUp, hport]
  have hexpected : (portOf (modPort p (noteCorrected corrected) u) p).rxSeq = (portOf s p).rxSeq := by
    rw [portOf_noteCorrected (state_ne_zero_of_portUp hupNow), hport]
    rfl
  rw [hupNow, ← hexpected]
  rfl

/-- Noting the corrected symbols and accepting the flit is one change of the port. -/
theorem modPort_acceptFlit_noteCorrected (hstate : (portOf s p).state ≠ 0) (corrected : List Nat) (acked : Nat) :
    modPort p (acceptFlit acked) (modPort p (noteCorrected corrected) s) = modPort p (acceptFlit acked ∘ noteCorrected corrected) s :=
  modPort_modPort (port_ne_default_of_state hstate) (port_ne_default_of_state hstate)

/-- Noting the corrected symbols changes neither the number expected nor the request that stands. -/
theorem discardFlit_eq (hstate : (portOf s p).state ≠ 0) (corrected : List Nat) :
    discardFlit p corrected s = if (portOf s p).asked then modPort p (noteCorrected corrected) s
      else emit (.replayAsk p (portOf s p).rxSeq) (modPort p setAsked (modPort p (noteCorrected corrected) s)) := by
  rw [discardFlit, portOf_noteCorrected hstate]
  rfl

theorem portOf_discardFlit (hstate : (portOf s p).state ≠ 0) (corrected : List Nat) :
    portOf (discardFlit p corrected s) p = setAsked (noteCorrected corrected (portOf s p)) := by
  have hnoted := portOf_noteCorrected hstate corrected
  rw [discardFlit_eq hstate]
  split
  case isTrue hasked => exact hnoted.trans (setAsked_of_asked (t := noteCorrected corrected (portOf s p)) hasked).symm
  case isFalse =>
    rw [← hnoted]
    exact portOf_modPort (port_ne_default_of_state (hnoted ▸ hstate))

theorem portOf_discardFlit_other {p' : Nat} (h : p' ≠ p) (corrected : List Nat) :
    portOf (discardFlit p corrected s) p' = portOf s p' := by
  have hnoted := portOf_modPort_other (noteCorrected corrected) s h
  unfold discardFlit
  split
  · exact hnoted
  · exact (portOf_modPort_other setAsked _ h).trans hnoted

/-- One request goes out from the number expected, none while one stands. -/
theorem discardFlit_out (hstate : (portOf s p).state ≠ 0) (corrected : List Nat) :
    (discardFlit p corrected s).out = s.out ++ if (portOf s p).asked then [] else [.replayAsk p (portOf s p).rxSeq] := by
  rw [discardFlit_eq hstate]
  split
  · exact (List.append_nil _).symm
  · rfl

/-- A discarded flit leaves lodes, translation, mesh, queues, events and windows alone. -/
theorem discardFlit_frame (p : Nat) (corrected : List Nat) (s : State) :
    (discardFlit p corrected s).lm = s.lm ∧ (discardFlit p corrected s).xl = s.xl ∧ (discardFlit p corrected s).noc = s.noc ∧
      (discardFlit p corrected s).q = s.q ∧ (discardFlit p corrected s).evr = s.evr ∧
      (discardFlit p corrected s).dr.rwt = s.dr.rwt := by
  unfold discardFlit
  split <;> exact ⟨rfl, rfl, rfl, rfl, rfl, rfl⟩

end

/-- Settles O50: the command's two outcomes are `acceptFlit` and `discardFlit`, each after the corrected symbols are noted; a port that
is up has its entry listed, so the entry written is the entry read. -/
theorem flitsAcceptedInSequence : Obligations.FlitsAcceptedInSequence := by
  unfold Obligations.FlitsAcceptedInSequence
  refine ⟨fun p seq acked corrected s hup hseq => ?accepted, fun p seq acked good corrected s hup hbad => ?discarded⟩
  case accepted =>
    refine ⟨acceptFlit acked ∘ noteCorrected corrected, fun t => ⟨rfl, rfl⟩, ?_⟩
    have hgood : ¬ ((!true) = true ∨ seq ≠ (portOf s p).rxSeq) := by simp [hseq]
    simp only [exec_flitReceive hup, if_neg hgood]
    refine congrArg _ (perform_congr_of_port p fun u hport => ?_)
    rw [modPort_acceptFlit_noteCorrected (hport ▸ state_ne_zero_of_portUp hup)]
  case discarded =>
    have hbad : (!good) = true ∨ seq ≠ (portOf s p).rxSeq := hbad.imp_left fun h => by rw [h]; rfl
    have hstate : (portOf s p).state ≠ 0 := state_ne_zero_of_portUp hup
    have hport := portOf_discardFlit (s := { s with out := [], edits := [] }) hstate corrected
    simp only [exec_flitReceive hup, if_pos hbad]
    refine ⟨_, rfl, ?port, fun p' hp' => portOf_discardFlit_other hp' corrected, ?out, discardFlit_frame p corrected _⟩
    case port =>
      rw [portOf_perform, hport]
      rfl
    case out => exact congrArg (s.out ++ ·) (discardFlit_out (s := { s with out := [], edits := [] }) hstate corrected)

end Sys2Proof.Proofs

/-! ### The version of a link (R305) -/

namespace Sys2Proof.Proofs
open Sys2Proof.Machine

/-- A port runs at version 1. -/
def AtVersion1 (p : Nat) (s : State) : Prop := (portOf s p).version = 1

section
variable {p : Nat} {s : State}

/-- A change of the port that sets version 1. -/
theorem atVersion1_modPort {f : Port → Port} (hf : (f (portOf s p)).version = 1) : AtVersion1 p (modPort p f s) := by
  have hlisted : f (portOf s p) ≠ {} := fun hd => by simp [hd] at hf
  rw [AtVersion1, portOf_modPort hlisted, hf]

theorem AtVersion1.takeCredits (h : AtVersion1 p s) (k : Packet) : AtVersion1 p (takeCredits p k s) := by
  unfold Machine.takeCredits
  extract_lets n pool
  have hpool : AtVersion1 p pool := atVersion1_modPort h
  split
  · exact atVersion1_modPort h
  · split
    · split
      · exact h
      · exact hpool
    · exact hpool

theorem AtVersion1.launchPkt (h : AtVersion1 p s) (k : Packet) : AtVersion1 p (launchPkt p k s) :=
  atVersion1_modPort (h.takeCredits k)

theorem AtVersion1.giveBack (h : AtVersion1 p s) (ingress : Option Nat) (k : Packet) : AtVersion1 p (giveBack ingress k s) := by
  cases ingress <;> exact h

theorem AtVersion1.drain (h : AtVersion1 p s) : AtVersion1 p (drain p s) := by
  unfold Machine.drain
  split
  · exact h
  · refine each_preserves (fun w t ht => ?_) _ h
    dsimp only
    split
    · have htaken : AtVersion1 p (modPort p (fun x => { x with waiting := x.waiting.erase w }) t) := atVersion1_modPort ht
      exact (htaken.launchPkt _).giveBack _ _
    · exact ht

/-- Messages to other devices leave the ports alone. -/
theorem sendUt_dr (devs : List Nat) (m : UtMsg) (s : State) : (sendUt devs m s).dr = s.dr := by
  unfold sendUt
  exact each_proj State.dr (fun _ t => emit_dr _ t) devs s

theorem AtVersion1.sendUt (h : AtVersion1 p s) (devs : List Nat) (m : UtMsg) : AtVersion1 p (sendUt devs m s) := by
  rwa [AtVersion1, portOf, sendUt_dr]

/-- A port brought up with version 1 runs at version 1, whether it recovers or starts afresh. -/
theorem atVersion1_portRun (p mask : Nat) (s : State) : AtVersion1 p (portRun p 1 mask s) := by
  unfold Machine.portRun
  extract_lets keep low up fresh ready
  refine AtVersion1.drain ?_
  have hup : AtVersion1 p up := atVersion1_modPort rfl
  unfold ready
  split
  · split <;> exact hup
  · have hfresh : AtVersion1 p fresh := atVersion1_modPort hup
    split
    · exact hfresh.sendUt _ _
    · exact hfresh

/-- A port with nothing to replay and nothing waiting goes down into state 6 and passes nothing on. -/
theorem portDown_6_state (err : Nat) (hbuf : (portOf s p).replayBuf = []) (hwait : (portOf s p).waiting = []) :
    (portOf (portDown p 6 err s) p).state = 6 := by
  unfold portDown
  rw [hbuf, hwait]
  exact congrArg Port.state (portOf_modPort (s := s) (port_ne_default_of_state (Nat.succ_ne_zero 5)))

end

/-- What a peer's capability record tells of the peer. -/
def notePeer (lo hi dev serial peerPort : Nat) (t : Port) : Port :=
  { t with peerDev := dev, peerPort := peerPort, peerLo := lo, peerHi := hi, peerSerial := serial }

/-- The `DETAIL` of the record of ranges that do not meet: the ends of this module's range and of the peer's. -/
def rangesDetail (lo hi : Nat) : Nat := 1 + 1 * 2 ^ 8 + lo * 2 ^ 16 + hi * 2 ^ 24

theorem rangesDetail_fields (lo hi : Nat) : rangesDetail lo hi % 2 ^ 8 = 1 ∧ (lo < 2 ^ 8 → hi < 2 ^ 8 →
    rangesDetail lo hi / 2 ^ 8 % 2 ^ 8 = 1 ∧ rangesDetail lo hi / 2 ^ 16 % 2 ^ 8 = lo ∧ rangesDetail lo hi / 2 ^ 24 = hi) := by
  unfold rangesDetail
  omega

/-- A training port takes the peer's record and goes down or up by the versions and lanes of both ends. -/
theorem exec_capabilityRecord {p : Nat} {s : State} (htrain : training s p = true) (lo hi dev serial peerPort lanes : Nat) :
    exec (.capabilityRecord p lo hi dev serial peerPort lanes) s = .next (perform s fun u =>
      if 1 < lo ∨ hi < 1 then
        event 0x402 4 0 p 0 (rangesDetail lo hi) none (portDown p 6 0 (modPort p (notePeer lo hi dev serial peerPort) u))
      else if (lanesOf ((portOf s p).usable &&& (lanes % 16))).length < 2 then
        trainFail p 5 (modPort p (notePeer lo hi dev serial peerPort) u)
      else portRun p 1 ((portOf s p).usable &&& (lanes % 16)) (modPort p (notePeer lo hi dev serial peerPort) u)) := by
  refine congrArg _ (perform_congr_of_port p fun u hport => ?_)
  have htrainNow : training u p = true := by rwa [training, hport]
  have husable : (portOf (modPort p (notePeer lo hi dev serial peerPort) u) p).usable = (portOf s p).usable := by
    rw [portOf_modPort (port_ne_default_of_state (state_ne_zero_of_training htrainNow)), hport]
    rfl
  rw [htrainNow, ← husable]
  rfl

/-- Settles O51: the record's outcome is read off its versions; bringing a port up sets version 1 and nothing that follows sets it
again, and a port that goes down with nothing to pass on ends in the state it was given. -/
theorem driftVersionSettled : Obligations.DriftVersionSettled := by
  unfold Obligations.DriftVersionSettled
  refine ⟨fun p lo hi dev serial peerPort lanes s htrain hlo hhi hlanes => ?runs,
    fun p lo hi dev serial peerPort lanes s htrain hapart => ?apart, fun p mask s => atVersion1_portRun p mask s,
    fun p err s hbuf hwait => portDown_6_state err hbuf hwait⟩
  case runs =>
    have hmeet : ¬ (1 < lo ∨ hi < 1) := by omega
    have hwide : ¬ (lanesOf ((portOf s p).usable &&& (lanes % 16))).length < 2 := by omega
    simp only [exec_capabilityRecord htrain, if_neg hmeet, if_neg hwide]
    rfl
  case apart =>
    obtain ⟨hversion, hends⟩ := rangesDetail_fields lo hi
    refine ⟨rangesDetail lo hi, hversion, hends, ?_⟩
    simp only [exec_capabilityRecord htrain, if_pos hapart]
    rfl

end Sys2Proof.Proofs

/-! ### The comparison of epochs (R354) -/

namespace Sys2Proof.Proofs
open Sys2Proof.Machine

/-- The natural number that `later` tests is (A − B) mod 2^32 of R354: reducing B first keeps the subtraction from truncating. -/
theorem epochDifference_eq_emod (a b : Nat) : (((a + 2 ^ 32 - b % 2 ^ 32) % 2 ^ 32 : Nat) : Int) = ((a : Int) - b) % 2 ^ 32 := by
  omega

theorem later_iff (a b : Nat) : later a b = true ↔ 1 ≤ ((a : Int) - b) % 2 ^ 32 ∧ ((a : Int) - b) % 2 ^ 32 ≤ 2 ^ 31 - 1 := by
  rw [← epochDifference_eq_emod, later, Bool.and_eq_true, decide_eq_true_eq, decide_eq_true_eq]
  omega

/-- Settles O45: the difference of the next epoch and this one is 1, and of this one and the next 2^32 − 1, whether or not the next one
wraps to 0. -/
theorem epochsComparedModulo32Bits : Obligations.EpochsComparedModulo32Bits := by
  unfold Obligations.EpochsComparedModulo32Bits
  refine ⟨fun a b _ _ => later_iff a b, fun e _ => ⟨(later_iff _ _).mpr ?next, Bool.eq_false_iff.mpr fun h => ?previous⟩⟩
  case next =>
    have hdiff : (((e + 1) % 2 ^ 32 : Nat) - (e : Int)) % 2 ^ 32 = 1 := by omega
    omega
  case previous =>
    have hdiff : ((e : Int) - ((e + 1) % 2 ^ 32 : Nat)) % 2 ^ 32 = 2 ^ 32 - 1 := by omega
    have hlater := (later_iff _ _).mp h
    omega

end Sys2Proof.Proofs

/-! ### Fence waits and the errors they pass on (R405, R408, R411) -/

namespace Sys2Proof.Proofs
open Sys2Proof.Machine

/-- What a wait on a fence that reads says of its value and of the fields of its error word. -/
theorem waitOne_of_read {s : State} {l a : Nat} {bs : List Byte} (v : Nat) (ha : a ≠ 0) (hread : rdLode s l a 16 = .ok bs) :
    waitOne s l a v = if v ≤ unle bs % 2 ^ 64 then some (0, false)
      else if unle bs / 2 ^ 64 % 2 ^ 16 ≠ 0 ∧ (unle bs).testBit 81 = false then some (unle bs / 2 ^ 64 % 2 ^ 16, true)
      else none := by
  simp [waitOne, ha, hread, fld]

/-- A held record whose waits say an error ends with it, and the records after it are looked at (R408). -/
theorem letGo_cons_of_error {s : State} {l p e : Nat} {own : Bool} {r : Rec} (c : Nat) (rest : List Nat) (hrec : recOf s l p = some r)
    (hheld : r.stage = 0) (hwaits : waitsOf s l r = some (e, own)) (he : e ≠ 0) :
    letGo l c (p :: rest) s = letGo l c rest (modRec l p (fun r => { r with stage := 3, error := e, inherited := own })
      (if e = Err.xlGranule ∧ own = false then granFault l c p (fenceRanges r) s else s)) := by
  obtain ⟨code, rfl⟩ := Nat.exists_eq_succ_of_ne_zero he
  simp [letGo, hrec, hheld, hwaits]

/-- A bit of a number, from its value as a digit. -/
theorem testBit_eq_of_toNat {n i : Nat} {b : Bool} (h : n / 2 ^ i % 2 = b.toNat) : n.testBit i = b := by
  simp only [Nat.testBit_eq_decide_div_mod_eq, h, Bool.toNat_eq_one, Bool.decide_eq_true]

/-- A mark that is set by a condition, as the condition's truth value times the mark's weight. -/
theorem ite_eq_toNat_mul (p : Prop) [Decidable p] (n : Nat) : (if p then n else 0) = (decide p).toNat * n := by
  by_cases h : p <;> simp [h]

/-- The fields of a completion record that lie below the status: valid bit, marks, opcode and context (R411). -/
def completionLow (q : Queue) (r : Rec) (status : Nat) (wrote : Bool) : Nat :=
  (if q.cqTail / 2 ^ q.cqLog % 2 = 0 then 1 else 0) + (if wrote then 4 else 0) +
    (if r.wrote ∧ status ≠ 0 then 16 else 0) + (if r.inherited then 32 else 0) + rOp r.bits * 2 ^ 24 + rCtx r.bits * 2 ^ 36

theorem completionBits_eq (q : Queue) (r : Rec) (status : Nat) (wrote : Bool) (seq : Nat) :
    completionBits q r status wrote seq = completionLow q r status wrote +
      (status + (r.pos + seq * 2 ^ 96 + r.result * 2 ^ 128) * 2 ^ 16) * 2 ^ 48 := by
  rw [completionBits, completionLow]
  omega

/-- The fields below the status do not reach it, and their bit 5 is `INHERITED`. -/
theorem completionLow_fields (q : Queue) (r : Rec) (status : Nat) (wrote : Bool) :
    completionLow q r status wrote < 2 ^ 48 ∧ completionLow q r status wrote / 2 ^ 5 % 2 = r.inherited.toNat := by
  have hop : rOp r.bits < 2 ^ 8 := Nat.mod_lt _ (by decide)
  have hctx : rCtx r.bits < 2 ^ 12 := Nat.mod_lt _ (by decide)
  have hvalid := (decide (q.cqTail / 2 ^ q.cqLog % 2 = 0)).toNat_le
  have hwrote := wrote.toNat_le
  have hpart := (decide (r.wrote ∧ status ≠ 0)).toNat_le
  have hinherited := r.inherited.toNat_le
  simp only [completionLow, ite_eq_toNat_mul, Bool.decide_eq_true]
  omega

/-- The status and the `INHERITED` bit of a completion record (R411). -/
theorem completionBits_fields {e : Nat} (q : Queue) (r : Rec) (wrote : Bool) (seq : Nat) (he : e < 2 ^ 16) :
    completionBits q r e wrote seq / 2 ^ 48 % 2 ^ 16 = e ∧ (completionBits q r e wrote seq).testBit 5 = r.inherited := by
  obtain ⟨hlow, hbit⟩ := completionLow_fields q r e wrote
  rw [completionBits_eq]
  exact ⟨by omega, testBit_eq_of_toNat (by omega)⟩

/-- An error word with its marks as numbers (R405). -/
theorem errorWord_eq (code : Nat) (rec notice part inherited : Bool) (seq : Nat) :
    errorWord code rec notice part inherited seq = code + rec.toNat * 2 ^ 16 + notice.toNat * 2 ^ 17 + part.toNat * 2 ^ 18 +
      inherited.toNat * 2 ^ 19 + seq % 2 ^ 32 * 2 ^ 32 := by
  simp only [errorWord, ite_eq_toNat_mul, Bool.decide_eq_true]

/-- The code, `NOTICE` and `INHERITED` of an error word (R405). -/
theorem errorWord_fields {code : Nat} (rec notice part inherited : Bool) (seq : Nat) (hcode : code < 2 ^ 16) :
    errorWord code rec notice part inherited seq % 2 ^ 16 = code ∧
    (errorWord code rec notice part inherited seq).testBit 17 = notice ∧
    (errorWord code rec notice part inherited seq).testBit 19 = inherited := by
  have hrec := rec.toNat_le
  have hnotice := notice.toNat_le
  have hpart := part.toNat_le
  have hinherited := inherited.toNat_le
  rw [errorWord_eq]
  exact ⟨by omega, testBit_eq_of_toNat (by omega), testBit_eq_of_toNat (by omega)⟩

/-- A record that is not silent signals an error by the error word alone, after the fault of a signal fence in an invalid granule (R407). -/
theorem signalRec_of_error {r : Rec} {code : Nat} (l status : Nat) (wrote : Bool) (seq : Nat) (s : State) (hsilent : r.silent = false)
    (hcode : code ≠ 0) :
    signalRec l r code status wrote seq s =
      fenceErr l (r.fences.getD 0 0) (errorWord code wrote false (r.wrote && decide (status ≠ 0)) r.inherited seq)
        (if r.fences.getD 0 0 = 0 then s else granFault l (rCtx r.bits) r.pos [(rSigVa r.bits, [(r.fences.getD 0 0, 16)], 4)] s) := by
  simp [signalRec, hsilent, hcode]

/-- Settles O53: a wait's three outcomes are the branches of `waitOne`, a released record takes the error and its mark from them, and
the completion record and the error word carry both in fields that no other field reaches. -/
theorem fenceWaitsReleaseRecords : Obligations.FenceWaitsReleaseRecords := by
  unfold Obligations.FenceWaitsReleaseRecords
  refine ⟨fun s l a v bs ha hread => ?waits,
    fun s l c p e own r hrec hheld hwaits he => letGo_cons_of_error c [] hrec hheld hwaits he,
    fun q r e seq wrote hinh _ he => ?completion, fun s l e seq wrote r hsilent hinh he hlt => ?signal⟩
  case waits =>
    rw [waitOne_of_read v ha hread]
    refine ⟨fun hmet => if_pos hmet, fun hunmet herr hnotice => ?released, fun hunmet hnone => ?held⟩
    case released => rw [if_neg (Nat.not_le.mpr hunmet), if_pos ⟨herr, hnotice⟩]
    case held =>
      have hnoError : ¬ (unle bs / 2 ^ 64 % 2 ^ 16 ≠ 0 ∧ (unle bs).testBit 81 = false) := by
        rintro ⟨herr, hnotice⟩
        rcases hnone with hzero | hset
        · exact herr hzero
        · exact absurd (hset.symm.trans hnotice) (by decide)
      rw [if_neg (Nat.not_le.mpr hunmet), if_neg hnoError]
  case completion => exact hinh ▸ completionBits_fields q r wrote seq he
  case signal =>
    obtain ⟨hcode, hnotice, hinherited⟩ := errorWord_fields wrote false (r.wrote && decide (e ≠ 0)) r.inherited seq hlt
    exact ⟨_, signalRec_of_error l e wrote seq s hsilent he, hcode, hinherited.trans hinh, hnotice⟩

end Sys2Proof.Proofs

/-! ### Every command performs an effect (R3) and goes on -/

namespace Sys2Proof.Proofs
open Sys2Proof.Machine

/-- `t` is `s` after one command's effect. -/
def Performs (s t : State) : Prop := ∃ f, t = perform s f

theorem performs_of_run {s : State} {f : State → State} {o : Host.Outcome State Fault Refusal} (h : o = run s f) :
    Performs s (outcomeState s o) := ⟨f, h ▸ rfl⟩

theorem performs_control (s : State) (c : Packet × Nat × List Nat) : Performs s (performControl s c) := performs_of_run rfl

/-- A held command is performed; a command that is never held changes nothing. -/
theorem performHeld_eq_or_performs (s : State) (i : Instr) : performHeld s i = s ∨ Performs s (performHeld s i) := by
  unfold performHeld
  split
  rotate_right
  · exact Or.inl rfl
  all_goals exact Or.inr (performs_of_run rfl)

/-- What one effect after another reaches, a fold of them reaches. -/
theorem foldl_transGen {α β : Type} {r : α → α → Prop} {f : α → β → α} (hf : ∀ a b, f a b = a ∨ r a (f a b)) {a₀ a : α}
    (h : Relation.TransGen r a₀ a) (xs : List β) : Relation.TransGen r a₀ (xs.foldl f a) := by
  induction xs generalizing a with
  | nil => exact h
  | cons x xs ih =>
    rcases hf a x with hsame | hstep
    · exact ih (hsame.symm ▸ h)
    · exact ih (h.tail hstep)

/-- Every command is one effect, or, on CHIP_WAKE, that of the wake and of the commands held until then, one after another (R503). -/
theorem exec_performs (c : Instr) (s : State) : ∃ t, exec c s = .next t ∧ Relation.TransGen Performs s t := by
  cases c
  case chipWake =>
    rw [show exec .chipWake s = execChipWake s from rfl, execChipWake]
    split
    · exact ⟨_, rfl, .single ⟨_, rfl⟩⟩
    · have hwoken : Relation.TransGen Performs s (perform s wakeChip) := .single ⟨_, rfl⟩
      exact ⟨_, rfl, foldl_transGen (fun s c => Or.inr (performs_control s c)) (foldl_transGen performHeld_eq_or_performs hwoken _) _⟩
  all_goals exact ⟨_, rfl, .single ⟨_, rfl⟩⟩

/-- What the end of a command does not take back: the queue as it was, no store waiting, what was sent still sent. -/
def GoesOn (s t : State) : Prop := t.pending = s.pending ∧ t.edits = [] ∧ ∃ u, t.out = s.out ++ u

theorem Performs.goesOn {s t : State} (h : Performs s t) : GoesOn s t := by
  obtain ⟨f, rfl⟩ := h
  exact ⟨perform_pending s f, perform_edits s f, perform_out s f⟩

theorem GoesOn.trans {s t u : State} (hst : GoesOn s t) (htu : GoesOn t u) : GoesOn s u := by
  obtain ⟨hp, -, x, hx⟩ := hst
  obtain ⟨hp', he', y, hy⟩ := htu
  exact ⟨hp'.trans hp, he', x ++ y, by rw [hy, hx, List.append_assoc]⟩

theorem goesOn_of_transGen {s t : State} (h : Relation.TransGen Performs s t) : GoesOn s t := by
  induction h with
  | single h => exact h.goesOn
  | tail _ h ih => exact ih.trans h.goesOn

/-- Settles O37: a command is a chain of effects, and each effect keeps the queue and adds to what was sent. -/
theorem everyCommandGoesOn : Obligations.EveryCommandGoesOn := by
  unfold Obligations.EveryCommandGoesOn
  intro c s
  obtain ⟨t, ht, hrun⟩ := exec_performs c s
  exact ⟨t, ht, goesOn_of_transGen hrun⟩

theorem sound_of_transGen {s t : State} (hs : s.sound) (h : Relation.TransGen Performs s t) : t.sound := by
  induction h with
  | single h =>
    obtain ⟨f, rfl⟩ := h
    exact perform_sound f hs
  | tail _ h ih =>
    obtain ⟨f, rfl⟩ := h
    exact perform_sound f ih

theorem step_eq_exec {c : Instr} {rest : List Instr} {s : State} (h : s.pending = c :: rest) :
    step s = exec c { s with pending := rest } := by
  rw [step, h]

theorem step_idle {s : State} (h : s.pending = []) : step s = .next s := by
  rw [step, h]

theorem step_sound {s t : State} (hs : s.sound) (h : step s = .next t) : t.sound := by
  rcases hq : s.pending with _ | ⟨c, rest⟩
  · rw [step_idle hq] at h
    cases h
    exact hs
  · obtain ⟨u, hu, hrun⟩ := exec_performs c { s with pending := rest }
    rw [step_eq_exec hq, hu] at h
    cases h
    have hs' : State.sound { s with pending := rest } := hs
    exact sound_of_transGen hs' hrun

theorem steps_sound (n : Nat) {s t : State} (hs : s.sound) (h : steps n s = some t) : t.sound := by
  induction n generalizing s with
  | zero => cases h; exact hs
  | succ n ih =>
    rw [steps] at h
    split at h
    · exact ih (step_sound hs (by assumption)) h
    · cases h

/-- Settles O38: each effect of a command applies its stores to canonical memory inside the map (`perform_sound`), so a step does, and
by induction so does any number of steps. -/
theorem everyStepKeepsStateSound : Obligations.EveryStepKeepsStateSound := by
  unfold Obligations.EveryStepKeepsStateSound
  exact ⟨fun s t hs h => step_sound hs h, fun n s t hs h => steps_sound n hs h⟩

/-- Settles O36: a step takes the queue's first command, and idles on an empty queue. -/
theorem stepRunsTheCommandInFront : Obligations.StepRunsTheCommandInFront := by
  unfold Obligations.StepRunsTheCommandInFront
  exact ⟨fun c rest s => step_eq_exec rfl, fun s h => step_idle h⟩

/-- Settles O39: after reset no byte is listed and no store waits. -/
theorem resetStateIsSound : Obligations.ResetStateIsSound := by
  unfold Obligations.ResetStateIsSound
  exact ⟨⟨rfl, rfl, rfl⟩, rfl, rfl, rfl, rfl, fun a => rfl⟩

/-- Settles O40: the decoder has no row to match, so no command is put before the queue. -/
theorem noWordSpellsACommand : Obligations.NoWordSpellsACommand := by
  unfold Obligations.NoWordSpellsACommand
  exact fun nbits w => ⟨rfl, fun s => rfl⟩

end Sys2Proof.Proofs

/-! ### Stored bytes (R191, R248) -/

namespace Sys2Proof.Proofs
open Sys2Proof.Machine

/-- Between commands a byte reads as the memory's list has it. -/
theorem readByte_of_edits_nil {s : State} (h : s.edits = []) (a : Nat) : readByte s a = tget 0 s.mem.bytes a := by
  rw [readByte, h, List.find?_nil]

theorem readByte_of_sound {s : State} (h : s.sound) (a : Nat) : readByte s a = tget 0 s.mem.bytes a :=
  readByte_of_edits_nil h.2.2 a

theorem readByte_perform (s : State) (f : State → State) (a : Nat) :
    readByte (perform s f) a = tget 0 (applyEdits (f s.start).edits s.mem.bytes) a :=
  readByte_of_edits_nil (perform_edits s f) a

/-- A store to a populated address is read back there and nowhere else; a store outside the map changes nothing. -/
theorem tget_applyEdit_put {m : List Host.Cell} (h : Memory.wf m = true) (a a' : Nat) (b : Byte) :
    tget 0 (applyEdit (.put a b) m) a' = if a' = a ∧ populated a = true then b else tget 0 m a' := by
  rw [applyEdit]
  by_cases hp : populated a = true
  · rw [if_pos hp]
    by_cases ha : a' = a
    · rw [if_pos ⟨ha, hp⟩, ha, tget_tset_wf 0 m a b h]
    · rw [if_neg fun h => ha h.1, tget_tset_other 0 m b ha]
  · rw [if_neg hp, if_neg fun h => hp h.2]

theorem tabove_of_twf_cons {α : Type} [DecidableEq α] {d : α} {e : Nat × α} {t : List (Nat × α)} (h : twf d (e :: t) = true) :
    tabove e.1 t = true ∧ twf d t = true := by
  simp only [twf, Bool.and_eq_true] at h
  exact ⟨h.1.2, h.2⟩

/-- In a table in canonical form an entry that is left out reads as the default, any other as before. -/
theorem tget_filter {α : Type} [DecidableEq α] (d : α) (p : Nat → Bool) (t : List (Nat × α)) (a : Nat) (h : twf d t = true) :
    tget d (t.filter fun c => p c.1) a = if p a = true then tget d t a else d := by
  induction t with
  | nil => simp
  | cons e t ih =>
    obtain ⟨habove, ht⟩ := tabove_of_twf_cons h
    by_cases hkey : e.1 = a
    · subst hkey
      cases hp : p e.1
      · simpa [hp, tget_above d t habove (Nat.le_refl _)] using ih ht
      · simp [hp, tget]
    · cases hp : p e.1 <;> simp [hp, tget, hkey, ih ht]

/-- The bytes of a zeroed range read 0, all others as before. -/
theorem tget_applyEdit_zero {m : List Host.Cell} (h : Memory.wf m = true) (lo n a : Nat) :
    tget 0 (applyEdit (.zero lo n) m) a = if a < lo ∨ lo + n ≤ a then tget 0 m a else 0 := by
  rw [applyEdit, tget_filter 0 (fun k => decide (k < lo) || decide (lo + n ≤ k)) m a h]
  simp only [Bool.or_eq_true, decide_eq_true_eq]

/-- A run of stores is read back where the map has the addresses, and nowhere else. -/
theorem tget_applyEdits_putBytes {m : List Host.Cell} (h : Memory.wf m = true) (bs : List Byte) (a a' : Nat) (s : State) :
    tget 0 (applyEdits (putBytes a bs s).edits m) a' =
      if a ≤ a' ∧ a' < a + bs.length ∧ populated a' = true then bs.getD (a' - a) 0 else tget 0 (applyEdits s.edits m) a' := by
  induction bs generalizing a s with
  | nil => rw [if_neg fun h => absurd h.1 (Nat.not_le.mpr h.2.1)]; rfl
  | cons b bs ih =>
    rw [putBytes, ih, putByte, applyEdits, tget_applyEdit_put (applyEdits_wf s.edits m h)]
    by_cases hfirst : a' = a
    · subst hfirst
      simp
    · by_cases hin : a + 1 ≤ a' ∧ a' < a + 1 + bs.length ∧ populated a' = true
      · rw [if_pos hin, if_pos ⟨by omega, by rw [List.length_cons]; omega, hin.2.2⟩, show a' - a = a' - (a + 1) + 1 by omega, List.getD_cons_succ]
      · have hout : ¬ (a ≤ a' ∧ a' < a + (b :: bs).length ∧ populated a' = true) := by
          rintro ⟨hlo, hhi, hp⟩
          rw [List.length_cons] at hhi
          exact hin ⟨by omega, by omega, hp⟩
        rw [if_neg hin, if_neg hout, if_neg fun h => hfirst h.1]

/-- While a command runs it reads its own store. -/
theorem readByte_putByte {a : Nat} (hp : populated a = true) (a' : Nat) (b : Byte) (s : State) :
    readByte (putByte a b s) a' = if a' = a then b else readByte s a' := by
  by_cases ha : a' = a
  · simp [readByte, putByte, ha, hp]
  · simp [readByte, putByte, ha, Ne.symm ha]

section
variable {s : State} (hs : s.sound)
include hs

theorem readByte_perform_putByte (a a' : Nat) (b : Byte) :
    readByte (perform s (putByte a b)) a' = if a' = a ∧ populated a = true then b else readByte s a' := by
  rw [readByte_perform, readByte_of_sound hs]
  exact tget_applyEdit_put hs.1 a a' b

theorem readByte_perform_putBytes (a a' : Nat) (bs : List Byte) :
    readByte (perform s (putBytes a bs)) a' =
      if a ≤ a' ∧ a' < a + bs.length ∧ populated a' = true then bs.getD (a' - a) 0 else readByte s a' := by
  rw [readByte_perform, readByte_of_sound hs]
  exact tget_applyEdits_putBytes hs.1 bs a a' s.start

theorem readByte_perform_zeroRange (lo n a : Nat) :
    readByte (perform s (zeroRange lo n)) a = if a < lo ∨ lo + n ≤ a then readByte s a else 0 := by
  rw [readByte_perform, readByte_of_sound hs]
  exact tget_applyEdit_zero hs.1 lo n a

end

/-- Settles O41: reading after a command is reading the list that its stores give, and a store, a run of stores and a zeroed range each
change the list as the clauses say. -/
theorem storedBytesReadBack : Obligations.StoredBytesReadBack := by
  unfold Obligations.StoredBytesReadBack
  refine ⟨fun s a b hs hp => ?same, fun s a a' b hs hne => ?other, fun s a a' b hs hp => ?outside, fun s a i bs hs hp hi => ?run,
    fun s a a' bs hs hout => ?runOther, fun s lo n a hs hlo hhi => ?zeroed, fun s lo n a hs hout => ?zeroedOther,
    fun s a a' b hp => readByte_putByte hp a' b s⟩
  case same => rw [readByte_perform_putByte hs, if_pos ⟨rfl, hp⟩]
  case other => rw [readByte_perform_putByte hs, if_neg fun h => hne h.1]
  case outside => rw [readByte_perform_putByte hs, if_neg fun h => absurd (hp.symm.trans h.2) Bool.false_ne_true]
  case run =>
    rw [readByte_perform_putBytes hs, if_pos ⟨Nat.le_add_right a i, Nat.add_lt_add_left hi a, hp i hi⟩, Nat.add_sub_cancel_left]
  case runOther => rw [readByte_perform_putBytes hs, if_neg (by omega)]
  case zeroed => rw [readByte_perform_zeroRange hs, if_neg (by omega)]
  case zeroedOther => rw [readByte_perform_zeroRange hs, if_pos hout]

end Sys2Proof.Proofs

/-! ### Deadlines (R294, R295) -/

namespace Sys2Proof.Proofs
open Sys2Proof.Machine

theorem dueBefore_iff (a b : ArbReq) : dueBefore a b = true ↔ a.dl ≠ 0 ∧ (b.dl = 0 ∨ a.dl < b.dl) := by
  simp [dueBefore]

/-- Settles O55: the tick read is the latest of the window that agrees with the carried value, and the window is 2^16 ticks wide. -/
theorem deadlinesReadInTheirWindow : Obligations.DeadlinesReadInTheirWindow := by
  unfold Obligations.DeadlinesReadInTheirWindow
  refine ⟨fun now d hnow hd hlt => ?window, fun now => rfl, fun a b ha => ?earlier, fun a b ha => ?none⟩
  case window =>
    rw [readDeadline, if_neg (by omega)]
    refine ⟨by omega, by omega, by omega, fun t ht hlo hhi => by omega⟩
  case earlier => rw [dueBefore_iff, and_iff_right ha]
  case none => rw [Bool.eq_false_iff, Ne, dueBefore_iff]; exact fun h => h.1 ha

end Sys2Proof.Proofs

/-! ### Interrupts and answers (R377, R379, R381) -/

namespace Sys2Proof.Proofs
open Sys2Proof.Machine

section
variable {s : State} {p : Nat}

theorem hportOf_modHport {f : HPort → HPort} (h : f (hportOf s p) ≠ {}) : hportOf (modHport p f s) p = f (hportOf s p) :=
  tget_tmod_same _ _ _ _ h

theorem hportOf_modHport_other {p' : Nat} (f : HPort → HPort) (h : p' ≠ p) : hportOf (modHport p f s) p' = hportOf s p' :=
  tget_tmod_other _ _ _ h

/-- A pending bit that is set is listed, so the port's entry is. -/
theorem hportOf_modHport_pba (v : Nat) :
    hportOf (modHport p (fun h => { h with pba := tset false h.pba v true }) s) p =
      { hportOf s p with pba := tset false (hportOf s p).pba v true } := by
  refine hportOf_modHport fun hdef => ?_
  have hnil : tset false (hportOf s p).pba v true = [] := congrArg HPort.pba hdef
  have hset := tget_tset_same false (hportOf s p).pba v Bool.true_eq_false.mp
  rw [hnil] at hset
  exact Bool.false_ne_true hset

section
variable {n : Nat} {f : MbSlot → MbSlot} (h : (f (slotOf s p n)).state ≠ 0)
include h

/-- A slot that a change leaves busy or done is listed. -/
theorem tget_tmod_slots : tget {} (tmod {} (hportOf s p).slots n f) n = f (slotOf s p n) :=
  tget_tmod_same _ _ _ _ fun hdef => h (congrArg MbSlot.state hdef)

theorem hportOf_modSlot : hportOf (modSlot p n f s) p = { hportOf s p with slots := tmod {} (hportOf s p).slots n f } := by
  refine hportOf_modHport fun hdef => h ?_
  have hnil : tmod {} (hportOf s p).slots n f = [] := congrArg HPort.slots hdef
  rw [← tget_tmod_slots h, hnil]
  rfl

theorem slotOf_modSlot : slotOf (modSlot p n f s) p n = f (slotOf s p n) := by
  rw [slotOf, hportOf_modSlot h]
  exact tget_tmod_slots h

/-- A change of a slot leaves the port's interrupt table. -/
theorem msix_modSlot : (hportOf (modSlot p n f s) p).msix = (hportOf s p).msix := by
  rw [hportOf_modSlot h]

end

theorem raise_masked {v : Nat} (h : (tget (2 ^ 96) (hportOf s p).msix v).testBit 96 = true) :
    raise p v s = modHport p (fun h => { h with pba := tset false h.pba v true }) s := if_pos h

theorem raise_unmasked {v : Nat} (h : (tget (2 ^ 96) (hportOf s p).msix v).testBit 96 = false) :
    raise p v s = { s with out := s.out ++ [.msix p v] } := if_neg (by rw [h]; exact Bool.false_ne_true)

/-- An interrupt leaves the mailbox slots as they are. -/
theorem slotOf_raise (p v p' n : Nat) (s : State) : slotOf (raise p v s) p' n = slotOf s p' n := by
  cases hmask : (tget (2 ^ 96) (hportOf s p).msix v).testBit 96
  · rw [raise_unmasked hmask]
    rfl
  · rw [raise_masked hmask, slotOf, slotOf]
    by_cases hp : p' = p
    · rw [hp, hportOf_modHport_pba]
    · rw [hportOf_modHport_other _ hp]

/-- An interrupt changes what is sent and the host ports alone. -/
theorem raise_eq (p v : Nat) (s : State) : raise p v s = { s with out := (raise p v s).out, hp := (raise p v s).hp } := by
  rw [raise]
  split <;> rfl

end

/-- Settles O58: each clause is a branch of `raise`, `raiseLode` or the list of ports in use. -/
theorem vectorsRaised : Obligations.VectorsRaised := by
  unfold Obligations.VectorsRaised
  refine ⟨fun p v s hmask => ?masked, fun p v s hmask => raise_unmasked hmask, fun l k s hhome hpasid => if_pos ⟨hhome, hpasid⟩,
    fun l k s hnot => ?foreign, fun v s hmode => ?onePort, fun v s hmode => ?twoPorts⟩
  case masked =>
    rw [raise_masked hmask]
    refine ⟨rfl, ?_, fun p' hp => hportOf_modHport_other _ hp, fun v' hv => ?_, rfl⟩
    · rw [hportOf_modHport_pba]
      exact tget_tset_same false _ v Bool.true_eq_false.mp
    · rw [hportOf_modHport_pba]
      exact tget_tset_other false _ true hv
  case foreign =>
    refine if_neg fun ⟨hhome, hpasid⟩ => hnot.elim (fun h => ?_) hpasid
    exact Bool.false_ne_true (h.symm.trans hhome)
  case onePort => rw [raiseAll, hostPorts, if_neg hmode]; rfl
  case twoPorts => rw [raiseAll, hostPorts, if_pos hmode]; rfl

/-- A slot's request answered: the response, and that the slot is done (R379). -/
def answered (status : Nat) (data : List Byte) (m : MbSlot) : MbSlot :=
  { m with state := 2, rtag := m.tag, rlen := data.length, rstat := status, resp := data }

section
variable {p n : Nat} {s : State} (status : Nat) (data : List Byte)

theorem answer_mailbox_busy (h : (slotOf s p n).state = 1) : answer (.mailbox p n) status data s =
    if (slotOf s p n).irq then raise p 3072 (modSlot p n (answered status data) s) else modSlot p n (answered status data) s :=
  if_neg (not_not.mpr h)

theorem answer_mailbox_idle (h : (slotOf s p n).state ≠ 1) : answer (.mailbox p n) status data s = s := if_pos h

theorem answer_sideband {code tag : Nat} {req : List Byte} (h : s.hp.side = some (code, tag, req)) :
    answer .sideband status data s = { s with out := s.out ++ [.sidebandResp tag status data], hp := { s.hp with side := none } } := by
  rw [answer, h]
  rfl

/-- An answer changes what is sent and the host interface alone. -/
theorem answer_eq (via : Via) (s : State) :
    answer via status data s = { s with out := (answer via status data s).out, hp := (answer via status data s).hp } := by
  cases via with
  | mailbox p n =>
    by_cases hbusy : (slotOf s p n).state = 1
    · rw [answer_mailbox_busy _ _ hbusy]
      split
      · exact raise_eq p 3072 _
      · rfl
    · rw [answer_mailbox_idle _ _ hbusy]
  | sideband =>
    rcases hside : s.hp.side with _ | ⟨code, tag, req⟩
    · rw [answer, hside]
    · rw [answer_sideband _ _ hside]
  | relay => rfl
  | member dev n => rfl

end

/-- Settles O57: an answer to a busy slot writes the slot and raises at most one vector, and the other ways of an answer are one message. -/
theorem answersReachTheirIssuer : Obligations.AnswersReachTheirIssuer := by
  unfold Obligations.AnswersReachTheirIssuer
  refine ⟨fun p n status data s hbusy => ?busy, fun p n status data s hidle => answer_mailbox_idle status data hidle,
    fun status code tag req data s hside => answer_sideband status data hside, fun status data s => rfl,
    fun dev n status data s => rfl, fun via status data s t h => h ▸ answer_eq status data via s⟩
  case busy =>
    rw [answer_mailbox_busy status data hbusy]
    have hdone : slotOf (modSlot p n (answered status data) s) p n = answered status data (slotOf s p n) := slotOf_modSlot (by simp [answered])
    refine ⟨?slot, fun hirq => ?silent, fun hirq hmask => ?raised⟩
    case slot =>
      split
      · rw [slotOf_raise, hdone]; rfl
      · exact hdone
    case silent => rw [hirq]; rfl
    case raised =>
      rw [if_pos hirq, raise_unmasked]
      · rfl
      · rw [msix_modSlot (by simp [answered])]; exact hmask

end Sys2Proof.Proofs

/-! ### Requests under a stale epoch (R37, R40) -/

namespace Sys2Proof.Proofs
open Sys2Proof.Machine

/-- The tags of the live epochs, on a chip where no change of the lode over several chips is under way. -/
theorem tagLive_iff {s : State} {l tag : Nat} (htag : tag < 2 ^ 8) (hpreps : (s.ut.preps.all fun p => decide (p.lode ≠ l)) = true)
    (htxns : (s.ut.txns.all fun t => decide (t.lode ≠ l)) = true) :
    tagLive s l tag = true ↔ tag = (lodeOf s l).epoch % 2 ^ 8 ∨
      ((lodeOf s l).prevLive = true ∧ tag = ((lodeOf s l).epoch + 2 ^ 32 - 1) % 2 ^ 8) := by
  have hmod : tag % 256 = tag := Nat.mod_eq_of_lt htag
  have hprep : (s.ut.preps.any fun p => decide (p.lode = l) && decide (p.epoch % 256 = tag % 256)) = false := by
    rw [List.any_eq_false]
    rw [List.all_eq_true] at hpreps
    intro p hp
    simp [of_decide_eq_true (hpreps p hp)]
  have htxn : (s.ut.txns.any fun t => decide (t.lode = l) && decide (t.phase ≠ 3) && decide (t.epoch % 256 = tag % 256)) = false := by
    rw [List.any_eq_false]
    rw [List.all_eq_true] at htxns
    intro t ht
    simp [of_decide_eq_true (htxns t ht)]
  simp only [tagLive, hprep, htxn, Bool.or_false]
  simp only [hmod, Bool.or_eq_true, Bool.and_eq_true, decide_eq_true_eq]
  exact Iff.rfl

/-- On the way to its answer a request reports ways of its own, and changes its master's tokens and counts and its granule cache. -/
def OnlyPays (r : MemReq) (s t : State) : Prop :=
  t = { s with
    out := t.out
    noc := { s.noc with masters := t.noc.masters, served := t.noc.served, grans := t.noc.grans } } ∧
  ∃ ways, t.out = s.out ++ ways ∧ ∀ o ∈ ways, ∃ vc h hs, o = .way r.master r.id vc h hs

section
variable {r : MemReq} {s t u : State}

theorem OnlyPays.trans (hst : OnlyPays r s t) (htu : OnlyPays r t u) : OnlyPays r s u := by
  obtain ⟨ht, w, hw, hways⟩ := hst
  obtain ⟨hu, w', hw', hways'⟩ := htu
  refine ⟨?_, w ++ w', by rw [hw', hw, List.append_assoc], fun o ho => (List.mem_append.mp ho).elim (hways o) (hways' o)⟩
  rw [hu, ht]

/-- A change that sends nothing. -/
theorem onlyPays_of_silent (h : t = { s with
    noc := { s.noc with masters := t.noc.masters, served := t.noc.served, grans := t.noc.grans } }) : OnlyPays r s t := by
  have hout : t.out = s.out := (congrArg State.out h :)
  refine ⟨?_, [], by rw [hout, List.append_nil], fun _ ho => absurd ho List.not_mem_nil⟩
  rw [hout]
  exact h

theorem onlyPays_refl (r : MemReq) (s : State) : OnlyPays r s s := onlyPays_of_silent rfl

/-- Resolving a granule changes the master's granule cache alone (R195). -/
theorem granHit_eq (m l g : Nat) (s : State) :
    (granHit m l g s).2 = { s with noc := { s.noc with grans := (granHit m l g s).2.noc.grans } } := by
  rw [granHit]
  split
  · rfl
  · dsimp only
    split <;> rfl

theorem onlyPays_granHit (m l g : Nat) (s : State) : OnlyPays r s (granHit m l g s).2 := by
  refine onlyPays_of_silent ?_
  rw [granHit_eq]

theorem onlyPays_bucketTake (m l n : Nat) (hnone : tget 0 s.noc.buckets (lodeBucket m l) = 0) : OnlyPays r s (bucketTake m l n s) := by
  refine onlyPays_of_silent ?_
  simp only [bucketTake, hnone, ne_eq, not_true_eq_false, if_false]
  rfl

theorem onlyPays_countBytes (m c n : Nat) (conf : Bool) (s : State) : OnlyPays r s (countBytes m c n conf s) := onlyPays_of_silent rfl

theorem onlyPays_sendWay (vc : MeshVc) (w : Option (Nat × Nat) × List Nat) (s : State) : OnlyPays r s (sendWay r.master r.id vc w s) :=
  ⟨rfl, [.way r.master r.id vc.num w.1 w.2], rfl, fun _ ho => ⟨_, _, _, List.mem_singleton.mp ho⟩⟩

/-- A request that travels reports its way, if its address has one. -/
theorem onlyPays_sendWayTo (vc : MeshVc) (way : Nat → Option (Nat × Nat) × List Nat) (p : Option Nat) (s : State) :
    OnlyPays r s (match p with
      | some p => sendWay r.master r.id vc (way p) s
      | none => s) := by
  cases p
  · exact onlyPays_refl r s
  · exact onlyPays_sendWay _ _ _

end

/-- The request as its master resolves it names the granule slot that the master's cache or the map has. -/
theorem routed_eq (r : MemReq) (s : State) : ∃ h, routed r s = ({ r with route := some h }, (granHit r.master r.lode (r.laddr / 2 ^ 28) s).2) :=
  ⟨_, rfl⟩

/-- An answer to a request is the last thing sent, after at most its way back. -/
theorem answerReq_eq (r : MemReq) (e : Nat) (bs : List Byte) (s : State) :
    ∃ t, answerReq r e bs s = emit (.memResp r.id e bs) t ∧ OnlyPays r s t :=
  ⟨_, rfl, onlyPays_sendWayTo _ _ _ _⟩

theorem mem_tins {α : Type} (t : List (Nat × α)) (k : Nat) (v : α) : (k, v) ∈ tins t k v := by
  induction t with
  | nil => exact List.mem_singleton.mpr rfl
  | cons e t ih =>
    unfold tins
    split
    · exact List.mem_cons_self
    · split
      · exact List.mem_cons_self
      · exact List.mem_cons_of_mem _ ih

/-- A rejected request is answered with `E_STALE_EPOCH`, and kept for its one retry (R40). -/
theorem arrive_stale (r : MemReq) (conf : Bool) (s : State) (h : (lodeOf s r.lode).state = 0 ∨ tagLive s r.lode r.etag = false) :
    arrive r conf s = if r.retried then failReq r Err.staleEpoch s
      else answerReq r Err.staleEpoch [] (modMem (fun m => { m with retries := tins m.retries r.id r }) s) :=
  if_pos (by simpa using h)

theorem failReq_of_no_command {r : MemReq} (h : r.cmd = none) (e : Nat) (s : State) : failReq r e s = answerReq r e [] s := by
  rw [failReq, h]

/-- The state with other requests kept for a retry. -/
def withRetries (rs : Tbl MemReq) (s : State) : State := { s with mem := { s.mem with retries := rs } }

/-- A rejected request is answered and, at its first attempt, kept for its one retry (R40). -/
theorem arrive_rejected {r : MemReq} {s : State} (conf : Bool) (hstale : (lodeOf s r.lode).state = 0 ∨ tagLive s r.lode r.etag = false)
    (hcmd : r.retried = true → r.cmd = none) :
    ∃ t rs, arrive r conf s = emit (.memResp r.id Err.staleEpoch []) t ∧ OnlyPays r (withRetries rs s) t ∧
      (r.retried = false → (r.id, r) ∈ rs) ∧ (r.retried = true → rs = s.mem.retries) := by
  rw [arrive_stale r conf s hstale]
  cases hretried : r.retried
  case true =>
    obtain ⟨t, ht, hanswer⟩ := answerReq_eq r Err.staleEpoch [] s
    rw [if_pos rfl, failReq_of_no_command (hcmd hretried)]
    exact ⟨t, s.mem.retries, ht, hanswer, fun h => absurd h.symm Bool.false_ne_true, fun _ => rfl⟩
  case false =>
    obtain ⟨t, ht, hanswer⟩ := answerReq_eq r Err.staleEpoch [] (withRetries (tins s.mem.retries r.id r) s)
    rw [if_neg Bool.false_ne_true]
    exact ⟨t, _, ht, hanswer, fun _ => mem_tins _ _ _, fun h => absurd h Bool.false_ne_true⟩

theorem OnlyPays.withRetries {r : MemReq} {s t : State} (h : OnlyPays r s t) (rs : Tbl MemReq) :
    OnlyPays r (withRetries rs s) (withRetries rs t) := by
  obtain ⟨ht, hways⟩ := h
  refine ⟨?_, hways⟩
  rw [ht]
  rfl

section
variable {r : MemReq} {s : State} (hbehind : behind s r = false) (hopen : regionClosed s r = false)
  (hnone : tget 0 s.noc.buckets (lodeBucket r.master r.lode) = 0) (htokens : r.len ≤ (masterOf s r.master).tokens)
include hbehind hopen hnone htokens

/-- A request behind no other of its master and lode, whose region is open and whose cost the master's bucket covers, arrives at its controller
as a conforming one, and nothing but its payment has changed. -/
theorem issue_conforming : ∃ h t, issue r s = arrive { r with route := some h } true t ∧ OnlyPays r s t := by
  obtain ⟨h, hrouted⟩ := routed_eq r s
  have hgran : OnlyPays r s (granHit r.master r.lode (r.laddr / 2 ^ 28) s).2 := onlyPays_granHit ..
  have hgrans := granHit_eq r.master r.lode (r.laddr / 2 ^ 28) s
  generalize (granHit r.master r.lode (r.laddr / 2 ^ 28) s).2 = u at hrouted hgran hgrans
  have hbehind' : behind u { r with route := some h } = false := by rw [hgrans]; exact hbehind
  have hopen' : regionClosed u { r with route := some h } = false := by rw [hgrans]; exact hopen
  have hnone' : tget 0 u.noc.buckets (lodeBucket r.master r.lode) = 0 := by rw [hgrans]; exact hnone
  have htokens' : bucketHas u r.master r.lode r.len = true := by
    rw [bucketHas, hnone', if_neg (not_not.mpr rfl), hgrans]
    exact decide_eq_true htokens
  rw [issue, hrouted]
  simp only [hbehind', inject, hopen', takeIn, htokens', if_true, Bool.false_eq_true, if_false]
  exact ⟨h, _, rfl, ((hgran.trans (onlyPays_bucketTake _ _ _ hnone')).trans (onlyPays_countBytes _ _ _ _ _)).trans (onlyPays_sendWayTo _ _ _ _)⟩

/-- A request whose tag is not live pays like any other and is then rejected. -/
theorem issue_stale (hstale : (lodeOf s r.lode).state = 0 ∨ tagLive s r.lode r.etag = false) (hcmd : r.retried = true → r.cmd = none) :
    ∃ t rs, issue r s = emit (.memResp r.id Err.staleEpoch []) t ∧ OnlyPays r (withRetries rs s) t ∧
      (r.retried = false → ∃ h, (r.id, { r with route := some h }) ∈ rs) ∧ (r.retried = true → rs = s.mem.retries) := by
  obtain ⟨h, u, hissue, hpaid⟩ := issue_conforming hbehind hopen hnone htokens
  obtain ⟨hu, -⟩ := id hpaid
  have hstale' : (lodeOf u r.lode).state = 0 ∨ tagLive u r.lode r.etag = false := by rw [hu]; exact hstale
  obtain ⟨t, rs, ht, hanswer, hkept, hsame⟩ := arrive_rejected (r := { r with route := some h }) true hstale' hcmd
  have hmem : u.mem = s.mem := (congrArg State.mem hu :)
  exact ⟨t, rs, hissue.trans ht, (hpaid.withRetries rs).trans hanswer, fun hr => ⟨h, hkept hr⟩, fun hr => (hsame hr).trans (by rw [hmem])⟩

end

/-- A command whose effect only pays and sends one answer stores nothing and changes no more. -/
theorem perform_onlyPays {r : MemReq} {s t : State} {f : State → State} {o : Out} {rs : Tbl MemReq} (hf : f s.start = emit o t)
    (hpaid : OnlyPays r (withRetries rs s.start) t) :
    perform s f = { withRetries rs s with
      out := s.out ++ t.out ++ [o], edits := []
      noc := { s.noc with masters := t.noc.masters, served := t.noc.served, grans := t.noc.grans } } := by
  obtain ⟨ht, -⟩ := hpaid
  have hedits : (emit o t).edits = [] := (congrArg State.edits ht :)
  rw [perform_quiet hf hedits, ht, List.append_assoc]
  rfl

/-- Settles O56: a rejected request is paid for like any other and answered; the state in which the answer is sent differs from the one
before in the payment and the kept request alone. -/
theorem staleRequestsRejected : Obligations.StaleRequestsRejected := by
  unfold Obligations.StaleRequestsRejected
  refine ⟨fun s l tag htag hpreps htxns => tagLive_iff htag hpreps htxns,
    fun r s hedits hbehind hopen hnone htokens hstale hcmd => ?_⟩
  obtain ⟨t, rs, ht, hpaid, hkept, hsame⟩ := issue_stale (s := s.start) hbehind hopen hnone htokens hstale hcmd
  obtain ⟨-, ways, hout, hways⟩ := id hpaid
  have hsent : t.out = ways := hout
  refine ⟨_, ways, congrArg Host.Outcome.next (perform_onlyPays ht hpaid), by rw [hsent], hways, hkept, fun hr => ?_, fun a => ?_, rfl, rfl, rfl, rfl, rfl, rfl,
    rfl, rfl, rfl, rfl, rfl, rfl, rfl, rfl, rfl, rfl⟩
  · rw [hsame hr]
    rfl
  · rw [readByte_of_edits_nil rfl, readByte_of_edits_nil hedits]
    rfl

end Sys2Proof.Proofs

/-! ### Running a command (R3): its effect at the state it starts from -/

namespace Sys2Proof.Proofs
open Sys2Proof.Machine

theorem run_start {s : State} {f g : State → State} (h : f s.start = g s.start) : run s f = .next (perform s g) :=
  congrArg Host.Outcome.next (perform_congr h)

/-- A verb whose request stands on a chip that is awake does what its effect does. -/
theorem verb_requested {via : Via} {code : Nat} {s : State} {f g : State → State} (h : requested via code s) (hf : f s.start = g s.start) :
    verb via code s f = .next (perform s g) :=
  (verb_next h.1 h.2 f).trans (run_start hf)

/-- A command that sends and stores nothing leaves what its effect leaves. -/
theorem perform_silent {s t : State} {f : State → State} (h : f s.start = t) (hout : t.out = []) (hedits : t.edits = [])
    (hbytes : t.mem.bytes = s.mem.bytes) : perform s f = { t with pending := s.pending, out := s.out } := by
  rw [perform_quiet h hedits, hout, List.append_nil, ← hbytes]

/-- A run of updates, one for each entry of a list without repetitions, updates exactly the entries of the list. -/
theorem each_update {σ α : Type} {get : σ → Nat → α} {upd : Nat → σ → σ} {f : α → α} (hsame : ∀ k s, get (upd k s) k = f (get s k))
    (hother : ∀ k j s, j ≠ k → get (upd k s) j = get s j) {xs : List Nat} (hxs : xs.Nodup) (s : σ) (j : Nat) :
    get (each xs upd s) j = if j ∈ xs then f (get s j) else get s j := by
  induction xs generalizing s with
  | nil => rw [if_neg List.not_mem_nil]; rfl
  | cons x xs ih =>
    obtain ⟨hx, hxs⟩ := List.nodup_cons.mp hxs
    rw [show each (x :: xs) upd s = each xs upd (upd x s) from rfl, ih hxs]
    by_cases hj : j = x
    · subst hj
      rw [if_neg hx, if_pos List.mem_cons_self, hsame]
    · rw [hother x j s hj]
      exact if_congr (by rw [List.mem_cons, or_iff_right hj]) rfl rfl

end Sys2Proof.Proofs

/-! ### LODE_CREATE, LODE_QUERY, LODE_DESTROY, REBIND_ABORT (R54, R55, R57) -/

namespace Sys2Proof.Proofs
open Sys2Proof.Machine

section
variable {s : State}

theorem lodeOf_modLode {l : Nat} {f : Lode → Lode} (h : f (lodeOf s l) ≠ {}) : lodeOf (modLode l f s) l = f (lodeOf s l) :=
  tget_tmod_same _ _ _ _ h

theorem lodeOf_modLode_other {l k : Nat} (f : Lode → Lode) (h : k ≠ l) : lodeOf (modLode l f s) k = lodeOf s k :=
  tget_tmod_other _ _ _ h

theorem blockOf_modBlock {b : Nat} {f : Block → Block} (h : f (blockOf s b) ≠ {}) : blockOf (modBlock b f s) b = f (blockOf s b) :=
  tget_tmod_same _ _ _ _ h

theorem blockOf_modBlock_other {b k : Nat} (f : Block → Block) (h : k ≠ b) : blockOf (modBlock b f s) k = blockOf s k :=
  tget_tmod_other _ _ _ h

theorem setOf_modSet {n : Nat} {f : ISet → ISet} (h : f (setOf s n) ≠ {}) : setOf (modSet n f s) n = f (setOf s n) :=
  tget_tmod_same _ _ _ _ h

theorem setOf_modSet_other {n k : Nat} (f : ISet → ISet) (h : k ≠ n) : setOf (modSet n f s) k = setOf s k :=
  tget_tmod_other _ _ _ h

/-- Blocks that all enter one state. -/
theorem blockOf_each_state {bs : List Nat} (hbs : bs.Nodup) (v : Nat) (hv : v ≠ 0) (b : Nat) :
    blockOf (each bs (fun b => modBlock b fun x => { x with state := v }) s) b =
      if b ∈ bs then { blockOf s b with state := v } else blockOf s b :=
  each_update (f := fun x : Block => { x with state := v })
    (fun _ _ => blockOf_modBlock fun h => hv (congrArg Block.state h)) (fun _ _ _ hne => blockOf_modBlock_other _ hne) hbs s b

/-- Sets that all enter one state. -/
theorem setOf_each_state {ns : List Nat} (hns : ns.Nodup) (v : Nat) (hv : v ≠ 0) (n : Nat) :
    setOf (each ns (fun n => modSet n fun t => { t with state := v }) s) n =
      if n ∈ ns then { setOf s n with state := v } else setOf s n :=
  each_update (f := fun x : ISet => { x with state := v })
    (fun _ _ => setOf_modSet fun h => hv (congrArg ISet.state h)) (fun _ _ _ hne => setOf_modSet_other _ hne) hns s n

theorem lodeOf_addOp (o : Op) (k : Nat) : lodeOf (addOp o s) k = lodeOf s k := rfl

theorem bitsOf_nodup (n mask : Nat) : (bitsOf n mask).Nodup := List.nodup_range.filter _

end

/-! #### What a scrub leaves of the lode map (R482) -/

theorem clearBlock_lm (b : Nat) (f : Core → Core) (s : State) : (clearBlock b f s).lm = s.lm := by
  rw [clearBlock, setDma_lm, each_proj State.lm fun e t => modEngine_lm b e _ t, each_proj State.lm fun c t => modCore_lm b c f t]
  rfl

theorem wipeBlock_lm (b : Nat) (s : State) : (wipeBlock b s).lm = s.lm := clearBlock_lm b _ s

theorem wipePcs_lm (pcs : List Nat) (s : State) : (wipePcs pcs s).lm = s.lm := by
  rw [wipePcs]
  exact each_proj State.lm (fun p t => (rfl : (dropPcLines p (zeroRange (p * 0x80000000) 0x80000000 t)).lm = t.lm)) pcs s

theorem wipeSet_lm (n : Nat) (s : State) : (wipeSet n s).lm = s.lm := wipePcs_lm _ s

theorem startScrub_lm (micros kind num : Nat) (what : ScrubFor) (s : State) : (startScrub micros kind num what s).lm =
    { s.lm with scrubs := s.lm.scrubs ++ [{ id := s.lm.scrubNext, micros := micros, what := what }], scrubNext := s.lm.scrubNext + 1 } := by
  rw [startScrub, modLm, (event_q_lm _ _ _ _ _ _ _ _).2]

/-- Wiping blocks and sets leaves the lode map. -/
theorem wipe_lm (bs ns : List Nat) (s : State) : (each ns wipeSet (each bs wipeBlock s)).lm = s.lm :=
  (each_proj State.lm wipeSet_lm ns _).trans (each_proj State.lm wipeBlock_lm bs s)

/-! #### Creation -/

/-- The transport slot of a confidential lode is noted at the lode; nothing else of the lode map changes (R478). -/
theorem makeTransport_lm {l n : Nat} {s : State} (h : freeVault s = some n) :
    (makeTransport l s).lm = (modLode l (fun d => { d with transport := some n }) s).lm := by
  rw [makeTransport, h]
  rfl

theorem firstErr_cons_eq_zero {bad : Bool} {e : Nat} {t : List (Bool × Nat)} (he : e ≠ 0) (h : firstErr ((bad, e) :: t) = 0) :
    bad = false ∧ firstErr t = 0 := by
  cases bad
  · exact ⟨rfl, h⟩
  · exact absurd h he

/-- What a creation without an error has checked: the sets differ, and a confidential lode finds a transport slot (R54, R478). -/
theorem createErr_eq_zero {s : State} {mask : Nat} {sets credits : List Nat} {pasid port : Nat} {conf : Bool}
    (h : createErr s mask sets credits pasid port conf = 0) : sets.Nodup ∧ (conf = true → ∃ n, freeVault s = some n) := by
  obtain ⟨hformat, h⟩ := firstErr_cons_eq_zero (by decide) h
  obtain ⟨-, h⟩ := firstErr_cons_eq_zero (by decide) h
  obtain ⟨-, h⟩ := firstErr_cons_eq_zero (by decide) h
  obtain ⟨-, h⟩ := firstErr_cons_eq_zero (by decide) h
  obtain ⟨-, h⟩ := firstErr_cons_eq_zero (by decide) h
  obtain ⟨-, h⟩ := firstErr_cons_eq_zero (by decide) h
  obtain ⟨hconf, -⟩ := firstErr_cons_eq_zero (by decide) h
  refine ⟨?_, fun hc => ?_⟩
  · simp only [Bool.or_eq_false_iff, Bool.not_eq_false', decide_eq_true_eq] at hformat
    exact hformat.1.1.1.1.1.1.2
  · rw [hc, Bool.true_and, Bool.or_eq_false_iff] at hconf
    exact Option.isSome_iff_exists.mp (by simpa using hconf.2)

section
variable (via : Via) (mask : Nat) (sets credits : List Nat) (pasid port : Nat) (conf : Bool) (l n : Nat)

/-- The lode that a creation founds, forming, its transport slot not yet noted (R54). -/
def foundedLode (s : State) : Lode := {
  gid := foundDev s * 65536 + n, state := 1, pasid := pasid, port := port, coord := true, home := true, homeDev := s.dr.devid, conf := conf }

/-- A lode is entered under its serial number (R54). -/
def enterLode (s : State) : State :=
  modLode l (fun _ => foundedLode pasid port conf n s) (modLm (fun m => { m with lastSerial := n }) s)

/-- A lode is entered, a confidential one with its transport slot (R478). -/
def foundLode (s : State) : State :=
  if conf then makeTransport l (enterLode pasid port conf l n s) else enterLode pasid port conf l n s

/-- The operation of a creation, under the number it gets. -/
def creation (k : Nat) : Op :=
  { num := k, kind := .create, slot := l, blocks := bitsOf 96 mask, sets := sets, added := credits, via := some via }

/-- The blocks and sets of a creation are claimed for the scrub (R54). -/
def claimAll (s : State) : State :=
  each sets (fun m => modSet m fun t => { t with state := 4 }) (each (bitsOf 96 mask) (fun b => modBlock b fun x => { x with state := 4 }) s)

/-- A creation that passes validation: the lode, its operation, its claims, their scrub. -/
def createEff (s : State) : State :=
  let k := opNumber (foundLode pasid port conf l n s)
  startScrub 60000 10 l (.op k) (each sets wipeSet (each (bitsOf 96 mask) wipeBlock
    (claimAll mask sets (addOp (creation via mask sets credits l 0) (foundLode pasid port conf l n s)))))

variable {via mask sets credits pasid port conf l n} {s : State}

theorem exec_lodeCreate (h : requested via 0x0300 s) (herr : createErr s.start mask sets credits pasid port conf = 0)
    (hl : freeIndex s.start = some l) (hn : nextSerial s.start = some n) :
    exec (.lodeCreate via mask sets credits pasid port conf) s = .next (perform s (createEff via mask sets credits pasid port conf l n)) := by
  refine verb_requested h ?_
  simp only [herr, hl, hn]
  rfl

/-- The vault's free slots do not depend on the rest of the state. -/
theorem freeVault_congr {s t : State} (h : t.sec = s.sec) : freeVault t = freeVault s := by
  simp only [freeVault, vslotOf, h]

theorem foundLode_of_not_conf : foundLode pasid port false l n s = enterLode pasid port false l n s := if_neg Bool.false_ne_true

theorem foundLode_lm_of_conf {v : Nat} (hv : freeVault s = some v) : (foundLode pasid port true l n s).lm =
    (modLode l (fun d => { d with transport := some v }) (enterLode pasid port true l n s)).lm := by
  have hsec : (enterLode pasid port true l n s).sec = s.sec := by rw [enterLode, modLode_sec, modLm_sec]
  rw [foundLode, if_pos rfl, makeTransport_lm ((freeVault_congr hsec).trans hv)]

theorem lodeOf_enterLode : lodeOf (enterLode pasid port conf l n s) l = foundedLode pasid port conf n s := by
  rw [enterLode, lodeOf_modLode]
  exact fun h => absurd (congrArg Lode.state h) (Nat.succ_ne_zero 0)

theorem lodeOf_enterLode_other {k : Nat} (hk : k ≠ l) : lodeOf (enterLode pasid port conf l n s) k = lodeOf s k := by
  rw [enterLode, lodeOf_modLode_other _ hk]
  rfl

section
variable (hvault : conf = true → ∃ v, freeVault s = some v)
include hvault

/-- Entering a lode changes the table of lodes and the last serial number, nothing else of the lode map. -/
theorem foundLode_lm :
    (foundLode pasid port conf l n s).lm = { s.lm with lodes := (foundLode pasid port conf l n s).lm.lodes, lastSerial := n } := by
  cases conf
  · simp only [foundLode_of_not_conf, enterLode, modLode, modLm]
  · obtain ⟨v, hv⟩ := hvault rfl
    simp only [foundLode_lm_of_conf hv, enterLode, modLode, modLm]

theorem lodeOf_foundLode :
    lodeOf (foundLode pasid port conf l n s) l = { foundedLode pasid port conf n s with transport := if conf then freeVault s else none } := by
  cases conf
  · rw [foundLode_of_not_conf, lodeOf_enterLode, if_neg Bool.false_ne_true, foundedLode]
  · obtain ⟨v, hv⟩ := hvault rfl
    rw [lodeOf, foundLode_lm_of_conf hv, ← lodeOf, lodeOf_modLode, lodeOf_enterLode, if_pos rfl, hv]
    exact fun h => absurd (congrArg Lode.transport h) (Option.some_ne_none v)

theorem lodeOf_foundLode_other {k : Nat} (hk : k ≠ l) : lodeOf (foundLode pasid port conf l n s) k = lodeOf s k := by
  cases conf
  · rw [foundLode_of_not_conf, lodeOf_enterLode_other hk]
  · obtain ⟨v, hv⟩ := hvault rfl
    rw [lodeOf, foundLode_lm_of_conf hv, ← lodeOf, lodeOf_modLode_other _ hk, lodeOf_enterLode_other hk]

theorem blockOf_foundLode (b : Nat) : blockOf (foundLode pasid port conf l n s) b = blockOf s b := by
  rw [blockOf, foundLode_lm hvault]
  rfl

theorem setOf_foundLode (m : Nat) : Machine.setOf (foundLode pasid port conf l n s) m = Machine.setOf s m := by
  rw [Machine.setOf, foundLode_lm hvault]
  rfl

theorem opNumber_foundLode : opNumber (foundLode pasid port conf l n s) = opNumber s := by
  simp only [opNumber, getOp]
  rw [foundLode_lm hvault]

end

section
variable (mask sets s)

/-- Claims are the states of blocks and of sets. -/
theorem claimAll_lm : (claimAll mask sets s).lm =
    { s.lm with blocks := (claimAll mask sets s).lm.blocks, sets := (claimAll mask sets s).lm.sets } := by
  refine each_preserves (P := fun t : State => t.lm = { s.lm with blocks := t.lm.blocks, sets := t.lm.sets }) (fun m t ht => ?_) _ ?_
  · rw [modSet, ht]
  · exact each_preserves (P := fun t : State => t.lm = { s.lm with blocks := t.lm.blocks, sets := t.lm.sets })
      (fun b t ht => by rw [modBlock, ht]) _ rfl

theorem blockOf_claimAll (b : Nat) :
    blockOf (claimAll mask sets s) b = if b ∈ bitsOf 96 mask then { blockOf s b with state := 4 } else blockOf s b := by
  refine Eq.trans ?_ (blockOf_each_state (s := s) (bitsOf_nodup 96 mask) 4 (by decide) b)
  exact each_proj (f := fun m => modSet m fun t => { t with state := 4 }) (fun t => blockOf t b) (fun m t => rfl) sets _

theorem setOf_claimAll (hsets : sets.Nodup) (m : Nat) :
    setOf (claimAll mask sets s) m = if m ∈ sets then { setOf s m with state := 4 } else setOf s m := by
  rw [claimAll, setOf_each_state hsets 4 (by decide)]
  have hblocks : setOf (each (bitsOf 96 mask) (fun b => modBlock b fun x => { x with state := 4 }) s) m = setOf s m :=
    each_proj (f := fun b => modBlock b fun x => { x with state := 4 }) (fun t => Machine.setOf t m) (fun b t => rfl) _ s
  rw [hblocks]

end

/-- The lode map that a creation leaves: the lode entered, the operation, the claims, the scrub. -/
theorem createEff_lm : (createEff via mask sets credits pasid port conf l n s).lm =
    { (claimAll mask sets (addOp (creation via mask sets credits l 0) (foundLode pasid port conf l n s))).lm with
      scrubs := (foundLode pasid port conf l n s).lm.scrubs ++
        [{ id := (foundLode pasid port conf l n s).lm.scrubNext, micros := 60000, what := .op (opNumber (foundLode pasid port conf l n s)) }]
      scrubNext := (foundLode pasid port conf l n s).lm.scrubNext + 1 } := by
  rw [createEff, startScrub_lm, wipe_lm, claimAll_lm]
  rfl

end

theorem exec_lodeQuery {via : Via} {gid l : Nat} {s : State} (h : requested via 0x0302 s) (hfind : findVia s.start via gid = some l) :
    exec (.lodeQuery via gid) s = .next (perform s (answer via 0 (lodeReport s l))) := by
  refine verb_requested h ?_
  simp only [hfind]
  rfl

section
variable {via : Via} {gid l : Nat} {s : State} (h : requested via 0x0301 s) (hfind : findRun s.start via gid = some l)
  (hlive : (lodeOf s.start l).frozen = false) (hctxs : ctxsOf s.start l = []) (hnamed : lodeNamed s.start l = false)
include h hfind hlive hctxs hnamed

theorem exec_lodeDestroy (hcoord : (lodeOf s.start l).members = [] ∨ (lodeOf s.start l).coord = true) :
    exec (.lodeDestroy via gid) s = .next (perform s fun u => afterOps (destroyLode l via u)) := by
  refine verb_requested h ?_
  have hhere : ¬ (multichip s.start l = true ∧ (!(lodeOf s.start l).coord) = true) := by
    rintro ⟨hmulti, hnot⟩
    rcases hcoord with hnone | hc
    · rw [multichip, hnone] at hmulti
      exact Bool.false_ne_true hmulti
    · rw [hc] at hnot
      exact Bool.false_ne_true hnot
  simp only [hfind, hlive, if_neg hhere, doDestroy, hctxs, hnamed, List.isEmpty_nil, Bool.not_true, Bool.false_eq_true, if_false]

end

theorem destroyLode_alone {l : Nat} {s : State} (h : (lodeOf s l).members = []) (via : Via) : destroyLode l via s = startDestroy l (some via) s := by
  rw [destroyLode, multichip, h]
  rfl

theorem destroyLode_over_chips {l : Nat} {s : State} (h : (lodeOf s l).members ≠ []) (via : Via) :
    destroyLode l via s = commit l (.members [] (some via)) (modLode l (fun d => { d with destroyVias := [] }) s) := by
  rw [destroyLode, multichip, if_pos (by simpa using h)]

theorem exec_rebindAbort {via : Via} {op : Nat} {o : Op} {s : State} (h : requested via 0x0314 s) (hop : getOp s.start op = some o)
    (hkind : isRebind o.kind = true) (hfirst : o.committed = false) (hbegun : o.begun = false) :
    exec (.rebindAbort via op) s = .next (perform s fun u => afterOps (answer via 0 [] (endOp op Err.cancelled u))) := by
  refine verb_requested h ?_
  simp only [hop, Option.filter_some, hkind, if_true, hfirst, hbegun, Bool.false_eq_true, or_self, if_false]

/-- Settles O2: a creation's lode map is followed through its four parts (the entry, the operation, the claims, the scrub); a destruction is
`destroyLode` once its checks pass. -/
theorem lodesFoundedReportedDestroyed : Obligations.LodesFoundedReportedDestroyed := by
  unfold Obligations.LodesFoundedReportedDestroyed
  refine ⟨?create, fun via gid l s h hfind => exec_lodeQuery h hfind, fun via gid l s h hfind hlive hmembers hctxs hnamed => ?alone,
    fun via gid l s h hfind hlive hmembers hcoord hctxs hnamed => ?chips, fun l v s => ?started,
    fun via op o s h hop hkind hfirst hbegun => exec_rebindAbort h hop hkind hfirst hbegun⟩
  case alone =>
    rw [exec_lodeDestroy h hfind hlive hctxs hnamed (Or.inl hmembers)]
    exact congrArg _ (perform_congr (congrArg afterOps (destroyLode_alone (s := s.start) hmembers via)))
  case chips =>
    rw [exec_lodeDestroy h hfind hlive hctxs hnamed (Or.inr hcoord)]
    exact congrArg _ (perform_congr (congrArg afterOps (destroyLode_over_chips (s := s.start) hmembers via)))
  case started =>
    simp only [startDestroy, lodeOf_addOp]
    exact ⟨lodeOf_modLode fun h => absurd (congrArg Lode.state h) (Nat.succ_ne_zero 3), fun k hk => lodeOf_modLode_other _ hk, rfl⟩
  case create =>
    intro via mask sets credits pasid port conf s l n h herr hl hn
    obtain ⟨hsets, hvault⟩ := createErr_eq_zero herr
    have hvault : conf = true → ∃ v, freeVault s.start = some v := hvault
    refine ⟨_, exec_lodeCreate h herr hl hn, ?_⟩
    have hlm : (perform s (createEff via mask sets credits pasid port conf l n)).lm = _ := createEff_lm
    have hclaim := claimAll_lm mask sets (addOp (creation via mask sets credits l 0) (foundLode pasid port conf l n s.start))
    have hfound := foundLode_lm (l := l) (n := n) (pasid := pasid) (port := port) hvault
    have hnum : opNumber (foundLode pasid port conf l n s.start) = opNumber s := opNumber_foundLode hvault
    have hblock (b : Nat) := blockOf_claimAll mask sets (addOp (creation via mask sets credits l 0) (foundLode pasid port conf l n s.start)) b
    have hset (m : Nat) := setOf_claimAll mask sets (addOp (creation via mask sets credits l 0) (foundLode pasid port conf l n s.start)) hsets m
    refine ⟨?lode, fun k hk => ?lodes, ?serial, fun b hb => ?claimed, fun b hb => ?block, fun m hm => ?claimedSet, fun m hm => ?set, ?op, ?scrub⟩
    case lode =>
      rw [lodeOf, hlm, hclaim]
      exact lodeOf_foundLode hvault
    case lodes =>
      rw [lodeOf, hlm, hclaim]
      exact lodeOf_foundLode_other hvault hk
    case serial =>
      rw [hlm, hclaim]
      exact congrArg LodeMap.lastSerial hfound
    case claimed =>
      rw [blockOf, hlm]
      exact ((hblock b).trans (if_pos hb)).trans (congrArg (fun x : Block => { x with state := 4 }) (blockOf_foundLode hvault b))
    case block =>
      rw [blockOf, hlm]
      exact ((hblock b).trans (if_neg hb)).trans (blockOf_foundLode hvault b)
    case claimedSet =>
      rw [Machine.setOf, hlm]
      exact ((hset m).trans (if_pos hm)).trans (congrArg (fun x : ISet => { x with state := 4 }) (setOf_foundLode hvault m))
    case set =>
      rw [Machine.setOf, hlm]
      exact ((hset m).trans (if_neg hm)).trans (setOf_foundLode hvault m)
    case op =>
      rw [hlm, hclaim, ← hnum]
      have hops : (foundLode pasid port conf l n s.start).lm.ops = s.lm.ops := (congrArg LodeMap.ops hfound :)
      rw [← hops]
      rfl
    case scrub =>
      rw [hlm, hnum, hfound]

end Sys2Proof.Proofs

/-! ### The rebinding verbs (R42, R46, R50, R51, R53) -/

namespace Sys2Proof.Proofs
open Sys2Proof.Machine

theorem startOp_of_room {s : State} (h : rebinds s < 8) (i : Instr) (go : State → State) : startOp i go s = go s :=
  if_neg (Nat.not_le.mpr h)

section
variable {via : Via} {s : State} {d r : Nat}

theorem startBlockMove_ok {mask donor receiver deadline : Nat} (hd : findRun s via donor = some d) (hr : findRun s via receiver = some r)
    (herr : blockMoveErr s mask d r deadline = 0) :
    startBlockMove via mask donor receiver deadline s = each (bitsOf 96 mask) markDrain (addOp {
      num := 0, kind := .blockMove, step := 3, donor := d, receiver := r, blocks := bitsOf 96 mask
      deadline := if deadline = 0 then 100 else deadline, via := some via } s) := by
  simp only [startBlockMove, hd, hr, herr, ne_eq, not_true_eq_false, if_false]

theorem startChannelMove_ok {n donor receiver rate : Nat} (hd : findRun s via donor = some d) (hr : findRun s via receiver = some r)
    (herr : channelMoveErr s n d r rate = 0) :
    startChannelMove via n donor receiver rate s =
      copiesDone (opNumber s) (planCopies (opNumber s) d (onSet s d n) (freeElsewhere s d n) (addOp {
        num := 0, kind := .channelMove, step := 2, donor := d, receiver := r, sets := [n], granules := onSet s d n
        rate := theRate rate, via := some via } s)) := by
  simp only [startChannelMove, hd, hr, herr, ne_eq, not_true_eq_false, if_false]

theorem startGranules_ok {lode l : Nat} {gs : List Nat} {dest rate : Nat} (hl : findRun s via lode = some l)
    (herr : granuleErr s l gs dest rate = 0) :
    startGranules via lode gs dest rate s =
      planCopies (opNumber s) l gs ((freeSlots s l dest).map fun x => (dest, x)) (addOp {
        num := 0, kind := .granuleMigrate, step := 2, donor := l, receiver := l, granules := gs, dest := dest
        rate := theRate rate, via := some via } s) := by
  simp only [startGranules, hl, herr, ne_eq, not_true_eq_false, if_false]

theorem startCredits_ok {p units donor receiver : Nat} (hd : findRun s via donor = some d) (hr : findRun s via receiver = some r)
    (herr : creditErr s p units d r = 0) :
    startCredits via p units donor receiver s = commit d (.credit (opNumber s)) (addOp {
      num := 0, kind := .creditMove, donor := d, receiver := r, port := p, units := units, via := some via } s) := by
  simp only [startCredits, hd, hr, herr, ne_eq, not_true_eq_false, if_false]

end

/-- Blocks of a list that all start to drain. -/
theorem blockOf_each_markDrain {bs : List Nat} (hbs : bs.Nodup) (s : State) (b : Nat) :
    blockOf (each bs markDrain s) b = if b ∈ bs then { blockOf s b with state := 2, drain := true } else blockOf s b :=
  each_update (f := fun x : Block => { x with state := 2, drain := true })
    (fun _ _ => blockOf_modBlock fun h => absurd (congrArg Block.state h) (Nat.succ_ne_zero 1)) (fun _ _ _ hne => blockOf_modBlock_other _ hne) hbs s b

/-- Marking blocks changes the table of blocks alone. -/
theorem each_markDrain_eq (bs : List Nat) (s : State) :
    each bs markDrain s = { s with lm := { s.lm with blocks := (each bs markDrain s).lm.blocks } } :=
  each_preserves (P := fun t : State => t = { s with lm := { s.lm with blocks := t.lm.blocks } })
    (fun b t ht => by rw [markDrain, modBlock, ht]) _ rfl

/-- Settles O3: with its checks passed each verb is the body of its `start…`, and draining marks go to the table of blocks alone. -/
theorem rebindingOperationsStart : Obligations.RebindingOperationsStart := by
  unfold Obligations.RebindingOperationsStart
  refine ⟨fun via mask donor receiver deadline d r s h hroom hd hr herr => ?blocks, fun via n donor receiver rate d r s h hroom hd hr herr => ?channels,
    fun via lode dest rate l gs s h hroom hl herr => ?granules, fun via p units donor receiver d r s h hroom hd hr herr => ?credits⟩
  case channels =>
    refine verb_requested h ?_
    rw [startOp_of_room (s := s.start) hroom, startChannelMove_ok (s := s.start) hd hr herr]
    rfl
  case granules =>
    refine verb_requested h ?_
    rw [startOp_of_room (s := s.start) hroom, startGranules_ok (s := s.start) hl herr]
    rfl
  case credits =>
    refine verb_requested h ?_
    rw [startOp_of_room (s := s.start) hroom, startCredits_ok (s := s.start) hd hr herr]
    rfl
  case blocks =>
    have hstart : startOp (.blockMove via mask donor receiver deadline) (startBlockMove via mask donor receiver deadline) s.start = _ :=
      (startOp_of_room (s := s.start) hroom _ _).trans (startBlockMove_ok (s := s.start) hd hr herr)
    have hmarks := each_markDrain_eq (bitsOf 96 mask) (addOp {
      num := 0, kind := .blockMove, step := 3, donor := d, receiver := r, blocks := bitsOf 96 mask
      deadline := if deadline = 0 then 100 else deadline, via := some via } s.start)
    have hblock (b : Nat) := blockOf_each_markDrain (bitsOf_nodup 96 mask) (addOp {
      num := 0, kind := .blockMove, step := 3, donor := d, receiver := r, blocks := bitsOf 96 mask
      deadline := if deadline = 0 then 100 else deadline, via := some via } s.start) b
    have hrun := perform_silent (hstart.trans hmarks) rfl rfl rfl
    refine ⟨_, (verb_next h.1 h.2 _).trans (congrArg Host.Outcome.next hrun), rfl, fun b hb => ?_, fun b hb => ?_, rfl⟩
    · exact (hblock b).trans (if_pos hb)
    · exact (hblock b).trans (if_neg hb)

end Sys2Proof.Proofs

/-! ### The steps of rebinding operations (R38, R40, R46, R48, R50, R516) -/

namespace Sys2Proof.Proofs
open Sys2Proof.Machine

/-- A loop that changes nothing at any of its entries changes nothing. -/
theorem each_self {α σ : Type} {f : α → σ → σ} {s : σ} {xs : List α} (h : ∀ x ∈ xs, f x s = s) : each xs f s = s := by
  induction xs with
  | nil => rfl
  | cons x xs ih =>
    rw [show each (x :: xs) f s = each xs f (f x s) from rfl, h x List.mem_cons_self]
    exact ih fun y hy => h y (List.mem_cons_of_mem x hy)

/-! #### Blocks drain (R46) -/

section
variable {b : Nat} {o : Op} {s : State} (hstate : (blockOf s b).state = 2) (hfree : launchFree s b = true) (hreset : (blockOf s b).resetting = false)
  (hpower : s.pwr.shutdown = 0) (hop : (s.lm.ops.find? fun o => o.kind = .blockMove ∧ o.step = 3 ∧ o.blocks.contains b) = some o)
  (hnew : b ∉ o.drained)
include hstate hfree hreset hpower hop hnew

/-- A drained block is noted at its operation, and the last one asks for the donor's commit. -/
theorem blockDrainedEff_eq : blockDrainedEff b s =
    if o.blocks.all fun x => (o.drained ++ [b]).contains x then
      commit o.donor (.detach o.num o.blocks)
        (modOp o.num (fun p => { p with step := 4 }) (modOp o.num (fun p => { p with drained := o.drained ++ [b] }) s))
    else modOp o.num (fun p => { p with drained := o.drained ++ [b] }) s := by
  have hcond : (blockOf s b).state = 2 ∧ launchFree s b = true ∧ (!(blockOf s b).resetting) = true ∧ s.pwr.shutdown = 0 :=
    ⟨hstate, hfree, by rw [hreset]; rfl, hpower⟩
  have hds : (if o.drained.contains b then o.drained else o.drained ++ [b]) = o.drained ++ [b] := if_neg (by simpa using hnew)
  rw [blockDrainedEff, if_pos hcond, hop]
  simp only [hds]

end

/-! #### The end of an epoch's drain (R38) -/

/-- The lode whose previous epoch has drained on this chip. -/
def drainedLode (s : State) (d : Lode) : Lode :=
  { d with prevLive := false, undrained := d.undrained.filter fun m => !(d.coord && decide (m = s.dr.devid)) }

theorem exec_epochDrained {l : Nat} {s : State} (hlive : (lodeOf s.start l).state ≠ 0) (hdone : outstanding s.start l (drainTag s.start l) = false) :
    exec (.epochDrained l) s = .next (perform s fun u => afterOps (epochDrainedEff l u)) := by
  refine run_start ?_
  simp only [hlive, hdone, Bool.false_eq_true, or_self, if_false]

/-- With nothing waiting a pump does nothing. -/
theorem pump_of_nothing_waiting {s : State} (hwait : s.lm.waiting = []) : pump s = s := by
  have hsame : modLm (fun m => { m with waiting := [] }) s = s := by rw [modLm, ← hwait]
  rw [pump, hwait, pumpGo, hsame, ite_self]

/-- No destruction waits at any lode. -/
theorem wakeDestroys_of_none {s : State} (h : ∀ k, (lodeOf s k).destroyVias = []) : wakeDestroys s = s :=
  each_self fun l _ => by rw [h l]

theorem settlePredicted_of_none {s : State} (h : ∀ p, (pcOf s p).predicted = false) : settlePredicted s = s := by
  have hnone : (s.lm.sets.filter fun t => (t.2.state = 1 ∨ t.2.state = 2) ∧ (pcsOfSet s t.1).any fun p => (pcOf s p).predicted) = [] := by
    simp [h]
  rw [settlePredicted, hnone]
  rfl

/-- The end of an operation with nothing waiting for one releases nothing. -/
theorem afterOps_of_nothing_waiting {s : State} (hwait : s.lm.waiting = []) (hheld : s.lm.opHeld = [])
    (hdestroys : ∀ k, (lodeOf s k).destroyVias = []) (hpcs : ∀ p, (pcOf s p).predicted = false) : afterOps s = s := by
  have hsame : modLm (fun m => { m with opHeld := [] }) s = s := by rw [modLm, ← hheld]
  rw [afterOps, pump_of_nothing_waiting hwait, wakeDestroys_of_none hdestroys, settlePredicted_of_none hpcs, hheld, hsame]
  rfl

/-- A lode of this chip alone that nothing waits for: the end of its drain clears its previous epoch and nothing else. -/
theorem epochDrainedEff_alone {l : Nat} {s : State} (hstate : (lodeOf s l).state ≠ 0) (hops : (s.lm.ops.filter fun o => o.donor = l) = [])
    (hwait : s.lm.waiting = []) (hmembers : (lodeOf s l).members = []) : epochDrainedEff l s = modLode l (drainedLode s) s := by
  have hlode : lodeOf (modLode l (drainedLode s) s) l = drainedLode s (lodeOf s l) :=
    lodeOf_modLode fun h => hstate (congrArg Lode.state h)
  have htell : tellDrained l (modLode l (drainedLode s) s) = modLode l (drainedLode s) s := by
    rw [tellDrained, hlode, show (drainedLode s (lodeOf s l)).members = [] from hmembers]
    exact ite_self _
  have hresume : resumeDrained l (modLode l (drainedLode s) s) = modLode l (drainedLode s) s := by
    rw [resumeDrained, show ((modLode l (drainedLode s) s).lm.ops.filter fun o => o.donor = l) = [] from hops]
    simp only [each, List.foldl_nil, ite_self]
    exact pump_of_nothing_waiting hwait
  have hdone : epochDrainedEff l s = resumeDrained l (wh (lodeOf s l).prevLive (tellDrained l) (modLode l (drainedLode s) s)) := by
    refine congrArg (resumeDrained l) (if_neg fun h => ?_)
    have hmore : (!(lodeOf (modLode l (drainedLode s) s) l).members.isEmpty) = true := h.2.1
    rw [hlode, show (drainedLode s (lodeOf s l)).members = [] from hmembers] at hmore
    exact Bool.false_ne_true hmore
  rw [hdone, wh, htell, ite_self, hresume]

theorem destroyVias_modLode {l : Nat} {s : State} (h : ∀ k, (lodeOf s k).destroyVias = []) (hstate : (lodeOf s l).state ≠ 0) (k : Nat) :
    (lodeOf (modLode l (drainedLode s) s) k).destroyVias = [] := by
  by_cases hk : k = l
  · subst hk
    rw [lodeOf_modLode fun hd => hstate (congrArg Lode.state hd)]
    exact h k
  · rw [lodeOf_modLode_other _ hk]
    exact h k

/-! #### Copies and settled granules (R48, R50, R51) -/

theorem exec_granuleCopyDone {l g n : Nat} {s : State} (hvalid : (granOf s.start l g).valid = true) (hmig : (granOf s.start l g).mig = 1)
    (hcopied : (granOf s.start l g).copied = false) (hop : (granOf s.start l g).op = some n) (hruns : copyRuns s.start l g = true) :
    exec (.granuleCopyDone l g) s = .next (perform s fun u => afterOps (copiesDone n (startCopies n
      (modGran l g (fun e => { e with copied := true }) (chargeHead s.img.applied.migClass (2 ^ 28) (dropCopy l g
        (copySlot (granOf s l g).set (granOf s l g).slot (granOf s l g).dset (granOf s l g).dslot u))))))) := by
  refine run_start ?_
  simp only [hop, hvalid, hmig, hcopied, hruns, Bool.not_false, and_self, if_true]
  rfl

theorem exec_endOfForward {l g n : Nat} {s : State} (hvalid : (granOf s.start l g).valid = true) (hmig : (granOf s.start l g).mig = 2)
    (hdrained : drained s.start l = true) (hop : (granOf s.start l g).op = some n) :
    exec (.endOfForward l g) s = .next (perform s fun u => afterOps (settledAll n (each (granOf s l g).held serveReq
      (modGran l g (fun e => { e with mig := 0, dset := 0, dslot := 0, copied := false, op := none, held := [] })
        (dropSlotLines (granOf s l g).dset (granOf s l g).dslot u))))) := by
  refine run_start ?_
  simp only [hvalid, hmig, hdrained, hop, and_self, if_true]
  rfl

/-- Settles O4: the steps' commands are their effects once the stated conditions select the branch; a drain that nothing waits for leaves
`pump` and `afterOps` nothing to do. -/
theorem rebindingStepsAdvance : Obligations.RebindingStepsAdvance := by
  unfold Obligations.RebindingStepsAdvance
  refine ⟨fun b o s hstate hfree hreset hpower hop hnew hsome => ?noted, fun b o s hstate hfree hreset hpower hop hnew hall => ?last,
    fun op o s hop hkind hstep hheld => ?timeout, fun l s hlive hdone => exec_epochDrained hlive hdone, fun l s hout => ?outstanding,
    fun l s hstate hdone hops hwait hopHeld hpower hdestroys hmembers hpcs => ?alone,
    fun l g n s hvalid hmig hcopied hop hruns => exec_granuleCopyDone hvalid hmig hcopied hop hruns,
    fun l g n s hvalid hmig hdrained hop => exec_endOfForward hvalid hmig hdrained hop, fun id n r s hkept => ?retry,
    fun r conf s hstale => arrive_stale r conf s hstale⟩
  case noted =>
    exact run_start ((blockDrainedEff_eq (s := s.start) hstate hfree hreset hpower hop hnew).trans (if_neg (by rw [hsome]; exact Bool.false_ne_true)))
  case last =>
    exact run_start ((blockDrainedEff_eq (s := s.start) hstate hfree hreset hpower hop hnew).trans (if_pos hall))
  case timeout =>
    refine run_start ?_
    simp only [show getOp s.start op = some o from hop, Option.filter_some, hkind, hstep, and_self, decide_true, if_true,
      show lodeHeld s.start o.donor = false from hheld, Bool.false_eq_true, if_false]
  case outstanding => exact run_start (if_pos (Or.inr hout))
  case retry =>
    refine run_start ?_
    simp only [show (s.start.mem.retries.find? fun t => t.1 = id) = some (n, r) from hkept]
    rfl
  case alone =>
    have hlive : (lodeOf s.start l).state ≠ 0 := by
      rw [show (lodeOf s.start l).state = 2 from hstate]
      decide
    have heff : afterOps (epochDrainedEff l s.start) = modLode l (drainedLode s) s.start := by
      rw [epochDrainedEff_alone (s := s.start) hlive hops hwait hmembers]
      exact afterOps_of_nothing_waiting hwait hopHeld (destroyVias_modLode (s := s.start) hdestroys hlive) hpcs
    have hrun := perform_silent (f := fun u => afterOps (epochDrainedEff l u)) heff rfl rfl rfl
    have hlode : lodeOf (modLode l (drainedLode s) s.start) l = drainedLode s (lodeOf s l) :=
      lodeOf_modLode fun hd => hlive (congrArg Lode.state hd)
    refine ⟨_, (exec_epochDrained hlive hdone).trans (congrArg Host.Outcome.next hrun), ?_, ?_, fun k hk => lodeOf_modLode_other _ hk, rfl⟩
    · exact (congrArg Lode.prevLive hlode :)
    · exact (congrArg Lode.epoch hlode :)

end Sys2Proof.Proofs

/-! ### Register writes that are admitted (R164, R501, R574, R605) -/

namespace Sys2Proof.Proofs
open Sys2Proof.Machine

section
variable {who : Writer} {f off : Nat} {s : State}

theorem bootDone_congr {t : State} (h : t.chip = s.chip) : bootDone t = bootDone s := by
  rw [bootDone, bootDone, h]

theorem unlocked_congr {t : State} (h : t.img = s.img) : unlocked t f = unlocked s f := by
  rw [unlocked, unlocked, h]

/-- An admitted write for no other reason turned away reaches its register, after what a host's access takes (R273). -/
theorem regWrite_admitted (h : admits who f s) (k : State → State) : regWrite who f off 0 k s = k (entered who s) := by
  obtain ⟨hreach, hhost⟩ := h
  have hboot : ¬ (isHost who = true ∧ (!bootDone (entered who s)) = true ∧ f ≠ 13 ∧ f ≠ 14) := by
    rintro ⟨hw, hb, -⟩
    rw [bootDone_congr (entered_chip who s), (hhost hw).2.1] at hb
    exact Bool.false_ne_true hb
  have hlock : ¬ (isHost who = true ∧ (!unlocked (entered who s) f) = true) := by
    rintro ⟨hw, hu⟩
    rw [unlocked_congr (entered_img who s), (hhost hw).2.2] at hu
    exact Bool.false_ne_true hu
  simp only [regWrite, hreach, Bool.not_true, Bool.false_eq_true, if_false, if_neg hboot, if_neg hlock, ne_eq, not_true_eq_false, false_and]

theorem regCmd_admitted {i : Instr} {k g : State → State} (h : admits who f s.start) (hk : k (entered who s.start) = g s.start) :
    regCmd i who f off 0 s k = .next (perform s g) := by
  refine run_start (Eq.trans (b := regWrite who f off 0 k s.start) ?_ ((regWrite_admitted h k).trans hk))
  split
  · exact if_neg (by rw [(h.2 ‹_›).1]; exact Bool.false_ne_true)
  · rfl

theorem powerCmd_admitted {k g : State → State} (h : admits who f s.start) (hk : k (entered who s.start) = g s.start) :
    powerCmd who f off 0 s k = .next (perform s g) :=
  run_start ((regWrite_admitted h k).trans hk)

end

end Sys2Proof.Proofs

/-! ### The expert registers (R59, R60) -/

namespace Sys2Proof.Proofs
open Sys2Proof.Machine

section
variable {s t : State}

theorem stageAgrees_congr (h : t.lm = s.lm) (m : Stage) : stageAgrees t m = stageAgrees s m := by
  unfold stageAgrees lodeOf blockOf Machine.setOf creditOf
  rw [h]

theorem stagedGroup_congr (h : t.lm = s.lm) : stagedGroup t = stagedGroup s := by
  rw [stagedGroup, stagedGroup, h]

theorem stageAgrees_modLm (m g : Stage) : stageAgrees (modLm (fun k => { k with live := g }) s) m = stageAgrees s m := rfl

/-- A write of `GO` with the group's own kind takes a group that agrees and runs it (R60). -/
theorem stageGo_agreeing {kind : Nat} (hidle : s.lm.opState ≠ 1) (hcommits : s.lm.opState ≠ 2) (hkind : s.lm.stKind = kind)
    (hagree : stageAgrees s (stagedGroup s) = true) :
    stageGo kind s = afterOps (stageRun (modLm (fun m => { m with live := stagedGroup s }) s)) := by
  simp only [stageGo, hidle, hcommits, hkind, ne_eq, not_true_eq_false, or_self, if_false, stageAgrees_modLm, hagree, if_true]

theorem stageCmd_agreeing {who : Writer} {kind : Nat} (i : Instr) (h : admits who 1 s) (hidle : s.lm.opState ≠ 1) (hcommits : s.lm.opState ≠ 2)
    (hkind : s.lm.stKind = kind) (hagree : stageAgrees s (stagedGroup s) = true) :
    stageCmd i who kind s = .next (perform s fun u => afterOps (stageRun (modLm (fun m => { m with live := stagedGroup s }) (entered who u)))) := by
  have hlm : (entered who s.start).lm = s.lm := entered_lm who s.start
  refine regCmd_admitted h ?_
  rw [← stagedGroup_congr hlm] at hagree ⊢
  rw [← stageAgrees_congr hlm] at hagree
  exact stageGo_agreeing (by rwa [hlm]) (by rwa [hlm]) (by rwa [hlm]) hagree

end

/-- Settles O5: an admitted write reaches `drainWrite` and `stageGo`; a staged step without an error takes the branch of its kind. -/
theorem expertLodeMapSteps : Obligations.ExpertLodeMapSteps := by
  unfold Obligations.ExpertLodeMapSteps
  refine ⟨fun who b v s h hb hdrain hstate => ?drain, fun who s h hidle hcommits hagree =>
      ⟨fun hk => stageCmd_agreeing _ h hidle hcommits hk hagree, fun hk => stageCmd_agreeing _ h hidle hcommits hk hagree,
        fun hk => stageCmd_agreeing _ h hidle hcommits hk hagree, fun hk => stageCmd_agreeing _ h hidle hcommits hk hagree,
        fun hk => stageCmd_agreeing _ h hidle hcommits hk hagree⟩,
    fun m s hm hkind hdonor herr hroom => ?detach, fun m s hm hkind hrecv h3 h4 herr hroom => ?attach,
    fun m s hm hkind hdonor herr hroom => ?cutover, fun m s hm hkind hrecv h4 herr hroom => ?attachSet,
    fun m s hm hkind hdonor hrecv herr hroom => ?credit, fun s hstate hwait hagree => ?expiry⟩
  case drain =>
    have hblock : (blockOf (entered who s.start) b).state = 1 := by rwa [blockOf, entered_lm]
    rw [show exec (.lmBlockDrainWrite who b v) s = execLmBlockDrainWrite who b v s from rfl, execLmBlockDrainWrite, if_neg (Nat.not_le.mpr hb)]
    refine regCmd_admitted h ?_
    rw [drainWrite, if_pos hdrain, if_pos hblock]
    rfl
  case detach => simp [stageRun, hm, hkind, hdonor, herr, Nat.not_le.mpr hroom]
  case attach => simp [stageRun, hm, hkind, hrecv, h3, h4, herr, Nat.not_le.mpr hroom]
  case cutover => simp [stageRun, hm, hkind, hdonor, herr, Nat.not_le.mpr hroom]
  case attachSet => simp [stageRun, hm, hkind, hrecv, h4, herr, Nat.not_le.mpr hroom]
  case credit => simp [stageRun, hm, hkind, hdonor, hrecv, herr, Nat.not_le.mpr hroom]
  case expiry =>
    have hfails : stageAgrees s.start s.start.lm.live = false := hagree
    refine run_start ?_
    simp only [hstate, hwait, hfails, and_self, if_true, Bool.false_eq_true, if_false]
    rfl

end Sys2Proof.Proofs

/-! ### Slots of images and of firmware (R83 to R89, R471) -/

namespace Sys2Proof.Proofs
open Sys2Proof.Machine

section
variable {fw : Bool} {via : Via} {code : Nat} {s : State} (h : requested via code s) (hlock : s.sec.locked = false)
include h hlock

/-- A slot verb outside a lock whose check passes does what it says. -/
theorem slotGate_ok {err : State → Nat} {go g : State → State} (herr : err s.start = 0) (hgo : go s.start = g s.start) :
    slotGate fw via code s err go = .next (perform s g) := by
  refine verb_requested h ?_
  simp only [hlock, herr, ne_eq, not_true_eq_false, Bool.false_eq_true, if_false]
  exact hgo

/-- A slot verb that succeeds clears `LAST_ERROR` first (R89). -/
theorem slotVerb_ok {err : State → Nat} {go g : State → State} (herr : err s.start = 0)
    (hgo : go (modSlots fw (fun p => { p with lastErr := 0 }) s.start) = g s.start) : slotVerb fw via code s err go = .next (perform s g) :=
  slotGate_ok h hlock herr hgo

end

/-- Two changes of a slot pair, one after the other. -/
theorem modSlots_modSlots (fw : Bool) (f g : SlotPair → SlotPair) (s : State) :
    modSlots fw f (modSlots fw g s) = modSlots fw (fun p => f (g p)) s := by
  cases fw <;> rfl

theorem slotsOf_modSlots (fw : Bool) (f : SlotPair → SlotPair) (s : State) : slotsOf fw (modSlots fw f s) = f (slotsOf fw s) := by
  cases fw <;> rfl

/-- A begun session clears the last error by itself. -/
theorem begin_of_lastErr (p : SlotPair) (slot len : Nat) : SlotPair.begin { p with lastErr := 0 } slot len = p.begin slot len := by
  rw [SlotPair.begin, SlotPair.begin, SlotPair.put, SlotPair.put]
  split <;> rfl

section
variable {fw : Bool} {via : Via} {code : Nat} {s : State} (h : requested via code s) (hlock : s.sec.locked = false)
include h hlock

theorem doBegin_ok {top slot len : Nat} (herr : beginErr (slotsOf fw s.start) slot len top = 0) :
    doBegin fw top via code slot len s = .next (perform s fun u =>
      answer via 0 (enc [(2, (slotsOf fw s.start).sessNext)]) (modSlots fw (fun p => p.begin slot len) u)) := by
  refine slotVerb_ok h hlock herr ?_
  rw [modSlots_modSlots, slotsOf_modSlots]
  simp only [begin_of_lastErr]

theorem doData_ok {n off : Nat} {bs : List Byte} (herr : dataErr (slotsOf fw s.start) n off bs.length = 0) :
    doData fw via code n off bs s = .next (perform s fun u =>
      answer via 0 [] (modSlots fw (fun p => { p with lastErr := 0, session := p.session.map fun x => x.write off bs }) u)) := by
  refine slotVerb_ok h hlock herr ?_
  rw [modSlots_modSlots]

theorem doAbort_ok {n : Nat} {x : Session} (hnamed : (slotsOf fw s.start).named n = some x) :
    doAbort fw via code n s = .next (perform s fun u => answer via 0 [] (modSlots fw (fun p => { p with lastErr := 0 }.abort) u)) := by
  refine slotVerb_ok h hlock ?_ ?_
  · rw [hnamed]
    rfl
  · rw [modSlots_modSlots]

theorem doSelect_ok {slot : Nat} (trial : Bool) (herr : selectErr (slotsOf fw s.start) slot = 0) :
    doSelect fw via code slot trial s = .next (perform s fun u =>
      answer via 0 [] (modSlots fw (fun p => if trial then { p with lastErr := 0, trial := true, trialSl := slot }
        else { p with lastErr := 0, pref := slot }) u)) := by
  refine slotVerb_ok h hlock herr ?_
  rw [modSlots_modSlots]
  rfl

/-- A commit of a whole staging waits for programming when the check passes, and otherwise ends the session (R88). -/
theorem doCommit_ok {check : State → List Byte → Bool × Nat} {n : Nat} {x : Session} {bs : List Byte} (hnamed : (slotsOf fw s.start).named n = some x)
    (hwhole : x.whole = some bs) :
    doCommit fw via code n check s = .next (perform s fun u =>
      if (check s.start bs).2 ≠ 0 then commitFail fw via (check s.start bs).2 (wh (check s.start bs).1 sigFailed u)
      else modSlots fw (fun p => { p with session := p.session.map fun y => { y with commit := some via } }) (wh (check s.start bs).1 sigFailed u)) := by
  refine slotGate_ok h hlock ?_ ?_
  · simp only [hnamed, hwhole]
    rfl
  · rw [hnamed, Option.bind_some, hwhole]
    rfl

end

/-- A session without a verb for 10 s ends as if aborted (R86). -/
theorem doTimeout_ok {fw : Bool} {x : Session} {s : State} (hsession : (slotsOf fw s).session = some x) (hcommit : x.commit = none) :
    doTimeout fw s = modSlots fw (fun p => p.abort) s := by
  rw [doTimeout, hsession, Option.map_some, hcommit]
  rfl

/-- What a slot gives back is judged as the staged bytes were (R88). -/
theorem doProgrammed_ok {fw : Bool} {check : State → List Byte → Bool × Nat} (result : List Byte → List Byte) (bs : List Byte) {x : Session}
    {via : Via} {s : State} (hsession : (slotsOf fw s).session = some x) (hcommit : x.commit = some via) :
    doProgrammed fw check result bs s =
      if (check s bs).2 = 0 then answer via 0 (result bs)
        (modSlots fw (fun p => { p.put x.slot { state := 1, data := bs } with session := none, lastErr := 0 }) (wh (check s bs).1 sigFailed s))
      else commitFail fw via (check s bs).2 (wh (check s bs).1 sigFailed s) := by
  rw [doProgrammed, hsession, Option.bind_some, hcommit, Option.map_some]
  exact ite_not _ _ _

/-- Settles O6: an image verb is the slot verb of the image store, whose body is stated once for image and firmware slots. -/
theorem imageSlotsWritten : Obligations.ImageSlotsWritten := by
  unfold Obligations.ImageSlotsWritten
  refine ⟨fun via slot len s h hlock herr => doBegin_ok h hlock herr, fun via n off bs s h hlock herr => doData_ok h hlock herr,
    fun via n x bs s h hlock hnamed hwhole => ?commit, fun via n x s h hlock hnamed => doAbort_ok h hlock hnamed,
    fun via slot trial s h hlock herr => ?select, fun via s h hlock hdefault => ?confirm, fun via s h hlock => ?status,
    fun via policy alg off chunk s h hlock herr => ?chunk,
    fun via policy alg off chunk sg s h hlock herr hwhole => ?policy,
    fun x s hsession hcommit => run_start (doTimeout_ok (s := s.start) (fw := false) hsession hcommit)⟩
  case commit =>
    exact doCommit_ok (fw := false) (check := imageErr) h hlock hnamed hwhole
  case select => exact doSelect_ok (fw := false) h hlock trial herr
  case confirm =>
    change execImageConfirm via s = _
    rw [execImageConfirm]
    exact slotVerb_ok h hlock (if_neg (by rw [hdefault]; exact Bool.false_ne_true)) rfl
  case status =>
    refine verb_requested h ?_
    simp only [hlock, Bool.false_eq_true, if_false]
    rfl
  case chunk =>
    change execImagePolicySet via policy alg off false chunk s = _
    rw [execImagePolicySet]
    exact slotVerb_ok h hlock herr rfl
  case policy =>
    change execImagePolicySet via policy alg off true chunk s = _
    rw [execImagePolicySet]
    refine slotVerb_ok h hlock herr ?_
    have hsig : sigWhole (modImg (fun i => { i with policySig := sigPut i.policySig off chunk })
        (modSlots false (fun p => { p with lastErr := 0 }) s.start)).img.policySig alg = some sg := hwhole
    simp only [hsig, Bool.not_true, Bool.false_eq_true, if_false]
    rfl

/-- Settles O7: the firmware verbs are the same slot verbs on the firmware's pair, and the end of programming judges the bytes read back. -/
theorem firmwareSlotsWritten : Obligations.FirmwareSlotsWritten := by
  unfold Obligations.FirmwareSlotsWritten
  refine ⟨fun via slot len s h hlock herr => doBegin_ok (fw := true) h hlock herr, fun via n off bs s h hlock herr => doData_ok (fw := true) h hlock herr,
    fun via n x bs s h hlock hnamed hwhole => ?commit, fun via n x s h hlock hnamed => doAbort_ok (fw := true) h hlock hnamed,
    fun via slot trial s h hlock herr => ?select, fun via s h hlock hinUse => ?confirm, fun via s h hlock => ?status,
    fun x s hsession hcommit => run_start (doTimeout_ok (s := s.start) (fw := true) hsession hcommit),
    fun x via bs s hsession hcommit => ?firmware, fun x via bs s hsession hcommit => ?image⟩
  case commit => exact doCommit_ok (fw := true) (check := bundleErr) h hlock hnamed hwhole
  case select => exact doSelect_ok (fw := true) h hlock trial herr
  case confirm =>
    change execFwConfirm via s = _
    rw [execFwConfirm]
    exact slotVerb_ok h hlock (if_neg hinUse) rfl
  case status =>
    refine verb_requested h ?_
    simp only [hlock, Bool.false_eq_true, if_false]
  case firmware =>
    exact run_start (doProgrammed_ok (s := s.start) (fw := true) (check := bundleErr) _ bs hsession hcommit)
  case image =>
    exact run_start (doProgrammed_ok (s := s.start) (fw := false) (check := imageErr) _ bs hsession hcommit)

end Sys2Proof.Proofs

/-! ### The vault, enrolment, quotes and alarms (R457 to R477) -/

namespace Sys2Proof.Proofs
open Sys2Proof.Machine

section
variable {n : Nat} {s : State}

/-- Two shares masked with the same value still give the key. -/
theorem xor_of_masked {w : Nat} (a b r : BitVec w) : (a ^^^ r) ^^^ (b ^^^ r) = a ^^^ b :=
  calc (a ^^^ r) ^^^ (b ^^^ r) = (a ^^^ b) ^^^ (r ^^^ r) := by ac_rfl
    _ = a ^^^ b := by rw [BitVec.xor_self, BitVec.xor_zero]

theorem vslotOf_modVslot {f : VSlot → VSlot} (h : (f (vslotOf s n)).valid = true) : vslotOf (modVslot n f s) n = f (vslotOf s n) :=
  tget_tmod_same _ _ _ _ fun hd => Bool.false_ne_true ((congrArg VSlot.valid hd).symm.trans h)

theorem vslotOf_modVslot_other {k : Nat} (f : VSlot → VSlot) (h : k ≠ n) : vslotOf (modVslot n f s) k = vslotOf s k :=
  tget_tmod_other _ _ _ h

/-- A key put into a valid slot changes its shares alone (R465). -/
theorem vslotOf_putKey (key : Nat) (h : (vslotOf s n).valid = true) : vslotOf (putKey n key s) n =
    { vslotOf s n with s1 := BitVec.ofNat 512 key ^^^ BitVec.ofNat 512 (draw s).1, s2 := BitVec.ofNat 512 (draw s).1 } := by
  exact vslotOf_modVslot (s := (draw s).2) h

theorem vslotOf_putKey_other (key : Nat) {k : Nat} (h : k ≠ n) : vslotOf (putKey n key s) k = vslotOf s k :=
  vslotOf_modVslot_other (s := (draw s).2) _ h

theorem valid_putKey (key : Nat) (h : (vslotOf s n).valid = true) : (vslotOf (putKey n key s) n).valid = true := by
  rw [vslotOf_putKey key h]
  exact h

theorem valid_modVslot {f : VSlot → VSlot} (h : ∀ v, (f v).valid = true) : (vslotOf (modVslot n f s) n).valid = true := by
  rw [vslotOf_modVslot (h _)]
  exact h _

end

/-- Enrolment notes that helper data is written, counts and starts both keys afresh (R459). -/
def enrolled (s : State) : State :=
  modSec (fun x => { x with
    helperA := x.helperA || !(s.sec.helperA || s.sec.helperB), helperB := x.helperB || !(s.sec.helperA || s.sec.helperB)
    enrol := x.enrol + 1, idKey := {}, atKey := {} }) s

theorem exec_secEnrol {via : Via} {s : State} (h : requested via 0x0702 s) (hvia : fromManager via = true) (hlock : s.sec.locked = false)
    (hid : s.sec.identity ≠ 1) (hcount : s.sec.enrol ≠ 255) :
    exec (.secEnrol via) s = .next (perform s fun u => signOrWait false via 1 [] (deriveKeys (enrolled u))) := by
  refine verb_requested h ?_
  simp only [hvia, hlock, hid, hcount, Bool.not_true, Bool.false_eq_true, or_self, if_false]
  rfl

/-- The identity root and the two seeds fill slots 0 to 2; the rest of the vault, the counters and the keys' indices stay (R457, R458). -/
theorem deriveKeys_slots (s : State) : (∀ n, 3 ≤ n → vslotOf (deriveKeys s) n = vslotOf s n) ∧ (vslotOf (deriveKeys s) 0).valid = true ∧
    (vslotOf (deriveKeys s) 1).valid = true ∧ (vslotOf (deriveKeys s) 2).valid = true := by
  unfold deriveKeys
  dsimp only
  refine ⟨fun n hn => ?_, ?_, ?_, ?_⟩
  · rw [vslotOf_putKey_other _ (by omega), vslotOf_modVslot_other _ (by omega), vslotOf_putKey_other _ (by omega),
      vslotOf_modVslot_other _ (by omega), vslotOf_putKey_other _ (by omega), vslotOf_modVslot_other _ (by omega)]
  · rw [vslotOf_putKey_other _ (by decide), vslotOf_modVslot_other _ (by decide), vslotOf_putKey_other _ (by decide),
      vslotOf_modVslot_other _ (by decide)]
    exact valid_putKey _ (valid_modVslot fun _ => rfl)
  · rw [vslotOf_putKey_other _ (by decide), vslotOf_modVslot_other _ (by decide)]
    exact valid_putKey _ (valid_modVslot fun _ => rfl)
  · exact valid_putKey _ (valid_modVslot fun _ => rfl)

/-- A revocation passes its checks for a valid slot (R464). -/
theorem valid_of_revokeErr {s : State} {via : Via} {slot : Nat} (h : revokeErr s via slot = 0) : (vslotOf s slot).valid = true := by
  by_contra hvalid
  have hdenied : slot < 16 ∨ (!(vslotOf s slot).valid) = true ∨ orphaned s slot = true := Or.inr (Or.inl (by simpa using hvalid))
  revert h
  rw [revokeErr, if_pos hdenied]
  split
  · decide
  · split <;> decide

/-- A slot after a revocation: the next generation, and a transport slot's seed drawn afresh (R464). -/
def revoked (slot : Nat) (s : State) : State :=
  wh (decide ((vslotOf s slot).typ = 2)) (putKey slot (draw s).1)
    (modVslot slot (fun v => { v with gen := ((vslotOf s slot).gen + 1) % 65536 }) (draw s).2)

theorem exec_vaultRevoke {via : Via} {slot : Nat} {s : State} (h : requested via 0x0705 s) (herr : revokeErr s.start via slot = 0) :
    exec (.vaultRevoke via slot) s =
      .next (perform s fun u => answer via 0 (enc [(2, ((vslotOf u slot).gen + 1) % 65536)]) (revoked slot u)) :=
  verb_requested h (if_neg (not_not.mpr herr))

/-- A revocation touches the vault's slots and draws random values. -/
theorem revoked_eq (slot : Nat) (s : State) :
    revoked slot s = { s with sec := { s.sec with slots := (revoked slot s).sec.slots }, free := (revoked slot s).free } := by
  rw [revoked, wh]
  split <;> rfl

/-- A revocation that is answered changes the vault's slots, the random draws and what the answer itself changes. -/
theorem perform_revoked {via : Via} {slot : Nat} {data : State → List Byte} {s a : State}
    (ha : answer via 0 (data s.start) (revoked slot s.start) = a) :
    perform s (fun u => answer via 0 (data u) (revoked slot u)) =
      { s with sec := { s.sec with slots := (revoked slot s.start).sec.slots }, hp := a.hp, out := s.out ++ a.out
               free := (revoked slot s.start).free, edits := [] } := by
  have hanswer : a = { revoked slot s.start with out := a.out, hp := a.hp } := ha ▸ answer_eq _ _ via (revoked slot s.start)
  have hedits : a.edits = [] := by
    rw [hanswer, revoked_eq]
  rw [perform_quiet ha hedits, hanswer, revoked_eq]

theorem vslotOf_revoked_other {slot k : Nat} (s : State) (h : k ≠ slot) : vslotOf (revoked slot s) k = vslotOf s k := by
  rw [revoked, wh]
  split
  · rw [vslotOf_putKey_other _ h, vslotOf_modVslot_other _ h]
    rfl
  · rw [vslotOf_modVslot_other _ h]
    rfl

theorem vslotOf_revoked {slot : Nat} {s : State} (hvalid : (vslotOf s slot).valid = true) (hgen : (vslotOf s slot).gen < 65535) :
    (vslotOf (revoked slot s) slot).gen = (vslotOf s slot).gen + 1 ∧ (vslotOf (revoked slot s) slot).valid = true := by
  have hnext : vslotOf (modVslot slot (fun v => { v with gen := ((vslotOf s slot).gen + 1) % 65536 }) (draw s).2) slot =
      { vslotOf s slot with gen := (vslotOf s slot).gen + 1 } := by
    rw [vslotOf_modVslot, Nat.mod_eq_of_lt (by omega)]
    · rfl
    · exact hvalid
  rw [revoked, wh]
  split
  · rw [vslotOf_putKey _ (by rw [hnext]; exact hvalid), hnext]
    exact ⟨rfl, hvalid⟩
  · rw [hnext]
    exact ⟨rfl, hvalid⟩

/-- Settles O8: each command is unfolded once; a revocation and a remasking are read back from the slot they touch. -/
theorem vaultIdentityAndQuotes : Obligations.VaultIdentityAndQuotes := by
  unfold Obligations.VaultIdentityAndQuotes
  refine ⟨fun via slot s h hslot => verb_requested h (if_neg (Nat.not_le.mpr hslot)), fun via slot s h herr hgen => ?revoke,
    fun slot s horphan => run_start (if_pos horphan), fun slot r s hvalid => ?remask,
    fun via key alg sig s h hvia hlen hfirst => ?authority,
    fun via s h hvia hlock hid hcount => ⟨_, exec_secEnrol h hvia hlock hid hcount, fun u => ?enrolled⟩,
    fun via gid nonce s h herr => verb_requested h (if_neg (not_not.mpr herr)),
    fun via handle obj offset hd o s h hfind hobj hoff => ?read, fun source handle s hs => run_start (if_pos hs),
    fun att s hwait => ?reservation, fun source s hs hshield hphase => ?alarm, fun s hphase => ?shield⟩
  case revoke =>
    obtain ⟨hnext, hvalid⟩ := vslotOf_revoked (s := s.start) (valid_of_revokeErr herr) hgen
    have hexec := exec_vaultRevoke h herr
    rw [perform_revoked (data := fun u => enc [(2, ((vslotOf u slot).gen + 1) % 65536)]) rfl] at hexec
    exact ⟨_, hexec, hnext, hvalid, fun k hk => vslotOf_revoked_other s.start hk, rfl⟩
  case remask =>
    have hmask : vslotOf (modVslot slot (fun v => { v with s1 := v.s1 ^^^ BitVec.ofNat 512 r, s2 := v.s2 ^^^ BitVec.ofNat 512 r }) s.start) slot =
        { vslotOf s slot with s1 := (vslotOf s slot).s1 ^^^ BitVec.ofNat 512 r, s2 := (vslotOf s slot).s2 ^^^ BitVec.ofNat 512 r } := 
      vslotOf_modVslot hvalid
    have hexec : exec (.vaultRemask slot r) s = .next (perform s _) := run_start (if_pos hvalid)
    rw [perform_silent (t := modVslot slot (fun v => { v with s1 := v.s1 ^^^ BitVec.ofNat 512 r, s2 := v.s2 ^^^ BitVec.ofNat 512 r }) s.start) rfl rfl rfl rfl] at hexec
    refine ⟨_, hexec, ?_, (congrArg VSlot.s1 hmask :), fun k hk => vslotOf_modVslot_other (s := s.start) _ hk, rfl⟩
    refine (congrArg₂ (· ^^^ ·) (congrArg VSlot.s1 hmask) (congrArg VSlot.s2 hmask)).trans ?_
    exact xor_of_masked _ _ _
  case authority =>
    refine verb_requested h ?_
    simp only [hvia, hlen, hfirst, Bool.not_true, Bool.not_false, Bool.false_eq_true, ne_eq, not_true_eq_false, if_false, if_true]
  case enrolled =>
    obtain ⟨hrest, h0, h1, h2⟩ := deriveKeys_slots (enrolled u)
    exact ⟨hrest, h0, h1, h2, rfl, rfl, rfl⟩
  case read =>
    refine verb_requested h ?_
    have hread : (((handlesOf s.start (viaSource via)).find? fun h => h.1 = handle).bind fun h => assayObject s.start h obj) = some o := by
      rw [show ((handlesOf s.start (viaSource via)).find? fun h => h.1 = handle) = some hd from hfind]
      exact hobj
    simp only [hread, if_neg (Nat.not_le.mpr hoff), slice]
  case reservation =>
    refine run_start (if_neg ?_)
    exact fun hempty => hwait (List.isEmpty_iff.mp hempty)
  case alarm =>
    refine run_start ?_
    simp only [Nat.not_le.mpr hs, hphase, hshield, or_self, if_false]
  case shield =>
    refine run_start ?_
    simp only [hphase, (by decide : ¬ 5 ≤ 3), or_self, if_false, if_true]

end Sys2Proof.Proofs

/-! ### Matrix engine commands performed (R97, R102 to R115) -/

namespace Sys2Proof.Proofs
open Sys2Proof.Machine

/-- A command that its units can perform is performed and marked so (R97). -/
theorem meRun_ok {b e op c : Nat} {s : State} {f : Nat → State → Except Nat State} {g : State → State} (hhead : meHead s b e op = some c)
    (hissue : issueStopped s b = false) (hgrant : (cmaOf s b).hold = false ∨ usesCluster c = false) (hf : f c s.start = .ok (g s.start)) :
    meRun b e op s f = .next (perform s fun u => meRan (epochTag s (blockOf s b).lode) b e (g u)) := by
  have hfree : ¬ (issueStopped s.start b = true ∨ (cmaOf s.start b).hold = true ∧ usesCluster c = true) := by
    rintro (h | ⟨h, h'⟩)
    · exact Bool.false_ne_true (hissue.symm.trans h)
    · rcases hgrant with hg | hg
      · exact Bool.false_ne_true (hg.symm.trans h)
      · exact Bool.false_ne_true (hg.symm.trans h')
  refine run_start ?_
  simp only [show meHead s.start b e op = some c from hhead, if_neg hfree, hf]
  rfl

/-- The command at an engine's head makes its engine differ from one never used. -/
theorem queue_ne_nil_of_meHead {b e op c : Nat} {s : State} (h : meHead s b e op = some c) : (engineOf s b e).queue ≠ [] := by
  intro hnil
  rw [meHead, hnil] at h
  exact nomatch h

theorem engineOf_modEngine {b e : Nat} {f : Engine → Engine} {s : State} (h : (f (engineOf s b e)).queue ≠ []) :
    engineOf (modEngine b e f s) b e = f (engineOf s b e) :=
  tget_tmod_same _ _ _ _ fun hd => h (congrArg Engine.queue hd)

/-- The stores of a run into a table, where all the stores to entry `k` have one value. -/
theorem tget_foldl_tset {α : Type} [DecidableEq α] {d : α} {k : Nat} {v : α} (puts : List (Nat × α)) (hv : ∀ p ∈ puts, p.1 = k → p.2 = v)
    (t : List (Nat × α)) (ht : twf d t = true) (hk : k ∈ puts.map (·.1) ∨ tget d t k = v) :
    tget d (puts.foldl (fun t p => tset d t p.1 p.2) t) k = v := by
  induction puts generalizing t with
  | nil => exact hk.resolve_left (by simp)
  | cons p puts ih =>
    refine ih (fun q hq => hv q (List.mem_cons_of_mem _ hq)) _ (twf_tset d t p.1 p.2 ht) ?_
    by_cases hp : p.1 = k
    · refine Or.inr ?_
      rw [← hp, tget_tset_wf d t p.1 p.2 ht]
      exact hv p List.mem_cons_self hp
    · rw [tget_tset_other d t p.2 (Ne.symm hp)]
      exact hk.imp_left fun h => (List.mem_cons.mp h).resolve_left (Ne.symm hp)

/-- The cells of a tile written element by element: one store for each pair of a row and a column. -/
def cellPuts {α β : Type} (as : List α) (bs : List β) (w : α → Nat → β → Nat → BitVec 32) : List (Nat × BitVec 32) :=
  as.zipIdx.flatMap fun a => bs.zipIdx.map fun b => (a.2 * 128 + b.2, w a.1 a.2 b.1 b.2)

theorem mem_cellPuts {α β : Type} {as : List α} {bs : List β} {w : α → Nat → β → Nat → BitVec 32} {p : Nat × BitVec 32} :
    p ∈ cellPuts as bs w ↔ ∃ a i b j, as[i]? = some a ∧ bs[j]? = some b ∧ p = (i * 128 + j, w a i b j) := by
  simp only [cellPuts, List.mem_flatMap, List.mem_map, Prod.exists, List.mem_zipIdx_iff_getElem?]
  constructor
  · rintro ⟨a, i, ha, b, j, hb, rfl⟩
    exact ⟨a, i, b, j, ha, hb, rfl⟩
  · rintro ⟨a, i, b, j, ha, hb, rfl⟩
    exact ⟨a, i, ha, b, j, hb, rfl⟩

/-- A loop over rows and columns that stores cells and gathers flags stores `cellPuts`. -/
theorem foldl_cells {α β φ : Type} (as : List α) (bs : List β) (w : α → Nat → β → Nat → BitVec 32) (fl : φ → α × Nat → β × Nat → φ)
    (t : List (Nat × BitVec 32)) (z : φ) :
    (as.zipIdx.foldl (fun st a => bs.zipIdx.foldl (fun st b => (tset 0 st.1 (a.2 * 128 + b.2) (w a.1 a.2 b.1 b.2), fl st.2 a b)) st) (t, z)).1 =
      (cellPuts as bs w).foldl (fun t p => tset 0 t p.1 p.2) t := by
  rw [cellPuts, List.foldl_flatMap]
  refine (List.foldl_hom Prod.fst fun st a => ?_).symm
  rw [List.foldl_map]
  exact List.foldl_hom Prod.fst fun _ _ => rfl

/-- Within 128 columns each cell holds what its row and column give. -/
theorem tget_cellPuts {α β : Type} {as : List α} {bs : List β} {w : α → Nat → β → Nat → BitVec 32} {i j : Nat} {a : α} {b : β}
    (hbs : bs.length ≤ 128) (ha : as[i]? = some a) (hb : bs[j]? = some b) :
    tget 0 ((cellPuts as bs w).foldl (fun t p => tset 0 t p.1 p.2) []) (i * 128 + j) = w a i b j := by
  refine tget_foldl_tset _ ?_ [] rfl (Or.inl (List.mem_map.mpr ⟨_, mem_cellPuts.mpr ⟨a, i, b, j, ha, hb, rfl⟩, rfl⟩))
  intro p hp hkey
  obtain ⟨a', i', b', j', ha', hb', rfl⟩ := mem_cellPuts.mp hp
  have hj := (List.getElem?_eq_some_iff.mp hb).1
  have hj' := (List.getElem?_eq_some_iff.mp hb').1
  obtain ⟨rfl, rfl⟩ : i' = i ∧ j' = j := by dsimp only at hkey; omega
  obtain rfl := Option.some.inj (ha'.symm.trans ha)
  obtain rfl := Option.some.inj (hb'.symm.trans hb)
  rfl

theorem length_of_mapM {α β ε : Type} {f : α → Except ε β} {xs : List α} {ys : List β} (h : xs.mapM f = .ok ys) : ys.length = xs.length := by
  induction xs generalizing ys with
  | nil =>
    obtain rfl : [] = ys := Except.ok.inj h
    rfl
  | cons x xs ih =>
    rw [List.mapM_cons] at h
    cases hx : f x with
    | error err => rw [hx] at h; exact nomatch h
    | ok y =>
      cases hrest : xs.mapM f with
      | error err => rw [hx, hrest] at h; exact nomatch h
      | ok rest =>
        rw [hx, hrest] at h
        obtain rfl : y :: rest = ys := Except.ok.inj h
        rw [List.length_cons, List.length_cons, ih hrest]

/-- The elements of a row of stored values. -/
def elemsOf (fmt n : Nat) (row : List Byte) : List Machine.Num := (unpack fmt n row).map fun v => decodeElem fmt v 0

/-- What a fresh dense MMA stores in a cell (R105). -/
def mmaCell (c ser : Nat) (sat : Bool) (arow : List Machine.Num) (i : Nat) (bcol : List Machine.Num) (j : Nat) : Nat :=
  (mmaElem false false false sat (ser * 16384 + i * 128 + j) (cK c / 32) [] [] [] arow bcol 0).1

/-- The tile that a fresh dense MMA leaves. -/
def mmaTile (c ser : Nat) (sat : Bool) (ra rb : List (List Byte)) : Tile where
  int := false
  cells := (cellPuts (ra.map (elemsOf (fld c 12 4) (cK c))) (rb.map (elemsOf (fld c 8 4) (cK c)))
    fun a i b j => BitVec.ofNat 32 (mmaCell c ser sat a i b j)).foldl (fun t p => tset 0 t p.1 p.2) []

/-- A fresh dense MMA without block scales on tile 0 (R103, R105): the tile and flags of the engine and one draw of free values. -/
theorem doMma_fresh {b e c : Nat} {ra rb : List (List Byte)} {s : State} (hfresh : c.testBit 43 = true) (hplain : c.testBit 44 = false)
    (hdense : c.testBit 45 = false) (hpair : (mmaPair (fld c 12 4) (fld c 8 4)).map (·.1) = some false)
    (hra : rdRows s b e (mmaA c) = .ok ra) (hrb : rdRows s b e (mmaB c) = .ok rb) (htile : fld c 42 1 = 0) :
    ∃ flags, doMma b e c s = .ok (orFlags b e flags (modEngine b e
      (setTile 0 (mmaTile c s.free (engineOf s b e).accSat ra rb)) { s with free := s.free + 1 })) := by
  unfold doMma
  simp only [hfresh, hplain, hdense, hpair, hra, hrb, htile, mmaAK, Bool.not_true, Bool.false_eq_true, false_and, if_false, if_true, Option.getD_some]
  have hcells := foldl_cells (ra.map (elemsOf (fld c 12 4) (cK c))) (rb.map (elemsOf (fld c 8 4) (cK c)))
    (fun a i b' j => BitVec.ofNat 32 (mmaCell c s.free (engineOf s b e).accSat a i b' j))
    (fun fl a b' => fl ||| (mmaElem false false false (engineOf s b e).accSat (s.free * 16384 + a.2 * 128 + b'.2) (cK c / 32) [] [] [] a.1 b'.1 0).2)
    [] 0
  rw [mmaTile, ← hcells]
  exact ⟨_, rfl⟩

theorem length_mmaB {b e c : Nat} {rb : List (List Byte)} {s : State} (hrb : rdRows s b e (mmaB c) = .ok rb) : rb.length ≤ 128 := by
  rw [length_of_mapM hrb, List.length_range]
  have : fld c 28 7 < 2 ^ 7 := Nat.mod_lt _ (by decide)
  change fld c 28 7 + 1 ≤ 128
  omega

theorem tileGet_mmaTile {c ser i j : Nat} {sat : Bool} {ra rb : List (List Byte)} {ai bj : List Byte} (hrb : rb.length ≤ 128)
    (hi : ra[i]? = some ai) (hj : rb[j]? = some bj) : tileGet (mmaTile c ser sat ra rb) i j =
      mmaCell c ser sat (elemsOf (fld c 12 4) (cK c) ai) i (elemsOf (fld c 8 4) (cK c) bj) j % 2 ^ 32 := by
  rw [tileGet, mmaTile, tget_cellPuts (by rwa [List.length_map]) (by rw [List.getElem?_map, hi]; rfl) (by rw [List.getElem?_map, hj]; rfl),
    BitVec.toNat_ofNat]

/-- An MMA reads the operand store alone (R93). -/
theorem usesCluster_of_op_two {c : Nat} (h : cOp c = 2) : usesCluster c = false := by
  have hspans : ∀ r ∈ meSpans c, r.space = 0 := by
    simp only [meSpans, h, List.mem_append, List.mem_cons, List.not_mem_nil, or_false]
    rintro r (((rfl | rfl) | hr) | hr)
    · rfl
    · rfl
    · split at hr
      · rcases List.mem_pair.mp hr with rfl | rfl <;> rfl
      · exact nomatch hr
    · split at hr
      · rw [List.mem_singleton.mp hr]
        rfl
      · exact nomatch hr
  refine List.any_eq_false.mpr fun r hr => ?_
  rw [hspans r hr]
  simp

theorem cOp_of_meHead {b e op c : Nat} {s : State} (h : meHead s b e op = some c) : cOp c = op := by
  unfold meHead at h
  split at h
  · split at h
    · next hop => exact Option.some.inj h ▸ hop.1
    · exact nomatch h
  · exact nomatch h

/-- An engine with a queue holds, after a command performed, the tile that the command gave it. -/
theorem tile0_meRan {etag b e flags : Nat} {tile : Tile} {u : State} (h : (engineOf u b e).queue ≠ []) :
    (engineOf (meRan etag b e (orFlags b e flags (modEngine b e (setTile 0 tile) u))) b e).tile0 = tile := by
  have htile : engineOf (modEngine b e (setTile 0 tile) u) b e = setTile 0 tile (engineOf u b e) := engineOf_modEngine h
  have hflags : engineOf (orFlags b e flags (modEngine b e (setTile 0 tile) u)) b e =
      { setTile 0 tile (engineOf u b e) with flags := (engineOf u b e).flags ||| flags } := by
    rw [orFlags, engineOf_modEngine] <;> rw [htile]
    · rfl
    · exact h
  rw [meRan, engineOf_modEngine] <;> rw [hflags]
  · rfl
  · cases hq : (setTile 0 tile (engineOf u b e)).queue with
    | nil => exact absurd hq h
    | cons c rest => exact List.cons_ne_nil _ _

/-- Settles O9: each command is the head's, granted and read; the cells of an MMA are stored at places of their own. -/
theorem engineCommandsPerformed : Obligations.EngineCommandsPerformed := by
  unfold Obligations.EngineCommandsPerformed
  refine ⟨fun b e c rows s u hhead hissue hgrant hrd hfmt hrows hwr => meRun_ok hhead hissue hgrant (g := fun _ => u) ?load,
    fun b e c ra rb s hhead hissue hfresh hplain hdense hpair hra hrb htile => ?mma,
    fun b e c s u hhead hissue hgrant hf => meRun_ok hhead hissue hgrant (g := fun _ => u) hf,
    fun b e c rows s u hhead hissue hgrant hrd hwr => meRun_ok hhead hissue hgrant (g := fun _ => u) ?store,
    fun b e c rows s u hhead hissue hgrant hrd hwr => meRun_ok hhead hissue hgrant (g := fun _ => u) ?transpose,
    fun b e c s u hhead hissue hgrant hf => meRun_ok hhead hissue hgrant (g := fun _ => u) hf,
    fun b e c rows s hhead hissue hgrant hrd => meRun_ok (op := 7) hhead hissue hgrant ?accLoad⟩
  case load =>
    unfold doLoad
    simp only [hrd, hfmt, hrows, Except.bind, if_true, List.map_id', Bool.false_eq_true, if_false, List.map_map]
    rw [← hwr, hfmt]
    rfl
  case store => rw [doStore, hrd]; exact hwr
  case transpose => rw [doTranspose, hrd]; exact hwr
  case accLoad => rw [doAccLoad, hrd]; rfl
  case mma =>
    obtain ⟨flags, hdo⟩ := doMma_fresh hfresh hplain hdense hpair hra hrb htile
    have hexec : exec (.meMma b e) s = .next (perform s _) :=
      meRun_ok (g := fun _ => _) hhead hissue (Or.inr (usesCluster_of_op_two (cOp_of_meHead hhead))) hdo
    rw [perform_silent rfl rfl rfl rfl] at hexec
    refine ⟨_, hexec, fun i j ai bj _ _ hi hj => ?_, rfl⟩
    exact (congrArg (tileGet · i j) (tile0_meRan (queue_ne_nil_of_meHead hhead))).trans (tileGet_mmaTile (length_mmaB hrb) hi hj)

end Sys2Proof.Proofs

/-! ### The engine's queue, completion and deliveries (R94 to R98, R118, R286, R287) -/

namespace Sys2Proof.Proofs
open Sys2Proof.Machine

/-- A core that executes carries its instruction out (R166, R187, R516). -/
theorem onCore_executing {b c : Nat} {s : State} {f g : State → State} (hready : coreReady (coreOf s b c) = true)
    (hpresent : corePresent s b c = true) (hissue : issueStopped s b = false) (hf : f s.start = g s.start) :
    onCore b c s f = .next (perform s g) := by
  refine run_start ?_
  have hexec : (coreReady (coreOf s.start b c) && corePresent s.start b c && !issueStopped s.start b) = true := by
    rw [Bool.and_eq_true, Bool.and_eq_true, Bool.not_eq_true']
    exact ⟨⟨hready, hpresent⟩, hissue⟩
  rw [if_pos hexec]
  exact hf

/-- An aligned command for an engine of the block passes the first check of ME.ISSUE (R170). -/
theorem not_misplaced {a e : Nat} (halign : a % 32 = 0) (hengine : e < 4) : ¬ (a % 32 ≠ 0 ∨ 4 ≤ e) := by
  omega

/-- Settles O10: each command takes the branch that its premises name. -/
theorem engineQueueAndCompletion : Obligations.EngineQueueAndCompletion := by
  unfold Obligations.EngineQueueAndCompletion
  refine ⟨fun b c rd rs1 rs2 ph bytes s hready hpresent hissue hpad halign hengine hbytes hrun hcheck hroom =>
      onCore_executing hready hpresent hissue ?accepted,
    fun b c rd rs1 rs2 ph bytes s hready hpresent hissue hpad halign hengine hbytes hrun hfull =>
      onCore_executing hready hpresent hissue ?full,
    fun b e c rest s hq hran hpost => run_start ?done, fun b e c rest s hq hhold hheld => run_start ?bound,
    fun b e s hq => run_start ?gated, fun id line d s hd hline => run_start ?acked, fun id line d s hd hline hfirst => run_start ?stale,
    fun id s hlines => ?unsettled⟩
  case accepted =>
    have hplaced := not_misplaced (a := xOf (coreOf s.start b c) rs1) (e := xOf (coreOf s.start b c) rs2) halign hengine
    simp only [show ownPad b c (xOf (coreOf s.start b c) rs1) 32 = some ph from hpad, if_neg hplaced, hbytes,
      show (engineOf s.start b (xOf (coreOf s.start b c) rs2)).errstop = false from hrun, Bool.false_eq_true, if_false,
      if_neg (Nat.not_le.mpr (show (engineOf s.start b (xOf (coreOf s.start b c) rs2)).queue.length < 8 from hroom)),
      show meCheck s.start b (xOf (coreOf s.start b c) rs2) (unle bytes) = 0 from hcheck, ne_eq, not_true_eq_false]
    rfl
  case full =>
    have hplaced := not_misplaced (a := xOf (coreOf s.start b c) rs1) (e := xOf (coreOf s.start b c) rs2) halign hengine
    simp only [show ownPad b c (xOf (coreOf s.start b c) rs1) 32 = some ph from hpad, if_neg hplaced, hbytes,
      show (engineOf s.start b (xOf (coreOf s.start b c) rs2)).errstop = false from hrun, Bool.false_eq_true, if_false,
      if_pos (show 8 ≤ (engineOf s.start b (xOf (coreOf s.start b c) rs2)).queue.length from hfull)]
    rfl
  case done =>
    simp only [show (engineOf s.start b e).queue = c :: rest from hq, hran, hpost, wh, Bool.not_true, Bool.false_eq_true, false_and, if_false,
      decide_eq_true_eq]
    rfl
  case bound =>
    simp only [show (engineOf s.start b e).queue = c :: rest from hq, show (cmaOf s.start b).hold = false from hhold,
      show (pregOf s.start (b / 12)).held = false from hheld, Bool.or_self, Bool.false_eq_true, if_false]
  case gated => rw [show (engineOf s.start b e).queue = [] from hq, List.isEmpty_nil, if_pos rfl]
  case acked =>
    have hin : d.lines.contains line = true := List.contains_iff_mem.mpr hline
    simp only [hd, hin, (by decide : ¬ 0 = Err.staleEpoch), Bool.not_true, Bool.false_eq_true, false_and, if_false, if_true]
  case stale =>
    have hin : d.lines.contains line = true := List.contains_iff_mem.mpr hline
    have hout : d.retried.contains line = false := by
      rw [← Bool.not_eq_true, List.contains_iff_mem]
      exact hfirst
    simp only [hd, hin, hout, Bool.not_true, Bool.not_false, Bool.false_eq_true, and_self, if_false, if_true]
  case unsettled =>
    have hnone : (s.cu.deliv.find? fun d => decide (d.id = id) && d.lines.isEmpty && decide (64 + 64 * rsLines d.bits ≤ d.pos)) = none := by
      refine List.find?_eq_none.mpr fun d hd hend => ?_
      rw [Bool.and_eq_true, Bool.and_eq_true, decide_eq_true_eq, List.isEmpty_iff] at hend
      exact hlines d hd hend.1.1 hend.1.2
    rw [settleDeliv, hnone]

end Sys2Proof.Proofs

/-! ### DMA requests and their chunks (R171 to R174, R154, R328) -/

namespace Sys2Proof.Proofs
open Sys2Proof.Machine

/-- A chunk that starts and whose data moves is kept (R174). -/
theorem dmaRun_started {u kind : Nat} {d : Dma} {s : State} {f : Dma → State → Except Nat State} {g : State → State}
    (h : startsChunk u kind d s) (hf : f d (chunkStart u d s.start) = .ok (g s.start)) :
    dmaRun u kind s f = .next (perform s fun v => chunkKept u d (g v)) := by
  obtain ⟨hready, hunit, hgran, hshare, hwrites, hstale, hcancel⟩ := h
  have hfree : ¬ (unitHeld s.start u = true ∨ reqHeld s.start d = true ∨ sealedWaits s.start u d.lode ((chunkPieces d).map (·.2)).sum = true ∨
      kind ≤ 3 ∧ writeWaits s.start d = true) := by
    rintro (h | h | h | ⟨hk, h⟩)
    · exact Bool.false_ne_true (hunit.symm.trans h)
    · exact Bool.false_ne_true (hgran.symm.trans h)
    · exact Bool.false_ne_true (hshare.symm.trans h)
    · rcases hwrites with hbig | hw
      · omega
      · exact Bool.false_ne_true (hw.symm.trans h)
  have hbounced : bounced u d (f d) (resolveChunk u d (modReq u d (fun x => { x with started := true, epoch := epochTag s.start d.lode }) s.start)) =
      .ok (chunkKept u d (g s.start)) := congrArg (Except.map (chunkKept u d)) hf
  refine run_start ?_
  simp only [show chunkReady s.start u kind = some d from hready, if_neg hfree, hstale, hcancel, hbounced, Bool.false_eq_true, ne_eq,
    not_true_eq_false, false_and, if_false]

theorem resolveGrans_dr (m l a n : Nat) (s : State) : (resolveGrans m l a n s).dr = s.dr := by
  unfold resolveGrans
  split
  · rfl
  · exact each_proj State.dr (fun g t => (congrArg State.dr (granHit_eq m l g t) :)) _ s

theorem chunkStart_dr (u : Nat) (d : Dma) (s : State) : (chunkStart u d s).dr = s.dr :=
  each_proj State.dr (fun (x : Nat × Nat) t => (payReq_dr u d.lode d.cls x.2 _).trans (resolveGrans_dr u d.lode x.1 x.2 t)) _
    (modReq u d (fun x => { x with started := true, epoch := epochTag s d.lode }) s)

/-- A window request that passes its checks before it starts passes them when it does (R329). -/
theorem winRequestErr_chunkStart {u off : Nat} {d : Dma} {s : State} (h : d.pos = 0 → winRequestErr s d off = 0) :
    (if d.pos = 0 then winRequestErr (chunkStart u d s) d (off + d.pos) else 0) = 0 := by
  split
  · next hfirst =>
    rw [hfirst, Nat.add_zero, winRequestErr, chunkStart_dr]
    exact h hfirst
  · rfl

/-- A chunk of a request that answers itself is complete (R174): the request ends, stops or goes on. -/
theorem chunkDone_of_kind_le {u : Nat} {d : Dma} (s : State) (h : d.kind ≤ 3) : chunkDone u d s =
    if d.pos + d.chunk = d.len then endDma (chunkPassed d) (dropReq u (chunkPassed d) (modReq u d (fun _ => chunkPassed d) s))
    else if d.stale then stopReq u (chunkPassed d) Err.objectFreed (modReq u d (fun _ => chunkPassed d) s)
    else if d.cancel ≠ 0 then stopReq u (chunkPassed d) d.cancel (modReq u d (fun _ => chunkPassed d) s)
    else modReq u d (fun _ => chunkPassed d) s := by
  rw [chunkDone]
  exact if_neg (Nat.not_lt.mpr h)

/-- Settles O11: an accepted request is queued; each chunk that starts moves its data and is kept; its end advances or ends the request. -/
theorem dmaRequestsMoveData : Obligations.DmaRequestsMoveData := by
  unfold Obligations.DmaRequestsMoveData
  refine ⟨fun b c rd rs1 ph l pos ctx u bytes cb sp s hcore hroom hpad hlaunch halign hbytes hcv hres hok hcheck hsp hext hunit => ?issue,
    fun u d bs s w h hfetch hrd hwr => dmaRun_started (g := fun _ => _) h ?copy, fun u d s w h hfetch => dmaRun_started (g := fun _ => _) h ?asked,
    fun u d s w h hwr => dmaRun_started (g := fun _ => _) h ?fill, fun u d s w h hdo => dmaRun_started (g := fun _ => w) h hdo,
    fun u d bs s h hkind herr hrd => dmaRun_started h ?put, fun u d s h hkind herr => dmaRun_started h ?get,
    fun u d s hd hkind hmore hstale hcancel => run_start ?more, fun u d s hd hkind hend => run_start ?last⟩
  case issue =>
    obtain ⟨hready, hpresent, hissue⟩ := hcore
    refine onCore_executing hready hpresent hissue ?_
    have hlegal : ¬ (xOf (coreOf s.start b c) rs1 % 64 ≠ 0 ∨ (!reqOk s.start b c (unle bytes) (unle cb)) = true) := by
      rw [show reqOk s.start b c (unle bytes) (unle cb) = true from hok]
      exact not_or.mpr ⟨not_not.mpr halign, Bool.false_ne_true⟩
    have hconv : (if qKind (unle bytes) = 2 then cvCheck (unle cb) (qSrc (unle bytes)) (qLen (unle bytes)) (qDst (unle bytes)) else 0) = 0 := by
      split
      · next hkind => exact hcheck hkind
      · rfl
    simp only [if_neg (Nat.not_le.mpr (show (coreOf s.start b c).dmaOut < 8 from hroom)), hbytes, hcv, hres, hext, if_neg hlegal, hconv,
      show ownPad b c (xOf (coreOf s.start b c) rs1) 64 = some ph from hpad, show launchOf s.start b = some (l, pos, ctx) from hlaunch,
      show reqSpaces (draw s.start).2 b c (walkAs (draw s.start).2 b (draw s.start).1 ctx) (unle bytes) (unle cb) = .ok sp from hsp,
      show reqUnit (draw s.start).2 b (qTarget (unle bytes)) = some u from hunit, ne_eq, not_true_eq_false, Bool.false_eq_true, if_false]
    rfl
  case copy =>
    rw [doCopy]
    rw [hfetch]
    rw [hrd]
    dsimp only [Except.bind, copyChunk]
    rw [hwr]
    rfl
  case asked =>
    rw [doCopy]
    rw [hfetch]
  case fill =>
    rw [doFill]
    rw [hwr]
    rfl
  case put =>
    have hchecks := winRequestErr_chunkStart (u := u) (s := s.start) herr
    unfold doWindow
    simp only [hkind, if_true, hchecks, ne_eq, not_true_eq_false, if_false, hrd]
    rfl
  case get =>
    have hchecks := winRequestErr_chunkStart (u := u) (s := s.start) herr
    unfold doWindow
    simp only [hkind, (by decide : ¬ 5 = 4), if_false, hchecks, ne_eq, not_true_eq_false]
    rfl
  case more =>
    simp only [show ((dmaOf s.start u).find? fun d => d.chunk ≠ 0) = some d from hd, if_true, chunkDone_of_kind_le _ hkind, hmore, hstale, hcancel,
      Bool.false_eq_true, ne_eq, not_true_eq_false, if_false]
  case last =>
    simp only [show ((dmaOf s.start u).find? fun d => d.chunk ≠ 0) = some d from hd, if_true, chunkDone_of_kind_le _ hkind, hend]

end Sys2Proof.Proofs

/-! ### Synchronisation, windows and conversions of a core (R165 to R170, R175, R177) -/

namespace Sys2Proof.Proofs
open Sys2Proof.Machine

/-- An instruction of a core that executes (R166, R187, R516). -/
theorem onCore_executes {b c : Nat} {s : State} {f g : State → State} (h : executes b c s) (hf : f s.start = g s.start) :
    onCore b c s f = .next (perform s g) :=
  onCore_executing h.1 h.2.1 h.2.2 hf

/-- Settles O12: each instruction takes the branch its operands select. -/
theorem coreSynchronisation : Obligations.CoreSynchronisation := by
  unfold Obligations.CoreSynchronisation
  refine ⟨fun b c rd rs1 rs2 scope n s h hn hholds => onCore_executes h ?wait, fun b c rs1 rs2 scope n s h hn hholds hclean => onCore_executes h ?post,
    fun b c rd rs1 rs2 scope n s h hn hholds => onCore_executes h ?tried, fun b c rs1 g s h hg hholds => onCore_executes h ?arrive,
    fun b c f s h hf hdma hme => onCore_executes h ?passes, fun b c f s h hf hbit hdma => onCore_executes h ?waits,
    fun b c rd rs1 rs2 k s h hrs hkind hbit hdest => onCore_executes h ?selected,
    fun b c rd rs1 rs2 s h hrs hbit => onCore_executes h ?cleared, fun b c vd rs1 vs2 s h hconv hregs => onCore_executes h ?converted⟩
  case wait =>
    subst hn
    simp only [show holdsSem s.start (blockOf s.start b).lode (xOf (coreOf s.start b c) rs1 % 2 ^ 17) = true from hholds, Bool.not_true,
      Bool.false_eq_true, if_false]
    rfl
  case post =>
    subst hn
    simp only [show holdsSem s.start (blockOf s.start b).lode (xOf (coreOf s.start b c) rs1 % 2 ^ 17) = true from hholds,
      show (semOf s.start (xOf (coreOf s.start b c) rs1 % 2 ^ 17)).poisoned = false from hclean, Bool.not_true, Bool.false_eq_true, if_false]
    rfl
  case tried =>
    subst hn
    simp only [show holdsSem s.start (blockOf s.start b).lode (xOf (coreOf s.start b c) rs1 % 2 ^ 17) = true from hholds, Bool.not_true,
      Bool.false_eq_true, if_false]
    rfl
  case arrive =>
    subst hg
    simp only [show holdsBar s.start (blockOf s.start b).lode (xOf (coreOf s.start b c) rs1 % 2 ^ 12) = true from hholds, Bool.not_true,
      Bool.false_eq_true, if_false]
    rfl
  case passes =>
    have hdone : ¬ ((f.testBit 2 = true ∧ (coreOf s.start b c).dmaOut ≠ 0) ∨ (f.testBit 3 = true ∧ (coreOf s.start b c).meOut ≠ 0)) := by
      rintro (⟨hbit, hout⟩ | ⟨hbit, hout⟩)
      · exact hout (hdma hbit)
      · exact hout (hme hbit)
    simp only [if_neg (Nat.not_le.mpr hf), if_neg hdone]
  case waits =>
    have hopen : (f.testBit 2 = true ∧ (coreOf s.start b c).dmaOut ≠ 0) ∨ (f.testBit 3 = true ∧ (coreOf s.start b c).meOut ≠ 0) := Or.inl ⟨hbit, hdma⟩
    simp only [if_neg (Nat.not_le.mpr hf), if_pos hopen]
    rw [hbit]
  case selected =>
    have hsmall : xOf (coreOf s.start b c) rs2 < 2 ^ 10 := hrs
    have hrange : ¬ 2 ^ 11 ≤ xOf (coreOf s.start b c) rs2 := by omega
    have hset : (xOf (coreOf s.start b c) rs2).testBit 10 = false := Nat.testBit_lt_two_pow hsmall
    have hfields : ¬ (fld (xOf (coreOf s.start b c) rs2) 8 2 = 3 ∨ (xOf (coreOf s.start b c) rs2).testBit 7 = true) :=
      not_or.mpr ⟨hkind, fun hb => Bool.false_ne_true (hbit.symm.trans hb)⟩
    have hslot : destBlock s.start b (fld (xOf (coreOf s.start b c) rs2) 0 7) = some k := by
      rw [fld, Nat.pow_zero, Nat.div_one]
      exact hdest
    simp only [if_neg hrange, hset, if_neg hfields, hslot, Bool.false_eq_true, if_false]
    rfl
  case cleared =>
    simp only [if_neg (Nat.not_le.mpr (show xOf (coreOf s.start b c) rs2 < 2 ^ 11 from hrs)),
      show (xOf (coreOf s.start b c) rs2).testBit 10 = true from hbit, if_true]
    rfl
  case converted =>
    simp only [show (vcvtConv (xOf (coreOf s.start b c) rs1)).check = 0 from hconv,
      show vcvtRegsOk (coreOf s.start b c) (xOf (coreOf s.start b c) rs1) vd vs2 = true from hregs, ne_eq, not_true_eq_false, Bool.not_true,
      Bool.false_eq_true, if_false]
    rfl

end Sys2Proof.Proofs

/-! ### Standard instructions, device CSRs and supervisor services (R159, R176, R182) -/

namespace Sys2Proof.Proofs
open Sys2Proof.Machine

theorem expandWord_of_full {w : Nat} (hlow : w % 4 = 3) (hw : w < 2 ^ 32) : expandWord w = some (w, 4) := by
  rw [expandWord, hlow]
  exact congrArg (fun v => some (v, 4)) (Nat.mod_eq_of_lt hw)

/-- The words of the six integer opcodes without a jump go to the integer instructions. -/
theorem doWord_integer {b c w len : Nat} (s : State) (h : wOp w ∈ [0x37, 0x17, 0x13, 0x1B, 0x33, 0x3B]) :
    doWord b c w len s = doInt b c w len s := by
  unfold doWord isLoadStore isExtension
  simp only [List.mem_cons, List.not_mem_nil, or_false] at h
  rcases h with h | h | h | h | h | h <;> simp [h]

/-- An integer instruction with a result and no jump writes it and retires. -/
theorem doInt_value {b c w len : Nat} {v : Word} {s : State}
    (h : intResult w (coreOf s b c).pc (BitVec.ofNat 64 (xOf (coreOf s b c) (wRs1 w))) (BitVec.ofNat 64 (xOf (coreOf s b c) (wRs2 w))) len =
      some (some v, none)) :
    doInt b c w len s = modCore b c (fun k => retire len (setX (wRd w) v.toNat k)) s := by
  rw [doInt, h]
  exact if_neg (fun hjump => nomatch hjump)

theorem modCore_congr {b c : Nat} {f g : Core → Core} {s : State} (h : f (coreOf s b c) = g (coreOf s b c)) :
    modCore b c f s = modCore b c g s :=
  congrArg (fun k => modCu (fun cu => { cu with cores := tset {} cu.cores (b * 32 + c) k }) s) h

theorem execCoreInstruction_value {b c w : Nat} {v : Word} {s : State} (hcore : executes b c s) (hw : w < 2 ^ 32) (hlow : w % 4 = 3)
    (hop : wOp w ∈ [0x37, 0x17, 0x13, 0x1B, 0x33, 0x3B])
    (hv : intResult w (coreOf s b c).pc (BitVec.ofNat 64 (xOf (coreOf s b c) (wRs1 w))) (BitVec.ofNat 64 (xOf (coreOf s b c) (wRs2 w))) 4 =
      some (some v, none)) :
    exec (.coreInstruction b c w) s = .next (perform s (modCore b c fun k => retire 4 (setX (wRd w) v.toNat k))) := by
  refine onCore_executes hcore ?_
  rw [expandWord_of_full hlow hw]
  exact (doWord_integer _ hop).trans (doInt_value hv)

/-- The fields of an ADDI. -/
theorem addi_fields {imm rs1 rd : Nat} (hrd : rd < 32) (hrs1 : rs1 < 32) (himm : imm < 4096) :
    let w := imm * 2 ^ 20 + rs1 * 2 ^ 15 + rd * 2 ^ 7 + 0x13
    w < 2 ^ 32 ∧ w % 4 = 3 ∧ wOp w = 0x13 ∧ wF3 w = 0 ∧ wRd w = rd ∧ wRs1 w = rs1 ∧ fld w 20 12 = imm := by
  simp only [wOp, wF3, wRd, wRs1, fld]
  omega

/-- A 12-bit immediate, sign-extended and added. -/
theorem toNat_add_imm {a imm : Nat} (himm : imm < 4096) :
    (BitVec.ofNat 64 a + BitVec.ofInt 64 (sgn 12 imm)).toNat = (a + (if imm < 2048 then imm else 2 ^ 64 - 4096 + imm)) % 2 ^ 64 := by
  rw [BitVec.toNat_add, BitVec.toNat_ofNat, BitVec.toNat_ofInt, sgn, Nat.mod_eq_of_lt (show imm < 2 ^ 12 from himm)]
  by_cases hpos : imm < 2048
  · rw [if_pos (show imm < 2 ^ (12 - 1) from hpos), if_pos hpos]
    omega
  · rw [if_neg (show ¬ imm < 2 ^ (12 - 1) from hpos), if_neg hpos]
    omega

/-- Settles O13: a word with an integer result goes through `intResult`; the services and CSR writes take the branch their operands select. -/
theorem coreInstructionsExecuted : Obligations.CoreInstructionsExecuted := by
  unfold Obligations.CoreInstructionsExecuted
  refine ⟨fun b c rd rs1 imm s h hrd hrs1 himm => ?addi, fun b c w v s h hw hlow hop hv => execCoreInstruction_value h hw hlow hop hv,
    fun b c pred succ s h => onCore_executes h rfl, fun b c v s h hmask => onCore_executes h ?classTag,
    fun b c v s h hv hne => onCore_executes h ?deadline, fun b c s h => onCore_executes h rfl, fun b c v s h => onCore_executes h rfl,
    fun b c s h ha7 => onCore_executes h (if_pos ha7), fun b c s h ha7 => onCore_executes h (if_pos ha7),
    fun b c s h ha7 hprofile => onCore_executes h ((if_pos ha7).trans ?quiet),
    fun b c s h ha7 hprofile hconf => onCore_executes h ((if_pos ha7).trans ?traced)⟩
  case addi =>
    obtain ⟨hw, hlow, hop, hf3, hwrd, hwrs1, hwimm⟩ := addi_fields hrd hrs1 himm
    generalize imm * 2 ^ 20 + rs1 * 2 ^ 15 + rd * 2 ^ 7 + 0x13 = w at *
    have hresult : intResult w (coreOf s b c).pc (BitVec.ofNat 64 (xOf (coreOf s b c) (wRs1 w))) (BitVec.ofNat 64 (xOf (coreOf s b c) (wRs2 w))) 4 =
        some (some (BitVec.ofNat 64 (xOf (coreOf s b c) rs1) + BitVec.ofInt 64 (sgn 12 imm)), none) := by
      simp only [intResult, hop, hf3, immI, hwimm, hwrs1, alu, (by decide : ¬ 0 = 1), (by decide : ¬ 0 = 5), Bool.false_eq_true, if_false]
    have hopcode : wOp w ∈ [0x37, 0x17, 0x13, 0x1B, 0x33, 0x3B] := by
      rw [hop]
      decide
    refine (execCoreInstruction_value h hw hlow hopcode hresult).trans (congrArg Host.Outcome.next (perform_congr (modCore_congr ?_)))
    rw [hwrd, toNat_add_imm himm]
    rfl
  case classTag =>
    rw [writeClass, if_pos (show (ctxOf s.start (ctxOfBlock s.start b)).mask.testBit (v % 64) = true from hmask)]
  case deadline =>
    simp only [writeDeadline, Nat.mod_eq_of_lt hv, hne, if_false]
    rfl
  case quiet =>
    have hoff : ¬ ((ctxOf s.start (ctxOfBlock s.start b)).profile = true ∧ (!(lodeOf s.start (blockOf s.start b).lode).conf) = true) :=
      fun hon => Bool.false_ne_true (hprofile.symm.trans hon.1)
    rw [doTrace]
    simp only [if_neg hoff]
  case traced =>
    have hon : (ctxOf s.start (ctxOfBlock s.start b)).profile = true ∧ (!(lodeOf s.start (blockOf s.start b).lode).conf) = true :=
      ⟨hprofile, Bool.not_eq_true' _ ▸ hconf⟩
    rw [doTrace]
    simp only [if_pos hon]
    rfl

end Sys2Proof.Proofs

/-! ### Loads, stores and atomics of a core (R160 to R163, R259) -/

namespace Sys2Proof.Proofs
open Sys2Proof.Machine

/-- An access whose parts are found and that nothing makes wait goes on with them. -/
theorem reach_accessAt {b c va n access cause : Nat} {ps : List Part} {s : State} {go : List Part → State → State}
    (h : accessAt b c access va n ps s) : reach b c va n access cause s go = go ps (reachedAt b c va n ps s) := by
  obtain ⟨hparts, hwaits⟩ := h
  rw [reach, hparts]
  exact if_neg (Bool.eq_false_iff.mp hwaits)

theorem loadBytes_accessAt {b c va n : Nat} {ps : List Part} {bs : List Byte} {s u : State} {go : Nat → State → State}
    (h : accessAt b c 0 va n ps s) (hrd : rdParts b c ps (reachedAt b c va n ps s) = .ok (bs, u)) :
    loadBytes b c va n s go = go (unle bs) (touchParts b (coreOf u b c).tag (ctxOfBlock u b) false false ps u) := by
  rw [loadBytes, reach_accessAt h, hrd]

theorem storeBytes_accessAt {b c va : Nat} {ps : List Part} {bs : List Byte} {s u t : State} {go : State → State}
    (h : accessAt b c 1 va bs.length ps s) (hu : reachedAt b c va bs.length ps s = u) (hwr : wrParts b c (coreOf u b c).tag ps bs u = .ok t) :
    storeBytes b c va bs s go = go (touchParts b (coreOf u b c).tag (ctxOfBlock u b) true false ps t) := by
  rw [storeBytes, reach_accessAt h, hu, hwr]

/-- An aligned atomic on memory that is no operand store goes on (R161, R259). -/
theorem reachAtomic_accessAt {b c w va : Nat} {lr : Bool} {ps : List Part} {s : State} {go : List Part → Nat → State → State}
    (hva : xOf (coreOf s b c) (wRs1 w) = va) (halign : va % atomBytes w = 0) (h : accessAt b c 2 va (atomBytes w) ps s) (hmem : memOf ps ≠ [])
    (hplain : ∀ p ∈ memOf ps, p.1 = false → inOperandStore p.2.1 = false) :
    reachAtomic b c w lr s go = go ps va (reachedAt b c va (atomBytes w) ps s) := by
  subst hva
  have hlegal : ¬ ((memOf ps).isEmpty = true ∨ ((memOf ps).any fun p => !p.1 && inOperandStore p.2.1) = true) := by
    rintro (hempty | hany)
    · exact hmem (List.isEmpty_iff.mp hempty)
    · obtain ⟨p, hp, hstore⟩ := List.any_eq_true.mp hany
      rw [Bool.and_eq_true, Bool.not_eq_true'] at hstore
      exact Bool.false_ne_true ((hplain p hp hstore.1).symm.trans hstore.2)
  rw [reachAtomic]
  simp only [halign, ne_eq, not_true_eq_false, if_false, reach_accessAt h, if_neg hlegal]

theorem execCoreLoadStore_full {b c w : Nat} {s : State} {g : State → State} (hcore : executes b c s) (hw : w < 2 ^ 32) (hlow : w % 4 = 3)
    (hg : doLoadStore b c w 4 s.start = g s.start) : exec (.coreLoadStore b c w) s = .next (perform s g) := by
  refine onCore_executes hcore ?_
  rw [expandWord_of_full hlow hw]
  exact hg

theorem length_le_bytes (n v : Nat) : (le n v).length = n := by
  induction n generalizing v with
  | zero => rfl
  | succ n ih => rw [le, List.length_cons, ih]

/-- Whether an AMO is one of RV64A does not depend on its operands. -/
theorem amoValue_ne_none {n f5 old v r : Nat} (h : amoValue n f5 old v = some r) (a b : Nat) : amoValue n f5 a b ≠ none := by
  intro hnone
  unfold amoValue at h hnone
  split at hnone <;> simp_all

theorem partsOf_phys {b c access va n a : Nat} {s : State} (hplace : placeOf s b c va n = .phys a) (hpage : va % 65536 + n ≤ 65536) :
    partsOf s b c access va n = .ok [.mem false a n] := by
  have hpart : partOf s b c access va n = .ok (.mem false a n) := by rw [partOf, hplace]
  rw [partsOf]
  simp only [if_pos (show n ≤ 65536 - va % 65536 by omega), hpart]
  rfl

/-- Settles O14: each access reaches its parts, and reads or writes them as its instruction says. -/
theorem coreMemoryAccesses : Obligations.CoreMemoryAccesses := by
  unfold Obligations.CoreMemoryAccesses
  refine ⟨fun b c w va ps bs s u hcore hw hlow hop hf3 hva hat hrd => execCoreLoadStore_full hcore hw hlow ?load,
    fun b c w va ps s u t hcore hw hlow hop hf3 hva hat hu hwr => execCoreLoadStore_full hcore hw hlow ?store,
    fun b c w va v ps bs s u t hcore hatom hlr hsc hva halign hat hmem hplain hrd hv hwr => onCore_executes hcore ?amo,
    fun b c w va ps bs s u hcore hlr hrs2 hva halign hat hmem hplain hrd => onCore_executes hcore ?lr,
    fun b c w va ps s u t hcore hsc hva halign hat hmem hplain hu hresv hline hwr => onCore_executes hcore ?scHeld,
    fun b c w va ps s u hcore hsc hva halign hat hmem hplain hu hlost => onCore_executes hcore ?scLost,
    fun b c access va n a s hplace hpage => partsOf_phys hplace hpage, fun b c a n bs s hrd harea => ?reads, fun b c cls a bs s t harea hwr => ?writes⟩
  case load =>
    subst hva
    simp only [doLoadStore, hop, doLoadX, hf3, if_false]
    exact loadBytes_accessAt hat hrd
  case store =>
    subst hva
    simp only [doLoadStore, hop, doStoreX, if_neg (Nat.not_le.mpr hf3)]
    have hlen : (le (2 ^ wF3 w) (xOf (coreOf s b c) (wRs2 w))).length = 2 ^ wF3 w := length_le_bytes _ _
    exact storeBytes_accessAt (hlen.symm ▸ hat) (hlen.symm ▸ hu) hwr
  case amo =>
    have hop : wOp w = 0x2F := by
      rw [isAtomic, Bool.and_eq_true, decide_eq_true_eq] at hatom
      exact hatom.1
    simp only [hop, hlr, hsc, hatom, ne_eq, not_true_eq_false, Bool.false_eq_true, or_self, if_false, Bool.not_true]
    rw [doAmo]
    obtain ⟨r, hr⟩ := Option.ne_none_iff_exists'.mp (amoValue_ne_none hv 0 0)
    simp only [hr, reachAtomic_accessAt (s := s.start) hva halign hat hmem hplain, hrd, hv, Option.getD_some, hwr]
  case lr =>
    rw [if_pos hlr, doLr, if_neg (not_not.mpr hrs2), reachAtomic_accessAt (s := s.start) hva halign hat hmem hplain]
    simp only [hrd]
    rfl
  case scHeld =>
    rw [if_pos hsc, doSc, reachAtomic_accessAt (s := s.start) hva halign hat hmem hplain, hu]
    have hheld : (coreOf u b c).resv.isSome = true ∧ (coreOf u b c).resv = physLine u (blockOf s.start b).lode ps :=
      ⟨Option.isSome_iff_ne_none.mpr hresv, hline⟩
    simp only [if_pos hheld, hwr]
  case scLost =>
    rw [if_pos hsc, doSc, reachAtomic_accessAt (s := s.start) hva halign hat hmem hplain, hu]
    have hgone : ¬ ((coreOf u b c).resv.isSome = true ∧ (coreOf u b c).resv = physLine u (blockOf s.start b).lode ps) := by
      rintro ⟨hsome, hline⟩
      exact hlost.elim (fun hnone => Option.isSome_iff_ne_none.mp hsome hnone) fun hne => hne hline
    simp only [if_neg hgone]
  case reads =>
    have hplain : ¬ (areaOf a bs.length = some b ∧ ((blockOf s b).area.any fun w => decide (w ≠ c)) = true) := fun h => harea h.1
    simp only [rdParts, rdPart, hrd, Except.map, Except.bind, blurArea, if_neg hplain, List.append_nil]
  case writes =>
    rw [wrPhys] at hwr
    simp only [wrParts, if_neg harea, List.take_length, hwr]
    rfl

end Sys2Proof.Proofs

/-! ### Event records change the recorder, the host ports and what is sent (R377, R559) -/

namespace Sys2Proof.Proofs
open Sys2Proof.Machine

theorem raiseAll_frame (v : Nat) (s : State) : ∃ hp out, raiseAll v s = { s with hp := hp, out := out } := by
  refine each_preserves (P := fun t : State => ∃ hp out, t = { s with hp := hp, out := out }) ?_ (hostPorts s) ⟨s.hp, s.out, rfl⟩
  rintro p _ ⟨hp, out, rfl⟩
  exact ⟨_, _, raise_eq p v _⟩

theorem bumpSeq_frame (s : State) : ∃ evr, bumpSeq s = { s with evr := evr } := by
  rw [bumpSeq]
  split <;> exact ⟨_, rfl⟩

theorem acceptEv_frame (e : Ev) (s : State) : ∃ evr hp out, acceptEv e s = { s with evr := evr, hp := hp, out := out } := by
  rw [acceptEv]
  split
  · exact ⟨s.evr, s.hp, s.out, rfl⟩
  · split
    · exact ⟨_, s.hp, s.out, rfl⟩
    · obtain ⟨evr, hseq⟩ := bumpSeq_frame (modEvr (fun r => { r with staging := r.staging ++ [{ e with seq := r.nextSeq, ops := r.opsec, dev := evDev s }] }) s)
      dsimp only
      rw [hseq]
      split
      · obtain ⟨hp, out, hraise⟩ := raiseAll_frame 3073 { s with evr := evr }
        exact ⟨evr, hp, out, hraise⟩
      · exact ⟨evr, s.hp, s.out, rfl⟩

/-- Ranges zeroed one after the other are noted for memory and clear poison. -/
theorem each_zeroRange_frame {α : Type} (xs : List α) (lo n : α → Nat) (s : State) :
    ∃ edits poison, each xs (fun x => zeroRange (lo x) (n x)) s = { s with edits := edits, mem := { s.mem with poison := poison } } := by
  refine each_preserves (P := fun t : State => ∃ edits poison, t = { s with edits := edits, mem := { s.mem with poison := poison } }) ?_ xs
    ⟨s.edits, s.mem.poison, rfl⟩
  rintro x _ ⟨edits, poison, rfl⟩
  exact ⟨_, _, rfl⟩

end Sys2Proof.Proofs

/-! ### Launches, walks, exceptions and row spares (R179, R183, R184, R187, R227) -/

namespace Sys2Proof.Proofs
open Sys2Proof.Machine

/-- A row after its spare entered service (R187). -/
def remappedRow (r : Row) : Row := { r with pendingRemap := false, spent := true }

/-- What a command that remaps a row leaves, once its zeroed lines are stored. -/
theorem perform_remapped {b row : Nat} {s : State} {f : State → State} (h : ∃ edits poison evr hp out, f s.start =
      { s.start with cu := { s.cu with rows := tmod {} s.cu.rows (b * 4 + row) remappedRow }, mem := { s.mem with poison := poison }
                     edits := edits, evr := evr, hp := hp, out := out }) :
    ∃ cores bytes poison evr hp out, run s f = .next
      { s with cu := { s.cu with rows := tmod {} s.cu.rows (b * 4 + row) remappedRow, cores := cores }
               mem := { s.mem with bytes := bytes, poison := poison }, edits := [], evr := evr, hp := hp, out := out } := by
  obtain ⟨edits, poison, evr, hp, out, h⟩ := h
  refine ⟨breakResv edits s.cu.cores, applyEdits edits s.mem.bytes, poison, evr, hp, s.out ++ out, ?_⟩
  rw [run, perform, h]

/-- A row's spare enters service: the row's entry, zeroed lines of its scratchpad, an event (R187, R188). -/
theorem exec_rowSpareRemap {b row : Nat} {bad : List Nat} {s : State} (hpending : (rowOf s b row).pendingRemap = true)
    (hidle : (blockOf s b).launch = none) :
    ∃ cores bytes poison evr hp out, exec (.rowSpareRemap b row bad) s = .next
      { s with cu := { s.cu with rows := tmod {} s.cu.rows (b * 4 + row) remappedRow, cores := cores }
               mem := { s.mem with bytes := bytes, poison := poison }, edits := [], evr := evr, hp := hp, out := out } := by
  have hready : ¬ ((!(rowOf s.start b row).pendingRemap) = true ∨ (blockOf s.start b).launch.isSome = true) := by
    rw [show (rowOf s.start b row).pendingRemap = true from hpending, show (blockOf s.start b).launch = none from hidle]
    decide
  refine perform_remapped ?_
  dsimp only
  rw [if_neg hready]
  obtain ⟨edits, poison, hzero⟩ := each_zeroRange_frame
    ((List.range 1024).filter fun i => bad.contains i || poisoned s.start (blockBase b + 0x400000 + (row * 8 + (rowOf s.start b row).failed) * 0x10000 + i * 64))
    (fun i => blockBase b + 0x400000 + (row * 8 + (rowOf s.start b row).failed) * 0x10000 + i * 64) (fun _ => 64) s.start
  rw [hzero]
  exact ⟨edits, poison, acceptEv_frame _ _⟩

/-- Settles O15: a launch, a walk and an exception take the branch that the premises name; a remap leaves the row in service. -/
theorem launchesAndExceptions : Obligations.LaunchesAndExceptions := by
  unfold Obligations.LaunchesAndExceptions
  refine ⟨fun b l pos ctx r s hnext hlaunch hrec hwaits hreset hremap hlive => run_start ?start,
    fun l pos s hblocks hdone hstatus => run_start ?complete, fun b c va access e s hwait hwalk => run_start ?filled,
    fun b c va access st s hwait hwalk => run_start ?faulted,
    fun b c cause tval s hcore h12 h13 h15 => onCore_executes hcore ?trap, fun b c va st s hcore hwalk => onCore_executes hcore ?again,
    fun b row bad s hpending hidle => ?remap⟩
  case start =>
    have hfree : ¬ ((!launchWaits s.start b) = true ∨ (blockOf s.start b).resetting = true ∨ remapWaits s.start b = true) := by
      rw [show launchWaits s.start b = true from hwaits, show (blockOf s.start b).resetting = false from hreset,
        show remapWaits s.start b = false from hremap]
      decide
    simp only [show nextLaunch s.start b = none from hnext, show launchOf s.start b = some (l, pos, ctx) from hlaunch,
      show ((blockOf s.start b).launch.bind fun p => recOf s.start p.1 p.2) = some r from hrec, if_neg hfree,
      show tagLive s.start l (blockOf s.start b).etag = true from hlive, if_true]
  case complete =>
    have hready : ¬ ((launchBlocks s.start l pos).isEmpty = true ∨ (!(launchBlocks s.start l pos).all (blockDone s.start)) = true) := by
      rw [show (launchBlocks s.start l pos).all (blockDone s.start) = true from hdone, List.isEmpty_iff]
      exact not_or.mpr ⟨hblocks, Bool.false_ne_true⟩
    simp only [if_neg hready, show firstStatus s.start (launchBlocks s.start l pos) = none from hstatus]
    rfl
  case filled =>
    rw [walkEnd, show (coreOf s.start b c).wait = .walk va access from hwait]
    dsimp only
    rw [show ((walkAs s.start b (draw s.start).1 (ctxOfBlock s.start b) va).bind fun e => (useLeaf s.start e va access 1).map fun _ => e) = .ok e from hwalk]
    rfl
  case faulted =>
    rw [walkEnd, show (coreOf s.start b c).wait = .walk va access from hwait]
    dsimp only
    rw [show ((walkAs s.start b (draw s.start).1 (ctxOfBlock s.start b) va).bind fun e => (useLeaf s.start e va access 1).map fun _ => e) = .error st from hwalk]
    rfl
  case trap =>
    simp only [h12, h13, h15, or_self, if_false]
    rfl
  case again =>
    simp only [(by decide : ¬ 13 = 12), if_true, if_false, true_or, or_true, 
      show ((walk s.start (ctxOfBlock s.start b) va).bind fun e => useLeaf s.start e va 0 1) = .error st from hwalk]
  case remap =>
    obtain ⟨cores, bytes, poison, evr, hp, out, hexec⟩ := exec_rowSpareRemap (bad := bad) hpending hidle
    refine ⟨_, hexec, ?_, fun k hk => ?_, rfl⟩
    · exact tget_tmod_same {} s.cu.rows (b * 4 + row) remappedRow fun hd => Bool.false_ne_true (congrArg Row.spent hd).symm
    · exact tget_tmod_other {} s.cu.rows remappedRow hk

end Sys2Proof.Proofs

/-! ### Requests served, arbiters, memory errors, patrol and evacuation (R202 to R212, R290) -/

namespace Sys2Proof.Proofs
open Sys2Proof.Machine

theorem bucketTake_frame (m l n : Nat) (s : State) :
    ∃ masters tok, bucketTake m l n s = { s with noc := { s.noc with masters := masters, bucketTok := tok } } := by
  rw [bucketTake]
  split
  · exact ⟨s.noc.masters, _, rfl⟩
  · exact ⟨_, s.noc.bucketTok, rfl⟩

/-- What a request's payment and its way through the mesh leave. -/
theorem paid_frame (m l n c id : Nat) (conf : Bool) (way : State → Option (Nat × Nat) × List Nat) (s : State) :
    ∃ masters tok served out, (let v := countBytes m c n conf (bucketTake m l n s); sendWay m id .request (way v) v) =
      { s with noc := { s.noc with masters := masters, bucketTok := tok, served := served }, out := out } := by
  obtain ⟨masters, tok, hpaid⟩ := bucketTake_frame m l n s
  rw [hpaid]
  exact ⟨_, _, _, _, rfl⟩

section
variable {r : MemReq} {s u : State} {p : Nat} {own : Bool} (hlode : (lodeOf u r.lode).state ≠ 0) (hlive : tagLive u r.lode r.etag = true)
  (hmarker : waitsMarker u r = false) (hpc : pcOfReq u r = some p) (hslot : freeSlot u (arbOf u p) (effClass u r) = some own)
include hlode hlive hmarker hpc hslot

/-- A request under a live tag that finds a slot is served in it (R202). -/
theorem arrive_served (conf : Bool) : arrive r conf u = enterQueue p own r conf (serveReq { r with cls := effClass u r } u) := by
  have haccepted : ¬ ((lodeOf u r.lode).state = 0 ∨ (!tagLive u r.lode r.etag) = true) := by
    rw [hlive]
    exact not_or.mpr ⟨hlode, Bool.false_ne_true⟩
  obtain ⟨a, ha⟩ : ∃ a, resolve u r.lode r.laddr = some a := by
    obtain ⟨a, ha, _⟩ := Option.bind_eq_some_iff.mp hpc
    exact ⟨a, ha⟩
  rw [arrive, if_neg haccepted, hmarker, if_neg Bool.false_ne_true, ha]
  simp only [accept, hpc, hslot]

end

/-- A conforming request crosses the mesh and arrives (R271, R290). -/
theorem inject_conforming {r : MemReq} {u : State} {p : Nat} (hopen : regionClosed u r = false)
    (hhas : bucketHas u r.master r.lode r.len = true) (hpc : pcOfReq u r = some p) :
    let v := countBytes r.master (effClass u r) r.len true (bucketTake r.master r.lode r.len u)
    inject r u = arrive r true (sendWay r.master r.id .request (requestWay v r.master p) v) := by
  obtain ⟨masters, tok, hpaid⟩ := bucketTake_frame r.master r.lode r.len u
  rw [inject, hopen, if_neg Bool.false_ne_true, takeIn, if_pos hhas]
  dsimp only
  rw [hpaid]
  rw [show pcOfReq (countBytes r.master (effClass { u with noc := { u.noc with masters := masters, bucketTok := tok } } r) r.len true
    { u with noc := { u.noc with masters := masters, bucketTok := tok } }) r = some p from hpc]
  rfl

theorem regionOf_modRegion {r : Nat} {f : Region → Region} {s : State} (h : f (regionOf s r) ≠ {}) :
    regionOf (modRegion r f s) r = f (regionOf s r) :=
  tget_tmod_same _ _ _ _ h

theorem modRegion_congr {r : Nat} {f g : Region → Region} {s : State} (h : f (regionOf s r) = g (regionOf s r)) :
    modRegion r f s = modRegion r g s :=
  congrArg (fun x => { s with mem := { s.mem with regions := tset {} s.mem.regions r x } }) h

/-- Settles O16: a request that is paid for arrives with nothing but its payment changed; the other commands take the branch their premises name. -/
theorem sharedMemoryServed : Obligations.SharedMemoryServed := by
  unfold Obligations.SharedMemoryServed
  refine ⟨fun q r s u v p own hrouted hbehind hopen hhas hlode hlive hmarker hpc hslot hv => run_start ?served,
    fun n r a s hpick => run_start ?picked, fun p s hreset hret hfew => run_start ?corrected, fun p addr req s hfailed hfirst => run_start ?ue,
    fun r p line s hin hline hnow => run_start ?patrol, fun r p s hhead hr hoff => run_start ?noPass, fun p s => run_start rfl,
    fun n s hstate hlode hnone => ⟨_, run_start (if_pos ⟨hstate, hlode, Option.isNone_iff_eq_none.mpr hnone⟩), rfl⟩,
    fun n o s hevac hstep hfree => run_start ?resumed⟩
  case served =>
    subst hv
    rw [issue, hrouted]
    dsimp only
    rw [hbehind, if_neg Bool.false_ne_true, inject_conforming hopen hhas hpc]
    obtain ⟨masters, tok, served, out, hsent⟩ := paid_frame r.master r.lode r.len (effClass u r) r.id true (fun v => requestWay v r.master p) u
    dsimp only at hsent ⊢
    rw [hsent]
    exact arrive_served (u := { u with noc := { u.noc with masters := masters, bucketTok := tok, served := served }, out := out })
      hlode hlive hmarker hpc hslot true
  case picked => rw [show pickNext s.start (arbOf s.start n) (tier3On s.start n) = some (r, a) from hpick]
  case corrected =>
    have hfew' : (regionOf s.start (p / 96)).ceThresh = 0 ∨ (cesNow s.start (pcOf s.start p).ces).length < (regionOf s.start (p / 96)).ceThresh ∨
      (pcOf s.start p).predicted = true ∨ (pcOf s.start p).failed = true := Or.inr (Or.inl hfew)
    simp only [Machine.corrected, show inReset s.start ⟨5, p⟩ = false from hreset, show (fcOf s.start ⟨5, p⟩).retired = false from hret, Bool.or_self,
      Bool.false_eq_true, if_false, if_true, if_pos hfew']
    rfl
  case ue =>
    simp only [uncorrectable, show (pcOf s.start p).failed = false from hfailed, show (pcOf s.start p).lastUe = none from hfirst,
      Bool.false_eq_true, if_false]
  case patrol =>
    have hgoes : (decide ((patrolled s.start r).head? = some p) && decide (line = 0)) = false := by
      rw [Bool.and_eq_false_iff, decide_eq_false_iff_not, decide_eq_false_iff_not]
      exact or_iff_not_imp_left.mpr fun hhead => hline (not_not.mp hhead)
    have hon : ¬ ((regionOf s.start r).patrolNow = 0 ∨ (!(patrolled s.start r).contains p) = true) := by
      rw [show (patrolled s.start r).contains p = true from hin]
      exact not_or.mpr ⟨hnow, Bool.false_ne_true⟩
    simp only [hgoes, wh, Bool.false_eq_true, if_false, if_neg hon]
  case noPass =>
    have hstopped : (regionOf (modRegion r (fun g => { g with patrolNow := g.patrol }) s.start) r).patrolNow = 0 := by
      rw [regionOf_modRegion]
      · exact hoff
      · exact fun hd => absurd (hoff.symm.trans (congrArg Region.patrol hd :)) (by decide : (0 : Nat) ≠ 24)
    simp only [show (patrolled s.start r).head? = some p from hhead, decide_true, Bool.and_self, wh, if_true, hstopped, true_or]
    exact modRegion_congr (congrArg (fun n => { regionOf s.start r with patrolNow := n }) hoff)
  case resumed =>
    have hfree' : o.step = 5 ∧ (!(freeElsewhere s.start o.donor n).isEmpty) = true := by
      refine ⟨hstep, ?_⟩
      rw [Bool.not_eq_true', ← Bool.not_eq_true, List.isEmpty_iff]
      exact hfree
    simp only [show evacOf s.start n = some o from hevac, if_pos hfree']

end Sys2Proof.Proofs

/-! ### What a store in lode memory can change (R48, R197, R238) -/

namespace Sys2Proof.Proofs
open Sys2Proof.Machine

/-- `t` is `s` after stores in lode memory: bytes and poison, cached lines, dirty logs with what they post. -/
def StoredFrom (s t : State) : Prop := ∃ edits regions poison lodes hp out q, t =
  { s with edits := edits, mem := { s.mem with regions := regions, poison := poison }, xl := { s.xl with lodes := lodes }, hp := hp, out := out, q := q }

section
variable {s t u : State}

theorem StoredFrom.refl (s : State) : StoredFrom s s := ⟨_, _, _, _, _, _, _, rfl⟩

theorem StoredFrom.trans (hst : StoredFrom s t) (htu : StoredFrom t u) : StoredFrom s u := by
  obtain ⟨_, _, _, _, _, _, _, rfl⟩ := hst
  obtain ⟨_, _, _, _, _, _, _, rfl⟩ := htu
  exact ⟨_, _, _, _, _, _, _, rfl⟩

theorem storedFrom_each {α : Type} {f : α → State → State} (hf : ∀ a s, StoredFrom s (f a s)) (xs : List α) (s : State) :
    StoredFrom s (each xs f s) :=
  each_preserves (P := StoredFrom s) (fun a _ ht => ht.trans (hf a _)) xs (.refl s)

theorem storedFrom_touchLine (a cls : Nat) (write : Bool) (s : State) : StoredFrom s (touchLine a cls write s) := by
  rw [touchLine]
  split
  · exact .refl s
  · dsimp only
    split
    · exact ⟨_, _, _, _, _, _, _, rfl⟩
    · split
      · exact .refl s
      · exact ⟨_, _, _, _, _, _, _, rfl⟩

theorem storedFrom_touchLode (l a n cls : Nat) (write : Bool) (s : State) : StoredFrom s (touchLode l a n cls write s) := by
  refine storedFrom_each (fun p s => ?_) _ s
  split
  · exact storedFrom_touchLine _ cls write s
  · exact .refl s

theorem storedFrom_putBytes (a : Nat) (bs : List Byte) (s : State) : StoredFrom s (putBytes a bs s) := by
  induction bs generalizing a s with
  | nil => exact .refl s
  | cons b bs ih =>
    rw [putBytes]
    exact StoredFrom.trans ⟨_, _, _, _, _, _, _, rfl⟩ (ih _ _)

theorem storedFrom_setPoison (line : Nat) (v : Bool) (s : State) : StoredFrom s (setPoison line v s) := ⟨_, _, _, _, _, _, _, rfl⟩

theorem storedFrom_wrPiece {a : Nat} {bs : List Byte} (h : wrPiece a bs s = .ok t) : StoredFrom s t := by
  rw [wrPiece] at h
  split at h
  · exact nomatch h
  · split at h
    · split at h
      · obtain rfl := Except.ok.inj h
        exact (storedFrom_putBytes a bs s).trans (storedFrom_setPoison _ _ _)
      · exact nomatch h
    · obtain rfl := Except.ok.inj h
      exact storedFrom_putBytes a bs s

theorem storedFrom_forwardWrite (a : Nat) (bs : List Byte) (s : State) : StoredFrom s (forwardWrite a bs s) := by
  refine StoredFrom.trans ?_ (storedFrom_putBytes a bs _)
  rw [wh]
  split
  · exact storedFrom_setPoison _ _ s
  · exact .refl s

theorem storedFrom_wrLodePiece {l a : Nat} {bs : List Byte} (h : wrLodePiece l a bs s = .ok t) : StoredFrom s t := by
  rw [wrLodePiece] at h
  split at h
  · dsimp only at h
    cases hw : wrPiece _ bs s with
    | error e => rw [hw] at h; exact nomatch h
    | ok u =>
      rw [hw] at h
      obtain rfl := Except.ok.inj h
      refine (storedFrom_wrPiece hw).trans ?_
      split
      · exact storedFrom_forwardWrite _ bs u
      · exact .refl u
  · exact nomatch h

theorem storedFrom_wrLode {l a : Nat} {bs : List Byte} (h : wrLode l a bs s = .ok t) : StoredFrom s t :=
  foldl_bind_preserves (P := StoredFrom s) (fun _ _ _ hp hu => hu.trans (storedFrom_wrLodePiece hp)) _ (.refl s) h

theorem storedFrom_settle {r : Except Nat State} (h : ∀ t, r = .ok t → StoredFrom s t) : StoredFrom s (settle s r).2 := by
  cases r with
  | error e => exact .refl s
  | ok t => exact h t rfl

theorem storedFrom_raise (p v : Nat) (s : State) : StoredFrom s (raise p v s) := by
  rw [raise_eq]
  exact ⟨_, _, _, _, _, _, _, rfl⟩

theorem storedFrom_setCoarse (l : Nat) (s : State) : StoredFrom s (setCoarse l s) := by
  rw [setCoarse]
  split
  · exact .refl s
  · rw [raiseLode]
    split
    · exact StoredFrom.trans ⟨_, _, _, _, _, _, _, rfl⟩ (storedFrom_raise _ _ _)
    · exact ⟨_, _, _, _, _, _, _, rfl⟩

theorem storedFrom_hostWrite (l addr : Nat) (data : List Byte) (s : State) : StoredFrom s (hostWrite l addr data s) := by
  rw [hostWrite]
  split
  · exact .refl s
  · exact ⟨_, _, _, _, _, _, _, rfl⟩

theorem storedFrom_hostPost (l addr : Nat) (relaxed : Bool) (data : List Byte) (what : HostReadFor) (s : State) :
    StoredFrom s (hostPost l addr relaxed data what s) := by
  rw [hostPost]
  split
  · exact .refl s
  · exact ⟨_, _, _, _, _, _, _, rfl⟩

theorem storedFrom_sealPut {put : Nat → List Byte → State → State} (hput : ∀ a d s, StoredFrom s (put a d s))
    (l kind ctr addr ring : Nat) (data : List Byte) (s : State) : StoredFrom s (sealPut put l kind ctr addr ring data s) := by
  rw [sealPut]
  split
  · dsimp only
    split
    · exact (hput _ _ s).trans (storedFrom_hostWrite _ _ _ _)
    · exact hput _ _ s
  · exact hput _ _ s

theorem storedFrom_modXlLode (l : Nat) (f : XlLode → XlLode) (s : State) : StoredFrom s (modXlLode l f s) := ⟨_, _, _, _, _, _, _, rfl⟩

theorem storedFrom_modQueue (l : Nat) (f : Queue → Queue) (s : State) : StoredFrom s (modQueue l f s) := ⟨_, _, _, _, _, _, _, rfl⟩

theorem storedFrom_writeMark (l a cls : Nat) (bs : List Byte) (s : State) :
    StoredFrom s (touchLode l a 1 cls true (settle s (wrLode l a bs s)).2) :=
  (storedFrom_settle fun _ ht => storedFrom_wrLode ht).trans (storedFrom_touchLode l a 1 cls true _)

theorem storedFrom_logPage (l cls page : Nat) (s : State) : StoredFrom s (logPage l cls page s) := by
  rw [logPage]
  split
  · exact .refl s
  dsimp only
  split
  · exact storedFrom_setCoarse l s
  split
  · exact .refl s
  split
  · exact storedFrom_writeMark l _ cls _ s
  split
  · exact (((storedFrom_writeMark l _ cls _ s).trans (storedFrom_sealPut (fun a d s => storedFrom_hostPost l a false d (.dirtyEntry l) s)
      l 3 _ _ _ _ _)).trans (storedFrom_modQueue l _ _)).trans (storedFrom_modXlLode l _ _)
  · exact (storedFrom_writeMark l _ cls _ s).trans (storedFrom_setCoarse l _)

theorem storedFrom_storeLode {l a cls : Nat} {bs : List Byte} (h : storeLode l a cls bs s = .ok t) : StoredFrom s t := by
  rw [storeLode] at h
  split at h
  · obtain rfl := Except.ok.inj h
    exact .refl s
  · cases hw : wrLode l a bs (touchLode l a bs.length cls true s) with
    | error e => rw [hw] at h; exact nomatch h
    | ok u =>
      rw [hw] at h
      obtain rfl := Except.ok.inj h
      exact ((storedFrom_touchLode l a bs.length cls true s).trans (storedFrom_wrLode hw)).trans
        (storedFrom_each (fun page s => storedFrom_logPage l cls page s) _ u)

theorem storedFrom_fencePut (l a off n v : Nat) (s : State) : StoredFrom s (fencePut l a off n v s) :=
  storedFrom_settle fun _ ht => storedFrom_storeLode ht

theorem storedFrom_signalFence (l : Nat) (f : Option VFence) (s : State) : StoredFrom s (signalFence l f s) := by
  cases f
  · exact .refl s
  · exact storedFrom_fencePut _ _ _ _ _ s

end

end Sys2Proof.Proofs

/-! ### The translation verbs (R219 to R221, R228 to R230, R235, R238 to R241) -/

namespace Sys2Proof.Proofs
open Sys2Proof.Machine

/-- A verb for this device is carried out here (R241). -/
theorem verb_onDev {via : Via} {code gid dev l num : Nat} {args : List Nat} {f : Nat → State → Reply} {s : State}
    (data : State → List Byte) {g : State → State} (h : requested via code s) (hlive : findLive s via gid = .ok l) (hdev : dev = s.dr.devid)
    (hf : f l s.start = (0, data s.start, g s.start)) :
    verb via code s (fun s => match findLive s via gid with
      | .error e => reject via e s
      | .ok l => onDev via l dev num args (f l) s) = .next (perform s fun u => answer via 0 (data u) (g u)) := by
  refine verb_requested h ?_
  rw [show findLive s.start via gid = .ok l from hlive]
  exact (if_pos hdev).trans (congrArg (finish via) hf)

/-- Settles O17: each verb passes its checks; a drained invalidation signals its fence, which leaves the waiting ones. -/
theorem translationVerbs : Obligations.TranslationVerbs := by
  unfold Obligations.TranslationVerbs
  refine ⟨fun via gid dev first count l s h hlive hdev hrange hfirst hctxs htabs => verb_onDev (fun _ => []) h hlive hdev ?range,
    fun via gid dev table level first l es s t h hlive hdev hne hlen hlevel hrange halign hin hok hst => verb_onDev (g := fun _ => t) (fun _ => []) h hlive hdev ?mirror,
    fun via gid ctx dva len dev l f s h hlive hdev hctx hlen hrange hfence hroom hheld => verb_requested h ?inval,
    fun num i f s hfind haway huses hfirst hfence hheld => run_start ?drained,
    fun via gid addr l s h hlive hready hpasid halign => verb_requested h ?ring,
    fun via gid dev ring bitmap l s h hlive hdev hoff hin => verb_onDev (fun _ => []) h hlive hdev ?logOn,
    fun via gid dev l s h hlive hdev hon => verb_onDev (fun u => enc [(4, (xlLodeOf s l).dlProd)]) h hlive hdev ?sync,
    fun via gid dev l s h hlive hdev hon => verb_onDev (fun _ => []) h hlive hdev ?logOff⟩
  case range =>
    have hfits : ¬ (8192 < first + count ∨ 8192 ≤ first) := by omega
    have hfree : ((!(ctxsOf s.start l).isEmpty) || s.start.xl.ctxs.any fun t => t.2.valid && decide (t.2.lode = l)) = false := by
      rw [show ctxsOf s.start l = [] from hctxs]
      exact htabs
    rw [doTableRange, if_neg hfits, hfree, if_neg Bool.false_ne_true]
    rfl
  case mirror =>
    have hfits : ¬ (es.length = 0 ∨ 64 < es.length ∨ 2 < level ∨ 8192 < first + es.length ∨ table % 65536 ≠ 0) := by
      have := List.length_pos_iff.mpr hne
      omega
    have hentries : ¬ ((!insideTables s.start l table 65536) = true ∨ (!es.all (entryOk s.start l level)) = true) := by
      rw [show insideTables s.start l table 65536 = true from hin, show es.all (entryOk s.start l level) = true from hok]
      decide
    simp only [doMirror, if_neg hfits, if_neg hentries, hst, settle]
  case inval =>
    have hnamed : ¬ (dev ≠ 0xFFFF ∧ dev ≠ s.dr.devid ∧ (!(lodeOf s.start l).members.contains dev) = true) := fun hother =>
      hdev.elim hother.1 hother.2.1
    have hknown : (ctx.map fun c => !((xlCtxOf s.start c).valid && decide ((xlCtxOf s.start c).lode = l))).getD false = false := by
      cases ctx with
      | none => rfl
      | some c =>
        obtain ⟨hvalid, hlode⟩ := hctx c rfl
        simp only [Option.map_some, Option.getD_some, show (xlCtxOf s.start c).valid = true from hvalid,
          show (xlCtxOf s.start c).lode = l from hlode, decide_true, Bool.and_self, Bool.not_true]
    have hrange : ¬ (len = 0 ∨ 2 ^ 55 < dva + len ∨ (!fenceFits s.start l f) = true) := by
      rw [show fenceFits s.start l f = true from hfence]
      exact not_or.mpr ⟨hlen, not_or.mpr ⟨Nat.not_lt.mpr hrange, Bool.false_ne_true⟩⟩
    have hgoes : s.start.xl.invals.length < 16 ∧ s.start.xl.invHeld.isEmpty = true := ⟨hroom, List.isEmpty_iff.mpr hheld⟩
    simp only [show findLive s.start via gid = .ok l from hlive, if_neg hnamed, hknown, Bool.false_eq_true, if_false, if_neg hrange, offerInval]
    exact if_pos hgoes
  case drained =>
    have hready : ¬ ((!i.away.isEmpty) = true ∨ usesLeft s.start i.lode = true ∨ (s.start.xl.invals.find? fun j => j.lode = i.lode) ≠ some i) := by
      rw [haway, show usesLeft s.start i.lode = false from huses, show (s.start.xl.invals.find? fun j => j.lode = i.lode) = some i from hfirst]
      simp
    simp only [show (s.start.xl.invals.find? fun i => i.num = num) = some i from hfind, if_neg hready, hfence]
    obtain ⟨_, _, _, _, _, _, _, hsignal⟩ := storedFrom_signalFence i.lode (some f)
      (modXl (fun x => { x with invals := x.invals.filter fun j => j.num ≠ num }) s.start)
    have hnone : (signalFence i.lode (some f) (modXl (fun x => { x with invals := x.invals.filter fun j => j.num ≠ num }) s.start)).xl.invHeld = [] := by
      rw [hsignal]
      exact hheld
    rw [hnone]
  case ring =>
    have hfits : ¬ ((xlLodeOf s.start l).fqReady = true ∨ (lodeOf s.start l).pasid = 0) := by
      rw [show (xlLodeOf s.start l).fqReady = false from hready]
      exact not_or.mpr ⟨Bool.false_ne_true, hpasid⟩
    simp only [show findLive s.start via gid = .ok l from hlive, if_neg hfits, halign, ne_eq, not_true_eq_false, if_false]
  case logOn =>
    simp only [doDirtyStart, show (xlLodeOf s.start l).dlOn = false from hoff, show insideTables s.start l bitmap (2 ^ 22) = true from hin,
      Bool.not_true, Bool.false_eq_true, if_false]
    rfl
  case sync =>
    simp only [doDirtySync, show (xlLodeOf s.start l).dlOn = true from hon, wh, Bool.not_true, Bool.false_eq_true, if_false]
    rfl
  case logOff =>
    simp only [doDirtyStop, show (xlLodeOf s.start l).dlOn = true from hon, Bool.not_true, Bool.false_eq_true, if_false]
    rfl

end Sys2Proof.Proofs

/-! ### The fault ring and the driver's replies (R235 to R237) -/

namespace Sys2Proof.Proofs
open Sys2Proof.Machine

/-- A fault ring that is set up and not full takes a record (R236). -/
theorem ring_takes {x : XlLode} (hready : x.fqReady = true) (hroom : fqFull x = false) : ¬ ((!x.fqReady) = true ∨ fqFull x = true) := by
  rw [hready, hroom]
  decide

/-- Settles O18: each command finds the fault that its premises name. -/
theorem translationFaultsAnswered : Obligations.TranslationFaultsAnswered := by
  unfold Obligations.TranslationFaultsAnswered
  refine ⟨fun l f s hheld hready hroom => run_start ?written, fun l f s hheld hready hroom => run_start ?refused,
    fun l f s hstall hfull => run_start ?timeout, fun p l fseq f s hpage hfind => run_start ?retry, fun p l fseq f s hpage hfind => run_start ?fail⟩
  case written =>
    have htakes := ring_takes (x := xlLodeOf s.start l) hready hroom
    simp only [show firstHeld (xlLodeOf s.start l) = some f from hheld, if_neg htakes, if_true, wh, decide_eq_true_eq]
    rfl
  case refused =>
    have htakes := ring_takes (x := xlLodeOf s.start l) hready hroom
    simp only [show firstHeld (xlLodeOf s.start l) = some f from hheld, if_neg htakes, Bool.false_eq_true, if_false, wh]
  case timeout =>
    simp only [show ((xlLodeOf s.start l).faults.find? fun f => !f.written && agentStalls s.start l f) = some f from hstall,
      show fqFull (xlLodeOf s.start l) = true from hfull, Bool.not_true, Bool.false_eq_true, if_false]
  case retry =>
    simp only [doFaultReply, show pageLive s.start p l = true from hpage, Bool.not_true, Bool.false_eq_true, if_false,
      show ((xlLodeOf s.start l).faults.find? fun f => f.written && decide (f.fseq = fseq)) = some f from hfind]
  case fail =>
    simp only [doFaultReply, show pageLive s.start p l = true from hpage, Bool.not_true, Bool.false_eq_true, if_false,
      show ((xlLodeOf s.start l).faults.find? fun f => f.written && decide (f.fseq = fseq)) = some f from hfind]

end Sys2Proof.Proofs

/-! ### The regulation group (R273, R297): a commit whose own access changes whether the group agrees -/

namespace Sys2Proof.Proofs
open Sys2Proof.Machine

/-- A group whose one master that is not the default is the headframe's agrees when that one keeps its bounds (R297). -/
theorem regAgrees_of_headOnly {s : State} {k : Master} (hmasters : s.noc.masters = [(160, k)]) (hbuckets : s.noc.buckets = [])
    (hmin : 32 ≤ k.min) (hmax : k.min ≤ 265420) (hdepth : 1 ≤ k.depth) : regAgrees s = true := by
  have hmaster (m : Nat) : masterOf s m = if 160 = m then k else {} := by rw [masterOf, hmasters]; rfl
  have hrates (m : Nat) : lodeRates s m = 0 := by
    rw [lodeRates, hbuckets]
    exact List.sum_eq_zero fun n hn => by
      obtain ⟨_, _, rfl⟩ := List.mem_map.mp hn
      rfl
  have hsum : ((((List.range 161).map fun m => masterOf s m).map (·.min)).sum) = k.min := by
    rw [List.range_succ, List.map_append, List.map_append, List.sum_append, List.map_map]
    have hrest : ((List.range 160).map (Master.min ∘ fun m => masterOf s m)).sum = 0 := List.sum_eq_zero fun n hn => by
      obtain ⟨m, hm, rfl⟩ := List.mem_map.mp hn
      rw [Function.comp, hmaster, if_neg (List.mem_range.mp hm).ne']
    rw [hrest]
    simp [hmaster]
  have hdepths : ((List.range 161).map fun m => masterOf s m).all (fun m => decide (1 ≤ m.depth)) = true := by
    refine List.all_eq_true.mpr fun x hx => decide_eq_true ?_
    obtain ⟨m, _, rfl⟩ := List.mem_map.mp hx
    rw [hmaster]
    split
    · exact hdepth
    · decide
  have hhead : 32 ≤ (masterOf s 160).min := by rwa [hmaster, if_pos rfl]
  unfold regAgrees
  simp only [Bool.and_eq_true]
  exact ⟨⟨⟨decide_eq_true (hsum.le.trans hmax), decide_eq_true hhead⟩, hdepths⟩,
    List.all_eq_true.mpr fun m _ => decide_eq_true (by rw [hrates]; exact Nat.zero_le _)⟩

/-- A chip that is ready and lets the host write the regulation group. Its table of masters lists the headframe master twice: the first entry
holds 4 tokens and no minimum, so that paying 4 bytes for the access makes it the default and drops it from the table. -/
def headListedTwice : State :=
  { State.reset with
    chip := { State.reset.chip with phase := 3 }
    img := { State.reset.img with applied := { State.reset.img.applied with expert := 128 } }
    noc := { State.reset.noc with masters := [(160, { tokens := 4 }), (160, { min := 32 })] } }

theorem admits_headListedTwice : admits (.host 0) 7 headListedTwice := ⟨by decide, fun _ => ⟨by decide, by decide, by decide⟩⟩

theorem regAgrees_headListedTwice : regAgrees headListedTwice = false := by
  have hmin : (masterOf headListedTwice 160).min = 0 := rfl
  simp [regAgrees, hmin]

theorem regAgrees_entered_headListedTwice : regAgrees (entered (.host 0) headListedTwice.start) = true :=
  regAgrees_of_headOnly (k := { min := 32, conform := 4 }) (by decide) rfl (by decide) (by decide) (by decide)

/-- Refutes O19: the host's own access may change whether the group agrees, where the table of masters lists one master twice. The commit of
`headListedTwice`, whose group does not agree, then waits for the boundary and is not held. -/
theorem not_deadlineClockAndRegulation : ¬ Obligations.DeadlineClockAndRegulation := by
  unfold Obligations.DeadlineClockAndRegulation
  rintro ⟨-, -, -, -, hheld, -⟩
  have hstated := hheld (.host 0) 1 headListedTwice admits_headListedTwice rfl (by decide) regAgrees_headListedTwice
  have hexec : exec (.regCommit (.host 0) 1) headListedTwice =
      .next (perform headListedTwice fun u => modNoc (fun n => { n with regGo := true }) (entered (.host 0) u)) := by
    refine regCmd_admitted admits_headListedTwice ?_
    rw [if_pos (by decide : Nat.testBit 1 0 = true), regStart, if_neg (by decide), if_pos regAgrees_entered_headListedTwice]
  have hstates := Host.Outcome.next.inj (hexec.symm.trans hstated)
  exact absurd (congrArg (fun t : State => t.noc.regState) hstates) (by decide)

end Sys2Proof.Proofs

/-! ### Sync pages, hubs and reductions (R278 to R287) -/

namespace Sys2Proof.Proofs
open Sys2Proof.Machine

theorem takeFirst_head {f : SyncMsg → Bool} {tag : Nat} {m : SyncMsg} {rest : List (Nat × SyncMsg)} (h : f m = true) :
    takeFirst f ((tag, m) :: rest) = some (m, rest) := if_pos h

/-- A wait that its semaphore covers, behind no other, needs no waiting record (R280). -/
theorem hubTakes_covered {n b c count rd : Nat} {s : State} (hwaits : (semOf s n).waits = []) (hcount : count ≤ (semOf s n).value) :
    hubTakes s n (.wait b c count rd) = true := by
  simp only [hubTakes, hwaits, List.isEmpty_nil, Bool.true_and, decide_eq_true hcount, Bool.or_true]

theorem hubTakes_room {n b c count rd : Nat} {s : State} (hroom : waiters s (n / 16384) < 2048) : hubTakes s n (.wait b c count rd) = true := by
  simp only [hubTakes, decide_eq_true hroom, Bool.true_or]

theorem barOf_modBar_of_ne {g : Nat} {f : Barrier → Barrier} {s : State} (h : f (barOf s g) ≠ {}) : barOf (modBar g f s) g = f (barOf s g) :=
  tget_tmod_same _ _ _ _ h

/-- The target that a round already has does not change with the messages under way. -/
theorem barTarget_of_target {g b : Nat} {s : State} {rest : List (Nat × Nat × Nat)} (h : (barOf s g).target ≠ 0) :
    barTarget (modBar g (fun m => { m with inflight := rest }) s) g b = (barOf s g).target := by
  have hbar : barOf (modBar g (fun m => { m with inflight := rest }) s) g = { barOf s g with inflight := rest } :=
    barOf_modBar_of_ne fun hd => h (congrArg Barrier.target hd :)
  rw [barTarget, hbar]
  exact if_pos h

/-- A packet that its router may combine (R284). -/
theorem not_forwarded {s : State} {router : Nat} {p : RedPkt} (hen : (regionOf s (router / 12)).combEn = true)
    (hrouter : (regionOf s (router / 12)).noComb.contains router = false) (hhold : (regionOf s (router / 12)).combHold ≠ 0) (halone : p.alone = false)
    (hfew : p.contribs.length < 8) :
    (!(regionOf s (router / 12)).combEn || (regionOf s (router / 12)).noComb.contains router || decide ((regionOf s (router / 12)).combHold = 0) ||
      p.alone || decide (8 ≤ p.contribs.length)) = false := by
  rw [hen, hrouter, decide_eq_false hhold, halone, decide_eq_false (Nat.not_le.mpr hfew)]
  rfl

/-- Settles O20: the hub takes the message in front; a router holds, merges or forwards a packet; the destination applies it. -/
theorem syncNetworkApplied : Obligations.SyncNetworkApplied := by
  unfold Obligations.SyncNetworkApplied
  refine ⟨fun via gid region first count l ps s h hps hlive hret hfree => verb_requested h ?bind,
    fun via gid region first count l ps s h hps hlive hheld => verb_requested h ?free,
    fun via gid g n l s h hg hn hlive hholds => verb_requested h ?arrivals, fun n k tag rest s hin => run_start ?post,
    fun n b c count rd tag rest s hin hclean hwaits hcount => run_start ?covered,
    fun n b c count rd tag rest s hin hclean hcount hroom => run_start ?queued, fun n b c count rd tag rest s hin hclean hcount => run_start ?tried,
    fun g b c tag rest s hin hclean htarget harrived => run_start ?completed,
    fun router p s hen hrouter hhold halone hfew hnone hroom => run_start ?held,
    fun router p e s hen hrouter hhold halone hfew hfind hmerged => run_start ?merged, fun router p rest s hheld => run_start ?expired,
    fun router p s halone => run_start ?alone, fun p old s t hlode hlive hblock hstate hrd hwr => run_start ?applied⟩
  case bind =>
    simp only [hps, show findLive s.start via gid = .ok l from hlive, show (ps.any fun p => (pageOf s.start p).retired) = false from hret,
      show (ps.any fun p => (pageOf s.start p).bound || (pageOf s.start p).scrub) = false from hfree, Bool.false_eq_true, if_false]
  case free =>
    simp only [hps, show findLive s.start via gid = .ok l from hlive,
      show (ps.any fun p => !((pageOf s.start p).bound && decide ((pageOf s.start p).lode = l))) = false from hheld, Bool.false_eq_true, if_false]
  case arrivals =>
    have hrange : ¬ (4096 ≤ g ∨ 65535 < n) := by omega
    simp only [if_neg hrange, show findLive s.start via gid = .ok l from hlive, show holdsBar s.start l g = true from hholds, Bool.not_true,
      Bool.false_eq_true, if_false]
  case post => rw [show (semOf s.start n).inflight = (tag, .post k) :: rest from hin, takeFirst_head rfl]
  case covered =>
    have hgrants : (semOf s.start n).waits.isEmpty = true ∧ count ≤ (semOf s.start n).value := ⟨List.isEmpty_iff.mpr hwaits, hcount⟩
    simp only [show (semOf s.start n).inflight = (tag, .wait b c count rd) :: rest from hin,
      takeFirst_head (hubTakes_covered (s := s.start) hwaits hcount), show (semOf s.start n).poisoned = false from hclean, Bool.false_eq_true, if_false,
      if_pos hgrants]
    rfl
  case queued =>
    have hshort : ¬ ((semOf s.start n).waits.isEmpty = true ∧ count ≤ (semOf s.start n).value) := fun h => absurd h.2 (Nat.not_le.mpr hcount)
    simp only [show (semOf s.start n).inflight = (tag, .wait b c count rd) :: rest from hin,
      takeFirst_head (hubTakes_room (s := s.start) hroom), show (semOf s.start n).poisoned = false from hclean, Bool.false_eq_true, if_false,
      if_neg hshort]
  case tried =>
    have hshort : ¬ ((semOf s.start n).waits.isEmpty = true ∧ count ≤ (semOf s.start n).value) := fun h => absurd h.2 (Nat.not_le.mpr hcount)
    simp only [show (semOf s.start n).inflight = (tag, .try b c count rd) :: rest from hin,
      takeFirst_head (f := hubTakes s.start n) (m := .try b c count rd) rfl, show (semOf s.start n).poisoned = false from hclean,
      Bool.false_eq_true, if_false, if_neg hshort]
    rfl
  case completed =>
    simp only [show (barOf s.start g).inflight = (tag, b, c) :: rest from hin, show (barOf s.start g).poisoned = false from hclean, Bool.false_eq_true,
      if_false, barTarget_of_target (s := s.start) htarget]
    exact if_pos harrived
  case held =>
    simp only [not_forwarded (s := s.start) hen hrouter hhold halone hfew, Bool.false_eq_true, if_false,
      show (tget [] s.start.noc.comb router).find? (combines p) = none from hnone]
    cases hheld : tget [] s.start.noc.comb router with
    | nil => rfl
    | cons old rest =>
      rw [show tget [] s.noc.comb router = old :: rest from hheld] at hroom
      exact if_neg (Nat.not_le.mpr hroom)
  case merged =>
    simp only [not_forwarded (s := s.start) hen hrouter hhold halone hfew, Bool.false_eq_true, if_false,
      show (tget [] s.start.noc.comb router).find? (combines p) = some e from hfind, if_neg (Nat.not_le.mpr hmerged)]
  case expired => rw [show tget [] s.start.noc.comb router = p :: rest from hheld]
  case alone =>
    refine if_pos ?_
    rw [halone, Bool.or_true, Bool.true_or]
  case applied =>
    have haccepted : ¬ ((lodeOf s.start p.lode).state = 0 ∨ (!tagLive s.start p.lode p.etag) = true ∨ (blockOf s.start p.dblock).lode ≠ p.lode ∨
        ((blockOf s.start p.dblock).state ≠ 1 ∧ (blockOf s.start p.dblock).state ≠ 2)) := by
      rw [show tagLive s.start p.lode p.etag = true from hlive]
      exact not_or.mpr ⟨hlode, not_or.mpr ⟨Bool.false_ne_true, not_or.mpr ⟨not_not.mpr hblock, fun h => hstate.elim h.1 h.2⟩⟩⟩
    simp only [if_neg haccepted, hrd, hwr, settle]

end Sys2Proof.Proofs

/-! ### Ports train, take flits, replay and retire lanes (R304 to R312) -/

namespace Sys2Proof.Proofs
open Sys2Proof.Machine

section
variable {p : Nat} {s : State}

/-- Two changes that agree on the entry as it stands are one. -/
theorem modPort_congr {f g : Port → Port} (h : f (portOf s p) = g (portOf s p)) : modPort p f s = modPort p g s :=
  congrArg (fun t => { s with dr := { s.dr with ports := tset ({} : Port) s.dr.ports p t } }) h

/-- A port that is down starts training afresh. -/
def startTraining (t : Port) : Port := { t with state := 1, step := 1, lanes := 0, usable := trainable t }

/-- A port that was up trains with its buffer and sequence numbers kept (R310). -/
def startRecovery (t : Port) : Port := { t with state := 4, step := 1, lanes := 0, usable := trainable t }

theorem train_of_down (h : (portOf s p).state = 0) : train p s = modPort p startTraining s :=
  modPort_congr (by simp only [h, startTraining]; rfl)

theorem portUp_iff : portUp s p = true ↔ (portOf s p).state = 2 ∨ (portOf s p).state = 3 := by
  simp [portUp]

theorem recover_of_up (h : portUp s p = true) : recover p s = modPort p startRecovery s := by
  have hstate : (portOf s p).state = 2 ∨ (portOf s p).state = 3 ∨ (portOf s p).state = 4 := (portUp_iff.mp h).imp_right .inl
  rw [recover, if_pos h]
  exact modPort_congr (by simp only [if_pos hstate, startRecovery])

/-- The lanes a port that begins to train may use. -/
theorem usable_startTraining : (portOf (modPort p startTraining s) p).usable = trainable (portOf s p) := by
  rw [portOf_modPort (port_ne_default_of_state Nat.one_ne_zero)]
  rfl

/-- A port in step 1 or 2 of its training has a step to end. -/
theorem not_left_training (htrain : training s p = true) (hstep : (portOf s p).step = 1 ∨ (portOf s p).step = 2) :
    ¬ ((!training s p) = true ∨ (portOf s p).step = 0 ∨ 2 < (portOf s p).step) := by
  rw [htrain]
  rcases hstep with hstep | hstep <;> simp [hstep]

/-- No lane is in the empty mask. -/
theorem filter_lanes_of_none (ls : List Nat) : ls.filter (fun l => !Nat.testBit 0 l) = ls := by
  simp

/-- Flits kept for replay from a number on, with nothing new acknowledged (R308). -/
theorem replayFrom_of_few {seq : Nat} (h : (portOf s p).replays < 7) :
    replayFrom p seq s = emit (.replay p seq) (modPort p (fun t => { t with replays := (portOf s p).replays + 1 }) s) :=
  if_neg (by omega)

end

/-- Settles O21: each clause names the branch of the command that its premises select; the entry of a port in training or up is
listed, so what a command reads back after a change of the entry is what it wrote. -/
theorem driftPortsTrainAndReplay : Obligations.DriftPortsTrainAndReplay := by
  unfold Obligations.DriftPortsTrainAndReplay
  refine ⟨fun p locked s hen himg hlock hstate => run_start ?starts, fun p locked s hen himg hlock hstate => run_start ?locked,
    fun p ok s htrain hstep hok => run_start ?stepEnds, fun p s htrain hstep => run_start ?noPeer,
    fun p lo hi dev serial peerPort lanes s htrain hlo hhi hlanes => ?agreed,
    fun p lo hi dev serial peerPort lanes s htrain hapart => ?apart,
    fun p seq acked corrected s hup hseq => ?accepted, fun p seq acked good corrected s hup hbad hasked => ?discarded,
    fun p seq s hup hbuf hfew hall => run_start ?again, fun p n k rest s hup hbuf hfew => run_start ?unacknowledged,
    fun p s hup => run_start (recover_of_up hup), fun p lane s hret hup => run_start ?retired⟩
  case starts =>
    have hadmit : ¬ ((!(portOf s p).enable) = true ∨ (!imagePort s p) = true) := by simp [hen, himg]
    refine (if_neg hadmit).trans ?_
    simp only [train_of_down (s := s.start) hstate, usable_startTraining, show portOf s.start p = portOf s p from rfl, if_neg hlock]
    rfl
  case locked =>
    have hadmit : ¬ ((!(portOf s p).enable) = true ∨ (!imagePort s p) = true) := by simp [hen, himg]
    refine (if_neg hadmit).trans ?_
    simp only [train_of_down (s := s.start) hstate, usable_startTraining, show portOf s.start p = portOf s p from rfl, if_pos hlock]
    rfl
  case stepEnds =>
    exact (if_neg (not_left_training htrain hstep)).trans (if_neg hok)
  case noPeer =>
    refine (if_neg (not_left_training htrain (.inl hstep))).trans ?_
    simp only [show portOf s.start p = portOf s p from rfl, hstep, Nat.zero_mod, Nat.and_zero, if_true, filter_lanes_of_none, trainFail]
  case agreed =>
    have hmeet : ¬ (1 < lo ∨ hi < 1) := by omega
    have hwide : ¬ (lanesOf ((portOf s p).usable &&& (lanes % 16))).length < 2 := by omega
    simp only [exec_capabilityRecord htrain, if_neg hmeet, if_neg hwide]
    rfl
  case apart =>
    simp only [exec_capabilityRecord htrain, if_pos hapart]
    rfl
  case accepted =>
    have hgood : ¬ ((!true) = true ∨ seq ≠ (portOf s p).rxSeq) := by simp [hseq]
    have hstate := state_ne_zero_of_portUp hup
    simp only [exec_flitReceive hup, if_neg hgood]
    refine congrArg Host.Outcome.next (perform_congr_of_port p fun u hport => congrArg (fun v => drain p (takenDown p v)) (modPort_congr ?_))
    rw [← hport] at hstate ⊢
    rw [show portOf (modPort p _ u) p = _ from portOf_noteCorrected hstate corrected]
    rfl
  case discarded =>
    have hbad : (!good) = true ∨ seq ≠ (portOf s p).rxSeq := hbad.imp_left fun h => by rw [h]; rfl
    have hstate := state_ne_zero_of_portUp hup
    simp only [exec_flitReceive hup, if_pos hbad]
    refine congrArg Host.Outcome.next (perform_congr_of_port p fun u hport => ?_)
    rw [← hport] at hstate hasked ⊢
    rw [discardFlit_eq hstate, hasked]
    rfl
  case again =>
    have hsend : ¬ ((!portUp s p) = true ∨ (((portOf s p).replayBuf.filter fun q => decide (seq ≤ q.1)).isEmpty) = true) := by
      rw [hup, List.isEmpty_iff]
      exact not_or.mpr ⟨nofun, hbuf⟩
    have hcut : (portOf (modPort p (fun t => { t with replayBuf := (portOf s p).replayBuf.filter fun q => decide (seq ≤ q.1) }) s.start) p).replays =
        (portOf s p).replays := by
      rw [portOf_modPort (port_ne_default_of_state (state_ne_zero_of_portUp (s := s.start) hup))]
      rfl
    refine (if_neg hsend).trans ?_
    simp only [show portOf s.start p = portOf s p from rfl, hall, if_true]
    rw [replayFrom_of_few (hcut ▸ hfew), hcut]
  case unacknowledged =>
    simp only [show (portOf s.start p).replayBuf = (n, k) :: rest from hbuf, show portUp s.start p = true from hup, if_true]
    exact replayFrom_of_few hfew
  case retired =>
    simp only [show portUp s.start p = false from hup, show (portOf s.start p).retired.testBit lane = false from hret, Bool.not_false, if_true,
      Bool.false_eq_true, if_false]
    rfl

end Sys2Proof.Proofs

/-! ### Packets at a hop, windows and the combining store (R317 to R339) -/

namespace Sys2Proof.Proofs
open Sys2Proof.Machine

/-- A packet that reaches a chip awake is handled at once (R501). -/
theorem packet_taken {i : Instr} {s : State} {f g : State → State} (hawake : asleep s = false) (h : f s.start = g s.start) :
    packetCmd i s f = .next (perform s g) :=
  run_start ((if_neg (by rw [show asleep s.start = false from hawake]; exact Bool.false_ne_true)).trans h)

/-- Paying for a packet and reporting its way touch the mesh and what is sent out alone. -/
theorem packetPaid_frame (p l c n : Nat) (k : Packet) (d : Dest) (s : State) :
    ∃ noc out, packetWay p k d (payReq (128 + p) l c n s) = { s with noc := noc, out := out } := by
  rw [payReq_eq]
  exact ⟨_, _, rfl⟩

/-- A window packet that enters is paid for and crosses the mesh; nothing else changes. -/
theorem windowEntered_frame (p : Nat) (k : Packet) (s : State) : ∃ noc out, windowEntered p k s = { s with noc := noc, out := out } := by
  have hpaid : ∃ noc out, payReq (128 + p) (rwinOf s k.winid).lode k.cls (packetCost k) s = { s with noc := noc, out := out } :=
    ⟨_, _, payReq_eq ..⟩
  unfold windowEntered
  dsimp only
  split
  · split
    · exact packetPaid_frame _ _ _ _ _ _ _
    · exact hpaid
  · exact hpaid

section
variable {p q : Nat} {k : Packet} {s : State}

/-- A packet for another module with hops left is paid for and goes on towards the port of its route (R323). -/
theorem forward_goes_on (hassigned : s.dr.assigned = true) (hdev : k.ddev ≠ s.dr.devid) (hhops : k.hops ≠ 0) (hroute : routeOf s k = some q) :
    forward (some p) k s = sendOn (some p) { k with hops := k.hops - 1 }
      (packetWay p k (.port q) (payReq (128 + p) ((findGid s k.slode).getD 0x7F) k.cls (packetCost k) s)) := by
  have hcarries : ¬ ((!s.dr.assigned) = true ∧ k.vc < 6) := by simp [hassigned]
  refine (if_neg hcarries).trans ((if_neg hdev).trans ((if_neg hhops).trans ?_))
  rw [hroute]

/-- A packet that can leave its port by route leaves, its slots given back. -/
theorem sendOn_leaves (hroute : routeOf s k = some q) (hleave : canLeave s q k = true) :
    sendOn (some p) k s = emit (.credit p k.vc (pktSlots k)) (launchPkt q k s) := by
  simp only [sendOn, tryForward, hroute, Option.map_some, hleave, if_true, giveBack]

/-- A packet without a deadline that cannot leave waits at the port. -/
theorem sendOn_waits (hroute : routeOf s k = some q) (hleave : canLeave s q k = false) (hdeadline : k.dlrem = 0) :
    sendOn (some p) k s = modPort q (fun t => { t with waiting := t.waiting ++ [(some p, { k with dlrem := 0 })] }) s := by
  simp only [sendOn, tryForward, hroute, Option.map_some, hleave, Bool.false_eq_true, if_false, hdeadline, if_true]

/-- A window packet that nothing holds at its ingress is performed (R331). -/
theorem deliver_window (htyp : k.typ = 1 ∨ k.typ = 2 ∨ k.typ = 6 ∨ k.typ = 7) (henters : windowEnters p k s) :
    deliver (some p) k s = emit (.credit p k.vc (pktSlots k))
      (each (winReceive k (windowEntered p k s)).1 sendResponse (winReceive k (windowEntered p k s)).2) := by
  obtain ⟨hshare, hnone⟩ := henters
  have hbehind : (s.noc.ingress.any fun w => decide (w.1 = p) && decide (w.2.winid = k.winid)) = false := by
    simpa using hnone
  simp only [deliver, if_pos htyp, Option.filter_some, hshare, hbehind, Bool.or_false, Bool.false_eq_true, if_false]
  rfl

/-- A window packet whose lode's share is used up waits at its ingress (R296). -/
theorem deliver_held (htyp : k.typ = 1 ∨ k.typ = 2 ∨ k.typ = 6 ∨ k.typ = 7)
    (hshare : sealedWaits s (128 + p) (rwinOf s k.winid).lode (packetCost k) = true) :
    deliver (some p) k s = modNoc (fun n => { n with ingress := n.ingress ++ [(p, k)] }) s := by
  simp only [deliver, if_pos htyp, Option.filter_some, hshare, Bool.true_or, if_true]

theorem windowPacket_delivered {g : State → State} (hawake : asleep s = false) (htyp : k.typ = 1 ∨ k.typ = 2 ∨ k.typ = 6 ∨ k.typ = 7)
    (h : deliver (some p) k s.start = g s.start) : exec (.windowPacketReceive p k) s = .next (perform s g) :=
  packet_taken hawake ((if_pos htyp).trans h)

theorem rwinOf_windowEntered (p w : Nat) : rwinOf (windowEntered p k s) w = rwinOf s w := by
  obtain ⟨noc, out, hframe⟩ := windowEntered_frame p k s
  rw [hframe]
  rfl

end

section
variable {k : Packet} {u : State}

theorem winReceive_denied (h : winCheck u k ≠ 0) : winReceive k u = (responses u k 5 (winCheck u k) [], u) := if_pos h

theorem winReceive_put {t : State} (hcheck : winCheck u k = 0) (htyp : k.typ = 1)
    (hstore : storeLode (rwinOf u k.winid).lode ((rwinOf u k.winid).laddr + k.offset) k.cls k.data u = .ok t) :
    winReceive k u = (responses t k 4 0 [], t) := by
  have hperform : winPerform k u = (0, [], t) := by
    simp only [winPerform, htyp, show ¬ (1 = 7) by decide, show ¬ (1 = 2) by decide, show ¬ (1 = 6) by decide, if_false, hstore, settle]
  simp only [winReceive, hcheck, ne_eq, not_true_eq_false, if_false, hperform, htyp, show ¬ (1 = 2) by decide]

theorem winReceive_get {d : List Byte} (hcheck : winCheck u k = 0) (htyp : k.typ = 2)
    (hread : rdLode u (rwinOf u k.winid).lode ((rwinOf u k.winid).laddr + k.offset) k.len = .ok d) :
    winReceive k u = (fun v => (responses v k 3 0 d, v)) (touchLode (rwinOf u k.winid).lode ((rwinOf u k.winid).laddr + k.offset) k.len k.cls false u) := by
  have hperform : winPerform k u = (0, d, touchLode (rwinOf u k.winid).lode ((rwinOf u k.winid).laddr + k.offset) k.len k.cls false u) := by
    simp only [winPerform, htyp, show ¬ (2 = 7) by decide, if_false, if_true, hread]
  simp only [winReceive, hcheck, ne_eq, not_true_eq_false, if_false, hperform, htyp, if_true]

end

/-- The wait for a packet's response, ended with an error or with none. -/
def endWait (rtag err lost len : Nat) (d : Dma) : Dma :=
  { d with
    waitIds := d.waitIds.filter (· ≠ rtag)
    failed := if err = 0 then d.failed else d.failed ++ [(err, lost, len)]
    cancel := if d.cancel = 0 then err else d.cancel }

/-- A response without data that asks for no second try ends the wait of the request it answers (R339). -/
theorem takeResponse_ends {rtag typ status : Nat} {data : List Byte} {w : WinReq} {d : Dma} {s : State} (htyp : typ ≠ 3)
    (hnew : ¬ (typ = 5 ∧ status = Err.staleEpoch)) (hout : (s.dr.out.find? fun w => decide (w.rtag = rtag)) = some w)
    (hdma : ((dmaOf s w.unit).find? fun d => d.waitIds.contains rtag) = some d) :
    takeResponse rtag typ status data s = settleDma w.unit (setDma w.unit (modFirst (fun d => d.waitIds.contains rtag)
      (endWait rtag (if typ = 5 then status else 0) (if d.kind = 4 then w.pkt.offset else d.dstVa + w.dstOff) w.pkt.len) (dmaOf s w.unit))
      (modDr (fun d => { d with out := d.out.filter fun x => x.rtag ≠ rtag }) s)) := by
  have honce : ¬ (typ = 5 ∧ status = Err.staleEpoch ∧ (!w.retried) = true ∧ (lodeOf s d.lode).state ≠ 0) :=
    fun h => hnew ⟨h.1, h.2.1⟩
  simp only [takeResponse, respond, hout, hdma, if_neg honce, if_neg htyp]
  split <;> rfl

/-- Settles O22: a packet that goes on reads its route and its credits after it has been paid for, which touches neither; a window
packet that enters likewise reads its window as it stood. -/
theorem driftPacketsForwarded : Obligations.DriftPacketsForwarded := by
  unfold Obligations.DriftPacketsForwarded
  refine ⟨fun p q k s hawake hassigned hdev hhops hroute hleave => packet_taken hawake ?leaves,
    fun p q k s hawake hassigned hdev hhops hdeadline hroute hleave => packet_taken hawake ?waits,
    fun p w s hfirst => run_start ?escapes, fun p vc n s hvc hmoves => run_start ?shared, fun p vc n l s hvc hmoves => run_start ?reserved,
    fun p k s hawake htyp hshare => windowPacket_delivered hawake htyp (deliver_held htyp hshare),
    fun p k s u hawake htyp henters hu hcheck => windowPacket_delivered hawake htyp ?denied,
    fun p k s u t hawake htyp henters hu hcheck hstore => windowPacket_delivered hawake (.inl htyp) ?put,
    fun p k d s u hawake htyp henters hu hcheck hread => windowPacket_delivered hawake (.inr (.inl htyp)) ?get,
    fun k w d s hawake htyp hout hdma => packet_taken hawake ?answered, fun rtag w d s hout hdma => run_start ?timeout,
    fun k s hawake htyp hen hcomb hhold hfew hnone hroom => packet_taken hawake ?stored,
    fun k e s hawake htyp hen hcomb hhold hfew hsome hmerged => packet_taken hawake ?merged, fun k rest s hstore => run_start ?held⟩
  case leaves =>
    obtain ⟨noc, out, hframe⟩ := packetPaid_frame p ((findGid s k.slode).getD 0x7F) k.cls (packetCost k) k (.port q) s.start
    refine (forward_goes_on (s := s.start) hassigned hdev hhops hroute).trans ?_
    rw [show findGid s.start = findGid s from rfl, hframe]
    exact sendOn_leaves hroute hleave
  case waits =>
    obtain ⟨noc, out, hframe⟩ := packetPaid_frame p ((findGid s k.slode).getD 0x7F) k.cls (packetCost k) k (.port q) s.start
    refine (forward_goes_on (s := s.start) hassigned hdev hhops hroute).trans ?_
    rw [show findGid s.start = findGid s from rfl, hframe]
    exact sendOn_waits hroute hleave hdeadline
  case escapes =>
    simp only [show portOf s.start p = portOf s p from rfl, hfirst]
    rfl
  case shared =>
    simp only [if_pos hvc]
    rw [show (modPort p _ s.start).lm = s.lm from rfl, hmoves]
    rfl
  case reserved =>
    simp only [if_neg (Nat.not_le_of_lt hvc)]
    rw [show (modLm _ s.start).lm.ops = s.lm.ops from rfl, hmoves]
    rfl
  case denied =>
    rw [deliver_window htyp (s := s.start) henters, hu, winReceive_denied hcheck]
  case put =>
    have hwin : rwinOf u k.winid = rwinOf s k.winid := hu ▸ rwinOf_windowEntered (s := s.start) p k.winid
    rw [deliver_window (.inl htyp) (s := s.start) henters, hu, winReceive_put hcheck htyp (hwin ▸ hstore)]
  case get =>
    have hwin : rwinOf u k.winid = rwinOf s k.winid := hu ▸ rwinOf_windowEntered (s := s.start) p k.winid
    rw [deliver_window (.inr (.inl htyp)) (s := s.start) henters, hu, winReceive_get hcheck htyp (hwin ▸ hread), hwin]
  case answered =>
    refine (if_pos (.inr (.inl htyp))).trans ((takeResponse_ends (s := s.start) (by omega) (by omega) hout hdma).trans ?_)
    have hplain : endWait k.rtag (if k.typ = 5 then k.status else 0) (if d.kind = 4 then w.pkt.offset else d.dstVa + w.dstOff) w.pkt.len =
        fun d => { d with waitIds := d.waitIds.filter (· ≠ k.rtag) } := by
      funext x
      have hcancel : (if x.cancel = 0 then 0 else x.cancel) = x.cancel := by split <;> simp_all
      simp only [endWait, htyp, show ¬ (4 = 5) by decide, if_false, if_true, hcancel]
    rw [hplain]
    rfl
  case timeout =>
    refine (takeResponse_ends (s := s.start) (by decide) (by decide) hout hdma).trans ?_
    rfl
  case stored =>
    have hmay : ¬ ((!s.dr.combEn || s.dr.noComb || decide (s.dr.combHold = 0) || decide (8 ≤ (contribsOf k).length)) = true) := by
      simp [hen, hcomb, hhold, hfew]
    refine (if_neg (not_not.mpr htyp)).trans ((if_neg hmay).trans ?_)
    simp only [show s.start.dr.store.find? (merges k) = none from hnone]
    cases hold : s.dr.store with
    | nil =>
      dsimp only
      exact congrArg (fun st => ({ s.start with dr := { s.start.dr with store := st } } : State)) (show [k] = s.dr.store ++ [k] by rw [hold]; rfl)
    | cons old rest =>
      dsimp only
      exact if_neg (by rw [← hold]; omega)
  case merged =>
    have hmay : ¬ ((!s.dr.combEn || s.dr.noComb || decide (s.dr.combHold = 0) || decide (8 ≤ (contribsOf k).length)) = true) := by
      simp [hen, hcomb, hhold, hfew]
    refine (if_neg (not_not.mpr htyp)).trans ((if_neg hmay).trans ?_)
    simp only [show s.start.dr.store.find? (merges k) = some e from hsome]
    exact if_neg (by omega)
  case held =>
    simp only [hstore]

end Sys2Proof.Proofs

/-! ### Port controls and window verbs (R330, R335, R340, R341) -/

namespace Sys2Proof.Proofs
open Sys2Proof.Machine

section
variable {who : Writer} {f p : Nat} {s : State}

/-- What a host's access takes of its bucket leaves the ports and the image as they stand. -/
theorem portOf_entered (who : Writer) (p : Nat) (s : State) : portOf (entered who s) p = portOf s p := by
  rw [portOf, entered_dr, portOf]

theorem imagePort_entered (who : Writer) (p : Nat) (s : State) : imagePort (entered who s) p = imagePort s p := by
  rw [imagePort, entered_img, imagePort]

/-- An admitted write of a register that exists and that takes the value does its work. -/
theorem regCmd_in_range {i : Instr} {bad off : Nat} {k g : State → State} (h : admits who f s) (hbad : bad = 0)
    (hk : k (entered who s.start) = g s.start) : regCmd i who f off bad s k = .next (perform s g) := by
  subst hbad
  exact regCmd_admitted (s := s) h hk

end

/-- A verb on a window of this module that its port may name. -/
theorem winVerb_requested {via : Via} {code win : Nat} {args : List Nat} {s : State} {refuse : State → Prop} [∀ u, Decidable (refuse u)]
    {f : State → Reply} {g : State → State} (hreq : requested via code s) (hseen : winSeen s via s.dr.devid win = true) (hok : ¬ refuse s.start)
    (hf : finish via (f s.start) = g s.start) :
    verb via code s (fun u => if !winSeen u via s.dr.devid win then reject via Err.lodeUnknown u
      else if refuse u then reject via Err.cmdFormat u else onWinDev via s.dr.devid code args f u) = .next (perform s g) := by
  refine verb_requested hreq ?_
  refine (if_neg (by rw [show winSeen s.start via s.dr.devid win = true from hseen]; decide)).trans ((if_neg hok).trans ((if_pos rfl).trans hf))

/-- The IDs below 0xF00 are those of memory windows (R328). -/
theorem kindOfWin_memory {win : Nat} (h : win < 0xF00) : kindOfWin win = 0 := if_pos h

/-- A memory window whose entry is free and whose range is in order is opened. -/
theorem doWinOpen_memory {l win ctx kind rights laddr len semBase al ad dm : Nat} {s : State} (hwin : win < 0xF00) (hkind : kind = 0) (halign : laddr % 256 = 0)
    (hrange : laddr + (len + 1) * 256 ≤ 2 ^ 41) (hlen : len < 2 ^ 32) (hsem : semBase < 2 ^ 17) (htables : inTables s l laddr ((len + 1) * 256) = false)
    (hal : al < 2 ^ 32) (hctx : (xlCtxOf s ctx).valid = true) (hlode : (xlCtxOf s ctx).lode = l) (hfree : (rwinOf s win).valid = false) :
    doWinOpen l [win, ctx, kind, rights, laddr, len, semBase, al, ad, dm] s = done (modRwin win (fun _ =>
      { valid := true, kind := 0, r := rights.testBit 0, w := rights.testBit 1, a := rights.testBit 2, len256 := len, laddr := laddr,
        semBase := semBase, lode := l, ctx := ctx, devMask := dm % 2 ^ 14, allowDev := ad % 2 ^ 14, allowLode := al }) s) := by
  have hformat : ¬ (4096 ≤ win ∨ 3 < kind ∨ laddr % 256 ≠ 0 ∨ 2 ^ 32 ≤ len ∨ 2 ^ 17 ≤ semBase ∨ 2 ^ 32 ≤ al) := by omega
  have hcontext : ¬ ((!(xlCtxOf s ctx).valid) = true ∨ (xlCtxOf s ctx).lode ≠ l) := by simp [hctx, hlode]
  have hrights : ¬ (kind ≠ kindOfWin win ∨ (kind ≠ 1 ∧ (2 ^ 41 < laddr + (len + 1) * 256 ∨ inTables s l laddr ((len + 1) * 256) = true))) := by
    rw [kindOfWin_memory hwin, hkind, htables]
    simp only [ne_eq, not_true_eq_false, false_or, Bool.false_eq_true, or_false, not_and]
    omega
  refine (if_neg (by omega)).trans ((if_neg hformat).trans ((if_neg hcontext).trans ((if_neg (by rw [hfree]; decide)).trans
    ((if_neg hrights).trans ((if_neg (by simp [hkind])).trans ?_)))))
  rw [hkind]

/-- Settles O23: the checks of each verb read the image, the port or the window alone, which what the access takes of the headframe
master's bucket leaves as they are. -/
theorem driftVerbsAndWindows : Obligations.DriftVerbsAndWindows := by
  unfold Obligations.DriftVerbsAndWindows
  refine ⟨fun via p m en low s hreq hp himg => verb_requested hreq ?set, fun via p m en low s hreq hbad => verb_requested hreq ?refused,
    fun via p s hreq hp => verb_requested hreq (if_neg (Nat.not_le_of_lt hp)),
    fun via first es s hreq hes hlen hfits => verb_requested hreq ?routes,
    fun via tmo esc hold en s hreq htmo htmo' hesc hesc' hhold => verb_requested hreq (if_neg (by omega)),
    fun who p s hadmits hp hen himg => regCmd_in_range hadmits (if_neg (Nat.not_le_of_lt hp)) ?retrain,
    fun who p s hadmits hp himg => regCmd_in_range hadmits ?enabled rfl,
    fun who p s hadmits hp => regCmd_in_range hadmits ?disabled rfl,
    fun who p on s hadmits hp => regCmd_in_range hadmits (if_neg (Nat.not_le_of_lt hp)) rfl,
    fun via dev win gid ctx kind rights laddr len semBase al ad dm l s hreq hlive hdev hwin hkind halign hrange hlen hsem htables hal hctx hlode
      hfree => ?opened,
    fun via win f s hreq hseen hwin hvalid hopen hhome hfence => winVerb_requested hreq hseen ?fits ?closed,
    fun via win s hreq hseen hwin => verb_requested hreq ?queried, fun win f s hclosing hfence hhome => run_start ?drained⟩
  case set =>
    refine if_neg ?_
    rintro (hlarge | ⟨hon, hoff⟩)
    · omega
    · rw [show imagePort s.start p = true from himg hon] at hoff
      exact absurd hoff (by decide)
  case refused =>
    refine if_pos (hbad.imp_right fun h => ⟨h.1, ?_⟩)
    rw [show imagePort s.start p = false from h.2]
    rfl
  case routes =>
    refine if_neg ?_
    rw [List.isEmpty_iff]
    rintro (hnil | hlong | hpast)
    · exact hes hnil
    · omega
    · omega
  case retrain =>
    refine if_pos ?_
    rw [portOf_entered, imagePort_entered]
    exact ⟨hen, himg⟩
  case enabled => simp [himg, hp]
  case disabled => simp [hp]
  case opened =>
    subst hdev
    exact verb_onDev (fun _ => []) hreq hlive rfl (doWinOpen_memory hwin hkind halign hrange hlen hsem htables hal hctx hlode hfree)
  case fits =>
    rintro ⟨-, -, -, hunfit⟩
    rw [show fenceFits s.start (rwinOf s.start win).lode f = true from hfence] at hunfit
    exact absurd hunfit (by decide)
  case closed =>
    refine congrArg (finish via) (if_neg ?_)
    rintro (hlarge | hinvalid | hclosing)
    · omega
    · rw [show (rwinOf s.start win).valid = true from hvalid] at hinvalid
      exact absurd hinvalid (by decide)
    · rw [show (rwinOf s.start win).closing = false from hopen] at hclosing
      exact absurd hclosing (by decide)
  case queried =>
    refine (if_neg (by rw [show winSeen s.start via s.dr.devid win = true from hseen]; decide)).trans ((if_pos rfl).trans ?_)
    exact congrArg (finish via) (if_neg (Nat.not_le_of_lt hwin))
  case drained =>
    simp only [show (rwinOf s.start win).closing = true from hclosing, show (rwinOf s.start win).fence = some f from hfence, Bool.not_true,
      Bool.false_eq_true, if_false]
    exact if_pos hhome

end Sys2Proof.Proofs

/-! ### Messages between modules (R347 to R361) -/

namespace Sys2Proof.Proofs
open Sys2Proof.Machine

/-- A later pool epoch is taken and its sweep follows (R355). -/
theorem learn_later {e : Nat} {s : State} (h : later e s.ut.poolEpoch = true) :
    learn e s = sweep (modUt (fun u => { u with poolEpoch := e }) s) := if_pos h

/-- A single transaction whose members have all consented sends COMMIT (R351). -/
theorem allPrepared_sends {t : Txn} {s : State} (hfind : (s.ut.txns.find? fun x => x.num = t.num) = some t) (hphase : t.phase = 2)
    (htwin : t.twin = none) (hready : t.devs.all (t.ready.contains ·) = true) : allPrepared t.num s =
      sendUt t.devs { msg := 4, fromDev := 0, txn := t.num, subject := (lodeOf s t.lode).gid, epoch := t.epoch, body := [t.epoch, t.info] }
        (modTxn t.num (fun x => { x with phase := 4 }) s) := by
  simp only [allPrepared, hfind, htwin, Option.bind_none, hphase, hready]
  rfl

theorem allPrepared_waits {t : Txn} {s : State} (hfind : (s.ut.txns.find? fun x => x.num = t.num) = some t)
    (hmissing : t.devs.all (t.ready.contains ·) = false) : allPrepared t.num s = s := by
  simp only [allPrepared, hfind, hmissing, Bool.and_false, Bool.not_false, true_or, if_true]

section
variable {m : UtMsg} {s : State}

/-- A message whose lode has no takeover under way is one of a transaction of this coordinator. -/
theorem utPrepared_of_member {t : Txn} {g : State → State}
    (hcalm : (s.ut.txns.find? fun t => decide (t.phase = 3) && decide ((lodeOf s t.lode).gid = m.subject)) = none)
    (hfind : (s.ut.txns.find? fun t => decide (t.num = m.txn) && decide (t.phase = 2)) = some t) (hmember : t.devs.contains m.fromDev = true)
    (hfirst : t.ready.contains m.fromDev = false) (hawake : asleep s = false)
    (hg : (if m.status ≠ 0 then abortTxn t m.status s.start
      else allPrepared t.num (modTxn t.num (fun _ => { t with
        ready := t.ready ++ [m.fromDev]
        info := if t.change.headD 0 = 10 ∧ t.change.getD 1 0 = m.fromDev then (if m.body.getD 1 0xFF ≠ 0xFF then m.body.getD 1 0xFF else t.info)
          else t.info }) s.start)) = g s.start) :
    exec (.utPrepared m) s = .next (perform s g) := by
  refine packet_taken hawake ?_
  have hcounts : ¬ ((!(t.devs.contains m.fromDev)) = true ∨ t.ready.contains m.fromDev = true) := by
    rw [hmember, hfirst]
    decide
  simp only [show (s.start.ut.txns.find? fun t => decide (t.phase = 3) && decide ((lodeOf s.start t.lode).gid = m.subject)) = none from hcalm]
  rw [show (s.start.ut.txns.find? fun t => decide (t.num = m.txn) && decide (t.phase = 2)) = some t from hfind]
  exact (if_neg hcounts).trans hg

/-- A change that names no resource of this module joins without a scrub. -/
theorem utCommit_of_member {p : Prep} {u : State} (hprep : prepOf u m = some p) (howned : ownExtend u p = none) (hchange : p.change.headD 0 ≠ 10) :
    (match prepOf u m with
      | none => u
      | some p => match ownExtend u p with
        | some (mask, sets) =>
          if u.lm.scrubs.any fun x => x.what = .extend p.coord p.txn then u
          else startScrub (if sets.isEmpty then 200 else 60000) 10 p.lode (.extend p.coord p.txn) (each sets wipeSet (each (bitsOf 96 mask) wipeBlock u))
        | none =>
          match p.change with
          | 10 :: ws => modLode p.lode (fun d => { d with others := tmod {} d.others (ws.headD 0) fun h => { h with idx := m.body.getD 1 0xFF } }) (commitPrep p u)
          | _ => commitPrep p u) = commitPrep p u := by
  simp only [hprep, howned]
  split
  case h_1 ws hws => exact absurd (by rw [hws]; rfl) hchange
  case h_2 => rfl

end

/-- Settles O24: each message is read against the lists of transactions, prepared changes, peers and records as they stand. -/
theorem utwelasMessagesTaken : Obligations.UtwelasMessagesTaken := by
  unfold Obligations.UtwelasMessagesTaken
  refine ⟨fun s hassigned => run_start ?heartbeats, fun m s hpool => run_start (if_neg hpool), fun m s hpool hlater => run_start ?ownPool,
    fun m l s hawake h11 h10 h13 hlode hthawed => packet_taken hawake ?kept,
    fun m l n tl a s hawake hbody hlode hthawed hasked => packet_taken hawake ?begun,
    fun m p s hawake hprep howned hchange => packet_taken hawake (utCommit_of_member (u := s.start) hprep howned hchange),
    fun p s hcoord => ?reported, fun m p mask sets s hawake hprep howned hscrub => packet_taken hawake ?scrubbed,
    fun m p s hawake hprep => packet_taken hawake ?dropped,
    fun m t s hawake hcalm hfind hmember hfirst hchange hstatus => utPrepared_of_member hcalm hfind hmember hfirst hawake ?consented,
    fun t s hfind hphase htwin hready => allPrepared_sends hfind hphase htwin hready,
    fun t s hfind hmissing => allPrepared_waits hfind hmissing,
    fun m t s hawake hcalm hfind hmember hfirst hstatus => utPrepared_of_member hcalm hfind hmember hfirst hawake (if_pos hstatus),
    fun num t s hfind => run_start ?late, fun m t s hawake hbody hcalm hfind => packet_taken hawake ?committed,
    fun m l s hawake hlode hnone => packet_taken hawake ?takeover, fun dev s hpresent hother => run_start ?lost,
    fun m l s hawake hlode hcoord hthawed hbound => packet_taken hawake ?offered,
    fun m n l r s hawake hfind hstate hdonor => packet_taken hawake ?adopted,
    fun m s hawake hadopts hnone => packet_taken hawake ?revoked, fun m s hawake hother hnew => packet_taken hawake ?joins,
    fun m s hawake hself hassigned hserial => packet_taken hawake ?taken,
    fun m ms s hawake hpool hbody hlater => packet_taken hawake ?members, fun s hcoord => run_start (if_pos hcoord),
    fun dev s hawake => run_start ?refused, fun dev status s hawake hstatus => run_start ?welcomed⟩
  case heartbeats => exact if_neg (by rw [show s.start.dr.assigned = true from hassigned]; decide)
  case ownPool => exact (if_pos hpool).trans (learn_later hlater)
  case kept =>
    simp only [if_neg h11, h10, false_and, if_false, show findGid s.start m.subject = some l from hlode,
      show (lodeOf s.start l).frozen = false from hthawed, Bool.false_eq_true]
    split
    case h_1 dev n tl hbody => exact absurd (by rw [hbody]; rfl) h13
    case h_2 => rfl
  case begun =>
    have h11 : m.body.headD 0 ≠ 11 := by rw [hbody]; exact (by decide : 13 ≠ 11)
    have h10 : m.body.headD 0 ≠ 10 := by rw [hbody]; exact (by decide : 13 ≠ 10)
    refine (if_neg h11).trans ((if_neg fun h => h10 h.1).trans ?_)
    simp only [show findGid s.start m.subject = some l from hlode, show (lodeOf s.start l).frozen = false from hthawed, Bool.false_eq_true,
      if_false, hbody]
    rw [if_neg (not_not.mpr rfl), show (s.start.ut.asked.find? fun a => decide (a.1 = n) && decide (a.2.1 = l)) = some a from hasked]
  case reported =>
    simp only [commitPrep, hcoord, Bool.false_eq_true, if_false]
  case scrubbed =>
    simp only [show prepOf s.start m = some p from hprep, show ownExtend s.start p = some (mask, sets) from howned]
    exact if_neg (by rw [show (s.start.lm.scrubs.any fun x => x.what = .extend p.coord p.txn) = false from hscrub]; exact Bool.false_ne_true)
  case dropped => simp only [show prepOf s.start m = some p from hprep]
  case consented =>
    simp only [hstatus, ne_eq, not_true_eq_false, if_false, hchange, false_and]
  case late =>
    simp only [show (s.start.ut.txns.find? fun t => decide (t.num = num) && decide (t.phase = 2)) = some t from hfind]
  case committed =>
    simp only [hbody, false_and, if_false]
    cases findGid s.start m.subject
    all_goals
      dsimp only
      rw [show (s.start.ut.txns.find? fun t => decide (t.phase = 3) && decide ((lodeOf s.start t.lode).gid = m.subject)) = none from hcalm,
        show (s.start.ut.txns.find? fun t => decide (t.num = m.txn) && decide (t.phase = 4) && t.devs.contains m.fromDev) = some t from hfind]
  case takeover =>
    simp only [show findGid s.start m.subject = some l from hlode, show (s.start.ut.preps.find? fun p => decide (p.lode = l)) = none from hnone]
    rfl
  case lost =>
    refine if_neg (not_or.mpr ⟨?_, hother⟩)
    rw [show (peerOf s.start dev).lost = false from hpresent]
    exact Bool.false_ne_true
  case offered =>
    simp only [show findGid s.start m.subject = some l from hlode]
    refine if_neg (not_or.mpr ⟨not_not.mpr hcoord, not_or.mpr ⟨?_, not_not.mpr hbound⟩⟩)
    rw [show (lodeOf s.start l).frozen = false from hthawed]
    exact Bool.false_ne_true
  case adopted =>
    simp only [show (s.start.ut.records.find? fun t => decide (t.2.reqseq = m.reqseq) && decide (t.2.receiver = m.subject)) = some (n, r) from hfind,
      hstate, show ¬ (1 = 3) by decide, ne_eq, not_true_eq_false, if_false]
    rw [show findGid (modUrec n _ s.start) r.donor = some l from hdonor]
  case revoked =>
    have hknown : ¬ ((!(s.ut.adopts.any fun a => decide (a.2.2 = m.reqseq))) = true) := by rw [hadopts]; decide
    refine (if_neg hknown).trans ?_
    simp only [show (modLm _ s.start).ut.txns = [] from hnone, List.filter_nil]
    rw [show each ([] : List Txn) _ (modLm _ s.start) = modLm _ s.start from rfl]
    exact if_neg (by rw [show (modLm _ s.start).ut.txns = [] from hnone]; exact Bool.false_ne_true)
  case joins =>
    simp only [hother, decide_false, Bool.false_and, Bool.false_or, show (peerOf s.start m.fromDev).known = false from hnew, Bool.false_eq_true, if_false]
    rfl
  case taken =>
    have htaken : (decide (m.fromDev = s.dr.devid) && s.dr.assigned && decide (m.body.headD 0 ≠ s.chip.serialNo)) = true := by
      simp only [hself, hassigned, hserial, ne_eq, not_false_eq_true, decide_true, Bool.and_self]
    simp only [htaken, Bool.true_or, if_true]
  case members =>
    refine (if_neg (not_not.mpr hpool)).trans ?_
    simp only [hbody]
    exact learn_later hlater
  case refused =>
    simp only [show asleep s.start = false from hawake, Bool.false_eq_true, if_false, if_true]
  case welcomed =>
    simp only [show asleep s.start = false from hawake, Bool.false_eq_true, if_false, if_neg hstatus]

end Sys2Proof.Proofs

/-! ### The fabric manager's verbs (R347, R355 to R362) -/

namespace Sys2Proof.Proofs
open Sys2Proof.Machine

section
variable {via : Via} {code gid l : Nat} {s : State} {f : Nat → State → State} {g : State → State}

/-- A verb that names a live lode. -/
theorem lodeVerb_requested (h : requested via code s) (hlive : findLive s via gid = .ok l) (hf : f l s.start = g s.start) :
    verb via code s (fun u => match findLive u via gid with
      | .error e => reject via e u
      | .ok l => f l u) = .next (perform s g) := by
  refine verb_requested h ?_
  rw [show findLive s.start via gid = .ok l from hlive]
  exact hf

/-- A verb that names a lode of this module that may be frozen. -/
theorem runVerb_requested (h : requested via code s) (hrun : findRun s via gid = some l) (hf : f l s.start = g s.start) :
    verb via code s (fun u => match findRun u via gid with
      | none => reject via Err.lodeUnknown u
      | some l => f l u) = .next (perform s g) := by
  refine verb_requested h ?_
  rw [show findRun s.start via gid = some l from hrun]
  exact hf

end

/-- Settles O25: each verb's checks read the lode's members, the pool and the records as they stand. -/
theorem utwelasVerbsCarriedOut : Obligations.UtwelasVerbsCarriedOut := by
  unfold Obligations.UtwelasVerbsCarriedOut
  refine ⟨fun dev s hreq hdev => verb_requested hreq ?stored, fun via dev s hreq hvia => verb_requested hreq (if_pos hvia),
    fun dev s hreq hdev => verb_requested hreq ((if_neg (not_not.mpr rfl)).trans (if_pos hdev)),
    fun via dev a b s hreq hdev ha hb hab hcoord hpool => verb_requested hreq ?moved,
    fun via gid dev mask l sets credits s hreq hlive hcoord hdev hother hcredits hassigned hgid hnew hroom =>
      lodeVerb_requested hreq hlive ((if_pos hcoord).trans ?extended),
    fun via gid dev mask l sets credits s hreq hlive hcoord => lodeVerb_requested hreq hlive (if_neg hcoord),
    fun via gid dev l s hreq hlive hcoord hmember htwo hhome => lodeVerb_requested hreq hlive ((if_pos hcoord).trans ?shrunk),
    fun via gid dev l s hreq hlive hcoord => lodeVerb_requested hreq hlive (if_neg hcoord),
    fun via q donor recv ext ckpt l n f s hreq hlive hrecv hfence hfree => lodeVerb_requested hreq hlive ?offered,
    fun via q donor recv ext ckpt l f s hreq hlive hrecv hfence hfull => lodeVerb_requested hreq hlive ?full,
    fun via dev kind s hreq hdev hkind => verb_requested hreq (if_neg (by omega)),
    fun via gid l s hreq hrun hfrozen => runVerb_requested hreq hrun ?released,
    fun via n l s hreq hrun => runVerb_requested hreq hrun rfl, fun via s hreq hmembers => verb_requested hreq ?pool⟩
  case stored => exact (if_neg (not_not.mpr rfl)).trans (if_neg (Nat.not_lt_of_le hdev))
  case moved =>
    have hformat : ¬ (16383 < dev ∨ 65535 < a ∨ 65535 < b ∨ a = b) := by omega
    have hhead : ¬ ((!(s.ut.poolCoord && (decide (s.ut.pool = a) || decide (s.ut.pool = b)))) = true) := by
      rcases hpool with hpool | hpool <;> simp [hcoord, hpool]
    exact (if_neg hformat).trans (if_neg hhead)
  case extended =>
    have hformat : ¬ (16383 < dev ∨ dev = s.dr.devid ∨ 32 < credits.length) := by omega
    have hnamed : ¬ ((!s.dr.assigned) = true ∨ (lodeOf s l).gid / 65536 = 0xFFFF) := by simp [hassigned, hgid]
    have hfree : ¬ ((membersOf s l).contains dev = true) := by rw [hnew]; exact Bool.false_ne_true
    exact (if_neg hformat).trans ((if_neg hnamed).trans ((if_neg hfree).trans (if_neg (Nat.not_le_of_lt hroom))))
  case shrunk =>
    have hknown : ¬ ((!(membersOf s l).contains dev) = true) := by rw [hmember]; decide
    exact (if_neg hknown).trans ((if_neg (Nat.not_lt_of_le htwo)).trans (if_neg hhome))
  case offered =>
    have hformat : ¬ (recv = 0 ∨ (!fenceFits s l f) = true) := by simp [hrecv, hfence]
    refine (if_neg hformat).trans ?_
    simp only [show ((List.range 4096).find? fun n => decide ((urecOf s.start n).state = 0)) = some n from hfree]
    rfl
  case full =>
    have hformat : ¬ (recv = 0 ∨ (!fenceFits s l f) = true) := by simp [hrecv, hfence]
    refine (if_neg hformat).trans ?_
    simp only [show ((List.range 4096).find? fun n => decide ((urecOf s.start n).state = 0)) = none from hfull]
    rfl
  case released => exact if_neg (by rw [show (lodeOf s.start l).frozen = true from hfrozen]; decide)
  case pool =>
    have hsome : ¬ (s.ut.poolMembers.isEmpty = true) := by rwa [List.isEmpty_iff]
    refine (if_pos rfl).trans ((if_pos rfl).trans ?_)
    simp only [if_neg hsome]

end Sys2Proof.Proofs

/-! ### Records are taken, dispatched and completed (R394 to R412) -/

namespace Sys2Proof.Proofs
open Sys2Proof.Machine

section
variable {l pos op : Nat} {r : Rec} {s : State}

/-- What an operation does to its record as it is dispatched (R404). -/
def nowRunning (r : Rec) : Rec := { r with stage := 2, ran := true }

/-- A record that may be dispatched, its descriptors good, starts. -/
theorem dispatch_starts {f : Rec → State → State} {g : State → State} (h : dispatchable s l pos op = some r) (hfresh : r.stale = false)
    (hf : f r (modRec l pos nowRunning s.start) = g s.start) : dispatch l pos op s f = .next (perform s g) := by
  refine run_start ?_
  rw [show dispatchable s.start l pos op = some r from h]
  simp only [hfresh, Bool.false_eq_true, if_false]
  exact hf

/-- A record with a stale descriptor ends without having run (R229). -/
theorem dispatch_of_stale {f : Rec → State → State} (h : dispatchable s l pos op = some r) (hstale : r.stale = true) :
    dispatch l pos op s f = .next (perform s (finishRec l pos Err.objectFreed)) := by
  refine run_start ?_
  rw [show dispatchable s.start l pos op = some r from h]
  simp only [hstale, if_true]

theorem pageLive_congr {p : Nat} {t : State} (hchip : t.chip = s.chip) (hlm : t.lm = s.lm) (hhp : t.hp = s.hp) : pageLive t p l = pageLive s p l := by
  have hlode : lodeOf t l = lodeOf s l := by rw [lodeOf, hlm, lodeOf]
  have hport : hportOf t p = hportOf s p := by rw [hportOf, hhp, hportOf]
  rw [pageLive, pageLive, bootDone_congr hchip, hlode, hport]

/-- A doorbell of a live page for an active queue moves the tail or flags a bad one, after what the access takes of the bucket (R273, R395). -/
theorem doTail_live {p : Nat} (hlive : pageLive s p l = true) (hactive : (queueOf s l).state = 1) :
    doTail p l pos (headAccess 8 s) = if pos < (queueOf s l).sqTail ∨ (queueOf s l).sqHead + 2 ^ (queueOf s l).sqLog < pos then
        modQueue l (fun q => { q with badTail := true }) (headAccess 8 s)
      else readEntries l (queueOf s l).sqTail pos (modQueue l (fun q => { q with sqTail := pos }) (headAccess 8 s)) := by
  have hqueue : queueOf (headAccess 8 s) l = queueOf s l := by simp [queueOf]
  have hpage : pageLive (headAccess 8 s) p l = true :=
    (pageLive_congr (headAccess_chip 8 s) (headAccess_lm 8 s) (headAccess_hp 8 s)).trans hlive
  simp only [doTail, hqueue, hpage, hactive, Bool.not_true, Bool.false_eq_true, ne_eq, not_true_eq_false, if_false]

/-- A record that passes the checks is translated, unless the descriptor store lacks the slots (R226). -/
theorem recordTake_checked {bits : Nat} {u t : State} (htake : mayTake s l bits = true) (hopen : (lodeOf s l).conf = false)
    (hentered : modQueue l (fun q => { q with
      sqHead := q.sqHead + rEntries bits, recs := q.recs ++ [{ pos := (queueOf s l).sqHead, bits := bits }] }) s.start = u)
    (hcheck : recCheck u l bits = 0) (hrec : translateRec l (queueOf s l).sqHead (modXl (fun x => { x with storeWait := none }) u) = t) :
    exec (.recordTake l bits true) s = .next (perform s fun v => if descSlots t ≤ 262144 then t else modXl (fun x => { x with storeWait := some l }) v) := by
  refine run_start ((if_pos htake).trans ?_)
  simp only [doTake, show (lodeOf s.start l).conf = false from hopen, show queueOf s.start l = queueOf s l from rfl, hentered, Bool.false_eq_true, false_and,
    if_false, ne_eq, not_true_eq_false, hcheck, hrec]

/-- A record that fails a check is rejected (R403). -/
theorem recordTake_rejected {bits : Nat} {u : State} (htake : mayTake s l bits = true) (hopen : (lodeOf s l).conf = false)
    (hentered : modQueue l (fun q => { q with
      sqHead := q.sqHead + rEntries bits, recs := q.recs ++ [{ pos := (queueOf s l).sqHead, bits := bits }] }) s.start = u)
    (hcheck : recCheck u l bits ≠ 0) :
    exec (.recordTake l bits true) s = .next (perform s fun _ => rejectRec l (queueOf s l).sqHead (recCheck u l bits) u) := by
  refine run_start ((if_pos htake).trans ?_)
  simp only [doTake, show (lodeOf s.start l).conf = false from hopen, show queueOf s.start l = queueOf s l from rfl, hentered, Bool.false_eq_true, false_and,
    if_false, ne_eq, not_true_eq_false, hcheck, not_false_eq_true, if_true]

/-- A record of a confidential lode whose tag does not verify ends with `E_CONF_TAG`. -/
theorem recordTake_forged {bits : Nat} (htake : mayTake s l bits = true) (hconf : (lodeOf s l).conf = true) (hkey : sessionKey s l ≠ none) :
    exec (.recordTake l bits false) s = .next (perform s fun u => modRec l (queueOf s l).sqHead (fun r => { r with stage := 3, error := Err.confTag })
      (modQueue l (fun q => { q with
        sqHead := q.sqHead + rEntries bits, recs := q.recs ++ [{ pos := (queueOf s l).sqHead, bits := bits }] }) u)) := by
  have hnokey : (sessionKey s.start l).isNone = false := Option.isNone_eq_false_iff.mpr (Option.isSome_iff_ne_none.mpr hkey)
  refine run_start ((if_pos htake).trans ?_)
  simp only [doTake, show (lodeOf s.start l).conf = true from hconf, hnokey, Bool.false_eq_true, and_false, if_false, Bool.not_false, and_self, if_true]
  exact if_pos (by decide)

theorem lodeOf_modCtx (c l' : Nat) (f : Ctx → Ctx) (s : State) : lodeOf (modCtx c f s) l' = lodeOf s l' := by
  rw [lodeOf, modCtx_lm, lodeOf]

theorem lodeOf_leaveBlock (b l' : Nat) (s : State) : lodeOf (leaveBlock b s) l' = lodeOf s l' :=
  each_proj (fun u => lodeOf u l') (fun e t => by rw [lodeOf, modEngine_lm, lodeOf]) (List.range 4) s

/-- A charge touches the contexts alone. -/
theorem charge_frame (c : Nat) (f : Tally → Tally) (s : State) : ∃ sch, charge c f s = { s with sch := sch } := by
  unfold charge
  split <;> exact ⟨_, rfl⟩

/-- An ended launch that leaves its blocks leaves the lodes as they are. -/
theorem lodeOf_leaveRec (pos' l' : Nat) : lodeOf (leaveRec l pos' s) l' = lodeOf s l' := by
  unfold leaveRec
  exact (each_proj (fun u => lodeOf u l') (fun c t => lodeOf_modCtx c l' _ t) _ _).trans
    (each_proj (fun u => lodeOf u l') (fun b t => lodeOf_leaveBlock b l' t) _ s)

/-- A record that ended without having run completes with its error once its work is done (R412). -/
theorem commandEnd_completes {ok : Bool} (hrec : recOf s l pos = some r) (hstage : r.stage = 3) (hcancel : r.cancel = 0) (hran : r.ran = false)
    (hhome : (lodeOf s l).home = true) (hdone : workDone s l pos = true) :
    exec (.commandEnd l pos ok) s = .next (perform s fun u =>
      afterEnd l (rCtx r.bits) (fitWaiting (complete l pos r.error r.error ok (leaveRec l pos u)))) := by
  refine run_start ?_
  have hends : ¬ ((decide (r.stage ≠ 3) || endWaits s.start l r || !workDone s.start l pos) = true) := by
    simp [hstage, endWaits, hcancel, show workDone s.start l pos = true from hdone]
  have hkept : ¬ (r.error = Err.cancelled ∧ r.cancel = 2) := by omega
  have hlode : (lodeOf (leaveRec l pos s.start) l).home = true := (congrArg Lode.home (lodeOf_leaveRec pos l)).trans hhome
  have hend : endRec l pos ok s.start = fitWaiting (complete l pos r.error r.error ok (leaveRec l pos s.start)) := by
    simp only [endRec, show recOf s.start l pos = some r from hrec, hstage, ne_eq, not_true_eq_false, if_false, hlode, Bool.not_true,
      Bool.false_eq_true, hkept, false_and]
  rw [show recOf s.start l pos = some r from hrec]
  refine (if_neg hends).trans ?_
  rw [hran, if_neg Bool.false_ne_true, hend]

/-- A launch of this chip whose constants are inline is placed on those of its blocks that are free (R401). -/
theorem launchHere_places (hslots : emptySlot s l (rSlots r.bits) = false) (hsome : launchParts s l (rSlots r.bits) ≠ [])
    (hdrain : (launchParts s l (rSlots r.bits)).any (fun b => (blockOf s b).drain) = false) (hinline : rConstLen r.bits ≤ 256) :
    launchHere l r s = (fun r' : Rec =>
      each ((launchParts s l (rSlots r.bits)).filter fun b => (blockOf s b).launch.isNone && !(blockOf s b).resetting && !remapWaits s b) (placeLaunch l r')
        (modRec l r.pos (fun x => { x with parts := r'.parts, consts := r'.consts }) s))
      { r with parts := launchParts s l (rSlots r.bits), consts := le (min (rConstLen r.bits) 256) (r.bits / 2 ^ 1024) } := by
  have hconsts : launchConsts s l r = .ok (le (min (rConstLen r.bits) 256) (r.bits / 2 ^ 1024)) := if_pos hinline
  have hplaces : ¬ ((launchParts s l (rSlots r.bits)).isEmpty = true) := by rwa [List.isEmpty_iff]
  simp only [launchHere, hslots, hdrain, hconsts, if_neg hplaces, Bool.false_eq_true, if_false]
  rfl

/-- A reduction in lode memory of no more than one chunk merges it and ends (R258). -/
theorem reduceGo_one_chunk {fuel : Nat} {src : List Byte} {t : State} (hrec : recOf s l pos = some r) (hstage : r.stage = 2)
    (hmoved : r.moved = 0) (hfresh : r.stale = false) (hlen : rLen r.bits ≠ 0) (hone : rLen r.bits ≤ 4096) (hshost : rShost r.bits = false)
    (hdhost : rDhost r.bits = false) (hread : rdSpace s l (resSpace r 0) 0 (rLen r.bits) = .ok src)
    (hmerge : reduceInto l r (rLen r.bits) src s = .ok t) (hkept : recOf t l pos = some r) :
    reduceGo l pos (fuel + 2) s = finishRec l pos 0 (modRec l pos (fun x => { x with moved := x.moved + rLen r.bits, consts := [], wrote := true }) t) := by
  have hchunk : min 4096 (rLen r.bits - r.moved) = rLen r.bits := by omega
  have hrest : recOf (modRec l pos (fun x => { x with moved := x.moved + rLen r.bits, consts := [], wrote := true }) t) l pos =
      some { r with moved := r.moved + rLen r.bits, consts := [], wrote := true } := by
    exact (recOf_modRec (f := fun x => { x with moved := x.moved + rLen r.bits, consts := [], wrote := true }) (fun _ => rfl) hkept).trans
      (congrArg some (if_pos ⟨rfl, rfl⟩))
  have hnone : min 4096 (rLen r.bits - (r.moved + rLen r.bits)) = 0 := by omega
  have hend : reduceGo l pos (fuel + 1) (modRec l pos (fun x => { x with moved := x.moved + rLen r.bits, consts := [], wrote := true }) t) =
      finishRec l pos 0 (modRec l pos (fun x => { x with moved := x.moved + rLen r.bits, consts := [], wrote := true }) t) := by
    simp only [reduceGo, hrest, hstage, hnone, ne_eq, not_true_eq_false, if_false, if_true]
  rw [← hend, reduceGo]
  have hread : rdSpace s l (resSpace r 0) r.moved (rLen r.bits) = .ok src := by rwa [hmoved]
  simp only [hrec, hchunk, hstage, hlen, hfresh, hshost, hdhost, hread, hmerge, ne_eq, not_true_eq_false, Bool.false_eq_true, false_and, if_false]

end

/-- Settles O27: a record that is dispatched reads blocks, units, contexts and the clock, none of which its own entry in the queue is
part of. -/
theorem recordsTakenAndDispatched : Obligations.RecordsTakenAndDispatched := by
  unfold Obligations.RecordsTakenAndDispatched
  refine ⟨fun p l pos s hawake hlive hactive hlow hhigh => run_start ?rings, fun p l pos s hawake hlive hactive hbad => run_start ?flagged,
    fun l bits s u t htake hopen hentered hcheck hrec hfits => ?taken, fun l bits s u t htake hopen hentered hcheck hrec hfull => ?full,
    fun l bits s u htake hopen hentered hcheck => recordTake_rejected htake hopen hentered hcheck,
    fun l bits s htake hconf hkey => recordTake_forged htake hconf hkey, fun l pos r s hrec hstage => run_start ?evaluated,
    fun l pos r s hdisp hfresh hhere hslots hsome hdrain hinline => ?launches,
    fun l pos r s hdisp hfresh haway hnew => ?forwarded,
    fun l pos n r s hdisp hfresh hunit hshost hdhost => dispatch_starts hdisp hfresh ?copies,
    fun l pos n r s hdisp hfresh hunit hdhost => dispatch_starts hdisp hfresh ?fills,
    fun l pos n r s hdisp hfresh hunit hshost hdhost hss hds => dispatch_starts hdisp hfresh ?converts,
    fun l pos r src s s1 t hdisp hfresh hshost hdhost hlen hone hs1 hrec hread hmerge hkept _ => ?reduces,
    fun l pos r r' s t hdisp hfresh hM hN hengine htile hrec hfailed => ?multiplies,
    fun l pos r s hdisp hfresh hreset => ?signals,
    fun l pos r s hstale => ⟨fun hdisp => ?staleLaunch, fun hdisp => ?staleMatmul⟩,
    fun l pos ok r s hrec hstage hcancel hran hhome hdone => commandEnd_completes hrec hstage hcancel hran hhome hdone⟩
  case rings =>
    have hring : ¬ (pos < (queueOf s l).sqTail ∨ (queueOf s l).sqHead + 2 ^ (queueOf s l).sqLog < pos) := by omega
    exact (if_neg (by rw [show asleep s.start = false from hawake]; exact Bool.false_ne_true)).trans
      ((doTail_live (s := s.start) hlive hactive).trans (if_neg hring))
  case flagged =>
    exact (if_neg (by rw [show asleep s.start = false from hawake]; exact Bool.false_ne_true)).trans
      ((doTail_live (s := s.start) hlive hactive).trans (if_pos hbad))
  case taken =>
    rw [recordTake_checked htake hopen hentered hcheck hrec]
    simp only [if_pos hfits]
  case full =>
    rw [recordTake_checked htake hopen hentered hcheck hrec]
    simp only [if_neg (Nat.not_le_of_lt hfull)]
  case evaluated =>
    rw [show recOf s.start l pos = some r from hrec]
    exact if_pos hstage
  case launches =>
    change execOpLaunch l pos s = _
    unfold execOpLaunch
    exact dispatch_starts hdisp hfresh ((if_pos (Or.inl hhere)).trans (launchHere_places hslots hsome hdrain hinline))
  case staleLaunch =>
    change execOpLaunch l pos s = _
    unfold execOpLaunch
    exact dispatch_of_stale hdisp hstale
  case staleMatmul =>
    change execOpMatmul l pos s = _
    unfold execOpMatmul
    exact dispatch_of_stale hdisp hstale
  case forwarded =>
    change execOpLaunch l pos s = _
    unfold execOpLaunch
    have hsend : ¬ (rDevid r.bits = s.dr.devid ∨ r.remote.isSome = true) := by simp [haway, hnew]
    exact dispatch_starts hdisp hfresh (if_neg hsend)
  case copies =>
    simp only [startTransfer, show opUnit (modRec l pos nowRunning s.start) l r.pos = some n from hunit, hshost, hdhost, Bool.false_eq_true, if_false,
      show ¬ (1 = 2) by decide, show ¬ (1 = 3) by decide, or_self, false_and]
    rfl
  case fills =>
    simp only [startTransfer, show opUnit (modRec l pos nowRunning s.start) l r.pos = some n from hunit, hdhost, Bool.false_eq_true, if_false,
      show ¬ (3 = 2) by decide, true_or, if_true, false_and]
    rfl
  case converts =>
    simp only [startTransfer, show opUnit (modRec l pos nowRunning s.start) l r.pos = some n from hunit, hshost, hdhost, hss, hds, Bool.false_eq_true, if_false,
      show ¬ (2 = 3) by decide, show ¬ (0 = 1) by decide, or_self, if_true, and_false, ne_eq, not_true_eq_false]
    rfl
  case reduces =>
    change execOpReduce l pos s = _
    unfold execOpReduce
    have hplain : ¬ ((lodeOf (modRec l pos nowRunning s.start) l).conf = true ∧ rDhost r.bits = true) := by simp [hdhost]
    refine dispatch_starts hdisp hfresh ?_
    refine (congrArg (reduceGo l pos (reduceFuel r)) (if_neg hplain)).trans ?_
    rw [show modRec l pos nowRunning s.start = s1 from hs1]
    exact reduceGo_one_chunk (r := { r with stage := 2, ran := true, moved := 0 }) hrec rfl rfl hfresh hlen hone hshost hdhost hread hmerge hkept
  case multiplies =>
    change execOpMatmul l pos s = _
    unfold execOpMatmul
    refine dispatch_starts hdisp hfresh ?_
    have hrow : (rM r.bits + 127) / 128 = 1 := by unfold rM at hM ⊢; omega
    have hcol : (rN r.bits + 127) / 128 = 1 := by unfold rN at hN ⊢; omega
    obtain ⟨sch, hcharged⟩ : ∃ sch, chargeHbm (rCtx r.bits) ((r.res.map fun x => x.2.1).sum) (modRec l pos nowRunning s.start) =
      { modRec l pos nowRunning s.start with sch := sch } := charge_frame ..
    have hable : hasEngine (chargeHbm (rCtx r.bits) ((r.res.map fun x => x.2.1).sum) (modRec l pos nowRunning s.start)) l = true := by
      rw [hcharged]
      exact hengine
    have htile : mmTile l r (0 * 128) (0 * 128) (chargeHbm (rCtx r.bits) ((r.res.map fun x => x.2.1).sum) (modRec l pos nowRunning s.start)) = .ok t :=
      htile
    simp only [hrow, hcol, hable, if_true, show List.range 1 = [0] from rfl, List.flatMap_cons, List.flatMap_nil, List.map_cons, List.map_nil,
      List.append_nil]
    simp only [each, List.foldl, htile, hrec, Option.bind_some, hfailed, List.head?_nil]
  case signals =>
    change execOpSignal l pos s = _
    unfold execOpSignal
    have hplain : ¬ ((rArg0 r.bits).testBit 16 = true ∧ r.fences.getD 0 0 ≠ 0) := by simp [hreset]
    exact dispatch_starts hdisp hfresh (congrArg (finishRec l pos (fld (rArg0 r.bits) 0 16)) (if_neg hplain))

end Sys2Proof.Proofs

/-! ### Queues and contexts end, scrubs release (R392, R413, R420 to R423, R482) -/

namespace Sys2Proof.Proofs
open Sys2Proof.Machine

/-- Settles O28: a queue without records and a context without them have nothing to end, so what is left is the teardown's own steps. -/
theorem queuesAndContextsTornDown : Obligations.QueuesAndContextsTornDown := by
  unfold Obligations.QueuesAndContextsTornDown
  refine ⟨fun via gid sq cq eq a b c first l s hreq hlive hhome hoff hpasid hsq hcq heq ha ha' hb hb' hc hc' => lodeVerb_requested hreq hlive ?setUp,
    fun via gid sq cq eq a b c first l s hreq hlive hhome hbad => lodeVerb_requested hreq hlive ?refused,
    fun via gid l f s hreq hlive hstate hfence => lodeVerb_requested hreq hlive ?destroyed,
    fun l s hstate hdraining hnone => run_start ?drained,
    fun via gid pos l s hreq hlive hstate hlow hhigh => lodeVerb_requested hreq hlive ?restarted,
    fun via gid pos l bits s hreq hvia hmirror => verb_requested hreq ?mirrored,
    fun via c l f s hreq hlode hhome hfence => verb_requested hreq ?tornDown,
    fun c s hstate hdraining hnone => run_start ?ctxDrained, fun id x s hfind => run_start ?scrubbed⟩
  case setUp =>
    have hplaced : ¬ (sq % 4096 ≠ 0 ∨ cq % 4096 ≠ 0 ∨ eq % 4096 ≠ 0 ∨ a < 6 ∨ 16 < a ∨ b < 6 ∨ 16 < b ∨ c < 4 ∨ 12 < c) := by omega
    exact (if_neg (by rw [show (lodeOf s.start l).home = true from hhome]; decide)).trans
      ((if_neg (not_or.mpr ⟨not_not.mpr hoff, hpasid⟩)).trans (if_neg hplaced))
  case refused =>
    exact (if_neg (by rw [show (lodeOf s.start l).home = true from hhome]; decide)).trans (if_pos hbad)
  case destroyed =>
    have hruns : ¬ ((queueOf s l).state = 0 ∨ (queueOf s l).state = 3) := by omega
    exact (if_neg hruns).trans (if_neg (by rw [show fenceFits s.start l f = true from hfence]; decide))
  case drained =>
    have hends : ¬ ((decide ((queueOf s l).state ≠ 3) || ((ctxsOf s l).any fun c => (ctxOf s c).draining) ||
        (queueOf s l).recs.any fun r => !workDone s l r.pos) = true) := by
      simp [hstate, hdraining, hnone]
    refine (if_neg hends).trans ?_
    rw [show (queueOf s.start l).recs = [] from hnone]
    rfl
  case restarted =>
    have hrange : ¬ (pos < (queueOf s l).sqHead ∨ (queueOf s l).sqTail < pos) := by omega
    exact (if_neg (not_not.mpr hstate)).trans (if_neg hrange)
  case mirrored =>
    rw [show findVia s.start via gid = some l from hvia]
    simp only [show ((queueOf s.start l).mirror.find? fun m => decide (m.1 = pos)) = some (pos, bits) from hmirror]
  case tornDown =>
    rw [show ctxLode s.start via c = .ok l from hlode]
    exact (if_neg (by rw [show (lodeOf s.start l).home = true from hhome]; decide)).trans
      (if_neg (by rw [show fenceFits s.start l f = true from hfence]; decide))
  case ctxDrained =>
    simp only [show ((queueOf s.start (ctxOf s.start c).lode).recs.filter fun r => decide (rCtx r.bits = c)) = [] from hnone, List.map_nil, List.any_nil,
      show (ctxOf s.start c).state = 3 from hstate, show (ctxOf s.start c).draining = true from hdraining, ne_eq, not_true_eq_false, decide_false,
      Bool.not_true, Bool.or_self, Bool.false_eq_true, if_false]
    rfl
  case scrubbed =>
    rw [show (s.start.lm.scrubs.find? fun x => decide (x.id = id)) = some x from hfind]
    rfl

end Sys2Proof.Proofs

/-! ### Contexts take turns, switch and move with their slice (R429 to R454) -/

namespace Sys2Proof.Proofs
open Sys2Proof.Machine

section
variable {l : Nat} {s : State}

/-- A change of a lode's turn that leaves its phase away from 0 is read back. -/
theorem schedOf_modSched {f : Sched → Sched} (h : (f (schedOf s l)).phase ≠ 0) : schedOf (modSched l f s) l = f (schedOf s l) :=
  tget_tmod_same ({} : Sched) s.sch.lodes l f fun hd => h (congrArg Sched.phase hd)

/-- In a table without double entries every change of a lode's turn is read back. -/
theorem schedOf_modSched_of_twf {f : Sched → Sched} (h : twf {} s.sch.lodes = true) : schedOf (modSched l f s) l = f (schedOf s l) :=
  tget_tmod_wf ({} : Sched) s.sch.lodes l f h

theorem schedOf_modCtx (c : Nat) (f : Ctx → Ctx) (s : State) : schedOf (modCtx c f s) l = schedOf s l := rfl

theorem queueOf_modCtx (c : Nat) (f : Ctx → Ctx) (s : State) : queueOf (modCtx c f s) l = queueOf s l := rfl

/-- Changes of contexts leave the turns of the lodes and their queues as they are. -/
theorem schedOf_each_modCtx (xs : List Nat) (f : Ctx → Ctx) (s : State) : schedOf (each xs (fun c => modCtx c f) s) l = schedOf s l :=
  each_proj (fun u => schedOf u l) (fun c u => schedOf_modCtx c f u) xs s

theorem queueOf_each_modCtx (xs : List Nat) (f : Ctx → Ctx) (s : State) : queueOf (each xs (fun c => modCtx c f) s) l = queueOf s l :=
  each_proj (fun u => queueOf u l) (fun c u => queueOf_modCtx c f u) xs s

/-- A verb on a context that its port may name. -/
theorem ctxVerb_requested {via : Via} {code c : Nat} {f : Nat → State → State} {g : State → State} (h : requested via code s)
    (hlode : ctxLode s via c = .ok l) (hf : f l s.start = g s.start) :
    verb via code s (fun u => match ctxLode u via c with
      | .error e => reject via e u
      | .ok l => f l u) = .next (perform s g) := by
  refine verb_requested h ?_
  rw [show ctxLode s.start via c = .ok l from hlode]
  exact hf

/-- While no scrub runs, no save slot is on its way out. -/
theorem savesLeaving_of_no_scrub (h : s.lm.scrubs = []) : savesLeaving s l = [] := by
  rw [savesLeaving, h]
  rfl

theorem doSaveReserve_grows {n : Nat} {more : List (Nat × Nat)} (hscrubs : s.lm.scrubs = []) (hheld : (tget [] s.lm.save l).length ≤ n)
    (hmore : ((setsOf s l).flatMap fun k => (freeSlots s l k).map fun i => (k, i)).take (n - (tget [] s.lm.save l).length) = more)
    (hfound : more.length = n - (tget [] s.lm.save l).length) :
    doSaveReserve l n s = (0, enc [(2, n)], modLm (fun m => { m with save := tset [] m.save l (tget [] s.lm.save l ++ more) }) s) := by
  have hall : (tget [] s.lm.save l).filter (fun p => !(savesLeaving s l).contains p) = tget [] s.lm.save l := by
    rw [savesLeaving_of_no_scrub hscrubs]
    exact List.filter_eq_self.mpr fun _ _ => rfl
  have henough : ¬ (more.length < n - (tget [] s.lm.save l).length) := by omega
  simp only [doSaveReserve, hall, if_pos hheld, hmore, if_neg henough]

/-- A quantum that ends outside a cyclic slot has the next turn decided with the turn charged (R440). -/
theorem quantumExpiry_decides {c : Nat} (hdecides : decides s l = true) (hphase : (schedOf s l).phase = 1) (hslot : slotRes s l = none)
    (hfree : lodeHeld s l = false)
    (hchoose : choose (chargeV (schedOf s l).running ((schedOf s l).quantum * 100000) s.start) l = some c) :
    exec (.quantumExpiry l) s = .next (perform s fun u => if c = (schedOf s l).running then
      decideTurn l (chargeV (schedOf s l).running ((schedOf s l).quantum * 100000) u) else preempt l c u) := by
  refine run_start ?_
  have hends : ¬ ((!decides s l) = true ∨ (schedOf s l).phase ≠ 1 ∨
      (decide ((slotRes s l).isSome) && decide (slotRes s l = some (ctxOf s (schedOf s l).running).res)) = true ∨ lodeHeld s l = true) := by
    simp [hdecides, hphase, hslot, hfree]
  refine (if_neg hends).trans ?_
  rw [show schedOf s.start l = schedOf s l from rfl]
  simp only [hchoose]

end

/-- Settles O29: each step reads the lode's turn as it stands; where a step reads it again after a change, the change left a phase that
the entry's default does not have, or the table is in order. -/
theorem contextsScheduled : Obligations.ContextsScheduled := by
  unfold Obligations.ContextsScheduled
  refine ⟨fun via gid root w d m r l c s hreq hlive hhome hattr hroot hfew hfree hsaves => lodeVerb_requested hreq hlive ?created,
    fun via gid root w d m r l s hreq hlive hhome hattr hroot hmany => lodeVerb_requested hreq hlive ?tooMany,
    fun via c dev root l s hreq hlode hstate hhome hother hmember hroot => ctxVerb_requested hreq hlode ?rootSent,
    fun via c w d m r l s hreq hlode hstate hhome hattr => ctxVerb_requested hreq hlode ?attributes,
    fun via gid n l more s hreq hlive hscrubs hheld hmore hfound =>
      verb_onDev (fun _ => enc [(2, n)]) hreq hlive rfl (doSaveReserve_grows (s := s.start) hscrubs hheld hmore hfound),
    fun via gid q i l s hreq hlive hq hq' hi hi' => lodeVerb_requested hreq hlive (if_neg (by omega)),
    fun via c l clear s hreq hlode => verb_requested hreq ?tally,
    fun l c s hdecides hphase hslot hfree hchoose hother => ?preempts,
    fun l s hdecides hphase hslot hfree hchoose => ?stays,
    fun l c s hdecides hphase hidle hchoose => run_start ?idles, fun l s hdecides htable hnext hphase => run_start ?guards,
    fun l id slots s htable hdecides hphase => run_start ?slot,
    fun l ns late s hphase hlive hstopped => run_start ?stops,
    fun l ns c s hphase hloads hincoming hstate hrdma => run_start ?switches,
    fun l s hphase hruns hfree => run_start ?overruns,
    fun via gid dl l s hreq hlive hhome hdl hcalm hphase hstill => lodeVerb_requested hreq hlive ?quiesces,
    fun l dl via s hquiesce hphase => run_start ?quiesceLate,
    fun via gid port l s hreq hlive hhome hport hports hphase => lodeVerb_requested hreq hlive ?moves,
    fun via gid l s hreq hlive hhome hphase hstill hnone htwf => lodeVerb_requested hreq hlive ?resumes⟩
  case created =>
    have hformat : ¬ (attrBad s l 4096 w d m r = true ∨ 2 ^ 25 ≤ root) := 
      not_or.mpr ⟨by rw [hattr]; exact Bool.false_ne_true, Nat.not_le_of_lt hroot⟩
    refine (if_neg (by rw [show (lodeOf s.start l).home = true from hhome]; decide)).trans ((if_neg hformat).trans ?_)
    rw [show ctxsOf s.start l = ctxsOf s l from rfl, if_neg (Nat.not_le_of_lt hfew), show freeCtxNo s.start = some c from hfree]
    exact if_neg (by rw [show savesShort s.start l 1 0 = false from hsaves]; exact Bool.false_ne_true)
  case tooMany =>
    have hformat : ¬ (attrBad s l 4096 w d m r = true ∨ 2 ^ 25 ≤ root) := 
      not_or.mpr ⟨by rw [hattr]; exact Bool.false_ne_true, Nat.not_le_of_lt hroot⟩
    refine (if_neg (by rw [show (lodeOf s.start l).home = true from hhome]; decide)).trans ((if_neg hformat).trans ?_)
    rw [show ctxsOf s.start l = ctxsOf s l from rfl, if_pos hmany]
    rfl
  case rootSent =>
    have hknown : ¬ ((!(lodeOf s l).home) = true ∨ (dev ≠ s.dr.devid ∧ (!(lodeOf s l).members.contains dev) = true)) := by
      rw [hhome, hmember]
      simp
    exact (if_neg hstate).trans ((if_neg hknown).trans (if_neg (not_or.mpr ⟨hother, Nat.not_le_of_lt hroot⟩)))
  case attributes =>
    exact (if_neg hstate).trans ((if_neg (by rw [show (lodeOf s.start l).home = true from hhome]; decide)).trans
      (if_neg (by rw [show attrBad s.start l c w d m r = false from hattr]; exact Bool.false_ne_true)))
  case tally =>
    refine (if_neg Bool.false_ne_true).trans ?_
    rw [show ctxLode s.start via c = .ok l from hlode]
    rfl
  case preempts =>
    rw [quantumExpiry_decides hdecides hphase hslot hfree hchoose]
    simp only [if_neg hother]
  case stays =>
    rw [quantumExpiry_decides hdecides hphase hslot hfree hchoose]
    simp only [if_true]
  case idles =>
    have hends : ¬ ((!decides s l) = true ∨ (schedOf s l).phase ≠ 1 ∨ runnable s (schedOf s l).running = true) := by
      simp [hdecides, hphase, hidle]
    refine (if_neg hends).trans ?_
    rw [show schedOf s.start l = schedOf s l from rfl]
    simp only [hchoose]
  case guards =>
    have hends : ¬ ((!decides s l) = true ∨ (!hasTable s l) = true ∨ nextRes s l = slotRes s l) := by simp [hdecides, htable, hnext]
    exact (if_neg hends).trans (if_pos hphase)
  case slot =>
    have hread : (schedOf (modSched l (fun d => { d with
        slot := if slots.length ≤ (schedOf s l).slot + 1 then 0 else (schedOf s l).slot + 1, guard := false }) s.start) l).phase = 2 := by
      rw [schedOf_modSched (s := s.start) (by rw [show (schedOf s.start l).phase = 2 from hphase]; decide)]
      exact hphase
    rw [show (s.start.img.applied.cyclic.find? fun t => decide (t.1 = (lodeOf s.start l).cyclic)) = some (id, slots) from htable]
    refine (if_neg (by rw [show decides s.start l = true from hdecides]; decide)).trans ?_
    exact (if_neg (by rw [show schedOf s.start l = schedOf s l from rfl, hread]; decide)).trans
      (if_neg (by rw [show schedOf s.start l = schedOf s l from rfl, hread]; decide))
  case stops =>
    have hgoes : ¬ ((schedOf s l).phase ≠ 2 ∨ (ctxOf s (schedOf s l).running).state = 3 ∨ (!stopped s l (schedOf s l).running) = true) := by
      simp [hphase, hlive, hstopped]
    exact if_neg hgoes
  case switches =>
    have hgoes : ¬ ((schedOf s l).phase ≠ 3 ∨ loadWaits s l = true) := by simp [hphase, hloads]
    have hchosen : (some c).filter (fun c => decide ((ctxOf s c).state = 1 ∨ (ctxOf s c).state = 2)) = some c := by simp [hstate]
    refine (if_neg hgoes).trans ?_
    simp only [show (schedOf s.start l).incoming = some c from hincoming]
    rw [show (some c).filter (fun c => decide ((ctxOf (modSched l _ s.start) c).state = 1 ∨ (ctxOf (modSched l _ s.start) c).state = 2)) = some c from hchosen]
    dsimp only
    rw [show (ctxOf (modSched l _ s.start) c).rdma = [] from hrdma]
    rfl
  case overruns => exact if_neg (by simp [show (schedOf s.start l).phase = 2 from hphase, show (schedOf s.start l).running ≠ 0xFFF from hruns,
      show lodeHeld s.start l = false from hfree])
  case quiesces =>
    have hready : ¬ ((schedOf s l).quiesce.isSome = true ∨ (schedOf s l).phase = 4 ∨ (schedOf s l).moving = true) := by
      simp [hcalm, hphase, hstill]
    exact (if_neg (by rw [show (lodeOf s.start l).home = true from hhome]; decide)).trans
      ((if_neg fun h => Nat.not_lt_of_le hdl h.2).trans (if_neg hready))
  case quiesceLate =>
    rw [show (schedOf s.start l).quiesce = some (via, dl) from hquiesce]
    exact if_neg hphase
  case moves =>
    have hplace : ¬ (2 ≤ port ∨ (decide (s.dr.devid = s.dr.devid) = true ∧ (hostPorts s).length ≤ port)) := by
      rintro (hlarge | ⟨-, hnone⟩) <;> omega
    refine (if_neg (by rw [show (lodeOf s.start l).home = true from hhome]; decide)).trans ((if_neg (by simp)).trans
      ((if_neg hplace).trans ((if_neg (not_not.mpr hphase)).trans ((if_neg (by simp)).trans (if_pos ?_)))))
    simp
  case resumes =>
    have hready : ¬ ((schedOf s l).phase ≠ 4 ∨ ((schedOf s l).moving = true ∧ (queueOf s l).state ≠ 1)) := by simp [hphase, hstill]
    refine (if_neg (by rw [show (lodeOf s.start l).home = true from hhome]; decide)).trans ((if_neg hready).trans ?_)
    dsimp only
    rw [queueOf_each_modCtx, show (queueOf (modSched l _ s.start) l).recs = [] from hnone]
    exact congrArg (answer via 0 []) (if_pos (congrArg Sched.phase ((schedOf_each_modCtx _ _ _).trans (schedOf_modSched_of_twf (s := s.start) htwf))))

end Sys2Proof.Proofs

/-! ### Rails, start-up and the training of the stacks (R490 to R492, R569 to R578) -/

namespace Sys2Proof.Proofs
open Sys2Proof.Machine

/-- Of the pseudo-channels of a stack, the one that failed and is not retired. -/
theorem filter_failed_singleton {k i : Nat} {s : State} (hi : i < 32) (hpc : (pcOf s (32 * k + i)).retired = false) :
    ((List.range 32).filter fun j => [i].contains j && !(pcOf s (32 * k + j)).retired) = [i] := by
  have hone : (fun j => [i].contains j && !(pcOf s (32 * k + j)).retired) = fun j => j == i := by
    funext j
    by_cases hj : j = i <;> simp [hj, hpc]
  rw [hone, List.filter_beq, List.count_eq_one_of_mem List.nodup_range (List.mem_range.mpr hi)]
  rfl

/-- Settles O30: the sequence's branches are read off the phase, the stage and what the stack's attempts have told so far. -/
theorem powerComesAndChipStarts : Obligations.PowerComesAndChipStarts := by
  unfold Obligations.PowerComesAndChipStarts
  refine ⟨fun s hphase => run_start (if_neg (Nat.not_le_of_lt hphase)), fun n s hphase => run_start (if_neg (Nat.not_lt_of_le hphase)),
    fun a b s hphase => run_start (if_pos hphase),
    fun a b s hphase hrail => run_start ((if_neg (Nat.not_le_of_lt hphase)).trans (if_pos hrail)),
    fun s hphase => run_start ((if_neg (Nat.not_le_of_lt hphase)).trans (if_neg (by decide))),
    fun b s hphase => run_start (if_neg (Nat.not_lt_of_le hphase)),
    fun tr r s t hstage hmain haux hshutdown hbundle hstill => run_start ?boots,
    fun k s hstage htraining hfirst => run_start ?passes, fun k i s hstage htraining hfirst hi hpc => run_start ?failsOnce,
    fun k i s hstage htraining hagain hi hpc htodo => run_start ?failsTwice, fun s hphase => run_start (if_pos hphase),
    fun b s hphase hlow hhigh hblock => run_start (if_neg (by
      rw [show (s.start).chip = s.chip from rfl, show blockOf s.start b = blockOf s b from rfl]; omega)),
    fun s hphase hxtal => run_start ?clockFails⟩
  case boots =>
    have hready : ¬ ((!stillAt 1 s) = true ∨ (!(s.chip.main && s.chip.aux)) = true ∨ s.pwr.shutdown ≠ 0) := by
      simp [hstage, hmain, haux, hshutdown]
    refine (if_neg hready).trans ?_
    simp only [hbundle, hstill, if_true]
    cases r <;> rfl
  case passes =>
    have hruns : ¬ ((!stillAt 5 s) = true ∨ (!s.chip.training.contains k) = true) := by simp only [hstage, htraining]; decide
    have hnone : ((List.range 32).filter fun j => ([] : List Nat).contains j && !(pcOf s.start (32 * k + j)).retired) = [] := by simp
    refine (if_neg hruns).trans ?_
    simp only [hnone]
    exact if_pos hfirst
  case failsOnce =>
    have hruns : ¬ ((!stillAt 5 s) = true ∨ (!s.chip.training.contains k) = true) := by simp only [hstage, htraining]; decide
    refine (if_neg hruns).trans ?_
    simp only [filter_failed_singleton (s := s.start) hi hpc]
    exact if_pos hfirst
  case failsTwice =>
    have hruns : ¬ ((!stillAt 5 s) = true ∨ (!s.chip.training.contains k) = true) := by simp only [hstage, htraining]; decide
    have hgone : [i].filter (fun j => (tget [] s.chip.hbmTodo k).contains j) = [i] := by simp only [List.filter, htodo]
    have hrest : [i].filter (fun j => !([i].contains j)) = [] := by simp
    refine (if_neg hruns).trans ?_
    simp only [filter_failed_singleton (s := s.start) hi hpc]
    refine (if_neg hagain).trans ?_
    simp only [hgone, hrest]
    rfl
  case clockFails =>
    exact if_neg (not_or.mpr ⟨hphase, by rw [show s.start.chip.xtalFall = false from hxtal]; exact Bool.false_ne_true⟩)

end Sys2Proof.Proofs

/-! ### Domains, Doze and Rest, and the power verbs (R496 to R503, R517) -/

namespace Sys2Proof.Proofs
open Sys2Proof.Machine

theorem le_alignUp {n a : Nat} (ha : 0 < a) : n ≤ alignUp n a := by
  have hdiv := Nat.div_add_mod' (n + a - 1) a
  have hmod := Nat.mod_lt (n + a - 1) ha
  unfold alignUp
  omega

theorem prefix_padTo {n : Nat} {l : List Byte} (h : l.length ≤ n) : l <+: padTo n l := by
  rw [padTo, List.take_of_length_le (by simp; omega)]
  exact List.prefix_append _ _

/-- Laying out further fields only adds to an answer. -/
theorem prefix_enc_fold (fs : List (Nat × Nat)) (hfs : ∀ f ∈ fs, 0 < f.1) (acc : List Byte) :
    acc <+: fs.foldl (fun acc f => padTo (alignUp acc.length f.1) acc ++ le f.1 f.2) acc := by
  induction fs generalizing acc with
  | nil => exact List.prefix_refl acc
  | cons f fs ih =>
    have hpad : acc <+: padTo (alignUp acc.length f.1) acc := prefix_padTo (le_alignUp (hfs f List.mem_cons_self))
    exact (hpad.trans (List.prefix_append _ (le f.1 f.2))).trans (ih (fun g hg => hfs g (List.mem_cons_of_mem f hg)) _)

/-- The first field of an answer stands at its start. -/
theorem take_enc_cons (n v : Nat) (fs : List (Nat × Nat)) (hfs : ∀ f ∈ fs, 0 < f.1) : (enc ((n, v) :: fs)).take n = le n v := by
  have hfirst : padTo (alignUp ([] : List Byte).length n) [] ++ le n v = le n v := by
    have hnone : alignUp 0 n = 0 := by
      rcases Nat.eq_zero_or_pos n with rfl | hn
      · rfl
      · rw [alignUp, Nat.div_eq_of_lt (by omega), Nat.zero_mul]
    rw [List.length_nil, hnone]
    rfl
  obtain ⟨rest, hrest⟩ := prefix_enc_fold fs hfs (le n v)
  rw [enc, List.foldl_cons, hfirst, ← hrest, List.take_left' (length_le_bytes n v)]

/-- A packet's command in a chip awake or asleep (R501). -/
theorem controlPacket_eq (k : Packet) (kind : Nat) (a : List Nat) (s : State) : exec (.controlPacketReceive k kind a) s = .next (perform s fun u =>
    if asleep s then modPwr (fun p => { p with heldCtl := p.heldCtl ++ [(k, kind, a)], wakeHeld := true }) u
    else afterOps (doControl k.sdev kind a u)) := run_start rfl

/-- A chip in Doze or Rest with a wake event wakes and performs what it held (R503). -/
theorem chipWake_wakes {s : State} (hchip : s.pwr.chip ≠ 0) (hentering : s.pwr.entering = false) (hwake : s.pwr.wakeHeld = true) :
    exec .chipWake s = .next (s.pwr.heldCtl.foldl performControl (s.pwr.heldWake.foldl performHeld (perform s wakeChip))) :=
  if_neg (by simp [hchip, hentering, hwake])

/-- Settles O31: the branches are read off the domain, the chip's state and what the chip holds while it sleeps. -/
theorem chipSleepsAndWakes : Obligations.ChipSleepsAndWakes := by
  unfold Obligations.ChipSleepsAndWakes
  refine ⟨fun b s hon hidle hup hdma hlode => run_start ?retains, fun b s hon hidle hup hdma hlode hfree => run_start ?goesDark,
    fun n s hbridge => run_start (if_pos hbridge), fun b c s hstopped => run_start (if_neg (by
      rintro ⟨hruns, hfree⟩; exact hstopped.elim (· hruns) (· hfree))),
    fun n s hawake hn hoff hblock => run_start ?wakesBlock, fun n s hawake hn => run_start ?wakesFabric,
    fun b c s hawake hb hc => run_start ?wakesCore, fun n s hawake => run_start ?wakesBridge, fun b e s hawake hb he => run_start ?wakesEngine,
    fun via st tick s hreq hst => verb_requested hreq ?asked, fun via tick s hreq => verb_requested hreq ?ran,
    fun s hauto hphase hawake hidle => run_start ?dozes, fun s hentering hstopped => run_start ?enters,
    fun s hchip hentering hwake hheld hctl => ?wakes, fun w p s hchip hentering hwake hheld hctl => ?wakesAndRetrains,
    fun s hat hreached hasleep => run_start (if_pos ⟨hat, hreached, hasleep⟩),
    fun p s hport hasleep => run_start ((if_neg (not_not.mpr hport)).trans (if_pos hasleep)),
    fun p s hport hawake hroom => run_start ?widens, fun k kind a s hawake => ?control, fun k kind a s hasleep => ?held,
    fun dev a s => by unfold doControl; rfl, fun via r pol pt s hreq hr hpol hpt => verb_requested hreq ?policy,
    fun via s hcarried => ?queried, fun via s hreq hshutdown hcool => verb_requested hreq ?restarts⟩
  case retains =>
    have hgoes : ¬ ((pblkOf s b).domain ≠ 0 ∨ (blockOf s b).launch.isSome = true ∨ (blockOf s b).resetting = true ∨ (!(dmaOf s b).isEmpty) = true) := by
      simp [hon, hidle, hup, hdma]
    exact (if_neg hgoes).trans (if_pos hlode)
  case goesDark =>
    have hgoes : ¬ ((pblkOf s b).domain ≠ 0 ∨ (blockOf s b).launch.isSome = true ∨ (blockOf s b).resetting = true ∨ (!(dmaOf s b).isEmpty) = true) := by
      simp [hon, hidle, hup, hdma]
    exact (if_neg hgoes).trans ((if_neg (not_not.mpr hlode)).trans (if_pos (.inl hfree)))
  case wakesBlock =>
    simp only [show asleep s.start = false from hawake, Bool.false_eq_true, if_false, if_pos hn]
    exact if_neg (not_or.mpr ⟨hoff, hblock⟩)
  case wakesFabric => simp only [show asleep s.start = false from hawake, Bool.false_eq_true, if_false, if_pos hn]
  case wakesCore =>
    have hdiv : (b * 32 + c) / 32 = b := by omega
    have hmod : (b * 32 + c) % 32 = c := by omega
    simp only [show asleep s.start = false from hawake, Bool.false_eq_true, if_false, hdiv, hmod, if_pos hb]
  case wakesBridge => simp only [show asleep s.start = false from hawake, Bool.false_eq_true, if_false]
  case wakesEngine =>
    have hdiv : (b * 4 + e) / 4 = b := by omega
    have hmod : (b * 4 + e) % 4 = e := by omega
    simp only [show asleep s.start = false from hawake, Bool.false_eq_true, if_false, hdiv, hmod, if_pos hb]
  case asked => exact (if_neg (by omega)).trans (if_neg (by omega))
  case ran => exact (if_neg (by decide)).trans (if_pos rfl)
  case dozes =>
    have hcalm : sleepBusy s = false := by
      have hidle := hidle
      simp only [idleChip, Bool.and_eq_true, Bool.not_eq_true'] at hidle
      exact hidle.1.1.1
    refine (if_pos ⟨hauto, hphase, by rw [show asleep s.start = false from hawake]; rfl, hidle⟩).trans ?_
    simp only [askSleep, show sleepBusy s.start = false from hcalm, Bool.not_false]
  case enters =>
    have hgoes : ¬ ((!(s.pwr.entering || (s.pwr.pending && !sleepBusy s)) || !allStopped s) = true) := by simp [hentering, hstopped]
    exact if_neg hgoes
  case wakes =>
    rw [chipWake_wakes hchip hentering hwake, hheld, hctl]
    rfl
  case wakesAndRetrains =>
    rw [chipWake_wakes hchip hentering hwake, hheld, hctl]
    rfl
  case widens =>
    exact (if_neg (not_not.mpr hport)).trans ((if_neg (by rw [show asleep s.start = false from hawake]; exact Bool.false_ne_true)).trans (if_pos hroom))
  case control =>
    rw [controlPacket_eq]
    simp only [hawake, Bool.false_eq_true, if_false]
  case held =>
    rw [controlPacket_eq]
    simp only [hasleep, if_true]
  case policy =>
    have hplace : ¬ ((8 ≤ r ∧ r ≠ 0xFF) ∨ topPoint s < pt) := by omega
    refine (if_neg (Nat.not_lt_of_le hpol)).trans ((if_neg hplace).trans ?_)
    simp only [if_neg (show r ≠ 0xFF by omega)]
    rfl
  case queried =>
    refine ⟨_, run_start ((if_pos ?asks).trans rfl), take_enc_cons 4 (pwrStatus s) _ ?_⟩
    case asks =>
      rw [show carries via 0x0802 s.start = true from hcarried]
      rfl
    simp only [List.append_eq, List.nil_append, List.forall_mem_append, List.forall_mem_map, List.forall_mem_singleton]
    refine ⟨⟨⟨⟨⟨⟨?_, ?_⟩, ?_⟩, ?_⟩, ?_⟩, ?_⟩, ?_⟩ <;> simp
  case restarts =>
    have hready : ¬ (s.pwr.shutdown ≠ 2 ∨ (!cooled s) = true) := by simp [hshutdown, hcool]
    exact if_neg hready

end Sys2Proof.Proofs

/-! ### Points, power loops and heat (R506 to R518) -/

namespace Sys2Proof.Proofs
open Sys2Proof.Machine

/-- What a host's access takes of its bucket touches the mesh alone. -/
theorem entered_frame (who : Writer) (s : State) : ∃ noc, entered who s = { s with noc := noc } := ⟨_, entered_eq who s⟩

section
variable {who : Writer} {s : State}

/-- An admitted write of a power register whose value the table in use has. -/
theorem pointWrite_admitted {n count off v : Nat} {k g : State → State} (h : admits who 13 s) (hn : n < count) (hv : v % 8 ≤ topPoint s)
    (hk : k (entered who s.start) = g s.start) :
    powerCmd who 13 off (if count ≤ n then 2 else if topPoint s < v % 8 then 8 else 0) s k = .next (perform s g) := by
  rw [if_neg (Nat.not_le_of_lt hn), if_neg (Nat.not_lt_of_le hv)]
  exact powerCmd_admitted (s := s) h hk

/-- The governor does not hold the points against this writer (R508). -/
theorem not_governed (hgov : isHost who = true → s.pwr.gov = false) : ¬ (isHost who = true ∧ (entered who s.start).pwr.gov = true) := by
  rintro ⟨hhost, hheld⟩
  rw [entered_pwr, show s.start.pwr.gov = false from hgov hhost] at hheld
  exact Bool.false_ne_true hheld

end

/-- Settles O32: each step's conditions are on readings and points as they stand, which neither an access's payment nor a step's own
earlier change touches. -/
theorem pointsPowerAndHeatGoverned : Obligations.PointsPowerAndHeatGoverned := by
  unfold Obligations.PointsPowerAndHeatGoverned
  refine ⟨fun who r v s hadmits hr hv hgov hfloor => pointWrite_admitted hadmits hr hv ?raised, fun r v s hnew => if_neg hnew,
    fun who r v s hadmits hr hv hgov hfloor => pointWrite_admitted hadmits hr hv ?discarded,
    fun who b v s hadmits hb hv hgov hsealed hvcur => pointWrite_admitted hadmits hb hv ?requested,
    fun who b v s hadmits hb hv hgov hbad => pointWrite_admitted hadmits hb hv ?refused,
    fun r s hramp => run_start (if_pos hramp), fun b s hgov hsealed hpolicy hcap => run_start ?follows,
    fun ws uj s hgov => run_start ?sampled, fun b s hsamples hover hsome => run_start ?lowers,
    fun b s hsamples hover hnone hduty => run_start ?limits, fun s hduty => run_start (if_pos hduty),
    fun s hsamples hover htier => run_start ?memory, fun order kept full s u v hawake hkept hu hfull hv => run_start ?links,
    fun order s hasleep => run_start (if_pos hasleep), fun n r c s hregion hlow hhigh => run_start ?warm,
    fun n r c s hregion hhot hold => run_start ?hot, fun r s hdies hany ht0 ht7 => run_start ?caps,
    fun r s hdies hany hall ht hheld => run_start ?uncaps, fun s hhot hdies hshutdown => run_start ?shutsDown,
    fun s hshutdown => run_start (if_neg (not_not.mpr hshutdown)),
    fun s hshutdown hauto hcool => run_start (if_pos ⟨hshutdown, hauto, hcool⟩), fun k c s hc => run_start (if_neg (by omega))⟩
  case raised =>
    obtain ⟨noc, hentered⟩ := entered_frame who s.start
    refine (if_neg (not_governed hgov)).trans ?_
    rw [hentered]
    exact if_neg (Nat.not_lt_of_le hfloor)
  case discarded =>
    obtain ⟨noc, hentered⟩ := entered_frame who s.start
    refine (if_neg (not_governed hgov)).trans ?_
    rw [hentered]
    exact if_pos hfloor
  case requested =>
    obtain ⟨noc, hentered⟩ := entered_frame who s.start
    refine (if_neg (not_governed hgov)).trans ?_
    have hfree : ¬ (sealedBlock s b = true ∨ (pregOf s (b / 12)).vcur < v % 8) :=
      not_or.mpr ⟨by rw [hsealed]; exact Bool.false_ne_true, Nat.not_lt_of_le hvcur⟩
    rw [hentered]
    exact if_neg hfree
  case refused =>
    obtain ⟨noc, hentered⟩ := entered_frame who s.start
    refine (if_neg (not_governed hgov)).trans ?_
    rw [hentered]
    exact if_pos hbad
  case follows => exact if_pos ⟨hgov, by rw [show sealedBlock s.start b = false from hsealed]; rfl, hpolicy, hcap⟩
  case sampled => exact if_neg fun h => Bool.false_ne_true (hgov.symm.trans h.1)
  case lowers =>
    have hsome : ¬ (((bulkBlocks s).filter fun b => decide (0 < effPoint s b)).isEmpty = true) := by rwa [List.isEmpty_iff]
    exact (if_neg (by rwa [List.isEmpty_iff])).trans ((if_pos hover).trans (if_neg hsome))
  case limits =>
    have hnone : ((bulkBlocks s).filter fun b => decide (0 < effPoint s b)).isEmpty = true := by rw [hnone]; rfl
    exact (if_neg (by rwa [List.isEmpty_iff])).trans ((if_pos hover).trans ((if_pos hnone).trans
      (if_neg (by rw [show s.start.pwr.duty = false from hduty]; exact Bool.false_ne_true))))
  case memory => exact (if_neg (by rwa [List.isEmpty_iff])).trans ((if_pos hover).trans (if_pos htier))
  case links =>
    refine (if_neg (by rw [show asleep s.start = false from hawake]; exact Bool.false_ne_true)).trans ?_
    simp only [show ((List.range 32).filter (portUp s.start)).filter (sealedPort s.start) = kept from hkept, hu, hfull, hv]
  case warm =>
    simp only [hregion]
    exact (if_neg fun h => absurd h.1 (by omega)).trans (if_neg fun h => absurd h.1 (by omega))
  case hot =>
    simp only [hregion]
    exact if_pos ⟨hhot, hold⟩
  case caps =>
    refine (if_neg (by rw [show diesOn s.start = true from hdies]; decide)).trans ((if_pos hany).trans ((if_neg ht0).trans ?_))
    rw [decide_eq_false (show ¬ (pregOf s.start r).tcap = 7 from ht7)]
    rfl
  case uncaps =>
    have hraises : ((regionSensors r ++ headSensors).map (sensorOf s)).all (fun c => decide (c ≤ 97)) = true ∧ (pregOf s r).tcap < 7 ∧
        (!(pregOf s r).held) = true := ⟨hall, by omega, by rw [hheld]; rfl⟩
    refine (if_neg (by rw [show diesOn s.start = true from hdies]; decide)).trans ((if_neg (by
      rw [show ((regionSensors r ++ headSensors).map (sensorOf s.start)).any (fun c => decide (100 ≤ c)) = false from hany]
      exact Bool.false_ne_true)).trans ((if_pos hraises).trans ?_))
    rw [decide_eq_false (show ¬ (pregOf s.start r).tcap = 6 from Nat.ne_of_lt ht)]
    rfl
  case shutsDown =>
    refine (if_pos (by rw [show tooHot s.start = true from hhot, show diesOn s.start = true from hdies]; rfl)).trans ?_
    exact if_neg (not_not.mpr hshutdown)

end Sys2Proof.Proofs

/-! ### Reset pins, cluster-memory floors and a peer's signal (R304, R594, R610 to R616) -/

namespace Sys2Proof.Proofs
open Sys2Proof.Machine

/-- A block's floors as a writer that is admitted changes them. -/
theorem cmaWrite_admitted {who : Writer} {b o size v : Nat} {f : Cma → Cma} {s : State} (h : admits who 4 s)
    (hopen : isHost who = true → confBlock s b = false) :
    cmaWrite who b o size v s f = .next (perform s fun u => modCma b f (wakeBlock b (entered who u))) := by
  refine regCmd_in_range h (if_neg ?_) rfl
  rintro ⟨hhost, hconf⟩
  rw [hopen hhost] at hconf
  exact Bool.false_ne_true hconf

section
variable {c : Cma}

theorem cma_go (hdirect : c.direct = false) (hstate : c.state ≠ 1) : Cma.go c = { c with going := true } := by
  simp [Cma.go, hdirect, hstate]

theorem cma_enter_direct (hdirect : c.direct = false) (hpending : c.pendingDirect = false) (hgoing : c.going = false) :
    Cma.setDirect true c = { c with direct := true, state := if c.state = 1 then 0 else c.state } := by
  simp [Cma.setDirect, hdirect, hpending, hgoing]

theorem cma_leave_direct (hdirect : c.direct = true) (hpending : c.pendingDirect = false) (hhold : c.hold = false) (hok : cmaOk c.live = true) :
    Cma.setDirect false c = { c with direct := false, hold := false } := by
  simp [Cma.setDirect, hdirect, hpending, hhold, hok]

/-- A commit is evaluated at the safe point: it goes live where the rule holds and waits where it does not (R612). -/
theorem cma_safePoint_commit (hdirect : c.direct = false) (hgoing : c.going = true) (hpending : c.pendingDirect = false) :
    Cma.safePoint c = if cmaOk c.shadow then { c with live := c.shadow, good := c.shadow, state := 2, error := 0, going := false }
      else { c with going := false, state := 1 } := by
  by_cases hok : cmaOk c.shadow = true <;> simp [Cma.safePoint, hdirect, hgoing, hpending, hok]

end

theorem phase_setPerst (p : Nat) (v : Bool) (s : State) : (setPerst p v s).chip.phase = s.chip.phase := by
  by_cases hp : p = 0 <;> simp [setPerst, modChip, hp]

/-- Settles O33: a pin's change leaves the mode and the phase that decide what follows it. -/
theorem pinsAndMemorySharesFollowed : Obligations.PinsAndMemorySharesFollowed := by
  unfold Obligations.PinsAndMemorySharesFollowed
  refine ⟨fun s => run_start rfl, fun s => run_start rfl, fun s hmode => run_start (if_neg hmode), fun p s hmode => run_start (if_pos hmode),
    fun p s hmode hphase => run_start ?comesUp, fun s hmode => run_start (if_neg hmode),
    fun who b s hadmits hopen hdirect hstate => cmaWrite_admitted hadmits hopen, fun c hdirect hstate => cma_go hdirect hstate,
    fun who b v s hadmits hopen => cmaWrite_admitted hadmits hopen,
    fun c hdirect hpending hgoing => cma_enter_direct hdirect hpending hgoing,
    fun c hdirect hpending hhold hok => cma_leave_direct hdirect hpending hhold hok,
    fun who b v s hadmits hopen => cmaWrite_admitted hadmits hopen, fun b s hon => run_start (if_pos hon),
    fun c hdirect hgoing hpending => cma_safePoint_commit hdirect hgoing hpending, fun c hdirect => if_pos hdirect,
    fun b l pos ctx s hhold hlaunch => run_start ?holdEnds, fun b s hdirect hstate hbad => run_start ?commitEnds,
    fun p lanes s hen himg hstate hlanes => run_start ?signal⟩
  case comesUp =>
    have hready : (setPerst p false s.start).chip.phase = 3 := (phase_setPerst p false s.start).trans hphase
    exact (if_pos hmode).trans (if_pos hready)
  case holdEnds =>
    refine (if_neg (by rw [show (cmaOf s.start b).hold = true from hhold]; decide)).trans ?_
    dsimp only
    rw [show launchOf (modCma b _ s.start) b = some (l, pos, ctx) from hlaunch]
  case commitEnds =>
    have hends : ¬ ((cmaOf s b).direct = true ∨ (cmaOf s b).state ≠ 1 ∨ cmaOk (cmaOf s b).shadow = true) := by simp [hdirect, hstate, hbad]
    exact if_neg hends
  case signal =>
    have htrains : ¬ ((!(portOf s p).enable) = true ∨ (!imagePort s p) = true ∨ (portOf s p).state ≠ 7 ∨ lanes % 16 &&& trainable (portOf s p) = 0) := by
      simp [hen, himg, hstate, hlanes]
    exact if_neg htrains

end Sys2Proof.Proofs

/-! ### Heartbeats, faults, resets and the reliability verbs (R521 to R552) -/

namespace Sys2Proof.Proofs
open Sys2Proof.Machine

section
variable {s : State}

/-- With no block agent to check, a check is of the headframe's counter alone (R536). -/
theorem canaryCheck_headframe (hnone : (List.range 96).filter (watched s) = []) (hon : s.ras.hf.on = true) (hchip : s.pwr.chip ≠ 2) :
    exec .canaryCheck s = .next (perform s fun u => if 3 ≤ s.ras.hf.check.misses then headframeHang (modRas (fun r => { r with hf := r.hf.check }) u)
      else afterOps (modRas (fun r => { r with hf := r.hf.check }) u)) := by
  refine run_start ?_
  have hchecks : ¬ ((!s.ras.hf.on) = true ∨ s.pwr.chip = 2) := by simp [hon, hchip]
  simp only [show (List.range 96).filter (watched s.start) = [] from hnone, List.filter_nil]
  exact if_neg hchecks

/-- A block that stands on its own and is not being reset is reset as asked (R545). -/
theorem startBlockReset_starts {b : Nat} (c : Nat) (cap : Bool) (hblock : (blockOf s b).resetting = false) (hregion : (regionOf s (b / 12)).resetting = false)
    (hstate : (blockOf s b).state ≠ 6) (hb : b < 96) :
    startBlockReset b c cap s = (fun v : State => if cap && v.ras.capEn then
        modRas (fun r => { r with caps := r.caps ++ [{ id := r.capNext, blocks := [b], region := none, cause := c }], capNext := r.capNext + 1 }) v
        else resetBlockNow b c v)
      (modRas (fun r => { r with blkRst := min 0xFF (r.blkRst + 1), hbs := tset {} r.hbs b {} })
        (endOpsOnBlock b Err.domainReset (modBlock b (fun k => { k with resetting := true, cause := c })
          (rasNotice 1 b c (event 0x906 6 3 b c 0 (lodeOfUnit s ⟨3, b⟩) s))))) := by
  have hfree : ¬ ((blockOf s b).resetting = true ∨ (regionOf s (b / 12)).resetting = true ∨ (blockOf s b).state = 6 ∨ 96 ≤ b) := by
    rw [hblock, hregion]
    simp [hstate, hb]
  exact if_neg hfree

/-- The mask of one lane names that lane. -/
theorem lanesOf_two_pow {n : Nat} (hn : n < 4) : lanesOf (2 ^ n % 16) = [n] := by
  interval_cases n <;> rfl

end

/-- Settles O34: a fault's unit and its detail, a reset's phase and a lane's bit name the branch; nothing is read back after a change but
what the change does not touch. -/
theorem hangsFaultsAndResetsHandled : Obligations.HangsFaultsAndResetsHandled := by
  unfold Obligations.HangsFaultsAndResetsHandled
  refine ⟨fun s hphase hnone => run_start ?heartbeat, fun s hnone hon hchip hfew => ?checked, fun s hnone hon hchip hmany => ?hung,
    fun u d s hkind => run_start (congrArg afterOps ((if_pos rfl).trans (if_neg hkind))), fun n d s => run_start (congrArg afterOps ((if_pos rfl).trans (if_pos rfl))),
    fun n d s hd1 hd2 => run_start (congrArg afterOps ((if_neg Bool.false_ne_true).trans ((if_neg hd2).trans (if_neg hd1)))),
    fun n s => run_start rfl, fun n s => run_start rfl, fun n d s => run_start rfl, fun n d s => run_start rfl,
    fun u s hdeferred hreset hwait => run_start ?deferred, fun k s hphase hfew => run_start ((if_neg (Nat.not_lt_of_le hphase)).trans (if_pos hfew)),
    fun k s hphase hmany => run_start ((if_neg (Nat.not_lt_of_le hphase)).trans (if_neg (Nat.not_lt_of_le hmany))),
    fun b n s hidle => run_start ?engineCell, fun b n s hidle => run_start ?coreCell,
    fun b c s hphase => run_start (if_pos hphase), fun r c s hphase => run_start (if_pos hphase),
    fun c s hphase hout => run_start (if_neg (not_or.mpr ⟨Nat.not_lt_of_le hphase, hout⟩)),
    fun r s hresetting => run_start (if_pos hresetting),
    fun b s hblock hphase hcaps hresetting hregion hscrubs => run_start ?back,
    fun id c s hfind => run_start ?captured, fun l s hruns hcap => run_start ?watchdog, fun l s => run_start rfl,
    fun r hub s hbusy hheld hfabric => run_start ?fabric, fun via k n s hreq hn hretired hcount => verb_requested hreq ?queried,
    fun via p a n s hreq hport hlow hhigh halign => verb_requested hreq ?captureArea,
    fun via gid t l s hreq hlive ht => lodeVerb_requested hreq hlive (if_neg (Nat.not_lt_of_le ht)),
    fun via b s hreq hb hphase => verb_requested hreq ?resets, fun via p n s hreq hp hn hup htraining hretired => verb_requested hreq ?unretires,
    fun b c cap s hblock hregion hstate hb => startBlockReset_starts c cap hblock hregion hstate hb⟩
  case heartbeat =>
    refine (if_neg fun h => h.1 hphase).trans ?_
    simp only [List.contains_nil, Bool.not_false, Bool.true_and]
    rw [show ((List.range 96).filter fun b => decide ((blockOf s.start b).state ≠ 6) && !(blockOf s.start b).resetting &&
      decide ((pblkOf s.start b).domain = 0)) = [] from hnone]
    rfl
  case checked =>
    rw [canaryCheck_headframe hnone hon hchip]
    simp only [if_neg (Nat.not_le_of_lt hfew)]
  case hung =>
    rw [canaryCheck_headframe hnone hon hchip]
    simp only [if_pos hmany]
  case deferred =>
    refine if_pos ⟨hdeferred, ?_, ?_⟩
    · rw [show inReset s.start u = false from hreset]; rfl
    · rw [show mustWait s.start u = false from hwait]; rfl
  case engineCell =>
    rw [show (blockOf s.start b).launch = none from hidle]
    rfl
  case coreCell =>
    rw [show (blockOf s.start b).launch = none from hidle]
    rfl
  case back =>
    have hlives : ¬ ((blockOf s b).state = 6 ∨ s.chip.phase < 2) := not_or.mpr ⟨hblock, Nat.not_lt_of_le hphase⟩
    have hscrub : (blockOf s b).resetting = true ∧ (!(regionOf s (b / 12)).resetting) = true ∧ (!scrubsBlock s b) = true :=
      ⟨hresetting, by rw [hregion]; rfl, by rw [hscrubs]; rfl⟩
    refine (if_neg hlives).trans ?_
    rw [show (s.start.ras.caps.find? fun c => c.blocks.contains b) = none from hcaps]
    exact congrArg (fun v => afterOps (agentOn b v)) (if_pos hscrub)
  case captured =>
    rw [show (s.start.ras.caps.find? fun c => decide (c.id = id)) = some c from hfind]
    rfl
  case watchdog =>
    refine (if_neg (by rw [show watchdogRuns s.start l = true from hruns]; decide)).trans ?_
    have hoff : ¬ ((modRas (fun r => { r with canHung := tset false r.canHung l true }) s.start).ras.capEn = true) := by
      rw [show (modRas (fun r => { r with canHung := tset false r.canHung l true }) s.start).ras.capEn = s.ras.capEn from rfl, hcap]
      exact Bool.false_ne_true
    dsimp only
    rw [if_neg hoff]
    rfl
  case fabric => exact if_pos ⟨hbusy, by rw [show (pregOf s.start r).held = false from hheld]; rfl, hfabric⟩
  case queried =>
    refine (if_neg (Nat.not_le_of_lt hn)).trans ?_
    simp only [show (fcOf s.start ⟨k, n⟩).retired = true from hretired, show (fcOf s.start ⟨k, n⟩).count = 0 from hcount, if_true, ne_eq,
      not_true_eq_false, false_and, if_false]
    rfl
  case captureArea =>
    have hformat : ¬ ((!(hostPorts s).contains p) = true ∨ (n ≠ 0 ∧ (n < 2 ^ 20 ∨ 2 ^ 30 < n ∨ a % 4096 ≠ 0))) := by
      rw [hport]
      simp only [Bool.not_true, Bool.false_eq_true, false_or]
      omega
    exact if_neg hformat
  case resets =>
    exact (if_neg (by decide)).trans ((if_neg (by simp [hb])).trans ((if_neg (not_not.mpr hphase)).trans (if_pos rfl)))
  case unretires =>
    have hdown : ¬ (portUp s p = true ∨ training s p = true) := by simp [hup, htraining]
    have hlane : (lanesOf (2 ^ n % 16)).filter (fun k => (portOf s p).retired.testBit k || (fcOf s ⟨7, 4 * p + k⟩).retired) = [n] := by
      rw [lanesOf_two_pow hn]
      simp [hretired]
    refine (if_neg (Nat.not_le_of_lt hp)).trans ((if_neg hdown).trans ?_)
    dsimp only
    rw [show (lanesOf (2 ^ n % 16)).filter (fun k => (portOf s.start p).retired.testBit k || (fcOf s.start ⟨7, 4 * p + k⟩).retired) = [n] from hlane]
    rfl

end Sys2Proof.Proofs

/-! ### The event recorder (chapter 19) -/

namespace Sys2Proof.Proofs
open Sys2Proof.Machine

/-- A command that changes the event recorder alone. -/
theorem run_evr {s : State} {f : State → State} {r : Evr} (h : f s.start = { s.start with evr := r }) :
    run s f = .next { s with evr := r, edits := [] } :=
  congrArg Host.Outcome.next (perform_silent (t := { s.start with evr := r }) h rfl rfl rfl)

section
variable {s : State} {e : Ev} {rest : List Ev}

/-- A first staged record whose band has a page goes into it (R561). -/
theorem programEv_of_page {n : Nat} {r : Evr} (hpage : pageFor s.evr e = some (n, r)) :
    programEv e s = modEvr (fun _ => { r with pages := tmod {} r.pages n fun p => { p with recs := p.recs ++ [e] } }) s := by
  rw [programEv, hpage]

/-- A first staged record whose band finds no page is dropped and counted (R562). -/
theorem programEv_of_no_page (hpage : pageFor s.evr e = none) :
    programEv e s = modEvr (fun r => { r with dropped := min 0xFFFF (r.dropped + 1), dropRun := r.dropRun + 1 }) s := by
  rw [programEv, hpage]

/-- Outside a clear the first staged record is programmed, on a chip with power. -/
theorem eventRecordProgrammed_next (hstaging : s.evr.staging = e :: rest) (hphase : s.chip.phase ≠ 0) (hclearing : s.evr.clearing = []) :
    exec .eventRecordProgrammed s = run s fun u => noteDrops (programEv e (modEvr (fun r => { r with staging := rest }) u)) := by
  refine run_start ?_
  have hwaits : ¬ (s.chip.phase = 0 ∨ s.evr.clearing ≠ []) := not_or.mpr ⟨hphase, not_not.mpr hclearing⟩
  rw [show s.start.evr.staging = e :: rest from hstaging]
  exact if_neg hwaits

/-- A part of a clear's signature of a known algorithm, within its length, while no clear is in progress and the clear area has room, is
kept; the final one goes on to the challenge (R564). -/
theorem evrClear_next {via : Via} {last alg off : Nat} {final : Bool} {bs : List Byte} {g : State → State} (hreq : requested via 0x0932 s)
    (halg : alg = 1 ∨ alg = 2) (hlen : bs.length ≤ 4096) (hsig : off + bs.length ≤ sigLen alg) (hroom : s.evr.clears.length < 254)
    (hclearing : s.evr.clearing = [])
    (hg : (let u := modEvr (fun r => { r with sig := sigPut r.sig off bs }) s.start
      if !final then answer via 0 [] u
      else
        let sg := sigWhole u.evr.sig alg
        let v := modEvr (fun r => { r with sig := [] }) u
        match v.evr.chal with
        | none => reject via Err.evrAuth v
        | some c => if (sg.map (Config.verifies alg v.sec.authKey (c ++ le 4 last))).getD false then acceptClear via last c v
          else sigFailed (reject via Err.evrAuth v)) = g s.start) :
    exec (.evrClear via last alg off final bs) s = .next (perform s g) := by
  refine verb_requested hreq (Eq.trans ?_ hg)
  have hcode : ¬ (alg = 0 ∨ 2 < alg) := by omega
  have hformat : ¬ (4096 < bs.length ∨ sigLen alg < off + bs.length) := by omega
  have hbusy : ¬ (254 ≤ s.evr.clears.length ∨ s.evr.clearing ≠ []) := not_or.mpr ⟨Nat.not_le_of_lt hroom, not_not.mpr hclearing⟩
  exact (if_neg hcode).trans ((if_neg hformat).trans ((if_neg hbusy).trans rfl))

end

/-- Settles O35: the stated findings (no lode or a confidential one, the page a band takes, a busy or free clear area, a challenge that
stands) name the branch. -/
theorem eventRecorderWritesAndClears : Obligations.EventRecorderWritesAndClears := by
  unfold Obligations.EventRecorderWritesAndClears
  refine ⟨fun typ sev code kind num d gid s hgid => run_start ?unknown, fun typ sev code kind num d gid l s hgid hconf => run_start ?confidential,
    fun e rest n r s hstaging hphase hclearing hdrop hpage hr => ⟨_, eventRecordProgrammed_next hstaging hphase hclearing, ?programmed⟩,
    fun e rest s hstaging hphase hclearing hpage => (eventRecordProgrammed_next hstaging hphase hclearing).trans (run_start ?dropped),
    fun s hphase => run_evr (if_neg hphase),
    fun via first off rs s hreq hread => verb_requested hreq ?read, fun via c s hreq hc => verb_requested hreq ?challenge,
    fun s => run_evr rfl,
    fun via last alg off bs s hreq halg hlen hsig hroom hclearing => evrClear_next hreq halg hlen hsig hroom hclearing rfl,
    fun via last alg off bs s hreq halg hlen hsig hroom hclearing hchal => evrClear_next hreq halg hlen hsig hroom hclearing ?unasked,
    fun via last alg off bs c sg s hreq halg hlen hsig hroom hclearing hchal hwhole => evrClear_next hreq halg hlen hsig hroom hclearing ?answered,
    fun s hphase => run_evr (if_neg hphase)⟩
  case unknown =>
    rw [show findGid s.start gid = none from hgid]
    rfl
  case confidential =>
    rw [show findGid s.start gid = some l from hgid]
    simp only [Option.map_some, Option.getD_some, show (lodeOf s.start l).conf = true from hconf, if_true]
  case programmed =>
    refine perform_silent (t := { s.start with evr := { r with pages := tmod {} r.pages n fun p => { p with recs := p.recs ++ [e] } } }) ?_ rfl rfl rfl
    rw [programEv_of_page (s := modEvr (fun r => { r with staging := rest }) s.start) hpage]
    exact if_pos (Or.inl hr)
  case dropped => rw [programEv_of_no_page (s := modEvr (fun r => { r with staging := rest }) s.start) hpage]
  case read =>
    rw [show readFrom s.start.evr first off = .ok rs from hread]
  case challenge => exact congrArg (fun c => answer via 0 c (modEvr (fun r => { r with chal := some c, sig := [] }) { s.start with free := s.start.free + 1 })) hc
  case unasked =>
    simp only [show (modEvr (fun r => { r with sig := [] }) (modEvr (fun r => { r with sig := sigPut r.sig off bs }) s.start)).evr.chal = none from hchal]
    rfl
  case answered =>
    simp only [show (modEvr (fun r => { r with sig := [] }) (modEvr (fun r => { r with sig := sigPut r.sig off bs }) s.start)).evr.chal = some c from hchal,
      show sigWhole (modEvr (fun r => { r with sig := sigPut r.sig off bs }) s.start).evr.sig alg = some sg from hwhole]
    rfl

end Sys2Proof.Proofs

/-! ### Register accesses of a host (R378, R601 to R607) -/

namespace Sys2Proof.Proofs
open Sys2Proof.Machine

section
variable {p off size : Nat} {s : State}

/-- A host's read of a chip that it does not have to wake, or that is awake, is carried out. -/
theorem rcRegisterRead_next {g : State → State} (hwake : accessWakes off false = true → asleep s = false) (hg : doRead p off size s.start = g s.start) :
    exec (.rcRegisterRead p off size) s = .next (perform s g) := by
  refine run_start (Eq.trans ?_ hg)
  split
  · next h => exact if_neg (by rw [show asleep s.start = false from hwake h.2]; exact Bool.false_ne_true)
  · rfl

/-- A host's write to a chip that it does not have to wake, or that is awake, is carried out. -/
theorem registerWrite_next {v : Nat} {g : State → State} (hwake : accessWakes off true = true → asleep s = false)
    (hg : doWrite (.host p) off size v s.start = g s.start) : exec (.registerWrite (.host p) off size v) s = .next (perform s g) := by
  refine run_start (Eq.trans ?_ hg)
  split
  · next h => exact if_neg (by rw [show asleep s.start = false from hwake h.2.2]; exact Bool.false_ne_true)
  · rfl

/-- What an access takes of the bucket leaves the mailbox slots. -/
theorem slotOf_headAccess (m n : Nat) : slotOf (headAccess m s) p n = slotOf s p n := by
  rw [headAccess, payReq_eq]
  rfl

/-- What an access takes of the bucket leaves whose a register is. -/
theorem deadReg_headAccess (m : Nat) (r : Reg) : deadReg (headAccess m s) p r = deadReg s p r := by
  rw [headAccess, payReq_eq]
  rfl

/-- The registers do not tell a command's start. -/
theorem regAt_start : regAt s.start p off = regAt s p off := rfl

theorem oneReg_start : oneReg s.start p off = oneReg s p off := by
  rw [oneReg, regAt_start, regAt_start, ← oneReg]

/-- A read of BAR0 is carried out on a port with a function that answers, after what the access takes (R273). -/
theorem doRead_bar0 (hfunc : funcPresent s p = true) (hoff : off < 0x4000000) :
    doRead p off size s = emit (.readData (readBar0 p off size (headAccess size s)).1) (readBar0 p off size (headAccess size s)).2 := by
  refine (if_neg (by rw [hfunc]; decide)).trans ?_
  dsimp only
  rw [if_pos hoff]

/-- A write of BAR0 is carried out on a port with a function that answers, after what the access takes (R273). -/
theorem doWrite_bar0 {v : Nat} (hfunc : funcPresent s p = true) (hoff : off < 0x4000000) :
    doWrite (.host p) off size v s = writeBar0 (.host p) off size v (headAccess size s) :=
  (if_neg (by rw [hfunc]; decide)).trans (if_pos hoff)

/-- A write of BAR2 is carried out on a port with a function that answers, after what the access takes (R273). -/
theorem doWrite_bar2 {v : Nat} (hfunc : funcPresent s p = true) (hoff : 0x4000000 ≤ off) :
    doWrite (.host p) off size v s = writeBar2 p (off - 0x4000000) size v (headAccess size s) :=
  (if_neg (by rw [hfunc]; decide)).trans (if_neg (Nat.not_lt_of_le hoff))

/-- A read whose size and alignment are R601's and which lies in one register reads it as one part. -/
theorem readBar0_of_one (hok : accessOk off size = true) (hone : size = 8 → oneReg s p off = true) : readBar0 p off size s = readPart p off size s := by
  have hsplit : ¬ (size = 8 ∧ (!oneReg s p off) = true) := by
    rintro ⟨hsize, h⟩
    rw [hone hsize] at h
    exact Bool.false_ne_true h
  exact (if_neg (by rw [hok]; decide)).trans (if_neg hsplit)

/-- A read at the base of a register outside the block windows that may be read, and that no read clears, gives its value and changes
nothing. -/
theorem readPart_of_readable {r : Reg} (hboot : bootDone s = true ∨ earlyReg off = true) (hreg : regAt s p off = some r) (hbase : r.base = off)
    (hoff : off < 0x1000000) (hconf : r.conf = false) (hdead : deadReg s p r = false) (hlock : r.rlock = true → unlocked s r.fn = true)
    (hclear : r.clear = none) : readPart p off size s = (r.val % 2 ^ (8 * size), s) := by
  have hready : ¬ ((!bootDone s) = true ∧ (!earlyReg off) = true) := by
    rintro ⟨hnot, hlate⟩
    rcases hboot with h | h <;> simp [h] at hnot hlate
  have hreads : ¬ (r.conf = true ∨ deadReg s p r = true ∨ r.rlock = true ∧ (!unlocked s r.fn) = true) := by
    rintro (h | h | ⟨h, hnot⟩)
    · exact Bool.false_ne_true (hconf.symm.trans h)
    · exact Bool.false_ne_true (hdead.symm.trans h)
    · rw [hlock h] at hnot
      exact Bool.false_ne_true hnot
  have hwindow : wakesBlock off s = s := if_neg fun h => Nat.not_lt_of_le h.1 hoff
  refine (if_neg hready).trans ?_
  simp only [hreg]
  rw [if_neg hreads, hclear, hbase, Nat.sub_self, hwindow]
  simp only [fld, Nat.mul_zero, Nat.pow_zero, Nat.div_one]

/-- The header of a slot that is not busy takes a whole write (R378). -/
theorem writeSlot_header {n v : Nat} (hidle : (slotOf s p n).state ≠ 1) : writeSlot p n 0 8 v s =
    modSlot p n (fun m => { m with verb := v % 2 ^ 16, len := v / 2 ^ 16 % 2 ^ 16, tag := v / 2 ^ 48 % 2 ^ 16 }) s := by
  refine (if_neg hidle).trans ((if_pos (by decide)).trans ?_)
  simp only [if_true, fld, Nat.pow_zero, Nat.div_one]

/-- A mailbox slot's words are those of BAR2 from 0x60000 on, 0x4000 for each slot (R378). -/
theorem writeBar2_header {n v : Nat} (hn : n < 8) : writeBar2 p (0x60000 + n * 0x4000) 8 v s = writeSlot p n 0 8 v s := by
  have haligned : accessOk (0x60000 + n * 0x4000) 8 = true := by
    simp only [accessOk, Bool.and_eq_true, decide_eq_true_eq]
    exact ⟨rfl, by omega⟩
  refine (if_neg (by rw [haligned]; decide)).trans ((if_neg (by omega)).trans ((if_pos (by omega)).trans ?_))
  rw [show (0x60000 + n * 0x4000 - 0x60000) / 0x4000 = n by omega, show (0x60000 + n * 0x4000 - 0x60000) % 0x4000 = 0 by omega]

/-- A write of a slot's header wakes no chip (R501). -/
theorem accessWakes_header (n : Nat) : accessWakes (0x4060000 + n * 0x4000) true = false := by
  refine (if_neg (by omega)).trans ?_
  simp only [Bool.true_and, Bool.or_eq_false_iff, Bool.and_eq_false_iff, decide_eq_false_iff_not]
  exact ⟨Or.inl (by omega), Or.inr (by omega)⟩

end

/-- Settles O1: what a host's access takes of the bucket changes neither the registers' map nor the slots, so the stated findings name the
branch on the state after it. -/
theorem registersReadAndWritten : Obligations.RegistersReadAndWritten := by
  unfold Obligations.RegistersReadAndWritten
  refine ⟨fun p off size s r hfunc hwake hoff hok hboot hreg hbase hone hconf hdead hlock hclear => rcRegisterRead_next hwake ?read,
    fun p n v s hfunc hn hidle => registerWrite_next (fun h => ?awake) ?header,
    fun p off size v s hfunc hwake hoff hbad => registerWrite_next hwake ?misaligned⟩
  case read =>
    have hready : bootDone (headAccess size s).start = true ∨ earlyReg off = true :=
      hboot.imp_left fun h => (bootDone_congr (headAccess_chip size s)).trans h
    have hunlocked : r.rlock = true → unlocked (headAccess size s).start r.fn = true := fun h =>
      (unlocked_congr (headAccess_img size s)).trans (hlock h)
    rw [doRead_bar0 (s := s.start) hfunc (by omega), headAccess_start, readBar0_of_one hok (fun h => oneReg_start.trans (hone h)),
      readPart_of_readable hready (regAt_start.trans hreg) hbase hoff hconf ((deadReg_headAccess size r).trans hdead) hunlocked hclear]
  case awake => exact absurd h (by rw [accessWakes_header]; exact Bool.false_ne_true)
  case header =>
    rw [doWrite_bar2 (s := s.start) hfunc (by omega), show 0x4060000 + n * 0x4000 - 0x4000000 = 0x60000 + n * 0x4000 by omega, writeBar2_header hn]
    exact writeSlot_header (fun h => hidle (by rwa [slotOf_headAccess] at h))
  case misaligned =>
    rw [doWrite_bar0 (s := s.start) hfunc hoff]
    exact if_pos (by rw [hbad]; rfl)

end Sys2Proof.Proofs
